-- ==== Sys2Proof/Word.lean ====
section
/-! DEFINITION. The widths of the machine (spec 00 R3, 02 R10) and the one sparse, canonical table from which
registers, rows and memory are built. -/
namespace Sys2Proof

/-- A 64-bit register or address (R10). -/
abbrev Word := BitVec 64
/-- One byte of memory. -/
abbrev Byte := BitVec 8
/-- A vector register: one 2,048-byte row of a tile, byte 0 in the low bits (R3, R14). -/
abbrev Row := BitVec 16384
/-- A mask register, bit i for lane i (R13). -/
abbrev Mask := BitVec 2048
/-- The 64 scale containers of one tile row, container 0 in the low bits (R17, R124). -/
abbrev Scales := BitVec 1024

/-- A table from Nat keys to values: keys strictly rising, and no entry that equals the value `d` of an unlisted key. -/
abbrev SMap (α : Type) := List (Nat × α)

/-- The value at key `k`, `d` where nothing is listed. -/
def SMap.get {α : Type} (d : α) : SMap α → Nat → α
  | [], _ => d
  | (i, v) :: m, k => if k = i then v else SMap.get d m k

/-- The entries whose key is not `k`. -/
def SMap.drop {α : Type} (k : Nat) (m : SMap α) : SMap α := m.filter (fun p => p.1 != k)

/-- Write `v` at key `k`; writing `d` removes the entry. -/
def SMap.set {α : Type} [DecidableEq α] (d : α) : SMap α → Nat → α → SMap α
  | [], k, v => if v = d then [] else [(k, v)]
  | (i, w) :: m, k, v =>
    if k = i then (if v = d then SMap.drop k m else (k, v) :: m)
    else if k < i then (if v = d then (i, w) :: SMap.drop k m else (k, v) :: (i, w) :: m)
    else (i, w) :: SMap.set d m k v

/-- The canonical form: keys strictly rising and at least `lo`, no entry equal to `d`. -/
def SMap.wfFrom {α : Type} [DecidableEq α] (d : α) : Nat → SMap α → Bool
  | _, [] => true
  | lo, (i, v) :: m => decide (lo ≤ i) && decide (v ≠ d) && SMap.wfFrom d (i + 1) m

/-- The canonical form of a whole table. -/
def SMap.wf {α : Type} [DecidableEq α] (d : α) (m : SMap α) : Bool := SMap.wfFrom d 0 m

/-- Keys strictly rising and at least `lo`. -/
def SMap.rising {α : Type} : Nat → SMap α → Bool
  | _, [] => true
  | lo, (i, _) :: m => decide (lo ≤ i) && SMap.rising (i + 1) m

/-- Entries whose key is below `a`. -/
def SMap.below {α : Type} (a : Nat) : SMap α → SMap α
  | [] => []
  | (i, v) :: m => if i < a then (i, v) :: SMap.below a m else []

/-- Entries whose key is at least `a`. -/
def SMap.from {α : Type} (a : Nat) : SMap α → SMap α
  | [] => []
  | (i, v) :: m => if i < a then SMap.from a m else (i, v) :: m

/-- The `n` values at keys `a`, `a + 1`, … of a table whose keys are at least `a`. -/
def SMap.takeFrom {α : Type} (d : α) : SMap α → Nat → Nat → List α
  | _, _, 0 => []
  | [], a, n + 1 => d :: SMap.takeFrom d [] (a + 1) n
  | (i, v) :: m, a, n + 1 =>
    if i = a then v :: SMap.takeFrom d m (a + 1) n
    else d :: SMap.takeFrom d ((i, v) :: m) (a + 1) n

/-- The `n` values at keys `a` to `a + n - 1`. -/
def SMap.read {α : Type} (d : α) (m : SMap α) (a n : Nat) : List α := SMap.takeFrom d (SMap.from a m) a n

/-- The entries that values `vs` at keys `a`, `a + 1`, … need. -/
def SMap.listed {α : Type} [DecidableEq α] (d : α) : Nat → List α → SMap α
  | _, [] => []
  | a, v :: vs => if v = d then SMap.listed d (a + 1) vs else (a, v) :: SMap.listed d (a + 1) vs

/-- Write the values `vs` at keys `a`, `a + 1`, …. -/
def SMap.write {α : Type} [DecidableEq α] (d : α) (m : SMap α) (a : Nat) (vs : List α) : SMap α :=
  SMap.below a m ++ (SMap.listed d a vs ++ SMap.from (a + vs.length) m)

/-- Sign-extension of the low `n` bits of a natural to 64 bits (R4). -/
def sxN (n x : Nat) : Word := (BitVec.ofNat n x).signExtend 64

end Sys2Proof
end

