-- ==== Sys2Proof/Config.lean ====
section
/-! DEFINITION. What the manual leaves to an implementation or states by reference to another standard: opaque
constants, which no proof can see into (log 8), and the sizes of the package (R6). -/
namespace Sys2Proof.Config

/-- Architectural cores of the package (R6). -/
def nCores : Nat := 320
/-- Quires of the package (R6). -/
def nQuires : Nat := 40
/-- Dies of the package (R6). -/
def nDies : Nat := 4

/-- Cycles that a message whose order the spec gives takes at the least, in a package or between two (log 110). -/
def msgCycles : Nat := 16

/-- Whether a firmware image with this digest and signature verifies under the vendor key (R449 step 4). -/
opaque verifies (digest sig : BitVec 256) : Bool

/-- The ML-DSA-44 signature of an attestation report over the nonce, the package id, all measurement values, the offered features, the firmware
version and the encapsulation key (R452): the layout of the report and the identity key are not given. -/
opaque attest (nonce : BitVec 256) (pkg : BitVec 6) (mvs : List (BitVec 256)) (features : BitVec 128) (version : Nat) (kem : List (BitVec 8)) :
  BitVec 256

/-- The ML-KEM-768 encapsulation key of a report, and the secret that the host encapsulates to it in answer (R452). -/
opaque kemKey (dawn session report : Nat) : List (BitVec 8)
opaque kemSecret (dawn session report : Nat) : List (BitVec 8)

/-- Whether the n-th scrub of a word or line finds a single error there (R459): errors come from outside the machine. -/
opaque scrubSingle (n : Nat) : Bool

/-- Text and customization string under which KMAC256 makes the key of a direction, 0 into the package (R452): the spec gives neither. -/
opaque kmacText (dir : Nat) : List (BitVec 8)
opaque kmacCustom (dir : Nat) : List (BitVec 8)

/-- The random key that firmware loads into slot 0 at dawn (R449 step 5), one for each dawn. -/
opaque dawnKey (n : Nat) : BitVec 512

/-- The 8-bit type of each kind of message in its header (R417): the spec names the field and no codes. -/
opaque msgType (kind : Nat) : BitVec 8

/-- The generator state of a quire that firmware sets at dawn where the dawn configuration names none (R182). -/
opaque dawnGen (quire : Nat) : Word

end Sys2Proof.Config
end

