-- ==== Sys2Proof/Syntax.lean ====
section
/-! DEFINITION. The steps of the package: the instructions of the control core, the engine words, and the indivisible
steps that no word encodes (spec 95); one constructor of `Instr` for each row of the opcode table. -/
namespace Sys2Proof

/-- Number of a scalar register (R69). -/
abbrev GReg := BitVec 5
/-- Number of a vector register (R69). -/
abbrev VReg := BitVec 5
/-- Number of a branch target register (R69). -/
abbrev BReg := BitVec 2
/-- Number of a mask register (R69). -/
abbrev KReg := BitVec 3
/-- Number of a tile (R69). -/
abbrev TReg := BitVec 3

/-- WAIT and TOK of an instruction word (R63, R64). -/
structure Hdr where
  wait : BitVec 4
  popL : Bool
  popR : Bool
  pushL : Bool
  pushR : Bool
  deriving DecidableEq, Repr

/-- Element types (R36). -/
inductive ETy where
  | i8 | n8 | i16 | i32 | f32 | bf16 | f16 | e4m3 | e5m2 | e2m1 | ds8
  deriving DecidableEq, Repr

/-- Rounding modes (R45). -/
inductive Rm where
  | rne | rtz | rdn | rup | rna | rsto
  deriving DecidableEq, Repr

/-- Rounding codes of an instruction: a mode, or code 6, the mode of CTL.DRND (R45). -/
inductive RmCode where
  | mode (m : Rm)
  | ctl
  deriving DecidableEq, Repr

/-- Scalar types of the M family (R71). -/
inductive STy where
  | i8 | n8 | i16 | n16 | i32 | n32 | i64 | n64
  deriving DecidableEq, Repr

/-- Floating types of atomics and reductions: STY 2, 3 and 4 (R71). -/
inductive FSty where
  | bf16 | f16 | f32
  deriving DecidableEq, Repr

/-- Scopes, from narrow to wide (R73). -/
inductive Scope where
  | core | quire | vol | pkg | pod
  deriving DecidableEq, Repr

/-- Order and scope of an atomic; `.rlx` carries no scope (R251). -/
inductive AOrd where
  | rlx
  | acq (s : Scope)
  | rel (s : Scope)
  | ar (s : Scope)
  deriving DecidableEq, Repr

/-- Order of a FENCE (R268). -/
inductive FOrd where
  | acq | rel | ar
  deriving DecidableEq, Repr

/-- Conditions of BCC (R77). -/
inductive Cond where
  | eq | ne | lt | ge | ltn | gen
  deriving DecidableEq, Repr

/-- Target of PBR (R77, R105). -/
inductive PbrTarget where
  | rel (disp : BitVec 24)
  | reg (a : GReg) (disp : BitVec 24)
  deriving DecidableEq, Repr

/-- Conditions of VCMP (R76). -/
inductive VCond where
  | eq | ne | lt | le | gt | ge | un | or
  deriving DecidableEq, Repr

/-- Operations of KOP with the operands that they use (R76, R131). -/
inductive KOp where
  | and (a b : KReg) | or (a b : KReg) | xor (a b : KReg) | andn (a b : KReg)
  | not (a : KReg) | mov (a : KReg) | ones | zero
  deriving DecidableEq, Repr

/-- Operations of VPERM with their second operand (R76, R133). -/
inductive PermOp where
  | idx (b : VReg) | rot (b : GReg) | rev | ziplo (b : VReg) | ziphi (b : VReg) | even (b : VReg) | odd (b : VReg)
  deriving DecidableEq, Repr

/-- Number of coordinates of VMORTON (R76, R144). -/
inductive MortonOp where
  | c2
  | c3 (c : VReg)
  deriving DecidableEq, Repr

/-- Operators of RED and REDC (R78). -/
inductive Rop where
  | add | fadd | min | max | minn | maxn | fmin | fmax | and | or | xor
  deriving DecidableEq, Repr

/-- Engine selectors, one for each chain (R75, R275). -/
inductive Sel where
  | copy | mtx | mq1 | gath | coll
  deriving DecidableEq, Repr

/-- Access path classes (R247). -/
inductive Path where
  | core | copy | mtx | gath | coll
  deriving DecidableEq, Repr

/-- Contexts of a core (R154). -/
inductive Role where
  | L | C | S | F
  deriving DecidableEq, Repr

/-- What a notice tells its consumers (R344, R346, R357). -/
structure NoticeInfo where
  nid : Word
  tag : BitVec 32
  size : Nat
  prio : Nat
  producer : Nat
  deriving DecidableEq, Repr

/-- One spine: its edges as (parent, child) pairs of package ids, and whether it is the switch chain (R434). -/
structure Spine where
  edges : List (Nat × Nat)
  chain : Bool := false
  deriving DecidableEq, Repr

/-- What the root decides for a chunk at a recomputation (R437). -/
inductive ChunkFate where
  | restart | broadcast | finished
  deriving DecidableEq, Repr

/-- Contents of a message of the fabric (R417, R420, R422, R434 to R439). -/
inductive Body where
  | notice (n : NoticeInfo)
  | tableFull (nid : Word)
  | entryFree
  | segReq (nid : Word) (seg : Nat)
  | segData (nid : Word) (seg : Nat) (data : List Byte)
  | refuse (nid : Word)
  | ack (nid : Word)
  | decline (nid : Word)
  | withdraw (nid : Word)
  | pullEnd (nid : Word)
  | event
  | linkRow (pkg : Nat) (row : List Word)
  | time (gtc : Nat) (lock : Bool)
  | spines (entry : Nat) (fire : Nat) (build : Nat) (ltgen : Nat) (spines : List Spine) (fates : List ChunkFate)
  | chunkReady (entry : Nat) (fire : Nat) (build : Nat) (chunk : Nat) (final : Bool)
  | chunkReq (entry : Nat) (fire : Nat) (build : Nat) (chunk : Nat) (final : Bool) (seg : Nat)
  | chunkData (entry : Nat) (fire : Nat) (build : Nat) (chunk : Nat) (final : Bool) (seg : Nat) (data : List Byte)
  | chunkAck (entry : Nat) (fire : Nat) (build : Nat) (chunk : Nat) (final : Bool)
  | chunkRefuse (entry : Nat) (fire : Nat) (build : Nat) (chunk : Nat) (final : Bool)
  | collAgain (entry : Nat) (fire : Nat) (build : Nat)
  | collStop (entry : Nat) (fire : Nat) (build : Nat)
  | collEnd (entry : Nat) (fire : Nat)
  | headerReq (entry : Nat) (fire : Nat)
  | header (entry : Nat) (fire : Nat) (data : List Byte)
  | rankReq (entry : Nat) (fire : Nat) (seg : Nat)
  | rankData (entry : Nat) (fire : Nat) (seg : Nat) (data : List Byte)
  | collAbort (entry : Nat) (fire : Nat) (sub : Nat)
  deriving DecidableEq, Repr

/-- A message with its header (R406, R417); `made` is the cycle in which it was made, by which a port of this package orders it (R419). -/
structure Packet where
  dst : Nat
  src : Nat
  group : BitVec 16
  gen : BitVec 8
  mseq : BitVec 32
  body : Body
  made : Nat := 0
  deriving DecidableEq, Repr

/-- A flit (R417); the message stands on its LAST flit (log 9). One that is FIRST and LAST without a message carries an acknowledgement and credits
alone, or the negative acknowledgement of R418 (log 95). -/
structure Flit where
  seq : BitVec 8
  ack : BitVec 8
  vn : BitVec 2
  cvn : BitVec 2
  cret : BitVec 4
  first : Bool
  last : Bool
  nack : Bool := false
  payload : List Byte
  crc : BitVec 32
  msg : Option Packet
  deriving DecidableEq, Repr

/-- Requests of the host (R428, R450). -/
inductive HostReq where
  | read (pa : Nat) (len : Nat) (key : Nat)
  | write (pa : Nat) (key : Nat) (data : List Byte)
  | kick (qid : BitVec 16) (index : Word)
  | restart
  deriving DecidableEq, Repr

/-- A sealed datagram of a session (R427): its sequence number, the cumulative acknowledgement, the selective bitmap, its size, and whether it is
IPv6; `tagOk` says whether its tag verifies. -/
structure Datagram where
  session : Nat
  seq : BitVec 32
  ack : BitVec 32
  sack : BitVec 64 := 0
  size : Nat := 0
  v6 : Bool := false
  tagOk : Bool
  req : HostReq
  deriving DecidableEq, Repr

/-- What fuses, logs, the firmware image and the outside supply at dawn (R449, log 11). -/
structure DawnCfg where
  pkgid : BitVec 6
  digest : BitVec 256
  signature : BitVec 256
  /-- the boot ROM's verdict forced by the outside: an image known to verify -/
  trusted : Bool
  version : Nat
  gens : List (Nat × Word)
  /-- physical cores, of nine in each quire, that are logged as failed (R7, R449 step 3) -/
  failedCores : List Nat
  /-- LINK values as the links trained, and the round trip measured on each (R421, R426) -/
  links : List Word
  peers : List (Nat × List Word)
  /-- packages of the pod that have ended dawn, and whether each has LOCK from its own host port; the value that a control flit of the
  reference has brought already, with the round trip (R426) -/
  dawned : List (Nat × Bool) := []
  trips : List Nat := []
  gtcFromRef : Option (Nat × Nat)
  features : BitVec 128
  /-- DRAM lines that the fused list of row and channel repairs replaces (R449 step 2) -/
  repairs : List Nat := []
  /-- digests of the firmware's configuration and of the fused repair and spare maps (R451) -/
  cfgDigest : BitVec 256
  repairDigest : BitVec 256
  fwEntry : Word
  deriving DecidableEq, Repr

/-- Kinds of array in which a bit error can arise (R384). -/
inductive ArrayKind where
  | dram (pa : Nat)
  | sram (core : Nat) (addr : Nat)
  /-- the operand records of migrated product `i` of a chain of this core, oldest first (R343) -/
  | records (core chain i : Nat)
  /-- a line of a quire slice, with data of this physical address -/
  | slice (pa : Nat)
  deriving DecidableEq, Repr

/-- One step of the package. Steps of one core that no word encodes take their place (core, context, chain,
publication) from `State.cur`; every other step names in its operands where it happens or what arrives. The
constructors without operands stand last. -/
inductive Instr where
  -- Three-register scalar forms (R96, R97)
  | add (h : Hdr) (d a b : GReg)
  | sub (h : Hdr) (d a b : GReg)
  | mul (h : Hdr) (d a b : GReg)
  | mulh (h : Hdr) (d a b : GReg)
  | mulhn (h : Hdr) (d a b : GReg)
  | div (h : Hdr) (d a b : GReg)
  | divn (h : Hdr) (d a b : GReg)
  | rem (h : Hdr) (d a b : GReg)
  | remn (h : Hdr) (d a b : GReg)
  | and (h : Hdr) (d a b : GReg)
  | or (h : Hdr) (d a b : GReg)
  | xor (h : Hdr) (d a b : GReg)
  | andn (h : Hdr) (d a b : GReg)
  | shl (h : Hdr) (d a b : GReg)
  | shr (h : Hdr) (d a b : GReg)
  | sar (h : Hdr) (d a b : GReg)
  | rol (h : Hdr) (d a b : GReg)
  | min (h : Hdr) (d a b : GReg)
  | max (h : Hdr) (d a b : GReg)
  | minn (h : Hdr) (d a b : GReg)
  | maxn (h : Hdr) (d a b : GReg)
  | seq (h : Hdr) (d a b : GReg)
  | sne (h : Hdr) (d a b : GReg)
  | slt (h : Hdr) (d a b : GReg)
  | sltn (h : Hdr) (d a b : GReg)
  | sel (h : Hdr) (d a b c : GReg)
  | madd (h : Hdr) (d a b c : GReg)
  -- Immediate forms (R98, R100) and CLZ, CTZ, POPC (R97)
  | addi (h : Hdr) (d a : GReg) (imm : BitVec 32)
  | andi (h : Hdr) (d a : GReg) (imm : BitVec 32)
  | ori (h : Hdr) (d a : GReg) (imm : BitVec 32)
  | xori (h : Hdr) (d a : GReg) (imm : BitVec 32)
  | shli (h : Hdr) (d a : GReg) (n : BitVec 6)
  | shri (h : Hdr) (d a : GReg) (n : BitVec 6)
  | sari (h : Hdr) (d a : GReg) (n : BitVec 6)
  | slti (h : Hdr) (d a : GReg) (imm : BitVec 32)
  | sltni (h : Hdr) (d a : GReg) (imm : BitVec 32)
  | muli (h : Hdr) (d a : GReg) (imm : BitVec 32)
  | li (h : Hdr) (d : GReg) (imm : BitVec 32)
  | lih (h : Hdr) (d a : GReg) (imm : BitVec 32)
  | clz (h : Hdr) (d a : GReg)
  | ctz (h : Hdr) (d a : GReg)
  | popc (h : Hdr) (d a : GReg)
  | bfx (h : Hdr) (d a : GReg) (signed : Bool) (pos len1 : BitVec 6)
  | bfi (h : Hdr) (d a : GReg) (pos len1 : BitVec 6)
  -- Scratchpad loads and stores (R101, R102)
  | lds (h : Hdr) (ty : STy) (swz : BitVec 3) (d a : GReg) (off : BitVec 16)
  | sts (h : Hdr) (ty : STy) (swz : BitVec 3) (a b : GReg) (off : BitVec 16)
  -- Branches (R105, R106)
  | bcc (h : Hdr) (cc : Cond) (a b : GReg) (disp : BitVec 24)
  | j (h : Hdr) (disp : BitVec 24)
  | pbr (h : Hdr) (d : BReg) (t : PbrTarget)
  | br (h : Hdr) (a : BReg)
  | brl (h : Hdr) (a : BReg)
  | jr (h : Hdr) (a : GReg)
  -- System registers, time and events (R109 to R119)
  | nop (h : Hdr)
  | srd (h : Hdr) (d : GReg) (sys : BitVec 12)
  | swr (h : Hdr) (a : GReg) (sys : BitVec 12)
  | waitt (h : Hdr) (a : GReg)
  | waittP (h : Hdr) (a b : GReg)
  | wfe (h : Hdr)
  | sev (h : Hdr)
  | sevRemote (h : Hdr) (a : GReg)
  | halt (h : Hdr)
  -- Floating-point vector arithmetic (R126, R127)
  | vadd (h : Hdr) (k : KReg) (ty : ETy) (rm : RmCode) (sat : Bool) (d a b : VReg)
  | vsub (h : Hdr) (k : KReg) (ty : ETy) (rm : RmCode) (sat : Bool) (d a b : VReg)
  | vmul (h : Hdr) (k : KReg) (ty : ETy) (rm : RmCode) (sat : Bool) (d a b : VReg)
  | vfma (h : Hdr) (k : KReg) (ty : ETy) (rm : RmCode) (sat : Bool) (d a b c : VReg)
  | vfms (h : Hdr) (k : KReg) (ty : ETy) (rm : RmCode) (sat : Bool) (d a b c : VReg)
  | vmin (h : Hdr) (k : KReg) (ty : ETy) (d a b : VReg)
  | vmax (h : Hdr) (k : KReg) (ty : ETy) (d a b : VReg)
  | vabs (h : Hdr) (k : KReg) (ty : ETy) (d a : VReg)
  | vneg (h : Hdr) (k : KReg) (ty : ETy) (d a : VReg)
  | vdiv (h : Hdr) (k : KReg) (ty : ETy) (rm : RmCode) (sat : Bool) (d a b : VReg)
  | vsqrt (h : Hdr) (k : KReg) (ty : ETy) (rm : RmCode) (sat : Bool) (d a : VReg)
  | vrcp (h : Hdr) (k : KReg) (ty : ETy) (rm : RmCode) (sat : Bool) (d a : VReg)
  | vrsq (h : Hdr) (k : KReg) (ty : ETy) (rm : RmCode) (sat : Bool) (d a : VReg)
  | vexp2 (h : Hdr) (k : KReg) (ty : ETy) (rm : RmCode) (sat : Bool) (d a : VReg)
  | vlog2 (h : Hdr) (k : KReg) (ty : ETy) (rm : RmCode) (sat : Bool) (d a : VReg)
  -- Integer and bitwise vector arithmetic (R128)
  | viadd (h : Hdr) (k : KReg) (ty : ETy) (sat : Bool) (d a b : VReg)
  | visub (h : Hdr) (k : KReg) (ty : ETy) (sat : Bool) (d a b : VReg)
  | vimul (h : Hdr) (k : KReg) (ty : ETy) (sat : Bool) (d a b : VReg)
  | vand (h : Hdr) (k : KReg) (ty : ETy) (d a b : VReg)
  | vor (h : Hdr) (k : KReg) (ty : ETy) (d a b : VReg)
  | vxor (h : Hdr) (k : KReg) (ty : ETy) (d a b : VReg)
  | vshl (h : Hdr) (k : KReg) (ty : ETy) (d a b : VReg)
  | vshr (h : Hdr) (k : KReg) (ty : ETy) (d a b : VReg)
  | vsar (h : Hdr) (k : KReg) (ty : ETy) (d a b : VReg)
  | vimin (h : Hdr) (k : KReg) (ty : ETy) (d a b : VReg)
  | vimax (h : Hdr) (k : KReg) (ty : ETy) (d a b : VReg)
  -- Compares, select and masks (R129 to R131)
  | vcmp (h : Hdr) (k : KReg) (ty : ETy) (cc : VCond) (d : KReg) (a b : VReg)
  | vsel (h : Hdr) (k : KReg) (ty : ETy) (d a b : VReg)
  | kop (h : Hdr) (d : KReg) (op : KOp)
  | kpop (h : Hdr) (ty : ETy) (d : GReg) (a : KReg)
  | kfirst (h : Hdr) (ty : ETy) (d : GReg) (a : KReg)
  -- Moves, permutes, extraction, insertion (R132, R133)
  | vmov (h : Hdr) (k : KReg) (ty : ETy) (d a : VReg)
  | vbcast (h : Hdr) (k : KReg) (ty : ETy) (d : VReg) (a : GReg)
  | viota (h : Hdr) (k : KReg) (ty : ETy) (d : VReg) (a : GReg)
  | vperm (h : Hdr) (k : KReg) (ty : ETy) (d a : VReg) (op : PermOp)
  | vext (h : Hdr) (ty : ETy) (d : GReg) (a : VReg) (b : GReg)
  | vins (h : Hdr) (ty : ETy) (d : VReg) (a b : GReg)
  -- Reductions (R134)
  | vredsum (h : Hdr) (k : KReg) (ty : ETy) (rm : RmCode) (d : GReg) (a : VReg)
  | vredmax (h : Hdr) (k : KReg) (ty : ETy) (d : GReg) (a : VReg)
  | vredmin (h : Hdr) (k : KReg) (ty : ETy) (d : GReg) (a : VReg)
  -- Conversion and block scaling (R136)
  | vcvt (h : Hdr) (k : KReg) (src dst : ETy) (rm : RmCode) (sat mm : Bool) (d a : VReg)
  | vquant (h : Hdr) (k : KReg) (src dst : ETy) (rm : RmCode) (sat mm : Bool) (d a : VReg)
  | vdeq (h : Hdr) (k : KReg) (src dst : ETy) (rm : RmCode) (sat : Bool) (d a : VReg)
  | vscale (h : Hdr) (k : KReg) (src dst : ETy) (rm : RmCode) (sat mm : Bool) (d a : VReg) (b : GReg)
  -- Spatial hashing (R141)
  | vcell (h : Hdr) (k : KReg) (d a : VReg) (b c : GReg)
  | vhash3 (h : Hdr) (k : KReg) (w : BitVec 6) (d a b c : VReg)
  | vmorton (h : Hdr) (k : KReg) (d a b : VReg) (op : MortonOp)
  -- Scratchpad rows, gathers, scatters, tiles (R145 to R151)
  | vld (h : Hdr) (k : KReg) (swz : BitVec 3) (d : VReg) (a : GReg) (off : BitVec 16)
  | vst (h : Hdr) (k : KReg) (swz : BitVec 3) (a : GReg) (b : VReg) (off : BitVec 16)
  | vldx (h : Hdr) (k : KReg) (ty : STy) (swz : BitVec 3) (d : VReg) (a : GReg) (b : VReg) (off : BitVec 16)
  | vstx (h : Hdr) (k : KReg) (ty : STy) (swz : BitVec 3) (d : VReg) (a : GReg) (b : VReg) (off : BitVec 16)
  | tld (h : Hdr) (swz : BitVec 3) (d : TReg) (a b : GReg) (off : BitVec 16)
  | tst (h : Hdr) (swz : BitVec 3) (d : TReg) (a b : GReg) (off : BitVec 16)
  | tzero (h : Hdr) (d : TReg)
  | tmov (h : Hdr) (d a : TReg)
  | ttrans (h : Hdr) (d a : TReg)
  -- Parallel instructions (R186)
  | tnext (h : Hdr) (d a b : GReg)
  | tnextIdx (h : Hdr) (d : GReg)
  | tdone (h : Hdr) (sc : Scope)
  | toks (h : Hdr) (d : GReg) (q : BitVec 2)
  | tokx (h : Hdr) (a : GReg) (q : BitVec 2)
  | spush (h : Hdr) (k : KReg) (ty : ETy) (sd : BitVec 3) (d : GReg) (a : VReg)
  | spop (h : Hdr) (k : KReg) (ty : ETy) (sd : BitVec 3) (d : VReg) (a : KReg)
  | sflush (h : Hdr) (sd : BitVec 3) (d a : GReg)
  | sreset (h : Hdr) (sd : BitVec 3)
  | lqpush (h : Hdr) (k : KReg) (ty : ETy) (a b : VReg)
  | lqpop (h : Hdr) (k : KReg) (ty : ETy) (d : VReg) (a : KReg)
  | lqstat (h : Hdr) (ty : ETy) (d : KReg)
  | bar (h : Hdr) (sc : Scope)
  | stgput (h : Hdr) (a : GReg)
  | stgget (h : Hdr) (d a : GReg)
  | safe (h : Hdr) (n : BitVec 12)
  | launch (h : Hdr) (d a : GReg)
  -- Global memory (R251)
  | ldg (h : Hdr) (ty : STy) (acq : Option Scope) (d a : GReg) (off : BitVec 16)
  | stg (h : Hdr) (ty : STy) (rel : Option Scope) (a b : GReg) (off : BitVec 16)
  | vldg (h : Hdr) (k : KReg) (acq : Option Scope) (d : VReg) (a : GReg) (off : BitVec 16)
  | vstg (h : Hdr) (k : KReg) (rel : Option Scope) (a : GReg) (b : VReg) (off : BitVec 16)
  | aadd (h : Hdr) (ty : STy) (ord : AOrd) (d a b : GReg) (off : BitVec 16)
  | afadd (h : Hdr) (ty : FSty) (ord : AOrd) (d a b : GReg) (off : BitVec 16)
  | amin (h : Hdr) (ty : STy) (ord : AOrd) (d a b : GReg) (off : BitVec 16)
  | amax (h : Hdr) (ty : STy) (ord : AOrd) (d a b : GReg) (off : BitVec 16)
  | aminn (h : Hdr) (ty : STy) (ord : AOrd) (d a b : GReg) (off : BitVec 16)
  | amaxn (h : Hdr) (ty : STy) (ord : AOrd) (d a b : GReg) (off : BitVec 16)
  | afmin (h : Hdr) (ty : FSty) (ord : AOrd) (d a b : GReg) (off : BitVec 16)
  | afmax (h : Hdr) (ty : FSty) (ord : AOrd) (d a b : GReg) (off : BitVec 16)
  | aand (h : Hdr) (ty : STy) (ord : AOrd) (d a b : GReg) (off : BitVec 16)
  | aor (h : Hdr) (ty : STy) (ord : AOrd) (d a b : GReg) (off : BitVec 16)
  | axor (h : Hdr) (ty : STy) (ord : AOrd) (d a b : GReg) (off : BitVec 16)
  | aswp (h : Hdr) (ty : STy) (ord : AOrd) (d a b : GReg) (off : BitVec 16)
  | acas (h : Hdr) (ty : STy) (ord : AOrd) (d a b : GReg) (off : BitVec 16)
  | abadd (h : Hdr) (ord : AOrd) (d a b : GReg) (off : BitVec 16)
  | red (h : Hdr) (op : Rop) (ty : STy) (a b : GReg) (off : BitVec 16)
  | redc (h : Hdr) (op : Rop) (ty : STy) (det : Bool) (sc : Scope) (a b : GReg) (cnt1 idx : BitVec 8)
  | fence (h : Hdr) (sc : Scope) (ord : FOrd)
  | xfence (h : Hdr) (c1 c2 : Path)
  | pref (h : Hdr) (a : GReg) (off : BitVec 16)
  | cflush (h : Hdr) (a : GReg) (off : BitVec 16)
  | cinv (h : Hdr) (a : GReg) (off : BitVec 16)
  | waitv (h : Hdr) (ty : STy) (acq : Option Scope) (d a b : GReg) (off : BitVec 16)
  -- Engine instructions (R294), notices (R346, R358), collectives (R441)
  | enq (h : Hdr) (sc : Scope) (d a : GReg) (e : Sel)
  | eseq (h : Hdr) (d : GReg) (e : Sel)
  | waitseq (h : Hdr) (d a : GReg) (e : Sel)
  | prom (h : Hdr) (d a : GReg)
  | ecancel (h : Hdr) (d a : GReg) (e : Sel)
  | notice (h : Hdr) (d a : GReg)
  | decline (h : Hdr) (d a : GReg)
  | pullrel (h : Hdr) (a : GReg)
  | nrecv (h : Hdr) (d a : GReg)
  | tready (h : Hdr) (d a : GReg)
  | cstat (h : Hdr) (d a : GReg)
  | cstatBm (h : Hdr) (d a b : GReg)
  | cabort (h : Hdr) (d a : GReg)
  -- Traps, firmware, pre-emption (R386, R411)
  | trap (h : Hdr) (n : BitVec 12)
  | eret (h : Hdr)
  | eretReclaim (h : Hdr)
  | fwcall (h : Hdr) (d a : GReg) (n : BitVec 12)
  | ctxsave (h : Hdr) (a : GReg)
  | ctxsaveFull (h : Hdr) (a : GReg)
  | ctxload (h : Hdr) (a : GReg)
  | tlbinvPage (h : Hdr) (a b : GReg)
  | tlbinvAsid (h : Hdr) (b : GReg)
  | tlbinvAll (h : Hdr)
  | keyload (h : Hdr) (a b : GReg)
  | keyloadClr (h : Hdr) (a : GReg)
  -- Engine words (R302)
  | ewLit (k : BitVec 15)
  | ewExt (k : BitVec 14)
  -- Queue packets and dispatch (R181 to R184, R396 to R405)
  | nopPacket (die slot : Nat)
  | launchPacket (die slot : Nat)
  | collPacket (die slot : Nat)
  | fencePacket (die slot : Nat)
  | signalPacket (die slot : Nat)
  | timedPacket (die slot : Nat)
  | fenceResume (die slot : Nat)
  | timedResume (die slot : Nat)
  | signalWrite (die slot : Nat)
  | kick (qid : BitVec 16) (index : Word)
  | queueScan (die : Nat)
  | dispatchPop (quire : Nat)
  | launchComplete (seq : Nat)
  | reltickRelease (seq : Nat)
  | deadlineOverrun (seq : Nat)
  | stageSchedule (seq : Nat)
  -- Reports and firmware (R374 to R383)
  | fstateAccess (write : Bool) (r : GReg)
  | landingRingWrite (size : Bool) (v : Word)
  | formatWindowWrite (stack win word : Nat) (v : Word)
  -- Landings, homes and wakes (R26, R161, R162, R245, R254, R266, R272, R291)
  | homeAccess (pa : Nat) (data : List Byte)
  | redcLand (pa : Nat) (op : Rop) (ty : STy) (det : Bool) (sc : Scope) (cnt idx : Nat) (v : Word)
  | remoteEventArrival (msg : Nat)
  -- Notices and pulls (R348 to R357)
  | noticeArrival (msg : Nat)
  | noticeResend (msg : Nat)
  | pullBegin (msg : Nat)
  | segmentLand (msg : Nat)
  | pullComplete (msg : Nat)
  | declineArrival (msg : Nat)
  | withdrawalArrival (msg : Nat)
  | pullRefused (msg : Nat)
  -- Pre-emption (R407, R408)
  | preemptRequest (waiting victim : Nat)
  -- Links and time (R418 to R426, R457)
  | flitReceive (link : Nat) (f : Flit)
  | flitResend (link : Nat) (nack : Bool) (trained : Bool)
  | linkDown (link : Nat)
  | linkTableRow (msg : Nat)
  | laneSpare (link : Nat)
  | ptpMessage (locked : Bool) (offset : BitVec 32)
  -- Host (R427, R428, R450)
  | hostOpen (session : Nat) (nonce : BitVec 256) (features : BitVec 128)
  | datagramReceive (d : Datagram)
  | hostRead (pa len key : Nat)
  | hostWrite (pa key : Nat) (data : List Byte)
  -- Collectives (R434 to R439)
  | spinesArrival (die msg : Nat)
  | collCombine (die entry chunk : Nat)
  | collBroadcastPull (die entry chunk : Nat)
  | collRecompute (die entry : Nat)
  | collResume (die entry : Nat)
  | collAbort (die entry sub : Nat)
  -- Platform (R449 to R459)
  | dawn (cfg : DawnCfg)
  | liveUpdate (digest signature : BitVec 256) (version : Nat)
  | moduleInsert (pkg : Nat) (row : List Word)
  | moduleRemove (pkg : Nat)
  | throttle (die : Nat) (g : BitVec 4)
  | scrub (a : ArrayKind)
  | illop (w : Word)
  | linkUp (link : Nat) (v : Word)
  | arrayError (a : ArrayKind) (correctable : Bool)
  -- Steps without operands
  -- Engine words (R302)
  | ewDup
  | ewDrop
  | ewSwap
  | ewOver
  | ewAdd
  | ewSub
  | ewShl
  | ewElem
  | ewSwz
  | ewDim1
  | ewDim2
  | ewPrio
  | ewStamp
  | ewGate
  | ewSeqat
  | ewCopyGs
  | ewCopySg
  | ewCopyGg
  | ewCopySs
  | ewCopytLd
  | ewCopytSt
  | ewCopyxG
  | ewCopyxS
  | ewFillG
  | ewFillS
  | ewTmma
  | ewCredL
  | ewCredP
  | ewNote
  | ewPullS
  | ewPullG
  | ewDecl
  | ewEnd
  | ewAddr
  -- Queue packets and dispatch (R181 to R184, R396 to R405)
  | forcedLaunchStart
  | launchEnter
  | stageReenter
  -- Reports and firmware (R374 to R383)
  | reportTake
  | scheduleMissDelegation
  | ectlResume
  | ectlKill
  | ucauseRelease
  -- Landings, homes and wakes (R26, R161, R162, R245, R254, R266, R272, R291)
  | variableResultLand
  | retryAdmit
  | pinnedLineTimeout
  | wfeWake
  | waittExpire
  | waitvWake
  | barRelease
  | waitseqComplete
  | tokenPopReady
  | tokenPushRoom
  | enqSlotFree
  | noticeEntryFree
  | ringSlotReady
  | laneQueueRefill
  | crossbarCycle
  -- Engines (R287, R288, R334 to R343)
  | commandStart
  | commandRetire
  | mxStart
  | stampedTmmaStart
  | scheduleMiss
  | migrationOffer
  | tmmaComplete
  | migratedProductReturn
  -- Notices and pulls (R348 to R357)
  | portStart
  | segmentRequest
  | noticeExpiry
  | reclaimTrap
  | reclaimRepeat
  -- Pre-emption (R407, R408)
  | preemptReport
  | safePointTimeout
  | preemptSaveDone
  | preemptRestart
  -- Host (R427, R428, R450)
  | restartRequest
  -- Platform (R449 to R459)
  | thermalShutdown
  | lostLock
  deriving DecidableEq, Repr

end Sys2Proof
end

