-- ==== Sys2Proof/Machine/Accept.lean ====
section
/-! DEFINITION. What the bits of a word alone decide: the sizes and kinds of types, the accepted types of each
instruction, the allocated system registers and the assigned majors (spec 04 R71 to R82, 02 R19 and the register tables). -/
namespace Sys2Proof.Machine

/-- Element size in bits (R36). -/
def etyBits : ETy → Nat
  | .i8 => 8 | .n8 => 8 | .i16 => 16 | .i32 => 32 | .f32 => 32 | .bf16 => 16 | .f16 => 16
  | .e4m3 => 8 | .e5m2 => 8 | .e2m1 => 4 | .ds8 => 8

/-- Lane count of a row of this type (R121). -/
def etyLanes (t : ETy) : Nat := 16384 / etyBits t

/-- Integer element types (R36). -/
def etyIsInt : ETy → Bool
  | .i8 => true | .n8 => true | .i16 => true | .i32 => true | _ => false

/-- Signed integer element types (R36). -/
def etySigned : ETy → Bool
  | .i8 => true | .i16 => true | .i32 => true | _ => false

/-- f32, bf16 or f16, the types of vector arithmetic (R126). -/
def etyArith : ETy → Bool
  | .f32 => true | .bf16 => true | .f16 => true | _ => false

/-- The narrow types that block scaling writes (R59, R136). -/
def etyQuant : ETy → Bool
  | .e4m3 => true | .e5m2 => true | .e2m1 => true | .ds8 => true | _ => false

/-- Size in bytes of a scalar type (R101). -/
def styBytes : STy → Nat
  | .i8 => 1 | .n8 => 1 | .i16 => 2 | .n16 => 2 | .i32 => 4 | .n32 => 4 | .i64 => 8 | .n64 => 8

/-- Whether a scalar type is signed (R71). -/
def stySigned : STy → Bool
  | .i8 => true | .i16 => true | .i32 => true | .i64 => true | _ => false

/-- The types of AADD, AAND, AOR, AXOR, ASWP and ACAS: STY 4 to 7 (R251). -/
def styWide : STy → Bool
  | .i32 => true | .n32 => true | .i64 => true | .n64 => true | _ => false

/-- The floating type that an STY names in a floating reduction (R71). -/
def styFloat : STy → Option FSty
  | .i16 => some .bf16 | .n16 => some .f16 | .i32 => some .f32 | _ => none

/-- Operator and type pairs that RED and REDC accept (R263). -/
def ropAccepts (op : Rop) (t : STy) : Bool :=
  match op with
  | .add | .and | .or | .xor => styWide t
  | .fadd | .fmin | .fmax => (styFloat t).isSome
  | .min | .max => t == .i32 || t == .i64
  | .minn | .maxn => t == .n32 || t == .n64

/-- How a system register may be accessed (R19). -/
inductive SysAccess where
  | rw | ro | fw
  deriving DecidableEq, Repr

/-- The allocated system registers and their access codes (R19, R159, R187, R214, R242, R277, R327, R337, R352,
R372, R392, R424, R432). -/
def sysAccess (n : Nat) : Option SysAccess :=
  if n ≤ 0x004 then some .rw
  else if 0x008 ≤ n ∧ n ≤ 0x00F then some .rw
  else if n = 0x010 ∨ n = 0x012 then some .ro
  else if n = 0x011 then some .fw
  else if n = 0x100 then some .rw
  else if 0x101 ≤ n ∧ n ≤ 0x103 then some .ro
  else if 0x110 ≤ n ∧ n ≤ 0x118 then some .rw
  else if n = 0x119 ∨ n = 0x11A then some .ro
  else if n = 0x200 ∨ n = 0x201 then some .fw
  else if n = 0x210 then some .rw
  else if n = 0x211 then some .fw
  else if n = 0x212 then some .ro
  else if 0x300 ≤ n ∧ n ≤ 0x304 then some .fw
  else if 0x308 ≤ n ∧ n ≤ 0x30C then some .fw
  else if 0x310 ≤ n ∧ n ≤ 0x314 then some .ro
  else if 0x318 ≤ n ∧ n ≤ 0x31C then some .ro
  else if 0x320 ≤ n ∧ n ≤ 0x338 then some .rw
  else if n = 0x339 ∨ n = 0x33A then some .ro
  else if n = 0x340 then some .rw
  else if n = 0x341 then some .fw
  else if n = 0x342 then some .ro
  else if 0x350 ≤ n ∧ n ≤ 0x353 then some .rw
  else if n = 0x354 ∨ n = 0x355 then some .ro
  else if n = 0x360 then some .fw
  else if n = 0x361 then some .ro
  else if 0x400 ≤ n ∧ n ≤ 0x40A then some .fw
  else if n = 0x40B then some .ro
  else if 0x410 ≤ n ∧ n ≤ 0x413 then some .rw
  else if 0x420 ≤ n ∧ n ≤ 0x422 then some .fw
  else if n = 0x423 then some .ro
  else if n = 0x424 then some .fw
  else if n = 0x425 then some .ro
  else if n = 0x426 then some .fw
  else if 0x500 ≤ n ∧ n ≤ 0x505 then some .ro
  else if 0x510 ≤ n ∧ n ≤ 0x51F then some .ro
  else if 0x520 ≤ n ∧ n ≤ 0x522 then some .fw
  else if n = 0x523 then some .ro
  else none

/-- The assigned majors (R79). -/
def majorAssigned (n : Nat) : Bool :=
  decide (0x01 ≤ n ∧ n ≤ 0x1B) || decide (0x20 ≤ n ∧ n ≤ 0x4E) || decide (0x50 ≤ n ∧ n ≤ 0x73) ||
  decide (0x78 ≤ n ∧ n ≤ 0x7C) || decide (0x80 ≤ n ∧ n ≤ 0x8F) || decide (0xA0 ≤ n ∧ n ≤ 0xB9) ||
  decide (0xC0 ≤ n ∧ n ≤ 0xC4) || decide (0xC8 ≤ n ∧ n ≤ 0xCB) || decide (0xD0 ≤ n ∧ n ≤ 0xD2) ||
  decide (0xE0 ≤ n ∧ n ≤ 0xE6)

/-- The order of scopes, narrow to wide (R73). -/
def scopeNum : Scope → Nat
  | .core => 0 | .quire => 1 | .vol => 2 | .pkg => 3 | .pod => 4

end Sys2Proof.Machine
end

