-- ==== Sys2Proof/Machine/Numbers.lean ====
section
/-! DEFINITION. Number formats and exact arithmetic (spec 03, R36 to R62): every encoding is read as an exact value,
operations are computed exactly, and one rounding writes the result. -/
namespace Sys2Proof.Machine

/-- An exact value. `num neg n d st` has sign `neg` and magnitude `n / d`; with `st` the magnitude is a little more
than `n / d`, by less than any step that a rounding looks at. -/
inductive XVal where
  | nan
  | inf (neg : Bool)
  | num (neg : Bool) (n d : Nat) (st : Bool)
  deriving DecidableEq, Repr

/-- The layout of a floating-point format (R38). -/
structure Fmt where
  bits : Nat
  man : Nat
  bias : Nat
  top : Nat
  inf : Option Nat
  nan : Option Nat
  deriving DecidableEq, Repr

/-- The formats of R38; integers and ds8 have none. -/
def fmtOf : ETy → Option Fmt
  | .f32 => some { bits := 32, man := 23, bias := 127, top := 0x7F7FFFFF, inf := some 0x7F800000, nan := some 0x7FC00000 }
  | .f16 => some { bits := 16, man := 10, bias := 15, top := 0x7BFF, inf := some 0x7C00, nan := some 0x7E00 }
  | .bf16 => some { bits := 16, man := 7, bias := 127, top := 0x7F7F, inf := some 0x7F80, nan := some 0x7FC0 }
  | .e4m3 => some { bits := 8, man := 3, bias := 7, top := 0x7E, inf := none, nan := some 0x7F }
  | .e5m2 => some { bits := 8, man := 2, bias := 15, top := 0x7B, inf := some 0x7C, nan := some 0x7E }
  | .e2m1 => some { bits := 4, man := 1, bias := 1, top := 0x7, inf := none, nan := none }
  | .i8 | .n8 | .i16 | .i32 | .ds8 => none

/-- The element type of a floating scalar type (R71). -/
def fstyEty : FSty → ETy
  | .bf16 => .bf16 | .f16 => .f16 | .f32 => .f32

/-- The value of a magnitude code in units of the smallest subnormal (R38). -/
def codeUnits (man c : Nat) : Nat :=
  if c < 2 ^ man then c else (2 ^ man + c % 2 ^ man) * 2 ^ (c / 2 ^ man - 1)

/-- One term of a ds8 byte in 64ths, signed (R42). -/
def ds8Term (s h : Nat) : Int :=
  if h = 7 then 0 else if s = 1 then -((2 ^ (6 - h) : Nat) : Int) else ((2 ^ (6 - h) : Nat) : Int)

/-- The weight of a ds8 byte in 64ths (R42). -/
def ds8Weight (b : Nat) : Int := ds8Term (b / 128 % 2) (b / 16 % 8) + ds8Term (b / 8 % 2) (b % 8)

/-- The exact value of the finite integer `v`. -/
def xInt (v : Int) : XVal := .num (v < 0) v.natAbs 1 false

/-- The exact value that a float encoding stands for (R38 to R40). -/
def xFloat (f : Fmt) (b : Nat) : XVal :=
  let neg := b / 2 ^ (f.bits - 1) % 2 == 1
  let mag := b % 2 ^ (f.bits - 1)
  if f.top < mag then (if f.inf = some mag then .inf neg else .nan)
  else .num neg (codeUnits f.man mag) (2 ^ (f.bias + f.man - 1)) false

/-- The signed integer that an N-bit pattern stands for (R37). -/
def sInt (n b : Nat) : Int :=
  if b % 2 ^ n < 2 ^ (n - 1) then ((b % 2 ^ n : Nat) : Int) else ((b % 2 ^ n : Nat) : Int) - ((2 ^ n : Nat) : Int)

/-- The exact value of an element of any type (R36 to R42). A ds8 weight whose terms cancel is the exact 0 with a plus sign, and the
product of it and a negative activation is −0, as of any zero weight (DEDUCED, log 98). -/
def xOf (t : ETy) (b : Nat) : XVal :=
  match t with
  | .i8 => xInt (sInt 8 b)
  | .n8 => .num false (b % 256) 1 false
  | .i16 => xInt (sInt 16 b)
  | .i32 => xInt (sInt 32 b)
  | .ds8 => let w := ds8Weight b; .num (w < 0) w.natAbs 64 false
  | t => match fmtOf t with
    | some f => xFloat f (b % 2 ^ f.bits)
    | none => .nan

/-- Whether the rounded magnitude is the upper neighbour, for a fraction `fn / fd` (a little more with `st`) of the way
from the lower magnitude to the upper one; `odd` says that the lower one has mantissa bit 0 set (R46, R48). -/
def roundUp (rm : Rm) (neg odd : Bool) (r fn fd : Nat) (st : Bool) : Bool :=
  if fn = 0 ∧ ¬ st then false
  else match rm with
    | .rne => decide (fd < 2 * fn) || (decide (2 * fn = fd) && (st || odd))
    | .rtz => false
    | .rdn => neg
    | .rup => !neg
    | .rna => decide (fd ≤ 2 * fn)
    | .rsto => decide (r * fd < 65536 * fn) || (st && decide (r * fd = 65536 * fn))

/-- What a rounding writes, and the sticky bits that it sets (R52). -/
structure Rounded where
  bits : Nat
  unf : Bool
  ovf : Bool
  deriving DecidableEq, Repr

/-- A rounded value that sets no bit. -/
def Rounded.quiet (b : Nat) : Rounded := { bits := b, unf := false, ovf := false }

/-- The magnitude code and the fraction of the way to the next one, for the magnitude `n / d` (R46). -/
def floatFloor (f : Fmt) (n d : Nat) : Nat × Nat × Nat :=
  let y := n * 2 ^ (f.bias + f.man - 1)
  let q := y / d
  let k := Nat.log2 q - f.man
  let c := q / 2 ^ k
  (k * 2 ^ f.man + c, y - c * 2 ^ k * d, d * 2 ^ k)

/-- The result of an overflow (R49). -/
def overflowBits (t : ETy) (f : Fmt) (rm : Rm) (sat neg : Bool) : Nat :=
  let s := if neg then 2 ^ (f.bits - 1) else 0
  match f.inf with
  | some i =>
    if sat || rm == .rtz || (rm == .rdn && !neg) || (rm == .rup && neg) then s + f.top else s + i
  | none => if t == .e4m3 && !sat then 0x7F else s + f.top

/-- The 64ths of the non-negative ds8 magnitudes, rising (R42). -/
def ds8Mags : List Nat :=
  (List.range 129).filter (fun v => (List.range 256).any (fun b => (ds8Weight b).natAbs == v))

/-- Adjacent ds8 magnitudes around `n / d`, in 64ths: the table of values, then the powers of two above 2 (R46). -/
def ds8Neighbours (n d : Nat) : Nat × Nat :=
  let q := 64 * n / d
  if 128 ≤ q then (2 ^ Nat.log2 q, 2 ^ (Nat.log2 q + 1))
  else ((ds8Mags.filter (· ≤ q)).getLastD 0, (ds8Mags.filter (q < ·)).headD 128)

/-- The canonical ds8 byte of the magnitude `m` 64ths with sign `neg` (R43). -/
def ds8Encode (neg : Bool) (m : Nat) : Nat :=
  let s := neg.toNat
  if m = 0 then 0x77
  else if m = 128 then (if neg then 0x88 else 0x00)
  else if 2 ^ Nat.log2 m = m then s * 128 + (6 - Nat.log2 m) * 16 + 7
  else
    let cands := (List.range 128).filter (fun b =>
      decide (ds8Weight b = (m : Int)) && decide (b / 16 % 8 < b % 8) && decide (b % 8 ≤ 6))
    let best := ((cands.filter (fun b => b / 8 % 2 == 0)) ++ cands).headD 0x77
    if neg then best ^^^ 0x88 else best

/-- Rounding to ds8 with its overflow rule (R46, R49, R52). -/
def roundDs8 (rm : Rm) (r : Nat) (neg : Bool) (n d : Nat) (st : Bool) : Rounded :=
  let (m0, m1) := ds8Neighbours n d
  let m := if roundUp rm neg false r (64 * n - m0 * d) ((m1 - m0) * d) st then m1 else m0
  if 128 < m then { bits := ds8Encode neg 128, unf := false, ovf := true }
  else { bits := ds8Encode neg m, unf := m == 0 && (n != 0 || st), ovf := false }

/-- The range of an integer element type (R37). -/
def intRange (t : ETy) : Int × Int :=
  let n := etyBits t
  if etySigned t then (-((2 ^ (n - 1) : Nat) : Int), ((2 ^ (n - 1) : Nat) : Int) - 1) else (0, ((2 ^ n : Nat) : Int) - 1)

/-- The N-bit pattern of an integer (R37). -/
def intBits (n : Nat) (v : Int) : Nat := (v % ((2 ^ n : Nat) : Int)).toNat

/-- An integer kept within the range of a type (R51). -/
def clampInt (t : ETy) (v : Int) : Int :=
  let (lo, hi) := intRange t
  if v < lo then lo else if hi < v then hi else v

/-- Round to the integer of an exact finite value (R51). -/
def roundInt (rm : Rm) (r : Nat) (neg : Bool) (n d : Nat) (st : Bool) : Int :=
  let q := n / d
  let m := if roundUp rm neg (q % 2 == 1) r (n % d) d st then q + 1 else q
  if neg then -(m : Int) else (m : Int)

/-- Round an exact value to an integer type, replacing what lies outside its range (R50, R51, R52). -/
def toIntType (t : ETy) (rm : Rm) (r : Nat) (x : XVal) : Rounded :=
  let put (v : Int) : Rounded :=
    { bits := intBits (etyBits t) (clampInt t v), unf := false, ovf := clampInt t v != v }
  match x with
  | .nan => .quiet 0
  | .inf true => { put (intRange t).1 with ovf := true }
  | .inf false => { put (intRange t).2 with ovf := true }
  | .num neg n d st => put (roundInt rm r neg n d st)

/-- `round` with the overflow rule and the special sources, to a floating-point format (R46, R49, R50, R52). -/
def toFloat (t : ETy) (f : Fmt) (rm : Rm) (r : Nat) (sat : Bool) (x : XVal) : Rounded :=
  let sgn (neg : Bool) := if neg then 2 ^ (f.bits - 1) else 0
  match x with
  | .nan => .quiet (f.nan.getD 0)
  | .inf neg => match f.inf with
    | some i => .quiet (sgn neg + i)
    | none => { bits := if t == .e4m3 && !sat then 0x7F else sgn neg + f.top, unf := false, ovf := true }
  | .num neg n d st =>
    let (c0, fn, fd) := floatFloor f n d
    let c := if roundUp rm neg (c0 % 2 == 1) r fn fd st then c0 + 1 else c0
    if f.top < c then { bits := overflowBits t f rm sat neg, unf := false, ovf := true }
    else { bits := sgn neg + c, unf := c == 0 && (n != 0 || st), ovf := false }

/-- Round an exact value to any element type (R46 to R52); `r` is the draw that RSTO compares. -/
def roundTo (t : ETy) (rm : Rm) (r : Nat) (sat : Bool) (x : XVal) : Rounded :=
  match fmtOf t with
  | some f => toFloat t f rm r sat x
  | none =>
    if t == .ds8 then
      match x with
      | .nan => .quiet 0x77
      | .inf neg => { bits := ds8Encode neg 128, unf := false, ovf := true }
      | .num neg n d st => roundDs8 rm r neg n d st
    else toIntType t rm r x

/-- Conversion between element types (R50, R51). -/
def convert (src dst : ETy) (rm : Rm) (r : Nat) (sat : Bool) (b : Nat) : Rounded :=
  if etyIsInt src && etyIsInt dst then
    match xOf src b with
    | .num neg n _ _ =>
      let v : Int := if neg then -(n : Int) else n
      .quiet (intBits (etyBits dst) (if sat then clampInt dst v else v))
    | _ => .quiet 0
  else roundTo dst rm r sat (xOf src b)

/-- The sign of an exact value; a NaN counts as positive. -/
def XVal.neg : XVal → Bool
  | .nan => false | .inf s => s | .num s _ _ _ => s

/-- The value with its sign turned. -/
def XVal.flip : XVal → XVal
  | .nan => .nan | .inf s => .inf (!s) | .num s n d st => .num (!s) n d st

/-- Exact zero. -/
def XVal.isZero : XVal → Bool
  | .num _ n _ st => n == 0 && !st | _ => false

/-- Exact sum; the denominators are powers of two; `rdn` gives the sign of a zero sum of unlike signs (R41, R54). -/
def xAdd (rdn : Bool) (x y : XVal) : XVal :=
  match x, y with
  | .nan, _ | _, .nan => .nan
  | .inf a, .inf b => if a = b then .inf a else .nan
  | .inf a, _ => .inf a
  | _, .inf b => .inf b
  | .num a n d _, .num b m e _ =>
    let g := Nat.max d e
    let n' := n * (g / d)
    let m' := m * (g / e)
    if a = b then .num a (n' + m') g false
    else if n' = m' then .num rdn 0 1 false
    else if m' < n' then .num a (n' - m') g false
    else .num b (m' - n') g false

/-- Exact product (R54). -/
def xMul (x y : XVal) : XVal :=
  match x, y with
  | .nan, _ | _, .nan => .nan
  | .inf a, .inf b => .inf (a != b)
  | .inf a, .num b n _ _ => if n = 0 then .nan else .inf (a != b)
  | .num a n _ _, .inf b => if n = 0 then .nan else .inf (a != b)
  | .num a n d _, .num b m e _ => .num (a != b) (n * m) (d * e) false

/-- Exact quotient with the special results of VDIV (R55). -/
def xDiv (x y : XVal) : XVal :=
  match x, y with
  | .nan, _ | _, .nan => .nan
  | .inf _, .inf _ => .nan
  | .inf a, .num b _ _ _ => .inf (a != b)
  | .num a _ _ _, .inf b => .num (a != b) 0 1 false
  | .num a n d _, .num b m e _ =>
    if m = 0 then (if n = 0 then .nan else .inf (a != b)) else .num (a != b) (n * e) (d * m) false

/-- Greatest r with r² ≤ y, found bit by bit from bit `k - 1` down. -/
def isqrtFrom (y : Nat) : Nat → Nat → Nat
  | 0, r => r
  | k + 1, r => isqrtFrom y k (if (r + 2 ^ k) * (r + 2 ^ k) ≤ y then r + 2 ^ k else r)

/-- The integer square root. -/
def isqrt (y : Nat) : Nat := isqrtFrom y (Nat.log2 y / 2 + 1) 0

/-- Bits behind the point that square roots, powers and logarithms are computed to. -/
def fineBits : Nat := 400

/-- The square root of `n / d`, cut to `fineBits` (R55). -/
def xRoot (n d : Nat) : XVal :=
  let y := n * 4 ^ fineBits
  let r := isqrt (y / d)
  .num false r (2 ^ fineBits) (r * r * d != y)

/-- VSQRT (R55). -/
def xSqrt : XVal → XVal
  | .nan => .nan
  | .inf s => if s then .nan else .inf false
  | .num s n d _ => if n = 0 then .num s 0 1 false else if s then .nan else xRoot n d

/-- VRSQ (R55). -/
def xRsqrt : XVal → XVal
  | .nan => .nan
  | .inf s => if s then .nan else .num false 0 1 false
  | .num s n d _ => if n = 0 then .inf s else if s then .nan else xRoot d n

/-- VRCP (R55). -/
def xRcp (x : XVal) : XVal :=
  match x with
  | .num s n _ _ => if n = 0 then .inf s else xDiv (.num false 1 1 false) x
  | x => xDiv (.num false 1 1 false) x

/-- The powers 2^(2^−1), 2^(2^−2), … as fixed-point numbers of `fineBits` bits behind the point. -/
def rootsOfTwo : Nat → Nat → List Nat
  | 0, _ => []
  | k + 1, c => let r := isqrt (c * 2 ^ fineBits); r :: rootsOfTwo k r

/-- The table of `rootsOfTwo` for 200 binary places. -/
def expTable : List Nat := rootsOfTwo 200 (2 * 2 ^ fineBits)

/-- The product of those roots whose place is set in the fraction `f` of `k` places (log 13). -/
def expFrac : List Nat → Nat → Nat → Nat → Nat
  | [], _, _, acc => acc
  | c :: cs, f, k, acc =>
    if k = 0 then acc
    else expFrac cs f (k - 1) (if Nat.testBit f (k - 1) then acc * c / 2 ^ fineBits else acc)

/-- 2^x to 300 places (R55, log 13). -/
def xExp2 (x : XVal) : XVal :=
  match x with
  | .nan => .nan
  | .inf s => if s then .num false 0 1 false else .inf false
  | .num s n d _ =>
    -- x = e + f / d with 0 ≤ f < d
    let q := n / d
    let f := if s then (d - n % d) % d else n % d
    let up : Bool := s && n % d != 0
    let dn := if s then (if up then q + 1 else q) else 0
    if !s && 4096 ≤ q then .num false (2 ^ 4096) 1 (f != 0)
    else if s && 4096 ≤ dn then .num false 1 (2 ^ 4096) (f != 0)
    else
      let g := expFrac expTable f (Nat.log2 d) (2 ^ fineBits) / 2 ^ (fineBits - 300)
      if s then .num false g (2 ^ (300 + dn)) (f != 0) else .num false (g * 2 ^ q) (2 ^ 300) (f != 0)

/-- Binary places of log2 of the fixed-point number `m` in [1, 2), by repeated squaring (log 13). -/
def logFrac : Nat → Nat → Nat → Nat
  | 0, _, acc => acc
  | k + 1, m, acc =>
    let y := m * m / 2 ^ fineBits
    if 2 * 2 ^ fineBits ≤ y then logFrac k (y / 2) (2 * acc + 1) else logFrac k y (2 * acc)

/-- Places of the logarithm's fraction. -/
def logBits : Nat := 160

/-- log2 x (R55, log 13). -/
def xLog2 (x : XVal) : XVal :=
  match x with
  | .nan => .nan
  | .inf s => if s then .nan else .inf false
  | .num s n d _ =>
    if n = 0 then .inf true
    else if s then .nan
    else
      -- d is a power of two: x = 2^(log2 n − log2 d) × m with m in [1, 2)
      let a := Nat.log2 n
      let b := Nat.log2 d
      let exact := 2 ^ a == n
      let m := n * 2 ^ fineBits / 2 ^ a
      let fr := if exact then 0 else logFrac logBits m 0
      let one := 2 ^ logBits
      if b ≤ a then .num false ((a - b) * one + fr) one (!exact)
      else .num true ((b - a) * one - fr - (if exact then 0 else 1)) one (!exact)

/-- The order of R56 as a comparison: −∞ < negative < −0 < +0 < positive < +∞; for NaNs no order is defined. -/
def xLt (x y : XVal) : Bool :=
  match x, y with
  | .nan, _ | _, .nan => false
  | .inf a, .inf b => a && !b
  | .inf a, _ => a
  | _, .inf b => !b
  | .num a n d _, .num b m e _ =>
    match a, b with
    | true, false => true
    | false, true => false
    | false, false => decide (n * e < m * d)
    | true, true => decide (m * d < n * e)

/-- IEEE equality: the zeros are equal (R129). -/
def xEq (x y : XVal) : Bool :=
  match x, y with
  | .nan, _ | _, .nan => false
  | .inf a, .inf b => a == b
  | .inf _, _ | _, .inf _ => false
  | .num a n d _, .num b m e _ => (n == 0 && m == 0) || (a == b && n * e == m * d)

/-- IEEE less-than: the zeros are equal (R129). -/
def xLess (x y : XVal) : Bool := xLt x y && !xEq x y

/-- The canonical NaN of a type; none in integers, e2m1 and ds8 (R38). -/
def nanBits (t : ETy) : Nat := (fmtOf t).elim 0 (fun f => f.nan.getD 0)

/-- Whether an encoding is a NaN. -/
def isNan (t : ETy) (b : Nat) : Bool := xOf t b == .nan

/-- The greater (or, with `less`, the smaller) of two encodings under R56; of equal values the first. -/
def pickExtreme (less : Bool) (t : ETy) (a b : Nat) : Nat :=
  match isNan t a, isNan t b with
  | true, true => nanBits t
  | true, false => b
  | false, true => a
  | false, false =>
    if (if less then xLt (xOf t b) (xOf t a) else xLt (xOf t a) (xOf t b)) then b else a

/-- The value of an XS10 scale; none for a NaN scale (R44). -/
def xs10 (c : Nat) : Option XVal :=
  let e := c / 4 % 256
  if e = 255 then none else some (.num false ((4 + c % 4) * 2 ^ e) (2 ^ 129) false)

/-- floor(log2 (n / d)) for n, d > 0. -/
def floorLog2 (n d : Nat) : Int :=
  let k : Int := (Nat.log2 n : Int) - (Nat.log2 d : Int)
  if n * 2 ^ (-k).toNat < d * 2 ^ k.toNat then k - 1 else k

/-- emax of a block format (R59). -/
def emaxOf : ETy → Int
  | .e4m3 => 8 | .e5m2 => 15 | .e2m1 => 2 | _ => 1

/-- The block scale that VQUANT chooses for 32 source values (R59): NaN scale, zero scale, or an exponent. -/
def blockScale (fmt : ETy) (xs : List XVal) : Nat :=
  if xs.any (· == .nan) then 0x3FC
  else if xs.all XVal.isZero then 0
  else if xs.any (fun x => match x with | .inf _ => true | _ => false) then (127 + 127) * 4
  else
    let logs := xs.filterMap (fun x => match x with
      | .num _ n d _ => if n = 0 then none else some (floorLog2 n d) | _ => none)
    let top := logs.foldl max (logs.headD 0)
    let e := min (max (top - emaxOf fmt) (-127)) 127
    (e + 127).toNat * 4

/-- The generator step of the core (R47). -/
def seedStep (s : Word) : Word :=
  let s := s ^^^ (s <<< 13)
  let s := s ^^^ (s >>> 7)
  s ^^^ (s <<< 17)

/-- The draw that follows a state of the generator: the new state and the 16-bit value (R47). -/
def seedDraw (s : Word) : Word × Nat := (seedStep s, (seedStep s).toNat / 2 ^ 48)

/-- Fold a list of lane results pairwise once: one level of the VREDSUM tree (R57). -/
def sumLevel (rm : Rm) : List Nat → Word → List Nat × Word
  | a :: b :: rest, s =>
    let (s1, r) := if rm == .rsto then seedDraw s else (s, 0)
    let v := (roundTo .f32 rm r false (xAdd (rm == .rdn) (xOf .f32 a) (xOf .f32 b))).bits
    let (vs, s2) := sumLevel rm rest s1
    (v :: vs, s2)
  | l, s => (l, s)

/-- The whole tree: `k` levels over f32 encodings (R57). -/
def sumTree (rm : Rm) : Nat → List Nat → Word → Nat × Word
  | 0, l, s => (l.headD 0x80000000, s)
  | k + 1, l, s => let (l', s') := sumLevel rm l s; sumTree rm k l' s'

/-- Exact sum of exact values under RNE; `none` addends give −0's neutral element (R62). -/
def xSum (xs : List XVal) : XVal :=
  match xs with
  | [] => .num true 0 1 false
  | x :: rest => rest.foldl (xAdd false) x

/-- Scalar division (R58). -/
def divS (a b : Word) : Word × Word :=
  if b = 0 then (BitVec.allOnes 64, a)
  else (BitVec.ofInt 64 (a.toInt.tdiv b.toInt), BitVec.ofInt 64 (a.toInt.tmod b.toInt))

/-- Unsigned scalar division (R58). -/
def divU (a b : Word) : Word × Word :=
  if b = 0 then (BitVec.allOnes 64, a) else (a / b, a % b)

end Sys2Proof.Machine
end

