-- ==== Sys2Proof/WellFormed.lean ====
section
/-! DEFINITION. Which terms of `Instr` the device accepts at decode beyond what their operand types already say: the
RSVD cases of R82 that depend on the bits of the word alone, and the ranges of the operands of the steps that no word
encodes. -/
namespace Sys2Proof
open Sys2Proof.Machine

/-- Shapes of R136 for VQUANT and VSCALE, and of VDEQ with the two types exchanged. -/
def quantTypes (src dst : ETy) : Bool := etyArith src && etyQuant dst

/-- Decode accepts the instruction (R82). -/
def Instr.wf : Instr → Bool
  | .bfx _ _ _ _ pos len1 => decide (pos.toNat + len1.toNat + 1 ≤ 64)
  | .bfi _ _ _ pos len1 => decide (pos.toNat + len1.toNat + 1 ≤ 64)
  | .srd _ _ sys => (sysAccess sys.toNat).isSome
  | .swr _ _ sys => match sysAccess sys.toNat with | some .ro => false | some _ => true | none => false
  | .vadd _ _ ty _ _ _ _ _ => etyArith ty
  | .vsub _ _ ty _ _ _ _ _ => etyArith ty
  | .vmul _ _ ty _ _ _ _ _ => etyArith ty
  | .vfma _ _ ty _ _ _ _ _ _ => etyArith ty
  | .vfms _ _ ty _ _ _ _ _ _ => etyArith ty
  | .vmin _ _ ty _ _ _ => etyArith ty
  | .vmax _ _ ty _ _ _ => etyArith ty
  | .vabs _ _ ty _ _ => etyArith ty || ty == .e4m3 || ty == .e5m2 || ty == .e2m1
  | .vneg _ _ ty _ _ => etyArith ty || ty == .e4m3 || ty == .e5m2 || ty == .e2m1
  | .vdiv _ _ ty _ _ _ _ _ => etyArith ty
  | .vsqrt _ _ ty _ _ _ _ => etyArith ty
  | .vrcp _ _ ty _ _ _ _ => etyArith ty
  | .vrsq _ _ ty _ _ _ _ => etyArith ty
  | .vexp2 _ _ ty _ _ _ _ => etyArith ty
  | .vlog2 _ _ ty _ _ _ _ => etyArith ty
  | .viadd _ _ ty _ _ _ _ => etyIsInt ty
  | .visub _ _ ty _ _ _ _ => etyIsInt ty
  | .vimul _ _ ty _ _ _ _ => etyIsInt ty
  | .vshl _ _ ty _ _ _ => etyIsInt ty
  | .vshr _ _ ty _ _ _ => etyIsInt ty
  | .vsar _ _ ty _ _ _ => etyIsInt ty
  | .vimin _ _ ty _ _ _ => etyIsInt ty
  | .vimax _ _ ty _ _ _ => etyIsInt ty
  | .vcmp _ _ ty cc d _ _ =>
    (ty != .e2m1 && ty != .ds8) && d != 0 && !(etyIsInt ty && (cc == .un || cc == .or))
  | .kop _ d _ => d != 0
  | .vbcast _ _ ty _ _ => ty != .e2m1
  | .viota _ _ ty _ _ => etyIsInt ty
  | .vperm _ _ ty _ _ _ => ty != .e2m1
  | .vext _ ty _ _ _ => ty != .e2m1
  | .vins _ ty _ _ _ => ty != .e2m1
  | .vredsum _ _ ty _ _ _ => !etyIsInt ty
  | .vcvt _ _ src dst _ _ mm _ _ => src != dst && !(mm && etyIsInt src)
  | .vquant _ _ src dst _ _ _ _ _ => quantTypes src dst
  | .vdeq _ _ src dst _ _ _ _ => quantTypes dst src
  | .vscale _ _ src dst _ _ _ _ _ _ => quantTypes src dst
  | .vhash3 _ _ w _ _ _ _ => decide (1 ≤ w.toNat ∧ w.toNat ≤ 32)
  | .tnext _ d a b => d != 0 && a != 0 && b != 0 && d != a && d != b && a != b
  | .spush _ _ ty _ _ _ => ty != .e2m1
  | .spop _ _ ty _ _ a => ty != .e2m1 && a != 0
  | .lqpush _ _ ty _ _ => ty == .i32
  | .lqpop _ _ ty _ a => ty == .i32 && a != 0
  | .lqstat _ ty d => ty == .i32 && d != 0
  | .aadd _ ty _ _ _ _ _ => styWide ty
  | .aand _ ty _ _ _ _ _ => styWide ty
  | .aor _ ty _ _ _ _ _ => styWide ty
  | .axor _ ty _ _ _ _ _ => styWide ty
  | .aswp _ ty _ _ _ _ _ => styWide ty
  | .acas _ ty _ _ _ _ _ => styWide ty
  | .amin _ ty _ _ _ _ _ => ty == .i32 || ty == .i64
  | .amax _ ty _ _ _ _ _ => ty == .i32 || ty == .i64
  | .aminn _ ty _ _ _ _ _ => ty == .n32 || ty == .n64
  | .amaxn _ ty _ _ _ _ _ => ty == .n32 || ty == .n64
  | .red _ op ty _ _ _ => ropAccepts op ty
  | .redc _ op ty det _ _ _ cnt1 idx =>
    ropAccepts op ty && (if det then decide (idx.toNat ≤ cnt1.toNat) else idx == 0)
  | .xfence _ c1 c2 => c1 != c2
  | .enq _ sc _ _ e => !(e == .coll && decide (scopeNum sc < 3))
  | .illop w => !majorAssigned ((w.toNat >>> 48) % 256)
  -- the steps that no word encodes: their operands name a core, die, quire, chain, slot or link that exists (R6)
  | .nopPacket d k => decide (d < 4 ∧ k < 16)
  | .launchPacket d k => decide (d < 4 ∧ k < 16)
  | .collPacket d k => decide (d < 4 ∧ k < 16)
  | .fencePacket d k => decide (d < 4 ∧ k < 16)
  | .signalPacket d k => decide (d < 4 ∧ k < 16)
  | .timedPacket d k => decide (d < 4 ∧ k < 16)
  | .fenceResume d k => decide (d < 4 ∧ k < 16)
  | .timedResume d k => decide (d < 4 ∧ k < 16)
  | .signalWrite d _ => decide (d < 4)
  | .queueScan d => decide (d < 4)
  | .dispatchPop q => decide (q < 40)
  | .formatWindowWrite st w k _ => decide (st < 8 ∧ w < 32 ∧ k < 4)
  | .redcLand _ op ty det _ cnt idx _ =>
    decide (1 ≤ cnt ∧ cnt ≤ 256) && ropAccepts op ty && (if det then decide (idx < cnt) else idx == 0)
  | .flitReceive l _ => decide (l < 16)
  | .flitResend l _ _ => decide (l < 16)
  | .linkDown l => decide (l < 16)
  | .laneSpare l => decide (l < 16)
  | .linkUp l _ => decide (l < 16)
  | .hostRead _ len k => decide (len ≤ 8192 ∧ k < 8192)
  | .hostWrite _ k data => decide (data.length ≤ 8192 ∧ k < 8192)
  | .spinesArrival d _ => decide (d < 4)
  | .collCombine d e c => decide (d < 4 ∧ e < 4096 ∧ c < 256)
  | .collBroadcastPull d e c => decide (d < 4 ∧ e < 4096 ∧ c < 256)
  | .collRecompute d e => decide (d < 4 ∧ e < 4096)
  | .collResume d e => decide (d < 4 ∧ e < 4096)
  | .collAbort d e why => decide (d < 4 ∧ e < 4096 ∧ 1 ≤ why ∧ why ≤ 5)
  | .moduleInsert p row => decide (p < 64 ∧ row.length = 16)
  | .moduleRemove p => decide (p < 64)
  | .throttle d g => decide (d < 4 ∧ g.toNat ≤ 12)
  | .arrayError (.sram c _) _ => decide (c < 320)
  | .scrub (.sram c _) => decide (c < 320)
  | _ => true

end Sys2Proof
end

