-- ==== Sys2Proof/Decode.lean ====
section
/-! DEFINITION. The decoder and, after it, the encoder of instruction words and engine words (spec 04; the encoding
tables of 05, 06, 09, 13, 14, 17, 20, 21, 24; 15 R302). Words are read as naturals, bit 0 least significant. -/
namespace Sys2Proof
open Sys2Proof.Machine

/-- The fields that every family shares (R63 to R65): header, OP, the three upper register fields, bits [29:0]. -/
structure Parts where
  h : Hdr
  op : Nat
  d : Nat
  a : Nat
  b : Nat
  lo : Nat

/-- WAIT and TOK as the top eight bits of a word (R63, R64). -/
def hdrNat (h : Hdr) : Nat :=
  h.wait.toNat * 16 + h.popL.toNat * 8 + h.popR.toNat * 4 + h.pushL.toNat * 2 + h.pushR.toNat

/-- WAIT and TOK of the top eight bits of a word. -/
def hdrOf (n : Nat) : Hdr :=
  { wait := BitVec.ofNat 4 (n / 16), popL := n / 8 % 2 == 1, popR := n / 4 % 2 == 1, pushL := n / 2 % 2 == 1,
    pushR := n % 2 == 1 }

/-- Split a word into its parts. -/
def partsOf (w : Nat) : Parts :=
  { h := hdrOf (w / 2 ^ 56), op := w / 2 ^ 48 % 2 ^ 8, d := w / 2 ^ 42 % 2 ^ 6, a := w / 2 ^ 36 % 2 ^ 6,
    b := w / 2 ^ 30 % 2 ^ 6, lo := w % 2 ^ 30 }

/-- Assemble a word from its parts. -/
def eR (h : Hdr) (op d a b lo : Nat) : Nat :=
  hdrNat h * 2 ^ 56 + op * 2 ^ 48 + d * 2 ^ 42 + a * 2 ^ 36 + b * 2 ^ 30 + lo

/-- Assemble a word of the I family: FN in [35:32], IMM in [31:0]. -/
def eI (h : Hdr) (op d a fn imm : Nat) : Nat :=
  hdrNat h * 2 ^ 56 + op * 2 ^ 48 + d * 2 ^ 42 + a * 2 ^ 36 + fn * 2 ^ 32 + imm

/-- Bits [29:0] of the V family. -/
def loV (c k ty ty2 rnd sat mm fn : Nat) : Nat :=
  c * 2 ^ 24 + k * 2 ^ 21 + ty * 2 ^ 17 + ty2 * 2 ^ 13 + rnd * 2 ^ 10 + sat * 2 ^ 9 + mm * 2 ^ 8 + fn

/-- Bits [29:0] of the M family. -/
def loM (sty swz ord scope k off : Nat) : Nat :=
  sty * 2 ^ 27 + swz * 2 ^ 24 + ord * 2 ^ 22 + scope * 2 ^ 19 + k * 2 ^ 16 + off

/-- Bits [29:0] of the S family. -/
def loS (fn sysn imm : Nat) : Nat := fn * 2 ^ 24 + sysn * 2 ^ 12 + imm

/-- Fields of the V family below B (R65). -/
structure FieldsV where
  c : Nat
  k : Nat
  ty : Nat
  ty2 : Nat
  rnd : Nat
  sat : Nat
  mm : Nat
  fn : Nat

/-- Read bits [29:0] as the V family. -/
def fieldsV (lo : Nat) : FieldsV :=
  { c := lo / 2 ^ 24, k := lo / 2 ^ 21 % 8, ty := lo / 2 ^ 17 % 16, ty2 := lo / 2 ^ 13 % 16, rnd := lo / 2 ^ 10 % 8,
    sat := lo / 2 ^ 9 % 2, mm := lo / 2 ^ 8 % 2, fn := lo % 256 }

/-- Fields of the M family below B (R65). -/
structure FieldsM where
  sty : Nat
  swz : Nat
  ord : Nat
  scope : Nat
  k : Nat
  off : Nat

/-- Read bits [29:0] as the M family. -/
def fieldsM (lo : Nat) : FieldsM :=
  { sty := lo / 2 ^ 27, swz := lo / 2 ^ 24 % 8, ord := lo / 2 ^ 22 % 4, scope := lo / 2 ^ 19 % 8, k := lo / 2 ^ 16 % 8,
    off := lo % 2 ^ 16 }

/-- Fields of the S family below B (R65). -/
structure FieldsS where
  fn : Nat
  sysn : Nat
  imm : Nat

/-- Read bits [29:0] as the S family. -/
def fieldsS (lo : Nat) : FieldsS := { fn := lo / 2 ^ 24, sysn := lo / 2 ^ 12 % 2 ^ 12, imm := lo % 2 ^ 12 }

/-- Register classes (R69). -/
def gOf (n : Nat) : Option GReg := if n < 32 then some (BitVec.ofNat 5 n) else none
/-- A v field (R69). -/
def vOf (n : Nat) : Option VReg := if n < 32 then some (BitVec.ofNat 5 n) else none
/-- A b field (R69). -/
def bOf (n : Nat) : Option BReg := if n < 4 then some (BitVec.ofNat 2 n) else none
/-- A k field (R69). -/
def kOf (n : Nat) : Option KReg := if n < 8 then some (BitVec.ofNat 3 n) else none
/-- A t field (R69). -/
def tOf (n : Nat) : Option TReg := if n < 8 then some (BitVec.ofNat 3 n) else none

/-- Element type codes (R36). -/
def etyCode : ETy → Nat
  | .i8 => 0 | .n8 => 1 | .i16 => 2 | .i32 => 3 | .f32 => 4 | .bf16 => 5 | .f16 => 6 | .e4m3 => 7 | .e5m2 => 8
  | .e2m1 => 9 | .ds8 => 10

/-- The element type of a code (R36). -/
def etyOf : Nat → Option ETy
  | 0 => some .i8 | 1 => some .n8 | 2 => some .i16 | 3 => some .i32 | 4 => some .f32 | 5 => some .bf16
  | 6 => some .f16 | 7 => some .e4m3 | 8 => some .e5m2 | 9 => some .e2m1 | 10 => some .ds8 | _ => none

/-- Rounding codes (R45). -/
def rmCode : RmCode → Nat
  | .mode .rne => 0 | .mode .rtz => 1 | .mode .rdn => 2 | .mode .rup => 3 | .mode .rna => 4 | .mode .rsto => 5
  | .ctl => 6

/-- The rounding of a code; code 7 is reserved (R45). -/
def rmOf : Nat → Option RmCode
  | 0 => some (.mode .rne) | 1 => some (.mode .rtz) | 2 => some (.mode .rdn) | 3 => some (.mode .rup)
  | 4 => some (.mode .rna) | 5 => some (.mode .rsto) | 6 => some .ctl | _ => none

/-- STY codes (R71). -/
def styCode : STy → Nat
  | .i8 => 0 | .n8 => 1 | .i16 => 2 | .n16 => 3 | .i32 => 4 | .n32 => 5 | .i64 => 6 | .n64 => 7

/-- The scalar type of an STY code (R71). -/
def styOf : Nat → Option STy
  | 0 => some .i8 | 1 => some .n8 | 2 => some .i16 | 3 => some .n16 | 4 => some .i32 | 5 => some .n32
  | 6 => some .i64 | 7 => some .n64 | _ => none

/-- STY codes of floating atomics (R71). -/
def fstyCode : FSty → Nat
  | .bf16 => 2 | .f16 => 3 | .f32 => 4

/-- The floating type of an STY code (R71). -/
def fstyOf : Nat → Option FSty
  | 2 => some .bf16 | 3 => some .f16 | 4 => some .f32 | _ => none

/-- The scope of a code (R73). -/
def scopeOf : Nat → Option Scope
  | 0 => some .core | 1 => some .quire | 2 => some .vol | 3 => some .pkg | 4 => some .pod | _ => none

/-- ORD of a load or WAITV (R251). -/
def acqOrd : Option Scope → Nat
  | none => 0 | some _ => 1
/-- ORD of a store (R251). -/
def relOrd : Option Scope → Nat
  | none => 0 | some _ => 2
/-- SCOPE of a load or store, reserved without an order (R251). -/
def optScope : Option Scope → Nat
  | none => 0 | some s => scopeNum s

/-- Order and scope of a load: ORD 0 with SCOPE zero, or the ORD `want` with a scope (R251). -/
def optScopeOf (want ord scope : Nat) : Option (Option Scope) :=
  if ord = 0 then (if scope = 0 then some none else none)
  else if ord = want then (scopeOf scope).map some
  else none

/-- ORD of an atomic (R73). -/
def aordNum : AOrd → Nat
  | .rlx => 0 | .acq _ => 1 | .rel _ => 2 | .ar _ => 3
/-- SCOPE of an atomic (R251). -/
def aordScope : AOrd → Nat
  | .rlx => 0 | .acq s => scopeNum s | .rel s => scopeNum s | .ar s => scopeNum s
/-- Order and scope of an atomic (R251). -/
def aordOf (ord scope : Nat) : Option AOrd :=
  match ord with
  | 0 => if scope = 0 then some .rlx else none
  | 1 => (scopeOf scope).map .acq
  | 2 => (scopeOf scope).map .rel
  | 3 => (scopeOf scope).map .ar
  | _ => none

/-- Order codes of FENCE (R73, R268). -/
def fordNum : FOrd → Nat
  | .acq => 1 | .rel => 2 | .ar => 3
/-- Order of a FENCE; `.rlx` raises RSVD (R268). -/
def fordOf : Nat → Option FOrd
  | 1 => some .acq | 2 => some .rel | 3 => some .ar | _ => none

/-- Condition codes of BCC (R77). -/
def condCode : Cond → Nat
  | .eq => 0 | .ne => 1 | .lt => 2 | .ge => 3 | .ltn => 4 | .gen => 5
/-- The condition of a CC code (R77). -/
def condOf : Nat → Option Cond
  | 0 => some .eq | 1 => some .ne | 2 => some .lt | 3 => some .ge | 4 => some .ltn | 5 => some .gen | _ => none

/-- Condition codes of VCMP (R76). -/
def vcondCode : VCond → Nat
  | .eq => 0 | .ne => 1 | .lt => 2 | .le => 3 | .gt => 4 | .ge => 5 | .un => 6 | .or => 7
/-- The condition of a VCMP FN (R76). -/
def vcondOf : Nat → Option VCond
  | 0 => some .eq | 1 => some .ne | 2 => some .lt | 3 => some .le | 4 => some .gt | 5 => some .ge | 6 => some .un
  | 7 => some .or | _ => none

/-- Operation codes of KOP (R76). -/
def kopCode : KOp → Nat
  | .and _ _ => 0 | .or _ _ => 1 | .xor _ _ => 2 | .andn _ _ => 3 | .not _ => 4 | .mov _ => 5 | .ones => 6 | .zero => 7
/-- Field A of KOP (R131). -/
def kopA : KOp → Nat
  | .and a _ => a.toNat | .or a _ => a.toNat | .xor a _ => a.toNat | .andn a _ => a.toNat | .not a => a.toNat
  | .mov a => a.toNat | .ones => 0 | .zero => 0
/-- Field B of KOP (R131). -/
def kopB : KOp → Nat
  | .and _ b => b.toNat | .or _ b => b.toNat | .xor _ b => b.toNat | .andn _ b => b.toNat | .not _ => 0 | .mov _ => 0
  | .ones => 0 | .zero => 0
/-- The operation of KOP from FN, A and B (R131). -/
def kopOf (fn a b : Nat) : Option KOp :=
  match fn with
  | 0 => do return .and (← kOf a) (← kOf b)
  | 1 => do return .or (← kOf a) (← kOf b)
  | 2 => do return .xor (← kOf a) (← kOf b)
  | 3 => do return .andn (← kOf a) (← kOf b)
  | 4 => if b = 0 then do return .not (← kOf a) else none
  | 5 => if b = 0 then do return .mov (← kOf a) else none
  | 6 => if a = 0 ∧ b = 0 then some .ones else none
  | 7 => if a = 0 ∧ b = 0 then some .zero else none
  | _ => none

/-- Operation codes of VPERM (R76). -/
def permCode : PermOp → Nat
  | .idx _ => 0 | .rot _ => 1 | .rev => 2 | .ziplo _ => 3 | .ziphi _ => 4 | .even _ => 5 | .odd _ => 6
/-- Field B of VPERM (R76). -/
def permB : PermOp → Nat
  | .idx b => b.toNat | .rot b => b.toNat | .rev => 0 | .ziplo b => b.toNat | .ziphi b => b.toNat | .even b => b.toNat
  | .odd b => b.toNat
/-- The operation of VPERM from FN and B (R76). -/
def permOf (fn b : Nat) : Option PermOp :=
  match fn with
  | 0 => (vOf b).map .idx
  | 1 => (gOf b).map .rot
  | 2 => if b = 0 then some .rev else none
  | 3 => (vOf b).map .ziplo
  | 4 => (vOf b).map .ziphi
  | 5 => (vOf b).map .even
  | 6 => (vOf b).map .odd
  | _ => none

/-- Operator codes of RED and REDC (R78). -/
def ropCode : Rop → Nat
  | .add => 0 | .fadd => 1 | .min => 2 | .max => 3 | .minn => 4 | .maxn => 5 | .fmin => 6 | .fmax => 7 | .and => 8
  | .or => 9 | .xor => 10
/-- The operator of an ROP code (R78). -/
def ropOf : Nat → Option Rop
  | 0 => some .add | 1 => some .fadd | 2 => some .min | 3 => some .max | 4 => some .minn | 5 => some .maxn
  | 6 => some .fmin | 7 => some .fmax | 8 => some .and | 9 => some .or | 10 => some .xor | _ => none

/-- Engine selectors in IMM (R75). -/
def selCode : Sel → Nat
  | .copy => 1 | .mtx => 2 | .mq1 => 10 | .gath => 3 | .coll => 4
/-- The engine selector of IMM (R75). -/
def selOf : Nat → Option Sel
  | 1 => some .copy | 2 => some .mtx | 10 => some .mq1 | 3 => some .gath | 4 => some .coll | _ => none

/-- Access path classes (R247). -/
def pathNum : Path → Nat
  | .core => 0 | .copy => 1 | .mtx => 2 | .gath => 3 | .coll => 4
/-- The class of a number (R269). -/
def pathOf : Nat → Option Path
  | 0 => some .core | 1 => some .copy | 2 => some .mtx | 3 => some .gath | 4 => some .coll | _ => none

/-- `op gD, gA, gB` (R96). -/
def dR3 (p : Parts) (mk : Hdr → GReg → GReg → GReg → Instr) : Option Instr := do
  guard (p.lo = 0); return mk p.h (← gOf p.d) (← gOf p.a) (← gOf p.b)
/-- `op gD, gA, gB, gC` (R96). -/
def dR4 (p : Parts) (mk : Hdr → GReg → GReg → GReg → GReg → Instr) : Option Instr := do
  guard (p.lo % 2 ^ 24 = 0); return mk p.h (← gOf p.d) (← gOf p.a) (← gOf p.b) (← gOf (p.lo / 2 ^ 24))
/-- `op gD, gA` with every other field zero. -/
def dR2 (p : Parts) (mk : Hdr → GReg → GReg → Instr) : Option Instr := do
  guard (p.b = 0 ∧ p.lo = 0); return mk p.h (← gOf p.d) (← gOf p.a)
/-- `op gA` with every other field zero. -/
def dA (p : Parts) (mk : Hdr → GReg → Instr) : Option Instr := do
  guard (p.d = 0 ∧ p.b = 0 ∧ p.lo = 0); return mk p.h (← gOf p.a)
/-- No operand. -/
def d0 (p : Parts) (mk : Hdr → Instr) : Option Instr := do
  guard (p.d = 0 ∧ p.a = 0 ∧ p.b = 0 ∧ p.lo = 0); return mk p.h
/-- FN of the I family. -/
def fnI (p : Parts) : Nat := p.b / 4
/-- IMM of the I family. -/
def immI (p : Parts) : Nat := p.b % 4 * 2 ^ 30 + p.lo
/-- `op gD, gA, e` (R98). -/
def dI2 (p : Parts) (mk : Hdr → GReg → GReg → BitVec 32 → Instr) : Option Instr := do
  guard (fnI p = 0); return mk p.h (← gOf p.d) (← gOf p.a) (BitVec.ofNat 32 (immI p))
/-- Shifts by an immediate; IMM[31:6] is reserved (R70). -/
def dSh (p : Parts) (mk : Hdr → GReg → GReg → BitVec 6 → Instr) : Option Instr := do
  guard (fnI p = 0 ∧ immI p < 64); return mk p.h (← gOf p.d) (← gOf p.a) (BitVec.ofNat 6 (immI p))
/-- LI; A is reserved (R98). -/
def dLi (p : Parts) : Option Instr := do
  guard (fnI p = 0 ∧ p.a = 0); return .li p.h (← gOf p.d) (BitVec.ofNat 32 (immI p))
/-- BFX; FN[0] is the sign extension (R70). -/
def dBfx (p : Parts) : Option Instr := do
  guard (fnI p < 2 ∧ immI p < 2 ^ 12)
  return .bfx p.h (← gOf p.d) (← gOf p.a) (fnI p == 1) (BitVec.ofNat 6 (immI p % 64)) (BitVec.ofNat 6 (immI p / 64))
/-- BFI (R70). -/
def dBfi (p : Parts) : Option Instr := do
  guard (fnI p = 0 ∧ immI p < 2 ^ 12)
  return .bfi p.h (← gOf p.d) (← gOf p.a) (BitVec.ofNat 6 (immI p % 64)) (BitVec.ofNat 6 (immI p / 64))
/-- LDS (R101). -/
def dLds (p : Parts) : Option Instr := do
  let f := fieldsM p.lo
  guard (p.b = 0 ∧ f.ord = 0 ∧ f.scope = 0 ∧ f.k = 0)
  return .lds p.h (← styOf f.sty) (BitVec.ofNat 3 f.swz) (← gOf p.d) (← gOf p.a) (BitVec.ofNat 16 f.off)
/-- STS (R101). -/
def dSts (p : Parts) : Option Instr := do
  let f := fieldsM p.lo
  guard (p.d = 0 ∧ f.ord = 0 ∧ f.scope = 0 ∧ f.k = 0)
  return .sts p.h (← styOf f.sty) (BitVec.ofNat 3 f.swz) (← gOf p.a) (← gOf p.b) (BitVec.ofNat 16 f.off)
/-- CC of the B family; bits [25:24] are zero (R65). -/
def dBcc (p : Parts) : Option Instr := do
  guard (p.d = 0 ∧ p.lo / 2 ^ 24 % 4 = 0)
  return .bcc p.h (← condOf (p.lo / 2 ^ 26)) (← gOf p.a) (← gOf p.b) (BitVec.ofNat 24 p.lo)
/-- J (R105). -/
def dJ (p : Parts) : Option Instr := do
  guard (p.d = 0 ∧ p.a = 0 ∧ p.b = 0 ∧ p.lo < 2 ^ 24); return .j p.h (BitVec.ofNat 24 p.lo)
/-- PBR, PC-relative with CC 0 and from a register with CC 1 (R77, R105). -/
def dPbr (p : Parts) : Option Instr := do
  guard (p.b = 0 ∧ p.lo / 2 ^ 24 % 4 = 0)
  if p.lo / 2 ^ 26 = 0 then
    guard (p.a = 0)
    return .pbr p.h (← bOf p.d) (.rel (BitVec.ofNat 24 p.lo))
  else
    guard (p.lo / 2 ^ 26 = 1)
    return .pbr p.h (← bOf p.d) (.reg (← gOf p.a) (BitVec.ofNat 24 p.lo))
/-- BR and BRL (R105). -/
def dBr (p : Parts) (mk : Hdr → BReg → Instr) : Option Instr := do
  guard (p.d = 0 ∧ p.b = 0 ∧ p.lo = 0); return mk p.h (← bOf p.a)
/-- SRD (R109). -/
def dSrd (p : Parts) : Option Instr := do
  let f := fieldsS p.lo
  guard (p.a = 0 ∧ p.b = 0 ∧ f.fn = 0 ∧ f.imm = 0); return .srd p.h (← gOf p.d) (BitVec.ofNat 12 f.sysn)
/-- SWR (R109). -/
def dSwr (p : Parts) : Option Instr := do
  let f := fieldsS p.lo
  guard (p.d = 0 ∧ p.b = 0 ∧ f.fn = 0 ∧ f.imm = 0); return .swr p.h (← gOf p.a) (BitVec.ofNat 12 f.sysn)
/-- WAITT and WAITT `.p` (R109). -/
def dWaitt (p : Parts) : Option Instr := do
  let f := fieldsS p.lo
  guard (p.d = 0 ∧ f.sysn = 0 ∧ f.imm = 0)
  if f.fn = 32 then return .waittP p.h (← gOf p.a) (← gOf p.b)
  else
    guard (f.fn = 0 ∧ p.b = 0)
    return .waitt p.h (← gOf p.a)
/-- SEV and SEV `.remote` (R109). -/
def dSev (p : Parts) : Option Instr := do
  let f := fieldsS p.lo
  guard (p.d = 0 ∧ p.b = 0 ∧ f.sysn = 0 ∧ f.imm = 0)
  if f.fn = 32 then return .sevRemote p.h (← gOf p.a)
  else
    guard (f.fn = 0 ∧ p.a = 0)
    return .sev p.h
/-- Floating arithmetic with two sources (R126). -/
def dVf3 (p : Parts) (mk : Hdr → KReg → ETy → RmCode → Bool → VReg → VReg → VReg → Instr) : Option Instr := do
  let f := fieldsV p.lo
  guard (f.c = 0 ∧ f.ty2 = 0 ∧ f.mm = 0 ∧ f.fn = 0)
  return mk p.h (BitVec.ofNat 3 f.k) (← etyOf f.ty) (← rmOf f.rnd) (f.sat == 1) (← vOf p.d) (← vOf p.a) (← vOf p.b)
/-- VFMA and VFMS (R126). -/
def dVf4 (p : Parts) (mk : Hdr → KReg → ETy → RmCode → Bool → VReg → VReg → VReg → VReg → Instr) : Option Instr := do
  let f := fieldsV p.lo
  guard (f.ty2 = 0 ∧ f.mm = 0 ∧ f.fn = 0)
  return mk p.h (BitVec.ofNat 3 f.k) (← etyOf f.ty) (← rmOf f.rnd) (f.sat == 1) (← vOf p.d) (← vOf p.a) (← vOf p.b) (← vOf f.c)
/-- Floating functions of one source (R126). -/
def dVf2 (p : Parts) (mk : Hdr → KReg → ETy → RmCode → Bool → VReg → VReg → Instr) : Option Instr := do
  let f := fieldsV p.lo
  guard (p.b = 0 ∧ f.c = 0 ∧ f.ty2 = 0 ∧ f.mm = 0 ∧ f.fn = 0)
  return mk p.h (BitVec.ofNat 3 f.k) (← etyOf f.ty) (← rmOf f.rnd) (f.sat == 1) (← vOf p.d) (← vOf p.a)
/-- Two vector sources, no rounding (R126, R128, R130). -/
def dVm3 (p : Parts) (mk : Hdr → KReg → ETy → VReg → VReg → VReg → Instr) : Option Instr := do
  let f := fieldsV p.lo
  guard (f.c = 0 ∧ f.ty2 = 0 ∧ f.rnd = 0 ∧ f.sat = 0 ∧ f.mm = 0 ∧ f.fn = 0)
  return mk p.h (BitVec.ofNat 3 f.k) (← etyOf f.ty) (← vOf p.d) (← vOf p.a) (← vOf p.b)
/-- One source, no rounding; D of class v or g, both 0 to 31 (R126, R132, R134). -/
def dVm2 (p : Parts) (mk : Hdr → KReg → ETy → VReg → VReg → Instr) : Option Instr := do
  let f := fieldsV p.lo
  guard (p.b = 0 ∧ f.c = 0 ∧ f.ty2 = 0 ∧ f.rnd = 0 ∧ f.sat = 0 ∧ f.mm = 0 ∧ f.fn = 0)
  return mk p.h (BitVec.ofNat 3 f.k) (← etyOf f.ty) (← vOf p.d) (← vOf p.a)
/-- VIADD, VISUB, VIMUL (R128). -/
def dVi3 (p : Parts) (mk : Hdr → KReg → ETy → Bool → VReg → VReg → VReg → Instr) : Option Instr := do
  let f := fieldsV p.lo
  guard (f.c = 0 ∧ f.ty2 = 0 ∧ f.rnd = 0 ∧ f.mm = 0 ∧ f.fn = 0)
  return mk p.h (BitVec.ofNat 3 f.k) (← etyOf f.ty) (f.sat == 1) (← vOf p.d) (← vOf p.a) (← vOf p.b)
/-- VCMP (R129). -/
def dVcmp (p : Parts) : Option Instr := do
  let f := fieldsV p.lo
  guard (f.c = 0 ∧ f.ty2 = 0 ∧ f.rnd = 0 ∧ f.sat = 0 ∧ f.mm = 0)
  return .vcmp p.h (BitVec.ofNat 3 f.k) (← etyOf f.ty) (← vcondOf f.fn) (← kOf p.d) (← vOf p.a) (← vOf p.b)
/-- KOP (R131). -/
def dKop (p : Parts) : Option Instr := do
  let f := fieldsV p.lo
  guard (f.c = 0 ∧ f.k = 0 ∧ f.ty = 0 ∧ f.ty2 = 0 ∧ f.rnd = 0 ∧ f.sat = 0 ∧ f.mm = 0)
  return .kop p.h (← kOf p.d) (← kopOf f.fn p.a p.b)
/-- KPOP and KFIRST (R131). -/
def dKred (p : Parts) (mk : Hdr → ETy → GReg → KReg → Instr) : Option Instr := do
  let f := fieldsV p.lo
  guard (p.b = 0 ∧ f.c = 0 ∧ f.k = 0 ∧ f.ty2 = 0 ∧ f.rnd = 0 ∧ f.sat = 0 ∧ f.mm = 0 ∧ f.fn = 0)
  return mk p.h (← etyOf f.ty) (← gOf p.d) (← kOf p.a)
/-- VBCAST and VIOTA (R132). -/
def dVg (p : Parts) (mk : Hdr → KReg → ETy → VReg → GReg → Instr) : Option Instr := do
  let f := fieldsV p.lo
  guard (p.b = 0 ∧ f.c = 0 ∧ f.ty2 = 0 ∧ f.rnd = 0 ∧ f.sat = 0 ∧ f.mm = 0 ∧ f.fn = 0)
  return mk p.h (BitVec.ofNat 3 f.k) (← etyOf f.ty) (← vOf p.d) (← gOf p.a)
/-- VPERM (R133). -/
def dVperm (p : Parts) : Option Instr := do
  let f := fieldsV p.lo
  guard (f.c = 0 ∧ f.ty2 = 0 ∧ f.rnd = 0 ∧ f.sat = 0 ∧ f.mm = 0)
  return .vperm p.h (BitVec.ofNat 3 f.k) (← etyOf f.ty) (← vOf p.d) (← vOf p.a) (← permOf f.fn p.b)
/-- VEXT (R132). -/
def dVext (p : Parts) : Option Instr := do
  let f := fieldsV p.lo
  guard (f.c = 0 ∧ f.k = 0 ∧ f.ty2 = 0 ∧ f.rnd = 0 ∧ f.sat = 0 ∧ f.mm = 0 ∧ f.fn = 0)
  return .vext p.h (← etyOf f.ty) (← gOf p.d) (← vOf p.a) (← gOf p.b)
/-- VINS (R132). -/
def dVins (p : Parts) : Option Instr := do
  let f := fieldsV p.lo
  guard (f.c = 0 ∧ f.k = 0 ∧ f.ty2 = 0 ∧ f.rnd = 0 ∧ f.sat = 0 ∧ f.mm = 0 ∧ f.fn = 0)
  return .vins p.h (← etyOf f.ty) (← vOf p.d) (← gOf p.a) (← gOf p.b)
/-- VREDSUM (R134). -/
def dVredsum (p : Parts) : Option Instr := do
  let f := fieldsV p.lo
  guard (p.b = 0 ∧ f.c = 0 ∧ f.ty2 = 0 ∧ f.sat = 0 ∧ f.mm = 0 ∧ f.fn = 0)
  return .vredsum p.h (BitVec.ofNat 3 f.k) (← etyOf f.ty) (← rmOf f.rnd) (← gOf p.d) (← vOf p.a)
/-- VCVT and VQUANT (R136). -/
def dVcvt (p : Parts) (mk : Hdr → KReg → ETy → ETy → RmCode → Bool → Bool → VReg → VReg → Instr) : Option Instr := do
  let f := fieldsV p.lo
  guard (p.b = 0 ∧ f.c = 0 ∧ f.fn = 0)
  return mk p.h (BitVec.ofNat 3 f.k) (← etyOf f.ty) (← etyOf f.ty2) (← rmOf f.rnd) (f.sat == 1) (f.mm == 1) (← vOf p.d) (← vOf p.a)
/-- VDEQ (R136). -/
def dVdeq (p : Parts) : Option Instr := do
  let f := fieldsV p.lo
  guard (p.b = 0 ∧ f.c = 0 ∧ f.mm = 0 ∧ f.fn = 0)
  return .vdeq p.h (BitVec.ofNat 3 f.k) (← etyOf f.ty) (← etyOf f.ty2) (← rmOf f.rnd) (f.sat == 1) (← vOf p.d) (← vOf p.a)
/-- VSCALE (R136). -/
def dVscale (p : Parts) : Option Instr := do
  let f := fieldsV p.lo
  guard (f.c = 0 ∧ f.fn = 0)
  return .vscale p.h (BitVec.ofNat 3 f.k) (← etyOf f.ty) (← etyOf f.ty2) (← rmOf f.rnd) (f.sat == 1) (f.mm == 1) (← vOf p.d) (← vOf p.a) (← gOf p.b)
/-- VCELL, of TYPE f32 (R141). -/
def dVcell (p : Parts) : Option Instr := do
  let f := fieldsV p.lo
  guard (f.ty = 4 ∧ f.ty2 = 0 ∧ f.rnd = 0 ∧ f.sat = 0 ∧ f.mm = 0 ∧ f.fn = 0)
  return .vcell p.h (BitVec.ofNat 3 f.k) (← vOf p.d) (← vOf p.a) (← gOf p.b) (← gOf f.c)
/-- VHASH3, of TYPE i32 (R141). -/
def dVhash (p : Parts) : Option Instr := do
  let f := fieldsV p.lo
  guard (f.ty = 3 ∧ f.ty2 = 0 ∧ f.rnd = 0 ∧ f.sat = 0 ∧ f.mm = 0 ∧ f.fn < 64)
  return .vhash3 p.h (BitVec.ofNat 3 f.k) (BitVec.ofNat 6 f.fn) (← vOf p.d) (← vOf p.a) (← vOf p.b) (← vOf f.c)
/-- VMORTON, of TYPE i32 (R141). -/
def dVmorton (p : Parts) : Option Instr := do
  let f := fieldsV p.lo
  guard (f.ty = 3 ∧ f.ty2 = 0 ∧ f.rnd = 0 ∧ f.sat = 0 ∧ f.mm = 0)
  if f.fn = 3 then return .vmorton p.h (BitVec.ofNat 3 f.k) (← vOf p.d) (← vOf p.a) (← vOf p.b) (.c3 (← vOf f.c))
  else
    guard (f.fn = 2 ∧ f.c = 0)
    return .vmorton p.h (BitVec.ofNat 3 f.k) (← vOf p.d) (← vOf p.a) (← vOf p.b) .c2
/-- VLD (R145). -/
def dVld (p : Parts) : Option Instr := do
  let f := fieldsM p.lo
  guard (p.b = 0 ∧ f.sty = 0 ∧ f.ord = 0 ∧ f.scope = 0)
  return .vld p.h (BitVec.ofNat 3 f.k) (BitVec.ofNat 3 f.swz) (← vOf p.d) (← gOf p.a) (BitVec.ofNat 16 f.off)
/-- VST (R145). -/
def dVst (p : Parts) : Option Instr := do
  let f := fieldsM p.lo
  guard (p.d = 0 ∧ f.sty = 0 ∧ f.ord = 0 ∧ f.scope = 0)
  return .vst p.h (BitVec.ofNat 3 f.k) (BitVec.ofNat 3 f.swz) (← gOf p.a) (← vOf p.b) (BitVec.ofNat 16 f.off)
/-- VLDX and VSTX (R145). -/
def dVldx (p : Parts) (mk : Hdr → KReg → STy → BitVec 3 → VReg → GReg → VReg → BitVec 16 → Instr) : Option Instr := do
  let f := fieldsM p.lo
  guard (f.ord = 0 ∧ f.scope = 0)
  return mk p.h (BitVec.ofNat 3 f.k) (← styOf f.sty) (BitVec.ofNat 3 f.swz) (← vOf p.d) (← gOf p.a) (← vOf p.b) (BitVec.ofNat 16 f.off)
/-- TLD and TST (R149). -/
def dTld (p : Parts) (mk : Hdr → BitVec 3 → TReg → GReg → GReg → BitVec 16 → Instr) : Option Instr := do
  let f := fieldsM p.lo
  guard (f.sty = 0 ∧ f.ord = 0 ∧ f.scope = 0 ∧ f.k = 0)
  return mk p.h (BitVec.ofNat 3 f.swz) (← tOf p.d) (← gOf p.a) (← gOf p.b) (BitVec.ofNat 16 f.off)
/-- TZERO (R151). -/
def dTzero (p : Parts) : Option Instr := do
  guard (p.a = 0 ∧ p.b = 0 ∧ p.lo = 0); return .tzero p.h (← tOf p.d)
/-- TMOV and TTRANS (R151). -/
def dTt (p : Parts) (mk : Hdr → TReg → TReg → Instr) : Option Instr := do
  guard (p.b = 0 ∧ p.lo = 0); return mk p.h (← tOf p.d) (← tOf p.a)
/-- TNEXT and TNEXT `.idx` (R186). -/
def dTnext (p : Parts) : Option Instr := do
  let f := fieldsS p.lo
  guard (f.sysn = 0 ∧ f.imm = 0)
  if f.fn = 32 then
    guard (p.a = 0 ∧ p.b = 0)
    return .tnextIdx p.h (← gOf p.d)
  else
    guard (f.fn = 0)
    return .tnext p.h (← gOf p.d) (← gOf p.a) (← gOf p.b)
/-- A scope in FN[2:0] and nothing else (R74). -/
def dScope (p : Parts) (mk : Hdr → Scope → Instr) : Option Instr := do
  let f := fieldsS p.lo
  guard (p.d = 0 ∧ p.a = 0 ∧ p.b = 0 ∧ f.sysn = 0 ∧ f.imm = 0); return mk p.h (← scopeOf f.fn)
/-- TOKS (R186). -/
def dToks (p : Parts) : Option Instr := do
  guard (p.a = 0 ∧ p.b = 0 ∧ p.lo < 4); return .toks p.h (← gOf p.d) (BitVec.ofNat 2 p.lo)
/-- TOKX (R186). -/
def dTokx (p : Parts) : Option Instr := do
  guard (p.d = 0 ∧ p.b = 0 ∧ p.lo < 4); return .tokx p.h (← gOf p.a) (BitVec.ofNat 2 p.lo)
/-- SPUSH (R186). -/
def dSpush (p : Parts) : Option Instr := do
  let f := fieldsV p.lo
  guard (p.b = 0 ∧ f.c = 0 ∧ f.ty2 = 0 ∧ f.rnd = 0 ∧ f.sat = 0 ∧ f.mm = 0 ∧ f.fn < 8)
  return .spush p.h (BitVec.ofNat 3 f.k) (← etyOf f.ty) (BitVec.ofNat 3 f.fn) (← gOf p.d) (← vOf p.a)
/-- SPOP (R186). -/
def dSpop (p : Parts) : Option Instr := do
  let f := fieldsV p.lo
  guard (p.b = 0 ∧ f.c = 0 ∧ f.ty2 = 0 ∧ f.rnd = 0 ∧ f.sat = 0 ∧ f.mm = 0 ∧ f.fn < 8)
  return .spop p.h (BitVec.ofNat 3 f.k) (← etyOf f.ty) (BitVec.ofNat 3 f.fn) (← vOf p.d) (← kOf p.a)
/-- SFLUSH (R186). -/
def dSflush (p : Parts) : Option Instr := do
  guard (p.b = 0 ∧ p.lo < 8); return .sflush p.h (BitVec.ofNat 3 p.lo) (← gOf p.d) (← gOf p.a)
/-- SRESET (R186). -/
def dSreset (p : Parts) : Option Instr := do
  guard (p.d = 0 ∧ p.a = 0 ∧ p.b = 0 ∧ p.lo < 8); return .sreset p.h (BitVec.ofNat 3 p.lo)
/-- LQPUSH (R186). -/
def dLqpush (p : Parts) : Option Instr := do
  let f := fieldsV p.lo
  guard (p.d = 0 ∧ f.c = 0 ∧ f.ty2 = 0 ∧ f.rnd = 0 ∧ f.sat = 0 ∧ f.mm = 0 ∧ f.fn = 0)
  return .lqpush p.h (BitVec.ofNat 3 f.k) (← etyOf f.ty) (← vOf p.a) (← vOf p.b)
/-- LQPOP (R186). -/
def dLqpop (p : Parts) : Option Instr := do
  let f := fieldsV p.lo
  guard (p.b = 0 ∧ f.c = 0 ∧ f.ty2 = 0 ∧ f.rnd = 0 ∧ f.sat = 0 ∧ f.mm = 0 ∧ f.fn = 0)
  return .lqpop p.h (BitVec.ofNat 3 f.k) (← etyOf f.ty) (← vOf p.d) (← kOf p.a)
/-- LQSTAT (R186). -/
def dLqstat (p : Parts) : Option Instr := do
  let f := fieldsV p.lo
  guard (p.a = 0 ∧ p.b = 0 ∧ f.c = 0 ∧ f.k = 0 ∧ f.ty2 = 0 ∧ f.rnd = 0 ∧ f.sat = 0 ∧ f.mm = 0 ∧ f.fn = 0)
  return .lqstat p.h (← etyOf f.ty) (← kOf p.d)
/-- IMM[11:0] and nothing else (R186, R386). -/
def dImm (p : Parts) (mk : Hdr → BitVec 12 → Instr) : Option Instr := do
  guard (p.d = 0 ∧ p.a = 0 ∧ p.b = 0 ∧ p.lo < 2 ^ 12); return mk p.h (BitVec.ofNat 12 p.lo)
/-- LDG (R251). -/
def dLdg (p : Parts) : Option Instr := do
  let f := fieldsM p.lo
  guard (p.b = 0 ∧ f.swz = 0 ∧ f.k = 0)
  return .ldg p.h (← styOf f.sty) (← optScopeOf 1 f.ord f.scope) (← gOf p.d) (← gOf p.a) (BitVec.ofNat 16 f.off)
/-- STG (R251). -/
def dStg (p : Parts) : Option Instr := do
  let f := fieldsM p.lo
  guard (p.d = 0 ∧ f.swz = 0 ∧ f.k = 0)
  return .stg p.h (← styOf f.sty) (← optScopeOf 2 f.ord f.scope) (← gOf p.a) (← gOf p.b) (BitVec.ofNat 16 f.off)
/-- VLDG (R251). -/
def dVldg (p : Parts) : Option Instr := do
  let f := fieldsM p.lo
  guard (p.b = 0 ∧ f.sty = 0 ∧ f.swz = 0)
  return .vldg p.h (BitVec.ofNat 3 f.k) (← optScopeOf 1 f.ord f.scope) (← vOf p.d) (← gOf p.a) (BitVec.ofNat 16 f.off)
/-- VSTG (R251). -/
def dVstg (p : Parts) : Option Instr := do
  let f := fieldsM p.lo
  guard (p.d = 0 ∧ f.sty = 0 ∧ f.swz = 0)
  return .vstg p.h (BitVec.ofNat 3 f.k) (← optScopeOf 2 f.ord f.scope) (← gOf p.a) (← vOf p.b) (BitVec.ofNat 16 f.off)
/-- Integer atomics (R251). -/
def dAt (p : Parts) (mk : Hdr → STy → AOrd → GReg → GReg → GReg → BitVec 16 → Instr) : Option Instr := do
  let f := fieldsM p.lo
  guard (f.swz = 0 ∧ f.k = 0)
  return mk p.h (← styOf f.sty) (← aordOf f.ord f.scope) (← gOf p.d) (← gOf p.a) (← gOf p.b) (BitVec.ofNat 16 f.off)
/-- Floating atomics (R71, R251). -/
def dAf (p : Parts) (mk : Hdr → FSty → AOrd → GReg → GReg → GReg → BitVec 16 → Instr) : Option Instr := do
  let f := fieldsM p.lo
  guard (f.swz = 0 ∧ f.k = 0)
  return mk p.h (← fstyOf f.sty) (← aordOf f.ord f.scope) (← gOf p.d) (← gOf p.a) (← gOf p.b) (BitVec.ofNat 16 f.off)
/-- ABADD, of STY n32 (R251). -/
def dAbadd (p : Parts) : Option Instr := do
  let f := fieldsM p.lo
  guard (f.sty = 5 ∧ f.swz = 0 ∧ f.k = 0)
  return .abadd p.h (← aordOf f.ord f.scope) (← gOf p.d) (← gOf p.a) (← gOf p.b) (BitVec.ofNat 16 f.off)
/-- RED (R263). -/
def dRed (p : Parts) : Option Instr := do
  let f := fieldsM p.lo
  guard (f.swz = 0 ∧ f.ord = 0 ∧ f.scope = 0 ∧ f.k = 0)
  return .red p.h (← ropOf p.d) (← styOf f.sty) (← gOf p.a) (← gOf p.b) (BitVec.ofNat 16 f.off)
/-- REDC: GFL[0] is DET, OFF holds cnt − 1 and idx (R67, R265). -/
def dRedc (p : Parts) : Option Instr := do
  let f := fieldsM p.lo
  guard (f.swz < 2 ∧ f.ord = 0 ∧ f.k = 0)
  return .redc p.h (← ropOf p.d) (← styOf f.sty) (f.swz == 1) (← scopeOf f.scope) (← gOf p.a) (← gOf p.b) (BitVec.ofNat 8 (f.off % 256)) (BitVec.ofNat 8 (f.off / 256))
/-- FENCE (R268). -/
def dFence (p : Parts) : Option Instr := do
  let f := fieldsS p.lo
  guard (p.d = 0 ∧ p.a = 0 ∧ p.b = 0 ∧ f.sysn = 0 ∧ f.imm = 0)
  return .fence p.h (← scopeOf (f.fn % 8)) (← fordOf (f.fn / 8))
/-- XFENCE (R269). -/
def dXfence (p : Parts) : Option Instr := do
  guard (p.d = 0 ∧ p.a = 0 ∧ p.b = 0 ∧ p.lo < 64)
  return .xfence p.h (← pathOf (p.lo % 8)) (← pathOf (p.lo / 8))
/-- PREF, CFLUSH, CINV (R251). -/
def dCm (p : Parts) (mk : Hdr → GReg → BitVec 16 → Instr) : Option Instr := do
  guard (p.d = 0 ∧ p.b = 0 ∧ p.lo < 2 ^ 16); return mk p.h (← gOf p.a) (BitVec.ofNat 16 p.lo)
/-- WAITV (R251). -/
def dWaitv (p : Parts) : Option Instr := do
  let f := fieldsM p.lo
  guard (f.swz = 0 ∧ f.k = 0)
  return .waitv p.h (← styOf f.sty) (← optScopeOf 1 f.ord f.scope) (← gOf p.d) (← gOf p.a) (← gOf p.b) (BitVec.ofNat 16 f.off)
/-- ENQ (R294). -/
def dEnq (p : Parts) : Option Instr := do
  let f := fieldsS p.lo
  guard (p.b = 0 ∧ f.sysn = 0); return .enq p.h (← scopeOf f.fn) (← gOf p.d) (← gOf p.a) (← selOf f.imm)
/-- ESEQ (R294). -/
def dEseq (p : Parts) : Option Instr := do
  guard (p.a = 0 ∧ p.b = 0 ∧ p.lo < 2 ^ 12); return .eseq p.h (← gOf p.d) (← selOf p.lo)
/-- WAITSEQ and ECANCEL (R294). -/
def dSel (p : Parts) (mk : Hdr → GReg → GReg → Sel → Instr) : Option Instr := do
  guard (p.b = 0 ∧ p.lo < 2 ^ 12); return mk p.h (← gOf p.d) (← gOf p.a) (← selOf p.lo)
/-- PROM, of class 1 only (R294). -/
def dProm (p : Parts) : Option Instr := do
  guard (p.b = 0 ∧ p.lo = 1); return .prom p.h (← gOf p.d) (← gOf p.a)
/-- CSTAT and CSTAT `.bm` (R441). -/
def dCstat (p : Parts) : Option Instr := do
  let f := fieldsS p.lo
  guard (f.sysn = 0 ∧ f.imm = 0)
  if f.fn = 32 then return .cstatBm p.h (← gOf p.d) (← gOf p.a) (← gOf p.b)
  else
    guard (f.fn = 0 ∧ p.b = 0)
    return .cstat p.h (← gOf p.d) (← gOf p.a)
/-- ERET and ERET `.reclaim` (R386). -/
def dEret (p : Parts) : Option Instr := do
  let f := fieldsS p.lo
  guard (p.d = 0 ∧ p.a = 0 ∧ p.b = 0 ∧ f.sysn = 0 ∧ f.imm = 0)
  if f.fn = 32 then return .eretReclaim p.h
  else
    guard (f.fn = 0)
    return .eret p.h
/-- FWCALL (R386). -/
def dFwcall (p : Parts) : Option Instr := do
  guard (p.b = 0 ∧ p.lo < 2 ^ 12); return .fwcall p.h (← gOf p.d) (← gOf p.a) (BitVec.ofNat 12 p.lo)
/-- CTXSAVE and CTXSAVE `.full` (R411). -/
def dCtxsave (p : Parts) : Option Instr := do
  guard (p.d = 0 ∧ p.b = 0 ∧ p.lo < 2)
  if p.lo = 1 then return .ctxsaveFull p.h (← gOf p.a)
  else return .ctxsave p.h (← gOf p.a)
/-- TLBINV by mode (R386). -/
def dTlbinv (p : Parts) : Option Instr := do
  guard (p.d = 0)
  match p.lo with
  | 0 => return .tlbinvPage p.h (← gOf p.a) (← gOf p.b)
  | 1 =>
    guard (p.a = 0)
    return .tlbinvAsid p.h (← gOf p.b)
  | 2 =>
    guard (p.a = 0 ∧ p.b = 0)
    return .tlbinvAll p.h
  | _ => none
/-- KEYLOAD by mode (R386). -/
def dKeyload (p : Parts) : Option Instr := do
  guard (p.d = 0)
  match p.lo with
  | 0 => return .keyload p.h (← gOf p.a) (← gOf p.b)
  | 1 =>
    guard (p.b = 0)
    return .keyloadClr p.h (← gOf p.a)
  | _ => none

/-- Majors 0x00 to 0x1f (R79, R80). -/
def decodeScalar (p : Parts) : Option Instr :=
  match p.op with
  | 0x01 => dR3 p .add
  | 0x02 => dR3 p .sub
  | 0x03 => dR3 p .mul
  | 0x04 => dR3 p .mulh
  | 0x05 => dR3 p .mulhn
  | 0x06 => dR3 p .div
  | 0x07 => dR3 p .divn
  | 0x08 => dR3 p .rem
  | 0x09 => dR3 p .remn
  | 0x0a => dR3 p .and
  | 0x0b => dR3 p .or
  | 0x0c => dR3 p .xor
  | 0x0d => dR3 p .andn
  | 0x0e => dR3 p .shl
  | 0x0f => dR3 p .shr
  | 0x10 => dR3 p .sar
  | 0x11 => dR3 p .rol
  | 0x12 => dR3 p .min
  | 0x13 => dR3 p .max
  | 0x14 => dR3 p .minn
  | 0x15 => dR3 p .maxn
  | 0x16 => dR3 p .seq
  | 0x17 => dR3 p .sne
  | 0x18 => dR3 p .slt
  | 0x19 => dR3 p .sltn
  | 0x1a => dR4 p .sel
  | 0x1b => dR4 p .madd
  | _ => none

/-- Majors 0x20 to 0x3f (R79, R80). -/
def decodeControl (p : Parts) : Option Instr :=
  match p.op with
  | 0x20 => dI2 p .addi
  | 0x21 => dI2 p .andi
  | 0x22 => dI2 p .ori
  | 0x23 => dI2 p .xori
  | 0x24 => dSh p .shli
  | 0x25 => dSh p .shri
  | 0x26 => dSh p .sari
  | 0x27 => dI2 p .slti
  | 0x28 => dI2 p .sltni
  | 0x29 => dI2 p .muli
  | 0x2a => dLi p
  | 0x2b => dI2 p .lih
  | 0x2c => dR2 p .clz
  | 0x2d => dR2 p .ctz
  | 0x2e => dR2 p .popc
  | 0x2f => dBfx p
  | 0x30 => dBfi p
  | 0x31 => dLds p
  | 0x32 => dSts p
  | 0x33 => dBcc p
  | 0x34 => dJ p
  | 0x35 => dPbr p
  | 0x36 => dBr p .br
  | 0x37 => dBr p .brl
  | 0x38 => dA p .jr
  | 0x39 => d0 p .nop
  | 0x3a => dSrd p
  | 0x3b => dSwr p
  | 0x3c => dWaitt p
  | 0x3d => d0 p .wfe
  | 0x3e => dSev p
  | 0x3f => d0 p .halt
  | _ => none

/-- Majors 0x40 to 0x5f (R79, R80). -/
def decodeArith (p : Parts) : Option Instr :=
  match p.op with
  | 0x40 => dVf3 p .vadd
  | 0x41 => dVf3 p .vsub
  | 0x42 => dVf3 p .vmul
  | 0x43 => dVf4 p .vfma
  | 0x44 => dVf4 p .vfms
  | 0x45 => dVm3 p .vmin
  | 0x46 => dVm3 p .vmax
  | 0x47 => dVm2 p .vabs
  | 0x48 => dVm2 p .vneg
  | 0x49 => dVf3 p .vdiv
  | 0x4a => dVf2 p .vsqrt
  | 0x4b => dVf2 p .vrcp
  | 0x4c => dVf2 p .vrsq
  | 0x4d => dVf2 p .vexp2
  | 0x4e => dVf2 p .vlog2
  | 0x50 => dVi3 p .viadd
  | 0x51 => dVi3 p .visub
  | 0x52 => dVi3 p .vimul
  | 0x53 => dVm3 p .vand
  | 0x54 => dVm3 p .vor
  | 0x55 => dVm3 p .vxor
  | 0x56 => dVm3 p .vshl
  | 0x57 => dVm3 p .vshr
  | 0x58 => dVm3 p .vsar
  | 0x59 => dVm3 p .vimin
  | 0x5a => dVm3 p .vimax
  | 0x5b => dVcmp p
  | 0x5c => dVm3 p .vsel
  | 0x5d => dKop p
  | 0x5e => dKred p .kpop
  | 0x5f => dKred p .kfirst
  | _ => none

/-- Majors 0x60 to 0x7f (R79, R80). -/
def decodeMoves (p : Parts) : Option Instr :=
  match p.op with
  | 0x60 => dVm2 p .vmov
  | 0x61 => dVg p .vbcast
  | 0x62 => dVg p .viota
  | 0x63 => dVperm p
  | 0x64 => dVext p
  | 0x65 => dVins p
  | 0x66 => dVredsum p
  | 0x67 => dVm2 p .vredmax
  | 0x68 => dVm2 p .vredmin
  | 0x69 => dVcvt p .vcvt
  | 0x6a => dVcvt p .vquant
  | 0x6b => dVdeq p
  | 0x6c => dVscale p
  | 0x6d => dVcell p
  | 0x6e => dVhash p
  | 0x6f => dVmorton p
  | 0x70 => dVld p
  | 0x71 => dVst p
  | 0x72 => dVldx p .vldx
  | 0x73 => dVldx p .vstx
  | 0x78 => dTld p .tld
  | 0x79 => dTld p .tst
  | 0x7a => dTzero p
  | 0x7b => dTt p .tmov
  | 0x7c => dTt p .ttrans
  | _ => none

/-- Majors 0x80 to 0x9f (R79, R80). -/
def decodeParallel (p : Parts) : Option Instr :=
  match p.op with
  | 0x80 => dTnext p
  | 0x81 => dScope p .tdone
  | 0x82 => dToks p
  | 0x83 => dTokx p
  | 0x84 => dSpush p
  | 0x85 => dSpop p
  | 0x86 => dSflush p
  | 0x87 => dSreset p
  | 0x88 => dLqpush p
  | 0x89 => dLqpop p
  | 0x8a => dLqstat p
  | 0x8b => dScope p .bar
  | 0x8c => dA p .stgput
  | 0x8d => dR2 p .stgget
  | 0x8e => dImm p .safe
  | 0x8f => dR2 p .launch
  | _ => none

/-- Majors 0xa0 to 0xbf (R79, R80). -/
def decodeGlobal (p : Parts) : Option Instr :=
  match p.op with
  | 0xa0 => dLdg p
  | 0xa1 => dStg p
  | 0xa2 => dVldg p
  | 0xa3 => dVstg p
  | 0xa4 => dAt p .aadd
  | 0xa5 => dAf p .afadd
  | 0xa6 => dAt p .amin
  | 0xa7 => dAt p .amax
  | 0xa8 => dAt p .aminn
  | 0xa9 => dAt p .amaxn
  | 0xaa => dAf p .afmin
  | 0xab => dAf p .afmax
  | 0xac => dAt p .aand
  | 0xad => dAt p .aor
  | 0xae => dAt p .axor
  | 0xaf => dAt p .aswp
  | 0xb0 => dAt p .acas
  | 0xb1 => dAbadd p
  | 0xb2 => dRed p
  | 0xb3 => dRedc p
  | 0xb4 => dFence p
  | 0xb5 => dXfence p
  | 0xb6 => dCm p .pref
  | 0xb7 => dCm p .cflush
  | 0xb8 => dCm p .cinv
  | 0xb9 => dWaitv p
  | _ => none

/-- Majors 0xc0 to 0xff (R79, R80). -/
def decodeLate (p : Parts) : Option Instr :=
  match p.op with
  | 0xc0 => dEnq p
  | 0xc1 => dEseq p
  | 0xc2 => dSel p .waitseq
  | 0xc3 => dProm p
  | 0xc4 => dSel p .ecancel
  | 0xc8 => dR2 p .notice
  | 0xc9 => dR2 p .decline
  | 0xca => dA p .pullrel
  | 0xcb => dR2 p .nrecv
  | 0xd0 => dR2 p .tready
  | 0xd1 => dCstat p
  | 0xd2 => dR2 p .cabort
  | 0xe0 => dImm p .trap
  | 0xe1 => dEret p
  | 0xe2 => dFwcall p
  | 0xe3 => dCtxsave p
  | 0xe4 => dA p .ctxload
  | 0xe5 => dTlbinv p
  | 0xe6 => dKeyload p
  | _ => none

/-- An instruction word read field by field, before the checks of `Instr.wf` (R65 to R80); an unassigned or held major
is the ILLOP step (R81). -/
def parseWord (w : Nat) : Option Instr :=
  let p := partsOf w
  if majorAssigned p.op = false then some (.illop (BitVec.ofNat 64 w))
  else if p.op < 0x20 then decodeScalar p
  else if p.op < 0x40 then decodeControl p
  else if p.op < 0x60 then decodeArith p
  else if p.op < 0x80 then decodeMoves p
  else if p.op < 0xA0 then decodeParallel p
  else if p.op < 0xC0 then decodeGlobal p
  else decodeLate p

/-- Why bytes are no instruction. -/
inductive DecodeError where
  /-- fewer than eight bytes -/
  | short
  /-- a word that R82 rejects at decode -/
  | rsvd
  deriving DecidableEq, Repr

/-- The instruction of a 64-bit word, or RSVD (R81, R82). -/
def decodeWord (w : Nat) : Except DecodeError Instr :=
  match parseWord w with
  | some i => if i.wf then .ok i else .error .rsvd
  | none => .error .rsvd

/-- The little-endian value of bytes (R3). -/
def leNat : List Byte → Nat
  | [] => 0
  | b :: bs => b.toNat + 256 * leNat bs

/-- The `n` little-endian bytes of a value (R3). -/
def leBytes : Nat → Nat → List Byte
  | 0, _ => []
  | n + 1, x => BitVec.ofNat 8 x :: leBytes n (x / 256)

/-- Decode the instruction at the head of a list of bytes and give the rest (R63, R84). -/
def decode (bs : List Byte) : Except DecodeError (Instr × List Byte) :=
  if bs.length < 8 then .error .short
  else match decodeWord (leNat (bs.take 8)) with
    | .ok i => .ok (i, bs.drop 8)
    | .error e => .error e

/-- The engine word of a 16-bit code (R284, R302); none where the code is assigned on no chain (R303). -/
def decodeEngine (w : Nat) : Option Instr :=
  if w < 0x8000 then some (.ewLit (BitVec.ofNat 15 w))
  else if w < 0xC000 then some (.ewExt (BitVec.ofNat 14 (w - 0x8000)))
  else match w with
  | 0xc000 => some .ewDup
  | 0xc001 => some .ewDrop
  | 0xc002 => some .ewSwap
  | 0xc003 => some .ewOver
  | 0xc004 => some .ewAdd
  | 0xc005 => some .ewSub
  | 0xc006 => some .ewShl
  | 0xc010 => some .ewElem
  | 0xc011 => some .ewSwz
  | 0xc021 => some .ewDim1
  | 0xc022 => some .ewDim2
  | 0xc030 => some .ewPrio
  | 0xc031 => some .ewStamp
  | 0xc032 => some .ewGate
  | 0xc033 => some .ewSeqat
  | 0xd000 => some .ewCopyGs
  | 0xd001 => some .ewCopySg
  | 0xd002 => some .ewCopyGg
  | 0xd003 => some .ewCopySs
  | 0xd010 => some .ewCopytLd
  | 0xd011 => some .ewCopytSt
  | 0xd020 => some .ewCopyxG
  | 0xd021 => some .ewCopyxS
  | 0xd030 => some .ewFillG
  | 0xd031 => some .ewFillS
  | 0xd040 => some .ewTmma
  | 0xd050 => some .ewCredL
  | 0xd051 => some .ewCredP
  | 0xd060 => some .ewNote
  | 0xd070 => some .ewPullS
  | 0xd071 => some .ewPullG
  | 0xd080 => some .ewDecl
  | 0xe000 => some .ewEnd
  | 0xe001 => some .ewAddr
  | _ => none

/-- Chains, by chain index, on which a word is assigned (R302). -/
def wordChains : Instr → List Nat
  | .ewElem => [0]
  | .ewSwz => [0, 3]
  | .ewDim1 => [0]
  | .ewDim2 => [0]
  | .ewPrio => [0, 3]
  | .ewStamp => [1, 2]
  | .ewCopyGs => [0]
  | .ewCopySg => [0]
  | .ewCopyGg => [0, 4]
  | .ewCopySs => [0]
  | .ewCopytLd => [0]
  | .ewCopytSt => [0]
  | .ewCopyxG => [0]
  | .ewCopyxS => [0]
  | .ewFillG => [0]
  | .ewFillS => [0]
  | .ewTmma => [1, 2]
  | .ewCredL => [0]
  | .ewCredP => [3, 4]
  | .ewNote => [0, 4]
  | .ewPullS => [3]
  | .ewPullG => [3, 4]
  | .ewDecl => [3, 4]
  | _ => [0, 1, 2, 3, 4]

/-- The 64-bit word of an instruction of the control core, from the encoding tables of its chapter; none for a step
that no instruction word encodes. -/
def encodeWord : Instr → Option Nat
  | .add h d a b => some (eR h 0x01 d.toNat a.toNat b.toNat 0)
  | .sub h d a b => some (eR h 0x02 d.toNat a.toNat b.toNat 0)
  | .mul h d a b => some (eR h 0x03 d.toNat a.toNat b.toNat 0)
  | .mulh h d a b => some (eR h 0x04 d.toNat a.toNat b.toNat 0)
  | .mulhn h d a b => some (eR h 0x05 d.toNat a.toNat b.toNat 0)
  | .div h d a b => some (eR h 0x06 d.toNat a.toNat b.toNat 0)
  | .divn h d a b => some (eR h 0x07 d.toNat a.toNat b.toNat 0)
  | .rem h d a b => some (eR h 0x08 d.toNat a.toNat b.toNat 0)
  | .remn h d a b => some (eR h 0x09 d.toNat a.toNat b.toNat 0)
  | .and h d a b => some (eR h 0x0a d.toNat a.toNat b.toNat 0)
  | .or h d a b => some (eR h 0x0b d.toNat a.toNat b.toNat 0)
  | .xor h d a b => some (eR h 0x0c d.toNat a.toNat b.toNat 0)
  | .andn h d a b => some (eR h 0x0d d.toNat a.toNat b.toNat 0)
  | .shl h d a b => some (eR h 0x0e d.toNat a.toNat b.toNat 0)
  | .shr h d a b => some (eR h 0x0f d.toNat a.toNat b.toNat 0)
  | .sar h d a b => some (eR h 0x10 d.toNat a.toNat b.toNat 0)
  | .rol h d a b => some (eR h 0x11 d.toNat a.toNat b.toNat 0)
  | .min h d a b => some (eR h 0x12 d.toNat a.toNat b.toNat 0)
  | .max h d a b => some (eR h 0x13 d.toNat a.toNat b.toNat 0)
  | .minn h d a b => some (eR h 0x14 d.toNat a.toNat b.toNat 0)
  | .maxn h d a b => some (eR h 0x15 d.toNat a.toNat b.toNat 0)
  | .seq h d a b => some (eR h 0x16 d.toNat a.toNat b.toNat 0)
  | .sne h d a b => some (eR h 0x17 d.toNat a.toNat b.toNat 0)
  | .slt h d a b => some (eR h 0x18 d.toNat a.toNat b.toNat 0)
  | .sltn h d a b => some (eR h 0x19 d.toNat a.toNat b.toNat 0)
  | .sel h d a b c => some (eR h 0x1a d.toNat a.toNat b.toNat (c.toNat * 2 ^ 24))
  | .madd h d a b c => some (eR h 0x1b d.toNat a.toNat b.toNat (c.toNat * 2 ^ 24))
  | .clz h d a => some (eR h 0x2c d.toNat a.toNat 0 0)
  | .ctz h d a => some (eR h 0x2d d.toNat a.toNat 0 0)
  | .popc h d a => some (eR h 0x2e d.toNat a.toNat 0 0)
  | .addi h d a imm => some (eI h 0x20 d.toNat a.toNat 0 imm.toNat)
  | .andi h d a imm => some (eI h 0x21 d.toNat a.toNat 0 imm.toNat)
  | .ori h d a imm => some (eI h 0x22 d.toNat a.toNat 0 imm.toNat)
  | .xori h d a imm => some (eI h 0x23 d.toNat a.toNat 0 imm.toNat)
  | .slti h d a imm => some (eI h 0x27 d.toNat a.toNat 0 imm.toNat)
  | .sltni h d a imm => some (eI h 0x28 d.toNat a.toNat 0 imm.toNat)
  | .muli h d a imm => some (eI h 0x29 d.toNat a.toNat 0 imm.toNat)
  | .lih h d a imm => some (eI h 0x2b d.toNat a.toNat 0 imm.toNat)
  | .shli h d a n => some (eI h 0x24 d.toNat a.toNat 0 n.toNat)
  | .shri h d a n => some (eI h 0x25 d.toNat a.toNat 0 n.toNat)
  | .sari h d a n => some (eI h 0x26 d.toNat a.toNat 0 n.toNat)
  | .li h d imm => some (eI h 0x2A d.toNat 0 0 imm.toNat)
  | .bfx h d a signed pos len1 => some (eI h 0x2F d.toNat a.toNat signed.toNat (pos.toNat + len1.toNat * 2 ^ 6))
  | .bfi h d a pos len1 => some (eI h 0x30 d.toNat a.toNat 0 (pos.toNat + len1.toNat * 2 ^ 6))
  | .lds h ty swz d a off => some (eR h 0x31 d.toNat a.toNat 0 (loM (styCode ty) swz.toNat 0 0 0 off.toNat))
  | .sts h ty swz a b off => some (eR h 0x32 0 a.toNat b.toNat (loM (styCode ty) swz.toNat 0 0 0 off.toNat))
  | .bcc h cc a b disp => some (eR h 0x33 0 a.toNat b.toNat (condCode cc * 2 ^ 26 + disp.toNat))
  | .j h disp => some (eR h 0x34 0 0 0 disp.toNat)
  | .pbr h d (.rel disp) => some (eR h 0x35 d.toNat 0 0 disp.toNat)
  | .pbr h d (.reg a disp) => some (eR h 0x35 d.toNat a.toNat 0 (2 ^ 26 + disp.toNat))
  | .br h a => some (eR h 0x36 0 a.toNat 0 0)
  | .brl h a => some (eR h 0x37 0 a.toNat 0 0)
  | .jr h a => some (eR h 0x38 0 a.toNat 0 0)
  | .nop h => some (eR h 0x39 0 0 0 0)
  | .srd h d sys => some (eR h 0x3A d.toNat 0 0 (loS 0 sys.toNat 0))
  | .swr h a sys => some (eR h 0x3B 0 a.toNat 0 (loS 0 sys.toNat 0))
  | .waitt h a => some (eR h 0x3C 0 a.toNat 0 0)
  | .waittP h a b => some (eR h 0x3C 0 a.toNat b.toNat (loS 32 0 0))
  | .wfe h => some (eR h 0x3D 0 0 0 0)
  | .sev h => some (eR h 0x3E 0 0 0 0)
  | .sevRemote h a => some (eR h 0x3E 0 a.toNat 0 (loS 32 0 0))
  | .halt h => some (eR h 0x3F 0 0 0 0)
  | .vadd h k ty rm sat d a b => some (eR h 0x40 d.toNat a.toNat b.toNat (loV 0 k.toNat (etyCode ty) 0 (rmCode rm) sat.toNat 0 0))
  | .vsub h k ty rm sat d a b => some (eR h 0x41 d.toNat a.toNat b.toNat (loV 0 k.toNat (etyCode ty) 0 (rmCode rm) sat.toNat 0 0))
  | .vmul h k ty rm sat d a b => some (eR h 0x42 d.toNat a.toNat b.toNat (loV 0 k.toNat (etyCode ty) 0 (rmCode rm) sat.toNat 0 0))
  | .vdiv h k ty rm sat d a b => some (eR h 0x49 d.toNat a.toNat b.toNat (loV 0 k.toNat (etyCode ty) 0 (rmCode rm) sat.toNat 0 0))
  | .vfma h k ty rm sat d a b c => some (eR h 0x43 d.toNat a.toNat b.toNat (loV c.toNat k.toNat (etyCode ty) 0 (rmCode rm) sat.toNat 0 0))
  | .vfms h k ty rm sat d a b c => some (eR h 0x44 d.toNat a.toNat b.toNat (loV c.toNat k.toNat (etyCode ty) 0 (rmCode rm) sat.toNat 0 0))
  | .vsqrt h k ty rm sat d a => some (eR h 0x4a d.toNat a.toNat 0 (loV 0 k.toNat (etyCode ty) 0 (rmCode rm) sat.toNat 0 0))
  | .vrcp h k ty rm sat d a => some (eR h 0x4b d.toNat a.toNat 0 (loV 0 k.toNat (etyCode ty) 0 (rmCode rm) sat.toNat 0 0))
  | .vrsq h k ty rm sat d a => some (eR h 0x4c d.toNat a.toNat 0 (loV 0 k.toNat (etyCode ty) 0 (rmCode rm) sat.toNat 0 0))
  | .vexp2 h k ty rm sat d a => some (eR h 0x4d d.toNat a.toNat 0 (loV 0 k.toNat (etyCode ty) 0 (rmCode rm) sat.toNat 0 0))
  | .vlog2 h k ty rm sat d a => some (eR h 0x4e d.toNat a.toNat 0 (loV 0 k.toNat (etyCode ty) 0 (rmCode rm) sat.toNat 0 0))
  | .vmin h k ty d a b => some (eR h 0x45 d.toNat a.toNat b.toNat (loV 0 k.toNat (etyCode ty) 0 0 0 0 0))
  | .vmax h k ty d a b => some (eR h 0x46 d.toNat a.toNat b.toNat (loV 0 k.toNat (etyCode ty) 0 0 0 0 0))
  | .vand h k ty d a b => some (eR h 0x53 d.toNat a.toNat b.toNat (loV 0 k.toNat (etyCode ty) 0 0 0 0 0))
  | .vor h k ty d a b => some (eR h 0x54 d.toNat a.toNat b.toNat (loV 0 k.toNat (etyCode ty) 0 0 0 0 0))
  | .vxor h k ty d a b => some (eR h 0x55 d.toNat a.toNat b.toNat (loV 0 k.toNat (etyCode ty) 0 0 0 0 0))
  | .vshl h k ty d a b => some (eR h 0x56 d.toNat a.toNat b.toNat (loV 0 k.toNat (etyCode ty) 0 0 0 0 0))
  | .vshr h k ty d a b => some (eR h 0x57 d.toNat a.toNat b.toNat (loV 0 k.toNat (etyCode ty) 0 0 0 0 0))
  | .vsar h k ty d a b => some (eR h 0x58 d.toNat a.toNat b.toNat (loV 0 k.toNat (etyCode ty) 0 0 0 0 0))
  | .vimin h k ty d a b => some (eR h 0x59 d.toNat a.toNat b.toNat (loV 0 k.toNat (etyCode ty) 0 0 0 0 0))
  | .vimax h k ty d a b => some (eR h 0x5a d.toNat a.toNat b.toNat (loV 0 k.toNat (etyCode ty) 0 0 0 0 0))
  | .vsel h k ty d a b => some (eR h 0x5c d.toNat a.toNat b.toNat (loV 0 k.toNat (etyCode ty) 0 0 0 0 0))
  | .vabs h k ty d a => some (eR h 0x47 d.toNat a.toNat 0 (loV 0 k.toNat (etyCode ty) 0 0 0 0 0))
  | .vneg h k ty d a => some (eR h 0x48 d.toNat a.toNat 0 (loV 0 k.toNat (etyCode ty) 0 0 0 0 0))
  | .vmov h k ty d a => some (eR h 0x60 d.toNat a.toNat 0 (loV 0 k.toNat (etyCode ty) 0 0 0 0 0))
  | .viadd h k ty sat d a b => some (eR h 0x50 d.toNat a.toNat b.toNat (loV 0 k.toNat (etyCode ty) 0 0 sat.toNat 0 0))
  | .visub h k ty sat d a b => some (eR h 0x51 d.toNat a.toNat b.toNat (loV 0 k.toNat (etyCode ty) 0 0 sat.toNat 0 0))
  | .vimul h k ty sat d a b => some (eR h 0x52 d.toNat a.toNat b.toNat (loV 0 k.toNat (etyCode ty) 0 0 sat.toNat 0 0))
  | .vcmp h k ty cc d a b => some (eR h 0x5B d.toNat a.toNat b.toNat (loV 0 k.toNat (etyCode ty) 0 0 0 0 (vcondCode cc)))
  | .kop h d op => some (eR h 0x5D d.toNat (kopA op) (kopB op) (loV 0 0 0 0 0 0 0 (kopCode op)))
  | .kpop h ty d a => some (eR h 0x5E d.toNat a.toNat 0 (loV 0 0 (etyCode ty) 0 0 0 0 0))
  | .kfirst h ty d a => some (eR h 0x5F d.toNat a.toNat 0 (loV 0 0 (etyCode ty) 0 0 0 0 0))
  | .vbcast h k ty d a => some (eR h 0x61 d.toNat a.toNat 0 (loV 0 k.toNat (etyCode ty) 0 0 0 0 0))
  | .viota h k ty d a => some (eR h 0x62 d.toNat a.toNat 0 (loV 0 k.toNat (etyCode ty) 0 0 0 0 0))
  | .vperm h k ty d a op => some (eR h 0x63 d.toNat a.toNat (permB op) (loV 0 k.toNat (etyCode ty) 0 0 0 0 (permCode op)))
  | .vext h ty d a b => some (eR h 0x64 d.toNat a.toNat b.toNat (loV 0 0 (etyCode ty) 0 0 0 0 0))
  | .vins h ty d a b => some (eR h 0x65 d.toNat a.toNat b.toNat (loV 0 0 (etyCode ty) 0 0 0 0 0))
  | .vredsum h k ty rm d a => some (eR h 0x66 d.toNat a.toNat 0 (loV 0 k.toNat (etyCode ty) 0 (rmCode rm) 0 0 0))
  | .vredmax h k ty d a => some (eR h 0x67 d.toNat a.toNat 0 (loV 0 k.toNat (etyCode ty) 0 0 0 0 0))
  | .vredmin h k ty d a => some (eR h 0x68 d.toNat a.toNat 0 (loV 0 k.toNat (etyCode ty) 0 0 0 0 0))
  | .vcvt h k src dst rm sat mm d a => some (eR h 0x69 d.toNat a.toNat 0 (loV 0 k.toNat (etyCode src) (etyCode dst) (rmCode rm) sat.toNat mm.toNat 0))
  | .vquant h k src dst rm sat mm d a => some (eR h 0x6a d.toNat a.toNat 0 (loV 0 k.toNat (etyCode src) (etyCode dst) (rmCode rm) sat.toNat mm.toNat 0))
  | .vdeq h k src dst rm sat d a => some (eR h 0x6B d.toNat a.toNat 0 (loV 0 k.toNat (etyCode src) (etyCode dst) (rmCode rm) sat.toNat 0 0))
  | .vscale h k src dst rm sat mm d a b => some (eR h 0x6C d.toNat a.toNat b.toNat (loV 0 k.toNat (etyCode src) (etyCode dst) (rmCode rm) sat.toNat mm.toNat 0))
  | .vcell h k d a b c => some (eR h 0x6D d.toNat a.toNat b.toNat (loV c.toNat k.toNat 4 0 0 0 0 0))
  | .vhash3 h k w d a b c => some (eR h 0x6E d.toNat a.toNat b.toNat (loV c.toNat k.toNat 3 0 0 0 0 w.toNat))
  | .vmorton h k d a b .c2 => some (eR h 0x6F d.toNat a.toNat b.toNat (loV 0 k.toNat 3 0 0 0 0 2))
  | .vmorton h k d a b (.c3 c) => some (eR h 0x6F d.toNat a.toNat b.toNat (loV c.toNat k.toNat 3 0 0 0 0 3))
  | .vld h k swz d a off => some (eR h 0x70 d.toNat a.toNat 0 (loM 0 swz.toNat 0 0 k.toNat off.toNat))
  | .vst h k swz a b off => some (eR h 0x71 0 a.toNat b.toNat (loM 0 swz.toNat 0 0 k.toNat off.toNat))
  | .vldx h k ty swz d a b off => some (eR h 0x72 d.toNat a.toNat b.toNat (loM (styCode ty) swz.toNat 0 0 k.toNat off.toNat))
  | .vstx h k ty swz d a b off => some (eR h 0x73 d.toNat a.toNat b.toNat (loM (styCode ty) swz.toNat 0 0 k.toNat off.toNat))
  | .tld h swz d a b off => some (eR h 0x78 d.toNat a.toNat b.toNat (loM 0 swz.toNat 0 0 0 off.toNat))
  | .tst h swz d a b off => some (eR h 0x79 d.toNat a.toNat b.toNat (loM 0 swz.toNat 0 0 0 off.toNat))
  | .tzero h d => some (eR h 0x7A d.toNat 0 0 0)
  | .tmov h d a => some (eR h 0x7b d.toNat a.toNat 0 0)
  | .ttrans h d a => some (eR h 0x7c d.toNat a.toNat 0 0)
  | .tnext h d a b => some (eR h 0x80 d.toNat a.toNat b.toNat 0)
  | .tnextIdx h d => some (eR h 0x80 d.toNat 0 0 (loS 32 0 0))
  | .tdone h sc => some (eR h 0x81 0 0 0 (loS (scopeNum sc) 0 0))
  | .toks h d q => some (eR h 0x82 d.toNat 0 0 (loS 0 0 q.toNat))
  | .tokx h a q => some (eR h 0x83 0 a.toNat 0 (loS 0 0 q.toNat))
  | .spush h k ty sd d a => some (eR h 0x84 d.toNat a.toNat 0 (loV 0 k.toNat (etyCode ty) 0 0 0 0 sd.toNat))
  | .spop h k ty sd d a => some (eR h 0x85 d.toNat a.toNat 0 (loV 0 k.toNat (etyCode ty) 0 0 0 0 sd.toNat))
  | .sflush h sd d a => some (eR h 0x86 d.toNat a.toNat 0 (loS 0 0 sd.toNat))
  | .sreset h sd => some (eR h 0x87 0 0 0 (loS 0 0 sd.toNat))
  | .lqpush h k ty a b => some (eR h 0x88 0 a.toNat b.toNat (loV 0 k.toNat (etyCode ty) 0 0 0 0 0))
  | .lqpop h k ty d a => some (eR h 0x89 d.toNat a.toNat 0 (loV 0 k.toNat (etyCode ty) 0 0 0 0 0))
  | .lqstat h ty d => some (eR h 0x8A d.toNat 0 0 (loV 0 0 (etyCode ty) 0 0 0 0 0))
  | .bar h sc => some (eR h 0x8B 0 0 0 (loS (scopeNum sc) 0 0))
  | .stgput h a => some (eR h 0x8C 0 a.toNat 0 0)
  | .stgget h d a => some (eR h 0x8D d.toNat a.toNat 0 0)
  | .safe h n => some (eR h 0x8E 0 0 0 (loS 0 0 n.toNat))
  | .launch h d a => some (eR h 0x8F d.toNat a.toNat 0 0)
  | .ldg h ty acq d a off => some (eR h 0xA0 d.toNat a.toNat 0 (loM (styCode ty) 0 (acqOrd acq) (optScope acq) 0 off.toNat))
  | .stg h ty rel a b off => some (eR h 0xA1 0 a.toNat b.toNat (loM (styCode ty) 0 (relOrd rel) (optScope rel) 0 off.toNat))
  | .vldg h k acq d a off => some (eR h 0xA2 d.toNat a.toNat 0 (loM 0 0 (acqOrd acq) (optScope acq) k.toNat off.toNat))
  | .vstg h k rel a b off => some (eR h 0xA3 0 a.toNat b.toNat (loM 0 0 (relOrd rel) (optScope rel) k.toNat off.toNat))
  | .aadd h ty ord d a b off => some (eR h 0xa4 d.toNat a.toNat b.toNat (loM (styCode ty) 0 (aordNum ord) (aordScope ord) 0 off.toNat))
  | .amin h ty ord d a b off => some (eR h 0xa6 d.toNat a.toNat b.toNat (loM (styCode ty) 0 (aordNum ord) (aordScope ord) 0 off.toNat))
  | .amax h ty ord d a b off => some (eR h 0xa7 d.toNat a.toNat b.toNat (loM (styCode ty) 0 (aordNum ord) (aordScope ord) 0 off.toNat))
  | .aminn h ty ord d a b off => some (eR h 0xa8 d.toNat a.toNat b.toNat (loM (styCode ty) 0 (aordNum ord) (aordScope ord) 0 off.toNat))
  | .amaxn h ty ord d a b off => some (eR h 0xa9 d.toNat a.toNat b.toNat (loM (styCode ty) 0 (aordNum ord) (aordScope ord) 0 off.toNat))
  | .aand h ty ord d a b off => some (eR h 0xac d.toNat a.toNat b.toNat (loM (styCode ty) 0 (aordNum ord) (aordScope ord) 0 off.toNat))
  | .aor h ty ord d a b off => some (eR h 0xad d.toNat a.toNat b.toNat (loM (styCode ty) 0 (aordNum ord) (aordScope ord) 0 off.toNat))
  | .axor h ty ord d a b off => some (eR h 0xae d.toNat a.toNat b.toNat (loM (styCode ty) 0 (aordNum ord) (aordScope ord) 0 off.toNat))
  | .aswp h ty ord d a b off => some (eR h 0xaf d.toNat a.toNat b.toNat (loM (styCode ty) 0 (aordNum ord) (aordScope ord) 0 off.toNat))
  | .acas h ty ord d a b off => some (eR h 0xb0 d.toNat a.toNat b.toNat (loM (styCode ty) 0 (aordNum ord) (aordScope ord) 0 off.toNat))
  | .afadd h ty ord d a b off => some (eR h 0xa5 d.toNat a.toNat b.toNat (loM (fstyCode ty) 0 (aordNum ord) (aordScope ord) 0 off.toNat))
  | .afmin h ty ord d a b off => some (eR h 0xaa d.toNat a.toNat b.toNat (loM (fstyCode ty) 0 (aordNum ord) (aordScope ord) 0 off.toNat))
  | .afmax h ty ord d a b off => some (eR h 0xab d.toNat a.toNat b.toNat (loM (fstyCode ty) 0 (aordNum ord) (aordScope ord) 0 off.toNat))
  | .abadd h ord d a b off => some (eR h 0xB1 d.toNat a.toNat b.toNat (loM 5 0 (aordNum ord) (aordScope ord) 0 off.toNat))
  | .red h op ty a b off => some (eR h 0xB2 (ropCode op) a.toNat b.toNat (loM (styCode ty) 0 0 0 0 off.toNat))
  | .redc h op ty det sc a b cnt1 idx => some (eR h 0xB3 (ropCode op) a.toNat b.toNat (loM (styCode ty) det.toNat 0 (scopeNum sc) 0 (cnt1.toNat + idx.toNat * 2 ^ 8)))
  | .fence h sc ord => some (eR h 0xB4 0 0 0 (loS (scopeNum sc + fordNum ord * 8) 0 0))
  | .xfence h c1 c2 => some (eR h 0xB5 0 0 0 (loS 0 0 (pathNum c1 + pathNum c2 * 8)))
  | .pref h a off => some (eR h 0xb6 0 a.toNat 0 (loM 0 0 0 0 0 off.toNat))
  | .cflush h a off => some (eR h 0xb7 0 a.toNat 0 (loM 0 0 0 0 0 off.toNat))
  | .cinv h a off => some (eR h 0xb8 0 a.toNat 0 (loM 0 0 0 0 0 off.toNat))
  | .waitv h ty acq d a b off => some (eR h 0xB9 d.toNat a.toNat b.toNat (loM (styCode ty) 0 (acqOrd acq) (optScope acq) 0 off.toNat))
  | .enq h sc d a e => some (eR h 0xC0 d.toNat a.toNat 0 (loS (scopeNum sc) 0 (selCode e)))
  | .eseq h d e => some (eR h 0xC1 d.toNat 0 0 (loS 0 0 (selCode e)))
  | .waitseq h d a e => some (eR h 0xC2 d.toNat a.toNat 0 (loS 0 0 (selCode e)))
  | .prom h d a => some (eR h 0xC3 d.toNat a.toNat 0 (loS 0 0 1))
  | .ecancel h d a e => some (eR h 0xC4 d.toNat a.toNat 0 (loS 0 0 (selCode e)))
  | .notice h d a => some (eR h 0xc8 d.toNat a.toNat 0 0)
  | .decline h d a => some (eR h 0xc9 d.toNat a.toNat 0 0)
  | .nrecv h d a => some (eR h 0xcb d.toNat a.toNat 0 0)
  | .tready h d a => some (eR h 0xd0 d.toNat a.toNat 0 0)
  | .cabort h d a => some (eR h 0xd2 d.toNat a.toNat 0 0)
  | .pullrel h a => some (eR h 0xCA 0 a.toNat 0 0)
  | .cstat h d a => some (eR h 0xD1 d.toNat a.toNat 0 0)
  | .cstatBm h d a b => some (eR h 0xD1 d.toNat a.toNat b.toNat (loS 32 0 0))
  | .trap h n => some (eR h 0xE0 0 0 0 (loS 0 0 n.toNat))
  | .eret h => some (eR h 0xE1 0 0 0 0)
  | .eretReclaim h => some (eR h 0xE1 0 0 0 (loS 32 0 0))
  | .fwcall h d a n => some (eR h 0xE2 d.toNat a.toNat 0 (loS 0 0 n.toNat))
  | .ctxsave h a => some (eR h 0xE3 0 a.toNat 0 0)
  | .ctxsaveFull h a => some (eR h 0xE3 0 a.toNat 0 (loS 0 0 1))
  | .ctxload h a => some (eR h 0xE4 0 a.toNat 0 0)
  | .tlbinvPage h a b => some (eR h 0xE5 0 a.toNat b.toNat 0)
  | .tlbinvAsid h b => some (eR h 0xE5 0 0 b.toNat (loS 0 0 1))
  | .tlbinvAll h => some (eR h 0xE5 0 0 0 (loS 0 0 2))
  | .keyload h a b => some (eR h 0xE6 0 a.toNat b.toNat 0)
  | .keyloadClr h a => some (eR h 0xE6 0 a.toNat 0 (loS 0 0 1))
  | .illop w => some w.toNat
  | _ => none

/-- The 16-bit code of an engine word (R302). -/
def encodeEngine : Instr → Option Nat
  | .ewLit k => some k.toNat
  | .ewExt k => some (0x8000 + k.toNat)
  | .ewDup => some 0xc000
  | .ewDrop => some 0xc001
  | .ewSwap => some 0xc002
  | .ewOver => some 0xc003
  | .ewAdd => some 0xc004
  | .ewSub => some 0xc005
  | .ewShl => some 0xc006
  | .ewElem => some 0xc010
  | .ewSwz => some 0xc011
  | .ewDim1 => some 0xc021
  | .ewDim2 => some 0xc022
  | .ewPrio => some 0xc030
  | .ewStamp => some 0xc031
  | .ewGate => some 0xc032
  | .ewSeqat => some 0xc033
  | .ewCopyGs => some 0xd000
  | .ewCopySg => some 0xd001
  | .ewCopyGg => some 0xd002
  | .ewCopySs => some 0xd003
  | .ewCopytLd => some 0xd010
  | .ewCopytSt => some 0xd011
  | .ewCopyxG => some 0xd020
  | .ewCopyxS => some 0xd021
  | .ewFillG => some 0xd030
  | .ewFillS => some 0xd031
  | .ewTmma => some 0xd040
  | .ewCredL => some 0xd050
  | .ewCredP => some 0xd051
  | .ewNote => some 0xd060
  | .ewPullS => some 0xd070
  | .ewPullG => some 0xd071
  | .ewDecl => some 0xd080
  | .ewEnd => some 0xe000
  | .ewAddr => some 0xe001
  | _ => none

/-- The bytes of an instruction or engine word as memory holds them (R3, R63, R282); none for a step without a word. -/
def encode (i : Instr) : Option (List Byte) :=
  match encodeWord i with
  | some w => some (leBytes 8 w)
  | none => (encodeEngine i).map (leBytes 2)

/-- What the decoder reads from an instruction whose first `nbits` bits are `w` and whose other bits are zero: an
engine word where the row is 16 bits wide, else an instruction word of 64 bits. -/
def decodeTableWord (nbits w : Nat) : Option Instr :=
  if nbits ≤ 16 then decodeEngine (leNat (leBytes 2 (w % 2 ^ nbits)))
  else match decode (leBytes 8 (w % 2 ^ nbits)) with
    | .ok (i, _) => some i
    | .error _ => none

end Sys2Proof
end

