-- ==== Sys2Proof/Machine/State.lean ====
section
/-! DEFINITION. Everything that the spec gives the machine, as plain data (INVENTORY.md, heading State), and the machine
right after reset. System registers stand in tables keyed by the numbers that SRD and SWR use; memory is one canonical
list of bytes by physical address, in which the scratchpad of core c stands at its core SRAM aperture (R212). -/
namespace Sys2Proof.Machine

/-- Happens-before knowledge (R233, R234, R248): for each agent code the greatest time known to be before, and the same
again for each pair of access paths, counted only up to an XFENCE that names the pair. -/
structure Clock where
  vc : SMap Nat := []
  xc : SMap (SMap Nat) := []
  deriving DecidableEq, Repr

/-- Agents (R230). A context of a later launch, or a later command, is another agent: `epoch` counts the core's launches. The `strand` of a
gathering port or of a collective engine tells operations apart that its own description does not order (R234): the pulls from different
producer dies (R355), and the firings of different entries; strand 0 is the unit itself. -/
inductive Agent where
  | ctx (core : Nat) (r : Role) (epoch : Nat)
  | cmd (core chain seq : Nat)
  | port (core strand : Nat)
  | coll (die strand : Nat)
  | qp (die : Nat)
  | launch (seq : Nat)
  deriving DecidableEq, Repr

/-- An access that a later access may conflict with (R237). -/
structure Access where
  agent : Agent
  time : Nat
  path : Path
  write : Bool
  sync : Bool
  lo : Nat
  len : Nat
  /-- the PULLREL that has returned its bytes to the landing ring: its agent and time (R360) -/
  returned : Option (Agent × Nat) := none
  deriving DecidableEq, Repr

/-- A release at a location, for later acquires to observe (R233): its scope instance, and the smallest instance that contains the
agent that made it. -/
structure Release where
  serial : Nat
  lo : Nat
  len : Nat
  inst : Scope × Nat
  home : Scope × Nat
  clock : Clock
  deriving DecidableEq, Repr

/-- Bytes of a line that an instance holds (R243). -/
structure HeldLine where
  line : Nat
  mask : BitVec 64
  level : Scope
  inst : Nat
  agent : Agent
  time : Nat
  sync : Bool
  deriving DecidableEq, Repr

/-- A requester that a held line refuses: the bytes of the line that it asks for, since when, and the smallest instance that contains it
(R245, R246). -/
structure Waiter where
  agent : Agent
  home : Scope × Nat
  line : Nat
  mask : BitVec 64
  since : Nat
  deriving DecidableEq, Repr

/-- One contribution to a counted reduction: its elements as (offset, size, value) and the release that it takes part in. -/
structure Contribution where
  idx : Nat
  agent : Agent
  scope : Scope
  clock : Clock
  rop : Rop
  sty : STy
  elems : List (Nat × Nat × Nat)
  /-- of a RED that stands behind: the indices of its agent's own contributions that it stands behind (R254) -/
  after : List Nat := []
  deriving DecidableEq, Repr

/-- The counter of a counted reduction that is open at a line (R266, R267). -/
structure Counter where
  cnt : Nat
  det : Bool
  seen : Nat
  /-- contributions that have been applied -/
  applied : List Contribution
  /-- contributions with `.det` that wait for lower indices -/
  waiting : List Contribution
  landed : List Nat
  /-- REDs that stand behind a waiting contribution of their agent to the same bytes (R254, R264) -/
  behind : List Contribution := []
  deriving DecidableEq, Repr

/-- A valid leaf as a TLB or a command keeps it (R218, R221). -/
structure Leaf where
  asid : Nat
  /-- first virtual address and size in bytes -/
  va : Nat
  size : Nat
  frame : Nat
  key : Nat
  htgt : Nat
  home : Nat
  x : Bool
  w : Bool
  deriving DecidableEq, Repr

/-- The key material under which a line was written, with the number of its KEYLOAD (R225, R390). -/
structure Key where
  serial : Nat
  bits : BitVec 512
  deriving DecidableEq, Repr

/-- Why a context does not go on: the instruction at its PC has made its pops and waits (R118, R161, R162, R245). -/
inductive Wait where
  /-- a plain wait: interlock, busy tile, tokens that are not there, a slot, an entry, a ring -/
  | pop | busy | ring (slot : Nat) | index
  /-- NOTICE waits for an entry of the publication table since this cycle (R250, R346); STGGET for a record of a ring, by its stage (R204, R250) -/
  | entry (since : Nat)
  | get (stage since : Nat)
  /-- LQPOP waits for an item (R200), TLBINV for in-flight counters (R389), an access for its agent's own earlier contribution to the same
  bytes (R254) -/
  | refill | inflight | behind
  /-- ENQ waits for a slot of this chain since this cycle (R283, R295) -/
  | slot (chain since : Nat)
  /-- refused by a held line since this cycle (R245) -/
  | retry (since line : Nat)
  | wfe
  | waitt (t : Word)
  /-- the time and the sequence number as they were read at issue, and whether the number named a command then (R112, R113) -/
  | waittP (t q : Word) (named : Bool)
  | waitv (line : Nat)
  /-- arrived at the k-th barrier of a scope (R202) -/
  | bar (sc : Scope) (k : Nat)
  | waitseq (chain seq : Nat)
  deriving DecidableEq, Repr

/-- Run state of a context. -/
inductive Run where
  /-- no code: after dawn or HALT (firmware), or no launch (R374) -/
  | idle
  | running
  | sleeping
  /-- stopped by a trap of the trio, at SAFE or by force (R165, R206, R408) -/
  | stopped
  | ended
  | failed
  deriving DecidableEq, Repr

/-- What is still to come about when the pushes of an instruction that has completed have found room: the end of the context
(HALT, a transfer to PC 0), or the trap of TRAP and FWCALL (R119, R162, R387). -/
inductive Ending where
  | halt
  | trap (cause : Nat) (val : Word)
  deriving DecidableEq, Repr

/-- The operands that an instruction read when it issued and waits with: the scalar registers, and for the computer the masks, the rows and
ACCSEL (R27, R93). -/
structure Latch where
  g : SMap Word
  k : SMap Mask
  rows : SMap Row
  sel : Word
  deriving DecidableEq, Repr

/-- One context (R154). -/
structure Ctx where
  g : SMap Word := []
  b : SMap Word := []
  pc : Word := 0
  /-- instructions since the PBR of each B register, at most 3; unlisted is 3 (R107) -/
  since : SMap Nat := []
  nextIssue : Nat := 0
  /-- TOKSTAT, WSCOPE, RDSTAT, UTVEC, UEPC, UCAUSE, UVAL by number -/
  sys : SMap Word := []
  run : Run := .idle
  wait : Option Wait := none
  /-- the instruction at the PC has made its pops already (R118) -/
  made : Bool := false
  /-- what that instruction read at its issue (R93) -/
  latch : Option Latch := none
  /-- the addresses of the instructions whose pops TOKSTAT.PHELD says were made (R118) -/
  heldPc : List Word := []
  /-- FIFOs into which tokens are still to be pushed: groups in order, in each of them one push a FIFO (R162, R194), and what follows when
  all have been made -/
  push : List (List Nat) := []
  ending : Option Ending := none
  /-- lines of the current region (R240) -/
  region : List Nat := []
  /-- releases of FENCEs that wait for a store (R235) -/
  fences : List (Scope × Clock) := []
  /-- locations and release serials of the last atomic or synchronising load, one for each of its parts (R235) -/
  lastLoad : List (Nat × Nat × Nat) := []
  safeIdx : Nat := 0
  forced : Bool := false
  /-- stopped at SAFE or by force for a pre-emption -/
  safe : Bool := false
  deriving DecidableEq, Repr

/-- Targets of results that land later (R26, R27). -/
inductive Target where
  | g (r : Role) (n : Nat)
  | k (n : Nat)
  | row (n : Nat)
  | side (n : Nat)
  | fstat
  | maxmag
  /-- no target of a result: what an instruction waits for at issue. The divider of a context (R94); that no fixed-latency result
  for a tile row is pending (R150); that no merge of an older instruction of C into FSTAT or MAXMAG is (R24); that a tile is not
  busy (R336); that fewer than 16 indices are held (R191) -/
  | divider (r : Role)
  | quiet (row : Nat)
  | noMerge (r : Role) (n : Nat)
  | tile (n : Nat)
  | room
  deriving DecidableEq, Repr

/-- A result on its way: the bits under `mask` land at `ready`; `none` is a variable latency (R26). -/
structure Pend where
  target : Target
  mask : Nat
  value : Nat
  ready : Option Nat
  /-- the result of a divide (R94) -/
  divide : Bool := false
  deriving DecidableEq, Repr

/-- A token FIFO (R160): the clocks of its tokens, oldest first, and its end marks. -/
structure Fifo where
  toks : List Clock := []
  ended : Bool := false
  /-- clock of the end of the producing context (R163) -/
  endClock : Clock := {}
  /-- the consumer has ended (R162) -/
  deaf : Bool := false
  deriving DecidableEq, Repr

/-- A lane queue (R198): items, cursor, end, and the stream descriptor latched by LQPUSH. -/
structure Lane where
  items : List Nat := []
  cursor : Nat := 0
  stop : Nat := 0
  sd : Word := 0
  deriving DecidableEq, Repr

/-- What ENQ knows of a command beyond its slot (R276, R290, R315, R324). -/
structure Enq where
  seq : Nat
  scope : Scope
  age : Nat
  role : Role
  launch : Nat
  pages : List Leaf
  /-- virtual addresses of the address runs, in the order of the words -/
  vas : List Nat
  /-- busy tiles, one entry for each operation that names the tile -/
  tiles : List Nat
  promise : Nat
  clock : Clock
  /-- STATUS of the slot (R282) -/
  status : Nat
  deriving DecidableEq, Repr

/-- A command up to which CHDONE has risen: its scope, and the release that covers it (R288, R297). -/
structure Retired where
  seq : Nat
  scope : Scope
  by_ : Nat
  byScope : Scope
  clock : Clock
  deriving DecidableEq, Repr

/-- The command that a chain runs (R286, R308). -/
structure Cmd where
  seq : Nat
  upc : Nat := 0
  /-- top first -/
  stack : List Word := []
  elem : ETy := .i32
  swz : BitVec 3 := 0
  cnt1 : Nat := 1
  ss1 : Word := 0
  ds1 : Word := 0
  cnt2 : Nat := 1
  ss2 : Word := 0
  ds2 : Word := 0
  pri : Option Nat := none
  stamp : Option Nat := none
  seqa : Option Nat := none
  /-- END has been executed -/
  done : Bool := false
  exec : Nat := 0
  /-- earliest cycle of the next word -/
  next : Nat := 0
  /-- notice whose pull or decline the current word waits for -/
  pull : Option Word := none
  /-- since when the current word is refused by a held line (R245) -/
  refused : Option Nat := none
  /-- since when the current word is held back by an older instruction or a full table (R250) -/
  held : Option Nat := none
  /-- lines of the current `cred.l` that have landed (R320) -/
  lines : Nat := 0
  /-- a TMMA at the micro-PC: cycle since which it waits as a candidate (R338, R342) -/
  waiting : Option Nat := none
  deriving DecidableEq, Repr

/-- A store of a completion word that a held line refuses: it is made when the line admits it (R245, R288). -/
structure WordStore where
  value : Nat
  agent : Agent
  scope : Scope
  clock : Clock
  since : Nat
  deriving DecidableEq, Repr

/-- A chain (R275). CHPOOL, CHCPL, CHDONE and CHTAIL stand in the core's system registers. -/
structure Chain where
  cmds : List Enq := []
  run : Option Cmd := none
  fault : Bool := false
  /-- sequence numbers that were cancelled or killed (R297) -/
  cancelled : List Nat := []
  /-- PROMISE of the newest 64 copy commands, by sequence number (R298) -/
  promised : List (Nat × Nat) := []
  rel : List Retired := []
  /-- stores of the completion word that wait for a held line, in order (R245, R288) -/
  stores : List WordStore := []
  /-- gate credits (R292), each with the paths and clocks of the pulses behind it (R293) -/
  credits : List (List (Path × Clock)) := []
  deriving DecidableEq, Repr

/-- An incomplete TMMA of this core (R334, R343). -/
structure Product where
  chain : Nat
  seq : Nat
  ct : Nat
  at_ : Nat
  bt : Nat
  /-- the rows of CT that land, with their masks, computed from the operands at the start -/
  rows : List (Nat × Nat × Nat)
  occEnd : Nat
  ready : Nat
  /-- the core whose engine executes it -/
  by_ : Nat
  /-- the micro-PC of its word and the stack before it, and an uncorrectable error in its operand records (R289, R343) -/
  upc : Nat := 0
  stack : List Word := []
  bad : Bool := false
  /-- it does not read the old accumulator (R318) -/
  ovw : Bool := false
  deriving DecidableEq, Repr

/-- A publication-table entry (R346 to R350). -/
structure Pub where
  nid : Word
  info : NoticeInfo
  frames : List Leaf
  loc : Nat
  done : Option (Nat × Leaf)
  cons : List Nat
  count : Nat
  counted : List Nat
  pulling : List Nat
  begun : List Nat
  expiry : Nat
  timeout : Nat
  expired : Bool
  /-- a reclaim trap has been raised and is being handled; the cycle at which it is raised again (R349) -/
  raised : Bool
  trapAt : Option Nat
  /-- the context whose user handler handles the reclaim, and its epoch (R380, R382) -/
  raisedIn : Option (Role × Nat) := none
  /-- since when the addition at DONEADDR is refused by a held line (R245, R350) -/
  doneSince : Option Nat := none
  /-- the address space of DONEADDR, none for physical; cause and address of the fault that its page has since a TLBINV (R222, R389) -/
  doneAsp : Option Word := none
  doneFault : Option (Nat × Nat) := none
  role : Role
  note : Bool
  epoch : Nat
  group : BitVec 16
  gen : BitVec 8
  clock : Clock
  /-- consumers to which the notice is still to be sent or sent again (R351, R420) -/
  kept : List Nat
  deriving DecidableEq, Repr

/-- Where a pull lands (R354); `chain` is the chain of the word that claimed it. -/
inductive Land where
  | ring (off : Nat)
  | sp (addr : Nat) (swz : BitVec 3) (chain : Nat)
  | glob (pa : Nat) (chain : Nat)
  | cred (pa : Nat) (op : Nat) (chain : Nat)
  deriving DecidableEq, Repr

/-- State of a notice at a port (R351 to R357); `pri` is the priority under which a claimed notice ranks. -/
inductive PState where
  | waiting | announced | claimed (land : Land) (pri : Nat) | pulling | landed | refused | declined
  deriving DecidableEq, Repr

/-- A notice-table entry of a gathering port. -/
structure PEntry where
  info : NoticeInfo
  arrival : Nat
  order : Nat
  state : PState
  clock : Clock
  group : BitVec 16
  gen : BitVec 8
  deriving DecidableEq, Repr

/-- A started pull (R355). -/
structure Pull where
  nid : Word
  producer : Nat
  size : Nat
  requested : Nat
  landed : Nat
  land : Land
  dead : Bool
  /-- since when a landing is refused by a held line (R245), and the lines of that segment that have landed (R320) -/
  refused : Option Nat := none
  lines : Nat := 0
  deriving DecidableEq, Repr

/-- An arrival record with the clocks that its taking acquires (R357, R361). -/
structure Arrival where
  info : NoticeInfo
  off : Nat
  status : Nat
  gtc : Nat
  clock : Clock
  deriving DecidableEq, Repr

/-- A reservation of the landing ring: what of it has landed (R354 to R356). -/
structure Resv where
  nid : Word
  size : Nat
  land : Nat
  deriving DecidableEq, Repr

/-- The gathering port of a core (R351 to R357). -/
structure Port where
  rd : Nat := 0
  wr : Nat := 0
  free : Nat := 0
  /-- reservations in ring order, and the bytes of the first that PULLREL has returned -/
  resv : List Resv := []
  given : Nat := 0
  /-- producers whose notices found the table full, with the notices (R351, R420) -/
  turned : List (Nat × Word) := []
  table : List PEntry := []
  recs : List Arrival := []
  pulls : List Pull := []
  lastReq : Option Nat := none
  arrivals : Nat := 0
  pubs : SMap (Option Pub) := []
  serial : Nat := 0
  deriving DecidableEq, Repr

/-- A report for firmware (R370, R374). -/
structure Report where
  cause : Nat
  sub : Nat := 0
  /-- 0 context, 1 engine command, 2 gathering port, 3 collective engine -/
  src : Nat := 0
  ctx : Nat := 3
  chain : Nat := 0
  val : Word := 0
  other : Word := 0
  /-- a precise trap of a trio context, which stopped the trio -/
  stop : Bool := false
  /-- a trap of a context at its instruction (R375) -/
  precise : Bool := false
  /-- a schedule miss that goes to the computer context, as it stood when the miss arose (R380, R381) -/
  deleg : Bool := false
  /-- it is no trap of the firmware context: R378 does not apply (R170) -/
  notTrap : Bool := false
  /-- the launch that it concerns -/
  launch : Nat := 0
  at_ : Nat := 0
  deriving DecidableEq, Repr

/-- One core. -/
structure Core where
  ctxL : Ctx := {}
  ctxC : Ctx := {}
  ctxS : Ctx := {}
  ctxF : Ctx := {}
  /-- K1 to K7 (R11) -/
  k : SMap Mask := []
  /-- row r of tile t at key 32 t + r (R14) -/
  rows : SMap Row := []
  side : SMap Scales := []
  pend : List Pend := []
  /-- system registers held by the core -/
  sys : SMap Word
  evbit : Bool := false
  /-- cycle after the last setting of the event bit, and after the last clear made by a WFE (R115) -/
  evSet : Nat := 0
  evClr : Nat := 0
  tq : SMap Fifo := []
  lanes : SMap Lane := []
  /-- push sequence number of the launch that the core runs, 0 for none; `single`: single-context mode (R156) -/
  launch : Nat := 0
  single : Bool := false
  stage : Nat := 0
  marked : Bool := false
  held : List Nat := []
  replay : List Nat := []
  epoch : Nat := 0
  tlb : List Leaf := []
  chains : SMap Chain := []
  /-- pulses of this cycle: source, path and clock (R291, R293) -/
  pulses : List (Nat × Path × Clock) := []
  /-- joined clocks of the pulses of sources 1 to 6 since the launch entered (R293) -/
  marks : List (Nat × Path × Clock) := []
  /-- writes to crossbar registers with the cycle of their SWR; they take effect in the next cycle's crossbar step (R291) -/
  xwrites : List (Nat × Word × Nat) := []
  /-- cycle after the last crossbar cycle -/
  xAt : Nat := 0
  /-- c of R338; until when the matrix engine is held; incomplete products; held for another core's product until -/
  mxCount : Nat := 0
  mxUntil : Nat := 0
  mx : List Product := []
  port : Port := {}
  reports : List Report := []
  /-- the report being handled stopped the trio, or is a report of R408 (R411) -/
  trioHandled : Bool := false
  /-- the launch whose trio is handled -/
  handled : Nat := 0
  /-- credit of the firmware share, and the cycle after the last in which a trio context issued (R155) -/
  acc : Nat := 0
  trioAt : Nat := 0
  /-- cycle after the last in which firmware issued (R155) -/
  fwAt : Nat := 0
  /-- the version of the firmware image that this core runs (R458) -/
  image : Nat := 0
  failed : Bool := false
  deriving DecidableEq, Repr

/-- A walker (R173, R178). -/
structure Walker where
  launch : Nat
  lo : Nat
  hi : Nat
  frozen : Bool := false
  /-- what promotion flushes have released to this quire (R177) -/
  clock : Clock := {}
  deriving DecidableEq, Repr

/-- A quire: its walkers, its reservation for a forced launch, its dispatcher generator, second-level TLB and pins. -/
structure Quire where
  walkers : List Walker := []
  gen : Word := 0
  tlb : List Leaf := []
  /-- frames pinned in the slice: first address and size (R224) -/
  pinned : List (Nat × Nat) := []
  /-- cycle after the last pop (R183) -/
  popAt : Nat := 0
  /-- in-flight counters by page: asid, va and count (R290) -/
  inflight : List (Leaf × Nat) := []
  deriving DecidableEq, Repr

/-- A launch record (R167). -/
structure LRec where
  lentry : Word
  centry : Word
  sentry : Word
  ext : List Nat
  grain : Nat
  qmask : Nat
  spbase : Nat
  spsize : Nat
  order : Nat
  nstage : Nat
  tres : Nat
  tokinit : Nat
  group : BitVec 16
  gen : BitVec 8
  sigop : Nat
  sigscope : Nat
  args : Word
  sigaddr : Word
  sigval : Word
  reltick : Word
  deadline : Word
  stages : Word
  livemaps : Word
  deriving DecidableEq, Repr

/-- A stage descriptor (R179). -/
structure Stage where
  lentry : Word
  centry : Word
  sentry : Word
  ringbase : Nat
  ringsize : Nat
  recsize : Nat
  bpthresh : Nat
  tokinit : Nat
  mincores : Nat
  /-- pages of the input ring, found at acceptance -/
  ring : List Leaf
  /-- PUTSEQ and GETSEQ as they stood at the start; slots whose put or get has completed since, with its clock (R203, R204) -/
  put0 : Nat := 0
  get0 : Nat := 0
  puts : List (Nat × Clock) := []
  gets : List (Nat × Clock) := []
  deriving DecidableEq, Repr

/-- Where a launch stands. -/
inductive LState where
  | held | ready | running | saved | done
  deriving DecidableEq, Repr

/-- A launch of the package (R167 to R184, R404 to R408). -/
structure Launch where
  seq : Nat
  rcd : LRec
  st : List Stage
  prio : Nat
  bank : Nat
  pass : Nat := 0
  state : LState := .ready
  pushQuire : Nat
  pushedAt : Nat
  startOrder : Nat := 0
  aspace : Word
  /-- the firmware context issued the LAUNCH: SIGADDR is physical (R170) -/
  phys : Bool
  /-- core that issued the LAUNCH, or the die, QSB address, WAKEQ and slot of the queue packet -/
  issuer : Option Nat
  queue : Option (Nat × Nat × Nat)
  rerun : Bool := false
  entered : List Nat := []
  ended : List Nat := []
  ran : List Nat := []
  /-- release that the contexts acquire at entry; join of the clocks of ended trios -/
  clock : Clock
  endClock : Clock := {}
  /-- cause and value that killed it (R165) -/
  killed : Option (Nat × Nat × Word) := none
  overran : Bool := false
  /-- frame d has been overrun since this cycle; the frame in which the overrun began (R404) -/
  overAt : Nat := 0
  overFrame : Nat := 0
  stageOf : SMap Nat := []
  /-- cores on which TNEXT has yielded END (R191) -/
  ends : List Nat := []
  /-- epoch under which a core runs the launch -/
  epochs : SMap Nat := []
  /-- BARs issued, by core, context and scope, and the clocks of the newest two of each (R201, R202) -/
  bars : SMap Nat := []
  barClk : List (Nat × Nat × Clock) := []
  /-- the BARs that a context has arrived at and not completed: address, scope and barrier, by core and context (R202) -/
  arrived : SMap (List (Word × Scope × Nat)) := []
  /-- ring slot that a waiting STGPUT or STGGET has taken, plus 1, by core and context (R204) -/
  taken : SMap Nat := []
  /-- pushes that waited when the launch was saved, and what follows them, by core and context, and replay lists, by core -/
  pushes : SMap (List (List Nat)) := []
  endings : SMap (Option Ending) := []
  replays : SMap (List Nat) := []
  /-- cycle after the last turn of the stage scheduler (R181) -/
  schedAt : Nat := 0
  /-- since when the completion signal is refused by a held line (R170, R245), or an access of its queue's block (R393) -/
  sigSince : Option Nat := none
  qSince : Option Nat := none
  /-- the failure of the queue has been reported (R403) -/
  told : Bool := false
  /-- it starts again after a pre-emption; cores that do not enter it again; cores whose restart report is still to be made,
  or whose handler has not yet returned (R408) -/
  resumed : Bool := false
  skip : List Nat := []
  toReport : List Nat := []
  resuming : List Nat := []
  deriving DecidableEq, Repr

/-- What holds the parsing of a mapped queue (R401, R402, R440). -/
inductive QWait where
  | free | fence (slots : List Byte) | timed (t : Word) | coll (entry : Nat)
  deriving DecidableEq, Repr

/-- A queue mapped on a die (R397). -/
structure QSlot where
  qsb : Nat
  hold : QWait := .free
  /-- since when an access of its packet is refused by a held line (R245) -/
  refused : Option Nat := none
  /-- the step of its unmapping that has been made last, 0 for none (R398) -/
  unmapping : Nat := 0
  deriving DecidableEq, Repr

/-- A SIGNAL packet that has been parsed: its slot, and the launches that it waits for (R401, R402). -/
structure PendSignal where
  qsb : Nat
  bs : List Byte
  after : List Nat
  /-- since when its write is refused by a held line (R245) -/
  refused : Option Nat := none
  deriving DecidableEq, Repr

/-- What a place in CWORK holds (R433, R435, R436): the landed segments of a pull from a package, a partial that has landed whole, the partials of the
first children combined, the partial that the parent may pull, or a final chunk that has landed whole. -/
inductive CUse where
  | pull (pkg : Nat) (final : Bool) (got : Nat)
  | whole
  | acc (kids : Nat)
  | part
  | land
  deriving DecidableEq, Repr

/-- A place in CWORK that a firing uses, by its number among the firing's 2·NSP (R433). -/
structure CSlot where
  chunk : Nat
  idx : Nat
  use : CUse
  deriving DecidableEq, Repr

/-- A firing of a collective (R430 to R439). Its status and bookmarks stand in the state area (R433). -/
structure Firing where
  entry : Nat
  fire : Nat
  image : List Byte
  core : Option Nat
  qsb : Option Nat
  group : BitVec 16
  gen : BitVec 8
  /-- pages of SRC and of DST, found by the checks of the firing; `src`: those of SRC, whose in-flight counters stand raised -/
  pages : List Leaf
  src : List Leaf
  /-- the address space of SRC and DST; none for physical addresses -/
  asp : Option Word := none
  /-- it has ended COMPLETE here and serves the members that have not (log 28) -/
  isOver : Bool := false
  /-- the abort has taken effect, with this subcause: what is in progress completes (R439) -/
  aborting : Option Nat := none
  spines : List Spine := []
  /-- spines have been received or built, or the headers of KIND 3 have been exchanged -/
  ready : Bool := false
  build : Nat := 0
  /-- it holds new spines and has not resumed (R437) -/
  recomp : Bool := false
  /-- at the root: the changes that have still to be recomputed for (R437) -/
  again : Nat := 0
  /-- no pull and no combination begins under this build of the spines or an older one (R437 step 1) -/
  halt : Nat := 0
  /-- since when an access of the firing is refused by a held line (R245) -/
  refused : Option Nat := none
  /-- where its places in CWORK begin, and those that are in use (R433) -/
  cbase : Nat := 0
  slots : List CSlot := []
  /-- KIND 3: header pulls in progress by package; headers here by package; rank pulls in progress, by rank and package, with the bytes so far;
  ranks that have landed whole -/
  asking : List Nat := []
  headers : List (Nat × List Byte) := []
  got : List (Nat × Nat × List Byte) := []
  landed : List (Nat × List Byte) := []
  /-- pulls of this member's data that have begun: chunk or rank, package and whether final -/
  serving : List (Nat × Nat × Bool) := []
  /-- data kept for the members that have not ended, by chunk or rank (log 28) -/
  served : List (Nat × List Byte) := []
  /-- the subcause with which an access or a route that is lost makes the firing abort (R239, R439) -/
  fail : Option Nat := none
  /-- data announced by others: chunk, package and whether final -/
  peerReady : List (Nat × Nat × Bool) := []
  /-- children that have written their result chunk; members of KIND 3 that have their bytes, by rank -/
  acked : List (Nat × Nat) := []
  /-- control messages that have come too early, by package (R433) -/
  inbox : List (Nat × Body) := []
  /-- members that have ended -/
  ended : List Nat := []
  deriving DecidableEq, Repr

/-- One die (R392, R432, R451, R454). -/
structure Die where
  sys : SMap Word := []
  /-- cycle after the last start of a command by the collective engine (R275) -/
  collAt : Nat := 0
  queues : List QSlot := []
  /-- an access of the last scan is refused by a held line; wakes that one refuses: the waker and the queue id (R245, R399) -/
  stuck : Bool := false
  wakes : List (Agent × Nat) := []
  /-- entries of the slip log that a held line keeps out, oldest first, each with the queue of its launch (R245, R405) -/
  slips : List (Option Nat × List Byte) := []
  /-- writes to a queue's block that a held line keeps out, oldest first: QSB, offset, bytes and value; and failures whose words are still to be
  written: QSB, cause, subcause and value (R245, R393, R403) -/
  owed : List (Nat × Nat × Nat × Nat) := []
  failing : List (Nat × Nat × Nat × Nat) := []
  /-- head words whose conflict has been reported (R239) -/
  badHeads : List Nat := []
  badLinks : List (Nat × Nat) := []
  doorbell : Bool := false
  signals : List PendSignal := []
  firings : List Firing := []
  heldMsgs : List Packet := []
  mv : List (BitVec 256) := [0, 0, 0, 0]
  throttle : BitVec 4 := 0
  deriving DecidableEq, Repr

/-- A flit that is not yet acknowledged, with its resends and the cycle of its last sending (R418). -/
structure TxFlit where
  flit : Flit
  sentAt : Nat
  resent : Nat
  deriving DecidableEq, Repr

/-- The link layer of one link (R417 to R419). LINKn itself is a system register of the package. -/
structure LinkLayer where
  nextSeq : BitVec 8 := 0
  expect : BitVec 8 := 0
  tx : List TxFlit := []
  queue : List Packet := []
  /-- flits of the oldest message of each network that have been sent -/
  part : SMap Nat := []
  /-- credits spent of each network, of 8 -/
  spent : SMap Nat := []
  /-- credits owed to the far end, by network -/
  owed : SMap Nat := []
  /-- a negative acknowledgement has come (R418) -/
  nacked : Bool := false
  /-- the acknowledgement or negative acknowledgement that was sent last on a flit of its own (log 95) -/
  reply : Option Flit := none
  deriving DecidableEq, Repr

/-- What the package sends to the host (R394, R428, R450, R452). -/
inductive HostOut where
  | slip (addr : Nat)
  | queueFail (qid : Nat)
  | badLink (prio word : Nat)
  | badKick (qid : Nat)
  | coreFailed (core : Nat)
  | linkChange (link : Nat)
  | lostLock
  | scrubError (addr : Nat)
  | shutdown
  | reply (data : List Byte)
  | ack
  | refused (cause sub : Nat)
  /-- the attestation report with its signature, and the recovery flag -/
  | attestation (nonce : BitVec 256) (pkg : BitVec 6) (mvs : List (BitVec 256)) (features : BitVec 128) (version : Nat) (kem : List Byte)
      (sig : BitVec 256) (recovery : Bool)
  deriving DecidableEq, Repr

/-- A datagram to the host: sequence number, cumulative and selective acknowledgement, and what it carries (R427). -/
structure OutDatagram where
  seq : BitVec 32
  ack : BitVec 32
  sack : BitVec 64
  out : HostOut
  deriving DecidableEq, Repr

/-- A session of the host port (R427, R429, R452). -/
structure Session where
  nextSeq : BitVec 32 := 0
  nonces : List (BitVec 256) := []
  /-- datagrams ahead of their turn -/
  early : List Datagram := []
  /-- the subset of features that was accepted at its OPEN (R429) -/
  features : BitVec 128 := 0
  /-- session keys into the package and out of it (R452) -/
  rxKey : List Byte := []
  txKey : List Byte := []
  /-- number of the next datagram to the host, those not yet acknowledged, and what waits behind 64 of them -/
  outSeq : BitVec 32 := 0
  flying : List OutDatagram := []
  waiting : List HostOut := []
  deriving DecidableEq, Repr

/-- A pre-emption in progress (R407, R408). -/
structure Preempt where
  victim : Nat
  waiting : Nat
  since : Nat
  reported : List Nat := []
  saved : List Nat := []
  skip : List Nat := []
  deriving DecidableEq, Repr

/-- Phase of the package (R449, R450, R455). -/
inductive Phase where
  | reset | up | recovery | off
  /-- step 6 of dawn waits for the GTC of the pod reference (R426) -/
  | aligning
  deriving DecidableEq, Repr

/-- Which context, chain or publication a step concerns. -/
structure Place where
  core : Nat := 0
  role : Role := .C
  chain : Nat := 0
  pub : Nat := 0
  deriving DecidableEq, Repr

/-- What a turn does: a context issues, a chain executes its next word, or an indivisible step comes about. -/
inductive Act where
  | issue
  /-- the instruction at the PC, which issued earlier and waited, goes on (R118) -/
  | resume
  | word
  | step (i : Instr)
  deriving DecidableEq, Repr

/-- A turn that the outside or the free timing names next (log 4). -/
structure Turn where
  place : Place
  act : Act
  deriving DecidableEq, Repr

/-- The consistency state (R230 to R248). -/
structure Order where
  clocks : SMap Clock := []
  /-- what an agent has performed, released or acquired at a scope or wider, by agent code and scope (R177) -/
  wide : SMap Clock := []
  accesses : List Access := []
  releases : List Release := []
  serial : Nat := 0
  held : List HeldLine := []
  waiters : List Waiter := []
  counters : List (Nat × Counter) := []
  deriving DecidableEq, Repr

/-- The package. -/
structure State where
  gtc : Nat
  phase : Phase
  /-- bytes by physical address; unlisted bytes read 0 (log 1) -/
  mem : List Host.Cell
  /-- key under which a line was last written (R225) -/
  lineKey : SMap (Option Key)
  keys : SMap (Option Key)
  keySerial : Nat
  /-- bytes with an uncorrectable error (R385) -/
  bad : SMap Bool
  cores : SMap Core
  quires : SMap Quire
  dies : SMap Die
  /-- system registers of the package: FSHIFT, GTBASE, STALEDROP, PKGID, LTGEN, SKEW, UNREACH, FEATURE, LINKn -/
  sys : SMap Word
  /-- SWRs of this cycle that govern from the next one: core, context, register and value (R23, R154, R337, R352) -/
  late : List (Nat × Role × Nat × Word)
  order : Order
  launches : List Launch
  pushSeq : Nat
  started : Nat
  /-- launches forced under R184, oldest first -/
  forcedList : List Nat
  preempt : Option Preempt
  /-- data images placed by the driver for the launch whose CENTRY is the key (R34, R91) -/
  images : List (Word × List Byte)
  links : SMap LinkLayer
  /-- rows of the pod link table of other packages (R421) -/
  linkTable : SMap (List Word)
  /-- packages of the pod that have ended dawn, and whether each has LOCK from its own host port; LOCK of this package from its own
  (R426) -/
  podTime : List (Nat × Bool)
  hostLock : Bool
  /-- MSEQ counters of messages sent to each package, and the packages and numbers taken (R417, R422) -/
  mseq : SMap Nat
  taken : List (Nat × Nat)
  /-- messages on their way to this package -/
  net : List Packet
  /-- messages that their source holds for want of a route (R422) -/
  kept : List Packet
  sessions : SMap (Option Session)
  /-- everything that has been sent to the host, in order, and how many of these the sessions have taken over (R427) -/
  hostOut : List HostOut
  hostSeen : Nat
  /-- kicks that a held line keeps out: queue id and index (R245, R400) -/
  kicks : List (Nat × Nat)
  staging : List Byte
  /-- tags that failed (R427) -/
  badTags : Nat
  /-- physical cores that are logged as failed, and the physical core of each architectural one (R7, R460) -/
  failedLog : List Nat
  /-- DRAM lines logged in service for a row or channel repair at the next dawn (R449, R457) -/
  repairLog : List Nat
  /-- scrubs that read a word or line without an uncorrectable error (R459); the model's own counter for its free value (log 8) -/
  scrubs : Nat
  coreMap : List (Nat × Nat)
  digest : BitVec 256
  version : Nat
  features : BitVec 128
  dawns : Nat
  dawnCfg : DawnCfg
  agenda : List Turn
  cur : Place
  deriving DecidableEq, Repr

/-- Why the machine stops. -/
inductive Fault where
  /-- A step was taken although the package is off after a thermal shutdown (R455); raised by `step`. Safe: nothing runs
  until the next dawn. -/
  | packageOff
  deriving DecidableEq, Repr

/-- Why a step has no meaning. -/
inductive Refusal where
  /-- The instruction's meaning is not written yet; raised by `exec`. Safe: the model stops. -/
  | notModelled (mnemonic : String)
  deriving DecidableEq, Repr

/-- The canonical form of memory: addresses strictly rising, and no entry equal to what an unlisted address reads as, which
is 0 (log 1). -/
def Memory.wf (m : List Host.Cell) : Bool := SMap.wf 0 m

/-- Reset values of the core's system registers (R15, R19, R187, R214, R242, R277, R327, R337, R352, R372, R392); a
register that is not listed resets to 0. -/
def coreSysReset : SMap Word :=
  [(0x004, 0x6A09E667F3BCC909), (0x008, 0x7FE04), (0x009, 0x7FE04), (0x00A, 0x7FE04), (0x00B, 0x7FE04),
   (0x00C, 0x7FE04), (0x00D, 0x7FE04), (0x00E, 0x7FE04), (0x00F, 0x7FE04), (0x211, 0x1000), (0x341, 0x300000400),
   (0x352, 0x10451), (0x353, 0x400005), (0x360, 0x4000100), (0x406, 0x10), (0x420, 65536), (0x426, 8192)]

/-- A core after reset: no launch, idle firmware; registers without a stated reset value hold 0 (log 2). -/
def Core.reset : Core := { sys := coreSysReset }

/-- FSHIFT resets to 16 (R19); the other registers of the package reset to 0. -/
def pkgSysReset : SMap Word := [(0x011, 16)]

/-- What is supplied at dawn where nothing else is said (log 11). -/
def DawnCfg.default : DawnCfg :=
  { pkgid := 0, digest := 0, signature := 0, trusted := true, version := 0, gens := [], failedCores := [], links := [],
    peers := [], gtcFromRef := none, features := 0, cfgDigest := 0,
    repairDigest := 0, fwEntry := 0 }

/-- The machine right after reset: before dawn, memory with nothing listed, every register at its reset value. -/
def State.reset : State :=
  { gtc := 0, phase := .reset, mem := [], lineKey := [], keys := [], keySerial := 0, bad := [], cores := [],
    quires := [], dies := [], sys := pkgSysReset, late := [], order := {}, launches := [], pushSeq := 0, started := 0,
    forcedList := [], preempt := none, images := [], links := [], linkTable := [], podTime := [], hostLock := false,
    mseq := [], taken := [], net := [], kept := [], sessions := [], hostOut := [], hostSeen := 0, kicks := [], staging := [], badTags := 0, failedLog := [], repairLog := [], scrubs := 0, coreMap := [], digest := 0,
    version := 0, features := 0, dawns := 0, dawnCfg := DawnCfg.default, agenda := [], cur := {} }

end Sys2Proof.Machine
end

