-- ==== Sys2Proof/Machine/Xts.lean ====
section
/-! DEFINITION. AES-256-XTS, under which lines of DRAM are stored (spec 11 R225, 20 R390). The spec names the cipher and its data unit,
tweak and keys; the cipher itself is that of its standards (PRESUMED, log 94). -/
namespace Sys2Proof.Machine

/-- Little-endian bytes of a vector. -/
def bytesOf (n : Nat) {w : Nat} (v : BitVec w) : List Byte := (List.range n).map (fun i => v.extractLsb' (8 * i) 8)

/-! AES (FIPS 197). A block is 16 bytes, byte r + 4 c at row r of column c. -/

/-- Multiplication by x in the field of AES. -/
def aesDouble (a : Byte) : Byte := (a <<< 1) ^^^ (if a.getLsbD 7 then 0x1B else 0)
/-- `a` times x to the power `n`. -/
def aesShift (a : Byte) : Nat → Byte
  | 0 => a
  | n + 1 => aesDouble (aesShift a n)
/-- The product of two field elements. -/
def aesMul (a b : Byte) : Byte := (List.range 8).foldl (fun x i => if b.getLsbD i then x ^^^ aesShift a i else x) 0
/-- `a` to the power 254: its inverse, and 0 for 0. -/
def aesInverse (a : Byte) : Byte :=
  (((List.range 7).foldl (fun (p : Byte × Byte) _ => (aesMul p.1 p.1, aesMul p.2 (aesMul p.1 p.1))) (a, 1))).2
/-- The substitution of a byte. -/
def aesSub (a : Byte) : Byte :=
  let b := aesInverse a
  b ^^^ b.rotateLeft 1 ^^^ b.rotateLeft 2 ^^^ b.rotateLeft 3 ^^^ b.rotateLeft 4 ^^^ 0x63
/-- Its inverse. -/
def aesUnsub (a : Byte) : Byte := aesInverse (a.rotateLeft 1 ^^^ a.rotateLeft 3 ^^^ a.rotateLeft 6 ^^^ 0x05)

/-- Sum of two blocks. -/
def aesAdd (x y : List Byte) : List Byte := List.zipWith (· ^^^ ·) x y
/-- The rows of a block turned: row r by r columns times `k`, to the left for 1 and to the right for 3. -/
def aesTurn (k : Nat) (x : List Byte) : List Byte :=
  (List.range 16).map (fun i => x.getD (i % 4 + 4 * ((i / 4 + k * (i % 4)) % 4)) 0)
/-- Each column times a circulant matrix with this first row. -/
def aesMix (m : List Byte) (x : List Byte) : List Byte :=
  (List.range 16).map (fun i => (List.range 4).foldl (fun v j =>
    v ^^^ aesMul (x.getD (i / 4 * 4 + j) 0) (m.getD ((j + 4 - i % 4) % 4) 0)) 0)

/-- The words of the key schedule after the first eight, newest first; `fuel` words are still to come. -/
def aesExpand : Nat → Nat → List (List Byte) → List (List Byte)
  | 0, _, ws => ws
  | fuel + 1, i, ws =>
    let t := ws.headD []
    let t :=
      if i % 8 = 0 then aesAdd ((t.drop 1 ++ t.take 1).map aesSub) [aesShift 1 (i / 8 - 1), 0, 0, 0]
      else if i % 8 = 4 then t.map aesSub else t
    aesExpand fuel (i + 1) (aesAdd (ws.getD 7 []) t :: ws)

/-- The 15 round keys of a 256-bit key. -/
def aesKeys (key : List Byte) : List (List Byte) :=
  let first := (List.range 8).map (fun i => (key.drop (4 * i)).take 4)
  let ws := (aesExpand 52 8 first.reverse).reverse
  (List.range 15).map (fun r => ((ws.drop (4 * r)).take 4).flatten)

/-- Encryption of a block. -/
def aesEncrypt (key x : List Byte) : List Byte :=
  let ks := aesKeys key
  let round (y : List Byte) (r : Nat) : List Byte := aesAdd (aesMix [2, 3, 1, 1] (aesTurn 1 (y.map aesSub))) (ks.getD r [])
  let y := ((List.range 13).map (· + 1)).foldl round (aesAdd x (ks.getD 0 []))
  aesAdd (aesTurn 1 (y.map aesSub)) (ks.getD 14 [])

/-- Decryption of a block. -/
def aesDecrypt (key x : List Byte) : List Byte :=
  let ks := aesKeys key
  let round (y : List Byte) (r : Nat) : List Byte := aesMix [14, 11, 13, 9] (aesAdd ((aesTurn 3 y).map aesUnsub) (ks.getD r []))
  let y := ((List.range 13).map (fun r => 13 - r)).foldl round (aesAdd x (ks.getD 14 []))
  aesAdd ((aesTurn 3 y).map aesUnsub) (ks.getD 0 [])

/-! XTS (IEEE 1619) over one line of four blocks -/

/-- The tweak value of the next block. -/
def xtsStep (t : BitVec 128) : BitVec 128 := (t <<< 1) ^^^ (if t.getLsbD 127 then 0x87 else 0)

/-- The four blocks of a line, each between two sums with its tweak value. -/
def xtsBlocks (f : List Byte → List Byte) : Nat → BitVec 128 → List Byte → List Byte
  | 0, _, _ => []
  | n + 1, t, x => aesAdd (f (aesAdd (x.take 16) (bytesOf 16 t))) (bytesOf 16 t) ++ xtsBlocks f n (xtsStep t) (x.drop 16)

/-- The first tweak value of the line with this number under a key: bytes 0–31 are the data key, bytes 32–63 the tweak key (R390). -/
def xtsTweak (key : BitVec 512) (line : Nat) : BitVec 128 :=
  (aesEncrypt ((bytesOf 64 key).drop 32) (bytesOf 16 (BitVec.ofNat 128 line))).foldr (fun b v => v <<< 8 ||| b.setWidth 128) 0

/-- What DRAM holds for a line of plaintext (R225). -/
def xtsEncrypt (key : BitVec 512) (line : Nat) (x : List Byte) : List Byte :=
  xtsBlocks (aesEncrypt ((bytesOf 64 key).take 32)) 4 (xtsTweak key line) x

/-- What a read under a key makes of what DRAM holds (R225). -/
def xtsDecrypt (key : BitVec 512) (line : Nat) (x : List Byte) : List Byte :=
  xtsBlocks (aesDecrypt ((bytesOf 64 key).take 32)) 4 (xtsTweak key line) x

end Sys2Proof.Machine
end

