-- ==== Sys2Proof/Machine/Ops.lean ====
section
/-! DEFINITION. Named operations over the parts of the state: cores, contexts, registers with their pending results,
memory, system registers, reports, and taking an exception (spec 02, 08, 11, 20). -/
namespace Sys2Proof.Machine

/-- What a step answers. -/
abbrev Out := Host.Outcome State Fault Refusal

/-! Parts of the package -/

/-- Core `c`. -/
def State.core (s : State) (c : Nat) : Core := SMap.get Core.reset s.cores c
/-- Replace core `c`. -/
def State.setCore (s : State) (c : Nat) (v : Core) : State := { s with cores := SMap.set Core.reset s.cores c v }
/-- Change core `c`. -/
def State.modCore (s : State) (c : Nat) (f : Core → Core) : State := s.setCore c (f (s.core c))
/-- Quire `q`. -/
def State.quire (s : State) (q : Nat) : Quire := SMap.get {} s.quires q
/-- Change quire `q`. -/
def State.modQuire (s : State) (q : Nat) (f : Quire → Quire) : State :=
  { s with quires := SMap.set {} s.quires q (f (s.quire q)) }
/-- Die `d`. -/
def State.die (s : State) (d : Nat) : Die := SMap.get {} s.dies d
/-- Change die `d`. -/
def State.modDie (s : State) (d : Nat) (f : Die → Die) : State := { s with dies := SMap.set {} s.dies d (f (s.die d)) }
/-- The link layer of link `l`. -/
def State.link (s : State) (l : Nat) : LinkLayer := SMap.get {} s.links l
/-- Change the link layer of link `l`. -/
def State.modLink (s : State) (l : Nat) (f : LinkLayer → LinkLayer) : State :=
  { s with links := SMap.set {} s.links l (f (s.link l)) }
/-- Context `r` of a core. -/
def Core.ctx (k : Core) : Role → Ctx
  | .L => k.ctxL | .C => k.ctxC | .S => k.ctxS | .F => k.ctxF
/-- Replace context `r` of a core. -/
def Core.setCtx (k : Core) (r : Role) (v : Ctx) : Core :=
  match r with
  | .L => { k with ctxL := v } | .C => { k with ctxC := v } | .S => { k with ctxS := v } | .F => { k with ctxF := v }
/-- Context `r` of core `c`. -/
def State.ctx (s : State) (c : Nat) (r : Role) : Ctx := (s.core c).ctx r
/-- Change context `r` of core `c`. -/
def State.modCtx (s : State) (c : Nat) (r : Role) (f : Ctx → Ctx) : State :=
  s.modCore c (fun k => k.setCtx r (f (k.ctx r)))
/-- Chain `n` of a core. -/
def Core.chain (k : Core) (n : Nat) : Chain := SMap.get {} k.chains n
/-- Change chain `n` of core `c`. -/
def State.modChain (s : State) (c n : Nat) (f : Chain → Chain) : State :=
  s.modCore c (fun k => { k with chains := SMap.set {} k.chains n (f (k.chain n)) })
/-- Change the gathering port of core `c`. -/
def State.modPort (s : State) (c : Nat) (f : Port → Port) : State := s.modCore c (fun k => { k with port := f k.port })
/-- The quire, volume and die of a core (R6, R8). -/
def quireOf (c : Nat) : Nat := c / 8
/-- The volume of a core. -/
def volOf (c : Nat) : Nat := c / 40
/-- The die of a core. -/
def dieOf (c : Nat) : Nat := c / 80
/-- Number of a context in reports (R373). -/
def roleNum : Role → Nat
  | .L => 0 | .C => 1 | .S => 2 | .F => 3
/-- The contexts of a trio. -/
def trioRoles : List Role := [.L, .C, .S]
/-- The launch with push sequence number `q`. -/
def State.launch? (s : State) (q : Nat) : Option Launch := s.launches.find? (fun l => l.seq == q)
/-- The launch that core `c` runs. -/
def State.launchOf (s : State) (c : Nat) : Option Launch :=
  if (s.core c).launch = 0 then none else s.launch? (s.core c).launch
/-- Change the launch with push sequence number `q`. -/
def State.modLaunch (s : State) (q : Nat) (f : Launch → Launch) : State :=
  { s with launches := s.launches.map (fun l => if l.seq = q then f l else l) }
/-- Send something to the host (R428). -/
def State.tell (s : State) (o : HostOut) : State := { s with hostOut := s.hostOut ++ [o] }
/-- Put a turn at the head of the agenda. -/
def State.next (s : State) (p : Place) (a : Act) : State := { s with agenda := { place := p, act := a } :: s.agenda }

/-! System registers -/

/-- Who holds a system register (R154, R159, R242, R372, R392, R424, R432). -/
inductive SysHome where
  | ctx | core | die | pkg
  deriving DecidableEq, Repr

/-- The holder of system register `n`. -/
def sysHome (n : Nat) : SysHome :=
  if n = 0x100 ∨ n = 0x210 ∨ n = 0x212 ∨ (0x410 ≤ n ∧ n ≤ 0x413) then .ctx
  else if n = 0x421 ∨ n = 0x424 ∨ n = 0x425 ∨ (0x520 ≤ n ∧ n ≤ 0x523) then .die
  else if n = 0x010 ∨ n = 0x011 ∨ n = 0x012 ∨ n = 0x422 ∨ n = 0x423 ∨ (0x500 ≤ n ∧ n ≤ 0x51F) then .pkg
  else .core

/-- The stored value of system register `n`, as context `r` of core `c` reaches it. -/
def State.sysAt (s : State) (c : Nat) (r : Role) (n : Nat) : Word :=
  match sysHome n with
  | .ctx => SMap.get 0 (s.ctx c r).sys n
  | .core => SMap.get 0 (s.core c).sys n
  | .die => SMap.get 0 (s.die (dieOf c)).sys n
  | .pkg => SMap.get 0 s.sys n

/-- Store a value in system register `n`. -/
def State.setSysAt (s : State) (c : Nat) (r : Role) (n : Nat) (v : Word) : State :=
  match sysHome n with
  | .ctx => s.modCtx c r (fun x => { x with sys := SMap.set 0 x.sys n v })
  | .core => s.modCore c (fun k => { k with sys := SMap.set 0 k.sys n v })
  | .die => s.modDie (dieOf c) (fun d => { d with sys := SMap.set 0 d.sys n v })
  | .pkg => { s with sys := SMap.set 0 s.sys n v }

/-- A system register of a core. -/
def Core.reg (k : Core) (n : Nat) : Word := SMap.get 0 k.sys n
/-- A system register of a context. -/
def Ctx.reg (x : Ctx) (n : Nat) : Word := SMap.get 0 x.sys n
/-- Store a system register of a core. -/
def Core.setReg (k : Core) (n : Nat) (v : Word) : Core := { k with sys := SMap.set 0 k.sys n v }
/-- Store a system register of a context. -/
def Ctx.setReg (x : Ctx) (n : Nat) (v : Word) : Ctx := { x with sys := SMap.set 0 x.sys n v }
/-- Bits `hi` down to `lo` of a word. -/
def fld (w : Word) (hi lo : Nat) : Nat := w.toNat / 2 ^ lo % 2 ^ (hi + 1 - lo)

/-- GTC >> FSHIFT (R19, R23). -/
def State.frame (s : State) : Nat := s.gtc / 2 ^ (SMap.get 0 s.sys 0x011).toNat
/-- The pod core id of core `c` (R8, R159). -/
def State.podId (s : State) (c : Nat) : Nat := (SMap.get 0 s.sys 0x500).toNat % 64 * 512 + c
/-- This package's id (R424). -/
def State.pkg (s : State) : Nat := (SMap.get 0 s.sys 0x500).toNat % 64

/-! Registers and results that land later -/

/-- Value of scalar register `n` (R10, R11). -/
def Ctx.getG (x : Ctx) (n : GReg) : Word := if n = 0 then 0 else SMap.get 0 x.g n.toNat
/-- Write scalar register `n`; a write to G0 is discarded (R11). -/
def Ctx.setG (x : Ctx) (n : GReg) (v : Word) : Ctx := if n = 0 then x else { x with g := SMap.set 0 x.g n.toNat v }
/-- Value of branch target register `n`. -/
def Ctx.getB (x : Ctx) (n : BReg) : Word := SMap.get 0 x.b n.toNat
/-- Write branch target register `n`. -/
def Ctx.setB (x : Ctx) (n : BReg) (v : Word) : Ctx := { x with b := SMap.set 0 x.b n.toNat v }
/-- Value of mask register `n`; K0 reads all ones (R10). -/
def Core.getK (k : Core) (n : KReg) : Mask := if n = 0 then BitVec.allOnes 2048 else SMap.get 0 k.k n.toNat
/-- Write mask register `n`; K0 keeps its value (R11). -/
def Core.setK (k : Core) (n : KReg) (v : Mask) : Core := if n = 0 then k else { k with k := SMap.set 0 k.k n.toNat v }
/-- Row `i` of the tile file, 32 rows a tile (R14). -/
def Core.row (k : Core) (i : Nat) : Row := SMap.get 0 k.rows i
/-- Write row `i` of the tile file. -/
def Core.setRow (k : Core) (i : Nat) (v : Row) : Core := { k with rows := SMap.set 0 k.rows i v }
/-- The 64 scale containers of row `i` of the tile file (R17). -/
def Core.sideRow (k : Core) (i : Nat) : Scales := SMap.get 0 k.side i
/-- Write the scale containers of row `i`. -/
def Core.setSideRow (k : Core) (i : Nat) (v : Scales) : Core := { k with side := SMap.set 0 k.side i v }

/-- The tile that ACCSEL selects (R14). -/
def Core.accsel (k : Core) : Nat := (k.reg 0x001).toNat % 8
/-- The row of the tile file that vector register `v` resolves to at issue (R14). -/
def Core.rowOf (k : Core) (v : VReg) : Nat := 32 * k.accsel + v.toNat

/-- Bits under `mask` replaced. -/
def mergeBits (old mask new : Nat) : Nat := (old ^^^ (old &&& mask)) ||| (new &&& mask)

/-- The greater of two binary32 magnitudes: non-negative encodings order as naturals (R22, R53). -/
def maxMag (a b : Nat) : Nat := if a < b then b else a

/-- Let one result land (R24, R27): rows and masks take the bits under the result's mask; FSTAT and MAXMAG merge. -/
def Core.landOne (k : Core) (e : Pend) : Core :=
  match e.target with
  | .g r n => k.setCtx r ((k.ctx r).setG (BitVec.ofNat 5 n) (BitVec.ofNat 64 e.value))
  | .k n => k.setK (BitVec.ofNat 3 n) (BitVec.ofNat 2048 (mergeBits (k.getK (BitVec.ofNat 3 n)).toNat e.mask e.value))
  | .row i => k.setRow i (BitVec.ofNat 16384 (mergeBits (k.row i).toNat e.mask e.value))
  | .side i => k.setSideRow i (BitVec.ofNat 1024 (mergeBits (k.sideRow i).toNat e.mask e.value))
  | .fstat => k.setReg 0x002 (k.reg 0x002 ||| BitVec.ofNat 64 e.value)
  | .maxmag => k.setReg 0x003 (BitVec.ofNat 64 (maxMag (k.reg 0x003).toNat e.value))
  | .divider _ | .quiet _ | .noMerge _ _ | .tile _ | .room => k

/-- Targets whose results merge and never replace one another (R24). -/
def Target.merges : Target → Bool
  | .fstat => true | .maxmag => true | _ => false

/-- Two targets are one register for R27: the scale containers of a tile row are part of that row (R124). -/
def sameReg : Target → Target → Bool
  | .row i, .side j => i == j
  | .side i, .row j => i == j
  | a, b => a == b

/-- A younger result for the same register has landed: an older one that is still under way is discarded (R27). -/
def shadowed (landed : List Target) (t : Target) : Bool := !t.merges && landed.any (sameReg t)

/-- Of two results that land, the younger was ready in an earlier cycle, so the older one is discarded (R27). -/
def overtakenBy (e y : Pend) : Bool :=
  !e.target.merges && sameReg e.target y.target && (match e.ready, y.ready with | some a, some b => decide (b < a) | _, _ => false)

/-- The results among those that land, oldest first, which no younger one of an earlier ready cycle overtakes (R27). -/
def notOvertaken : List Pend → List Pend
  | [] => []
  | e :: es => if es.any (overtakenBy e) then notOvertaken es else e :: notOvertaken es

/-- Land the results that `due` names, oldest first, and discard those that a younger landed result overtakes (R27). -/
def Core.landIf (k : Core) (due : Pend → Bool) : Core :=
  let now := notOvertaken (k.pend.filter due)
  let rest := (k.pend.reverse.foldl
    (fun (acc : List Pend × List Target) e =>
      if due e then (acc.1, e.target :: acc.2)
      else if shadowed acc.2 e.target then acc
      else (e :: acc.1, acc.2)) ([], [])).1
  now.foldl Core.landOne { k with pend := rest }

/-- Land every fixed-latency result that is ready by cycle `u` (R26). -/
def Core.landBy (k : Core) (u : Nat) : Core :=
  if k.pend.isEmpty then k else k.landIf (fun e => match e.ready with | some t => decide (t ≤ u) | none => false)

/-- Land the variable-latency results that an instruction with these operands waits for (R26). -/
def Core.interlock (k : Core) (ts : List Target) : Core :=
  if k.pend.isEmpty then k else k.landIf (fun e => e.ready.isNone && ts.contains e.target)

/-- Land everything (R28, R35). -/
def Core.settle (k : Core) : Core := if k.pend.isEmpty then k else k.landIf (fun _ => true)

/-- Whether a fixed-latency result for one of these targets is still pending (R28). -/
def Core.early (k : Core) (ts : List Target) : Bool := k.pend.any (fun e => e.ready.isSome && ts.contains e.target)

/-- A result for `t` that is ready `lat` cycles from now, or after a variable time (R26). -/
def State.put (s : State) (c : Nat) (t : Target) (mask value : Nat) (lat : Option Nat) : State :=
  s.modCore c (fun k => { k with pend := k.pend ++
    [{ target := t, mask := mask, value := value, ready := lat.map (fun l => s.gtc + l) }] })

/-- A scalar result of the current context (R11, R26). -/
def State.putG (s : State) (d : GReg) (v : Word) (lat : Option Nat) : State :=
  if d = 0 then s else s.put s.cur.core (.g s.cur.role d.toNat) 0 v.toNat lat

/-- The result of a divide of the current context: the divider is in use until it lands, also where G0 discards it (R11, R94). -/
def State.putDivide (s : State) (d : GReg) (v : Word) : State :=
  s.modCore s.cur.core (fun k => { k with pend := k.pend ++
    [{ target := .g s.cur.role d.toNat, mask := 0, value := v.toNat, ready := none, divide := true }] })

/-- The operands of context `r` as its instruction reads them now. -/
def Core.operands (k : Core) (r : Role) : Latch := { g := (k.ctx r).g, k := k.k, rows := k.rows, sel := k.reg 0x001 }

/-- The core as the instruction of context `r` read it when it issued, where it has waited since (R27, R93). -/
def Core.asIssued (k : Core) (r : Role) : Core :=
  match (k.ctx r).latch with
  | none => k
  | some l => ({ k with k := l.k, rows := l.rows, sys := SMap.set 0 k.sys 0x001 l.sel }).setCtx r { k.ctx r with g := l.g }

/-- The current core as the current instruction read it when it issued. -/
def State.issued (s : State) : Core := (s.core s.cur.core).asIssued s.cur.role

/-- Value of a scalar register as the current context read it when its instruction issued (R27, R93). -/
def State.g (s : State) (n : GReg) : Word := (s.issued.ctx s.cur.role).getG n

/-- The scalar register `n` of the current context as a target. -/
def State.gT (s : State) (n : GReg) : Target := .g s.cur.role n.toNat

/-! Physical memory -/

/-- Physical address of scratchpad byte `a` of core `c` (R212). -/
def spAddr (c a : Nat) : Nat := 0x040000000000 + c * 0x400000 + a

/-- What a physical address names (R212). -/
inductive Region where
  | hbm (stack : Nat)
  | tier2 (die : Nat)
  | sram (core off : Nat)
  | decoded (stack off : Nat)
  | window (stack w off : Nat)
  | absent
  deriving DecidableEq, Repr

/-- The package's physical map (R212); an unpopulated part of a stack is absent. -/
def region (pa : Nat) : Region :=
  if pa < 0x008000000000 then
    (if pa % 0x1000000000 < 0xEE6B28000 then .hbm (pa / 0x1000000000) else .absent)
  else if 0x010000000000 ≤ pa ∧ pa < 0x030000000000 then .tier2 ((pa - 0x010000000000) / 0x8000000000)
  else if 0x040000000000 ≤ pa ∧ pa < 0x040000000000 + 320 * 0x400000 then
    .sram ((pa - 0x040000000000) / 0x400000) ((pa - 0x040000000000) % 0x400000)
  else if 0x080000000000 ≤ pa ∧ pa < 0x080000000000 + 8 * 0x4000000000 then
    .decoded ((pa - 0x080000000000) / 0x4000000000) ((pa - 0x080000000000) % 0x4000000000)
  else if 0x0F0000000000 ≤ pa ∧ pa < 0x0F0000000000 + 8 * 0x10000 ∧ (pa - 0x0F0000000000) % 0x10000 < 1024 then
    .window ((pa - 0x0F0000000000) / 0x10000) ((pa - 0x0F0000000000) % 0x10000 / 32) ((pa - 0x0F0000000000) % 32)
  else .absent

/-- Populated HBM4E or tier-2 memory. -/
def isDram (pa : Nat) : Bool := match region pa with | .hbm _ => true | .tier2 _ => true | _ => false

/-- First offset of the SPHOME region of core `c` (R214). -/
def State.sphomeBase (s : State) (c : Nat) : Nat := 0x300000 - ((s.core c).reg 0x200).toNat * 0x10000

/-- Whether offset `off` of the aperture of core `c` lies in its SPHOME region (R212). -/
def State.inSphome (s : State) (c off : Nat) : Bool := decide (s.sphomeBase c ≤ off ∧ off < 0x300000)

/-- A physical address that reads and writes reach: DRAM or SPHOME memory (R212, R219). -/
def State.isMemory (s : State) (pa : Nat) : Bool :=
  match region pa with
  | .hbm _ => true | .tier2 _ => true | .sram c off => s.inSphome c off | _ => false

/-- The bytes at physical addresses, without regard to keys. -/
def State.raw (s : State) (pa n : Nat) : List Byte := SMap.read 0 s.mem pa n
/-- Replace bytes, without regard to keys. -/
def State.setRaw (s : State) (pa : Nat) (bs : List Byte) : State := { s with mem := SMap.write 0 s.mem pa bs }
/-- The key in slot `i`. -/
def State.keyAt (s : State) (i : Nat) : Option Key := SMap.get none s.keys i

/-- Two tags stand for the same key. -/
def sameKey (a b : Key) : Bool := a.serial == b.serial || a.bits == b.bits

/-- Whether line `l` was stored under another key than `key` (R225). -/
def State.foreign (s : State) (key : Option Key) (l : Nat) : Option (Key × Key) :=
  match SMap.get none s.lineKey l, key with
  | some a, some b => if sameKey a b then none else some (a, b)
  | _, _ => none

/-- The 64 bytes of DRAM line `l` as an access under `key` reads them (R225). -/
def State.lineAs (s : State) (key : Option Key) (l : Nat) : List Byte :=
  match s.foreign key l with
  | none => s.raw (64 * l) 64
  | some (a, b) => leBytes 64 (leNat (xtsDecrypt b.bits l (xtsEncrypt a.bits l (s.raw (64 * l) 64))))

/-- The lines that `n` bytes at `pa` touch. -/
def linesOf (pa n : Nat) : List Nat :=
  if n = 0 then [] else (List.range ((pa + n - 1) / 64 - pa / 64 + 1)).map (fun i => pa / 64 + i)

/-- The `n` bytes at `pa` read under key slot `key` (R225). Scratchpad and core SRAM hold plaintext. -/
def State.readKey (s : State) (key pa n : Nat) : List Byte :=
  if isDram pa then
    let k := s.keyAt key
    if (linesOf pa n).all (fun l => (s.foreign k l).isNone) then s.raw pa n
    else (((linesOf pa n).flatMap (s.lineAs k)).drop (pa % 64)).take n
  else s.raw pa n

/-- Write bytes at `pa` under key slot `key`: a line held under another key is first taken over as this key reads it (R225). -/
def State.writeKey (s : State) (key pa : Nat) (bs : List Byte) : State :=
  if isDram pa then
    let k := s.keyAt key
    let ls := linesOf pa bs.length
    let s := ls.foldl (fun s l => if (s.foreign k l).isNone then s else s.setRaw (64 * l) (s.lineAs k l)) s
    { s.setRaw pa bs with lineKey := ls.foldl (fun m l => SMap.set none m l k) s.lineKey }
  else s.setRaw pa bs

/-- Some byte has an uncorrectable error (R385). -/
def State.hasBad (s : State) (pa n : Nat) : Option Nat :=
  if s.bad.isEmpty then none else (List.range n).findSome? (fun i => if SMap.get false s.bad (pa + i) then some (pa + i) else none)

/-- A write of `n` bytes at `pa` overwrites only some of the affected bytes of a 64-bit word (R385). -/
def State.badPartial (s : State) (pa n : Nat) : Option Nat :=
  if s.bad.isEmpty then none
  else
    let words := (List.range ((pa + n - 1) / 8 - pa / 8 + 1)).map (fun i => pa / 8 + i)
    words.findSome? (fun w => (List.range 8).findSome? (fun i =>
      let a := 8 * w + i
      let inside (x : Nat) : Bool := decide (pa ≤ x ∧ x < pa + n)
      if SMap.get false s.bad a && !inside a && (List.range 8).any (fun j => SMap.get false s.bad (8 * w + j) && inside (8 * w + j))
      then some a else none))

/-- A store that overwrites every affected byte of its words clears the error (R385). -/
def State.clearBad (s : State) (pa n : Nat) : State :=
  if s.bad.isEmpty then s else { s with bad := (List.range n).foldl (fun m i => SMap.set false m (pa + i) false) s.bad }

/-! Scratchpad addresses -/

/-- The swizzled address (R32). -/
def swizzle (swz : BitVec 3) (e : Nat) : Nat :=
  if swz = 0 then e
  else e - e / 32 % 64 * 32 + ((e / 32 % 64) ^^^ (e / 2 ^ (10 + swz.toNat) % 64)) * 32

/-- The scratchpad bytes that a context may reach: its launch's reservation, or all for firmware (R31). -/
def State.spRange (s : State) (c : Nat) (r : Role) : Nat × Nat :=
  if r = .F then (0, 0x300000)
  else match s.launchOf c with
    | some l => (l.rcd.spbase, l.rcd.spbase + l.rcd.spsize)
    | none => (0, 0)

/-- The check of R31 on `n` bytes at effective address `e`. -/
def State.spCheck (s : State) (c : Nat) (r : Role) (e : Word) (n align : Nat) : Option Nat :=
  let (lo, hi) := s.spRange c r
  if e.toNat % align ≠ 0 then some 0x06
  else if lo ≤ e.toNat ∧ e.toNat + n ≤ hi ∧ e.toNat + n ≤ 0x300000 then none
  else some 0x05

/-- The scratchpad bytes at effective addresses `e`, …, under a swizzle (R32): whole 32-byte chunks move together. The mode is that of the
access; nothing keeps the mode under which a byte was written (R33). -/
def spPieces (swz : BitVec 3) (e n : Nat) : List (Nat × Nat) :=
  if n = 0 then []
  else if swz = 0 then [(e, n)]
  else (List.range ((e + n - 1) / 32 - e / 32 + 1)).map (fun i =>
    let lo := Nat.max e ((e / 32 + i) * 32)
    let hi := Nat.min (e + n) ((e / 32 + i) * 32 + 32)
    (swizzle swz lo, hi - lo))

/-- Read `n` scratchpad bytes of core `c`. -/
def State.spRead (s : State) (c : Nat) (swz : BitVec 3) (e n : Nat) : List Byte :=
  (spPieces swz e n).flatMap (fun p => s.raw (spAddr c p.1) p.2)

/-- Write pieces of a byte list one after another. -/
def State.writePieces (s : State) (c : Nat) : List (Nat × Nat) → List Byte → State
  | [], _ => s
  | p :: ps, bs => State.writePieces (s.setRaw (spAddr c p.1) (bs.take p.2)) c ps (bs.drop p.2)

/-- Write scratchpad bytes of core `c`. -/
def State.spWrite (s : State) (c : Nat) (swz : BitVec 3) (e : Nat) (bs : List Byte) : State :=
  s.writePieces c (spPieces swz e bs.length) bs

/-! Code addresses -/

/-- A code address: bits [2:0] zero, canonical (R12). -/
def isCode (w : Word) : Bool := w.toNat % 8 == 0 && (w.extractLsb' 0 56).signExtend 64 == w

/-- The code address that sequential advance reaches: bits [63:56] equal bit 55 (R12; DEDUCED, log 100). -/
def canonPc (w : Word) : Word := (w.extractLsb' 0 56).signExtend 64

/-- The address of the next instruction word. -/
def nextPc (pc : Word) : Word := canonPc (pc + 8)

/-! Reports and exceptions -/

/-- Post a report to the firmware of core `c` (R374). -/
def State.report (s : State) (c : Nat) (r : Report) : State :=
  s.modCore c (fun k => { k with reports := k.reports ++ [{ r with at_ := s.gtc }] })

/-- The context no longer has an instruction that has issued and waits (R118). -/
def Ctx.drop (x : Ctx) : Ctx := { x with wait := none, made := false, latch := none }

/-- The pops of the instruction at `pc` stay made: TOKSTAT.PHELD, for the instruction at that address (R118). -/
def Ctx.holdPops (x : Ctx) (pc : Word) : Ctx :=
  if x.made then
    { x.drop with sys := SMap.set 0 x.sys 0x100 (x.reg 0x100 ||| 2), heldPc := if x.heldPc.contains pc then x.heldPc else x.heldPc ++ [pc] }
  else x.drop

/-- A trio context stops where it stands; a sleeping instruction keeps its pops in TOKSTAT.PHELD (R118, R165). -/
def Ctx.stop (x : Ctx) : Ctx :=
  if x.run = .running ∨ x.run = .sleeping then { x.holdPops x.pc with run := .stopped } else x

/-- Every trio context of core `c` stops (R165). -/
def State.stopTrio (s : State) (c : Nat) : State :=
  s.modCore c (fun k => { k with ctxL := k.ctxL.stop, ctxC := k.ctxC.stop, ctxS := k.ctxS.stop })

/-- The context stands at its safe point: it has passed SAFE, or was forced, and the pushes of SAFE have been made (R206). -/
def Ctx.atSafe (x : Ctx) : Bool := x.safe && (x.push.isEmpty || x.forced)

/-- The addresses that TOKSTAT.PHELD stands for when a stopped context goes on: none where it is clear; outside a delegated handler the PC as it
stands now, which firmware may have changed (R118, R376); inside one what it stood for, and after CTXLOAD, which keeps the bit alone, the
instruction at UEPC (DESIGN CHOICE, log 101). -/
def Ctx.heldAt (x : Ctx) : List Word :=
  if !Nat.testBit (x.reg 0x100).toNat 1 then []
  else if !Nat.testBit (x.reg 0x412).toNat 62 then [x.pc]
  else if x.heldPc.isEmpty then [x.reg 0x411] else x.heldPc

/-- A stopped context goes on (R165, R377), unless it stands at its safe point (R206). -/
def Ctx.resume (x : Ctx) : Ctx :=
  if x.run = .stopped ∧ ¬ x.atSafe then { x with run := .running, heldPc := x.heldAt } else x

/-- Which delegation bit a cause has (R373). -/
def delegBit : Nat → Option Nat
  | 0x04 => some 0 | 0x22 => some 1 | 0x31 => some 2 | 0x32 => some 3 | 0x33 => some 4 | _ => none

/-- Whether a trap of context `r` of core `c` with this cause goes to the context's user handler (R379). -/
def State.delegated (s : State) (c : Nat) (r : Role) (cause : Nat) : Bool :=
  match delegBit cause with
  | none => false
  | some b =>
    r != .F && Nat.testBit ((s.core c).reg 0x405).toNat b && (s.ctx c r).reg 0x410 != 0 &&
      !Nat.testBit ((s.ctx c r).reg 0x412).toNat 62

/-- The delegated transfer (R381). -/
def State.delegate (s : State) (c : Nat) (r : Role) (cause sub : Nat) (val pc : Word) : State :=
  s.modCtx c r (fun x =>
    let x := x.setReg 0x411 pc
    let x := x.setReg 0x412 (BitVec.ofNat 64 (2 ^ 62 + sub * 256 + cause))
    let x := x.setReg 0x413 val
    let x := x.holdPops pc
    { x with pc := x.reg 0x410, nextIssue := s.gtc + 4, run := .running })

/-- Remove the walkers of a launch (R165). -/
def State.emptyWalkers (s : State) (q : Nat) : State :=
  let clear (w : Walker) : Walker := if w.launch = q then { w with lo := w.hi } else w
  { s with quires := s.quires.map (fun p => (p.1, { p.2 with walkers := p.2.walkers.map clear })) }

/-- A trio leaves its core: its contexts have ended and the core is free (R164, R174). -/
def State.endTrio (s : State) (c : Nat) : State :=
  let q := (s.core c).launch
  let s := s.modCore c (fun k =>
    let k := k.settle
    let off (x : Ctx) : Ctx := { x.drop with run := .ended, push := [], ending := none }
    { k with launch := 0, ctxL := off k.ctxL, ctxC := off k.ctxC, ctxS := off k.ctxS })
  s.modLaunch q (fun l => { l with ended := l.ended ++ [c] })

/-- Kill a launch (R165): every trio of it ends, no core enters it, its walkers are emptied. -/
def State.killLaunch (s : State) (q : Nat) (cause sub : Nat) (val : Word) : State :=
  match s.launch? q with
  | none => s
  | some l =>
    if l.killed.isSome then s
    else
      let s := s.modLaunch q (fun l => { l with killed := some (cause, sub, val) })
      let s := s.emptyWalkers q
      let s := (s.cores.filter (fun p => p.2.launch == q)).foldl (fun s p =>
        (s.modCore p.1 (fun k => { k with held := [], replay := [] })).endTrio p.1) s
      { s with preempt := s.preempt.filter (fun p => p.victim != q) }

/-- The physical core behind an architectural one: as the dawn mapped it, else the core of the same place in its quire (R7). -/
def State.physOf (s : State) (c : Nat) : Nat :=
  match s.coreMap.find? (fun p => p.1 == c) with
  | some p => p.2
  | none => 9 * (c / 8) + c % 8

/-- The core has failed (R378, R460): it stops, the host is told, and every launch that holds the core is killed. -/
def State.coreFail (s : State) (c cause : Nat) (val : Word) : State :=
  let s := s.modCore c (fun k =>
    { k with failed := true, ctxF := { k.ctxF with run := .failed }, ctxL := k.ctxL.stop, ctxC := k.ctxC.stop,
             ctxS := k.ctxS.stop })
  let s := { s.tell (.coreFailed c) with failedLog := s.failedLog ++ [s.physOf c] }
  let holders := s.launches.filter (fun l => l.state == .running && (Nat.testBit l.rcd.qmask (quireOf c)))
  holders.foldl (fun s l => s.killLaunch l.seq cause 0 val) s

/-- HND of ECAUSE (R373). -/
def Core.hnd (k : Core) : Bool := Nat.testBit (k.reg 0x402).toNat 63

/-- Results of the older instructions of context `r`: only C writes masks, rows and sticky state (R157). -/
def landsFor (r : Role) (e : Pend) : Bool :=
  match e.target with
  | .g q _ => q == r
  | _ => r == .C

/-- TAKING AN EXCEPTION at an instruction of context `r` of core `c` (R165, R374, R378 to R381). `pc` is the resumption
PC. The context's state is as the instruction found it and older results have landed (R28); delegable traps go to the user
handler; a trap of firmware is delivered to itself or is a double fault; any other stops the trio and becomes a report. -/
def State.takeTrap (s : State) (c : Nat) (r : Role) (cause sub : Nat) (val other pc : Word) : State :=
  let s := s.modCore c (fun k => k.landIf (landsFor r))
  if s.delegated c r cause then s.delegate c r cause sub val pc
  else
    let s := s.modCtx c r (fun x => { x with pc := pc })
    let s := if r = .F then s.modCtx c .F (fun x => { x.drop with run := if x.run = .sleeping then .running else x.run }) else s
    let rep : Report :=
      { cause := cause, sub := sub, src := 0, ctx := roleNum r, val := val, other := other, stop := r != .F, precise := true,
        launch := if r = .F then 0 else (s.core c).launch }
    if r = .F then
      if (s.core c).hnd || (s.core c).reg 0x400 == 0 then s.coreFail c cause val
      else s.report c rep
    else ((s.modCore c Core.settle).stopTrio c).report c rep

end Sys2Proof.Machine
end

