-- ==== Sys2Proof/Machine/Sync.lean ====
section
/-! DEFINITION. The memory consistency model (spec 12): agents and scope instances, happens-before as vector clocks,
releases and acquires, regions, conflicts, held lines and access paths. -/
namespace Sys2Proof.Machine

/-- A number that tells agents apart. -/
def Agent.code : Agent → Nat
  | .ctx c r e => 6 * (c + 512 * (roleNum r + 4 * e))
  | .cmd c n q => 6 * (c + 512 * (n + 8 * q)) + 1
  | .port c n => 6 * (c + 2 ^ 20 * n) + 2
  | .coll d n => 6 * (d + 4 * n) + 3
  | .qp d => 6 * d + 4
  | .launch q => 6 * q + 5

/-- The strand of a port's pulls from producer core `pod`: segments from one die land in the order of their requests (R234, R355). -/
def strandOf (pod : Nat) : Nat := 1 + 4 * (pod / 512) + dieOf (pod % 512)

/-- The gathering port of another package, by its pod core id: an agent whose accesses reach this package as pulls. -/
def farPort (pod : Nat) : Agent := .port (Config.nCores + pod) 0
/-- An agent that lies in another package. -/
def Agent.far : Agent → Bool
  | .port c _ => decide (Config.nCores ≤ c) | _ => false

/-- The core that an agent belongs to; none for agents of a die, of a launch or of another package (R230). -/
def Agent.core? : Agent → Option Nat
  | .ctx c _ _ => some c | .cmd c _ _ => some c
  | .port c _ => if c < Config.nCores then some c else none
  | _ => none

/-- The access path of an agent (R247). A queue processor and a launch's completion signal, which R247 does not name, access memory along the
core path (DESIGN CHOICE, log 102). -/
def Agent.path : Agent → Path
  | .ctx .. => .core
  | .cmd _ n _ => match n with | 0 => .copy | 1 => .mtx | 2 => .mtx | 3 => .gath | _ => .coll
  | .port _ _ => .gath
  | .coll _ _ => .coll
  | .qp _ => .core
  | .launch _ => .core

/-- The agent that a context is now (R230). -/
def State.agentNow (s : State) (c : Nat) (r : Role) : Agent := .ctx c r (if r = .F then 0 else (s.core c).epoch)
/-- The agent that the current context is. -/
def State.me (s : State) : Agent := s.agentNow s.cur.core s.cur.role

/-- The instance of level `sc` that contains core `c` (R231). -/
def instOf (sc : Scope) (c : Nat) : Nat :=
  match sc with
  | .core => c | .quire => quireOf c | .vol => volOf c | .pkg => 0 | .pod => 0

/-- A core that lies in an instance. -/
def instCore (sc : Scope) (i : Nat) : Nat :=
  match sc with
  | .core => i | .quire => 8 * i | .vol => 40 * i | .pkg => 0 | .pod => 0

/-- The smallest instance that contains an agent: its core, or the package for agents of a die (R230, R231). -/
def agentHome (a : Agent) : Scope × Nat :=
  match a.core? with
  | some c => (.core, c)
  | none => (if a.far then .pod else .pkg, 0)

/-- Whether instance `i` contains instance `h` (R231). -/
def covers (i h : Scope × Nat) : Bool := decide (scopeNum h.1 ≤ scopeNum i.1) && instOf i.1 (instCore h.1 h.2) == i.2

/-- Whether instance `i` of level `sc` contains agent `a` (R231). -/
def contains (sc : Scope) (i : Nat) (a : Agent) : Bool := covers (sc, i) (agentHome a)

/-- The instance of `sc` for an agent's synchronisation: agents of a die use the package or the pod (R231). -/
def agentInst (sc : Scope) (a : Agent) : Scope × Nat :=
  match a.core? with
  | some c => (sc, instOf sc c)
  | none => (if sc = .pod ∨ a.far then .pod else .pkg, 0)

/-- The scopes from narrow to wide. -/
def allScopes : List Scope := [.core, .quire, .vol, .pkg, .pod]

/-- The smallest instance that contains two instances (R244). -/
def joinInst (a b : Scope × Nat) : Scope × Nat :=
  let ca := instCore a.1 a.2
  let cb := instCore b.1 b.2
  let sc := (allScopes.find? (fun sc => decide (scopeNum a.1 ≤ scopeNum sc) && decide (scopeNum b.1 ≤ scopeNum sc) &&
    instOf sc ca == instOf sc cb)).getD .pod
  (sc, instOf sc ca)

/-- The smallest scope whose instance at core `c` contains all of `cs`. -/
def smallestScope (c : Nat) (cs : List Nat) : Scope :=
  (allScopes.find? (fun sc => cs.all (fun x => instOf sc x == instOf sc c))).getD .pod

/-- The wider of two scopes. -/
def widerScope (a b : Scope) : Scope := if scopeNum a < scopeNum b then b else a

/-! Clocks -/

/-- Point-wise maximum of two tables of times. -/
def joinTimes (a b : SMap Nat) : SMap Nat := b.foldl (fun m p => SMap.set 0 m p.1 (Nat.max (SMap.get 0 m p.1) p.2)) a

/-- Join of happens-before knowledge. -/
def Clock.join (a b : Clock) : Clock :=
  { vc := joinTimes a.vc b.vc
    xc := b.xc.foldl (fun m p => SMap.set [] m p.1 (joinTimes (SMap.get [] m p.1) p.2)) a.xc }

/-- Code of an unordered pair of access paths (R269). -/
def pairCode (p q : Path) : Nat :=
  let a := pathNum p
  let b := pathNum q
  if a < b then 8 * a + b else 8 * b + a

/-- What agent `a` knows. -/
def State.clockOf (s : State) (a : Agent) : Clock := SMap.get {} s.order.clocks a.code
/-- Set what agent `a` knows. -/
def State.setClock (s : State) (a : Agent) (k : Clock) : State :=
  { s with order := { s.order with clocks := SMap.set {} s.order.clocks a.code k } }
/-- The time that an access of agent `a` bears now. -/
def State.timeOf (s : State) (a : Agent) : Nat := SMap.get 0 (s.clockOf a).vc a.code + 1

/-- The holding instance of a line after a release of an instance (R244); none where nothing holds it any more. -/
def HeldLine.widened (h : HeldLine) (inst : Scope × Nat) : Option HeldLine :=
  let j := joinInst (h.level, h.inst) inst
  if j.1 = .pod then none else some { h with level := j.1, inst := j.2 }

/-- Widen every held line of level `least` or wider that a release with this clock and instance covers (R244). -/
def State.widenFrom (s : State) (least : Scope) (k : Clock) (inst : Scope × Nat) : State :=
  if s.order.held.isEmpty then s
  else
    let grow (h : HeldLine) : Option HeldLine :=
      if h.time ≤ SMap.get 0 k.vc h.agent.code ∧ scopeNum least ≤ scopeNum h.level then h.widened inst else some h
    { s with order := { s.order with held := s.order.held.filterMap grow } }

/-- Widen every held line that a release with this clock and instance covers (R244). -/
def State.widen (s : State) (k : Clock) (inst : Scope × Nat) : State := s.widenFrom .core k inst

/-- What `k` covers on the other paths counts on path `p` too, as an XFENCE for each of them would order it (R248). -/
def Clock.onto (k : Clock) (p : Path) (others : List Path) : Clock :=
  others.foldl (fun k o =>
    let code := pairCode o p
    { k with xc := SMap.set [] k.xc code (joinTimes (SMap.get [] k.xc code) k.vc) }) k

/-- Key of an agent's knowledge at a scope. -/
def wideKey (a : Agent) (sc : Scope) : Nat := 8 * a.code + scopeNum sc

/-- What agent `a` has performed, released or acquired at scope `sc` or wider (R177); at `.core` all that it knows. -/
def State.knownAt (s : State) (a : Agent) (sc : Scope) : Clock :=
  if sc = .core then s.clockOf a else SMap.get {} s.order.wide (wideKey a sc)

/-- Agent `a` releases or acquires at scope `sc` what `k` covers: it is known at that scope and at every narrower one (R177). -/
def State.learn (s : State) (a : Agent) (sc : Scope) (k : Clock) : State :=
  [Scope.quire, .vol].foldl (fun (s : State) w =>
    if scopeNum w ≤ scopeNum sc then
      { s with order := { s.order with wide := SMap.set {} s.order.wide (wideKey a w) ((s.knownAt a w).join k) } }
    else s) s

/-- The scope at which an agent performs its ordinary accesses: WSCOPE of a context, the scope that a command carries (R243). -/
def State.scopeFor (s : State) (a : Agent) : Scope :=
  match a with
  | .ctx c r _ => (scopeOf ((s.ctx c r).reg 0x210).toNat).getD .core
  | .cmd c n q => (((((s.core c).chain n).cmds.find? (fun e => e.seq == q)).map (·.scope))).getD .core
  | _ => .core

/-- Agent `a` performs an access: with it, what `a` has done so far counts as performed at the scope of the access (R177; DESIGN CHOICE,
log 91). -/
def State.performed (s : State) (a : Agent) : State :=
  s.learn a (s.scopeFor a) { vc := [(a.code, s.timeOf a)] }

/-- End the region of a context agent (R236). -/
def State.endRegion (s : State) (a : Agent) : State :=
  match a with
  | .ctx c r _ => s.modCtx c r (fun x => { x with region := [] })
  | _ => s

/-- What agent `a` knows now, its own accesses included; its later accesses are told apart from these. -/
def State.stamp (s : State) (a : Agent) : State × Clock :=
  let k := s.clockOf a
  let k := { k with vc := SMap.set 0 k.vc a.code (s.timeOf a) }
  (s.setClock a k, k)

/-- A release by agent `a` in an instance: what it covers is the answered clock; held lines widen, the region ends. -/
def State.releaseIn (s : State) (a : Agent) (inst : Scope × Nat) : State × Clock :=
  let (s, k) := s.stamp a
  (((s.endRegion a).learn a inst.1 k).widen k inst, k)

/-- A release by agent `a` at scope `sc` (R231, R232). -/
def State.release (s : State) (a : Agent) (sc : Scope) : State × Clock := s.releaseIn a (agentInst sc a)

/-- An acquire by agent `a`, at scope `sc`, of what a release covered (R233). -/
def State.acquire (s : State) (a : Agent) (k : Clock) (sc : Scope := .pod) : State :=
  (((s.setClock a ((s.clockOf a).join k)).endRegion a).learn a sc k)

/-- Both containments of R233: the release's instance `inst`, made by an agent of `home`, and an acquire of agent `y` at `sy`. -/
def meets (inst home : Scope × Nat) (y : Agent) (sy : Scope) : Bool :=
  contains inst.1 inst.2 y && covers (agentInst sy y) home

/-- Both containments of R233, for a release of agent `x` at `sx` and an acquire of agent `y` at `sy`. -/
def pairs (x : Agent) (sx : Scope) (y : Agent) (sy : Scope) : Bool := meets (agentInst sx x) (agentHome x) y sy

/-- Spans overlap. -/
def overlap (a n b m : Nat) : Bool := decide (a < b + m) && decide (b < a + n)

/-- Record a release at a location, of instance `inst` by an agent of `home` (R233). -/
def State.addReleaseIn (s : State) (lo len : Nat) (inst home : Scope × Nat) (k : Clock) : State :=
  { s with order := { s.order with
      serial := s.order.serial + 1
      releases := s.order.releases ++ [{ serial := s.order.serial, lo := lo, len := len, inst := inst, home := home, clock := k }] } }

/-- Record a release of agent `a` at scope `sc` at a location (R233). -/
def State.addRelease (s : State) (lo len : Nat) (a : Agent) (sc : Scope) (k : Clock) : State :=
  s.addReleaseIn lo len (agentInst sc a) (agentHome a) k

/-- An acquire by `a` at `sc` that reads `n` bytes at `lo`: it observes the releases written there before `bound` (R233). -/
def State.acquireAt (s : State) (a : Agent) (sc : Scope) (lo n bound : Nat) : State :=
  let rs := s.order.releases.filter (fun r => overlap r.lo r.len lo n && decide (r.serial < bound) && meets r.inst r.home a sc)
  s.acquire a (rs.foldl (fun k r => k.join r.clock) {}) sc

/-- XFENCE by agent `a` naming two paths (R248, R269). -/
def State.xfence (s : State) (a : Agent) (p q : Path) : State :=
  let k := s.clockOf a
  let t := s.timeOf a
  let own := SMap.set 0 k.vc a.code t
  let k := { vc := own, xc := SMap.set [] k.xc (pairCode p q) (joinTimes (SMap.get [] k.xc (pairCode p q)) own) }
  s.setClock a k

/-! Accesses -/

/-- Why an access is not made now. -/
inductive Clash where
  /-- the exception of R239, with the line and the other agent -/
  | conflict (line : Nat) (other : Agent)
  /-- a retry of R245 -/
  | retry (line : Nat) (other : Agent)
  deriving DecidableEq, Repr

/-- The accesses of one operation: byte spans of physical addresses. `home` is the smallest instance that contains the agent, where it is not
the agent's own core or package: a launch as a whole (R170). -/
structure Touch where
  agent : Agent
  write : Bool
  sync : Bool
  spans : List (Nat × Nat)
  home : Option (Scope × Nat) := none
  deriving DecidableEq, Repr

/-- The smallest instance that contains the agent of an access. -/
def Touch.at (t : Touch) : Scope × Nat := t.home.getD (agentHome t.agent)

/-- A PULLREL returned the bytes of an access: it is performed before every later landing of the core's port, and the PULLREL is an XFENCE naming
`core` and `gath` for those bytes (R360). -/
def State.returnedBefore (s : State) (x : Access) (a : Agent) : Bool :=
  match x.returned with
  | some (p, t) => p.core?.any (fun c => match a with | .port d _ => d == c | _ => false) ||
    ((a.path == .core || a.path == .gath) && (p == a || decide (t ≤ SMap.get 0 (s.clockOf a).vc p.code)))
  | none => false

/-- What a clock says of an access: it happens before what is done on path `p` with that knowledge (R234, R248). -/
def Clock.knows (k : Clock) (x : Access) (p : Path) : Bool :=
  if x.path = p then decide (x.time ≤ SMap.get 0 k.vc x.agent.code)
  else decide (x.time ≤ SMap.get 0 (SMap.get [] k.xc (pairCode x.path p)) x.agent.code)

/-- Whether an earlier access happens before everything that agent `a` does now (R234, R248). -/
def State.ordered (s : State) (x : Access) (a : Agent) : Bool :=
  x.agent == a || s.returnedBefore x a || (s.clockOf a).knows x a.path

/-- Mask of the bytes of line `l` that a span touches. -/
def lineMask (l lo n : Nat) : BitVec 64 :=
  let a := Nat.max lo (64 * l)
  let b := Nat.min (lo + n) (64 * l + 64)
  if a < b then BitVec.ofNat 64 ((2 ^ (b - a) - 1) * 2 ^ (a - 64 * l)) else 0

/-- Bytes of a line that the access touches. -/
def Touch.mask (t : Touch) (l : Nat) : BitVec 64 := t.spans.foldl (fun m p => m ||| lineMask l p.1 p.2) 0

/-- Whether held bytes keep out an agent that lies in instance `home` and asks for the bytes under `m` (R245). -/
def HeldLine.keepsOut (h : HeldLine) (a : Agent) (home : Scope × Nat) (m : BitVec 64) : Bool :=
  m &&& h.mask != 0 && !covers (h.level, h.inst) home && h.agent != a

/-- What held bytes answer to the access: a conflict of any of them, else a retry (R245). -/
def State.heldClash (s : State) (t : Touch) : Option Clash :=
  if s.order.held.isEmpty then none
  else
    let hs := s.order.held.filter (fun h => h.keepsOut t.agent t.at (t.mask h.line))
    ((hs.find? (fun h => !(t.sync && h.sync))).map (fun h => Clash.conflict h.line h.agent)).orElse (fun _ =>
      hs.head?.map (fun h => Clash.retry h.line h.agent))

/-- The first earlier access with which the access conflicts (R237). So too the unordered pair of the last row of R117, STS then SEV and LDS
after WFE: the LDS raises 0x22 here (DEDUCED from R238, R239 and R249, log 99). -/
def State.raceClash (s : State) (t : Touch) : Option Clash :=
  t.spans.findSome? (fun p => s.order.accesses.findSome? (fun x =>
    if overlap x.lo x.len p.1 p.2 && (x.write || t.write) && !(x.sync && t.sync) && !s.ordered x t.agent then
      some (.conflict (Nat.max x.lo p.1 / 64) x.agent)
    else none))

/-- A contribution as an access of its agent. -/
def Contribution.access (k : Contribution) (line : Nat) : Access :=
  { agent := k.agent, time := SMap.get 0 k.clock.vc k.agent.code, path := k.agent.path, write := true, sync := true,
    lo := 64 * line, len := 64 }

/-- An ordinary access to a line whose contribution counter is open conflicts with its round, whoever makes it (R267; DEDUCED, log 93). -/
def State.roundClash (s : State) (t : Touch) : Option Clash :=
  if t.sync || s.order.counters.isEmpty then none
  else s.order.counters.findSome? (fun p =>
    if t.spans.any (fun q => overlap (64 * p.1) 64 q.1 q.2) then
      ((p.2.applied ++ p.2.waiting).head?).map (fun k => .conflict p.1 k.agent)
    else none)

/-- A requester waits still: the unit that records its refused access does (R245). -/
def State.stillWaits (s : State) (a : Agent) : Bool :=
  match a with
  | .ctx c r _ => match (s.ctx c r).wait with
    | some (.retry _ _) => (s.ctx c r).run == .sleeping && s.agentNow c r == a
    | _ => c == 0 && r == .F && (!s.kicks.isEmpty || s.dies.any (fun d => d.2.wakes.any (fun w => w.1 == a)))
  | .cmd c n q => match ((s.core c).chain n).run with
    | some x => x.seq == q && x.refused.isSome
    | none => false
  | .port c _ => (s.core c).port.pulls.any (fun p => p.refused.isSome) ||
    (s.core c).port.pubs.any (fun p => p.2.any (fun b => b.doneSince.isSome))
  | .coll d _ => (s.die d).firings.any (fun f => f.refused.isSome) ||
    (List.range 80).any (fun i => (s.core (80 * d + i)).port.pulls.any (fun p => p.refused.isSome))
  | .qp d => s.preempt.isSome || s.launches.any (fun l => l.qSince.isSome) || !(s.die d).owed.isEmpty || !(s.die d).failing.isEmpty || (s.die d).stuck || !(s.die d).wakes.isEmpty || !(s.die d).slips.isEmpty || (s.die d).queues.any (fun q => q.refused.isSome) ||
    (s.die d).signals.any (fun x => x.refused.isSome)
  | .launch q => match s.launch? q with
    | some l => l.sigSince.isSome
    | none => false

/-- No held byte refuses a waiter any more. -/
def State.admitted (s : State) (w : Waiter) : Bool :=
  !s.order.held.any (fun h => h.line == w.line && h.keepsOut w.agent w.home w.mask)

/-- A requester that has been refused waits for those that were refused before it at the same line and are admitted now (R246). -/
def State.turnClash (s : State) (t : Touch) : Option Clash :=
  if s.order.waiters.isEmpty then none
  else (s.order.waiters.filter (fun w => w.agent == t.agent && t.mask w.line != 0)).findSome? (fun mine =>
    (s.order.waiters.find? (fun w => w.line == mine.line && decide (w.since < mine.since) && s.stillWaits w.agent && s.admitted w)).map
      (fun w => .retry w.line w.agent))

/-- Whether the access may be made: the home decides held bytes first, then conflicts, then the order of those that waited (R239, R245,
R246, R267). -/
def State.clash (s : State) (t : Touch) : Option Clash :=
  (((s.heldClash t).orElse fun _ => s.raceClash t).orElse fun _ => s.roundClash t).orElse fun _ => s.turnClash t

/-- The access is refused at a line since a cycle: it keeps its age (R246). -/
def State.refuse (s : State) (t : Touch) (line since : Nat) : State :=
  let w : Waiter := { agent := t.agent, home := t.at, line := line, mask := t.mask line, since := since }
  if s.order.waiters.contains w then s
  else
    let rest := s.order.waiters.filter (fun w => !(w.agent == t.agent && w.line == line))
    { s with order := { s.order with waiters := rest ++ [w] } }

/-- Since when the agent of an access has been refused at a line, this cycle included (R245). -/
def State.refusedAt (s : State) (a : Agent) (line : Nat) : Nat :=
  ((s.order.waiters.find? (fun w => w.agent == a && w.line == line)).map (·.since)).getD s.gtc

/-- An agent that waits for nothing any more has no refused access. -/
def State.calm (s : State) (a : Agent) : State :=
  if s.stillWaits a then s else { s with order := { s.order with waiters := s.order.waiters.filter (fun w => w.agent != a) } }

/-- Count the lines of a context's region and end it where it would exceed RDCTL.FLIM (R240). -/
def State.footprint (s : State) (t : Touch) : State :=
  match t.agent with
  | .ctx c r _ =>
    let lines := (t.spans.flatMap (fun p => linesOf p.1 p.2)).eraseDups
    s.modCtx c r (fun x =>
      let all := (x.region ++ lines).eraseDups
      if ((s.core c).reg 0x211).toNat < all.length then
        { x with region := lines, sys := SMap.set 0 x.sys 0x212 (BitVec.ofNat 64 (((x.reg 0x212).toNat + 1) % 2 ^ 32)) }
      else { x with region := all })
  | _ => s

/-- Record an admitted access (R237); its requester waits no more. -/
def State.record (s : State) (t : Touch) : State :=
  let s := s.footprint t
  let mk (p : Nat × Nat) : Access :=
    { agent := t.agent, time := s.timeOf t.agent, path := t.agent.path, write := t.write, sync := t.sync, lo := p.1, len := p.2 }
  let new := t.spans.map mk
  let old := s.order.accesses.filter (fun x => !(new.any (fun y =>
    x.agent == y.agent && x.write == y.write && x.sync == y.sync && x.lo == y.lo && x.len == y.len)))
  let s := s.performed t.agent
  { s with order := { s.order with
      accesses := old ++ new, waiters := s.order.waiters.filter (fun w => !(w.agent == t.agent && t.mask w.line != 0)) } }

/-- Written bytes become held by an instance, or are held no longer with none or the pod (R243). -/
def State.holdIn (s : State) (t : Touch) (inst : Option (Scope × Nat)) : State :=
  let cut (h : HeldLine) : Option HeldLine :=
    let left := h.mask &&& ~~~(t.mask h.line)
    if left = 0 then none else some { h with mask := left }
  let kept := s.order.held.filterMap cut
  let fresh := match inst with
    | none => []
    | some (.pod, _) => []
    | some (sc, i) =>
      (t.spans.flatMap (fun p => linesOf p.1 p.2)).eraseDups.map (fun l =>
        { line := l, mask := t.mask l, level := sc, inst := i, agent := t.agent, time := s.timeOf t.agent, sync := t.sync : HeldLine })
  { s with order := { s.order with held := kept ++ fresh } }

/-- Written bytes become held at scope `sc` of the agent that wrote them (R243). -/
def State.hold (s : State) (t : Touch) (sc : Option Scope) : State := s.holdIn t (sc.map (fun sc => agentInst sc t.agent))

/-- Forget the accesses and holdings of a span: its bytes are set anew by the device (R34). -/
def State.forget (s : State) (lo n : Nat) : State :=
  { s with order := { s.order with accesses := s.order.accesses.filter (fun x => !overlap x.lo x.len lo n) } }

/-- The other agent as EOTHER codes it (R373). -/
def State.agentWord (s : State) (a : Agent) : Word :=
  match a with
  | .ctx c r _ => BitVec.ofNat 64 (roleNum r * 2 ^ 18 + s.podId c)
  | .cmd c n _ => BitVec.ofNat 64 (n * 2 ^ 20 + 1 * 2 ^ 16 + s.podId c)
  | .port c _ => BitVec.ofNat 64 (2 * 2 ^ 16 + (if c < Config.nCores then s.podId c else c - Config.nCores))
  | .coll d _ => BitVec.ofNat 64 (3 * 2 ^ 16 + s.podId (80 * d))
  | .qp d => BitVec.ofNat 64 (s.podId (80 * d))
  | .launch _ => 0

end Sys2Proof.Machine
end

