-- ==== Sys2Proof/Machine/Translate.lean ====
section
/-! DEFINITION. Translation, homes, TLBs, format windows, pinned blocks and physical reads and writes (spec 11, 17 R347,
20 R385). -/
namespace Sys2Proof.Machine

/-- A fault of an access: cause and subcause (R220, R253). -/
structure AFault where
  cause : Nat
  sub : Nat := 0
  /-- address that the report names, where it is not the virtual address -/
  val : Option Nat := none
  other : Word := 0
  deriving DecidableEq, Repr

/-! Format windows (R226, R227) -/

/-- Physical address of the descriptor of window `w` of stack `st` (R212). -/
def windowAddr (st w : Nat) : Nat := 0x0F0000000000 + st * 0x10000 + w * 32

/-- Word `i` of a window descriptor. -/
def State.winWord (s : State) (st w i : Nat) : Nat := leNat (s.raw (windowAddr st w + 8 * i) 8)

/-- Size in bits of a stored element (R226, R227). -/
def sfmtEty : Nat → Option ETy
  | 0 => some .e2m1 | 1 => some .e4m3 | 2 => some .ds8 | _ => none
/-- The decoded format (R226). -/
def dfmtEty : Nat → Option ETy
  | 0 => some .e4m3 | 1 => some .bf16 | 2 => some .f32 | _ => none

/-- Whether `[a, a + n)` lies in the populated bytes of stack `st`. -/
def inStack (st a n : Nat) : Bool :=
  decide (st * 0x1000000000 ≤ a) && decide (a + n ≤ st * 0x1000000000 + 0xEE6B28000)

/-- Whether a descriptor may be enabled (R226). Its list of invalid fields does not name VBASE and SCBASE, whose limits its table gives: a write that
sets EN over a VBASE that is no multiple of 64 KiB, or an odd SCBASE, leaves EN clear too (DESIGN CHOICE, log 106). -/
def windowValid (st d vbase sbase scbase : Nat) : Bool :=
  let vsize := d / 2 ^ 16 % 2 ^ 32
  match sfmtEty (d / 4 % 4), dfmtEty (d / 16 % 4) with
  | some sf, some df =>
    let elems := vsize * 0x10000 * 8 / etyBits df
    d / 2 ^ 61 == 0 && d / 64 % 1024 == 0 && d / 2 % 2 == 0 && !(sf == .e4m3 && df == .e4m3) && vsize != 0 &&
      vbase % 0x10000 == 0 && scbase % 2 == 0 &&
      inStack st sbase ((elems * etyBits sf + 7) / 8) && inStack st scbase (2 * ((elems + 31) / 32))
  | _, _ => false

/-- Write word `i` of window `w` of stack `st` (R226). -/
def State.windowWrite (s : State) (st w i : Nat) (v : Word) : State :=
  let old := s.winWord st w 0
  if old % 2 = 1 then
    (if i = 0 then s.setRaw (windowAddr st w) (leBytes 8 (old - 1 + v.toNat % 2)) else s)
  else
    let s1 := s.setRaw (windowAddr st w + 8 * i) (leBytes 8 v.toNat)
    let d := s1.winWord st w 0
    if i = 0 ∧ d % 2 = 1 ∧ ¬ windowValid st d (s1.winWord st w 1) (s1.winWord st w 2) (s1.winWord st w 3) then
      s1.setRaw (windowAddr st w) (leBytes 8 (d - 1))
    else s1

/-- The lowest-numbered enabled window of stack `st` that covers offset `off` of the decoded aperture (R226). -/
def State.windowAt (s : State) (st off : Nat) : Option Nat :=
  (List.range 32).find? (fun w =>
    let d := s.winWord st w 0
    let vb := s.winWord st w 1
    d % 2 == 1 && decide (vb ≤ off) && decide (off < vb + d / 2 ^ 16 % 2 ^ 32 * 0x10000))

/-- One decoded byte (R227). -/
def State.decodedByte (s : State) (st off : Nat) : Byte :=
  match s.windowAt st off with
  | none => 0
  | some w =>
    let d := s.winWord st w 0
    match sfmtEty (d / 4 % 4), dfmtEty (d / 16 % 4) with
    | some sf, some df =>
      let key := d / 2 ^ 48 % 2 ^ 13
      let v := off - s.winWord st w 1
      let k := v / (etyBits df / 8)
      let bit := k * etyBits sf
      let q := (s.readKey key (s.winWord st w 2 + bit / 8) 1).foldl (fun _ b => b.toNat) 0 / 2 ^ (bit % 8) % 2 ^ etyBits sf
      let sc := leNat (s.readKey key (s.winWord st w 3 + 2 * (k / 32)) 2)
      let x := match xs10 (sc % 1024) with
        | none => XVal.nan
        | some c => xMul (xOf sf q) c
      BitVec.ofNat 8 ((roundTo df .rne 0 true x).bits / 2 ^ (8 * (v % (etyBits df / 8))))
    | _, _ => 0

/-- The stored bytes, and the scales, that a read of `n` decoded bytes consumes (R227, R385). -/
def State.storedSpans (s : State) (st off n : Nat) : List (Nat × Nat) :=
  match s.windowAt st off with
  | none => []
  | some w =>
    let d := s.winWord st w 0
    match sfmtEty (d / 4 % 4), dfmtEty (d / 16 % 4) with
    | some sf, some df =>
      let k (v : Nat) : Nat := (v - s.winWord st w 1) / (etyBits df / 8)
      let byte (k : Nat) : Nat := s.winWord st w 2 + k * etyBits sf / 8
      let scale (k : Nat) : Nat := s.winWord st w 3 + 2 * (k / 32)
      [(byte (k off), byte (k (off + n - 1)) + 1 - byte (k off)), (scale (k off), scale (k (off + n - 1)) + 2 - scale (k off))]
    | _, _ => []

/-- The bytes at a physical address as a read under key slot `key` sees them, decoded apertures included. -/
def State.readPhys (s : State) (key pa n : Nat) : List Byte :=
  match region pa with
  | .decoded st off => (List.range n).map (fun i => s.decodedByte st (off + i))
  | _ => s.readKey key pa n

/-! Translation -/

/-- Where a line has its home (R213). -/
inductive Home where
  | slice (quire : Nat) | sram (core : Nat) | controller
  deriving DecidableEq, Repr

/-- The home of the line at `pa` under the HOME and HTGT of a leaf (R213). For HOME 00 the table names stacks and tier 2 alone: a line of a decoded
aperture is given no home, and nothing in the model asks for one (DESIGN CHOICE, log 107). -/
def homeOf (home htgt pa : Nat) : Option Home :=
  match home, region pa with
  | 0, .hbm st => some (.slice (5 * st + pa / 64 % 5))
  | 0, .tier2 d => some (.slice (10 * d + pa / 64 % 10))
  | 1, _ => some (.sram htgt)
  | 2, _ => some (.slice htgt)
  | 3, _ => some .controller
  | _, _ => none

/-- Size of the page that a leaf of a level maps (R216). -/
def levelSize : Nat → Nat
  | 1 => 0x10000 | 2 => 0x200000 | _ => 0x40000000

/-- Address of the entry for `va` in the level-`lvl` table at `t` (R216). -/
def entryAddr (t lvl va : Nat) : Nat :=
  t + 8 * (match lvl with
    | 4 => va / 2 ^ 43 % 8192 | 3 => va / 2 ^ 30 % 8192 | 2 => va / 2 ^ 21 % 512 | _ => va / 2 ^ 16 % 32)

/-- Size of a level's table (R216). -/
def tableSize : Nat → Nat
  | 3 => 0x10000 | 2 => 0x1000 | _ => 0x100

/-- Whether the 64 KiB frames of `[a, a + n)` are all covered by enabled windows of the stack (R220). -/
def State.covered (s : State) (st off n : Nat) : Bool :=
  (List.range ((n + 0xFFFF) / 0x10000)).all (fun i => (s.windowAt st (off + i * 0x10000)).isSome)

/-- Feature `n` is one that the driver of an open session has not accepted: it behaves as absent (R429). -/
def State.featureOff (s : State) (n : Nat) : Bool := !s.sessions.isEmpty && !s.features.getLsbD n

/-- The placement limits that need no capacity (R223, R224). -/
def State.homeOk (s : State) (l : Leaf) : Bool :=
  match l.home, region l.frame with
  | 1, .sram c off => l.size == 0x10000 && l.htgt == c && decide (c < 320) && s.inSphome c off && s.inSphome c (off + 0xFFFF)
  | 1, _ => false
  | 2, .hbm _ => (l.size == 0x10000 || l.size == 0x200000) && decide (l.htgt < 40)
  | 2, .tier2 _ => (l.size == 0x10000 || l.size == 0x200000) && decide (l.htgt < 40)
  | 2, _ => false
  | _, .sram _ _ => false
  | _, _ => l.htgt == 0

/-- Whether the frame of a leaf is memory throughout (R220, subcause 4). -/
def State.frameOk (s : State) (l : Leaf) : Bool :=
  match region l.frame, region (l.frame + l.size - 1) with
  | .hbm a, .hbm b => a == b
  | .tier2 _, .tier2 _ => !s.featureOff 4
  | .sram _ _, .sram _ _ => true
  | .decoded st off, .decoded _ _ => s.covered st off l.size
  | _, _ => false

/-- The walk from a table (R219); `fuel` is the level. -/
def State.walkFrom (s : State) (asid va t : Nat) : Nat → Except AFault Leaf
  | 0 => .error { cause := 0x20, sub := 3 }
  | lvl + 1 =>
    let a := entryAddr t (lvl + 1) va
    if !s.isMemory a then .error { cause := 0x20, sub := 4 }
    else if (s.hasBad a 8).isSome then .error { cause := 0x25, val := s.hasBad a 8 }
    else
      let e := leNat (s.readKey 0 a 8)
      if e % 2 = 0 then .error { cause := 0x20, sub := 2 }
      else if e / 2 % 2 = 0 then
        if lvl = 0 ∨ e / 4 % 64 ≠ 0 ∨ e / 2 ^ 52 ≠ 0 then .error { cause := 0x20, sub := 3 }
        else
          let nx := e / 2 ^ 8 % 2 ^ 44 * 2 ^ 8
          if nx % tableSize lvl ≠ 0 then .error { cause := 0x20, sub := 3 }
          else State.walkFrom s asid va nx lvl
      else
        let size := levelSize (lvl + 1)
        let frame := e / 2 ^ 15 % 2 ^ 36 * 0x10000
        if lvl + 1 = 4 ∨ frame % size ≠ 0 then .error { cause := 0x20, sub := 3 }
        else
          let l : Leaf := { asid := asid, va := va / size * size, size := size, frame := frame, key := e / 2 ^ 51,
                            htgt := e / 2 ^ 6 % 512, home := e / 16 % 4, x := e / 8 % 2 == 1, w := e / 4 % 2 == 1 }
          if !s.homeOk l then .error { cause := 0x20, sub := 5 }
          else if !s.frameOk l then .error { cause := 0x20, sub := 4 }
          else .ok l

/-- Look a page up under an ASID. -/
def tlbFind (t : List Leaf) (asid va : Nat) : Option Leaf :=
  t.find? (fun l => l.asid == asid && decide (l.va ≤ va) && decide (va < l.va + l.size))

/-- Whether a virtual address is canonical (R219). -/
def canonical (va : Word) : Bool := (va.extractLsb' 0 56).signExtend 64 == va

/-- Pin the page of a HOME 10 leaf at its first access (R224). -/
def State.pinPage (s : State) (l : Leaf) : Except AFault State :=
  if l.home ≠ 2 then .ok s
  else
    let q := s.quire l.htgt
    if q.pinned.contains (l.frame, l.size) then .ok s
    else if 0x800000 < q.pinned.foldl (fun n p => n + p.2) l.size then .error { cause := 0x20, sub := 6 }
    else .ok (s.modQuire l.htgt (fun q => { q with pinned := q.pinned ++ [(l.frame, l.size)] }))

/-- The leaf for one virtual address: first-level TLB, second-level TLB, walk; a walk fills both (R219, R221, log 6). -/
def State.lookup (s : State) (c : Nat) (asp : Word) (va : Word) : Except AFault (State × Leaf) :=
  if !canonical va then .error { cause := 0x20, sub := 1 }
  else
    let asid := fld asp 63 52
    let a := va.toNat % 2 ^ 56
    let found := match tlbFind (s.core c).tlb asid a with
      | some l => some l
      | none => tlbFind (s.quire (quireOf c)).tlb asid a
    match found with
    | some l => (s.pinPage l).map (fun s => (s, l))
    | none => do
      let l ← s.walkFrom asid a (fld asp 51 16 * 0x10000) 4
      let s ← s.pinPage l
      let s := s.modCore c (fun k => { k with tlb := (l :: k.tlb).take 128 })
      pure (s.modQuire (quireOf c) (fun q => { q with tlb := (l :: q.tlb).take 4096 }), l)

/-- Two addresses lie in memory of one kind. -/
def sameKind (a b : Nat) : Bool :=
  match region a, region b with
  | .hbm s, .hbm t => s == t
  | .tier2 _, .tier2 _ | .sram _ _, .sram _ _ | .decoded _ _, .decoded _ _ | .window _ _ _, .window _ _ _ => true
  | _, _ => false

/-- The leaf of an access of `n` bytes, within one 64 KiB unit, that does not translate (R215, R220). -/
def State.physLeaf (s : State) (va : Word) (n : Nat := 1) : Except AFault Leaf :=
  if va.toNat / 2 ^ 52 ≠ 0 then .error { cause := 0x20, sub := 1 }
  else
    let pa := va.toNat
    let l : Leaf := { asid := 0, va := pa / 0x10000 * 0x10000, size := 0x10000, frame := pa / 0x10000 * 0x10000, key := 0,
                      htgt := 0, home := 0, x := true, w := true }
    if !sameKind pa (pa + n - 1) then .error { cause := 0x20, sub := 4 }
    else match region pa with
      | .absent => .error { cause := 0x20, sub := 4 }
      | .tier2 _ => if s.featureOff 4 then .error { cause := 0x20, sub := 4 } else .ok l
      | .sram c off => if s.inSphome c off then .ok l else .error { cause := 0x20, sub := 4 }
      | .decoded st off => if (s.windowAt st off).isSome then .ok l else .error { cause := 0x20, sub := 4 }
      | _ => .ok l

/-- Kinds of access for the permission check. -/
inductive AKind where
  | read | write | fetch | none
  deriving DecidableEq, Repr

/-- Physical address of `va` under a leaf. -/
def Leaf.pa (l : Leaf) (va : Word) : Nat := l.frame + (va.toNat % 2 ^ 56 - l.va % 2 ^ 56)

/-- Memory under this leaf is stored under a key, and its slot holds none (R220, R225, R390). -/
def State.keyless (s : State) (l : Leaf) : Bool :=
  (match region l.frame with | .sram _ _ => false | .window _ _ _ => false | _ => true) && (s.keyAt l.key).isNone

/-- The permission check (R220). -/
def State.permit (s : State) (l : Leaf) (k : AKind) : Option AFault :=
  if k = .write ∧ ¬ l.w then some { cause := 0x21, sub := 1 }
  else if k = .fetch ∧ ¬ l.x then some { cause := 0x21, sub := 2 }
  else if k ≠ .none ∧ s.keyless l = true then some { cause := 0x21, sub := 3 }
  else none

/-- The bytes at `pa` are decoded from stored bytes and scales whose key slot is empty (R226, R390). -/
def State.keylessView (s : State) (pa : Nat) : Bool :=
  match region pa with
  | .decoded st off => (s.windowAt st off).any (fun w => (s.keyAt (s.winWord st w 0 / 2 ^ 48 % 2 ^ 13)).isNone)
  | _ => false

/-- Translate and check an access of `n` bytes within one 64 KiB unit (R215, R219, R220); a decoded address needs a window, and its key, at
each access (R226, R390). -/
def State.xlat (s : State) (c : Nat) (asp : Option Word) (va : Word) (k : AKind) (n : Nat := 1) : Except AFault (State × Leaf) := do
  let (s, l) ← match asp with
    | none => (s.physLeaf va n).map (fun l => (s, l))
    | some a => s.lookup c a va
  match region (l.pa va) with
  | .decoded st off => if (s.windowAt st off).isNone then throw { cause := 0x20, sub := 4 }
  | _ => pure ()
  match s.permit l k with
  | some f => throw f
  | none => if k ≠ .none ∧ s.keylessView (l.pa va) = true then throw { cause := 0x21, sub := 3 } else pure (s, l)

/-- The virtual 64 KiB pages of `n` bytes at `va`: start address and length of each part, increasing. -/
def pageParts (va : Word) (n : Nat) : List (Word × Nat) :=
  if n = 0 then []
  else
    let a := va.toNat
    (List.range ((a + n - 1) / 0x10000 - a / 0x10000 + 1)).map (fun i =>
      let lo := Nat.max a ((a / 0x10000 + i) * 0x10000)
      let hi := Nat.min (a + n) ((a / 0x10000 + i) * 0x10000 + 0x10000)
      (BitVec.ofNat 64 lo, hi - lo))

/-- One part of a translated range. -/
structure Part where
  pa : Nat
  len : Nat
  leaf : Leaf
  deriving DecidableEq, Repr

/-- Translate a list of parts in increasing order (R253). -/
def State.xlatParts (s : State) (c : Nat) (asp : Option Word) (k : AKind) : List (Word × Nat) → Except AFault (State × List Part)
  | [] => .ok (s, [])
  | (va, n) :: ps => do
    let (s, l) ← (s.xlat c asp va k n).mapError (fun f => { f with val := some (f.val.getD va.toNat) })
    let (s, rest) ← State.xlatParts s c asp k ps
    pure (s, { pa := l.pa va, len := n, leaf := l } :: rest)

/-- The address space of a context's accesses: none for firmware (R215). -/
def State.aspaceOf (s : State) (c : Nat) (r : Role) : Option Word := if r = .F then none else some ((s.core c).reg 0x201)

/-! Pinned blocks (R347) -/

/-- The physical pieces of `n` bytes at virtual address `va` under pages found earlier (R305). -/
def viaPages (pages : List Leaf) (va n : Nat) : List (Nat × Nat) :=
  (pageParts (BitVec.ofNat 64 va) n).filterMap (fun p =>
    (pages.find? (fun l => decide (l.va ≤ p.1.toNat) && decide (p.1.toNat < l.va + l.size))).map (fun l => (l.frame + (p.1.toNat - l.va), p.2)))

/-- A launch has started and has not completed; a pre-emption changes nothing in that (R203, R407). -/
def Launch.begun (l : Launch) : Bool := l.state == .running || l.state == .saved || (l.state == .ready && l.resumed)

/-- Who writes, for the exemptions of pools, rings and tables (R203, R282, R430): `slot` is an engine's own write into a slot or a completion word,
`area` a collective engine's into its own table and state. -/
inductive Writer where
  | trio | firmware | engine | ring | slot | area
  deriving DecidableEq, Repr

/-- Whether a write of `n` bytes at `pa` touches a pinned block: of a notice, of a pool, of a ring of a launch under way, of an entry or an input of
a running collective, whose pages are pinned whole (R203, R282, R347, R430, R431). -/
def State.pinned (s : State) (w : Writer) (pa n : Nat) : Bool :=
  let hit (ps : List (Nat × Nat)) : Bool := ps.any (fun p => overlap p.1 p.2 pa n)
  s.cores.any (fun c =>
    c.2.port.pubs.any (fun p => match p.2 with
      | some b => hit (viaPages b.frames b.loc b.info.size)
      | none => false) ||
    (w != .firmware && w != .slot && (List.range 5).any (fun i =>
      let p := c.2.reg (0x300 + i)
      fld p 51 10 != 0 && overlap (fld p 51 10 * 1024) ((fld p 63 54 + 1) * 1024) pa n))) ||
  (w != .ring && s.launches.any (fun l => l.begun && l.st.any (fun g =>
    g.ringsize != 0 && hit (viaPages g.ring (g.ringbase % 2 ^ 56) (64 + g.ringsize * g.recsize))))) ||
  s.dies.any (fun d => d.2.firings.any (fun f =>
    !f.isOver && ((w != .area && overlap (fld (SMap.get 0 d.2.sys 0x520) 51 12 * 0x1000 + 32 * f.entry) 32 pa n) ||
      f.src.any (fun l => overlap l.frame l.size pa n))))

/-! Checked physical accesses -/

/-- An uncorrectable error under any part of a read; a decoded read consumes the stored bytes and their scales (R227, R385). -/
def State.badIn (s : State) (ps : List (Nat × Nat)) : Option Nat :=
  if s.bad.isEmpty then none
  else ps.findSome? (fun p => match region p.1 with
    | .decoded st off => (s.storedSpans st off p.2).findSome? (fun q => s.hasBad q.1 q.2)
    | _ => s.hasBad p.1 p.2)

/-- Read translated parts. -/
def State.readParts (s : State) (ps : List Part) : List Byte := ps.flatMap (fun p => s.readPhys p.leaf.key p.pa p.len)

/-- The READY bits of tile tables are the device's: a store that sets one leaves it clear (R430). A running entry is pinned,
so a store never meets a set one. -/
def State.dropReady (s : State) (pa n : Nat) : State :=
  s.dies.foldl (fun s (x : Nat × Die) =>
    let w := SMap.get 0 x.2.sys 0x520
    let base := fld w 51 12 * 0x1000
    if base = 0 ∨ pa + n ≤ base ∨ base + 32 * (fld w 11 0 + 1) ≤ pa then s
    else (List.range n).foldl (fun s i =>
      let a := pa + i
      if base ≤ a ∧ a < base + 32 * (fld w 11 0 + 1) ∧ (a - base) % 32 = 0x1E then
        s.setRaw a ((s.raw a 1).map (fun b => b &&& 0x7F))
      else s) s) s

/-- Write bytes within one 64-bit word of a window descriptor (R226). -/
def State.descWrite (s : State) (st w off : Nat) (bs : List Byte) : State :=
  let i := off / 8
  let sh := 8 * (off % 8)
  let m := (2 ^ (8 * bs.length) - 1) * 2 ^ sh
  s.windowWrite st w i (BitVec.ofNat 64 (mergeBits (s.winWord st w i) m (leNat bs * 2 ^ sh)))

/-- Write bytes of window descriptors word by word, from a physical address on (R226); `fuel` bounds the words. One long write takes effect in
ascending order, so that an EN in word 0 is judged by the words that stand behind it then (DESIGN CHOICE, log 108). -/
def State.descWrites (s : State) : Nat → Nat → List Byte → State
  | 0, _, _ => s
  | fuel + 1, pa, bs =>
    if bs.isEmpty then s
    else
      let n := 8 - pa % 8
      let s := match region pa with
        | .window st w off => s.descWrite st w off (bs.take n)
        | _ => s
      State.descWrites s fuel (pa + n) (bs.drop n)

/-- Write bytes at a physical address: window descriptors have their own rule (R226). -/
def State.writePhys (s : State) (key pa : Nat) (bs : List Byte) : State :=
  match region pa with
  | .window _ _ _ => s.descWrites bs.length pa bs
  | _ => ((s.clearBad pa bs.length).writeKey key pa bs).dropReady pa bs.length

/-- Write translated parts one after another. -/
def State.writeParts (s : State) : List Part → List Byte → State
  | [], _ => s
  | p :: ps, bs => State.writeParts (s.writePhys p.leaf.key p.pa (bs.take p.len)) ps (bs.drop p.len)

/-- A leaf for scratchpad bytes: plaintext, never held. -/
def spLeaf : Leaf :=
  { asid := 0, va := 0, size := 0, frame := 0x040000000000, key := 0, htgt := 0, home := 1, x := true, w := true }

/-- A part of physical memory under key 0 and HOME 00, as the firmware context names memory (R215). -/
def physPart (pa n : Nat) : Part := { pa := pa, len := n, leaf := { spLeaf with frame := pa, home := 0 } }
/-- The same as a list. -/
def physParts (pa n : Nat) : List Part := [physPart pa n]

/-- The spans of parts. -/
def spansOf (ps : List Part) : List (Nat × Nat) := ps.map (fun p => (p.pa, p.len))

/-- Whether lines of this leaf can be held (R243): HOME 00 or 10. -/
def Leaf.holdable (l : Leaf) : Bool := (l.home == 0 || l.home == 2) && isDram l.frame

/-- What the home answers to an access of an agent other than a context (R239, R245, R385). -/
inductive Answer where
  | granted (s : State)
  | refused (line : Nat) (other : Agent)
  | fault (cause sub addr : Nat) (other : Word)

/-- An access of an agent over parts under pages that were found earlier: a key that is gone, a view that is gone (R226, R390), conflicts and
retries, lost data; an admitted one is recorded. -/
def State.ask (s : State) (t : Touch) (ps : List Part) : Answer :=
  match ps.find? (fun p => s.keyless p.leaf || s.keylessView p.pa) with
  | some p => .fault 0x21 3 p.pa 0
  | none =>
    match ps.find? (fun p => match region p.pa with | .decoded st off => (s.windowAt st off).isNone | _ => false) with
    | some p => .fault 0x20 4 p.pa 0
    | none =>
      match s.clash t with
      | some (.conflict l o) => .fault 0x22 0 (64 * l) (s.agentWord o)
      | some (.retry l o) => .refused l o
      | none =>
        let bad := if t.write then (if s.bad.isEmpty then none else t.spans.findSome? (fun p => s.badPartial p.1 p.2)) else s.badIn t.spans
        match bad with
        | some x => .fault 0x25 0 x 0
        | none => .granted (s.record t)

/-- A write to the line of a sleeping WAITV wakes it at its next turn (R272); nothing is stored for it here. -/
def lineOf (pa : Nat) : Nat := pa / 64

end Sys2Proof.Machine
end

