-- ==== Sys2Proof/Machine/Issue.lean ====
section
/-! DEFINITION. How an instruction issues: rights, tokens, interlocks, the checking scoreboard, completion, and the ends of
contexts (spec 02 R25 to R28, 04 R83, 05 R118, 08 R157 to R165). -/
namespace Sys2Proof.Machine

/-- Columns of the role-rights table (R157). -/
inductive Rights where
  | all | trio | comp | load | stor | fw
  deriving DecidableEq, Repr

/-- Whether context `r` may issue; in single-context mode C holds the rights of L, C and S (R157). -/
def allowed (rt : Rights) (single : Bool) (r : Role) : Bool :=
  match rt with
  | .all => true
  | .trio => r != .F
  | .comp => r == .C
  | .load => r == .L || (r == .C && single)
  | .stor => r == .S || (r == .C && single)
  | .fw => r == .F

/-- The FIFO that each TOK bit names, POPL, POPR, PUSHL, PUSHR (R64). -/
def tokNames (r : Role) (single : Bool) : Option Nat × Option Nat × Option Nat × Option Nat :=
  if single then (none, none, none, none)
  else match r with
    | .L => (none, some 1, none, some 0)
    | .C => (some 0, some 3, some 1, some 2)
    | .S => (some 2, none, some 3, none)
    | .F => (none, none, none, none)

/-- The FIFOs that the TOK bits pop and push, or `none` if a set bit names no FIFO (R64, R82). -/
def tokens (h : Hdr) (r : Role) (single : Bool) : Option (List Nat × List Nat) :=
  let (a, b, c, d) := tokNames r single
  let pick (bit : Bool) (q : Option Nat) : Option (List Nat) := if bit then q.map (fun n => [n]) else some []
  match pick h.popL a, pick h.popR b, pick h.pushL c, pick h.pushR d with
  | some x, some y, some z, some w => some (x ++ y, z ++ w)
  | _, _, _, _ => none

/-- FIFO `q` of a core. -/
def Core.fifo (k : Core) (q : Nat) : Fifo := SMap.get {} k.tq q
/-- Change FIFO `q` of core `c`. -/
def State.modFifo (s : State) (c q : Nat) (f : Fifo → Fifo) : State :=
  s.modCore c (fun k => { k with tq := SMap.set {} k.tq q (f (k.fifo q)) })

/-- The pop condition of R161. -/
def Core.popReady (k : Core) (qs : List Nat) : Bool := qs.all (fun q => !(k.fifo q).toks.isEmpty || (k.fifo q).ended)

/-- One pop by the current context: a token, an acquire; or end-of-stream, which sets TOKSTAT.EOS (R161, R163). -/
def State.pop (s : State) (q : Nat) : State :=
  let c := s.cur.core
  let f := (s.core c).fifo q
  match f.toks with
  | k :: ks => (s.modFifo c q (fun f => { f with toks := ks })).acquire s.me k .core
  | [] =>
    if f.ended then
      (s.modCtx c s.cur.role (fun x => x.setReg 0x100 (x.reg 0x100 ||| 1))).acquire s.me f.endClock .core
    else s

/-- Push one token, a release at core scope; a FIFO whose consumer has ended discards it (R162, R163). -/
def State.pushTok (s : State) (c q : Nat) (a : Agent) : State :=
  if ((s.core c).fifo q).deaf then s
  else
    let (s, k) := s.release a .core
    s.modFifo c q (fun f => { f with toks := f.toks ++ [k] })

/-- Whether a push into FIFO `q` completes at once (R160, R162). -/
def Core.room (k : Core) (q : Nat) : Bool := (k.fifo q).deaf || decide ((k.fifo q).toks.length < 15)

/-- A contribution or a RED of agent `a` stands behind one that waits: a release of `a` is not performed before it (R254). -/
def State.owes (s : State) (a : Agent) : Bool :=
  !s.order.counters.isEmpty && s.order.counters.any (fun p => p.2.behind.any (fun k => k.agent == a))

/-- Whether a push by agent `a` into FIFO `q` of core `c` completes now: there is room, and what its release covers has been performed
(R160, R162, R254). -/
def State.canPush (s : State) (c : Nat) (a : Agent) (q : Nat) : Bool := ((s.core c).fifo q).deaf || ((s.core c).room q && !s.owes a)

/-- The TOK bits of one instruction push: each into its FIFO as soon as there is room there; what waits is answered (R162). -/
def State.pushGroup (s : State) (c : Nat) (a : Agent) : List Nat → State × List Nat
  | [] => (s, [])
  | q :: qs =>
    if s.canPush c a q then State.pushGroup (s.pushTok c q a) c a qs
    else match State.pushGroup s c a qs with
      | (t, left) => (t, q :: left)

/-- Make the waiting pushes of a context, group after group, as far as there is room (R162, R194). -/
def State.drain (s : State) (c : Nat) (r : Role) (a : Agent) : List (List Nat) → State
  | [] => s.modCtx c r (fun x => { x with push := [] })
  | g :: gs =>
    match s.pushGroup c a g with
    | (t, []) => State.drain t c r a gs
    | (t, left) => t.modCtx c r (fun x => { x with push := left :: gs })

/-- A waiting push of a context can be made now. -/
def State.drains (s : State) (c : Nat) (r : Role) : Bool :=
  match (s.ctx c r).push with
  | g :: _ => (s.ctx c r).run != .stopped && (g.isEmpty || g.any (s.canPush c (s.agentNow c r)))
  | [] => (s.ctx c r).run != .stopped && (s.ctx c r).ending.isSome && !s.owes (s.agentNow c r)

/-- Count an issued instruction for the branch distances (R107). -/
def Ctx.count (x : Ctx) : Ctx := { x with since := x.since.filterMap (fun p => if p.2 + 1 < 3 then some (p.1, p.2 + 1) else none) }

/-- What the body of an instruction answers. -/
inductive Res where
  | done (s : State)
  | jump (s : State) (t : Word) (bubbles : Nat)
  | halt (s : State)
  /-- a precise trap without effect -/
  | trap (cause sub : Nat) (val other : Word)
  /-- completes and then traps (R387) -/
  | after (s : State) (cause : Nat) (val : Word)
  /-- waits after its pops; it issues again when it is woken (R118) -/
  | sleep (s : State) (w : Wait)

/-- A context ends (R12, R35, R164, R374); a marked core keeps its launch for another stage (R181). -/
def State.endCtx (s : State) (c : Nat) (r : Role) (a : Agent) : State :=
  if r = .F then s.modCtx c .F (fun x => { x.drop with run := .idle, pc := 0 })
  else
    let (s, k) := s.release a .core
    let s := s.modCtx c r (fun x => { x.drop with run := .ended })
    let (pl, pr, ql, qr) := tokNames r false
    let mark (s : State) (q : Option Nat) : State := match q with
      | some q => s.modFifo c q (fun f => { f with ended := true, endClock := k })
      | none => s
    let deaf (s : State) (q : Option Nat) : State := match q with
      | some q => s.modFifo c q (fun f => { f with deaf := true })
      | none => s
    let single := (s.core c).single
    let s := if single then s else deaf (deaf (mark (mark s ql) qr) pl) pr
    let s := s.modLaunch (s.core c).launch (fun l => { l with endClock := l.endClock.join k })
    let k := s.core c
    if k.ctxC.run = .ended ∧ (single ∨ (k.ctxL.run = .ended ∧ k.ctxS.run = .ended)) then (if k.marked then s else s.endTrio c) else s

/-- A context that has reached its safe point stops when its pushes have been made (R206). -/
def Ctx.settleSafe (x : Ctx) : Ctx := if x.atSafe ∧ x.run = .running then { x with run := .stopped } else x

/-- Completion of an instruction: explicit pushes and those of its TOK bits, the distances, the next PC and the next issue
cycle (R12, R25, R162, R194); a context that has reached its safe point stops (R206). -/
def State.finish (s : State) (h : Hdr) (pushes : List Nat) (npc : Word) (bubbles : Nat) : State :=
  let c := s.cur.core
  let r := s.cur.role
  let s := s.modCtx c r (fun x =>
    { x.count.drop with pc := canonPc npc, nextIssue := s.gtc + 1 + Nat.max h.wait.toNat bubbles, run := .running })
  (s.drain c r s.me ((s.ctx c r).push ++ [pushes])).modCtx c r Ctx.settleSafe

/-- An instruction that has completed, but whose pushes wait for room: what follows comes about when they have been made
(R119, R162). -/
def State.finishThen (s : State) (h : Hdr) (pushes : List Nat) (npc : Word) (e : Ending) : State :=
  (s.finish h pushes npc 0).modCtx s.cur.core s.cur.role (fun x => { x with ending := some e })

/-- A command that has neither completed nor been cancelled. -/
def Enq.live (e : Enq) : Bool := e.status != 2 && e.status != 3

/-- The busy tiles of a core: tiles that a COPYT or TMMA of a queued or running command names, and those of a product that has not
completed, also where its command has been killed (R315, R336). -/
def Core.busyTiles (k : Core) : List Nat :=
  k.chains.flatMap (fun p => p.2.cmds.flatMap (fun e => if e.live then e.tiles else [])) ++ k.mx.flatMap (fun p => [p.ct, p.at_, p.bt])

/-- Whether one of the targets keeps an instruction waiting at issue: a row of a busy tile, or the tile itself (R315, R336); a divider
in use (R94); a tile row whose older fixed-latency results have not landed (R150); merges of C that are on their way (R24); 16 held indices
(R191). -/
def Core.busy (k : Core) (ts : List Target) : Bool :=
  (!k.chains.isEmpty && ts.any (fun t => match t with
    | .row i => k.busyTiles.contains (i / 32)
    | .side i => k.busyTiles.contains (i / 32)
    | .quiet i => k.busyTiles.contains (i / 32)
    | .tile n => k.busyTiles.contains n
    | _ => false)) ||
  (ts.contains .room && decide (16 ≤ k.held.length)) ||
  (!k.pend.isEmpty && ts.any (fun t => match t with
    | .divider r => k.pend.any (fun e => e.divide && (match e.target with | .g q _ => q == r | _ => false))
    | .quiet i => k.pend.any (fun e => e.ready.isSome && sameReg (.row i) e.target)
    | .noMerge r n => r == .C && k.pend.any (fun e => e.ready.isSome && ((n == 0x002 && e.target == .fstat) || (n == 0x003 && e.target == .maxmag)))
    | _ => false))

/-- The instruction waits; `made` says whether it has issued, its pops made (R118). A context that sleeps in WFE can wake in the same
cycle (R115); any other looks again in the next one. One that has issued keeps the operands that it read (R93). -/
def State.sleepNow (s : State) (w : Wait) (made : Bool) : State :=
  let read := if made then some ((s.core s.cur.core).operands s.cur.role) else none
  s.modCtx s.cur.core s.cur.role (fun x =>
    { x with run := .sleeping, wait := some w, made := made || x.made, latch := x.latch.orElse (fun _ => read)
             nextIssue := if w = .wfe then s.gtc else s.gtc + 1 })

/-- TOKSTAT.PHELD stands for the instruction at the PC (R118). -/
def Ctx.popsHeld (x : Ctx) : Bool := Nat.testBit (x.reg 0x100).toNat 1 && x.heldPc.contains x.pc

/-- Drop the mark of pops that were made earlier (R118); it stays for an instruction at another address. -/
def Ctx.clearHeld (x : Ctx) : Ctx :=
  if x.popsHeld then
    let x := { x with heldPc := x.heldPc.filter (· != x.pc) }
    if x.heldPc.isEmpty then x.setReg 0x100 (x.reg 0x100 &&& 1) else x
  else x

/-- Issue of an instruction by the current context (R83): TOK bits that name no FIFO, role rights, the pop condition,
interlocks and busy tiles, STALL, then `body` on the state after the pops. -/
def issue (h : Hdr) (rt : Rights) (uses defs : List Target) (body : State → Res) (s0 : State) : Out :=
  let c := s0.cur.core
  let r := s0.cur.role
  let k0 := s0.core c
  let x0 := k0.ctx r
  match tokens h r k0.single with
  | none => .next (s0.takeTrap c r 0x02 0 0 0 x0.pc)
  | some (pops, pushes) =>
    if !allowed rt k0.single r then .next (s0.takeTrap c r 0x03 0 0 0 x0.pc)
    else
      let made := x0.made || x0.popsHeld
      if !made && !k0.popReady pops then .next (s0.sleepNow .pop false)
      else
        let s1 := s0.modCore c (fun k => (k.landBy s0.gtc).interlock (uses ++ defs))
        let k1 := s1.core c
        if k1.busy (uses ++ defs) then .next (s1.sleepNow .busy false)
        else if Nat.testBit (k1.reg 0).toNat 0 && k1.early (uses ++ defs) then .next (s1.takeTrap c r 0x04 0 0 0 x0.pc)
        else
          let s2 := if made then s1.modCtx c r (fun x => { x.clearHeld with made := true }) else pops.foldl State.pop s1
          let full := pushes.any (fun q => !s2.canPush c s2.me q)
          let ends := full || s2.owes s2.me
          match body s2 with
          | .done s => .next (s.finish h pushes (x0.pc + 8) 0)
          | .jump s t b =>
            if t = 0 then
              if ends then .next (s.finishThen h pushes x0.pc .halt)
              else
                let s := s.finish h pushes x0.pc 0
                .next (s.endCtx c r s.me)
            else .next (s.finish h pushes t b)
          | .halt s =>
            if ends then .next (s.finishThen h pushes (x0.pc + 8) .halt)
            else
              let s := s.finish h pushes (x0.pc + 8) 0
              .next (s.endCtx c r s.me)
          | .trap cause sub val other => .next (s1.takeTrap c r cause sub val other x0.pc)
          | .after s cause val =>
            if full then .next (s.finishThen h pushes (x0.pc + 8) (.trap cause val))
            else .next ((s.finish h pushes (x0.pc + 8) 0).takeTrap c r cause 0 val 0 (nextPc x0.pc))
          | .sleep s w => .next (s.sleepNow w true)

/-- Wake a sleeping context: its instruction, which issued earlier, goes on in the next step (R118). -/
def State.wake (s : State) (c : Nat) (r : Role) : State :=
  (s.modCtx c r (fun x => { x with run := .running })).next { core := c, role := r } .resume

/-- The instruction at the PC, which could not issue, is tried again in the next step (R161, R336). -/
def State.tryAgain (s : State) (c : Nat) (r : Role) : State :=
  (s.modCtx c r (fun x => { x with run := .running })).next { core := c, role := r } .issue

/-- The pushes of a context have been made: what it still has to do comes about (R119, R162, R206, R387). -/
def State.afterPushes (s : State) (c : Nat) (r : Role) (a : Agent) : State :=
  let x := s.ctx c r
  if !x.push.isEmpty then s
  else match x.ending with
    | none => s.modCtx c r Ctx.settleSafe
    | some .halt => if s.owes a then s else (s.modCtx c r (fun x => { x with ending := none })).endCtx c r a
    | some (.trap cause val) => (s.modCtx c r (fun x => { x with ending := none })).takeTrap c r cause 0 val 0 x.pc

/-- A release of the current context is performed only after what happens before it: it waits for the context's own contributions that stand
behind another one (R254). -/
def State.settled (s : State) (k : Res) : Res := if s.owes s.me then .sleep s .behind else k

/-- Whether a FENCE of the current context stands for its next atomic or synchronising store (R235). -/
def State.fenced (s : State) : Bool := !(s.ctx s.cur.core s.cur.role).fences.isEmpty

/-- An atomic that releases nothing of its own, and at which a FENCE that stands before it releases (R235, R254). -/
def State.fencedSettled (s : State) (k : Res) : Res := if s.fenced then s.settled k else k

/-- A trap of R253 or R31 as the answer of a body. -/
def Res.of (f : AFault) (val : Word) : Res := .trap f.cause f.sub (match f.val with | some v => BitVec.ofNat 64 v | none => val) f.other

end Sys2Proof.Machine
end

