-- ==== Sys2Proof/Machine/Messages.lean ====
section
/-! DEFINITION. Sending messages: routes, virtual networks, flits and what happens without a route (spec 23). -/
namespace Sys2Proof.Machine

/-- LINKn of this package (R424). -/
def State.linkReg (s : State) (l : Nat) : Word := SMap.get 0 s.sys (0x510 + l)
/-- KIND of a LINK value: 0 down, 1 direct, 2 pod switch (R424). -/
def linkKind (w : Word) : Nat := fld w 63 62
/-- PEER of a LINK value. -/
def linkPeer (w : Word) : Nat := fld w 53 48
/-- PLINK of a LINK value. -/
def linkPlink (w : Word) : Nat := fld w 47 44

/-- This package's row of the pod link table (R421). -/
def State.ownRow (s : State) : List Word := (List.range 16).map s.linkReg
/-- The row of package `p`; a package without a row has no route (R422). -/
def State.rowOf (s : State) (p : Nat) : List Word := if p = s.pkg then s.ownRow else SMap.get [] s.linkTable p

/-- The link that a message to package `p` takes: a direct link, else a switch link where `p` has one too (R421). -/
def State.routeLink (s : State) (p : Nat) : Option Nat :=
  if (s.rowOf p).isEmpty then none
  else match (List.range 16).find? (fun l => linkKind (s.linkReg l) == 1 && linkPeer (s.linkReg l) == p) with
    | some l => some l
    | none =>
      if (s.rowOf p).any (fun w => linkKind w == 2) then (List.range 16).find? (fun l => linkKind (s.linkReg l) == 2)
      else none

/-- Whether packages `p` and `q` have a route, by the table (R421, R434). -/
def State.hasRoute (s : State) (p q : Nat) : Bool :=
  p == q || (s.rowOf p).any (fun w => linkKind w == 1 && linkPeer w == q) ||
    ((s.rowOf p).any (fun w => linkKind w == 2) && (s.rowOf q).any (fun w => linkKind w == 2))

/-- The virtual network of a message (R417, R420). -/
def netOf : Body → Nat
  | .notice _ => 0
  | .segReq .. | .chunkReq .. | .headerReq .. | .rankReq .. => 1
  | .segData .. | .chunkData .. | .rankData .. | .header .. => 2
  | _ => 3

/-- Which kind of message a body is. -/
def bodyKind : Body → Nat
  | .notice _ => 0 | .tableFull _ => 1 | .entryFree => 2 | .segReq .. => 3 | .segData .. => 4 | .refuse _ => 5 | .ack _ => 6
  | .decline _ => 7 | .withdraw _ => 8 | .pullEnd _ => 9 | .event => 10 | .linkRow .. => 11 | .time .. => 12 | .spines .. => 13
  | .chunkReady .. => 14 | .chunkReq .. => 15 | .chunkData .. => 16 | .chunkAck .. => 17 | .chunkRefuse .. => 18 | .collAgain .. => 19
  | .collEnd .. => 20 | .header .. => 21 | .rankReq .. => 22 | .rankData .. => 23 | .collAbort .. => 24 | .headerReq .. => 25
  | .collStop .. => 26

/-- Bytes of a message behind its header: the data that it carries, or what it names, at the widths of the spec's own tables where they give any
(log 9). -/
def bodyBytes : Body → List Byte
  | .segData _ _ d | .chunkData _ _ _ _ _ _ d | .header _ _ d | .rankData _ _ _ d => d
  | .notice n => leBytes 8 n.nid.toNat ++ leBytes 4 n.tag.toNat ++ leBytes 4 n.size ++ leBytes 2 n.prio ++ leBytes 2 n.producer
  | .tableFull n | .refuse n | .ack n | .decline n | .withdraw n | .pullEnd n => leBytes 16 n.toNat
  | .entryFree | .event => leBytes 16 0
  | .segReq n seg => leBytes 8 n.toNat ++ leBytes 8 seg
  | .linkRow _ row => row.flatMap (fun w => leBytes 8 w.toNat)
  | .time g lock => leBytes 8 g ++ leBytes 8 lock.toNat
  | .spines _ _ _ _ sp fates =>
    sp.flatMap (fun x => leBytes 16 (x.edges.foldl (fun n e => n * 4096 + 64 * e.1 + e.2) x.chain.toNat)) ++
      fates.flatMap (fun x => leBytes 2 (match x with | .restart => 0 | .broadcast => 1 | .finished => 2))
  | .chunkReady e n b c final | .chunkAck e n b c final | .chunkRefuse e n b c final =>
    leBytes 4 e ++ leBytes 4 n ++ leBytes 4 b ++ leBytes 2 c ++ leBytes 2 final.toNat
  | .chunkReq e n b c final seg => leBytes 4 e ++ leBytes 4 n ++ leBytes 4 b ++ leBytes 2 (2 * c + final.toNat) ++ leBytes 2 seg
  | .collAgain e n b | .collStop e n b | .collAbort e n b => leBytes 4 e ++ leBytes 4 n ++ leBytes 8 b
  | .collEnd e n | .headerReq e n => leBytes 8 e ++ leBytes 8 n
  | .rankReq e n seg => leBytes 4 e ++ leBytes 4 n ++ leBytes 8 seg

/-- How many they are. -/
def bodySize (b : Body) : Nat := (bodyBytes b).length

/-- The fields of a message's header (R417). -/
structure Header where
  dst : BitVec 15
  src : BitVec 15
  group : BitVec 16
  gen : BitVec 8
  type : BitVec 8
  mseq : BitVec 32
  length : BitVec 16
  deriving DecidableEq, Repr

/-- The header of a message (R417); the codes of its types are free (log 9). -/
def headerOf (p : Packet) : Header :=
  { dst := BitVec.ofNat 15 p.dst, src := BitVec.ofNat 15 p.src, group := p.group, gen := p.gen, type := Config.msgType (bodyKind p.body),
    mseq := p.mseq, length := BitVec.ofNat 16 (bodySize p.body) }

/-- The 16 bytes of a header, its fields in the order of R417 from the low bits up (log 9). -/
def headerBytes (h : Header) : List Byte :=
  leBytes 16 (h.dst.toNat + 2 ^ 15 * (h.src.toNat + 2 ^ 15 * (h.group.toNat + 2 ^ 16 * (h.gen.toNat + 2 ^ 8 * (h.type.toNat +
    2 ^ 8 * (h.mseq.toNat + 2 ^ 32 * h.length.toNat))))))

/-- Flits of a message: the 16-byte header and the payload in pieces of 240 bytes (R417). -/
def flitCount (b : Body) : Nat := (16 + bodySize b + 239) / 240

/-- The 240 payload bytes of flit `i` of a message, zero behind its end. -/
def flitPayload (p : Packet) (i : Nat) : List Byte :=
  let bs := ((headerBytes (headerOf p) ++ bodyBytes p.body).drop (240 * i)).take 240
  bs ++ leBytes (240 - bs.length) 0

/-- One bit of CRC-32C (R417), its polynomial reflected. -/
def crcBit (c : Nat) : Nat := if c % 2 = 1 then (c / 2) ^^^ 0x82F63B78 else c / 2
/-- One byte. -/
def crcByte (c : Nat) (b : Byte) : Nat := (List.range 8).foldl (fun c _ => crcBit c) (c ^^^ b.toNat)
/-- CRC-32C of bytes (R417; the parameters of the function of that name, log 9). -/
def crc32c (bs : List Byte) : BitVec 32 := BitVec.ofNat 32 ((bs.foldl crcByte 0xFFFFFFFF) ^^^ 0xFFFFFFFF)

/-- Bytes 0 to 247 of a flit (R417). -/
def flitBytes (f : Flit) : List Byte :=
  leBytes 8 (f.seq.toNat + 2 ^ 8 * f.ack.toNat + 2 ^ 16 * f.vn.toNat + 2 ^ 18 * f.cvn.toNat + 2 ^ 20 * f.cret.toNat + 2 ^ 24 * f.first.toNat +
    2 ^ 25 * f.last.toNat) ++ f.payload
/-- Put the CRC on a flit. -/
def sealFlit (f : Flit) : Flit := { f with crc := crc32c (flitBytes f) }
/-- The CRC of a flit that has arrived holds (R418). -/
def crcHolds (f : Flit) : Bool := f.payload.length == 240 && f.crc == crc32c (flitBytes f)

/-- Flit `i` of a message (R417); the message stands on the last one (log 9). -/
def mkFlit (p : Packet) (i : Nat) (seq ack : BitVec 8) : Flit :=
  let last := i + 1 == flitCount p.body
  { seq := seq, ack := ack, vn := BitVec.ofNat 2 (netOf p.body), cvn := 0, cret := 0, first := i == 0, last := last,
    payload := flitPayload p i, crc := 0, msg := if last then some p else none }

/-- A flit that carries an acknowledgement and credits alone (log 95). -/
def emptyFlit (seq ack : BitVec 8) : Flit :=
  { seq := seq, ack := ack, vn := 3, cvn := 0, cret := 0, first := true, last := true, payload := leBytes 240 0, crc := 0, msg := none }
/-- Whether a flit is one. -/
def flitEmpty (f : Flit) : Bool := f.first && f.last && f.msg.isNone
/-- A flit with nothing but an acknowledgement, positive or negative: it takes no sequence number and is not sent again (log 95). -/
def flitAlone (f : Flit) : Bool := flitEmpty f && f.cret == 0

/-- A flit carries back credits of the first network whose flits have left our buffers (R419). -/
def payCredits (owed : SMap Nat) (f : Flit) : SMap Nat × Flit :=
  match owed with
  | [] => (owed, f)
  | (vn, n) :: _ =>
    let c := Nat.min 8 n
    (SMap.set 0 owed vn (n - c), { f with cvn := BitVec.ofNat 2 vn, cret := BitVec.ofNat 4 c })

/-- One flit goes out: the next sequence number, the acknowledgement and the credits owed; it stays until it is acknowledged (R418). -/
def LinkLayer.put (k : LinkLayer) (gtc : Nat) (f : Flit) : LinkLayer :=
  let (owed, f) := payCredits k.owed f
  { k with owed := owed, nextSeq := k.nextSeq + 1, tx := k.tx ++ [{ flit := sealFlit f, sentAt := gtc, resent := 0 }] }

/-- The oldest queued message of a network. -/
def LinkLayer.head (k : LinkLayer) (vn : Nat) : Option Packet := k.queue.find? (fun p => netOf p.body == vn)
/-- A network has a flit to send and a credit for it (R419). -/
def LinkLayer.ready (k : LinkLayer) (vn : Nat) : Bool := (k.head vn).isSome && decide (SMap.get 0 k.spent vn < 8)

/-- The network whose flit goes first: control; else the one whose message is oldest by the cycle of its making, the lower number on a tie
(R419). A network without a credit holds up no other. -/
def LinkLayer.next (k : LinkLayer) : Option Nat :=
  if k.ready 3 then some 3
  else [0, 1, 2].foldl (fun best vn =>
    if !k.ready vn then best
    else match best with
      | none => some vn
      | some b => if ((k.head vn).map (·.made)).getD 0 < ((k.head b).map (·.made)).getD 0 then some vn else some b) none

/-- Take the oldest message of a network off the queue. -/
def dropHead (vn : Nat) : List Packet → List Packet
  | [] => []
  | p :: ps => if netOf p.body = vn then ps else p :: dropHead vn ps

/-- Send the next flit of a network. -/
def LinkLayer.sendFlit (k : LinkLayer) (gtc vn : Nat) : LinkLayer :=
  match k.head vn with
  | none => k
  | some p =>
    let i := SMap.get 0 k.part vn
    let done := i + 1 == flitCount p.body
    let k := k.put gtc (mkFlit p i k.nextSeq (k.expect - 1))
    { k with
      spent := SMap.set 0 k.spent vn (SMap.get 0 k.spent vn + 1)
      part := SMap.set 0 k.part vn (if done then 0 else i + 1)
      queue := if done then dropHead vn k.queue else k.queue }

/-- Send flits while window and credits allow (R418, R419); `fuel` bounds them by the window. -/
def LinkLayer.pump (gtc : Nat) : Nat → LinkLayer → LinkLayer
  | 0, k => k
  | fuel + 1, k =>
    if 128 ≤ k.tx.length then k
    else match k.next with
      | some vn => LinkLayer.pump gtc fuel (k.sendFlit gtc vn)
      | none => k

/-- An acknowledgement on a flit of its own, negative where a flit was lost (R418; log 95). -/
def LinkLayer.answerAlone (k : LinkLayer) (nack : Bool) : LinkLayer :=
  { k with reply := some (sealFlit { emptyFlit k.nextSeq (k.expect - 1) with nack := nack }) }

/-- What an arriving flit is answered by: flits of messages where there are any to send, else one that carries the credits owed, else an
acknowledgement alone (R418, R419; DESIGN CHOICE, log 95). -/
def LinkLayer.answer (k : LinkLayer) (gtc : Nat) : LinkLayer :=
  let k' := LinkLayer.pump gtc 128 k
  if k'.tx.length != k.tx.length then k'
  else if !k.owed.isEmpty && decide (k.tx.length < 128) then k.put gtc (emptyFlit k.nextSeq (k.expect - 1))
  else k.answerAlone false

/-- Move what a link may send (R419). -/
def State.pump (s : State) (l : Nat) : State := s.modLink l (LinkLayer.pump s.gtc 128)

/-- Free response credits of the link to package `p`, beyond those that queued responses take (R420). -/
def State.responseRoom (s : State) (p : Nat) : Nat :=
  match s.routeLink p with
  | none => 8
  | some l =>
    let k := s.link l
    let queued := (k.queue.filter (fun m => netOf m.body == 2)).foldl (fun n m => n + flitCount m.body) 0
    8 - (SMap.get 0 k.spent 2 + queued - SMap.get 0 k.part 2)

/-- One more message without a route (R422). -/
def State.unreach (s : State) : State :=
  { s with sys := SMap.set 0 s.sys 0x503 (BitVec.ofNat 64 (((SMap.get 0 s.sys 0x503).toNat + 1) % 2 ^ 32)) }

/-- Put a numbered message on the link of its route. -/
def State.onLink (s : State) (l : Nat) (m : Packet) : State :=
  (s.modLink l (fun k => { k with queue := k.queue ++ [m] })).pump l

/-- A row of the pod link table. -/
def isRow (b : Body) : Bool := match b with
  | .linkRow _ _ => true
  | _ => false

/-- Control messages that other packages pass on where their source has no route of its own: rows of the link table and the control messages of
collectives (DEDUCED from R447 and R448, log 118). -/
def passedOn (b : Body) : Bool := isRow b || (decide (13 ≤ bodyKind b) && netOf b == 3)

/-- The packages that have a row of the pod link table, but this one. -/
def State.others (s : State) : List Nat := (s.linkTable.map (·.1)).filter (· != s.pkg)

/-- The link towards the packages `near` or, one package further, towards those that have a route to one of them; `fuel` bounds the way. -/
def State.linkVia (s : State) : Nat → List Nat → Option Nat
  | 0, _ => none
  | fuel + 1, near =>
    match near.findSome? s.routeLink with
    | some l => some l
    | none =>
      let more := s.others.filter (fun q => !near.contains q && near.any (s.hasRoute q))
      if more.isEmpty then none else State.linkVia s fuel (near ++ more)

/-- The link that a message takes: that of its route, or one towards a package that passes it on (R421, log 118). -/
def State.linkFor (s : State) (m : Packet) : Option Nat :=
  if passedOn m.body then s.linkVia 64 [m.dst / 512] else s.routeLink (m.dst / 512)

/-- A row that the source still holds for the same destination gives way to a newer one of the same package (R422). -/
def State.dropOlder (s : State) (m : Packet) : State :=
  if isRow m.body then { s with kept := s.kept.filter (fun x => !(x.dst == m.dst && x.src == m.src && isRow x.body)) } else s

/-- The end of a message that has no route, at its source (R422). The pull of a request or of a response of a collective ends where the route is
seen to be gone (`State.pullsLost`). -/
def State.noRoute (s : State) (m : Packet) : State :=
  match m.body with
  | .event | .time .. | .segReq .. => s.unreach
  | .chunkReq .. | .headerReq .. | .rankReq .. | .chunkData .. | .header .. | .rankData .. => s
  | .notice _ => { s.unreach with kept := s.kept ++ [m] }
  | _ => { s.dropOlder m with kept := (s.dropOlder m).kept ++ [m] }

/-- Send a message to pod core `dst`: into the package's own fabric, onto a link, or to its end without a route (R417,
R420, R422). Each message to a package takes the next MSEQ. -/
def State.send (s : State) (src dst : Nat) (group : BitVec 16) (gen : BitVec 8) (b : Body) : State :=
  let p := dst / 512
  let q := SMap.get 0 s.mseq p
  let m : Packet := { dst := dst, src := src, group := group, gen := gen, mseq := BitVec.ofNat 32 q, body := b, made := s.gtc }
  let s := { s with mseq := SMap.set 0 s.mseq p (q + 1) }
  if p = s.pkg then { s with net := s.net ++ [m] }
  else match s.linkFor m with
    | some l => (s.dropOlder m).onLink l m
    | none => s.noRoute m

/-- Generation check of a message (R406): true when it is to be dropped. -/
def State.stale (s : State) (m : Packet) : Bool :=
  let gt := (SMap.get 0 s.sys 0x422).toNat
  if gt = 0 then false
  else (s.hasBad (gt + m.group.toNat) 1).isSome || (s.readKey 0 (gt + m.group.toNat) 1) != [m.gen]

/-- Drop a stale message: STALEDROP rises, and a table byte that cannot be read is reported (R406). -/
def State.dropStale (s : State) (m : Packet) (die : Nat) : State :=
  let s := { s with sys := SMap.set 0 s.sys 0x423 (BitVec.ofNat 64 (((SMap.get 0 s.sys 0x423).toNat + 1) % 2 ^ 32)) }
  let gt := (SMap.get 0 s.sys 0x422).toNat
  match s.hasBad (gt + m.group.toNat) 1 with
  | some a => s.report (80 * die) { cause := 0x25, src := 3, val := BitVec.ofNat 64 a }
  | none => s

/-- Remove message number `i` from the network. -/
def removeAt {α : Type} : List α → Nat → List α
  | [], _ => []
  | _ :: xs, 0 => xs
  | x :: xs, n + 1 => x :: removeAt xs n

/-- Messages that are taken in the order of their sending: the notices of a producer core to a port, and what the port answers about its table;
the requests of a port to a die, and those that a producer holds for one package; the segments from a die to a port; the rows, and the control
messages of collectives, of one package; the requests of a collective from one package (R351, R355, R419, R420, R421). -/
def inLine (m m' : Packet) : Bool :=
  let die (x : Nat) : Nat × Nat := (x / 512, dieOf (x % 512))
  let table (k : Nat) : Bool := k == 1 || k == 2
  let asks (k : Nat) : Bool := k == 15 || k == 22 || k == 25
  let a := bodyKind m.body
  let b := bodyKind m'.body
  if a = 0 ∧ b = 0 ∨ table a ∧ table b then m.src == m'.src && m.dst == m'.dst
  else if a = 3 ∧ b = 3 then
    (m.src == m'.src && die m.dst == die m'.dst) || (m.dst == m'.dst && m.src / 512 == m'.src / 512 && m.src / 512 != m.dst / 512)
  else if a = 4 ∧ b = 4 then m.dst == m'.dst && die m.src == die m'.src
  else if passedOn m.body ∧ passedOn m'.body then m.src / 512 == m'.src / 512
  else if asks a ∧ asks b then m.src / 512 == m'.src / 512 && m.dst == m'.dst
  else false

/-- Message `i` stands behind another one that is taken first, or is still on its way: it reaches its agent after `Config.msgCycles` cycles at the
earliest. It is asked of the messages whose order the spec gives; what ends a pull and an event message are taken whenever they come (DESIGN
CHOICE, log 110). -/
def State.notFirst (s : State) (i : Nat) : Bool :=
  match s.net[i]? with
  | some m => decide (s.gtc < m.made + Config.msgCycles) || (s.net.take i).any (fun x => inLine x m)
  | none => false

/-- Take message `i` off the network. -/
def State.takeMsg (s : State) (i : Nat) : State := { s with net := removeAt s.net i }

/-- GROUP and GEN of the launch that core `c` runs (R159, R406). -/
def State.groupOf (s : State) (c : Nat) : BitVec 16 × BitVec 8 :=
  match s.launchOf c with
  | some l => (l.rcd.group, l.rcd.gen)
  | none => (0, 0)

end Sys2Proof.Machine
end

