-- ==== Sys2Proof/Machine/Access.lean ====
section
/-! DEFINITION. Scratchpad and global accesses of contexts: checks, data loss, conflicts, retries, and the bytes themselves
(spec 02 R31, 12 R239 to R245, 13 R252 to R257). -/
namespace Sys2Proof.Machine

/-- The cycle since which the current context has been refused at a line, this one included (R245). -/
def State.refusedSince (s : State) (l : Nat) : Nat :=
  match (s.ctx s.cur.core s.cur.role).wait with
  | some (.retry t _) => t
  | _ => s.refusedAt s.me l

/-- What a refused access does to a context (R239, R245): the exception, or a wait of at most 2^20 cycles. -/
def State.clashRes (s : State) (t : Touch) (k : Clash) : Res :=
  match k with
  | .conflict l o => .trap 0x22 0 (BitVec.ofNat 64 (64 * l)) (s.agentWord o)
  | .retry l o =>
    if s.refusedSince l + 2 ^ 20 ≤ s.gtc then .trap 0x23 0 (BitVec.ofNat 64 (64 * l)) (s.agentWord o)
    else .sleep (s.refuse t l (s.refusedSince l)) (.retry (s.refusedSince l) l)

/-- The spans of scratchpad pieces as physical addresses. -/
def spSpans (c : Nat) (ps : List (Nat × Nat)) : List (Nat × Nat) := ps.map (fun p => (spAddr c p.1, p.2))

/-- Scratchpad address of a physical one in the current core's aperture (R370, cause 0x25). -/
def spOfPhys (c pa : Nat) : Nat := pa - spAddr c 0

/-- Admit one access of the current context over spans: data loss, conflicts, then `k` on the recorded state. -/
def State.grant (s : State) (write sync : Bool) (spans : List (Nat × Nat)) (badVal : Nat → Nat)
    (k : State → Res) : Res :=
  let bad := if write then (if s.bad.isEmpty then none else spans.findSome? (fun p => s.badPartial p.1 p.2)) else s.badIn spans
  let t : Touch := { agent := s.me, write := write, sync := sync, spans := spans }
  match s.clash t with
  | some c => s.clashRes t c
  | none =>
    match bad with
    | some a => .trap 0x25 0 (BitVec.ofNat 64 (badVal a)) 0
    | none => k (s.record t)

/-- A scratchpad read by the current context at checked pieces. -/
def State.spLoad (s : State) (ps : List (Nat × Nat)) (k : State → List Byte → Res) : Res :=
  let c := s.cur.core
  s.grant false false (spSpans c ps) (spOfPhys c) (fun s => k s (ps.flatMap (fun p => s.raw (spAddr c p.1) p.2)))

/-- A scratchpad write by the current context at checked pieces (R385 clears errors that it overwrites). Firmware reaches the bytes that
are homed in the scratchpad, where a block may stand pinned (R347). -/
def State.spStore (s : State) (ps : List (Nat × Nat)) (bs : List Byte) (k : State → Res) : Res :=
  let c := s.cur.core
  match (if s.cur.role = .F then ps.find? (fun p => s.pinned .firmware (spAddr c p.1) p.2) else none) with
  | some p => .trap 0x26 0 (BitVec.ofNat 64 p.1) 0
  | none =>
    s.grant true false (spSpans c ps) (spOfPhys c) (fun s =>
      let s := ps.foldl (fun s p => s.clearBad (spAddr c p.1) p.2) s
      k (s.writePieces c ps bs))

/-- The range and alignment checks of R31 for the current context, then `k`. -/
def State.spChecked (s : State) (e : Word) (n align : Nat) (k : Res) : Res :=
  match s.spCheck s.cur.core s.cur.role e n align with
  | some cause => .trap cause 0 e 0
  | none => k

/-- Translation and permission of parts, write refusals (R253 steps 2 to 4), then `k`. -/
def State.checked (s : State) (write : Bool) (parts : List (Word × Nat)) (k : State → List Part → Res) : Res :=
  let c := s.cur.core
  let r := s.cur.role
  match s.xlatParts c (s.aspaceOf c r) (if write then .write else .read) parts with
  | .error f => Res.of f 0
  | .ok (s, ps) =>
    if write then
      match (parts.zip ps).find? (fun p => match region p.2.pa with | .decoded _ _ => true | _ => false) with
      | some p => .trap 0x24 0 p.1.1 0
      | none =>
        match (parts.zip ps).find? (fun p => s.pinned (if r = .F then .firmware else .trio) p.2.pa p.2.len) with
        | some p => .trap 0x26 0 p.1.1 0
        | none => k s ps
    else k s ps

/-- A release made by the store of this instruction at `spans`: pending FENCEs and its own order (R235, R243). -/
def State.storeReleases (s : State) (sc : Option Scope) (sync : Bool) (spans : List (Nat × Nat)) : State :=
  let c := s.cur.core
  let r := s.cur.role
  let a := s.me
  let put (s : State) (sc : Scope) (k : Clock) : State := spans.foldl (fun s p => s.addRelease p.1 p.2 a sc k) s
  let s :=
    if sync then
      let fs := (s.ctx c r).fences
      let s := s.modCtx c r (fun x => { x with fences := [] })
      fs.foldl (fun s f => ((put s f.1 f.2).learn a f.1 f.2).widen f.2 (agentInst f.1 a)) s
    else s
  match sc with
  | some sc =>
    let (s, k) := s.release a sc
    put s sc k
  | none => s

/-- An acquire made by the load of this instruction over `spans`, and what a later FENCE may acquire (R233, R235). -/
def State.loadAcquires (s : State) (sc : Option Scope) (spans : List (Nat × Nat)) : State :=
  if spans.isEmpty then s
  else
    let now := s.order.serial
    let s := s.modCtx s.cur.core s.cur.role (fun x => { x with lastLoad := spans.map (fun p => (p.1, p.2, now)) })
    match sc with
    | some sc => spans.foldl (fun s p => s.acquireAt s.me sc p.1 p.2 now) s
    | none => s

/-- A contribution of agent `a` to some of these bytes waits for lower indices, or for such a one (R267). -/
def State.contributes (s : State) (a : Agent) (spans : List (Nat × Nat)) : Bool :=
  s.order.counters.any (fun p => (p.2.waiting ++ p.2.behind).any (fun k => k.agent == a && k.elems.any (fun e =>
    spans.any (fun q => overlap (64 * p.1 + e.1) e.2.1 q.1 q.2))))

/-- An atomic or synchronising access of the current context stands behind its own waiting contributions to the same bytes (R254). An ordinary
one is an access to a line whose round is open, which conflicts (R267). -/
def State.inOrder (s : State) (spans : List (Nat × Nat)) (k : Res) : Res :=
  if s.contributes s.me spans then .sleep s .behind else k

/-- The write scope of the current context's ordinary stores (R242, R243). -/
def State.wscope (s : State) : Scope := (scopeOf ((s.ctx s.cur.core s.cur.role).reg 0x210).toNat).getD .core

/-- Sign- or zero-extension of the little-endian bytes that a load returns (R102, R256). -/
def loadValue (ty : STy) (bs : List Byte) : Word :=
  if stySigned ty then sxN (8 * styBytes ty) (leNat bs) else BitVec.ofNat 64 (leNat bs)

/-- Effective address: base plus sign-extended offset, wrapping (R102, R252). -/
def effAddr (base : Word) (off : BitVec 16) : Word := base + off.signExtend 64

end Sys2Proof.Machine
end

