-- ==== Sys2Proof/Machine/Scalar.lean ====
section
/-! DEFINITION. Scalar arithmetic, immediate forms, scratchpad loads and stores (spec 05 R93 to R104). -/
namespace Sys2Proof.Machine

/-- Latency of the scalar ALU class (R26, R94). -/
def alu : Option Nat := some 1
/-- Latency of the class of MUL (R26, R94). -/
def mulLat : Option Nat := some 3

/-- A three-register form: `f` of G[A] and G[B] into G[D] (R97). -/
def scalar3 (h : Hdr) (d a b : GReg) (lat : Option Nat) (f : Word → Word → Word) (s : State) : Out :=
  issue h .all [s.gT a, s.gT b] [s.gT d] (fun s => .done (s.putG d (f (s.g a) (s.g b)) lat)) s

/-- A divide: it waits at issue until the context's divider is free (R94, R97). -/
def divide3 (h : Hdr) (d a b : GReg) (f : Word → Word → Word) (s : State) : Out :=
  issue h .all [s.gT a, s.gT b] [s.gT d, .divider s.cur.role] (fun s => .done (s.putDivide d (f (s.g a) (s.g b)))) s

/-- A form with one register operand (R97, R98). -/
def scalar2 (h : Hdr) (d a : GReg) (lat : Option Nat) (f : Word → Word) (s : State) : Out :=
  issue h .all [s.gT a] [s.gT d] (fun s => .done (s.putG d (f (s.g a)) lat)) s

/-- A four-register form (R97). -/
def scalar4 (h : Hdr) (d a b c : GReg) (lat : Option Nat) (f : Word → Word → Word → Word) (s : State) : Out :=
  issue h .all [s.gT a, s.gT b, s.gT c] [s.gT d] (fun s => .done (s.putG d (f (s.g a) (s.g b) (s.g c)) lat)) s

/-- 1 for true. -/
def flag (p : Bool) : Word := if p then 1 else 0

/-- Bits [127:64] of a signed product (R97). -/
def mulHigh (a b : Word) : Word := BitVec.ofInt 64 (a.toInt * b.toInt / (2 ^ 64 : Nat))
/-- Bits [127:64] of an unsigned product (R97). -/
def mulHighU (a b : Word) : Word := BitVec.ofNat 64 (a.toNat * b.toNat / 2 ^ 64)
/-- The shift amount: bits [5:0] (R97). -/
def sh (b : Word) : Nat := b.toNat % 64
/-- Number of zero bits above the highest set bit (R97). -/
def countLead (a : Word) : Word := if a = 0 then 64 else BitVec.ofNat 64 (63 - Nat.log2 a.toNat)
/-- Number of zero bits below the lowest set bit (R97). -/
def countTrail (a : Word) : Word :=
  BitVec.ofNat 64 (((List.range 64).find? (fun i => Nat.testBit a.toNat i)).getD 64)
/-- Number of set bits (R97). -/
def popCount (a : Word) : Word := BitVec.ofNat 64 ((List.range 64).filter (fun i => Nat.testBit a.toNat i)).length
/-- BFX of R100. -/
def bitExtract (signed : Bool) (pos len : Nat) (a : Word) : Word :=
  let f := a.toNat / 2 ^ pos % 2 ^ len
  if signed then sxN len f else BitVec.ofNat 64 f
/-- BFI of R100 into `v`. -/
def bitInsert (pos len : Nat) (a v : Word) : Word :=
  BitVec.ofNat 64 (mergeBits v.toNat ((2 ^ len - 1) * 2 ^ pos) (a.toNat % 2 ^ len * 2 ^ pos))

/-- ADD (R97). -/
def execAdd (h : Hdr) (d a b : GReg) (s : State) : Out := scalar3 h d a b alu (fun a b => a + b) s

/-- SUB (R97). -/
def execSub (h : Hdr) (d a b : GReg) (s : State) : Out := scalar3 h d a b alu (fun a b => a - b) s

/-- MUL (R97). -/
def execMul (h : Hdr) (d a b : GReg) (s : State) : Out := scalar3 h d a b mulLat (fun a b => a * b) s

/-- MULH (R97). -/
def execMulh (h : Hdr) (d a b : GReg) (s : State) : Out := scalar3 h d a b mulLat (fun a b => mulHigh a b) s

/-- MULHN (R97). -/
def execMulhn (h : Hdr) (d a b : GReg) (s : State) : Out := scalar3 h d a b mulLat (fun a b => mulHighU a b) s

/-- DIV (R97, R58). -/
def execDiv (h : Hdr) (d a b : GReg) (s : State) : Out := divide3 h d a b (fun a b => (divS a b).1) s

/-- DIVN (R97, R58). -/
def execDivn (h : Hdr) (d a b : GReg) (s : State) : Out := divide3 h d a b (fun a b => (divU a b).1) s

/-- REM (R97, R58). -/
def execRem (h : Hdr) (d a b : GReg) (s : State) : Out := divide3 h d a b (fun a b => (divS a b).2) s

/-- REMN (R97, R58). -/
def execRemn (h : Hdr) (d a b : GReg) (s : State) : Out := divide3 h d a b (fun a b => (divU a b).2) s

/-- AND (R97). -/
def execAnd (h : Hdr) (d a b : GReg) (s : State) : Out := scalar3 h d a b alu (fun a b => a &&& b) s

/-- OR (R97). -/
def execOr (h : Hdr) (d a b : GReg) (s : State) : Out := scalar3 h d a b alu (fun a b => a ||| b) s

/-- XOR (R97). -/
def execXor (h : Hdr) (d a b : GReg) (s : State) : Out := scalar3 h d a b alu (fun a b => a ^^^ b) s

/-- ANDN (R97). -/
def execAndn (h : Hdr) (d a b : GReg) (s : State) : Out := scalar3 h d a b alu (fun a b => a &&& ~~~b) s

/-- SHL (R97). -/
def execShl (h : Hdr) (d a b : GReg) (s : State) : Out := scalar3 h d a b alu (fun a b => a <<< sh b) s

/-- SHR (R97). -/
def execShr (h : Hdr) (d a b : GReg) (s : State) : Out := scalar3 h d a b alu (fun a b => a >>> sh b) s

/-- SAR (R97). -/
def execSar (h : Hdr) (d a b : GReg) (s : State) : Out := scalar3 h d a b alu (fun a b => a.sshiftRight (sh b)) s

/-- ROL (R97). -/
def execRol (h : Hdr) (d a b : GReg) (s : State) : Out := scalar3 h d a b alu (fun a b => a.rotateLeft (sh b)) s

/-- MIN (R97). -/
def execMin (h : Hdr) (d a b : GReg) (s : State) : Out := scalar3 h d a b alu (fun a b => if a.toInt ≤ b.toInt then a else b) s

/-- MAX (R97). -/
def execMax (h : Hdr) (d a b : GReg) (s : State) : Out := scalar3 h d a b alu (fun a b => if b.toInt ≤ a.toInt then a else b) s

/-- MINN (R97). -/
def execMinn (h : Hdr) (d a b : GReg) (s : State) : Out := scalar3 h d a b alu (fun a b => if a.toNat ≤ b.toNat then a else b) s

/-- MAXN (R97). -/
def execMaxn (h : Hdr) (d a b : GReg) (s : State) : Out := scalar3 h d a b alu (fun a b => if b.toNat ≤ a.toNat then a else b) s

/-- SEQ (R97). -/
def execSeq (h : Hdr) (d a b : GReg) (s : State) : Out := scalar3 h d a b alu (fun a b => flag (a == b)) s

/-- SNE (R97). -/
def execSne (h : Hdr) (d a b : GReg) (s : State) : Out := scalar3 h d a b alu (fun a b => flag (a != b)) s

/-- SLT (R97). -/
def execSlt (h : Hdr) (d a b : GReg) (s : State) : Out := scalar3 h d a b alu (fun a b => flag (decide (a.toInt < b.toInt))) s

/-- SLTN (R97). -/
def execSltn (h : Hdr) (d a b : GReg) (s : State) : Out := scalar3 h d a b alu (fun a b => flag (decide (a.toNat < b.toNat))) s

/-- SEL (R97). -/
def execSel (h : Hdr) (d a b c : GReg) (s : State) : Out := scalar4 h d a b c alu (fun a b c => if c = 0 then b else a) s

/-- MADD (R97). -/
def execMadd (h : Hdr) (d a b c : GReg) (s : State) : Out := scalar4 h d a b c mulLat (fun a b c => a * b + c) s

/-- ADDI (R98). -/
def execAddi (h : Hdr) (d a : GReg) (imm : BitVec 32) (s : State) : Out := scalar2 h d a alu (fun a => a + imm.signExtend 64) s

/-- ANDI (R98). -/
def execAndi (h : Hdr) (d a : GReg) (imm : BitVec 32) (s : State) : Out := scalar2 h d a alu (fun a => a &&& imm.setWidth 64) s

/-- ORI (R98). -/
def execOri (h : Hdr) (d a : GReg) (imm : BitVec 32) (s : State) : Out := scalar2 h d a alu (fun a => a ||| imm.setWidth 64) s

/-- XORI (R98). -/
def execXori (h : Hdr) (d a : GReg) (imm : BitVec 32) (s : State) : Out := scalar2 h d a alu (fun a => a ^^^ imm.setWidth 64) s

/-- SLTI (R98). -/
def execSlti (h : Hdr) (d a : GReg) (imm : BitVec 32) (s : State) : Out := scalar2 h d a alu (fun a => flag (decide (a.toInt < (imm.signExtend 64).toInt))) s

/-- SLTNI (R98). -/
def execSltni (h : Hdr) (d a : GReg) (imm : BitVec 32) (s : State) : Out := scalar2 h d a alu (fun a => flag (decide (a.toNat < (imm.signExtend 64).toNat))) s

/-- MULI (R98). -/
def execMuli (h : Hdr) (d a : GReg) (imm : BitVec 32) (s : State) : Out := scalar2 h d a mulLat (fun a => a * imm.signExtend 64) s

/-- LIH (R98). -/
def execLih (h : Hdr) (d a : GReg) (imm : BitVec 32) (s : State) : Out := scalar2 h d a alu (fun a => (imm ++ a.extractLsb' 0 32 : BitVec 64)) s

/-- SHLI (R98). -/
def execShli (h : Hdr) (d a : GReg) (n : BitVec 6) (s : State) : Out := scalar2 h d a alu (fun a => a <<< n.toNat) s

/-- SHRI (R98). -/
def execShri (h : Hdr) (d a : GReg) (n : BitVec 6) (s : State) : Out := scalar2 h d a alu (fun a => a >>> n.toNat) s

/-- SARI (R98). -/
def execSari (h : Hdr) (d a : GReg) (n : BitVec 6) (s : State) : Out := scalar2 h d a alu (fun a => a.sshiftRight n.toNat) s

/-- LI (R98). -/
def execLi (h : Hdr) (d : GReg) (imm : BitVec 32) (s : State) : Out :=
  issue h .all [] [s.gT d] (fun s => .done (s.putG d (imm.signExtend 64) alu)) s

/-- CLZ (R97). -/
def execClz (h : Hdr) (d a : GReg) (s : State) : Out := scalar2 h d a alu countLead s

/-- CTZ (R97). -/
def execCtz (h : Hdr) (d a : GReg) (s : State) : Out := scalar2 h d a alu countTrail s

/-- POPC (R97). -/
def execPopc (h : Hdr) (d a : GReg) (s : State) : Out := scalar2 h d a alu popCount s

/-- BFX (R100). -/
def execBfx (h : Hdr) (d a : GReg) (signed : Bool) (pos len1 : BitVec 6) (s : State) : Out :=
  scalar2 h d a alu (bitExtract signed pos.toNat (len1.toNat + 1)) s

/-- BFI, which reads D (R100). -/
def execBfi (h : Hdr) (d a : GReg) (pos len1 : BitVec 6) (s : State) : Out :=
  issue h .all [s.gT a, s.gT d] [s.gT d]
    (fun s => .done (s.putG d (bitInsert pos.toNat (len1.toNat + 1) (s.g a) (s.g d)) alu)) s

/-- LDS (R102). -/
def execLds (h : Hdr) (ty : STy) (swz : BitVec 3) (d a : GReg) (off : BitVec 16) (s : State) : Out :=
  issue h .all [s.gT a] [s.gT d] (fun s =>
    let e := effAddr (s.g a) off
    let n := styBytes ty
    s.spChecked e n n (s.spLoad (spPieces swz e.toNat n) (fun s bs => .done (s.putG d (loadValue ty bs) none)))) s

/-- STS (R102). -/
def execSts (h : Hdr) (ty : STy) (swz : BitVec 3) (a b : GReg) (off : BitVec 16) (s : State) : Out :=
  issue h .all [s.gT a, s.gT b] [] (fun s =>
    let e := effAddr (s.g a) off
    let n := styBytes ty
    s.spChecked e n n (s.spStore (spPieces swz e.toNat n) (leBytes n (s.g b).toNat) .done)) s

end Sys2Proof.Machine
end

