-- ==== Sys2Proof/Machine/Branch.lean ====
section
/-! DEFINITION. Branches, waits for time and events, HALT (spec 05 R105 to R108, R109, R112 to R119). -/
namespace Sys2Proof.Machine

/-- The PC of the current context: the address of the instruction that issues. -/
def State.pc (s : State) : Word := (s.ctx s.cur.core s.cur.role).pc

/-- A displacement in words from a base (R106). -/
def wordDisp (base : Word) (disp : BitVec 24) : Word := base + disp.signExtend 64 * 8

/-- Transfer of control with its check (R106); `s` is the state that the branch leaves. -/
def transfer (s : State) (t : Word) (bubbles : Nat) : Res := if isCode t then .jump s t bubbles else .trap 0x06 0 t 0

/-- The conditions of BCC (R77). -/
def condHolds (cc : Cond) (a b : Word) : Bool :=
  match cc with
  | .eq => a == b
  | .ne => a != b
  | .lt => decide (a.toInt < b.toInt)
  | .ge => decide (b.toInt ≤ a.toInt)
  | .ltn => decide (a.toNat < b.toNat)
  | .gen => decide (b.toNat ≤ a.toNat)

/-- BCC (R106, R107). -/
def execBcc (h : Hdr) (cc : Cond) (a b : GReg) (disp : BitVec 24) (s : State) : Out :=
  issue h .all [s.gT a, s.gT b] [] (fun s =>
    if condHolds cc (s.g a) (s.g b) then transfer s (wordDisp s.pc disp) 2 else .done s) s

/-- J (R106, R107). -/
def execJ (h : Hdr) (disp : BitVec 24) (s : State) : Out :=
  issue h .all [] [] (fun s => transfer s (wordDisp s.pc disp) 2) s

/-- Write a branch target register; the distance counts from this PBR (R106, R107). -/
def prepare (s : State) (d : BReg) (t : Word) : Res :=
  if isCode t then
    .done (s.modCtx s.cur.core s.cur.role (fun x => { x.setB d t with since := SMap.set 3 x.since d.toNat 0 }))
  else .trap 0x06 0 t 0

/-- PBR (R106). -/
def execPbr (h : Hdr) (d : BReg) (t : PbrTarget) (s : State) : Out :=
  match t with
  | .rel disp => issue h .all [] [] (fun s => prepare s d (wordDisp s.pc disp)) s
  | .reg a disp => issue h .all [s.gT a] [] (fun s => prepare s d (wordDisp (s.g a) disp)) s

/-- Bubbles of BR and BRL: 3 − d while d is below 3 (R107). -/
def brBubbles (x : Ctx) (a : BReg) : Nat := 3 - SMap.get 3 x.since a.toNat

/-- BR (R106 to R108). -/
def execBr (h : Hdr) (a : BReg) (s : State) : Out :=
  issue h .all [] [] (fun s =>
    let x := s.ctx s.cur.core s.cur.role
    transfer s (x.getB a) (brBubbles x a)) s

/-- BRL: G31 := pc + 8 with scalar ALU latency (R106 to R108). -/
def execBrl (h : Hdr) (a : BReg) (s : State) : Out :=
  issue h .all [] [s.gT 31] (fun s =>
    let x := s.ctx s.cur.core s.cur.role
    transfer (s.putG 31 (s.pc + 8) alu) (x.getB a) (brBubbles x a)) s

/-- JR (R106, R107). -/
def execJr (h : Hdr) (a : GReg) (s : State) : Out := issue h .all [s.gT a] [] (fun s => transfer s (s.g a) 3) s

/-- NOP: its TOK bits and its WAIT alone (R109). -/
def execNop (h : Hdr) (s : State) : Out := issue h .all [] [] .done s

/-- The time that WAITT read when it issued, where it has slept since (R93, R112). -/
def State.waitTime (s : State) (a : GReg) : Word :=
  match (s.ctx s.cur.core s.cur.role).wait with
  | some (.waitt t) => t
  | _ => s.g a

/-- WAITT (R112). -/
def execWaitt (h : Hdr) (a : GReg) (s : State) : Out :=
  issue h .all [s.gT a] [] (fun s => if (s.waitTime a).toNat ≤ s.gtc then .done s else .sleep s (.waitt (s.waitTime a))) s

/-- Whether command `q` of chain `n` has retired: its number is not among the live ones (R283). -/
def Core.retired (k : Core) (n q : Nat) : Bool := !(k.chain n).cmds.any (fun e => e.seq == q && e.live)

/-- A sequence number that names a command which the copy chain has accepted: neither 0 nor above CHTAIL0 (R113). -/
def Core.namesCopy (k : Core) (q : Nat) : Bool := q != 0 && decide (q ≤ (k.reg 0x318).toNat)

/-- What WAITT `.p` read when it issued: the time, the number, and whether it named a command then (R93, R113). -/
def State.waitPromise (s : State) (a b : GReg) : Word × Word × Bool :=
  match (s.ctx s.cur.core s.cur.role).wait with
  | some (.waittP t q named) => (t, q, named)
  | _ => (s.g a, s.g b, (s.core s.cur.core).namesCopy (s.g b).toNat)

/-- WAITT `.p` (R113). -/
def execWaittP (h : Hdr) (a b : GReg) (s : State) : Out :=
  issue h .all [s.gT a, s.gT b] [] (fun s =>
    let (t, q, named) := s.waitPromise a b
    if t.toNat ≤ s.gtc then
      if !named || (s.core s.cur.core).retired 0 q.toNat then .done s else .trap 0x31 0 q 0
    else .sleep s (.waittP t q named)) s

/-- A WFE has cleared the event bit in this cycle, and consumes every setting of it (R115). -/
def State.eventTaken (s : State) (c : Nat) : Bool := (s.core c).evClr == s.gtc + 1

/-- The clear that a WFE makes (R115). -/
def State.clearEvent (s : State) (c : Nat) : State := s.modCore c (fun k => { k with evbit := false, evClr := s.gtc + 1 })

/-- WFE (R115): it completes where the bit is set, where another WFE of the core has cleared it in this cycle, and where an event woke
it, whose wake has cleared the bit. -/
def execWfe (h : Hdr) (s : State) : Out :=
  issue h .all [] [] (fun s =>
    let c := s.cur.core
    if (s.ctx c s.cur.role).wait = some .wfe then .done s
    else if (s.core c).evbit || s.eventTaken c then .done (s.clearEvent c)
    else .sleep s .wfe) s

/-- Set the event bit of a core, unless a WFE of this cycle has consumed the setting; each setting pulses source 8 (R114, R115,
R279). -/
def State.setEvent (s : State) (c : Nat) : State :=
  let taken := s.eventTaken c
  s.modCore c (fun k => { k with evbit := k.evbit || !taken, evSet := s.gtc + 1, pulses := k.pulses ++ [(8, .core, {})] })

/-- SEV (R116). -/
def execSev (h : Hdr) (s : State) : Out := issue h .all [] [] (fun s => .done (s.setEvent s.cur.core)) s

/-- SEV `.remote` (R116). -/
def execSevRemote (h : Hdr) (a : GReg) (s : State) : Out :=
  issue h .all [s.gT a] [] (fun s =>
    let v := (s.g a).toNat
    if 2 ^ 15 ≤ v ∨ 319 < v % 512 then .trap 0x02 0 0 0
    else if v = s.podId s.cur.core then .done (s.setEvent s.cur.core)
    else
      let (g, n) := s.groupOf s.cur.core
      .done (s.send (s.podId s.cur.core) v g n .event)) s

/-- HALT (R119). -/
def execHalt (h : Hdr) (s : State) : Out := issue h .all [] [] .halt s

/-- WFE_WAKE: the bit is set and contexts of the core sleep in WFE; all of them complete and the bit clears once (R115). -/
def execWfeWake (s : State) : Out :=
  let c := s.cur.core
  let k := s.core c
  let asleep := [Role.L, .C, .S, .F].filter (fun r => (k.ctx r).run = .sleeping ∧ (k.ctx r).wait = some .wfe)
  if k.evbit ∧ ¬ asleep.isEmpty then
    .next (asleep.foldl (fun s r => s.wake c r) (s.clearEvent c))
  else .next s

/-- WAITT_EXPIRE: GTC has reached the time that the context sleeps for (R112). -/
def execWaittExpire (s : State) : Out :=
  let x := s.ctx s.cur.core s.cur.role
  match x.run, x.wait with
  | .sleeping, some (.waitt t) => if t.toNat ≤ s.gtc then .next (s.wake s.cur.core s.cur.role) else .next s
  | .sleeping, some (.waittP t _ _) => if t.toNat ≤ s.gtc then .next (s.wake s.cur.core s.cur.role) else .next s
  | _, _ => .next s

/-- REMOTE_EVENT_ARRIVAL: an event message sets the bit of the core that it names (R114, R116). -/
def execRemoteEventArrival (msg : Nat) (s : State) : Out :=
  match s.net[msg]? with
  | some m => match m.body with
    | .event => .next ((s.takeMsg msg).setEvent (m.dst % 512))
    | _ => .next s
  | none => .next s

/-- ILLOP (R81). -/
def execIllop (_w : Word) (s : State) : Out :=
  .next (s.takeTrap s.cur.core s.cur.role 0x01 0 0 0 s.pc)

end Sys2Proof.Machine
end

