-- ==== Sys2Proof/Machine/Keccak.lean ====
section
/-! DEFINITION. SHA3-256 and KMAC256, which R451 and R452 name: Keccak-f[1600] on 25 lanes of 64 bits, and the sponge at a rate of 136 bytes. The
spec gives the names; the functions are those that the names stand for (log 8). -/
namespace Sys2Proof.Machine

/-- Rotation of a 64-bit lane to the left. -/
def rotl (x n : Nat) : Nat := x * 2 ^ n % 2 ^ 64 + x / 2 ^ (64 - n)

/-- Rotation of the lane at x + 5y. -/
def keccakRot : List Nat :=
  [0, 1, 62, 28, 27, 36, 44, 6, 55, 20, 3, 10, 43, 25, 39, 41, 45, 15, 21, 8, 18, 2, 61, 56, 14]

/-- Round constants. -/
def keccakRc : List Nat :=
  [0x0000000000000001, 0x0000000000008082, 0x800000000000808A, 0x8000000080008000, 0x000000000000808B, 0x0000000080000001,
   0x8000000080008081, 0x8000000000008009, 0x000000000000008A, 0x0000000000000088, 0x0000000080008009, 0x000000008000000A] ++
  [0x000000008000808B, 0x800000000000008B, 0x8000000000008089, 0x8000000000008003, 0x8000000000008002, 0x8000000000000080,
   0x000000000000800A, 0x800000008000000A, 0x8000000080008081, 0x8000000000008080, 0x0000000080000001, 0x8000000080008008]

/-- One round. -/
def keccakRound (a : List Nat) (rc : Nat) : List Nat :=
  let lane (l : List Nat) (x y : Nat) : Nat := l.getD (x % 5 + 5 * y) 0
  let c := (List.range 5).map (fun x => (List.range 5).foldl (fun v y => v ^^^ lane a x y) 0)
  let t := (List.range 25).map (fun i => a.getD i 0 ^^^ c.getD ((i + 4) % 5) 0 ^^^ rotl (c.getD ((i + 1) % 5) 0) 1)
  let b := (List.range 25).map (fun i =>
    let from_ := (i % 5 + 3 * (i / 5)) % 5 + 5 * (i % 5)
    rotl (t.getD from_ 0) (keccakRot.getD from_ 0))
  let z := (List.range 25).map (fun i =>
    b.getD i 0 ^^^ ((2 ^ 64 - 1 - lane b (i + 1) (i / 5)) &&& lane b (i + 2) (i / 5)))
  match z with
  | v :: vs => (v ^^^ rc) :: vs
  | [] => []

/-- Keccak-f[1600]. -/
def keccakF (a : List Nat) : List Nat := keccakRc.foldl keccakRound a

/-- Absorb blocks of 136 bytes; the number counts blocks. -/
def keccakAbsorb : Nat → List Byte → List Nat → List Nat
  | 0, _, a => a
  | n + 1, bs, a =>
    keccakAbsorb n (bs.drop 136) (keccakF (a.mapIdx (fun i v => v ^^^ (if i < 17 then leNat ((bs.drop (8 * i)).take 8) else 0))))

/-- The first 32 bytes of the sponge's output, with the domain byte behind the message. -/
def sponge256 (domain : Byte) (bs : List Byte) : List Byte :=
  let n := bs.length / 136 + 1
  let pad := (domain :: leBytes (136 * n - bs.length - 1) 0)
  let full := bs ++ pad
  let full := full.take (136 * n - 1) ++ (full.drop (136 * n - 1)).map (fun b => b ||| 0x80)
  ((keccakAbsorb n full (List.replicate 25 0)).take 4).flatMap (leBytes 8)

/-- SHA3-256. -/
def sha3 (bs : List Byte) : List Byte := sponge256 0x06 bs

/-- A length before its bytes, as few as hold it; and behind them. -/
def kmacLeft (n : Nat) : List Byte := let bs := if n < 256 then leBytes 1 n else (leBytes 2 n).reverse; BitVec.ofNat 8 bs.length :: bs
/-- The same with the count behind. -/
def kmacRight (n : Nat) : List Byte := let bs := if n < 256 then leBytes 1 n else (leBytes 2 n).reverse; bs ++ [BitVec.ofNat 8 bs.length]
/-- A string of bytes with its length in bits. -/
def kmacString (bs : List Byte) : List Byte := kmacLeft (8 * bs.length) ++ bs
/-- Filled up to a whole number of blocks. -/
def kmacPad (bs : List Byte) : List Byte :=
  let x := kmacLeft 136 ++ bs
  x ++ leBytes ((136 - x.length % 136) % 136) 0

/-- KMAC256 of 256 bits under a key, with text and customization string. -/
def kmac256 (key text custom : List Byte) : List Byte :=
  sponge256 0x04 (kmacPad (kmacString [0x4B, 0x4D, 0x41, 0x43] ++ kmacString custom) ++ kmacPad (kmacString key) ++ text ++ kmacRight 256)

end Sys2Proof.Machine
end

