-- ==== Sys2Proof/Machine/Operands.lean ====
section
/-! DEFINITION. Operand forms of vector and tile instructions: lanes, masks, rows and their targets (spec 02 R13, R14, 06
R121, R122, R124). -/
namespace Sys2Proof.Machine

/-- Lane `i` of a row of `bits`-bit lanes. -/
def lane (bits row i : Nat) : Nat := row / 2 ^ (i * bits) % 2 ^ bits

/-- The first `n` lanes of a row, low lane first. -/
def lanesOf (bits : Nat) : Nat → Nat → List Nat
  | 0, _ => []
  | n + 1, x => x % 2 ^ bits :: lanesOf bits n (x / 2 ^ bits)

/-- Lanes put together into a row. -/
def packLanes (bits : Nat) (l : List Nat) : Nat := l.foldr (fun v acc => v % 2 ^ bits + acc * 2 ^ bits) 0

/-- The activity of `n` lanes; a mask bit governs `per` lanes: two of them for 4-bit elements (R13). -/
def activity (k : Mask) (n per : Nat) : List Bool := (List.range n).map (fun i => k.getLsbD (i / per))

/-- Lanes that one mask bit governs outside conversions (R13). -/
def perBit (t : ETy) : Nat := if etyBits t = 4 then 2 else 1

/-- The bits of a row that active lanes occupy. -/
def laneMask (bits : Nat) (act : List Bool) : Nat := packLanes bits (act.map (fun b => if b then 2 ^ bits - 1 else 0))

/-- A row and its scale containers are one register for R27 and R28 (R124). -/
def rowTs (i : Nat) : List Target := [.row i, .side i]

/-- The targets of vector register `v` as it resolves at issue (R14). -/
def State.vT (s : State) (v : VReg) : List Target := rowTs (s.issued.rowOf v)

/-- The mask register as a target. -/
def kT (k : KReg) : Target := .k k.toNat

/-- The row of vector register `v`, as a natural. -/
def State.v (s : State) (v : VReg) : Nat := (s.issued.row (s.issued.rowOf v)).toNat
/-- The scale containers of the row of vector register `v`. -/
def State.vSide (s : State) (v : VReg) : Nat := ((s.core s.cur.core).sideRow (s.issued.rowOf v)).toNat
/-- Mask register `k`. -/
def State.kreg (s : State) (k : KReg) : Mask := s.issued.getK k

/-- Whether the launch on the core reserves tile `t` (R158); firmware-enqueued work is not bound. While no launch runs on the core no tile counts
as reserved, so that firmware's SWR of ACCSEL and TSHAPE raises RSVD there too (DESIGN CHOICE, log 62). -/
def State.tileOk (s : State) (c t : Nat) : Bool :=
  match s.launchOf c with
  | some l => Nat.testBit l.rcd.tres t
  | none => false

/-- A result for the row of vector register `v` (R14, R26). -/
def State.putV (s : State) (v : VReg) (mask value : Nat) (lat : Option Nat) : State :=
  s.put s.cur.core (.row (s.issued.rowOf v)) mask value lat

/-- A result for the scale containers of the row of vector register `v` (R124). -/
def State.putSide (s : State) (v : VReg) (mask value : Nat) (lat : Option Nat) : State :=
  s.put s.cur.core (.side (s.issued.rowOf v)) mask value lat

/-- A result for bits of mask register `k`; K0 is never written (R11). -/
def State.putK (s : State) (k : KReg) (mask value : Nat) (lat : Option Nat) : State :=
  if k = 0 then s else s.put s.cur.core (kT k) mask value lat

/-- Issue of a vector instruction: computer rights (R157), and the accumulator tile must be reserved (R158). -/
def issueV (h : Hdr) (uses defs : List Target) (body : State → Res) (s : State) : Out :=
  issue h .comp uses defs (fun s =>
    if s.tileOk s.cur.core (s.core s.cur.core).accsel then body s else .trap 0x02 0 0 0) s

/-- The rounding mode of a code; code 6 takes CTL.DRND at issue (R45). -/
def State.rm (s : State) (r : RmCode) : Rm :=
  match r with
  | .mode m => m
  | .ctl => match rmOf (fld ((s.core s.cur.core).reg 0) 3 1) with
    | some (.mode m) => m
    | _ => .rne

end Sys2Proof.Machine
end

