-- ==== Sys2Proof/Machine/Flags.lean ====
section
/-! DEFINITION. The sticky status: FSTAT, MAXMAG and SEED (spec 02 R21 to R24, 03 R47, R52, R53). -/
namespace Sys2Proof.Machine

/-- What the lanes of one instruction give: the values, the generator after its draws, and the sticky bits. -/
structure LaneOut where
  vals : List Nat
  seed : Word
  unf : Bool
  ovf : Bool

/-- Run `f` over active lanes in increasing order; under RSTO each takes one draw (R47). An inactive lane gives 0. -/
def mapLanes (rsto : Bool) (f : Nat → Nat → Nat → Nat → Rounded) : List (Bool × Nat × Nat × Nat) → Word → LaneOut
  | [], s => { vals := [], seed := s, unf := false, ovf := false }
  | (act, a, b, c) :: rest, s =>
    if act then
      let (s1, r) := if rsto then seedDraw s else (s, 0)
      let v := f r a b c
      let o := mapLanes rsto f rest s1
      { vals := v.bits :: o.vals, seed := o.seed, unf := v.unf || o.unf, ovf := v.ovf || o.ovf }
    else
      let o := mapLanes rsto f rest s
      { o with vals := 0 :: o.vals }

/-- FSTAT bits of an instruction as an OR value: UNFSEEN, OVFSEEN, NANSEEN (R21). -/
def stickyBits (unf ovf nan : Bool) : Nat := unf.toNat * 4 + ovf.toNat * 2 + nan.toNat

/-- Sticky bits land at the ready cycle as a merge (R24). -/
def State.putSticky (s : State) (bits : Nat) (lat : Nat) : State :=
  if bits = 0 then s else s.put s.cur.core .fstat 0 bits (some lat)

/-- The generator moves at issue (R24, R47). -/
def State.setSeed (s : State) (v : Word) : State := s.modCore s.cur.core (fun k => k.setReg 0x004 v)

/-- The core's generator. -/
def State.seed (s : State) : Word := (s.core s.cur.core).reg 0x004

/-- The magnitude of a source that enters MAXMAG, widened to binary32; none for a NaN (R53). -/
def magOf (t : ETy) (b : Nat) : Option Nat :=
  match xOf t b with
  | .nan => none
  | .inf _ => some 0x7F800000
  | .num _ n d _ => some (roundTo .f32 .rne 0 false (.num false n d false)).bits

/-- MAXMAG and NANSEEN of a `.m` form over the active source elements (R53). -/
def magMerge (t : ETy) (xs : List Nat) : Nat × Bool :=
  xs.foldl (fun acc b => match magOf t b with
    | some m => (maxMag acc.1 m, acc.2)
    | none => (acc.1, true)) (0, false)

/-- The merge into MAXMAG lands at the ready cycle (R24). -/
def State.putMag (s : State) (m : Nat) (lat : Nat) : State :=
  if m = 0 then s else s.put s.cur.core .maxmag 0 m (some lat)

/-- Latency of vector f32 arithmetic and conversions, of special functions, of reductions, of mask operations (R26, R123). -/
def vecLat : Nat := 4
/-- Special functions (R123). -/
def specialLat : Nat := 12
/-- Reductions (R123). -/
def redLat : Nat := 8

end Sys2Proof.Machine
end

