-- ==== Sys2Proof/Machine/Vector.lean ====
section
/-! DEFINITION. Vector and mask instructions (spec 06 R121 to R144; majors 0x40 to 0x6F). -/
namespace Sys2Proof.Machine

/-- Quadruples of lane activity and operands. -/
def zipLanes (act : List Bool) (a b c : List Nat) : List (Bool × Nat × Nat × Nat) := act.zip (a.zip (b.zip c))

/-- A lane-wise operation that rounds: FSTAT merges at the ready cycle, draws at issue (R52, R127). -/
def roundedOp (h : Hdr) (k : KReg) (ty : ETy) (rm : RmCode) (lat : Nat) (d a b c : VReg) (regs : List VReg)
    (f : Rm → Nat → Nat → Nat → Nat → Rounded) (s : State) : Out :=
  issueV h (kT k :: regs.flatMap s.vT) (s.vT d) (fun s =>
    let bits := etyBits ty
    let n := etyLanes ty
    let act := activity (s.kreg k) n (perBit ty)
    let m := s.rm rm
    let o := mapLanes (m == .rsto) (f m) (zipLanes act (lanesOf bits n (s.v a)) (lanesOf bits n (s.v b)) (lanesOf bits n (s.v c))) s.seed
    .done (((s.setSeed o.seed).putV d (laneMask bits act) (packLanes bits o.vals) (some lat)).putSticky
      (stickyBits o.unf o.ovf false) lat)) s

/-- A lane-wise operation that rounds nothing (R40, R56, R128, R132). -/
def plainOp (h : Hdr) (k : KReg) (ty : ETy) (d a b : VReg) (regs : List VReg) (f : Nat → Nat → Nat) (s : State) : Out :=
  issueV h (kT k :: regs.flatMap s.vT) (s.vT d) (fun s =>
    let bits := etyBits ty
    let n := etyLanes ty
    let act := activity (s.kreg k) n (perBit ty)
    .done (s.putV d (laneMask bits act)
      (packLanes bits (List.zipWith f (lanesOf bits n (s.v a)) (lanesOf bits n (s.v b)))) (some vecLat))) s

/-- VADD (R127). -/
def execVadd (h : Hdr) (k : KReg) (ty : ETy) (rm : RmCode) (sat : Bool) (d a b : VReg) (s : State) : Out :=
  roundedOp h k ty rm vecLat d a b a [a, b] (fun m r x y _ => roundTo ty m r sat (xAdd (m == .rdn) (xOf ty x) (xOf ty y))) s

/-- VSUB (R127). -/
def execVsub (h : Hdr) (k : KReg) (ty : ETy) (rm : RmCode) (sat : Bool) (d a b : VReg) (s : State) : Out :=
  roundedOp h k ty rm vecLat d a b a [a, b]
    (fun m r x y _ => roundTo ty m r sat (xAdd (m == .rdn) (xOf ty x) (xOf ty y).flip)) s

/-- VMUL (R127). -/
def execVmul (h : Hdr) (k : KReg) (ty : ETy) (rm : RmCode) (sat : Bool) (d a b : VReg) (s : State) : Out :=
  roundedOp h k ty rm vecLat d a b a [a, b] (fun m r x y _ => roundTo ty m r sat (xMul (xOf ty x) (xOf ty y))) s

/-- VFMA: one rounding (R54, R127). -/
def execVfma (h : Hdr) (k : KReg) (ty : ETy) (rm : RmCode) (sat : Bool) (d a b c : VReg) (s : State) : Out :=
  roundedOp h k ty rm vecLat d a b c [a, b, c]
    (fun m r x y z => roundTo ty m r sat (xAdd (m == .rdn) (xMul (xOf ty x) (xOf ty y)) (xOf ty z))) s

/-- VFMS: one rounding (R54, R127). -/
def execVfms (h : Hdr) (k : KReg) (ty : ETy) (rm : RmCode) (sat : Bool) (d a b c : VReg) (s : State) : Out :=
  roundedOp h k ty rm vecLat d a b c [a, b, c]
    (fun m r x y z => roundTo ty m r sat (xAdd (m == .rdn) (xMul (xOf ty x) (xOf ty y)) (xOf ty z).flip)) s

/-- VMIN (R56, R127). -/
def execVmin (h : Hdr) (k : KReg) (ty : ETy) (d a b : VReg) (s : State) : Out :=
  plainOp h k ty d a b [a, b] (pickExtreme true ty) s

/-- VMAX (R56, R127). -/
def execVmax (h : Hdr) (k : KReg) (ty : ETy) (d a b : VReg) (s : State) : Out :=
  plainOp h k ty d a b [a, b] (pickExtreme false ty) s

/-- VABS clears the sign bit (R40, R127). -/
def execVabs (h : Hdr) (k : KReg) (ty : ETy) (d a : VReg) (s : State) : Out :=
  plainOp h k ty d a a [a] (fun x _ => x % 2 ^ (etyBits ty - 1)) s

/-- VNEG inverts the sign bit (R40, R127). -/
def execVneg (h : Hdr) (k : KReg) (ty : ETy) (d a : VReg) (s : State) : Out :=
  plainOp h k ty d a a [a] (fun x _ => x ^^^ 2 ^ (etyBits ty - 1)) s

/-- VDIV (R55, R127). -/
def execVdiv (h : Hdr) (k : KReg) (ty : ETy) (rm : RmCode) (sat : Bool) (d a b : VReg) (s : State) : Out :=
  roundedOp h k ty rm specialLat d a b a [a, b] (fun m r x y _ => roundTo ty m r sat (xDiv (xOf ty x) (xOf ty y))) s

/-- A special function of one operand (R55, R127). -/
def specialOp (f : XVal → XVal) (h : Hdr) (k : KReg) (ty : ETy) (rm : RmCode) (sat : Bool) (d a : VReg) (s : State) : Out :=
  roundedOp h k ty rm specialLat d a a a [a] (fun m r x _ _ => roundTo ty m r sat (f (xOf ty x))) s

/-- VSQRT (R55). -/
def execVsqrt (h : Hdr) (k : KReg) (ty : ETy) (rm : RmCode) (sat : Bool) (d a : VReg) (s : State) : Out :=
  specialOp xSqrt h k ty rm sat d a s
/-- VRCP (R55). -/
def execVrcp (h : Hdr) (k : KReg) (ty : ETy) (rm : RmCode) (sat : Bool) (d a : VReg) (s : State) : Out :=
  specialOp xRcp h k ty rm sat d a s
/-- VRSQ (R55). -/
def execVrsq (h : Hdr) (k : KReg) (ty : ETy) (rm : RmCode) (sat : Bool) (d a : VReg) (s : State) : Out :=
  specialOp xRsqrt h k ty rm sat d a s
/-- VEXP2 (R55). -/
def execVexp2 (h : Hdr) (k : KReg) (ty : ETy) (rm : RmCode) (sat : Bool) (d a : VReg) (s : State) : Out :=
  specialOp xExp2 h k ty rm sat d a s
/-- VLOG2 (R55). -/
def execVlog2 (h : Hdr) (k : KReg) (ty : ETy) (rm : RmCode) (sat : Bool) (d a : VReg) (s : State) : Out :=
  specialOp xLog2 h k ty rm sat d a s

/-- An element as the integer of its type (R128). -/
def intOf (ty : ETy) (b : Nat) : Int := if etySigned ty then sInt (etyBits ty) b else ((b % 2 ^ etyBits ty : Nat) : Int)

/-- fit of R128. -/
def fitInt (ty : ETy) (sat : Bool) (v : Int) : Nat := intBits (etyBits ty) (if sat then clampInt ty v else v)

/-- VIADD (R128). -/
def execViadd (h : Hdr) (k : KReg) (ty : ETy) (sat : Bool) (d a b : VReg) (s : State) : Out :=
  plainOp h k ty d a b [a, b] (fun x y => fitInt ty sat (intOf ty x + intOf ty y)) s
/-- VISUB (R128). -/
def execVisub (h : Hdr) (k : KReg) (ty : ETy) (sat : Bool) (d a b : VReg) (s : State) : Out :=
  plainOp h k ty d a b [a, b] (fun x y => fitInt ty sat (intOf ty x - intOf ty y)) s
/-- VIMUL (R128). -/
def execVimul (h : Hdr) (k : KReg) (ty : ETy) (sat : Bool) (d a b : VReg) (s : State) : Out :=
  plainOp h k ty d a b [a, b] (fun x y => fitInt ty sat (intOf ty x * intOf ty y)) s
/-- VAND (R128). -/
def execVand (h : Hdr) (k : KReg) (ty : ETy) (d a b : VReg) (s : State) : Out := plainOp h k ty d a b [a, b] (· &&& ·) s
/-- VOR (R128). -/
def execVor (h : Hdr) (k : KReg) (ty : ETy) (d a b : VReg) (s : State) : Out := plainOp h k ty d a b [a, b] (· ||| ·) s
/-- VXOR (R128). -/
def execVxor (h : Hdr) (k : KReg) (ty : ETy) (d a b : VReg) (s : State) : Out := plainOp h k ty d a b [a, b] (· ^^^ ·) s
/-- VSHL (R128). -/
def execVshl (h : Hdr) (k : KReg) (ty : ETy) (d a b : VReg) (s : State) : Out :=
  plainOp h k ty d a b [a, b] (fun x y => x * 2 ^ (y % etyBits ty) % 2 ^ etyBits ty) s
/-- VSHR (R128). -/
def execVshr (h : Hdr) (k : KReg) (ty : ETy) (d a b : VReg) (s : State) : Out :=
  plainOp h k ty d a b [a, b] (fun x y => x / 2 ^ (y % etyBits ty)) s
/-- VSAR (R128). -/
def execVsar (h : Hdr) (k : KReg) (ty : ETy) (d a b : VReg) (s : State) : Out :=
  plainOp h k ty d a b [a, b] (fun x y => intBits (etyBits ty) (sInt (etyBits ty) x / ((2 ^ (y % etyBits ty) : Nat) : Int))) s
/-- VIMIN (R128). -/
def execVimin (h : Hdr) (k : KReg) (ty : ETy) (d a b : VReg) (s : State) : Out :=
  plainOp h k ty d a b [a, b] (fun x y => if intOf ty x ≤ intOf ty y then x else y) s
/-- VIMAX (R128). -/
def execVimax (h : Hdr) (k : KReg) (ty : ETy) (d a b : VReg) (s : State) : Out :=
  plainOp h k ty d a b [a, b] (fun x y => if intOf ty y ≤ intOf ty x then x else y) s

/-- The conditions of VCMP (R129). -/
def vcondHolds (cc : VCond) (ty : ETy) (x y : Nat) : Bool :=
  let a := xOf ty x
  let b := xOf ty y
  let un := a == .nan || b == .nan
  match cc with
  | .eq => xEq a b
  | .ne => un || !xEq a b
  | .lt => xLess a b
  | .le => xLess a b || xEq a b
  | .gt => xLess b a
  | .ge => xLess b a || xEq a b
  | .un => un
  | .or => !un

/-- VCMP (R129). -/
def execVcmp (h : Hdr) (k : KReg) (ty : ETy) (cc : VCond) (d : KReg) (a b : VReg) (s : State) : Out :=
  issueV h (kT k :: (s.vT a ++ s.vT b)) [kT d] (fun s =>
    let bits := etyBits ty
    let n := etyLanes ty
    let act := activity (s.kreg k) n 1
    let hold := List.zipWith (fun x y => (vcondHolds cc ty x y).toNat) (lanesOf bits n (s.v a)) (lanesOf bits n (s.v b))
    let res := List.zipWith (fun p v => if p then v else 0) act hold
    .done (s.putK d (2 ^ n - 1) (packLanes 1 res) (some vecLat))) s

/-- VSEL (R130). -/
def execVsel (h : Hdr) (k : KReg) (ty : ETy) (d a b : VReg) (s : State) : Out :=
  issueV h (kT k :: (s.vT a ++ s.vT b)) (s.vT d) (fun s =>
    let m := laneMask (etyBits ty) (activity (s.kreg k) (etyLanes ty) (perBit ty))
    .done (s.putV d (2 ^ 16384 - 1) (mergeBits (s.v b) m (s.v a)) (some vecLat))) s

/-- The masks that a KOP reads (R131). -/
def kopUses : KOp → List KReg
  | .and a b | .or a b | .xor a b | .andn a b => [a, b]
  | .not a | .mov a => [a]
  | .ones | .zero => []

/-- KOP on all 2,048 bits (R131). -/
def execKop (h : Hdr) (d : KReg) (op : KOp) (s : State) : Out :=
  issue h .comp ((kopUses op).map kT) [kT d] (fun s =>
    let v : Mask := match op with
      | .and a b => s.kreg a &&& s.kreg b
      | .or a b => s.kreg a ||| s.kreg b
      | .xor a b => s.kreg a ^^^ s.kreg b
      | .andn a b => s.kreg a &&& ~~~s.kreg b
      | .not a => ~~~s.kreg a
      | .mov a => s.kreg a
      | .ones => BitVec.allOnes 2048
      | .zero => 0
    .done (s.putK d (2 ^ 2048 - 1) v.toNat (some 1))) s

/-- Mask bits that KPOP and KFIRST look at (R131). -/
def kbits (ty : ETy) : Nat := if ty = .e2m1 then 2048 else etyLanes ty

/-- KPOP (R131). -/
def execKpop (h : Hdr) (ty : ETy) (d : GReg) (a : KReg) (s : State) : Out :=
  issue h .comp [kT a] [s.gT d] (fun s =>
    .done (s.putG d (BitVec.ofNat 64 ((activity (s.kreg a) (kbits ty) 1).filter id).length) (some 1))) s

/-- KFIRST (R131). -/
def execKfirst (h : Hdr) (ty : ETy) (d : GReg) (a : KReg) (s : State) : Out :=
  issue h .comp [kT a] [s.gT d] (fun s =>
    .done (s.putG d (BitVec.ofNat 64 ((activity (s.kreg a) (kbits ty) 1).findIdx id)) (some 1))) s

/-- VMOV (R132). -/
def execVmov (h : Hdr) (k : KReg) (ty : ETy) (d a : VReg) (s : State) : Out := plainOp h k ty d a a [a] (fun x _ => x) s

/-- Write a row computed from a scalar register under a mask (R132). -/
def fromScalar (h : Hdr) (k : KReg) (ty : ETy) (d : VReg) (a : GReg) (f : Nat → Nat → Nat) (s : State) : Out :=
  issueV h [kT k, s.gT a] (s.vT d) (fun s =>
    let bits := etyBits ty
    let n := etyLanes ty
    let x := (s.g a).toNat
    .done (s.putV d (laneMask bits (activity (s.kreg k) n 1)) (packLanes bits ((List.range n).map (f x))) (some vecLat))) s

/-- VBCAST (R132). -/
def execVbcast (h : Hdr) (k : KReg) (ty : ETy) (d : VReg) (a : GReg) (s : State) : Out :=
  fromScalar h k ty d a (fun x _ => x) s
/-- VIOTA (R132). -/
def execViota (h : Hdr) (k : KReg) (ty : ETy) (d : VReg) (a : GReg) (s : State) : Out :=
  fromScalar h k ty d a (fun x i => x + i) s

/-- The registers that a VPERM operand names. -/
def permUses (s : State) : PermOp → List Target
  | .idx b | .ziplo b | .ziphi b | .even b | .odd b => s.vT b
  | .rot b => [s.gT b]
  | .rev => []

/-- Lane `i` of a VPERM result (R133). -/
def permLane (s : State) (op : PermOp) (bits n a i : Nat) : Nat :=
  let half := n / 2
  match op with
  | .idx b => lane bits a (lane bits (s.v b) i % n)
  | .rot b => lane bits a ((i + (s.g b).toNat) % n)
  | .rev => lane bits a (n - 1 - i)
  | .ziplo b => if i % 2 = 0 then lane bits a (i / 2) else lane bits (s.v b) ((i - 1) / 2)
  | .ziphi b => if i % 2 = 0 then lane bits a (half + i / 2) else lane bits (s.v b) (half + (i - 1) / 2)
  | .even b => if i < half then lane bits a (2 * i) else lane bits (s.v b) (2 * (i - half))
  | .odd b => if i < half then lane bits a (2 * i + 1) else lane bits (s.v b) (2 * (i - half) + 1)

/-- VPERM (R133). -/
def execVperm (h : Hdr) (k : KReg) (ty : ETy) (d a : VReg) (op : PermOp) (s : State) : Out :=
  issueV h (kT k :: (s.vT a ++ permUses s op)) (s.vT d) (fun s =>
    let bits := etyBits ty
    let n := etyLanes ty
    let row := s.v a
    .done (s.putV d (laneMask bits (activity (s.kreg k) n 1))
      (packLanes bits ((List.range n).map (permLane s op bits n row))) (some vecLat))) s

/-- VEXT (R132). -/
def execVext (h : Hdr) (ty : ETy) (d : GReg) (a : VReg) (b : GReg) (s : State) : Out :=
  issueV h (s.gT b :: s.vT a) [s.gT d] (fun s =>
    let e := lane (etyBits ty) (s.v a) ((s.g b).toNat % etyLanes ty)
    .done (s.putG d (if etySigned ty then sxN (etyBits ty) e else BitVec.ofNat 64 e) (some vecLat))) s

/-- VINS (R132). -/
def execVins (h : Hdr) (ty : ETy) (d : VReg) (a b : GReg) (s : State) : Out :=
  issueV h (s.gT a :: s.gT b :: s.vT d) (s.vT d) (fun s =>
    let bits := etyBits ty
    let j := (s.g b).toNat % etyLanes ty
    .done (s.putV d ((2 ^ bits - 1) * 2 ^ (j * bits)) ((s.g a).toNat % 2 ^ bits * 2 ^ (j * bits)) (some vecLat))) s

/-- VREDSUM (R57, R134). -/
def execVredsum (h : Hdr) (k : KReg) (ty : ETy) (rm : RmCode) (d : GReg) (a : VReg) (s : State) : Out :=
  issueV h (kT k :: s.vT a) [s.gT d] (fun s =>
    let bits := etyBits ty
    let n := etyLanes ty
    let leaf (p : Bool) (x : Nat) : Nat := if p then (roundTo .f32 .rne 0 false (xOf ty x)).bits else 0x80000000
    let leaves := List.zipWith leaf (activity (s.kreg k) n (perBit ty)) (lanesOf bits n (s.v a))
    let (v, seed) := sumTree (s.rm rm) (Nat.log2 n) leaves s.seed
    .done ((s.setSeed seed).putG d (BitVec.ofNat 64 v) (some redLat))) s

/-- VREDMAX and VREDMIN (R56, R134). -/
def reduceExtreme (less : Bool) (ty : ETy) (xs : List Nat) : Word :=
  if etyIsInt ty then
    let init := if less then (intRange ty).2 else (intRange ty).1
    BitVec.ofInt 64 (xs.foldl (fun m x => if (if less then decide (intOf ty x < m) else decide (m < intOf ty x)) then intOf ty x else m) init)
  else
    BitVec.ofNat 64 (xs.foldl (fun m x => pickExtreme less .f32 m (roundTo .f32 .rne 0 false (xOf ty x)).bits) 0x7FC00000)

/-- A reduction to an extreme of the active lanes (R134). -/
def reduceOp (less : Bool) (h : Hdr) (k : KReg) (ty : ETy) (d : GReg) (a : VReg) (s : State) : Out :=
  issueV h (kT k :: s.vT a) [s.gT d] (fun s =>
    let n := etyLanes ty
    let xs := ((activity (s.kreg k) n (perBit ty)).zip (lanesOf (etyBits ty) n (s.v a))).filterMap (fun p => if p.1 then some p.2 else none)
    .done (s.putG d (reduceExtreme less ty xs) (some redLat))) s

/-- VREDMAX (R134). -/
def execVredmax (h : Hdr) (k : KReg) (ty : ETy) (d : GReg) (a : VReg) (s : State) : Out := reduceOp false h k ty d a s
/-- VREDMIN (R134). -/
def execVredmin (h : Hdr) (k : KReg) (ty : ETy) (d : GReg) (a : VReg) (s : State) : Out := reduceOp true h k ty d a s

/-- Elements that a conversion handles (R135). -/
def convCount (src dst : ETy) : Nat := 16384 / Nat.max (etyBits src) (etyBits dst)

/-- The results of a conversion: the elements, the sticky bits of rounding and, with `mm`, MAXMAG and NANSEEN (R52, R53). -/
def putConv (s : State) (src dst : ETy) (mm : Bool) (d : VReg) (act : List Bool) (xs : List Nat) (o : LaneOut) : State :=
  let active := (act.zip xs).filterMap (fun p => if p.1 then some p.2 else none)
  let (mag, nan) := if mm then magMerge src active else (0, false)
  (((s.setSeed o.seed).putV d (laneMask (etyBits dst) act) (packLanes (etyBits dst) o.vals) (some vecLat)).putSticky
    (stickyBits o.unf o.ovf nan) vecLat).putMag mag vecLat

/-- VCVT (R137). -/
def execVcvt (h : Hdr) (k : KReg) (src dst : ETy) (rm : RmCode) (sat mm : Bool) (d a : VReg) (s : State) : Out :=
  issueV h (kT k :: s.vT a) (s.vT d) (fun s =>
    let n := convCount src dst
    let act := activity (s.kreg k) n 1
    let xs := lanesOf (etyBits src) n (s.v a)
    let m := s.rm rm
    let o := mapLanes (m == .rsto) (fun r x _ _ => convert src dst m r sat x) (zipLanes act xs xs xs) s.seed
    .done (putConv s src dst mm d act xs o)) s

/-- The scales of the blocks of 32: `none` where a block has no active lane (R138). -/
def blockScales (f : List Nat → Nat) (act : List Bool) (xs : List Nat) : Nat → List (Option Nat)
  | 0 => []
  | b + 1 =>
    let head := ((act.zip xs).take 32).filterMap (fun p => if p.1 then some p.2 else none)
    (if head.isEmpty then none else some (f head)) :: blockScales f (act.drop 32) (xs.drop 32) b

/-- The scale written for a block, 0 bits where none is (R138, R139). -/
def putScales (s : State) (d : VReg) (sc : List (Option Nat)) : State :=
  s.putSide d (packLanes 16 (sc.map (fun o => if o.isSome then 0xFFFF else 0))) (packLanes 16 (sc.map (·.getD 0))) (some vecLat)

/-- The element that a scaled conversion writes: NaN scale, else the quotient rounded once (R59, R60). -/
def scaledElem (src dst : ETy) (rm : Rm) (sat : Bool) (r sc x : Nat) : Rounded :=
  match xs10 sc with
  | none => .quiet (if dst = .ds8 then 0x77 else nanBits dst)
  | some v => match xOf src x with
    | .nan => roundTo dst rm r sat .nan
    | .inf neg => roundTo dst rm r sat (.inf neg)
    | y => roundTo dst rm r sat (xDiv y v)

/-- VQUANT (R59, R138): the zero path writes positive zeros. -/
def execVquant (h : Hdr) (k : KReg) (src dst : ETy) (rm : RmCode) (sat mm : Bool) (d a : VReg) (s : State) : Out :=
  issueV h (kT k :: s.vT a) (s.vT d) (fun s =>
    let n := convCount src dst
    let act := activity (s.kreg k) n 1
    let xs := lanesOf (etyBits src) n (s.v a)
    let m := s.rm rm
    let sc := blockScales (fun l => blockScale dst (l.map (xOf src))) act xs (n / 32)
    let zero := blockScales (fun l => (l.all (fun x => (xOf src x).isZero)).toNat) act xs (n / 32)
    let per := sc.flatMap (fun o => List.replicate 32 (o.getD 0))
    let zs := zero.flatMap (fun o => List.replicate 32 (o.getD 0))
    let o := mapLanes (m == .rsto)
      (fun r x c z => if z = 1 then .quiet (if dst = .ds8 then 0x77 else 0) else scaledElem src dst m sat r c x)
      (zipLanes act xs per zs) s.seed
    .done (putScales (putConv s src dst mm d act xs o) d sc)) s

/-- VDEQ (R61, R140). -/
def execVdeq (h : Hdr) (k : KReg) (src dst : ETy) (rm : RmCode) (sat : Bool) (d a : VReg) (s : State) : Out :=
  issueV h (kT k :: s.vT a) (s.vT d) (fun s =>
    let n := convCount src dst
    let act := activity (s.kreg k) n 1
    let xs := lanesOf (etyBits src) n (s.v a)
    let m := s.rm rm
    let per := (lanesOf 16 (n / 32) (s.vSide a)).flatMap (fun c => List.replicate 32 (c % 1024))
    let f (r x c : Nat) : Rounded := match xs10 c with
      | none => .quiet (nanBits dst)
      | some v => roundTo dst m r sat (xMul (xOf src x) v)
    let o := mapLanes (m == .rsto) (fun r x c _ => f r x c) (zipLanes act xs per per) s.seed
    .done (putConv s src dst false d act xs o)) s

/-- VSCALE (R60, R139). -/
def execVscale (h : Hdr) (k : KReg) (src dst : ETy) (rm : RmCode) (sat mm : Bool) (d a : VReg) (b : GReg) (s : State) : Out :=
  issueV h (kT k :: s.gT b :: s.vT a) (s.vT d) (fun s =>
    if 2 ^ 10 ≤ (s.g b).toNat then .trap 0x02 0 0 0
    else
      let n := convCount src dst
      let act := activity (s.kreg k) n 1
      let xs := lanesOf (etyBits src) n (s.v a)
      let m := s.rm rm
      let sc := (s.g b).toNat
      let o := mapLanes (m == .rsto) (fun r x _ _ => scaledElem src dst m sat r sc x) (zipLanes act xs xs xs) s.seed
      let put := if (xs10 sc).isNone then 0x3FC else sc
      .done (putScales (putConv s src dst mm d act xs o) d (blockScales (fun _ => put) act xs (n / 32)))) s

/-- The floor of an exact value as an integer; a NaN gives 0, infinities go beyond `hi` and below 0 (R142). -/
def cellFloor (hi : Nat) : XVal → Int
  | .nan => 0
  | .inf s => if s then -1 else (hi : Int) + 1
  | .num s n d _ => if s then -(((n + d - 1) / d : Nat) : Int) else ((n / d : Nat) : Int)

/-- VCELL (R142). -/
def execVcell (h : Hdr) (k : KReg) (d a : VReg) (b c : GReg) (s : State) : Out :=
  issueV h (kT k :: s.gT b :: s.gT c :: s.vT a) (s.vT d) (fun s =>
    let g := (s.g b).toNat
    let o := xOf .f32 (g % 2 ^ 32)
    let inv := xOf .f32 (g / 2 ^ 32)
    let cnt := (s.g c).toNat % 2 ^ 32
    let hi := if cnt = 0 then 2 ^ 31 - 1 else cnt - 1
    let f (x : Nat) : Nat :=
      let v := cellFloor hi (xMul (xAdd false (xOf .f32 x) o.flip) inv)
      if v < 0 then 0 else Nat.min v.toNat hi
    .done (s.putV d (laneMask 32 (activity (s.kreg k) 512 1)) (packLanes 32 ((lanesOf 32 512 (s.v a)).map f)) (some vecLat))) s

/-- VHASH3 of three i32 elements (R143). -/
def hash3 (w a b c : Nat) : Nat :=
  ((a * 73856093 % 2 ^ 32) ^^^ (b * 19349663 % 2 ^ 32) ^^^ (c * 83492791 % 2 ^ 32)) % 2 ^ w

/-- VHASH3 (R143). -/
def execVhash3 (h : Hdr) (k : KReg) (w : BitVec 6) (d a b c : VReg) (s : State) : Out :=
  issueV h (kT k :: [a, b, c].flatMap s.vT) (s.vT d) (fun s =>
    let xs := List.zipWith (fun x p => hash3 w.toNat x p.1 p.2) (lanesOf 32 512 (s.v a))
      ((lanesOf 32 512 (s.v b)).zip (lanesOf 32 512 (s.v c)))
    .done (s.putV d (laneMask 32 (activity (s.kreg k) 512 1)) (packLanes 32 xs) (some vecLat))) s

/-- Interleaved bits of sources, `n` bits of each (R144). -/
def interleave (n : Nat) (xs : List Nat) : Nat :=
  packLanes 1 ((List.range n).flatMap (fun j => xs.map (fun x => x / 2 ^ j % 2)))

/-- VMORTON (R144). -/
def execVmorton (h : Hdr) (k : KReg) (d a b : VReg) (op : MortonOp) (s : State) : Out :=
  let more := match op with | .c2 => [] | .c3 c => [c]
  issueV h (kT k :: (a :: b :: more).flatMap s.vT) (s.vT d) (fun s =>
    let f (i : Nat) : Nat := match op with
      | .c2 => interleave 16 [lane 32 (s.v a) i, lane 32 (s.v b) i]
      | .c3 c => interleave 10 [lane 32 (s.v a) i, lane 32 (s.v b) i, lane 32 (s.v c) i]
    .done (s.putV d (laneMask 32 (activity (s.kreg k) 512 1)) (packLanes 32 ((List.range 512).map f)) (some vecLat))) s

end Sys2Proof.Machine
end

