-- ==== Sys2Proof/Machine/Tile.lean ====
section
/-! DEFINITION. Scratchpad rows, gathers, scatters and tiles (spec 06 R145 to R151; majors 0x70 to 0x7C). -/
namespace Sys2Proof.Machine

/-- Little-endian bytes of a row from byte `i` on. -/
def rowBytes (row i n : Nat) : List Byte := leBytes n (row / 2 ^ (8 * i))

/-- The runs of active lanes, as first lane and count. -/
def activeRuns : List Bool → Nat → List (Nat × Nat)
  | [], _ => []
  | false :: l, i => activeRuns l (i + 1)
  | true :: l, i =>
    match activeRuns l (i + 1) with
    | (j, n) :: rest => if j = i + 1 then (i, n + 1) :: rest else (i, 1) :: (j, n) :: rest
    | [] => [(i, 1)]

/-- Bytes at places of a wider integer: each run with its bytes. -/
def placeRuns (runs : List (Nat × Nat)) (bs : List Byte) : Nat :=
  (runs.foldl (fun (acc : Nat × List Byte) p => (acc.1 + leNat (acc.2.take p.2) * 2 ^ (8 * p.1), acc.2.drop p.2)) (0, bs)).1

/-- The bits of a row that byte runs cover. -/
def runMask (runs : List (Nat × Nat)) : Nat := runs.foldl (fun m p => m ||| (2 ^ (8 * p.2) - 1) * 2 ^ (8 * p.1)) 0

/-- Byte runs of a masked row access: bit i governs bytes 4i to 4i + 3 (R146). -/
def wordRuns (k : Mask) : List (Nat × Nat) := (activeRuns (activity k 512 1) 0).map (fun p => (4 * p.1, 4 * p.2))

/-- Swizzled pieces of byte runs at an effective address. -/
def runPieces (swz : BitVec 3) (e : Nat) (runs : List (Nat × Nat)) : List (Nat × Nat) :=
  runs.flatMap (fun p => spPieces swz (e + p.1) p.2)

/-- VLD (R146). -/
def execVld (h : Hdr) (k : KReg) (swz : BitVec 3) (d : VReg) (a : GReg) (off : BitVec 16) (s : State) : Out :=
  issueV h [s.gT a, kT k] (s.vT d) (fun s =>
    let e := effAddr (s.g a) off
    let runs := wordRuns (s.kreg k)
    s.spChecked e 2048 2048 (s.spLoad (runPieces swz e.toNat runs) (fun s bs =>
      .done (s.putV d (runMask runs) (placeRuns runs bs) none)))) s

/-- VST (R146). -/
def execVst (h : Hdr) (k : KReg) (swz : BitVec 3) (a : GReg) (b : VReg) (off : BitVec 16) (s : State) : Out :=
  issueV h (s.gT a :: kT k :: s.vT b) [] (fun s =>
    let e := effAddr (s.g a) off
    let runs := wordRuns (s.kreg k)
    s.spChecked e 2048 2048 (s.spStore (runPieces swz e.toNat runs)
      (runs.flatMap (fun p => rowBytes (s.v b) p.1 p.2)) .done)) s

/-- Lanes of VLDX and VSTX (R147). -/
def gatherLanes (ty : STy) : Nat := if styBytes ty = 8 then 256 else 512

/-- Effective addresses of the active lanes with their numbers (R147). -/
def gatherAddrs (act : List Bool) (base : Word) (off : BitVec 16) (row : Nat) : List (Nat × Word) :=
  ((List.range act.length).zip (act.zip (lanesOf 32 act.length row))).filterMap (fun p =>
    if p.2.1 then some (p.1, effAddr (base + sxN 32 p.2.2) off) else none)

/-- ALIGN over all active lanes, then SPRANGE over all of them (R147). -/
def State.gatherCheck (s : State) (ls : List (Nat × Word)) (n : Nat) (k : Res) : Res :=
  match ls.find? (fun p => p.2.toNat % n != 0) with
  | some p => .trap 0x06 0 p.2 0
  | none =>
    match ls.find? (fun p => (s.spCheck s.cur.core s.cur.role p.2 n n).isSome) with
    | some p => .trap 0x05 0 p.2 0
    | none => k

/-- VLDX (R147). -/
def execVldx (h : Hdr) (k : KReg) (ty : STy) (swz : BitVec 3) (d : VReg) (a : GReg) (b : VReg) (off : BitVec 16)
    (s : State) : Out :=
  issueV h (s.gT a :: kT k :: s.vT b) (s.vT d) (fun s =>
    let n := styBytes ty
    let ls := gatherAddrs (activity (s.kreg k) (gatherLanes ty) 1) (s.g a) off (s.v b)
    let runs := ls.map (fun p => (n * p.1, n))
    s.gatherCheck ls n (s.spLoad (ls.flatMap (fun p => spPieces swz p.2.toNat n)) (fun s bs =>
      .done (s.putV d (runMask runs) (placeRuns runs bs) none)))) s

/-- VSTX: lanes in increasing order (R147). -/
def execVstx (h : Hdr) (k : KReg) (ty : STy) (swz : BitVec 3) (d : VReg) (a : GReg) (b : VReg) (off : BitVec 16)
    (s : State) : Out :=
  issueV h (s.gT a :: kT k :: (s.vT b ++ s.vT d)) [] (fun s =>
    let n := styBytes ty
    let ls := gatherAddrs (activity (s.kreg k) (gatherLanes ty) 1) (s.g a) off (s.v b)
    s.gatherCheck ls n (s.spStore (ls.flatMap (fun p => spPieces swz p.2.toNat n))
      (ls.flatMap (fun p => rowBytes (s.v d) (n * p.1) n)) .done)) s

/-! Tiles -/

/-- A tile shape (R15). -/
structure Shape where
  ew : ETy
  rows : Nat
  cols : Nat
  scaled : Bool
  deriving DecidableEq, Repr

/-- The fields of a TSHAPE value; the column count is COLS + 1 (R15). -/
def shapeOf (w : Word) : Shape :=
  { ew := (etyOf (fld w 3 0)).getD .i8, rows := fld w 9 4, cols := fld w 21 10 + 1, scaled := fld w 22 22 == 1 }

/-- The shape of tile `t` of core `c` (R18). -/
def State.shape (s : State) (c t : Nat) : Shape := shapeOf ((s.core c).reg (0x008 + t))

/-- L of R149. -/
def Shape.rowLen (g : Shape) : Nat := (g.cols * etyBits g.ew + 255) / 256 * 32
/-- nb of R149. -/
def Shape.blocks (g : Shape) : Nat := (g.cols + 31) / 32

/-- The transfers of a tile image in order: offset, length, row, and whether it is the sidecar (R149). -/
def Shape.plan (g : Shape) (pitch : Nat) : List (Nat × Nat × Nat × Bool) :=
  (List.range g.rows).map (fun r => (r * pitch, g.rowLen, r, false)) ++
  (if g.scaled then (List.range g.rows).map (fun r => (g.rows * pitch + 128 * r, 2 * g.blocks, r, true)) else [])

/-- Containers with bits [15:10] cleared (R150). -/
def cleanScales (n v : Nat) : Nat := packLanes 16 ((lanesOf 16 (n / 2) v).map (· % 1024))

/-- The results of loading a tile image: target, mask and value (R150). -/
def loadResults (t : Nat) : List (Nat × Nat × Nat × Bool) → List Byte → List (Target × Nat × Nat)
  | [], _ => []
  | (_, n, r, sc) :: ps, bs =>
    let v := leNat (bs.take n)
    (if sc then (.side (32 * t + r), 2 ^ (8 * n) - 1, cleanScales n v) else (.row (32 * t + r), 2 ^ (8 * n) - 1, v)) ::
      loadResults t ps (bs.drop n)

/-- The bytes of a tile image as the tile stands (R150). -/
def Core.tileImage (k : Core) (t : Nat) (ps : List (Nat × Nat × Nat × Bool)) : List Byte :=
  ps.flatMap (fun p => leBytes p.2.1 (if p.2.2.2 then (k.sideRow (32 * t + p.2.2.1)).toNat else (k.row (32 * t + p.2.2.1)).toNat))

/-- All row targets of the first `n` rows of a tile. -/
def tileTs (t n : Nat) : List Target := (List.range n).flatMap (fun r => rowTs (32 * t + r))

/-- Issue of a tile instruction: computer rights, and the named tiles must be reserved (R157, R158). -/
def issueT (h : Hdr) (tiles : List TReg) (uses defs : List Target) (body : State → Res) (s : State) : Out :=
  issue h .comp uses defs (fun s =>
    if tiles.all (fun t => s.tileOk s.cur.core t.toNat) then body s else .trap 0x02 0 0 0) s

/-- The checks of R150, then `k` on the swizzled pieces of the image. -/
def State.tileChecked (s : State) (swz : BitVec 3) (e p : Word) (plan : List (Nat × Nat × Nat × Bool))
    (k : List (Nat × Nat) → Res) : Res :=
  if e.toNat % 32 ≠ 0 ∨ p.toNat % 32 ≠ 0 then .trap 0x06 0 e 0
  else
    let at_ (q : Nat × Nat × Nat × Bool) : Word := e + BitVec.ofNat 64 q.1
    match plan.find? (fun q => (s.spCheck s.cur.core s.cur.role (at_ q) q.2.1 1).isSome) with
    | some q => .trap 0x05 0 (at_ q) 0
    | none => k (plan.flatMap (fun q => spPieces swz (at_ q).toNat q.2.1))

/-- TLD (R149, R150). -/
def execTld (h : Hdr) (swz : BitVec 3) (d : TReg) (a b : GReg) (off : BitVec 16) (s : State) : Out :=
  let g := s.shape s.cur.core d.toNat
  issueT h [d] [s.gT a, s.gT b] (tileTs d.toNat g.rows) (fun s =>
    let plan := g.plan (s.g b).toNat
    s.tileChecked swz (effAddr (s.g a) off) (s.g b) plan (fun ps => s.spLoad ps (fun s bs =>
      .done ((loadResults d.toNat plan bs).foldl (fun s r => s.put s.cur.core r.1 r.2.1 r.2.2 none) s)))) s

/-- The rows of a tile that TST waits for at issue (R150). -/
def quietTs (t n : Nat) : List Target := (List.range n).map (fun r => .quiet (32 * t + r))

/-- TST: it waits at issue for every older writer of the rows that it stores and raises no STALL for them (R149, R150). -/
def execTst (h : Hdr) (swz : BitVec 3) (d : TReg) (a b : GReg) (off : BitVec 16) (s : State) : Out :=
  let g := s.shape s.cur.core d.toNat
  issueT h [d] [s.gT a, s.gT b] (quietTs d.toNat g.rows) (fun s =>
    let c := s.cur.core
    let s := s.modCore c (fun k => k.interlock (tileTs d.toNat g.rows))
    let plan := g.plan (s.g b).toNat
    s.tileChecked swz (effAddr (s.g a) off) (s.g b) plan (fun ps =>
      s.spStore ps ((s.core c).tileImage d.toNat plan) .done)) s

/-- TZERO (R151). -/
def execTzero (h : Hdr) (d : TReg) (s : State) : Out :=
  issueT h [d] [] (tileTs d.toNat 32) (fun s =>
    .done ((List.range 32).foldl (fun s r => s.put s.cur.core (.row (32 * d.toNat + r)) (2 ^ 16384 - 1) 0 none) s)) s

/-- TMOV: rows and containers (R151). -/
def execTmov (h : Hdr) (d a : TReg) (s : State) : Out :=
  issueT h [d, a] (tileTs a.toNat 32) (tileTs d.toNat 32) (fun s =>
    let k := s.core s.cur.core
    .done ((List.range 32).foldl (fun s r =>
      (s.put s.cur.core (.row (32 * d.toNat + r)) (2 ^ 16384 - 1) (k.row (32 * a.toNat + r)).toNat none).put s.cur.core
        (.side (32 * d.toNat + r)) (2 ^ 1024 - 1) (k.sideRow (32 * a.toNat + r)).toNat none) s)) s

/-- Whether TTRANS accepts a shape (R151). -/
def Shape.transposes (g : Shape) : Bool := g.ew != .e2m1 && !g.scaled && decide (g.cols ≤ 32)

/-- TTRANS (R151): element r of row c of D is element c of row r of A. -/
def execTtrans (h : Hdr) (d a : TReg) (s : State) : Out :=
  let g := s.shape s.cur.core a.toNat
  issueT h [d, a] (tileTs a.toNat g.rows) (tileTs d.toNat (Nat.min g.cols 32)) (fun s =>
    if g.transposes then
      let k := s.core s.cur.core
      let bits := etyBits g.ew
      let el (r c : Nat) : Nat := lane bits (k.row (32 * a.toNat + r)).toNat c
      .done ((List.range g.cols).foldl (fun s c => s.put s.cur.core (.row (32 * d.toNat + c)) (2 ^ (bits * g.rows) - 1)
        (packLanes bits ((List.range g.rows).map (fun r => el r c))) none) s)
    else .trap 0x02 0 0 0) s

end Sys2Proof.Machine
end

