-- ==== Sys2Proof/Machine/Global.lean ====
section
/-! DEFINITION. Global memory, atomics, reductions, fences and WAITV (spec 13 R251 to R272). -/
namespace Sys2Proof.Machine

/-! Loads and stores -/

/-- The parts of `n` bytes from byte `off` of translated parts. -/
def slice : List Part → Nat → Nat → List Part
  | [], _, _ => []
  | p :: ps, off, n =>
    if p.len ≤ off then slice ps (off - p.len) n
    else
      let m := Nat.min n (p.len - off)
      { p with pa := p.pa + off, len := m } :: (if n ≤ m then [] else slice ps 0 (n - m))

/-- Hold what a store wrote, where its leaf allows it (R243). -/
def State.holdParts (s : State) (sc : Scope) (sync : Bool) (ps : List Part) : State :=
  let hs := ps.filter (fun p => p.leaf.holdable)
  if hs.isEmpty then s else s.hold { agent := s.me, write := true, sync := sync, spans := spansOf hs } (some sc)

/-- A load of the current context over checked parts (R254, R256). -/
def State.globalRead (s : State) (acq : Option Scope) (ps : List Part) (k : State → List Byte → Res) : Res :=
  let sync := acq.isSome
  let made := s.grant false sync (spansOf ps) id (fun s =>
    let bs := s.readParts ps
    let s := if sync then s.loadAcquires acq (spansOf ps) else s
    k s bs)
  if sync then s.inOrder (spansOf ps) made else made

/-- A store of the current context over checked parts: WSCOPE, or its own scope for a release (R243, R255, R256). -/
def State.globalWrite (s : State) (rel : Option Scope) (ps : List Part) (bs : List Byte) (k : State → Res) : Res :=
  let sync := rel.isSome
  let made := s.grant true sync (spansOf ps) id (fun s =>
    let s := s.writeParts ps bs
    let s := s.holdParts (rel.getD s.wscope) sync ps
    k (s.storeReleases rel sync (spansOf ps)))
  if sync then s.settled (s.inOrder (spansOf ps) made) else made

/-- LDG (R256). -/
def execLdg (h : Hdr) (ty : STy) (acq : Option Scope) (d a : GReg) (off : BitVec 16) (s : State) : Out :=
  issue h .all [s.gT a] [s.gT d] (fun s =>
    let ea := effAddr (s.g a) off
    let n := styBytes ty
    if ea.toNat % n ≠ 0 then .trap 0x06 0 ea 0
    else s.checked false [(ea, n)] (fun s ps => s.globalRead acq ps (fun s bs => .done (s.putG d (loadValue ty bs) none)))) s

/-- STG (R256). -/
def execStg (h : Hdr) (ty : STy) (rel : Option Scope) (a b : GReg) (off : BitVec 16) (s : State) : Out :=
  issue h .all [s.gT a, s.gT b] [] (fun s =>
    let ea := effAddr (s.g a) off
    let n := styBytes ty
    if ea.toNat % n ≠ 0 then .trap 0x06 0 ea 0
    else s.checked true [(ea, n)] (fun s ps => s.globalWrite rel ps (leBytes n (s.g b).toNat) .done)) s

/-- The parts of the active bytes of a row (R257). -/
def rowParts (ps : List Part) (runs : List (Nat × Nat)) : List Part := runs.flatMap (fun r => slice ps r.1 r.2)

/-- VLDG (R257). -/
def execVldg (h : Hdr) (k : KReg) (acq : Option Scope) (d : VReg) (a : GReg) (off : BitVec 16) (s : State) : Out :=
  issueV h [s.gT a, kT k] (s.vT d) (fun s =>
    let ea := effAddr (s.g a) off
    let runs := wordRuns (s.kreg k)
    if ea.toNat % 64 ≠ 0 then .trap 0x06 0 ea 0
    else s.checked false (pageParts ea 2048) (fun s ps => s.globalRead acq (rowParts ps runs) (fun s bs =>
      .done (s.putV d (runMask runs) (placeRuns runs bs) none)))) s

/-- VSTG (R257). -/
def execVstg (h : Hdr) (k : KReg) (rel : Option Scope) (a : GReg) (b : VReg) (off : BitVec 16) (s : State) : Out :=
  issueV h (s.gT a :: kT k :: s.vT b) [] (fun s =>
    let ea := effAddr (s.g a) off
    let runs := wordRuns (s.kreg k)
    if ea.toNat % 64 ≠ 0 then .trap 0x06 0 ea 0
    else s.checked true (pageParts ea 2048) (fun s ps =>
      s.globalWrite rel (rowParts ps runs) (runs.flatMap (fun p => rowBytes (s.v b) p.1 p.2)) .done)) s

/-! Operators of atomics and reductions -/

/-- A signalling NaN becomes quiet; every NaN here is written canonically or kept by the table of R259. -/
def floatExtreme (less : Bool) (t : ETy) (m b : Nat) : Nat :=
  if isNan t m then (if isNan t b then nanBits t else b)
  else if isNan t b then m
  else pickExtreme less t m b

/-- The lesser or greater of two integers of `n` bits (R258). -/
def intExtreme (less signed : Bool) (n m b : Nat) : Nat :=
  let v (x : Nat) : Int := if signed then sInt n x else (x : Int)
  if less then (if v b < v m then b else m) else (if v m < v b then b else m)

/-- The new value of an operator on the `n`-bit value m and operand b (R258, R259, R263). -/
def ropApply (op : Rop) (ty : STy) (m b : Nat) : Nat :=
  let n := 8 * styBytes ty
  let ft := ((styFloat ty).map fstyEty).getD .f32
  match op with
  | .add => (m + b) % 2 ^ n
  | .fadd => (roundTo ft .rne 0 false (xAdd false (xOf ft m) (xOf ft b))).bits
  | .min => intExtreme true true n m b
  | .max => intExtreme false true n m b
  | .minn => intExtreme true false n m b
  | .maxn => intExtreme false false n m b
  | .fmin => floatExtreme true ft m b
  | .fmax => floatExtreme false ft m b
  | .and => m &&& b
  | .or => m ||| b
  | .xor => m ^^^ b

/-! Atomics -/

/-- Acquire and release sides of an order. -/
def ordAcq : AOrd → Option Scope
  | .acq s => some s | .ar s => some s | _ => none
/-- The release side. -/
def ordRel : AOrd → Option Scope
  | .rel s => some s | .ar s => some s | _ => none

/-- What the synchronisation of an atomic leaves: a write is a store that pending FENCEs and its own release stand at; an atomic that
writes nothing stores nothing, so no acquire observes it, but it synchronises all the same (R233, R235, R258, R260). -/
def State.atomicReleases (s : State) (ord : AOrd) (writes : Bool) (spans : List (Nat × Nat)) : State :=
  if writes then s.storeReleases (ordRel ord) true spans
  else match ordRel ord with
    | some sc => (s.release s.me sc).1
    | none => s

/-- The atomic access at checked parts: `f` gives from the old value the new one, if it writes, and the result (R258). One that writes
nothing only reads (R237, R260, R261). -/
def State.atomicAt (s : State) (ord : AOrd) (d : GReg) (n : Nat) (f : Nat → Option Nat × Word) (ps : List Part) : Res :=
  let r := f (leNat (s.readParts ps))
  let ordered (k : Res) : Res := s.inOrder (spansOf ps) (if (ordRel ord).isSome || (r.1.isSome && s.fenced) then s.settled k else k)
  ordered (s.grant r.1.isSome true (spansOf ps) id (fun s =>
    match s.badIn (spansOf ps) with
    | some a => .trap 0x25 0 (BitVec.ofNat 64 a) 0
    | none =>
      let s := s.loadAcquires (ordAcq ord) (spansOf ps)
      let s := match r.1 with
        | some v => s.writeParts ps (leBytes n v)
        | none => s
      .done ((s.atomicReleases ord r.1.isSome (spansOf ps)).putG d r.2 none)))

/-- Issue of an atomic: checks of R253, then the access; `f` also sees the registers. -/
def atomic (h : Hdr) (ty : STy) (ord : AOrd) (d a b : GReg) (off : BitVec 16) (readsD : Bool)
    (f : State → Nat → Option Nat × Word) (s : State) : Out :=
  issue h .all ([s.gT a, s.gT b] ++ (if readsD then [s.gT d] else [])) [s.gT d] (fun s =>
    let ea := effAddr (s.g a) off
    let n := styBytes ty
    if ea.toNat % n ≠ 0 then .trap 0x06 0 ea 0
    else s.checked true [(ea, n)] (fun s' ps => s'.atomicAt ord d n (f s) ps)) s

/-- An atomic that applies an operator (R258). -/
def atomicOp (op : Rop) (h : Hdr) (ty : STy) (ord : AOrd) (d a b : GReg) (off : BitVec 16) (s : State) : Out :=
  atomic h ty ord d a b off false (fun s m =>
    (some (ropApply op ty m ((s.g b).toNat % 2 ^ (8 * styBytes ty))), loadValue ty (leBytes (styBytes ty) m))) s

/-- The scalar type of a floating type: STY 2, 3 and 4 (R71). -/
def fstySty : FSty → STy
  | .bf16 => .i16 | .f16 => .n16 | .f32 => .i32

/-- A floating atomic: the old value is zero-extended (R258). -/
def atomicFloat (op : Rop) (h : Hdr) (ty : FSty) (ord : AOrd) (d a b : GReg) (off : BitVec 16) (s : State) : Out :=
  atomic h (fstySty ty) ord d a b off false (fun s m =>
    (some (ropApply op (fstySty ty) m ((s.g b).toNat % 2 ^ (8 * styBytes (fstySty ty)))), BitVec.ofNat 64 m)) s

/-- AADD (R258). -/
def execAadd (h : Hdr) (ty : STy) (ord : AOrd) (d a b : GReg) (off : BitVec 16) (s : State) : Out := atomicOp .add h ty ord d a b off s
/-- AFADD (R258). -/
def execAfadd (h : Hdr) (ty : FSty) (ord : AOrd) (d a b : GReg) (off : BitVec 16) (s : State) : Out := atomicFloat .fadd h ty ord d a b off s
/-- AMIN (R258). -/
def execAmin (h : Hdr) (ty : STy) (ord : AOrd) (d a b : GReg) (off : BitVec 16) (s : State) : Out := atomicOp .min h ty ord d a b off s
/-- AMAX (R258). -/
def execAmax (h : Hdr) (ty : STy) (ord : AOrd) (d a b : GReg) (off : BitVec 16) (s : State) : Out := atomicOp .max h ty ord d a b off s
/-- AMINN (R258). -/
def execAminn (h : Hdr) (ty : STy) (ord : AOrd) (d a b : GReg) (off : BitVec 16) (s : State) : Out := atomicOp .minn h ty ord d a b off s
/-- AMAXN (R258). -/
def execAmaxn (h : Hdr) (ty : STy) (ord : AOrd) (d a b : GReg) (off : BitVec 16) (s : State) : Out := atomicOp .maxn h ty ord d a b off s
/-- AFMIN (R259). -/
def execAfmin (h : Hdr) (ty : FSty) (ord : AOrd) (d a b : GReg) (off : BitVec 16) (s : State) : Out := atomicFloat .fmin h ty ord d a b off s
/-- AFMAX (R259). -/
def execAfmax (h : Hdr) (ty : FSty) (ord : AOrd) (d a b : GReg) (off : BitVec 16) (s : State) : Out := atomicFloat .fmax h ty ord d a b off s
/-- AAND (R258). -/
def execAand (h : Hdr) (ty : STy) (ord : AOrd) (d a b : GReg) (off : BitVec 16) (s : State) : Out := atomicOp .and h ty ord d a b off s
/-- AOR (R258). -/
def execAor (h : Hdr) (ty : STy) (ord : AOrd) (d a b : GReg) (off : BitVec 16) (s : State) : Out := atomicOp .or h ty ord d a b off s
/-- AXOR (R258). -/
def execAxor (h : Hdr) (ty : STy) (ord : AOrd) (d a b : GReg) (off : BitVec 16) (s : State) : Out := atomicOp .xor h ty ord d a b off s

/-- ASWP (R258). -/
def execAswp (h : Hdr) (ty : STy) (ord : AOrd) (d a b : GReg) (off : BitVec 16) (s : State) : Out :=
  atomic h ty ord d a b off false (fun s m =>
    (some ((s.g b).toNat % 2 ^ (8 * styBytes ty)), loadValue ty (leBytes (styBytes ty) m))) s

/-- ACAS reads D (R260). -/
def execAcas (h : Hdr) (ty : STy) (ord : AOrd) (d a b : GReg) (off : BitVec 16) (s : State) : Out :=
  atomic h ty ord d a b off true (fun s m =>
    let w := 2 ^ (8 * styBytes ty)
    (if m = (s.g d).toNat % w then some ((s.g b).toNat % w) else none, loadValue ty (leBytes (styBytes ty) m))) s

/-- ABADD reads D (R261). -/
def execAbadd (h : Hdr) (ord : AOrd) (d a b : GReg) (off : BitVec 16) (s : State) : Out :=
  atomic h .n32 ord d a b off true (fun s m =>
    let v := m + (s.g b).toNat % 2 ^ 32
    if v ≤ (s.g d).toNat % 2 ^ 32 then (some v, BitVec.ofNat 64 m) else (none, BitVec.allOnes 64)) s

/-! Reductions -/

/-- Apply the elements of one contribution to its line (R266). -/
def State.applyElems (s : State) (key line : Nat) (k : Contribution) : State :=
  k.elems.foldl (fun s e =>
    let pa := 64 * line + e.1
    s.writePhys key pa (leBytes e.2.1 (ropApply k.rop k.sty (leNat (s.readPhys key pa e.2.1)) e.2.2))) s

/-- The elements of two contributions share a byte. -/
def Contribution.shares (x y : Contribution) : Bool := x.elems.any (fun e => y.elems.any (fun g => overlap e.1 e.2.1 g.1 g.2.1))

/-- Apply the REDs that stand behind nothing any more: no contribution of their agent to the same bytes that it made before them waits, and no
earlier RED of their agent stands behind (R254, R264). -/
def State.applyBehind (s : State) (key line : Nat) : Nat → Counter → State × Counter
  | 0, k => (s, k)
  | fuel + 1, k =>
    let stuck (x : Contribution) : Bool :=
      k.waiting.any (fun y => y.agent == x.agent && x.after.contains y.idx && y.shares x) ||
        (k.behind.takeWhile (· != x)).any (fun y => y.agent == x.agent && y.shares x)
    match k.behind.find? (fun x => !stuck x) with
    | none => (s, k)
    | some x => State.applyBehind (s.applyElems key line x) key line fuel { k with behind := k.behind.erase x }

/-- Apply the waiting contributions whose lower indices have all been applied, in increasing index (R267), and after each what stood
behind it. -/
def State.applyReady (s : State) (key line : Nat) : Nat → Counter → State × Counter
  | 0, k => (s, k)
  | fuel + 1, k =>
    match k.waiting.find? (fun x => x.idx == k.applied.length) with
    | none => (s, k)
    | some x =>
      let (s, k) := (s.applyElems key line x).applyBehind key line (k.behind.length)
        { k with applied := k.applied ++ [x], waiting := k.waiting.filter (fun y => y.idx != x.idx) }
      State.applyReady s key line fuel k

/-- A RED of the current context is performed, or stands behind the context's own waiting contribution to the same bytes (R254, R263,
R264). -/
def State.reduce (s : State) (p : Part) (op : Rop) (ty : STy) (n v : Nat) : State :=
  let line := lineOf p.pa
  let mine := s.order.counters.flatMap (fun q => if q.1 = line then q.2.waiting.filter (fun y => y.agent == s.me) else [])
  let x : Contribution :=
    { idx := 0, agent := s.me, scope := .core, clock := {}, rop := op, sty := ty, elems := [(p.pa % 64, n, v)], after := mine.map (·.idx) }
  if s.contributes s.me [(p.pa, n)] then
    { s with order := { s.order with counters := s.order.counters.map (fun q =>
        if q.1 = line then (q.1, { q.2 with behind := q.2.behind ++ [x] }) else q) } }
  else s.applyElems p.leaf.key line x

/-- RED (R263). -/
def execRed (h : Hdr) (op : Rop) (ty : STy) (a b : GReg) (off : BitVec 16) (s : State) : Out :=
  issue h .all [s.gT a, s.gT b] [] (fun s =>
    let ea := effAddr (s.g a) off
    let n := styBytes ty
    let v := (s.g b).toNat % 2 ^ (8 * n)
    if ea.toNat % n ≠ 0 then .trap 0x06 0 ea 0
    else s.checked true [(ea, n)] (fun s ps => s.fencedSettled (s.grant true true (spansOf ps) id (fun s =>
      match s.badIn (spansOf ps) with
      | some x => .trap 0x25 0 (BitVec.ofNat 64 x) 0
      | none => .done ((ps.foldl (fun s p => s.reduce p op ty n v) s).storeReleases none true (spansOf ps)))))) s

/-- Whether a contribution raises RSVD: an index that is not below the count, or what the home finds (R267). -/
def State.refuses (s : State) (line cnt idx : Nat) (det : Bool) : Bool :=
  (det && decide (cnt ≤ idx)) ||
    match (s.order.counters.find? (fun p => p.1 == line)).map (·.2) with
    | some k => k.cnt != cnt || k.det != det || (det && k.landed.contains idx)
    | none => false

/-- A contribution lands and counts; the last one adds 1 to the ready flag, a release for each contributor (R266). -/
def State.contribute (s : State) (key line cnt : Nat) (det : Bool) (x : Contribution) : State :=
  let k := ((s.order.counters.find? (fun p => p.1 == line)).map (·.2)).getD
    { cnt := cnt, det := det, seen := 0, applied := [], waiting := [], landed := [] }
  let k := { k with seen := k.seen + 1, landed := k.landed ++ [x.idx] }
  let (s, k) :=
    if det then s.applyReady key line (k.waiting.length + 1) { k with waiting := k.waiting ++ [x] }
    else (s.applyElems key line x, { k with applied := k.applied ++ [x] })
  let others := s.order.counters.filter (fun p => p.1 != line)
  if k.seen < cnt then { s with order := { s.order with counters := others ++ [(line, k)] } }
  else
    let flag := 64 * line + 56
    let s := { s with order := { s.order with counters := others } }
    let s := s.writePhys key flag (leBytes 8 (leNat (s.readPhys key flag 8) + 1))
    k.applied.foldl (fun s x =>
      let a := { x.access line with lo := flag, len := 8 }
      let s := { s with order := { s.order with accesses := s.order.accesses ++ [a] } }
      (s.addRelease flag 8 x.agent x.scope x.clock).widen x.clock (agentInst x.scope x.agent)) s

/-- What refuses agent `a` the addition to the ready flag, which is made on behalf of every contributor of the round (R266): bytes held by an
instance outside which one of them lies (R245), or an access that none of them knew when it contributed (R237). -/
def State.flagClash (s : State) (a : Agent) (line : Nat) : Option Clash :=
  let t (a : Agent) : Touch := { agent := a, write := true, sync := true, spans := [(64 * line + 56, 8)] }
  let others : List Contribution := match s.order.counters.find? (fun p => p.1 == line) with
    | some p => p.2.applied ++ p.2.waiting
    | none => []
  let free (x : Access) : Bool :=
    x.sync || !overlap x.lo x.len (64 * line + 56) 8 || s.ordered x a || others.any (fun k => k.clock.knows x k.agent.path)
  ((s.heldClash (t a)).orElse fun _ => others.findSome? (fun k => s.heldClash (t k.agent))).orElse fun _ =>
    (s.order.accesses.find? (fun x => !free x)).map (fun x => .conflict line x.agent)

/-- The contribution that completes a round of `cnt` (R266). -/
def State.completes (s : State) (line cnt : Nat) : Bool :=
  (match s.order.counters.find? (fun p => p.1 == line) with | some p => p.2.seen | none => 0) + 1 == cnt

/-- A contribution of the current context at part `p`, whose address it names `ea`: the access, the home's own checks, those of the ready
flag where it completes the round, and then it lands (R253, R265 to R267). -/
def State.redcAt (s : State) (p : Part) (ea : Word) (op : Rop) (ty : STy) (det : Bool) (sc : Scope) (cnt idx v : Nat) : Res :=
  let line := lineOf p.pa
  let flag := 64 * line + 56
  let who : Writer := if s.cur.role = .F then .firmware else .trio
  s.fencedSettled (s.grant true true [(p.pa, p.len)] id (fun s =>
    match s.badIn [(p.pa, p.len)] with
    | some x => .trap 0x25 0 (BitVec.ofNat 64 x) 0
    | none =>
      if s.refuses line cnt idx det then .trap 0x02 0 0 0
      else
        let land (s : State) : Res :=
          let s := s.storeReleases none true [(p.pa, p.len)]
          let (s, clk) := s.stamp s.me
          .done (s.contribute p.leaf.key line cnt det
            { idx := idx, agent := s.me, scope := sc, clock := clk, rop := op, sty := ty, elems := [(p.pa % 64, p.len, v)] })
        if !s.completes line cnt then land s
        else if s.pinned who flag 8 then .trap 0x26 0 (BitVec.ofNat 64 (ea.toNat / 64 * 64 + 56)) 0
        else match s.flagClash s.me line, s.badIn [(flag, 8)] with
          | some k, _ => s.clashRes { agent := s.me, write := true, sync := true, spans := [(flag, 8)] } k
          | none, some x => .trap 0x25 0 (BitVec.ofNat 64 x) 0
          | none, none => land s))

/-- REDC (R265 to R267). -/
def execRedc (h : Hdr) (op : Rop) (ty : STy) (det : Bool) (sc : Scope) (a b : GReg) (cnt1 idx : BitVec 8) (s : State) : Out :=
  issue h .all [s.gT a, s.gT b] [] (fun s =>
    let ea := s.g a
    let n := styBytes ty
    let v := (s.g b).toNat % 2 ^ (8 * n)
    if ea.toNat % n ≠ 0 ∨ 56 ≤ ea.toNat % 64 then .trap 0x06 0 ea 0
    else s.checked true [(ea, n)] (fun s ps => match ps with
      | p :: _ => s.redcAt p ea op ty det sc (cnt1.toNat + 1) idx.toNat v
      | [] => .done s)) s

/-! Fences, cache maintenance, WAITV -/

/-- FENCE (R235, R268): its release waits for the next atomic or synchronising store, its acquire stands for the last load. It completes when the
context's earlier accesses have been performed (R254). -/
def execFence (h : Hdr) (sc : Scope) (ord : FOrd) (s : State) : Out :=
  issue h .all [] [] (fun s => s.settled (
    let c := s.cur.core
    let r := s.cur.role
    let s := if ord = .rel then s
      else (s.ctx c r).lastLoad.foldl (fun s l => s.acquireAt s.me sc l.1 l.2.1 l.2.2) s
    let (s, clk) := s.stamp s.me
    let s := s.endRegion s.me
    .done (if ord = .acq then s else s.modCtx c r (fun x => { x with fences := x.fences ++ [(sc, clk)] })))) s

/-- XFENCE (R248, R269). -/
def execXfence (h : Hdr) (c1 c2 : Path) (s : State) : Out :=
  issue h .all [] [] (fun s => s.settled (.done (s.xfence s.me c1 c2))) s

/-- PREF has no visible effect (R270). -/
def execPref (h : Hdr) (a : GReg) (_off : BitVec 16) (s : State) : Out := issue h .all [s.gT a] [] .done s

/-- The translation of a maintenance instruction (R271). -/
def maintain (h : Hdr) (a : GReg) (off : BitVec 16) (k : State → Part → Res) (s : State) : Out :=
  issue h .all [s.gT a] [] (fun s =>
    let ea := effAddr (s.g a) off
    match s.xlatParts s.cur.core (s.aspaceOf s.cur.core s.cur.role) .none [(ea, 1)] with
    | .error f => Res.of f ea
    | .ok (s, p :: _) => k s p
    | .ok (s, []) => .done s) s

/-- CFLUSH changes no value that an agent can read (R271). -/
def execCflush (h : Hdr) (a : GReg) (off : BitVec 16) (s : State) : Out := maintain h a off (fun s _ => .done s) s

/-- CINV: decoded lines are always decoded from the current bytes (log 7); a line with lost data is not dropped (R385). -/
def execCinv (h : Hdr) (a : GReg) (off : BitVec 16) (s : State) : Out :=
  maintain h a off (fun s p =>
    match s.hasBad (p.pa / 64 * 64) 64 with
    | some x => .trap 0x25 0 (BitVec.ofNat 64 x) 0
    | none => .done s) s

/-- WAITV: an atomic read; the final one may acquire (R272). -/
def execWaitv (h : Hdr) (ty : STy) (acq : Option Scope) (d a b : GReg) (off : BitVec 16) (s : State) : Out :=
  issue h .all [s.gT a, s.gT b] [s.gT d] (fun s =>
    let ea := effAddr (s.g a) off
    let n := styBytes ty
    if ea.toNat % n ≠ 0 then .trap 0x06 0 ea 0
    else s.checked false [(ea, n)] (fun s ps => s.inOrder (spansOf ps) (s.grant false true (spansOf ps) id (fun s =>
      let bs := s.readParts ps
      if leNat bs = (s.g b).toNat % 2 ^ (8 * n) then .sleep s (.waitv (match ps with | p :: _ => lineOf p.pa | [] => 0))
      else .done ((s.loadAcquires acq (spansOf ps)).putG d (loadValue ty bs) none))))) s

/-! Steps of their own -/

/-- What the home answers to an access of the current context after its instruction has issued: it is made, or the exception is raised at the
context's instruction, or it is tried again when its step is named again, for at most 2^20 cycles (R239, R245). -/
def State.homeAnswers (s : State) (r : Res) : Out :=
  match r with
  | .done t => .next t
  | .trap cause sub val other => .next (s.takeTrap s.cur.core s.cur.role cause sub val other (s.ctx s.cur.core s.cur.role).pc)
  | .sleep t _ => .next t
  | _ => .next s

/-- HOME_ACCESS (R254): a store of the current context is performed at the home of a physical address, as the firmware
context names memory; one that the home refuses is not made, and raises the exception (R239, R347). -/
def execHomeAccess (pa : Nat) (data : List Byte) (s : State) : Out :=
  if data.isEmpty || !s.isMemory pa || !s.isMemory (pa + data.length - 1) then .next s
  else if s.pinned .firmware pa data.length then s.homeAnswers (.trap 0x26 0 (BitVec.ofNat 64 pa) 0)
  else s.homeAnswers (s.globalWrite none [physPart pa data.length] data .done)

/-- REDC_LAND (R266): a contribution of the current context lands at a line's home; a refused one has no effect, and raises the
exception (R239, R255). -/
def execRedcLand (pa : Nat) (op : Rop) (ty : STy) (det : Bool) (sc : Scope) (cnt idx : Nat) (v : Word) (s : State) : Out :=
  let n := styBytes ty
  let val : Word := BitVec.ofNat 64 pa
  if ¬ s.isMemory pa then .next s
  else if pa % n ≠ 0 ∨ 56 ≤ pa % 64 then s.homeAnswers (.trap 0x06 0 val 0)
  else if s.pinned .firmware pa n then s.homeAnswers (.trap 0x26 0 val 0)
  else s.homeAnswers (s.redcAt (physPart pa n) val op ty det sc cnt idx (v.toNat % 2 ^ (8 * n)))

/-- VARIABLE_RESULT_LAND (R26): the oldest variable-latency result of the core lands. -/
def execVariableResultLand (s : State) : Out :=
  match (s.core s.cur.core).pend.find? (fun e => e.ready.isNone) with
  | some p => .next (s.modCore s.cur.core (fun k => k.landIf (fun e => e == p)))
  | none => .next s

/-- The cycle since which a context waits for a held line, and the line. -/
def Ctx.retrying (x : Ctx) : Option (Nat × Nat) :=
  match x.run, x.wait with
  | .sleeping, some (.retry since l) => some (since, l)
  | _, _ => none

/-- RETRY_ADMIT (R245, R246): a requester of a line makes its access again; those that were refused before it and are admitted come first. -/
def execRetryAdmit (s : State) : Out :=
  match (s.ctx s.cur.core s.cur.role).retrying with
  | some _ => .next (s.wake s.cur.core s.cur.role)
  | none => .next s

/-- PINNED_LINE_TIMEOUT (R245): a requester refused for 2^20 cycles issues again and takes 0x23. -/
def execPinnedLineTimeout (s : State) : Out :=
  match (s.ctx s.cur.core s.cur.role).retrying with
  | some (since, _) => if since + 2 ^ 20 ≤ s.gtc then .next (s.wake s.cur.core s.cur.role) else .next s
  | none => .next s

/-- WAITV_WAKE (R272): a sleeping WAITV reads its location again. -/
def execWaitvWake (s : State) : Out :=
  match (s.ctx s.cur.core s.cur.role).run, (s.ctx s.cur.core s.cur.role).wait with
  | .sleeping, some (.waitv _) => .next (s.wake s.cur.core s.cur.role)
  | _, _ => .next s

end Sys2Proof.Machine
end

