-- ==== Sys2Proof/Machine/Engine.lean ====
section
/-! DEFINITION. Engines, chains and commands: slots, the parameter stack, address runs, faults, retirement, and the engine
instructions (spec 14 R275 to R301, 15 R304 to R312, R324 to R327). -/
namespace Sys2Proof.Machine

/-! Chains and slots -/

/-- CHTAIL of a chain (R283). -/
def Core.tail (k : Core) (n : Nat) : Nat := (k.reg (0x318 + n)).toNat
/-- CHDONE of a chain (R283). -/
def Core.chdone (k : Core) (n : Nat) : Nat := (k.reg (0x310 + n)).toNat
/-- Number of slots of a chain's pool (R278). -/
def Core.slots (k : Core) (n : Nat) : Nat := fld (k.reg (0x300 + n)) 63 54 + 1
/-- BASE of a chain's pool; 0 is absent (R278). -/
def Core.pool (k : Core) (n : Nat) : Nat := fld (k.reg (0x300 + n)) 51 10
/-- Physical address of the slot of command `q` of chain `n` (R282). -/
def Core.slot (k : Core) (n q : Nat) : Nat := (k.pool n + q % k.slots n) * 1024

/-- What a chain knows of command `q`. -/
def Chain.enq (ch : Chain) (q : Nat) : Option Enq := ch.cmds.find? (fun e => e.seq == q)
/-- Change what a chain knows of command `q`. -/
def State.modEnq (s : State) (c n q : Nat) (f : Enq → Enq) : State :=
  s.modChain c n (fun ch => { ch with cmds := ch.cmds.map (fun e => if e.seq = q then f e else e) })
/-- Change the running command of a chain. -/
def State.modCmd (s : State) (c n : Nat) (f : Cmd → Cmd) : State :=
  s.modChain c n (fun ch => { ch with run := ch.run.map f })

/-- An access of command `q` to its slot at an offset: engines name pools by physical address under key 0 (R278, R282). -/
def State.slotTouch (s : State) (c n q : Nat) (write : Bool) (off len : Nat) : Touch :=
  { agent := .cmd c n q, write := write, sync := false, spans := [((s.core c).slot n q + off, len)] }

/-- What refuses an access of a command to its slot: a conflict, a block that a notice pins, or lost data (R239, R282, R347, R385). Slot accesses
are ordinary, so a held line is a conflict. -/
def State.slotFault (s : State) (c n q : Nat) (write : Bool) (off len : Nat) : Option (Nat × Nat × Word) :=
  let pa := (s.core c).slot n q + off
  if write && s.pinned .slot pa len then some (0x22, pa / 64 * 64, 0)
  else match s.ask (s.slotTouch c n q write off len) (physParts pa len) with
    | .fault cause _ a o => if cause = 0x22 ∨ cause = 0x25 then some (cause, a, o) else none
    | _ => none

/-- The engine's own write into a slot: an ordinary access of the command, held at its scope; one that is refused is not made, and what refuses it is
answered (R239, R243, R282, R385). -/
def State.slotPut (s : State) (c n q off : Nat) (bs : List Byte) : State × Option (Nat × Nat × Word) :=
  match s.slotFault c n q true off bs.length with
  | some f => (s, some f)
  | none =>
    let pa := (s.core c).slot n q + off
    let t := s.slotTouch c n q true off bs.length
    ((((s.record t).hold t (if isDram pa then some (s.scopeFor t.agent) else none)).clearBad pa bs.length).writeKey 0 pa bs, none)

/-- A refused slot write is reported to the firmware of the chain's core (R239, R282, R385). -/
def State.slotLost (s : State) (c n : Nat) (f : Option (Nat × Nat × Word)) : State :=
  match f with
  | some (cause, a, o) => s.report c { cause := cause, src := 1, chain := n, val := BitVec.ofNat 64 a, other := o }
  | none => s

/-- A slot write whose refusal has no word or instruction to stop: it is reported. -/
def State.slotWrite (s : State) (c n q off : Nat) (bs : List Byte) : State :=
  let r := s.slotPut c n q off bs
  r.1.slotLost c n r.2

/-- The engine reads bytes of a slot: recorded as an ordinary access of the command (R237, R282). -/
def State.slotRead (s : State) (c n q off len : Nat) : State := s.record (s.slotTouch c n q false off len)

/-- Micro-word `i` of a command as its slot holds it (R282). -/
def State.slotWord (s : State) (c n q i : Nat) : Nat := leNat (s.readKey 0 ((s.core c).slot n q + 0x80 + 2 * i) 2)

/-- The words of a command as its slot holds them (R282). -/
def State.slotWords (s : State) (c n q : Nat) : List Nat :=
  let bs := s.readKey 0 ((s.core c).slot n q) 0x280
  let count := Nat.min 256 (leNat ((bs.drop 0x18).take 2))
  lanesOf 16 count (leNat (bs.drop 0x80))

/-! Address runs -/

/-- One address run of a linked command: physical address, virtual address, length, and W (R285, R305). -/
structure AddrRun where
  pa : Nat
  va : Nat
  len : Nat
  w : Bool
  deriving DecidableEq, Repr

/-- The 57-bit value of the four words after ADDR (R285). -/
def runValue (a b c d : Nat) : Nat := (a % 0x8000) * 2 ^ 42 + (b % 0x4000) * 2 ^ 28 + (c % 0x4000) * 2 ^ 14 + d % 0x4000

/-- LIT, EXT, EXT, EXT and a LIT follow (R285). -/
def fullRun : List Nat → Bool
  | a :: b :: c :: d :: e :: _ =>
    decide (a < 0x8000) && b / 0x4000 == 2 && c / 0x4000 == 2 && d / 0x4000 == 2 && decide (e < 0x8000)
  | _ => false

/-- The address runs of a command: value, length and W of each, in the order of the words. -/
def scanRuns : List Nat → Nat → List (Nat × Nat × Bool)
  | [], _ => []
  | _ :: rest, skip + 1 => scanRuns rest skip
  | w :: rest, 0 =>
    if w = 0xE001 then
      match rest with
      | a :: b :: c :: d :: e :: _ => (runValue a b c d, 512 * (e % 0x4000 + 1), e / 0x4000 % 2 == 1) :: scanRuns rest 5
      | _ => []
    else scanRuns rest 0

/-- The runs of a linked command with their virtual addresses. -/
def runsOf (words vas : List Nat) : List AddrRun :=
  List.zipWith (fun r va => { pa := r.1, va := va, len := r.2.1, w := r.2.2 }) (scanRuns words 0) vas

/-- The four words that hold a value (R285, R330). -/
def runWords (v : Nat) : List Nat :=
  [v / 2 ^ 42 % 0x8000, 0x8000 + v / 2 ^ 28 % 0x4000, 0x8000 + v / 2 ^ 14 % 0x4000, 0x8000 + v % 0x4000]

/-- The words with each run's value rewritten (R285, R295); the third list holds words that take the next places. -/
def relink : List Nat → List Nat → List Nat → List Nat
  | [], _, _ => []
  | _ :: ws, pas, x :: xs => x :: relink ws pas xs
  | w :: ws, pas, [] =>
    if w = 0xE001 then
      match pas with
      | p :: ps => w :: relink ws ps (runWords p)
      | [] => w :: relink ws [] []
    else w :: relink ws pas []

/-- Why a word does not go on. -/
inductive WErr where
  /-- cause, subcause, address for FADDR, the other agent -/
  | fault (cause sub : Nat) (addr : Nat) (other : Word)
  /-- refused by a held line (R245) -/
  | retry (t : Touch) (line : Nat) (other : Word)
  /-- an older instruction or a full table holds the word back -/
  | hold
  deriving DecidableEq, Repr

/-- Engine fault 0x30 with a subcause (R306). -/
def WErr.eng (sub addr : Nat) : WErr := .fault 0x30 sub addr 0

/-- The bytes of a global operand, piece by piece: through the lowest-numbered run whose window holds them, with W = 1
where they are written, and through the page that ENQ checked (R305, R306). -/
def resolveFrom (runs : List AddrRun) (pages : List Leaf) (write : Bool) : Nat → Nat → Nat → Except WErr (List Part)
  | 0, _, _ => .ok []
  | fuel + 1, x, n =>
    if n = 0 then .ok []
    else
      match runs.find? (fun r => decide (r.pa ≤ x) && decide (x < r.pa + r.len) && (r.w || !write)) with
      | none => .error (.eng 1 x)
      | some r =>
        let va := r.va + (x - r.pa)
        -- a lower run may begin inside this piece
        let stops := runs.filterMap (fun q => if x < q.pa ∧ (q.w ∨ ¬ write) then some (q.pa - x) else none)
        let m := stops.foldl Nat.min (Nat.min n (Nat.min (r.pa + r.len - x) (0x10000 - va % 0x10000)))
        match pages.find? (fun l => decide (l.va ≤ va % 2 ^ 56) && decide (va % 2 ^ 56 < l.va + l.size)) with
        | none => .error (.eng 1 x)
        | some l => do
          let rest ← resolveFrom runs pages write fuel (x + m) (n - m)
          pure ({ pa := l.frame + (va % 2 ^ 56 - l.va), len := m, leaf := l } :: rest)

/-- The pieces of `n` global bytes at `x` (R305). -/
def resolve (runs : List AddrRun) (pages : List Leaf) (write : Bool) (x n : Nat) : Except WErr (List Part) :=
  resolveFrom runs pages write n x n

/-- The scratchpad bytes that a command may reach (R306). -/
def State.cmdRange (s : State) (e : Enq) : Nat × Nat :=
  if e.role = .F then (0, 0x300000)
  else match s.launch? e.launch with
    | some l => (l.rcd.spbase, l.rcd.spbase + l.rcd.spsize)
    | none => (0, 0)

/-- Whether a command may name tile `t` (R314). -/
def State.cmdTile (s : State) (e : Enq) (t : Nat) : Bool :=
  decide (t < 8) && (e.role == .F || (match s.launch? e.launch with
    | some l => Nat.testBit l.rcd.tres t
    | none => false))

/-- The pieces of `n` scratchpad bytes at `x` under a swizzle, checked for range and alignment (R306 subcause 2). -/
def State.cmdSp (s : State) (c : Nat) (e : Enq) (swz : BitVec 3) (x n align : Nat) : Except WErr (List Part) :=
  let (lo, hi) := s.cmdRange e
  if x % align = 0 ∧ lo ≤ x ∧ x + n ≤ hi ∧ x + n ≤ 0x300000 then
    .ok ((spPieces swz x n).map (fun p => { pa := spAddr c p.1, len := p.2, leaf := spLeaf }))
  else .error (.eng 2 x)

/-- Address in a data-loss report: a scratchpad address for bytes of the core's own scratchpad (R370). -/
def lossAddr (c a : Nat) : Nat := if spAddr c 0 ≤ a ∧ a < spAddr c 0x300000 then a - spAddr c 0 else a

/-- An access of an agent over parts is admitted: conflicts, retries and data loss (R239, R245, R385). -/
def State.engAdmit (s : State) (c : Nat) (a : Agent) (write sync : Bool) (ps : List Part) : Except WErr State :=
  let t : Touch := { agent := a, write := write, sync := sync, spans := spansOf ps }
  match s.ask t ps with
  | .granted s => .ok s
  | .refused l o => .error (.retry t l (s.agentWord o))
  | .fault cause sub x o => .error (.fault cause sub (if cause = 0x25 then lossAddr c x else x) o)

/-- A read of an engine. -/
def State.engRead (s : State) (c : Nat) (a : Agent) (ps : List Part) : Except WErr (State × List Byte) := do
  let s ← s.engAdmit c a false false ps
  pure (s, s.readParts ps)

/-- A write of an engine at a scope; a block pinned since the ENQ refuses it (R243, R347). -/
def State.engWrite (s : State) (c : Nat) (a : Agent) (sc : Scope) (sync : Bool) (ps : List Part) (bs : List Byte) :
    Except WErr State :=
  match ps.find? (fun p => s.pinned .engine p.pa p.len) with
  | some p => .error (.fault 0x22 0 (p.pa / 64 * 64) 0)
  | none => do
    let s ← s.engAdmit c a true sync ps
    let t (qs : List Part) : Touch := { agent := a, write := true, sync := sync, spans := spansOf qs }
    let s := s.hold (t (ps.filter (fun p => !p.leaf.holdable))) none
    let s := s.hold (t (ps.filter (fun p => p.leaf.holdable))) (some sc)
    pure (s.writeParts ps bs)

/-! Faults and retirement -/

/-- The path of a chain (R247). -/
def chainPath (n : Nat) : Path := (Agent.cmd 0 n 0).path

/-- The slot bytes of a stack, bottom first (R282). -/
def stackBytes (st : List Word) : List Byte := leBytes 64 (packLanes 64 (st.reverse.map (·.toNat)))

/-- A command faults at its current word (R289): the slot takes the fault, the chain stops, the cause is reported. -/
def State.cmdFault (s : State) (c n : Nat) (cause sub addr : Nat) (other : Word) : State :=
  match ((s.core c).chain n).run with
  | none => s
  | some q =>
    let (s, f1) := s.slotPut c n q.seq 0x1A (leBytes 1 4)
    let (s, f2) := s.slotPut c n q.seq 0x20
      (leBytes 1 q.upc ++ leBytes 1 q.stack.length ++ leBytes 1 cause ++ leBytes 1 sub ++ leBytes 4 0 ++ leBytes 8 addr)
    let (s, f3) := s.slotPut c n q.seq 0x40 (stackBytes q.stack)
    -- a refused write of the record is reported once, unless it is the very fault that is recorded
    let s := s.slotLost c n ((f1.orElse fun _ => f2.orElse fun _ => f3).filter (fun f => !(f.1 == cause && f.2.1 == addr)))
    let s := s.modEnq c n q.seq (fun e => { e with status := 4 })
    let s := s.modChain c n (fun ch => { ch with fault := true })
    let val := if cause = 0x22 ∨ cause = 0x23 ∨ cause = 0x25 then addr else q.seq
    let run := (s.ctx c .C).run
    -- a schedule miss goes to the computer context where it is delegable as it arises (R380, R381)
    let deleg := cause == 0x32 && s.delegated c .C 0x32 && (run == .running || run == .sleeping || run == .stopped)
    s.report c { deleg := deleg, cause := cause, sub := sub, src := 1, ctx := 0, chain := n, val := BitVec.ofNat 64 val, other := other }

/-- Raise the in-flight counters of pages in the quire of core `c` (R290). -/
def State.raiseFlight (s : State) (c : Nat) (pages : List Leaf) : State :=
  s.modQuire (quireOf c) (fun q => { q with inflight := pages.foldl (fun m l =>
    if m.any (fun p => p.1 == l) then m.map (fun p => if p.1 = l then (l, p.2 + 1) else p) else m ++ [(l, 1)]) q.inflight })

/-- Lower them (R290). -/
def State.lowerFlight (s : State) (c : Nat) (pages : List Leaf) : State :=
  s.modQuire (quireOf c) (fun q => { q with inflight := (pages.foldl (fun m l =>
    m.map (fun p => if p.1 = l then (l, p.2 - 1) else p)) q.inflight).filter (fun p => p.2 != 0) })

/-- CHDONE after the retirements so far (R283): commands before the first live one. -/
def newDone (k : Core) (n : Nat) : Nat :=
  match (k.chain n).cmds.find? Enq.live with
  | some e => e.seq - 1
  | none => k.tail n

/-- What refuses the completion word (R239, R288, R347, R385). -/
def State.wordFault (s : State) (_n : Nat) (t : Touch) : Option (Nat × Nat × Word) :=
  if t.spans.any (fun p => s.pinned .slot p.1 p.2) then some (0x22, ((t.spans.head?).map (fun p => p.1 / 64 * 64)).getD 0, 0)
  else match s.ask t (t.spans.flatMap (fun p => physParts p.1 p.2)) with
    | .fault cause _ a o => if cause = 0x22 ∨ cause = 0x25 then some (cause, a, o) else none
    | _ => none

/-- A store of the completion word, a synchronising store at the scope of the command (R288): one that is refused for good is not made and is
reported (R239, R347, R385). `none` where a held line refuses it for now (R245). -/
def State.storeDone (s : State) (c n : Nat) (x : WordStore) : Option State :=
  let cw := ((s.core c).reg (0x308 + n)).toNat
  let t : Touch := { agent := x.agent, write := true, sync := true, spans := [(cw, 8)] }
  let lost (s : State) (cause a : Nat) (o : Word) : State :=
    (s.report c { cause := cause, src := 1, chain := n, val := BitVec.ofNat 64 a, other := o }).calm x.agent
  if cw = 0 then some s
  else match s.wordFault n t with
    | some (cause, a, o) => some (lost s cause a o)
    | none =>
      match s.ask t (physParts cw 8) with
      | .refused l o => if x.since + 2 ^ 20 ≤ s.gtc then some (lost s 0x23 (64 * l) (s.agentWord o)) else none
      | _ =>
        let s := (s.record t).hold t (if isDram cw then some x.scope else none)
        some ((s.addRelease cw 8 x.agent x.scope x.clock).writePhys 0 cw (leBytes 8 x.value))

/-- The store of a completion word, or its place behind those that wait (R245). -/
def State.putDone (s : State) (c n : Nat) (x : WordStore) : State :=
  let wait : State := s.modChain c n (fun ch => { ch with stores := ch.stores ++ [x] })
  if ((s.core c).chain n).stores.isEmpty then (s.storeDone c n x).getD wait else wait

/-- A store of a completion word that waits is tried again (R245); `none` where nothing changes. -/
def State.storeTurn (s : State) (c n : Nat) : Option State :=
  match ((s.core c).chain n).stores with
  | x :: _ => (s.modChain c n (fun ch => { ch with stores := ch.stores.tail })).storeDone c n x
  | [] => none

/-- CHDONE rises to what has retired, as the release of R288, stored at the completion word where there is one. -/
def State.raiseDone (s : State) (c n : Nat) : State :=
  let k := s.core c
  let d := newDone k n
  if d ≤ k.chdone n then s
  else
    let ch := k.chain n
    let gone := ch.cmds.filter (fun e => decide (e.seq ≤ d))
    let a := Agent.cmd c n d
    let sc := ((gone.getLast?).map Enq.scope).getD .core
    let cover := gone.foldl (fun k e => k.join (s.clockOf (.cmd c n e.seq))) {}
    let (s, clk) := (s.acquire a cover sc).release a sc
    let s := s.modCore c (fun k => k.setReg (0x310 + n) (BitVec.ofNat 64 d))
    let s := s.modChain c n (fun ch => { ch with
      cmds := ch.cmds.filter (fun e => decide (d < e.seq))
      rel := ch.rel ++ gone.map (fun e => { seq := e.seq, scope := e.scope, by_ := d, byScope := sc, clock := clk }) })
    s.putDone c n { value := d, agent := a, scope := sc, clock := clk, since := s.gtc }

/-- EXEC of a retiring command: the core that executed its last-started product, where that is another one (R282, R343). -/
def State.putExec (s : State) (c n q : Nat) : State :=
  match ((s.core c).chain n).run with
  | some r => if r.seq = q ∧ r.exec ≠ c then s.slotWrite c n q 0x1E (leBytes 2 r.exec) else s
  | none => s

/-- A command retires with a status: STATUS, CHDONE, the pulse, the in-flight counters (R288, R290, R326, R343). -/
def State.retire (s : State) (c n q st : Nat) : State :=
  let s := (s.putExec c n q).slotWrite c n q 0x1A (leBytes 1 st)
  let e? := ((s.core c).chain n).enq q
  let s := s.modEnq c n q (fun e => { e with status := st })
  let s := s.modChain c n (fun ch => { ch with
    run := (match ch.run with | some r => if r.seq = q then none else some r | none => none)
    cancelled := if st = 3 then ch.cancelled ++ [q] else ch.cancelled })
  let (s, clk) := s.release (.cmd c n q) .core
  let s := s.modCore c (fun k => { k with pulses := k.pulses ++ [(n + 1, chainPath n, clk)] })
  let s := match e? with
    | some e =>
      let s := s.lowerFlight c e.pages
      let s := s.modLaunch e.launch (fun l => { l with endClock := l.endClock.join clk })
      if n = 0 ∧ e.promise < s.gtc then
        s.modCore c (fun k => k.setReg 0x361 (BitVec.ofNat 64 (((k.reg 0x361).toNat + 1) % 2 ^ 32)))
      else s
    | none => s
  s.raiseDone c n

/-! The parameter stack and the words that act on values alone (R304 to R310) -/

/-- Push a value (R286). -/
def Cmd.push (q : Cmd) (v : Word) : Except WErr Cmd :=
  if 8 ≤ q.stack.length then .error (.fault 0x35 0 0 0) else .ok { q with stack := v :: q.stack }

/-- Pop one value (R286). -/
def Cmd.pop (q : Cmd) : Except WErr (Word × Cmd) :=
  match q.stack with
  | v :: st => .ok (v, { q with stack := st })
  | [] => .error (.fault 0x35 0 0 0)

/-- Pop two values: the deeper one first. -/
def Cmd.pop2 (q : Cmd) : Except WErr (Word × Word × Cmd) := do
  let (b, q) ← q.pop
  let (a, q) ← q.pop
  pure (a, b, q)

/-- Pop three values: the deepest first. -/
def Cmd.pop3 (q : Cmd) : Except WErr (Word × Word × Word × Cmd) := do
  let (c, q) ← q.pop
  let (a, b, q) ← q.pop2
  pure (a, b, c, q)

/-- Pop four values: the deepest first. -/
def Cmd.pop4 (q : Cmd) : Except WErr (Word × Word × Word × Word × Cmd) := do
  let (d, q) ← q.pop
  let (a, b, c, q) ← q.pop3
  pure (a, b, c, d, q)

/-- LIT. -/
def opLit (k : BitVec 15) (q : Cmd) : Except WErr Cmd := q.push (k.setWidth 64)
/-- EXT. -/
def opExt (k : BitVec 14) (q : Cmd) : Except WErr Cmd := do
  let (a, q) ← q.pop
  q.push (a <<< 14 ||| k.setWidth 64)
/-- DUP. -/
def opDup (q : Cmd) : Except WErr Cmd := do
  let (a, q) ← q.pop
  let q ← q.push a
  q.push a
/-- DROP. -/
def opDrop (q : Cmd) : Except WErr Cmd := do
  let (_, q) ← q.pop
  pure q
/-- SWAP. -/
def opSwap (q : Cmd) : Except WErr Cmd := do
  let (a, b, q) ← q.pop2
  let q ← q.push b
  q.push a
/-- OVER. -/
def opOver (q : Cmd) : Except WErr Cmd := do
  let (a, b, q) ← q.pop2
  let q ← q.push a
  let q ← q.push b
  q.push a
/-- ADD. -/
def opAdd (q : Cmd) : Except WErr Cmd := do
  let (a, b, q) ← q.pop2
  q.push (a + b)
/-- SUB. -/
def opSub (q : Cmd) : Except WErr Cmd := do
  let (a, b, q) ← q.pop2
  q.push (a - b)
/-- SHL. -/
def opShl (q : Cmd) : Except WErr Cmd := do
  let (a, b, q) ← q.pop2
  q.push (a <<< (b.toNat % 64))
/-- ELEM: codes 0x0 to 0x8 and 0xA (R308). -/
def opElem (q : Cmd) : Except WErr Cmd := do
  let (t, q) ← q.pop
  match etyOf t.toNat with
  | some ty => if ty = .e2m1 then throw (.eng 3 0) else pure { q with elem := ty }
  | none => throw (.eng 3 0)
/-- SWZ (R308). -/
def opSwz (q : Cmd) : Except WErr Cmd := do
  let (m, q) ← q.pop
  if 7 < m.toNat then throw (.eng 3 0) else pure { q with swz := BitVec.ofNat 3 m.toNat }
/-- DIM 1 (R308). -/
def opDim1 (q : Cmd) : Except WErr Cmd := do
  let (n, ss, ds, q) ← q.pop3
  if n.toNat = 0 ∨ 2 ^ 20 < n.toNat then throw (.eng 3 0) else pure { q with cnt1 := n.toNat, ss1 := ss, ds1 := ds }
/-- DIM 2 (R308). -/
def opDim2 (q : Cmd) : Except WErr Cmd := do
  let (n, ss, ds, q) ← q.pop3
  if n.toNat = 0 ∨ 2 ^ 20 < n.toNat then throw (.eng 3 0) else pure { q with cnt2 := n.toNat, ss2 := ss, ds2 := ds }
/-- PRIO (R309). -/
def opPrio (q : Cmd) : Except WErr Cmd := do
  let (p, q) ← q.pop
  if 8 < p.toNat then throw (.eng 3 0) else pure { q with pri := if p.toNat = 8 then none else some p.toNat }
/-- STAMP (R310). -/
def opStamp (q : Cmd) : Except WErr Cmd := do
  let (t, q) ← q.pop
  pure { q with stamp := some t.toNat }

/-- Bytes of an element of ELEM (R308). -/
def Cmd.size (q : Cmd) : Nat := etyBits q.elem / 8

/-- The limits of a length (R313). -/
def lenOk (n : Word) : Bool := decide (1 ≤ n.toNat ∧ n.toNat ≤ 2 ^ 24)

/-- The limits of op of `cred.l` and `cred.p` (R319). -/
def credOk (op : Word) : Bool :=
  let v := op.toNat
  decide (v < 2 ^ 27) && (match ropOf (v % 16), styOf (v / 16 % 8) with
    | some r, some t => ropAccepts r t
    | _, _ => false) && decide (v / 2 ^ 24 % 8 ≤ 4) &&
    (if v / 128 % 2 = 0 then v / 2 ^ 16 % 256 == 0 else decide (v / 2 ^ 16 % 256 ≤ v / 2 ^ 8 % 256))

/-- op of TMMA: CT, AT, BT, OVW, KOFF (R318). -/
structure TmmaOp where
  ct : Nat
  at_ : Nat
  bt : Nat
  ovw : Bool
  koff : Nat
  deriving DecidableEq, Repr

/-- The fields of op, unless a reserved bit is set (R318). -/
def tmmaOp (op : Word) : Option TmmaOp :=
  let v := op.toNat
  if v < 2 ^ 28 ∧ v / 8 % 2 = 0 ∧ v / 128 % 2 = 0 ∧ v / 2 ^ 11 % 2 = 0 ∧ v / 2 ^ 13 % 8 = 0 then
    some { ct := v % 8, at_ := v / 16 % 8, bt := v / 256 % 8, ovw := v / 2 ^ 12 % 2 == 1, koff := v / 2 ^ 16 }
  else none

/-! Evaluation at ENQ (R324) -/

/-- What the evaluation finds: bytes moved, tiles named. -/
structure Eval where
  bytes : Nat := 0
  tiles : List Nat := []
  deriving DecidableEq, Repr

/-- Stop the evaluation unless a condition holds. -/
def limit (p : Bool) (x : Cmd × Eval) : Except WErr (Cmd × Eval) := if p then .ok x else .error (.eng 3 0)

/-- One word on values alone; `pa` is the value of an address run (R324, R325). -/
def evalWord (s : State) (e : Enq) (i : Instr) (pa : Word) (q : Cmd) (v : Eval) : Except WErr (Cmd × Eval) :=
  let pure' (r : Except WErr Cmd) : Except WErr (Cmd × Eval) := r.map (fun q => (q, v))
  let rows := q.cnt1 * q.cnt2
  let copy : Except WErr (Cmd × Eval) := do
    let (_, _, n, q) ← q.pop3
    limit (lenOk n) (q, { v with bytes := v.bytes + n.toNat * rows })
  let copyt : Except WErr (Cmd × Eval) := do
    let (t, a, p, q) ← q.pop3
    limit (s.cmdTile e t.toNat && a.toNat % 32 == 0 && p.toNat % 32 == 0)
      (q, { v with bytes := v.bytes + 69632, tiles := v.tiles ++ [t.toNat] })
  let copyx : Except WErr (Cmd × Eval) := do
    let (_, g, _, n, q) ← q.pop4
    limit (decide (1 ≤ n.toNat ∧ n.toNat ≤ 65536) && g.toNat % q.size == 0) (q, { v with bytes := v.bytes + n.toNat * q.size })
  let fill (g : Bool) : Except WErr (Cmd × Eval) := do
    let (d, n, _, q) ← q.pop3
    limit (n.toNat % q.size == 0 && decide (q.size ≤ n.toNat ∧ n.toNat ≤ 2 ^ 24) && (!g || d.toNat % q.size == 0))
      (q, { v with bytes := v.bytes + n.toNat * rows })
  match i with
  | .ewLit k => pure' (opLit k q)
  | .ewExt k => pure' (opExt k q)
  | .ewDup => pure' (opDup q)
  | .ewDrop => pure' (opDrop q)
  | .ewSwap => pure' (opSwap q)
  | .ewOver => pure' (opOver q)
  | .ewAdd => pure' (opAdd q)
  | .ewSub => pure' (opSub q)
  | .ewShl => pure' (opShl q)
  | .ewElem => pure' (opElem q)
  | .ewSwz => pure' (opSwz q)
  | .ewDim1 => pure' (opDim1 q)
  | .ewDim2 => pure' (opDim2 q)
  | .ewPrio => pure' (opPrio q)
  | .ewStamp => pure' (opStamp q)
  | .ewGate => .ok (q, v)
  | .ewSeqat => do
    let (a, q) ← q.pop
    limit (a.toNat % 8 == 0) (q, v)
  | .ewAddr => pure' (q.push pa)
  | .ewCopyGs => copy
  | .ewCopySg => copy
  | .ewCopyGg => copy
  | .ewCopySs => copy
  | .ewCopytLd => copyt
  | .ewCopytSt => copyt
  | .ewCopyxG => copyx
  | .ewCopyxS => copyx
  | .ewFillG => fill true
  | .ewFillS => fill false
  | .ewTmma => do
    let (op, q) ← q.pop
    match tmmaOp op with
    | some o =>
      let v := { v with tiles := v.tiles ++ [o.ct, o.at_, o.bt].eraseDups }
      limit (s.cmdTile e o.ct && s.cmdTile e o.at_ && s.cmdTile e o.bt && o.ct != o.at_ && o.ct != o.bt) (q, v)
    | none => throw (.eng 3 0)
  | .ewCredL => do
    let (d, _, n, op, q) ← q.pop4
    limit (credOk op && d.toNat % 64 == 0 && n.toNat % 64 == 0 && decide (64 ≤ n.toNat ∧ n.toNat ≤ 2 ^ 24))
      (q, { v with bytes := v.bytes + n.toNat })
  | .ewCredP => do
    let (d, _, op, q) ← q.pop3
    limit (credOk op && d.toNat % 64 == 0) (q, v)
  | .ewNote => do
    let (_, pa, _, q) ← q.pop3
    limit (pa.toNat % 64 == 0) (q, v)
  | .ewPullS => do
    let (_, _, q) ← q.pop2
    pure (q, v)
  | .ewPullG => do
    let (_, d, q) ← q.pop2
    limit (d.toNat % 64 == 0) (q, v)
  | .ewDecl => do
    let (_, q) ← q.pop
    pure (q, v)
  | _ => .error .hold

/-- The evaluation of a command (R324). -/
def evalWords (s : State) (e : Enq) : List Nat → Nat → Cmd → Eval → Eval
  | [], _, _, v => v
  | _ :: rest, skip + 1, q, v => evalWords s e rest skip q v
  | w :: rest, 0, q, v =>
    let pa := match rest with
      | a :: b :: c :: d :: _ => runValue a b c d
      | _ => 0
    match decodeEngine w with
    | none => v
    | some i =>
      match evalWord s e i (BitVec.ofNat 64 pa) q v with
      | .ok (q, v) => evalWords s e rest (if w = 0xE001 then 5 else 0) q v
      | .error _ => v

/-! ENQ (R295) -/

/-- Chain index of a selector (R275). -/
def selChain : Sel → Nat
  | .copy => 0 | .mtx => 1 | .mq1 => 2 | .gath => 3 | .coll => 4

/-- The rights that ENQ needs (R157). -/
def enqRights : Sel → Rights
  | .copy => .all | .mtx => .comp | .mq1 => .comp | .gath => .load | .coll => .stor

/-- The words up to the first END (R295). -/
def untilEnd : List Nat → Option (List Nat)
  | [] => none
  | w :: ws => if w = 0xE000 then some [w] else (untilEnd ws).map (w :: ·)

/-- Index of the first word that is not assigned on a chain, or an ADDR without its run (R295). -/
def illegalWord (n : Nat) : List Nat → Nat → Nat → Option Nat
  | [], _, _ => none
  | _ :: rest, skip + 1, i => illegalWord n rest skip (i + 1)
  | w :: rest, 0, i =>
    match decodeEngine w with
    | none => some i
    | some x =>
      if !(wordChains x).contains n then some i
      else if w = 0xE001 then (if fullRun rest then illegalWord n rest 5 (i + 1) else some i)
      else illegalWord n rest 0 (i + 1)

/-- Check one address run of ENQ: pages, then decoded apertures and pinned blocks (R295). -/
def State.checkRun (s : State) (c : Nat) (r : Role) (run : Nat × Nat × Bool) : Except AFault (State × List Part) := do
  let va := sxN 56 (run.1 % 2 ^ 56)
  let parts := pageParts va run.2.1
  let (s, ps) ← s.xlatParts c (s.aspaceOf c r) (if run.2.2 then .write else .read) parts
  let bad (f : Part → Bool) : Option Nat := ((parts.zip ps).find? (fun p => f p.2)).map (fun p => p.1.1.toNat)
  if run.2.2 then
    match bad (fun p => match region p.pa with | .decoded _ _ => true | _ => false) with
    | some a => throw { cause := 0x24, val := some a }
    | none =>
      match bad (fun p => s.pinned .trio p.pa p.len) with
      | some a => throw { cause := 0x26, val := some a }
      | none => pure (s, ps)
  else pure (s, ps)

/-- Check the runs in order; the physical address of each run's first byte, and all pages (R295). -/
def State.checkRuns (s : State) (c : Nat) (r : Role) : List (Nat × Nat × Bool) → Except AFault (State × List Nat × List Leaf)
  | [] => .ok (s, [], [])
  | run :: rest => do
    let (s, ps) ← s.checkRun c r run
    let (s, pas, ls) ← State.checkRuns s c r rest
    pure (s, ((ps.head?).map (·.pa)).getD 0 :: pas, ps.map (·.leaf) ++ ls)

/-- PROMISE of a new copy command (R325). -/
def State.promiseFor (s : State) (c : Nat) (words : List Nat) (bytes : Nat) : Nat :=
  let k := s.core c
  let prev := match (k.chain 0).enq (k.tail 0) with
    | some e => if e.live then e.promise else 0
    | none => 0
  let m := k.reg 0x360
  if prev = 2 ^ 64 - 1 ∨ words.contains 0xC032 then 2 ^ 64 - 1
  else Nat.min (Nat.max s.gtc prev + fld m 47 16 + (bytes + fld m 9 0 - 1) / fld m 9 0) (2 ^ 64 - 1)

/-- The bytes of a new slot (R282). -/
def slotBytes (q promise : Nat) (sc : Scope) (origin : Nat) (words : List Nat) : List Byte :=
  leBytes 8 q ++ leBytes 8 0 ++ leBytes 8 promise ++ leBytes 2 words.length ++ leBytes 1 0 ++ leBytes 1 (scopeNum sc) ++
    leBytes 2 origin ++ leBytes 2 0 ++ leBytes 96 0 ++ leBytes 512 (packLanes 16 words) ++ leBytes 384 0

/-- Link a checked command: number, evaluation, slot, counters, chain (R283, R295, R324, R325). -/
def State.linkCmd (s : State) (c : Nat) (r : Role) (n : Nat) (sc : Scope) (words : List Nat) (vas pas : List Nat)
    (pages : List Leaf) (clk : Clock) : State × Nat :=
  let k := s.core c
  let q := k.tail n + 1
  let linked := relink words pas []
  let e : Enq :=
    { seq := q, scope := sc, age := s.gtc, role := r, launch := k.launch, pages := pages, vas := vas, tiles := [],
      promise := 0, clock := clk, status := 0 }
  let v := evalWords s e linked 0 { seq := q } {}
  let e := { e with tiles := v.tiles, promise := if n = 0 then s.promiseFor c words v.bytes else 0 }
  let s := s.modCore c (fun k => k.setReg (0x318 + n) (BitVec.ofNat 64 q))
  let s := s.modChain c n (fun ch => { ch with
    cmds := ch.cmds ++ [e]
    promised := if n = 0 then (ch.promised ++ [(q, e.promise)]).drop (ch.promised.length - 63) else ch.promised })
  let s := s.slotWrite c n q 0 (slotBytes q e.promise sc c linked)
  let s := if q = 1 ∨ k.slots n = 1 then s else s.slotWrite c n (q - 1) 8 (leBytes 8 (k.slot n q))
  (s.raiseFlight c pages, q)

/-- Since when the current context's ENQ waits for a slot of chain `n`. -/
def State.slotSince (s : State) (n : Nat) : Nat :=
  match (s.ctx s.cur.core s.cur.role).wait with
  | some (.slot m t) => if m = n then t else s.gtc
  | _ => s.gtc

/-- An ENQ of another context of the core waits for a slot of chain `n` since an earlier cycle, or since the same one and stands
before this one in the order L, C, S, F: it takes the next number (R283). -/
def State.slotAhead (s : State) (n : Nat) : Bool :=
  [Role.L, .C, .S, .F].any (fun q =>
    let x := s.ctx s.cur.core q
    q != s.cur.role && x.run == .sleeping && (match x.wait with
      | some (.slot m t) => m == n && decide (t < s.slotSince n ∨ (t = s.slotSince n ∧ roleNum q < roleNum s.cur.role))
      | _ => false))

/-- The next command of chain `n` knows what its ENQ released, and the command whose slot it takes (R282, R287). -/
def State.slotKnown (s : State) (c n : Nat) (clk : Clock) : State :=
  let q := (s.core c).tail n + 1
  s.acquire (.cmd c n q) (clk.join (s.clockOf (.cmd c n (q - (s.core c).slots n)))) .core

/-- What refuses the slot writes that link the next command: those of its own slot, and NEXT of the one before it (R282, R295). -/
def State.linkFault (s : State) (c n : Nat) : Option (Nat × Nat × Word) :=
  let k := s.core c
  let q := k.tail n + 1
  (s.slotFault c n q true 0 1024).orElse (fun _ => if q = 1 ∨ k.slots n = 1 then none else s.slotFault c n (q - 1) true 8 8)

/-- ENQ (R295), a release at core scope (R232, R254). A slot write that is refused as the command is linked stops the ENQ, precisely, with 0x22 or 0x25:
no command stands yet that could fault (DESIGN CHOICE, log 105). -/
def execEnq (h : Hdr) (sc : Scope) (d a : GReg) (sel : Sel) (s : State) : Out :=
  issue h (enqRights sel) [s.gT a] [s.gT d] (fun s =>
    let c := s.cur.core
    let r := s.cur.role
    let n := selChain sel
    let e := s.g a
    if e.toNat % 8 ≠ 0 then .trap 0x06 0 e 0
    else
      let (lo, hi) := s.spRange c r
      let top := Nat.min hi 0x300000
      let room := if e.toNat < lo then 0 else Nat.min 256 ((top - e.toNat) / 2)
      let all := lanesOf 16 room (leNat (s.raw (spAddr c e.toNat) (2 * room)))
      match untilEnd all with
      | none => .trap 0x05 0 e 0
      | some words =>
        s.spLoad [(e.toNat, 2 * words.length)] (fun s _ =>
          match illegalWord n words 0 0 with
          | some i => .trap 0x34 0 (e + BitVec.ofNat 64 (2 * i)) 0
          | none =>
            if (s.core c).pool n = 0 then .trap 0x30 4 0 0
            else
              let runs := scanRuns words 0
              match s.checkRuns c r runs with
              | .error f => Res.of f 0
              | .ok (s, pas, pages) =>
                let k := s.core c
                let q := k.tail n + 1
                if (k.slots n < q && (k.chain n).cmds.any (fun x => x.seq == q - k.slots n && x.live)) || s.slotAhead n then
                  .sleep s (.slot n (s.slotSince n))
                else s.settled (
                  let (s, clk) := s.release s.me .core
                  let s := s.slotKnown c n clk
                  match s.linkFault c n with
                  | some (cause, x, o) => .trap cause 0 (BitVec.ofNat 64 x) o
                  | none =>
                  let vas := runs.map (fun x => (sxN 56 (x.1 % 2 ^ 56)).toNat)
                  let (s, q) := s.linkCmd c r n sc words vas pas pages.eraseDups clk
                  .done (s.putG d (BitVec.ofNat 64 q) none)))) s

/-- ESEQ (R296). -/
def execEseq (h : Hdr) (d : GReg) (sel : Sel) (s : State) : Out :=
  issue h .all [] [s.gT d] (fun s => .done (s.putG d ((s.core s.cur.core).reg (0x310 + selChain sel)) none)) s

/-- WAITSEQ (R297). -/
def execWaitseq (h : Hdr) (d a : GReg) (sel : Sel) (s : State) : Out :=
  issue h .all [s.gT a] [s.gT d] (fun s =>
    let c := s.cur.core
    let k := s.core c
    let n := selChain sel
    let q := (s.g a).toNat
    if q = 0 ∨ k.tail n < q then .trap 0x02 0 0 0
    else if k.chdone n < q then .sleep s (.waitseq n q)
    else
      let ch := k.chain n
      let s := match ch.rel.find? (fun x => x.seq == q) with
        | some x => if pairs (.cmd c n x.by_) x.byScope s.me x.scope then s.acquire s.me x.clock x.scope else s
        | none => s
      .done (s.putG d (if ch.cancelled.contains q then 1 else 0) none)) s

/-- PROM answers the promise of a copy command, also where a later one has taken its slot (R298). -/
def execProm (h : Hdr) (d a : GReg) (s : State) : Out :=
  issue h .all [s.gT a] [s.gT d] (fun s =>
    let k := s.core s.cur.core
    let q := (s.g a).toNat
    let t := k.tail 0
    if q = 0 ∨ t < q ∨ q + 64 ≤ t then .trap 0x02 0 0 0
    else .done (s.putG d (BitVec.ofNat 64 ((((k.chain 0).promised.find? (fun p => p.1 == q)).map (·.2)).getD 0)) none)) s

/-- ECANCEL (R299). -/
def execEcancel (h : Hdr) (d a : GReg) (sel : Sel) (s : State) : Out :=
  issue h .all [s.gT a] [s.gT d] (fun s =>
    let c := s.cur.core
    let k := s.core c
    let n := selChain sel
    let q := (s.g a).toNat
    if q = 0 ∨ k.tail n < q then .trap 0x02 0 0 0
    else match (k.chain n).enq q with
      | some e => if e.status = 0 then .done ((s.retire c n q 3).putG d 1 none) else .done (s.putG d 0 none)
      | none => .done (s.putG d 0 none)) s

/-! Starting and retiring commands -/

/-- The command that a chain would start: its oldest live one, if the chain runs none and is not stopped (R287, R289). -/
def Chain.ready (ch : Chain) : Option Enq :=
  if ch.fault || ch.run.isSome then none
  else match ch.cmds.find? Enq.live with
    | some e => if e.status = 0 then some e else none
    | none => none

/-- The collective engine of a die takes the oldest command first, then the lower core (R275). -/
def State.collTurn (s : State) (c : Nat) (e : Enq) : Bool :=
  !(s.cores.any (fun p => dieOf p.1 == dieOf c && (match (p.2.chain 4).ready with
    | some f => decide (f.age < e.age ∨ (f.age = e.age ∧ p.1 < c))
    | none => false)))

/-- Whether chain `n` of core `c` may start its next command; a collective engine starts one a cycle (R275). -/
def State.canStart (s : State) (c n : Nat) : Option Enq :=
  match ((s.core c).chain n).ready with
  | some e => if n = 4 ∧ (s.gtc < (s.die (dieOf c)).collAt ∨ ¬ s.collTurn c e) then none else some e
  | none => none

/-- The first of some slot accesses that is refused. -/
def State.slotFaults (s : State) (c n q : Nat) (spans : List (Bool × Nat × Nat)) : Option (Nat × Nat × Word) :=
  spans.findSome? (fun x => s.slotFault c n q x.1 x.2.1 x.2.2)

/-- COMMAND_START (R287, R308): the command begins after its ENQ and after the command before it; it reads its words and writes STATUS and
EXEC of its slot (R282). -/
def execCommandStart (s : State) : Out :=
  let c := s.cur.core
  let n := s.cur.chain
  match s.canStart c n with
  | none => .next s
  | some e =>
    let a := Agent.cmd c n e.seq
    let s := if n = 4 then s.modDie (dieOf c) (fun d => { d with collAt := s.gtc + 1 }) else s
    let s := s.acquire a (e.clock.join (s.clockOf (.cmd c n (e.seq - 1)))) .core
    let s := s.modEnq c n e.seq (fun e => { e with status := 1 })
    let s := s.modChain c n (fun ch => { ch with run := some { seq := e.seq, exec := c, next := s.gtc } })
    match s.slotFaults c n e.seq [(false, 0x80, 512), (true, 0x1A, 1), (true, 0x1E, 2)] with
    | some (cause, x, o) => .next (s.cmdFault c n cause 0 x o)
    | none => .next (((s.slotRead c n e.seq 0x80 512).slotWrite c n e.seq 0x1A (leBytes 1 1)).slotWrite c n e.seq 0x1E (leBytes 2 c))

/-- Whether the running command of a chain has completed: END and every operation (R287). -/
def State.cmdOver (s : State) (c n : Nat) : Option Cmd :=
  let k := s.core c
  match (k.chain n).run with
  | some q => if q.done && !(k.chain n).fault && !(k.mx.any (fun p => p.chain == n && p.seq == q.seq)) then some q else none
  | none => none

/-- COMMAND_RETIRE (R287, R288, R312): the SEQAT store, EXEC, then the three acts of R288. -/
def execCommandRetire (s : State) : Out :=
  let c := s.cur.core
  let n := s.cur.chain
  match s.cmdOver c n with
  | none => .next s
  | some q =>
    let ch := (s.core c).chain n
    let a := Agent.cmd c n q.seq
    let stored : Except WErr State := match q.seqa, ch.enq q.seq with
      | some x, some e => do
        let ps ← resolve (runsOf (s.slotWords c n q.seq) e.vas) e.pages true x 8
        let s ← s.engWrite c a e.scope true ps (leBytes 8 q.seq)
        let (s, k) := s.release a e.scope
        pure (ps.foldl (fun s p => s.addRelease p.pa p.len a e.scope k) s)
      | _, _ => .ok s
    match stored with
    | .ok s =>
      let exec : List (Bool × Nat × Nat) := if q.exec = c then [] else [(true, 0x1E, 2)]
      match s.slotFaults c n q.seq ((true, 0x1A, 1) :: exec) with
      | some (cause, x, o) => .next (s.cmdFault c n cause 0 x o)
      | none => .next (s.retire c n q.seq 2)
    | .error (.fault cause sub addr other) => .next (s.cmdFault c n cause sub addr other)
    | .error (.retry t l other) =>
      let since := q.refused.getD s.gtc
      if since + 2 ^ 20 ≤ s.gtc then .next (s.cmdFault c n 0x23 0 (64 * l) other)
      else .next ((s.refuse t l since).modCmd c n (fun q => { q with refused := some since, next := s.gtc + 1 }))
    | .error .hold => .next s

/-- Whether a context waits in WAITSEQ for a number that CHDONE has reached. -/
def State.seqReached (s : State) (c : Nat) (r : Role) : Bool :=
  match (s.ctx c r).run, (s.ctx c r).wait with
  | .sleeping, some (.waitseq n q) => decide (q ≤ (s.core c).chdone n)
  | _, _ => false

/-- WAITSEQ_COMPLETE (R297): the instruction issues again and completes. -/
def execWaitseqComplete (s : State) : Out :=
  if s.seqReached s.cur.core s.cur.role then .next (s.wake s.cur.core s.cur.role) else .next s

/-- Whether a waiting ENQ may look at its slot again. -/
def State.slotFreed (s : State) (c : Nat) (r : Role) : Bool :=
  match (s.ctx c r).run, (s.ctx c r).wait with
  | .sleeping, some (.slot _ _) => true
  | _, _ => false

/-- ENQ_SLOT_FREE (R295): a waiting ENQ issues again; it links its command if its slot is free. -/
def execEnqSlotFree (s : State) : Out :=
  if s.slotFreed s.cur.core s.cur.role then .next (s.wake s.cur.core s.cur.role) else .next s

/-! The event crossbar (R291 to R293) -/

/-- COUNT, THRESH and SRC of an event counter (R279). -/
def ecCount (w : Word) : Nat := fld w 23 0
/-- THRESH. -/
def ecThresh (w : Word) : Nat := fld w 47 24
/-- A counter is reached (R279). -/
def ecReached (w : Word) : Bool := ecThresh w != 0 && decide (ecThresh w ≤ ecCount w)
/-- A counter with another COUNT. -/
def ecWith (w : Word) (n : Nat) : Word := BitVec.ofNat 64 (w.toNat / 2 ^ 24 * 2 ^ 24 + Nat.min n (2 ^ 24 - 1))

/-- The counters that a mask names. -/
def maskBits (m : Nat) : List Nat := (List.range 16).filter (Nat.testBit m)

/-- A product is true (R280). -/
def Core.productTrue (k : Core) (m : Nat) : Bool := m != 0 && (maskBits m).all (fun i => ecReached (k.reg (0x320 + i)))

/-- Counters add the pulses of their sources (R291 step 1). -/
def Core.addPulses (k : Core) : Core :=
  if k.pulses.isEmpty then k
  else (List.range 16).foldl (fun k i =>
    let w := k.reg (0x320 + i)
    let n := (k.pulses.filter (fun p => p.1 == fld w 63 60 && p.1 != 0)).length
    if n = 0 then k else k.setReg (0x320 + i) (ecWith w (ecCount w + n))) k

/-- The pulses that stand behind the counters of a product: path and joined clock (R293). -/
def Core.pulseClock (k : Core) (m : Nat) : List (Path × Clock) :=
  (maskBits m).flatMap (fun i =>
    let src := fld (k.reg (0x320 + i)) 63 60
    if 1 ≤ src ∧ src ≤ 6 then (k.marks.filter (fun p => p.1 == src)).map (fun p => p.2) else [])

/-- One term is evaluated and may fire (R291 steps 2 and 3, R292). -/
def fireTerm (c : Nat) (s : State) (i : Nat) : State :=
  let k := s.core c
  let w := k.reg (0x330 + i)
  let tgt := fld w 63 60
  let m := if k.productTrue (fld w 15 0) then some (fld w 15 0)
    else if k.productTrue (fld w 31 16) then some (fld w 31 16) else none
  match m with
  | none => s
  | some m =>
    if tgt = 0 ∨ 6 < tgt then s
    else
      let clocks := k.pulseClock m
      let s := s.modCore c (fun k => (maskBits m).foldl (fun k j =>
        let e := k.reg (0x320 + j)
        k.setReg (0x320 + j) (ecWith e (ecCount e - ecThresh e))) k)
      if tgt = 1 then s.setEvent c
      else
        let n := tgt - 2
        s.modCore c (fun k =>
          let ch := k.chain n
          if ch.credits.length < 255 then
            -- a GATE word can consume the credit from the next cycle (R291, R293)
            let run := ch.run.map (fun q => { q with next := Nat.max q.next (s.gtc + 1) })
            { k with chains := SMap.set {} k.chains n { ch with credits := ch.credits ++ [clocks], run := run } }
          else k)

/-- Whether the crossbar has anything to do: pulses, a write that is due, or a true product of an enabled term. -/
def Core.crossbarDue (k : Core) (gtc : Nat) : Bool :=
  decide (k.xAt ≤ gtc) && (!k.pulses.isEmpty || k.xwrites.any (fun w => decide (w.2.2 < gtc)) ||
    (List.range 8).any (fun i =>
      let w := k.reg (0x330 + i)
      fld w 63 60 != 0 && (k.productTrue (fld w 15 0) || k.productTrue (fld w 31 16))))

/-- Sources 1 to 6 leave a mark of their newest clocks for later firings (R293). -/
def Core.keepMarks (k : Core) : Core :=
  { k with marks := k.pulses.foldl (fun m p =>
      if 1 ≤ p.1 ∧ p.1 ≤ 6 then
        (match m.find? (fun x => x.1 == p.1 && x.2.1 == p.2.1) with
          | some x => m.map (fun y => if y == x then (y.1, y.2.1, y.2.2.join p.2.2) else y)
          | none => m ++ [p])
      else m) k.marks }

/-- CROSSBAR_CYCLE of the current core (R291): pulses, terms, then the writes of earlier cycles. -/
def execCrossbarCycle (s : State) : Out :=
  let c := s.cur.core
  if !(s.core c).crossbarDue s.gtc then .next s
  else
    let s := s.modCore c (fun k => { (k.keepMarks).addPulses with pulses := [], xAt := s.gtc + 1 })
    let s := (List.range 8).foldl (fireTerm c) s
    .next (s.modCore c (fun k =>
      let k := (k.xwrites.filter (fun w => decide (w.2.2 < s.gtc))).foldl (fun k w => k.setReg w.1 w.2.1) k
      { k with xwrites := k.xwrites.filter (fun w => !decide (w.2.2 < s.gtc)) }))

end Sys2Proof.Machine
end

