-- ==== Sys2Proof/Machine/Words.lean ====
section
/-! DEFINITION. The engine words (spec 15 R302 to R323), but for TMMA, whose product is Matrix.lean's, and NOTE, PULL and
DECL, whose notices are Notices.lean's. -/
namespace Sys2Proof.Machine

/-- What a word gives: the state, the command after it, and the words that it takes; or a wait with its command. -/
inductive WRes where
  | step (s : State) (q : Cmd) (len : Nat)
  | wait (s : State) (q : Cmd)
  | fail (e : WErr)

/-- The word as an exception-carrying computation. -/
def WRes.of (r : Except WErr (State × Cmd)) : WRes :=
  match r with
  | .ok (s, q) => .step s q 1
  | .error e => .fail e

/-- Execution of a word by the running command of the current chain (R286, R287, R289, R245). A word that fails makes no
access and leaves the stack as it was. -/
def engineWord (body : State → Cmd → Enq → WRes) (s : State) : Out :=
  let c := s.cur.core
  let n := s.cur.chain
  let ch := (s.core c).chain n
  match ch.run with
  | none => .next s
  | some q =>
    match ch.enq q.seq with
    | none => .next s
    | some e =>
      if ch.fault || q.done then .next s
      else
        let put (s : State) (q : Cmd) : State := s.modChain c n (fun ch => { ch with run := some { q with next := s.gtc + 1 } })
        match body s q e with
        | .step s q len => .next (put s { q with upc := q.upc + len, refused := none, held := none })
        | .wait s q => .next (put s { q with held := none })
        | .fail .hold => .next (put s { q with held := some (q.held.getD s.gtc) })
        | .fail (.fault cause sub addr other) => .next (s.cmdFault c n cause sub addr other)
        | .fail (.retry t l other) =>
          let since := q.refused.getD s.gtc
          if since + 2 ^ 20 ≤ s.gtc then .next (s.cmdFault c n 0x23 0 (64 * l) other)
          else .next (put (s.refuse t l since) { q with refused := some since })

/-- A word that acts on the command's own state alone (R304, R308). -/
def pureWord (f : Cmd → Except WErr Cmd) (s : State) : Out :=
  engineWord (fun s q _ => WRes.of ((f q).map (fun q => (s, q)))) s

/-- LIT. -/
def execEwLit (k : BitVec 15) (s : State) : Out := pureWord (opLit k) s
/-- EXT. -/
def execEwExt (k : BitVec 14) (s : State) : Out := pureWord (opExt k) s
/-- DUP. -/
def execEwDup (s : State) : Out := pureWord opDup s
/-- DROP. -/
def execEwDrop (s : State) : Out := pureWord opDrop s
/-- SWAP. -/
def execEwSwap (s : State) : Out := pureWord opSwap s
/-- OVER. -/
def execEwOver (s : State) : Out := pureWord opOver s
/-- ADD. -/
def execEwAdd (s : State) : Out := pureWord opAdd s
/-- SUB. -/
def execEwSub (s : State) : Out := pureWord opSub s
/-- SHL. -/
def execEwShl (s : State) : Out := pureWord opShl s
/-- ELEM. -/
def execEwElem (s : State) : Out := pureWord opElem s
/-- SWZ. -/
def execEwSwz (s : State) : Out := pureWord opSwz s
/-- DIM 1. -/
def execEwDim1 (s : State) : Out := pureWord opDim1 s
/-- DIM 2. -/
def execEwDim2 (s : State) : Out := pureWord opDim2 s
/-- PRIO. -/
def execEwPrio (s : State) : Out := pureWord opPrio s
/-- STAMP. -/
def execEwStamp (s : State) : Out := pureWord opStamp s

/-- ADDR pushes the physical address in its run and takes six words (R305). -/
def execEwAddr (s : State) : Out :=
  engineWord (fun s q _ =>
    let w (i : Nat) : Nat := s.slotWord s.cur.core s.cur.chain q.seq (q.upc + i)
    match q.push (BitVec.ofNat 64 (runValue (w 1) (w 2) (w 3) (w 4))) with
    | .ok q => .step s q 6
    | .error e => .fail e) s

/-- Consume a gate credit, as an acquire of the pulses behind it that counts as an XFENCE (R293). -/
def State.takeCredit (s : State) (c n : Nat) (a : Agent) (credit : List (Path × Clock)) : State :=
  let s := s.modChain c n (fun ch => { ch with credits := ch.credits.drop 1 })
  credit.foldl (fun s p =>
    let s := s.acquire a p.2 .core
    if p.1 = a.path then s
    else
      let k := s.clockOf a
      let code := pairCode p.1 a.path
      s.setClock a { k with xc := SMap.set [] k.xc code (joinTimes (SMap.get [] k.xc code) p.2.vc) }) s

/-- GATE (R292, R311). -/
def execEwGate (s : State) : Out :=
  engineWord (fun s q _ =>
    let c := s.cur.core
    let n := s.cur.chain
    match ((s.core c).chain n).credits with
    | [] => .wait s q
    | k :: _ => .step (s.takeCredit c n (.cmd c n q.seq) k) q 1) s

/-- What a launch word knows of its command: agent, address runs, pages. -/
structure WCtx where
  c : Nat
  n : Nat
  agent : Agent
  runs : List AddrRun
  enq : Enq

/-- The context of a word. -/
def State.wctx (s : State) (q : Cmd) (e : Enq) : WCtx :=
  let c := s.cur.core
  let n := s.cur.chain
  { c := c, n := n, agent := .cmd c n q.seq, runs := runsOf (s.slotWords c n q.seq) e.vas, enq := e }

/-- A global operand (R305, R306). -/
def WCtx.glob (x : WCtx) (write : Bool) (a n : Nat) : Except WErr (List Part) := resolve x.runs x.enq.pages write a n

/-- A scratchpad operand (R306). -/
def WCtx.sp (x : WCtx) (s : State) (q : Cmd) (a n align : Nat) : Except WErr (List Part) := s.cmdSp x.c x.enq q.swz a n align

/-- SEQAT (R312). -/
def execEwSeqat (s : State) : Out :=
  engineWord (fun s q e => WRes.of do
    let x := s.wctx q e
    let (a, q') ← q.pop
    if a.toNat % 8 ≠ 0 then throw (.eng 3 0)
    let _ ← x.glob true a.toNat 8
    pure (s, { q' with seqa := some a.toNat })) s

/-! Copies and fills -/

/-- The offsets of the rows in order: (source, destination) (R313). -/
def Cmd.rowsOf (q : Cmd) : List (Word × Word) :=
  (List.range q.cnt2).flatMap (fun i2 => (List.range q.cnt1).map (fun i1 =>
    (BitVec.ofNat 64 i1 * q.ss1 + BitVec.ofNat 64 i2 * q.ss2, BitVec.ofNat 64 i1 * q.ds1 + BitVec.ofNat 64 i2 * q.ds2)))

/-- Resolve every row of a copy before any access (R306). -/
def resolveRows (f g : Nat → Except WErr (List Part)) (dst src : Word) :
    List (Word × Word) → Except WErr (List (List Part × List Part))
  | [] => .ok []
  | (so, d) :: rest => do
    let a ← f (src + so).toNat
    let b ← g (dst + d).toNat
    let l ← resolveRows f g dst src rest
    pure ((a, b) :: l)

/-- Make the rows of a copy in order: each is read whole, then written (R313). -/
def State.copyRows (s : State) (x : WCtx) : List (List Part × List Part) → Except WErr State
  | [] => .ok s
  | (a, b) :: rest => do
    let (s, bs) ← s.engRead x.c x.agent a
    let s ← s.engWrite x.c x.agent x.enq.scope false b bs
    State.copyRows s x rest

/-- COPY between the spaces that `gd` and `gs` name: global or scratchpad (R313). -/
def copyWord (gd gs : Bool) (s : State) : Out :=
  engineWord (fun s q e => WRes.of do
    let x := s.wctx q e
    let (dst, src, len, q') ← q.pop3
    if !lenOk len then throw (.eng 3 0)
    let n := len.toNat
    let rows ← resolveRows (fun a => if gs then x.glob false a n else x.sp s q a n 1)
      (fun a => if gd then x.glob true a n else x.sp s q a n 1) dst src q.rowsOf
    let s ← s.copyRows x rows
    pure (s, q')) s

/-- COPY.gs. -/
def execEwCopyGs (s : State) : Out := copyWord true false s
/-- COPY.sg. -/
def execEwCopySg (s : State) : Out := copyWord false true s
/-- COPY.gg. -/
def execEwCopyGg (s : State) : Out := copyWord true true s
/-- COPY.ss. -/
def execEwCopySs (s : State) : Out := copyWord false false s

/-- Resolve the transfers of a tile image (R314). -/
def resolvePlan (f : Nat → Nat → Except WErr (List Part)) (addr : Word) :
    List (Nat × Nat × Nat × Bool) → Except WErr (List Part)
  | [] => .ok []
  | p :: rest => do
    let a ← f (addr + BitVec.ofNat 64 p.1).toNat p.2.1
    let l ← resolvePlan f addr rest
    pure (a ++ l)

/-- Older instructions on a tile have completed: variable-latency results land, fixed ones hold the word back (R315, R336). -/
def State.tileSettled (s : State) (c : Nat) (ts : List Target) : Except WErr State :=
  if ((s.core c).landBy s.gtc).early ts then .error .hold else .ok (s.modCore c (fun k => (k.landBy s.gtc).interlock ts))

/-- COPYT (R314, R315). -/
def copytWord (load : Bool) (s : State) : Out :=
  engineWord (fun s q e => WRes.of do
    let x := s.wctx q e
    let (t, addr, pitch, q') ← q.pop3
    if !(s.cmdTile e t.toNat && addr.toNat % 32 == 0 && pitch.toNat % 32 == 0) then throw (.eng 3 0)
    let s ← s.tileSettled x.c (tileTs t.toNat 32)
    let plan := (s.shape x.c t.toNat).plan pitch.toNat
    let ps ← resolvePlan (fun a n => x.glob (!load) a n) addr plan
    if load then
      let (s, bs) ← s.engRead x.c x.agent ps
      let rs := loadResults t.toNat plan bs
      let s := s.modCore x.c (fun k => rs.foldl (fun k r =>
        k.landOne { target := r.1, mask := r.2.1, value := r.2.2, ready := none }) k)
      pure (s, q')
    else
      let s ← s.engWrite x.c x.agent e.scope false ps ((s.core x.c).tileImage t.toNat plan)
      pure (s, q')) s

/-- COPYT.ld. -/
def execEwCopytLd (s : State) : Out := copytWord true s
/-- COPYT.st. -/
def execEwCopytSt (s : State) : Out := copytWord false s

/-- The elements of an indexed copy: (global pieces, scratchpad pieces) (R316). -/
def resolveElems (x : WCtx) (s : State) (q : Cmd) (store : Bool) (sp gbase : Word) (size : Nat) :
    List Nat → Nat → Except WErr (List (List Part × List Part))
  | [], _ => .ok []
  | i :: rest, k => do
    let g := gbase + sxN 32 i * BitVec.ofNat 64 size
    if g.toNat % size ≠ 0 then throw (.eng 3 0)
    let a ← x.glob store g.toNat size
    let b ← x.sp s q (sp + BitVec.ofNat 64 (k * size)).toNat size 1
    let l ← resolveElems x s q store sp gbase size rest (k + 1)
    pure ((a, b) :: l)

/-- COPYX (R316); `store` is `copyx.s`. -/
def copyxWord (store : Bool) (s : State) : Out :=
  engineWord (fun s q e => WRes.of do
    let x := s.wctx q e
    let (sp, gbase, idx, n, q') ← q.pop4
    let size := q.size
    if n.toNat = 0 ∨ 65536 < n.toNat ∨ gbase.toNat % size ≠ 0 then throw (.eng 3 0)
    let ip ← x.sp s q idx.toNat (4 * n.toNat) 4
    let _ ← x.sp s q sp.toNat (size * n.toNat) size
    let (s, ib) ← s.engRead x.c x.agent ip
    let els ← resolveElems x s q store sp gbase size (lanesOf 32 n.toNat (leNat ib)) 0
    let s ← s.copyRows x (if store then els.map (fun p => (p.2, p.1)) else els)
    pure (s, q')) s

/-- COPYX.g. -/
def execEwCopyxG (s : State) : Out := copyxWord false s
/-- COPYX.s. -/
def execEwCopyxS (s : State) : Out := copyxWord true s

/-- Resolve the rows of a fill. -/
def resolveFill (f : Nat → Except WErr (List Part)) (dst : Word) : List (Word × Word) → Except WErr (List (List Part))
  | [] => .ok []
  | (_, d) :: rest => do
    let a ← f (dst + d).toNat
    let l ← resolveFill f dst rest
    pure (a :: l)

/-- Write the rows of a fill. -/
def State.fillRows (s : State) (x : WCtx) (bs : List Byte) : List (List Part) → Except WErr State
  | [] => .ok s
  | p :: rest => do
    let s ← s.engWrite x.c x.agent x.enq.scope false p bs
    State.fillRows s x bs rest

/-- FILL (R317): for global memory a misaligned dst is an argument fault, for scratchpad an alignment fault. -/
def fillWord (glob : Bool) (s : State) : Out :=
  engineWord (fun s q e => WRes.of do
    let x := s.wctx q e
    let (dst, len, pat, q') ← q.pop3
    let size := q.size
    let n := len.toNat
    if n % size ≠ 0 ∨ n < size ∨ 2 ^ 24 < n ∨ (glob ∧ dst.toNat % size ≠ 0) then throw (.eng 3 0)
    if !glob && dst.toNat % size != 0 then throw (.eng 2 dst.toNat)
    let bs := (List.replicate (n / size) (leBytes size pat.toNat)).flatten
    let rows ← resolveFill (fun a => if glob then x.glob true a n else x.sp s q a n 1) dst q.rowsOf
    let s ← s.fillRows x bs rows
    pure (s, q')) s

/-- FILL.g. -/
def execEwFillG (s : State) : Out := fillWord true s
/-- FILL.s. -/
def execEwFillS (s : State) : Out := fillWord false s

/-! Counted reductions -/

/-- The fields of op of `cred.l` and `cred.p` (R319). -/
structure CredOp where
  rop : Rop
  sty : STy
  det : Bool
  cnt : Nat
  idx : Nat
  scope : Scope

/-- The fields, unless a value lies outside its limits (R319). -/
def credOp (op : Word) : Option CredOp :=
  let v := op.toNat
  if credOk op then
    match ropOf (v % 16), styOf (v / 16 % 8), scopeOf (v / 2 ^ 24 % 8) with
    | some r, some t, some sc =>
      some { rop := r, sty := t, det := v / 128 % 2 == 1, cnt := v / 2 ^ 8 % 256 + 1, idx := v / 2 ^ 16 % 256, scope := sc }
    | _, _, _ => none
  else none

/-- The elements of one source line: below offset 56 (R320). -/
def lineElems (size : Nat) (bs : List Byte) : List (Nat × Nat × Nat) :=
  (List.range (56 / size)).map (fun i => (i * size, size, leNat ((bs.drop (i * size)).take size)))

/-- The pieces of the first `n` bytes of a line. -/
def firstOf : List Part → Nat → List Part
  | [], _ => []
  | p :: ps, n => if n = 0 then [] else { p with len := Nat.min p.len n } :: firstOf ps (n - p.len)

/-- One source line contributes to one destination line, whose pieces are `ds` (R320): the checks of an engine's write, which reads what it
reduces into (R245, R347, R385), those of the home (R267), and, where it completes the round, those of the ready flag (R266). -/
def State.credLine (s : State) (c : Nat) (a : Agent) (o : CredOp) (ds : List Part) (bs : List Byte) : Except WErr State := do
  let line := lineOf (((ds.head?).map (·.pa)).getD 0)
  let key := ((ds.head?).map (·.leaf.key)).getD 0
  let flag := 64 * line + 56
  let ps := firstOf ds 56
  if ps.any (fun p => s.pinned .engine p.pa p.len) then throw (.fault 0x22 0 (64 * line) 0)
  let s ← s.engAdmit c a true true ps
  match s.badIn (spansOf ps) with
  | some x => throw (.fault 0x25 0 (lossAddr c x) 0)
  | none => pure ()
  if s.refuses line o.cnt o.idx o.det then throw (.eng 3 (64 * line))
  if s.completes line o.cnt then
    if s.pinned .engine flag 8 then throw (.fault 0x22 0 (64 * line) 0)
    match s.flagClash a line, s.badIn [(flag, 8)] with
    | some (.conflict l w), _ => throw (.fault 0x22 0 (64 * l) (s.agentWord w))
    | some (.retry l w), _ => throw (.retry { agent := a, write := true, sync := true, spans := [(flag, 8)] } l (s.agentWord w))
    | none, some x => throw (.fault 0x25 0 x 0)
    | none, none => pure ()
  let (s, clk) := s.stamp a
  pure (s.contribute key line o.cnt o.det
    { idx := o.idx, agent := a, scope := o.scope, clock := clk, rop := o.rop, sty := o.sty, elems := lineElems (styBytes o.sty) bs })

/-- Lines in increasing order; a refused line keeps the lines below it landed. It answers how many have landed (R320). -/
def State.credLines (s : State) (c : Nat) (a : Agent) (o : CredOp) : List (List Part) → List Byte → Nat → State × Nat × Option WErr
  | [], _, n => (s, n, none)
  | d :: ds, bs, n =>
    match s.credLine c a o d (bs.take 64) with
    | .ok s' => State.credLines s' c a o ds (bs.drop 64) (n + 1)
    | .error e => (s, n, some e)

/-- The destination lines of a range, each in its pieces (R305, R320). -/
def WCtx.lines (x : WCtx) (dst : Nat) : Nat → Except WErr (List (List Part))
  | 0 => .ok []
  | n + 1 => do
    let d ← x.glob true dst 64
    let rest ← WCtx.lines x (dst + 64) n
    pure (d :: rest)

/-- The bytes of the source lines that are read: all but the last eight of each (R320). -/
def sourceParts (ps : List Part) : Nat → Nat → List Part
  | 0, _ => []
  | n + 1, off => slice ps off 56 ++ sourceParts ps n (off + 64)

/-- CRED.l (R320). Lines that have landed before a line is held back by another instance stay landed: the word goes on with that line. -/
def execEwCredL (s : State) : Out :=
  engineWord (fun s q e =>
    let x := s.wctx q e
    let pre : Except WErr (State × Cmd × CredOp × List (List Part) × List Part) := do
      let (dst, src, len, op, q') ← q.pop4
      let o ← match credOp op with
        | some o => pure o
        | none => throw (.eng 3 0)
      if dst.toNat % 64 ≠ 0 ∨ len.toNat % 64 ≠ 0 ∨ len.toNat < 64 ∨ 2 ^ 24 < len.toNat then throw (.eng 3 0)
      let sp ← x.sp s q src.toNat len.toNat 64
      let ds ← x.lines dst.toNat (len.toNat / 64)
      let from_ := sourceParts sp (len.toNat / 64) 0
      let (s, _) ← s.engRead x.c x.agent from_
      pure (s, q', o, ds, sp)
    match pre with
    | .error err => .fail err
    | .ok (s1, q', o, ds, sp) =>
      match s1.credLines x.c x.agent o (ds.drop q.lines) ((s1.readParts sp).drop (64 * q.lines)) q.lines with
      | (s2, _, none) => .step s2 { q' with lines := 0 } 1
      | (s2, n, some (.retry t l w)) =>
        let since := if n = q.lines then q.refused.getD s2.gtc else s2.gtc
        if since + 2 ^ 20 ≤ s2.gtc then .wait (s2.cmdFault x.c x.n 0x23 0 (64 * l) w) q
        else .wait (s2.refuse t l since) { q with lines := n, refused := some since }
      | (_, _, some .hold) => .fail .hold
      | (s2, _, some (.fault cause sub addr other)) => .wait (s2.cmdFault x.c x.n cause sub addr other) { q with lines := 0 }) s

/-- END (R287): values left on the stack are discarded. -/
def execEwEnd (s : State) : Out :=
  engineWord (fun s q _ => .step s { q with done := true, stack := [], stamp := none } 0) s

end Sys2Proof.Machine
end

