-- ==== Sys2Proof/Machine/Matrix.lean ====
section
/-! DEFINITION. The matrix engine (spec 16 R331 to R343) and the TMMA word (15 R318). -/
namespace Sys2Proof.Machine

/-- Kc and the occupancy of a form with m rows and K rows of B; none for a pair that does not exist (R331). -/
def tmmaForm (a b : ETy) (m k : Nat) : Option (Nat × Nat) :=
  let fp8 (t : ETy) : Bool := t == .e4m3 || t == .e5m2
  if fp8 a && fp8 b then some (32, m)
  else if (a == .bf16 && b == .bf16) || (a == .f16 && b == .f16) then some (16, m * ((k + 15) / 16))
  else if a == .e2m1 && b == .e2m1 then some (32, (m + 1) / 2)
  else if (a == .e4m3 || a == .bf16) && b == .ds8 then some (32, (m + 1) / 2)
  else none

/-- Whether the shapes are accepted (R332). -/
def tmmaOk (o : TmmaOp) (a b c : Shape) : Bool :=
  o.ct != o.at_ && o.ct != o.bt && c.ew == .f32 && !c.scaled && (tmmaForm a.ew b.ew a.rows b.rows).isSome &&
    c.rows == a.rows && c.cols == b.cols && decide (o.koff + b.rows ≤ a.cols) &&
    (!a.scaled || a.ew == .e4m3 || a.ew == .e5m2 || a.ew == .e2m1) &&
    (!b.scaled || b.ew == .e4m3 || b.ew == .e5m2 || b.ew == .e2m1 || b.ew == .ds8)

/-- Row `i` of tile `t` with the incomplete products of the engine applied in start order (R335); one whose records are lost lands nothing (R343). -/
def Core.rowAfter (k : Core) (t i : Nat) : Nat :=
  k.mx.foldl (fun v p => if p.ct = t ∧ p.bad = false then (p.rows.find? (fun r => r.1 == i)).elim v (fun r => mergeBits v r.2.1 r.2.2) else v)
    (k.row (32 * t + i)).toNat

/-- The scale that a sidecar row assigns to column `j`, 1 where the tile is unscaled (R333). -/
def scaleAt (scaled : Bool) (side j : Nat) : XVal :=
  if scaled then (xs10 (lane 16 side (j / 32) % 1024)).getD .nan else xInt 1

/-- One accumulator element over its chunks (R62). -/
def accumulate (kc : Nat) : List (List XVal) → Bool → Nat → Nat
  | [], _, c => c
  | xs :: rest, ovw, c =>
    let s := xSum xs
    let v := if ovw then s else xAdd false (xOf .f32 c) s
    accumulate kc rest false (roundTo .f32 .rne 0 false v).bits

/-- Cut a list into pieces of `n`; `fuel` bounds their number. -/
def chunksOf {α : Type} (n : Nat) : Nat → List α → List (List α)
  | 0, _ => []
  | fuel + 1, l => if l.isEmpty then [] else l.take n :: chunksOf n fuel (l.drop n)

/-- The rows of CT that a product lands: row, mask, value (R333). -/
def Core.tmmaRows (k : Core) (o : TmmaOp) (a b : Shape) (kc : Nat) : List (Nat × Nat × Nat) :=
  let n := b.cols
  let kk := b.rows
  let bRows : List (List XVal) := (List.range kk).map (fun r =>
    let row := (k.row (32 * o.bt + r)).toNat
    let side := (k.sideRow (32 * o.bt + r)).toNat
    (List.range n).map (fun j => xMul (xOf b.ew (lane (etyBits b.ew) row j)) (scaleAt b.scaled side j)))
  (List.range a.rows).map (fun i =>
    let row := (k.row (32 * o.at_ + i)).toNat
    let side := (k.sideRow (32 * o.at_ + i)).toNat
    let as_ : List XVal := (List.range kk).map (fun q =>
      xMul (xOf a.ew (lane (etyBits a.ew) row (o.koff + q))) (scaleAt a.scaled side (o.koff + q)))
    let old := k.rowAfter o.ct i
    let vals := (List.range n).map (fun j =>
      let terms := List.zipWith (fun x br => xMul x (br.getD j .nan)) as_ bRows
      accumulate kc (chunksOf kc 3 terms) o.ovw (lane 32 old j))
    (i, 2 ^ (32 * n) - 1, packLanes 32 vals))

/-- TMMA hands its product to the engine (R318): the word waits there as a candidate, or for its stamp. -/
def execEwTmma (s : State) : Out :=
  engineWord (fun s q e =>
    match q.pop with
    | .error err => .fail err
    | .ok (op, _) =>
      match tmmaOp op with
      | some o =>
        if s.cmdTile e o.ct && s.cmdTile e o.at_ && s.cmdTile e o.bt then
          .wait s { q with waiting := some (q.waiting.getD s.gtc) }
        else .fail (.eng 3 0)
      | none => .fail (.eng 3 0)) s

/-- The command of a chain that waits at a TMMA: its state, op and since when. -/
def State.atTmma (s : State) (c n : Nat) : Option (Cmd × TmmaOp × Nat) :=
  let ch := (s.core c).chain n
  match ch.run with
  | some q =>
    if ch.fault then none
    else match q.waiting, q.stack with
      | some t, op :: _ => (tmmaOp op).map (fun o => (q, o, t))
      | _, _ => none
  | none => none

/-- R335 lets a product start beside the incomplete ones of its core. -/
def Core.hazardFree (k : Core) (o : TmmaOp) (gtc : Nat) : Bool :=
  k.mx.all (fun p =>
    p.ct != o.at_ && p.ct != o.bt && p.at_ != o.ct && p.bt != o.ct && (p.ct != o.ct || decide (p.occEnd ≤ gtc)))

/-- R336: no older fixed-latency result is on its way to one of the tiles. -/
def Core.tilesQuiet (k : Core) (o : TmmaOp) (gtc : Nat) : Bool :=
  !((k.landBy gtc).early (tileTs o.ct 32 ++ tileTs o.at_ 32 ++ tileTs o.bt 32))

/-- Occupancy of a product (R331); a rejected one has none. -/
def State.occupancy (s : State) (c : Nat) (o : TmmaOp) : Nat :=
  let a := s.shape c o.at_
  let b := s.shape c o.bt
  ((tmmaForm a.ew b.ew a.rows b.rows).map (·.2)).getD 0

/-- The start cycle and occupancy of stamped products that a chain has reached (R339). -/
def State.stamps (s : State) (c : Nat) : List (Nat × Nat × Nat) :=
  [1, 2].filterMap (fun n => match s.atTmma c n with
    | some (q, o, _) => q.stamp.map (fun t => (n, t, s.occupancy c o))
    | none => none)

/-- No reached stamp forbids a product that would hold the engine for cycles gtc to gtc + occ - 1 (R339). -/
def State.stampsAllow (s : State) (c occ : Nat) : Bool :=
  (s.stamps c).all (fun t => decide (s.gtc + occ ≤ t.2.1) || decide (t.2.1 + t.2.2 ≤ s.gtc))

/-- Whether chain `n` has a candidate (R338). -/
def State.candidate (s : State) (c n : Nat) : Option TmmaOp :=
  match s.atTmma c n with
  | some (q, o, _) =>
    let k := s.core c
    if q.stamp.isNone && k.hazardFree o s.gtc && k.tilesQuiet o s.gtc && s.stampsAllow c (s.occupancy c o) then some o else none
  | none => none

/-- Start the product of chain `n` of core `c` on the engine of core `b` (R333, R334, R343), or fault it (R332). -/
def State.startTmma (s : State) (c n b : Nat) (o : TmmaOp) : State :=
  match ((s.core c).chain n).run with
  | none => s
  | some q =>
    let s := s.modCore c (fun k => (k.landBy s.gtc).interlock (tileTs o.ct 32 ++ tileTs o.at_ 32 ++ tileTs o.bt 32))
    let a := s.shape c o.at_
    let g := s.shape c o.bt
    match tmmaForm a.ew g.ew a.rows g.rows with
    | none => s.cmdFault c n 0x30 3 0 0
    | some (kc, occ) =>
      if !tmmaOk o a g (s.shape c o.ct) then s.cmdFault c n 0x30 3 0 0
      else
        let p : Product :=
          { chain := n, seq := q.seq, ct := o.ct, at_ := o.at_, bt := o.bt, rows := (s.core c).tmmaRows o a g kc,
            occEnd := s.gtc + occ, ready := s.gtc + occ + 12, by_ := b, upc := q.upc, stack := q.stack, ovw := o.ovw }
        let s := s.modCore c (fun k => { k with mx := k.mx ++ [p] })
        let s := s.modCore b (fun k => { k with mxUntil := if b = c then s.gtc + occ else s.gtc + occ + 12 })
        s.modCmd c n (fun q => { q with stack := q.stack.drop 1, upc := q.upc + 1, waiting := none, stamp := none, exec := b, next := s.gtc + 1 })

/-- The chain whose candidate the free engine starts, and c after it (R338). -/
def State.mxPick (s : State) (c : Nat) : Option (Nat × TmmaOp × Nat) :=
  let k := s.core c
  if s.gtc < k.mxUntil then none
  else
    let p := k.reg 0x340
    match s.candidate c 1, s.candidate c 2 with
    | some o, none => some (1, o, k.mxCount)
    | none, some o => some (2, o, 0)
    | none, none => none
    | some o0, some o1 =>
      match fld p 9 8 with
      | 0 => some (1, o0, k.mxCount)
      | 1 => some (2, o1, k.mxCount)
      | _ => if k.mxCount < fld p 7 0 then some (1, o0, k.mxCount + 1) else some (2, o1, 0)

/-- MX_START (R338). -/
def execMxStart (s : State) : Out :=
  let c := s.cur.core
  match s.mxPick c with
  | some (n, o, m) => .next ((s.modCore c (fun k => { k with mxCount := m })).startTmma c n c o)
  | none => .next s

/-- The stamped product of chain `n` that may start in this cycle, its own stamp: the engine is free, nothing that is under way holds it back, and
it holds the engine in no cycle of the other chain's reached stamp, but for one of this very cycle (R339, R340). -/
def State.stampFits (s : State) (c n : Nat) : Option TmmaOp :=
  match s.atTmma c n with
  | some (q, o, since) =>
    let k := s.core c
    let occ := s.occupancy c o
    let apart (t : Nat × Nat × Nat) : Bool :=
      t.1 == n || t.2.1 == s.gtc || decide (s.gtc + occ ≤ t.2.1) || decide (t.2.1 + t.2.2 ≤ s.gtc)
    if q.stamp = some s.gtc ∧ since ≤ s.gtc ∧ k.mxUntil ≤ s.gtc ∧ k.hazardFree o s.gtc ∧ k.tilesQuiet o s.gtc ∧
        (s.stamps c).all apart then some o
    else none
  | none => none

/-- The stamped product that starts in this cycle; of two MQ0's (R339). -/
def State.stampedDue (s : State) (c n : Nat) : Option TmmaOp :=
  if n = 2 ∧ (s.stampFits c 1).isSome then none else s.stampFits c n

/-- STAMPED_TMMA_START (R339). A start of MQ1 while MQ0 has no candidate sets the count c to 0 (R338). -/
def execStampedTmmaStart (s : State) : Out :=
  let c := s.cur.core
  let n := s.cur.chain
  match s.stampedDue c n with
  | some o =>
    let t := if n = 2 ∧ (s.candidate c 1).isNone then s.modCore c (fun k => { k with mxCount := 0 }) else s
    .next (t.startTmma c n c o)
  | none => .next s

/-- Whether a stamped product of chain `n` misses its schedule in this cycle (R340). -/
def State.misses (s : State) (c n : Nat) : Bool :=
  match s.atTmma c n with
  | some (q, _, _) => match q.stamp with
    | some t => decide (t ≤ s.gtc) && (s.stampedDue c n).isNone
    | none => false
  | none => false

/-- SCHEDULE_MISS (R340): the command faults with 0x32 and the product changes no tile. -/
def execScheduleMiss (s : State) : Out :=
  let c := s.cur.core
  let n := s.cur.chain
  if s.misses c n then .next (s.cmdFault c n 0x32 0 0 0) else .next s

/-- Whether the engine of core `c` is idle (R342): it executes no incomplete product, and its chains have none for it. -/
def State.mxIdle (s : State) (c : Nat) : Bool :=
  !s.cores.any (fun p => p.2.mx.any (fun x => x.by_ == c)) && decide ((s.core c).mxUntil ≤ s.gtc) &&
    (s.candidate c 1).isNone && (s.candidate c 2).isNone && (s.stamps c).isEmpty

/-- The receiver of an offer: the idle engine of the quire with ACC = 1 and the lowest core number (R342). -/
def State.receiver (s : State) (c : Nat) : Option Nat :=
  ((List.range 8).map (fun i => 8 * quireOf c + i)).find? (fun d =>
    d != c && !(s.core d).failed && fld ((s.core d).reg 0x341) 33 33 == 1 && s.mxIdle d)

/-- The candidate of chain `n` that is to be offered, and since when it waits (R342). -/
def State.offered? (s : State) (c n : Nat) : Option (TmmaOp × Nat) :=
  let m := (s.core c).reg 0x341
  match s.candidate c n, s.atTmma c n with
  | some o, some (_, _, since) => if fld m 31 0 ≠ 0 ∧ fld m 32 32 = 1 ∧ since + fld m 31 0 ≤ s.gtc then some (o, since) else none
  | _, _ => none

/-- Another offer of the quire is served before this one: by the longest wait, then the lowest origin (R342). -/
def State.offerBefore (s : State) (c n since : Nat) : Bool :=
  ((List.range 8).map (fun i => 8 * quireOf c + i)).any (fun d => (s.receiver d).isSome && [1, 2].any (fun m =>
    match s.offered? d m with
    | some (_, t) => decide (t < since) || (t == since && (decide (d < c) || (d == c && decide (m < n))))
    | none => false))

/-- An offer of chain `n` that is due: its op and its receiver (R342). -/
def State.offer (s : State) (c n : Nat) : Option (TmmaOp × Nat) :=
  match s.offered? c n with
  | some (o, since) => if s.offerBefore c n since then none else (s.receiver c).map (fun d => (o, d))
  | none => none

/-- MIGRATION_OFFER (R342, R343). -/
def execMigrationOffer (s : State) : Out :=
  match s.offer s.cur.core s.cur.chain with
  | some (o, d) => .next (s.startTmma s.cur.core s.cur.chain d o)
  | none => .next s

/-- Remove one entry of each tile from a list. -/
def dropTiles (ts : List Nat) (l : List Nat) : List Nat := ts.eraseDups.foldl (fun l t => l.erase t) l

/-- A product lands in CT and completes: its tiles are released (R334, R336). -/
def State.landProduct (s : State) (c : Nat) (p : Product) : State :=
  let s := s.modCore c (fun k =>
    let k := p.rows.foldl (fun k r =>
      k.landOne { target := .row (32 * p.ct + r.1), mask := r.2.1, value := r.2.2, ready := none }) k
    { k with mx := k.mx.erase p })
  s.modEnq c p.chain p.seq (fun e => { e with tiles := dropTiles [p.ct, p.at_, p.bt] e.tiles })

/-- The oldest product of a core that is due, at home or elsewhere. -/
def State.productDue (s : State) (c : Nat) (home : Bool) : Option Product :=
  (s.core c).mx.find? (fun p => decide (p.ready ≤ s.gtc) && (p.by_ == c) == home)

/-- Count a migrated product, modulo 2^32 (R341). -/
def bumpLow (w : Word) (hi : Bool) : Word :=
  let low := fld w 31 0
  let high := fld w 63 32
  if hi then BitVec.ofNat 64 ((high + 1) % 2 ^ 32 * 2 ^ 32 + low) else BitVec.ofNat 64 (high * 2 ^ 32 + (low + 1) % 2 ^ 32)

/-- A product whose operand records are lost completes nothing: its command faults at the TMMA word with 0x25, also where a later word has stopped the
chain (R289, R343). A later product that has read the accumulator which it was to leave is lost with it (DEDUCED, log 109). -/
def State.loseProduct (s : State) (c : Nat) (p : Product) : State :=
  let s := s.modCore c (fun k => { k with
    mx := (k.mx.erase p).map (fun x => if x.ct = p.ct ∧ ¬ x.ovw ∧ p.ready ≤ x.ready ∧ p.occEnd ≤ x.occEnd then { x with bad := true } else x) })
  let ch := (s.core c).chain p.chain
  if ch.run.any (fun q => q.seq == p.seq && (!ch.fault || decide (p.upc < q.upc))) then
    (s.modCmd c p.chain (fun q => { q with
      upc := p.upc, stack := p.stack, done := false, waiting := none, pull := none, refused := none, lines := 0 })).cmdFault c p.chain 0x25 0 0 0
  else s

/-- TMMA_COMPLETE (R334). -/
def execTmmaComplete (s : State) : Out :=
  match s.productDue s.cur.core true with
  | some p => .next (if p.bad then s.loseProduct s.cur.core p else s.landProduct s.cur.core p)
  | none => .next s

/-- MIGRATED_PRODUCT_RETURN (R341, R343). -/
def execMigratedProductReturn (s : State) : Out :=
  let c := s.cur.core
  match s.productDue c false with
  | some p =>
    if p.bad then .next (s.loseProduct c p)
    else
      let s := s.modCore c (fun k => k.setReg 0x342 (bumpLow (k.reg 0x342) false))
      let s := s.modCore p.by_ (fun k => k.setReg 0x342 (bumpLow (k.reg 0x342) true))
      .next (s.landProduct c p)
  | none => .next s

end Sys2Proof.Machine
end

