-- ==== Sys2Proof/Machine/Notices.lean ====
section
/-! DEFINITION. Notices, the publication table, the gathering port and pulls (spec 17 R344 to R361, 15 R321 to R323). -/
namespace Sys2Proof.Machine

/-! The descriptor (R344, R345) -/

/-- A notice descriptor. -/
structure Desc where
  loc : Nat
  done : Nat
  tag : BitVec 32
  size : Nat
  timeout : Nat
  prio : Nat
  retain : Nat
  cons : List Nat
  deriving DecidableEq, Repr

/-- Field of `n` bytes at offset `off` of a byte block. -/
def field (bs : List Byte) (off n : Nat) : Nat := leNat ((bs.drop off).take n)

/-- A descriptor, if it is valid (R345); with `own` the block's location is part of it. -/
def parseDesc (bs : List Byte) (own : Bool) : Option Desc :=
  let nc := field bs 0x1D 1
  let all := (List.range 8).map (fun i => field bs (0x20 + 2 * i) 2)
  let cons := all.take nc
  let size := field bs 0x14 4
  let d : Desc :=
    { loc := field bs 0 8, done := field bs 8 8, tag := BitVec.ofNat 32 (field bs 0x10 4), size := size,
      timeout := field bs 0x18 4, prio := field bs 0x1C 1 % 8, retain := field bs 0x1E 1, cons := cons }
  if (!own || d.loc % 64 == 0) && d.done % 8 == 0 && size % 512 == 0 && decide (512 ≤ size ∧ size ≤ 1048576) &&
      decide (1 ≤ d.timeout) && decide (field bs 0x1C 1 < 8) && decide (1 ≤ nc ∧ nc ≤ 8) &&
      decide (1 ≤ d.retain ∧ d.retain ≤ nc) && field bs 0x1F 1 == 0 && field bs 0x30 16 == 0 &&
      cons.all (fun c => decide (c < 2 ^ 15) && decide (c % 512 < 320)) && decide (cons.eraseDups.length = nc) &&
      (all.drop nc).all (· == 0) then some d
  else none

/-! Publication (R346 to R350) -/

/-- Entry `i` of the publication table. -/
def Port.pub (p : Port) (i : Nat) : Option Pub := SMap.get none p.pubs i
/-- Replace entry `i`. -/
def State.setPub (s : State) (c i : Nat) (b : Option Pub) : State :=
  s.modPort c (fun p => { p with pubs := SMap.set none p.pubs i b })
/-- The entry that holds a notice. -/
def Port.find (p : Port) (nid : Word) : Option (Nat × Pub) :=
  (List.range 64).findSome? (fun i => match p.pub i with
    | some b => if b.nid = nid then some (i, b) else none
    | none => none)
/-- A free entry. -/
def Port.freePub (p : Port) : Option Nat := (List.range 64).find? (fun i => (p.pub i).isNone)
/-- Entries in use: PUBSTAT.NPUB (R352). -/
def Port.npub (p : Port) : Nat := ((List.range 64).filter (fun i => (p.pub i).isSome)).length

/-- Knowledge that the pulls of a block take from its NOTICE or NOTE, as an XFENCE naming the gathering path would order
it (log 15). -/
def Clock.fenced (k : Clock) (paths : List Path) : Clock := k.onto .gath paths

/-- The agent's own release, fenced for the pulls of the block (R346, R322). -/
def State.noticeClock (s : State) (a : Agent) : State × Clock :=
  let (s, k) := s.release a .pod
  (s, k.fenced [.core, .copy, .mtx, .coll])

/-- Record a notice, pin its block and send it to its consumers (R346). -/
def State.publish (s : State) (c i : Nat) (d : Desc) (loc : Nat) (pages : List Leaf) (done : Option (Nat × Leaf)) (asp : Option Word)
    (note : Bool) (role : Role) (clk : Clock) : State × Word :=
  let serial := (s.core c).port.serial
  let nid := BitVec.ofNat 64 (s.podId c * 2 ^ 48 + serial % 2 ^ 48)
  let info : NoticeInfo := { nid := nid, tag := d.tag, size := d.size, prio := d.prio, producer := s.podId c }
  let (g, gen) := s.groupOf c
  let b : Pub :=
    { nid := nid, info := info, frames := pages, loc := loc % 2 ^ 56, done := done, doneAsp := asp, cons := d.cons, count := d.retain,
      counted := [], pulling := [], begun := [], expiry := s.gtc + d.timeout, timeout := d.timeout, expired := false,
      raised := false, trapAt := none, role := role, note := note, epoch := (s.core c).epoch, group := g, gen := gen,
      clock := clk, kept := [] }
  let s := s.modPort c (fun p => { p with serial := p.serial + 1 })
  let s := s.setPub c i (some b)
  let s := s.raiseFlight c pages
  (d.cons.foldl (fun s x => s.send (s.podId c) x g gen (.notice info)) s, nid)

/-- The producer withdraws a notice from every consumer that has not begun a pull (R348, R349). -/
def State.withdraw (s : State) (c : Nat) (b : Pub) : State :=
  (b.cons.filter (fun x => !b.begun.contains x && !b.counted.contains x)).foldl
    (fun s x => s.send (s.podId c) x b.group b.gen (.withdraw b.nid)) s

/-- The port reports a fault of one of its accesses to firmware; a collective engine's goes to core 80d (R239). -/
def State.portFault (s : State) (c : Nat) (chain : Nat) (cause addr : Nat) (other : Word) : State :=
  if chain = 4 then s.report (80 * dieOf c) { cause := cause, src := 3, ctx := 0, val := BitVec.ofNat 64 addr, other := other }
  else s.report c { cause := cause, src := 2, ctx := 0, val := BitVec.ofNat 64 addr, other := other }

/-- The last of an unpin: the addition at DONEADDR, an access of the port, and the entry is free (R350). An addition whose page has gone at a TLBINV
(R222, R389), or that is refused for good, is not made and is reported (R239, R347); one that a held line refuses is tried again in each cycle (R245). -/
def State.countDone (s : State) (c i : Nat) (b : Pub) : State :=
  match b.done with
  | none => s.setPub c i none
  | some (pa, l) =>
    let a := Agent.port c 0
    let s := s.acquire a b.clock
    let t : Touch := { agent := a, write := true, sync := true, spans := [(pa, 8)] }
    let fail (cause addr : Nat) (o : Word) : State := (((s.portFault c 3 cause addr o).setPub c i none)).calm a
    if let some (cause, va) := b.doneFault then fail cause va 0
    else if (s.setPub c i none).pinned .engine pa 8 then fail 0x22 (pa / 64 * 64) 0
    else match s.ask t [{ pa := pa, len := 8, leaf := l }], s.badIn [(pa, 8)] with
      | .granted _, some x => fail 0x25 x 0
      | .granted s, none =>
        let (s, k) := s.release a .pod
        let s := s.writePhys l.key pa (leBytes 8 (leNat (s.readPhys l.key pa 8) + 1))
        (s.addRelease pa 8 a .pod k).setPub c i none
      | .fault cause _ x o, _ => fail cause x o
      | .refused line o, _ =>
        let since := b.doneSince.getD s.gtc
        if since + 2 ^ 20 ≤ s.gtc then fail 0x23 (64 * line) (s.agentWord o)
        else (s.setPub c i (some { b with
          frames := [], cons := [], count := 0, expired := true, raised := false, trapAt := none, kept := [],
          doneSince := some since })).refuse t line since

/-- The block of a notice is unpinned (R348, R350). -/
def State.unpin (s : State) (c i : Nat) (b : Pub) : State := ((s.withdraw c b).lowerFlight c b.frames).countDone c i b

/-- A pull or decline of consumer `x` has completed: it counts once (R348). -/
def Pub.complete (b : Pub) (x : Nat) (k : Clock) : Pub :=
  let b := { b with pulling := b.pulling.filter (· != x), clock := b.clock.join k }
  if b.cons.contains x && !b.counted.contains x then { b with counted := b.counted ++ [x], count := b.count - 1 } else b

/-- Store a changed entry; unpin it when its count is zero and no pull is in progress (R348). -/
def State.settlePub (s : State) (c i : Nat) (b : Pub) : State :=
  if b.count = 0 ∧ b.pulling.isEmpty then s.unpin c i b else s.setPub c i (some b)

/-- Since when the current NOTICE waits for an entry. -/
def State.entrySince (s : State) : Nat :=
  match (s.ctx s.cur.core s.cur.role).wait with
  | some (.entry t) => t
  | _ => s.gtc

/-- The chain executes a NOTE that waits for an entry since an earlier cycle than `since` (R250, R322). -/
def Chain.noteBefore (ch : Chain) (word : Nat → Nat → Nat) (since : Nat) : Bool :=
  !ch.fault && ch.run.any (fun q => q.held.any (fun t => decide (t < since)) && decodeEngine (word q.seq q.upc) == some .ewNote)

/-- Another NOTICE or NOTE of the core waits for an entry since an earlier cycle: it takes the next one (R250). `mine` is the chain of a NOTE, none for
a NOTICE. -/
def State.entryAhead (s : State) (c : Nat) (mine : Option Nat) (since : Nat) : Bool :=
  let k := s.core c
  [Role.L, .C, .S, .F].any (fun r => (mine.isSome || r != s.cur.role) && (k.ctx r).run == .sleeping &&
    (match (k.ctx r).wait with | some (.entry t) => decide (t < since) | _ => false)) ||
    k.chains.any (fun p => mine != some p.1 && p.2.noteBefore (s.slotWord c p.1) since)

/-- NOTICE (R346). -/
def execNotice (h : Hdr) (d a : GReg) (s : State) : Out :=
  issue h .stor [s.gT a] [s.gT d] (fun s =>
    let c := s.cur.core
    let e := s.g a
    if e.toNat % 8 ≠ 0 then .trap 0x06 0 e 0
    else if (s.spCheck c s.cur.role e 64 1).isSome then .trap 0x05 0 e 0
    else s.spLoad [(e.toNat, 64)] (fun s bs =>
      match parseDesc bs true with
      | none => .trap 0x02 0 0 0
      | some x =>
        s.checked false (pageParts (BitVec.ofNat 64 x.loc) x.size) (fun s ps =>
          let pages := (ps.map (·.leaf)).eraseDups
          let go (s : State) (done : Option (Nat × Leaf)) : Res :=
            match (s.core c).port.freePub with
            | none => .sleep s (.entry s.entrySince)
            | some i =>
              if s.entryAhead c none s.entrySince then .sleep s (.entry s.entrySince)
              else s.settled (
                let (s, k) := s.noticeClock s.me
                let (s, nid) := s.publish c i x x.loc pages done (s.aspaceOf c s.cur.role) false s.cur.role k
                .done (s.putG d nid none))
          if x.done = 0 then go s none
          else
            match s.xlatParts c (s.aspaceOf c s.cur.role) .write [(BitVec.ofNat 64 x.done, 8)] with
            | .error f => Res.of f 0
            | .ok (s, q :: _) =>
              (match region q.pa with
                | .decoded _ _ => .trap 0x24 0 (BitVec.ofNat 64 x.done) 0
                | _ => go s (some (q.pa, q.leaf)))
            | .ok (s, []) => go s none))) s

/-! The gathering port -/

/-- LZSIZE of a core (R352). -/
def Core.lzsize (k : Core) : Nat := fld (k.reg 0x351) 21 0
/-- LZBASE of a core (R352). -/
def Core.lzbase (k : Core) : Nat := fld (k.reg 0x350) 21 0
/-- RANKCTL.AUTO (R352). -/
def Core.auto (k : Core) : Bool := fld (k.reg 0x352) 16 16 == 1

/-- Landed bytes from the read pointer that are not yet released: LZSTAT.LANDED (R352). -/
def landedBytes : List Resv → Nat
  | [] => 0
  | r :: rs => if r.land < r.size then r.land else r.land + landedBytes rs
/-- LANDED of a port. -/
def Port.landed (p : Port) : Nat := landedBytes p.resv - p.given

/-- Records in the order in which they are made; the ANNOUNCED ones of a cycle come in arrival order, by producer (R351, R357). -/
def insertRecord (r : Arrival) : List Arrival → List Arrival
  | [] => [r]
  | x :: xs =>
    if r.status = 1 ∧ x.status = 1 ∧ x.gtc = r.gtc ∧ r.info.producer < x.info.producer then r :: x :: xs else x :: insertRecord r xs

/-- Append an arrival record; LANDED and ANNOUNCED records pulse source 6 (R357). -/
def State.arrivalRecord (s : State) (c : Nat) (info : NoticeInfo) (st off : Nat) (k : Clock) : State :=
  let s := s.modPort c (fun p => { p with
    recs := insertRecord { info := info, off := off, status := st, gtc := s.gtc, clock := k } p.recs })
  if st < 2 then s.modCore c (fun x => { x with pulses := x.pulses ++ [(6, .gath, k)] }) else s

/-- OFFSET of a record that names no ring bytes (R357). -/
def noOffset : Nat := 0xFFFFFFFF

/-- The entry of a notice in a port's table. -/
def Port.entry (p : Port) (nid : Word) : Option PEntry := p.table.find? (fun e => e.info.nid == nid)
/-- Change the entry of a notice. -/
def State.modEntry (s : State) (c : Nat) (nid : Word) (f : PEntry → PEntry) : State :=
  s.modPort c (fun p => { p with table := p.table.map (fun e => if e.info.nid = nid then f e else e) })

/-- The producers whose notices a port has turned away are told that an entry is free (R351, R420). -/
def State.tellFree (s : State) (c : Nat) : State :=
  (((s.core c).port.turned.map (·.1)).eraseDups).foldl (fun s x => s.send (s.podId c) x 0 0 .entryFree) s

/-- An entry frees (R351, R420). -/
def State.freeEntry (s : State) (c : Nat) (nid : Word) : State :=
  (s.modPort c (fun p => { p with table := p.table.filter (fun e => e.info.nid != nid) })).tellFree c

/-- A port turns a notice away where its table is full, or where an older one of the same producer is still to come (R351). -/
def Port.turnsAway (p : Port) (src : Nat) (nid : Word) : Bool :=
  decide (64 ≤ p.table.length) || p.turned.any (fun x => x.1 == src && decide (x.2.toNat < nid.toNat))

/-- NOTICE_ARRIVAL (R351, R353, R406, R420). -/
def execNoticeArrival (msg : Nat) (s : State) : Out :=
  match s.net[msg]? with
  | none => .next s
  | some m =>
    match m.body with
    | .notice info =>
      let c := m.dst % 512
      if s.notFirst msg then .next s
      else
      let s := s.takeMsg msg
      if s.stale m then .next (s.dropStale m (dieOf c))
      else if (s.core c).port.turnsAway m.src info.nid then
        let s := s.modPort c (fun p => { p with turned := (p.turned ++ [(m.src, info.nid)]).eraseDups })
        .next (s.send (s.podId c) m.src m.group m.gen (.tableFull info.nid))
      else
        let p := (s.core c).port
        let clk := if m.src / 512 = s.pkg then
          (match (s.core (m.src % 512)).port.find info.nid with | some (_, b) => b.clock | none => {}) else {}
        let big := (s.core c).lzsize < info.size ∨ ¬ (s.core c).auto
        let e : PEntry :=
          { info := info, arrival := s.gtc, order := p.arrivals, state := if big then .announced else .waiting,
            clock := clk, group := m.group, gen := m.gen }
        let s := s.modPort c (fun p => { p with
          table := p.table ++ [e], arrivals := p.arrivals + 1, turned := p.turned.filter (· != (m.src, info.nid)) })
        if big then
          -- the record is the port's release at core scope, as the pulse asks (R293)
          let (s, k) := s.release (.port c 0) .core
          .next (s.arrivalRecord c info 1 noOffset k)
        else .next s
    | _ => .next s

/-- Entries in the order of their publication. -/
def insertPub (x : Nat × Pub) : List (Nat × Pub) → List (Nat × Pub)
  | [] => [x]
  | y :: ys => if x.2.nid.toNat < y.2.nid.toNat then x :: y :: ys else y :: insertPub x ys

/-- The entries whose notices are kept for a consumer, oldest first (R351, R420). -/
def Port.keptFor (p : Port) (x : Nat) : List (Nat × Pub) :=
  (List.range 64).foldl (fun l i => match p.pub i with
    | some b => if b.kept.contains x then insertPub (i, b) l else l
    | none => l) []

/-- NOTICE_RESEND (R420): a table-full reply makes the producer keep its notice; a report of a free entry makes it send
the kept ones again, in the order of their publication (R351). -/
def execNoticeResend (msg : Nat) (s : State) : Out :=
  match s.net[msg]? with
  | none => .next s
  | some m =>
    let c := m.dst % 512
    if s.notFirst msg then .next s
    else match m.body with
    | .tableFull nid =>
      let s := s.takeMsg msg
      (match (s.core c).port.find nid with
        | some (i, b) => .next (s.setPub c i (some { b with kept := (b.kept ++ [m.src]).eraseDups }))
        | none => .next s)
    | .entryFree =>
      let s := s.takeMsg msg
      .next (((s.core c).port.keptFor m.src).foldl (fun s x =>
        (s.setPub c x.1 (some { x.2 with kept := x.2.kept.filter (· != m.src) })).send (s.podId c) m.src x.2.group x.2.gen (.notice x.2.info)) s)
    | _ => .next s

/-! Ranking and requests (R353 to R355) -/

/-- Segments outstanding of a port. -/
def Port.outstanding (p : Port) : Nat := p.pulls.foldl (fun n x => n + (x.requested - x.landed)) 0

/-- Whether segments from the producer's die are outstanding. -/
def Port.dieBusy (p : Port) (producer : Nat) : Bool :=
  p.pulls.any (fun x => x.landed < x.requested && x.producer / 512 == producer / 512 && dieOf (x.producer % 512) == dieOf (producer % 512))

/-- Whether an entry is a candidate (R353). -/
def Core.isCand (k : Core) (e : PEntry) : Bool :=
  match e.state with
  | .waiting => k.auto && decide (e.info.size ≤ k.lzsize)
  | .announced => k.auto && decide (e.info.size ≤ k.lzsize)
  | .claimed .. => true
  | _ => false

/-- The key of a criterion (R354). -/
def Core.rankKey (k : Core) (e : PEntry) (code : Nat) : Nat :=
  match code with
  | 1 => 7 - (match e.state with | .claimed _ pri => pri | _ => e.info.prio)
  | 2 => e.info.size
  | 3 => 2 ^ 20 - e.info.size
  | 4 => e.arrival
  | 5 => (match e.state with
    | .claimed .. => 0
    | _ => if e.info.size ≤ k.port.free then k.port.free - e.info.size else 2 ^ 22)
  | 6 => if k.port.dieBusy e.info.producer then 1 else 0
  | _ => 0

/-- Whether key list `a` ranks before `b`. -/
def keysBefore : List Nat → List Nat → Bool
  | [], _ => false
  | _, [] => false
  | a :: as_, b :: bs => decide (a < b) || (a == b && keysBefore as_ bs)

/-- All keys of an entry, ending with its arrival order: by cycle, and within a cycle by producer (R351). -/
def Core.rankKeys (k : Core) (e : PEntry) : List Nat :=
  let r := (k.reg 0x352).toNat
  [r % 16, r / 16 % 16, r / 256 % 16, r / 4096 % 16].map (k.rankKey e) ++ [e.arrival, e.info.producer, e.order]

/-- The first-ranked candidate (R354). -/
def Core.firstCand (k : Core) : Option PEntry :=
  k.port.table.foldl (fun best e =>
    if k.isCand e then
      (match best with
        | some b => if keysBefore (k.rankKeys e) (k.rankKeys b) then some e else some b
        | none => some e)
    else best) none

/-- The notice that the port would start now, with its landing space (R354). -/
def Core.portPick (k : Core) : Option (PEntry × Land) :=
  if k.port.pulls.any (fun p => !p.dead && decide (p.requested * 512 < p.size)) then none
  else match k.firstCand with
    | some e =>
      (match e.state with
        | .claimed l _ => some (e, l)
        | _ => if e.info.size ≤ k.port.free then some (e, .ring k.port.wr) else none)
    | none => none

/-- The chain of a pull's word; 3 for a ring pull. -/
def Land.chain : Land → Nat
  | .ring _ => 3 | .sp _ _ n => n | .glob _ n => n | .cred _ _ n => n

/-- The agent that lands a pull from producer `pod` (R234, R321). -/
def landAgent (c : Nat) (l : Land) (pod : Nat) : Agent := if l.chain = 4 then .coll (dieOf c) (strandOf pod) else .port c (strandOf pod)

/-- PORT_START (R354): a ring candidate reserves its bytes; a claimed notice starts at once. -/
def execPortStart (s : State) : Out :=
  let c := s.cur.core
  match (s.core c).portPick with
  | none => .next s
  | some (e, l) =>
    let z := (s.core c).lzsize
    let n := e.info.size
    let s := s.modEntry c e.info.nid (fun e => { e with state := .pulling })
    let s := s.acquire (landAgent c l e.info.producer) e.clock
    .next (s.modPort c (fun p =>
      let p := { p with pulls := p.pulls ++
        [{ nid := e.info.nid, producer := e.info.producer, size := n, requested := 0, landed := 0, land := l, dead := false }] }
      match l with
      | .ring _ => { p with wr := (p.wr + n) % z, free := p.free - n, resv := p.resv ++ [{ nid := e.info.nid, size := n, land := 0 }] }
      | _ => p))

/-- The number of arguments that the word at a micro-PC takes, for a word that waits for a notice. -/
def waitArgs (w : Nat) : Nat :=
  match decodeEngine w with
  | some .ewCredP => 3 | some .ewDecl => 1 | _ => 2

/-- The word that waits for notice `nid` completes (R323): its arguments leave the stack. -/
def State.wordDone (s : State) (c : Nat) (nid : Word) : State :=
  [3, 4].foldl (fun s n =>
    match ((s.core c).chain n).run with
    | some q =>
      if q.pull = some nid then
        let k := waitArgs (s.slotWord c n q.seq q.upc)
        let s := s.acquire (.cmd c n q.seq) (s.clockOf (.port c 0))
        s.modCmd c n (fun q => { q with pull := none, stack := q.stack.drop k, upc := q.upc + 1, next := s.gtc + 1 })
      else s
    | none => s) s

/-- A pull ends at the port without (more) data (R356): ring bytes count as landed, words complete, a REFUSED record. -/
def State.endRefused (s : State) (c : Nat) (x : Pull) (info : NoticeInfo) : State :=
  let s := s.modPort c (fun p => { p with
    pulls := p.pulls.filter (fun y => y.nid != x.nid)
    resv := p.resv.map (fun r => if r.nid = x.nid then { r with land := r.size } else r) })
  let s := s.modEntry c x.nid (fun e => { e with state := .refused })
  let off := match x.land with | .ring o => o | _ => noOffset
  (s.wordDone c x.nid).arrivalRecord c info 2 off {}

/-- The next segment that the port may request (R355). -/
def State.nextSeg (s : State) (c : Nat) : Option Pull :=
  let k := s.core c
  let pace := k.reg 0x353
  let gap := match k.port.lastReq with
    | some t => decide (t + fld pace 7 0 ≤ s.gtc)
    | none => true
  if gap && decide (k.port.outstanding < fld pace 31 16) then
    k.port.pulls.find? (fun p => !p.dead && decide (p.requested * 512 < p.size))
  else none

/-- The producer is told to end a pull that the port has ended, without counting it (R239, R422); where there is no route, the message is held. -/
def State.endPull (s : State) (c : Nat) (x : Pull) (e : PEntry) : State :=
  if x.requested = 0 then s else s.send (s.podId c) x.producer e.group e.gen (.pullEnd x.nid)

/-- SEGMENT_REQUEST (R355); without a route the pull ends as refused (R422). -/
def execSegmentRequest (s : State) : Out :=
  let c := s.cur.core
  match s.nextSeg c with
  | none => .next s
  | some x =>
    match (s.core c).port.entry x.nid with
    | none => .next s
    | some e =>
      if x.producer / 512 ≠ s.pkg ∧ (s.routeLink (x.producer / 512)).isNone then .next ((s.unreach.endRefused c x e.info).endPull c x e)
      else
        let s := s.modPort c (fun p => { p with
          lastReq := some s.gtc
          pulls := p.pulls.map (fun y => if y.nid = x.nid then { y with requested := y.requested + 1 } else y) })
        .next (s.send (s.podId c) x.producer e.group e.gen (.segReq x.nid x.requested))

/-- The agent that reads a block for consumer `pod`: the one that lands the pull (R230, R321). -/
def State.consumer (s : State) (pod : Nat) (nid : Word) (producer : Nat) : Agent :=
  if pod / 512 = s.pkg then
    (match (s.core (pod % 512)).port.pulls.find? (fun x => x.nid == nid) with
      | some x => landAgent (pod % 512) x.land producer
      | none => .port (pod % 512) (strandOf producer))
  else farPort pod

/-- A pull at port `c` waits for a held line since a cycle, or no more (R245). -/
def State.pullWaits (s : State) (c : Nat) (nid : Word) (since : Option Nat) : State :=
  s.modPort c (fun p => { p with pulls := p.pulls.map (fun y => if y.nid = nid then { y with refused := since } else y) })

/-- PULL_BEGIN (R348): a segment request reaches the producer; the first begins the pull or is refused. A request from another package that
finds no response credit is held (R420). -/
def execPullBegin (msg : Nat) (s : State) : Out :=
  match s.net[msg]? with
  | none => .next s
  | some m =>
    match m.body with
    | .segReq nid seg =>
      let c := m.dst % 512
      if s.notFirst msg then .next s
      else if s.stale m then .next ((s.takeMsg msg).dropStale m (dieOf c))
      else
        let refused (s : State) : State := s.send (s.podId c) m.src m.group m.gen (.refuse nid)
        match (s.core c).port.find nid with
        | none => .next (refused (s.takeMsg msg))
        | some (i, b) =>
          let ok := if seg = 0 then !b.expired && decide (0 < b.count) && !b.begun.contains m.src else b.pulling.contains m.src
          if !ok || b.info.size ≤ seg * 512 then .next (refused (s.takeMsg msg))
          else if m.src / 512 ≠ s.pkg ∧ s.responseRoom (m.src / 512) < flitCount (.segData nid seg (List.replicate 512 0)) then .next s
          else
            let b := if seg = 0 then { b with pulling := b.pulling ++ [m.src], begun := b.begun ++ [m.src] } else b
            let ps := viaPages b.frames (b.loc + 512 * seg) 512
            let parts : List Part := ps.map (fun p =>
              { pa := p.1, len := p.2, leaf := (b.frames.find? (fun l => decide (l.frame ≤ p.1) && decide (p.1 < l.frame + l.size))).getD spLeaf })
            let a := s.consumer m.src nid (s.podId c)
            let own := m.src / 512 = s.pkg
            -- a fault of the reader goes to the firmware of its unit (R239); another package's is reported here (log 95)
            let rc := if own then m.src % 512 else c
            let chain := if a.path = .coll then 4 else 3
            let fail (s : State) (cause addr : Nat) (other : Word) : State :=
              refused ((((s.takeMsg msg).portFault rc chain cause addr other).settlePub c i { b with pulling := b.pulling.filter (· != m.src) }).calm a)
            match (s.acquire a b.clock).engRead rc a parts with
            | .ok (s, data) =>
              let s := (s.takeMsg msg).setPub c i (some b)
              let s := if own then s.pullWaits rc nid none else s
              .next (s.send (s.podId c) m.src m.group m.gen (.segData nid seg data))
            | .error (.fault cause _ addr other) => .next (fail s cause addr other)
            | .error (.retry t l w) =>
              let since := s.refusedAt a l
              if since + 2 ^ 20 ≤ s.gtc then .next (fail s 0x23 (64 * l) w)
              else .next ((if own then s.pullWaits rc nid (some since) else s).refuse t l since)
            | .error .hold => .next s
    | _ => .next s

/-- The command that claimed a pull, with its runs. -/
def State.claimer (s : State) (c n : Nat) : Option (Cmd × Enq) :=
  match ((s.core c).chain n).run with
  | some q => (((s.core c).chain n).enq q.seq).map (fun e => (q, e))
  | none => none

/-- An outcome of a landing: what has landed, the lines of the segment that have, and why it has not landed whole. -/
def landed (s : State) (r : Except WErr State) : State × Nat × Option WErr :=
  match r with
  | .ok t => (t, 0, none)
  | .error e => (s, 0, some e)

/-- Write one landed segment where the pull lands (R321, R323, R355). -/
def State.landSeg (s : State) (c : Nat) (x : Pull) (seg : Nat) (data : List Byte) : State × Nat × Option WErr :=
  let a := landAgent c x.land x.producer
  match x.land with
  | .ring off =>
    -- a launch that has entered since has taken the ring away (log 20)
    if !((s.core c).port.resv.any (fun r => r.nid == x.nid)) then (s, 0, none)
    else
      let e := (s.core c).lzbase + (off + 512 * seg) % (s.core c).lzsize
      let ps : List Part := [{ pa := spAddr c e, len := data.length, leaf := spLeaf }]
      landed s (s.engWrite c a .core false ps data)
  | .sp addr swz _ =>
    let ps : List Part := (spPieces swz (addr + 512 * seg) data.length).map (fun p => { pa := spAddr c p.1, len := p.2, leaf := spLeaf })
    landed s (s.engWrite c a .core false ps data)
  | .glob pa n =>
    match s.claimer c n with
    | some (q, e) => landed s do
      let ps ← resolve (runsOf (s.slotWords c n q.seq) e.vas) e.pages true (pa + 512 * seg) data.length
      s.engWrite c a e.scope false ps data
    | none => (s, 0, none)
  | .cred pa op n =>
    match s.claimer c n, credOp (BitVec.ofNat 64 op) with
    | some (q, e), some o =>
      -- the lines of the segment land in increasing order; those below a refused one stay landed (R320)
      let x' : WCtx := { s.wctx q e with c := c, n := n, runs := runsOf (s.slotWords c n q.seq) e.vas }
      match x'.lines (pa + 512 * seg) (data.length / 64) with
      | .error err => (s, 0, some err)
      | .ok ds => s.credLines c a o (ds.drop x.lines) (data.drop (64 * x.lines)) x.lines
    | _, _ => (s, 0, none)

/-- A landing is refused for good (R239, R356): the pull ends at the port, and the producer ends it without counting it. A counted line that is
refused by its round faults the word (R320), which does not complete. -/
def State.landFault (s : State) (c : Nat) (x : Pull) (e : PEntry) (cause sub addr : Nat) (other : Word) : State :=
  let s := s.endPull c x e
  let s :=
    if cause = 0x30 then
      let s := s.modCmd c x.land.chain (fun q => { q with pull := none })
      (s.endRefused c x e.info).cmdFault c x.land.chain cause sub addr other
    else (s.portFault c x.land.chain cause addr other).endRefused c x e.info
  s.calm (landAgent c x.land x.producer)

/-- The last segment of a pull has landed: a release at core scope, the record, the acknowledgement (R355, R357). -/
def State.pullLanded (s : State) (c : Nat) (x : Pull) (e : PEntry) : State :=
  let (s, k) := s.release (landAgent c x.land x.producer) .core
  let s := s.acquire (.port c 0) k
  let s := s.modPort c (fun p => { p with pulls := p.pulls.filter (fun y => y.nid != x.nid) })
  let s := s.modEntry c x.nid (fun e => { e with state := .landed })
  let off := match x.land with | .ring o => o | _ => noOffset
  let s := s.arrivalRecord c e.info 0 off (k.join e.clock)
  let s := if x.producer / 512 = s.pkg then s else s.wordDone c x.nid
  s.send (s.podId c) x.producer e.group e.gen (.ack x.nid)

/-- SEGMENT_LAND (R355, R239, R320, R356): segments from one die land in the order of their requests. A landing that a held line refuses is
tried again, for at most 2^20 cycles (R245). -/
def execSegmentLand (msg : Nat) (s : State) : Out :=
  match s.net[msg]? with
  | none => .next s
  | some m =>
    match m.body with
    | .segData nid seg data =>
      let c := m.dst % 512
      if s.notFirst msg then .next s
      else if s.stale m then .next ((s.takeMsg msg).dropStale m (dieOf c))
      else
        match (s.core c).port.pulls.find? (fun p => p.nid == nid), (s.core c).port.entry nid with
        | some x, some e =>
          (match s.landSeg c x seg data with
            | (t, n, some (.retry w l o)) =>
              let since := if n = x.lines then x.refused.getD s.gtc else s.gtc
              if since + 2 ^ 20 ≤ s.gtc then .next ((t.takeMsg msg).landFault c x e 0x23 0 (64 * l) o)
              else
                let t := t.modPort c (fun p => { p with
                  pulls := p.pulls.map (fun y => if y.nid = nid then { y with refused := some since, lines := n } else y) })
                .next (t.refuse w l since)
            | (_, _, some .hold) => .next s
            | (t, _, some (.fault cause sub addr other)) => .next ((t.takeMsg msg).landFault c x e cause sub addr other)
            | (t, _, none) =>
              let t := t.takeMsg msg
              let t := t.modPort c (fun p => { p with
                pulls := p.pulls.map (fun y => if y.nid = nid then { y with landed := y.landed + 1, refused := none, lines := 0 } else y)
                resv := p.resv.map (fun r => if r.nid = nid then { r with land := r.land + data.length } else r) })
              if (x.landed + 1) * 512 < x.size then .next t else .next (t.pullLanded c x e))
        | _, _ => .next (s.takeMsg msg)
    | _ => .next s

/-- PULL_COMPLETE (R348): the acknowledgement reaches the producer. -/
def execPullComplete (msg : Nat) (s : State) : Out :=
  match s.net[msg]? with
  | none => .next s
  | some m =>
    match m.body with
    | .ack nid =>
      let c := m.dst % 512
      let s := s.takeMsg msg
      let own := m.src / 512 = s.pkg
      let k := if own then s.clockOf (.port (m.src % 512) 0) else {}
      let s := if own then s.wordDone (m.src % 512) nid else s
      (match (s.core c).port.find nid with
        | some (i, b) => .next (s.settlePub c i (b.complete m.src k))
        | none => .next s)
    | _ => .next s

/-- DECLINE_ARRIVAL (R348). -/
def execDeclineArrival (msg : Nat) (s : State) : Out :=
  match s.net[msg]? with
  | none => .next s
  | some m =>
    match m.body with
    | .decline nid =>
      let c := m.dst % 512
      let s := s.takeMsg msg
      if s.stale m then .next (s.dropStale m (dieOf c))
      else
        let s := if m.src / 512 = s.pkg then s.wordDone (m.src % 512) nid else s
        (match (s.core c).port.find nid with
          | some (i, b) => .next (s.settlePub c i (b.complete m.src {}))
          | none => .next s)
    | _ => .next s

/-- WITHDRAWAL_ARRIVAL (R356): at a port it removes an entry that has not begun; at a producer it ends a pull there without
reducing the count (R239, R422). -/
def execWithdrawalArrival (msg : Nat) (s : State) : Out :=
  match s.net[msg]? with
  | none => .next s
  | some m =>
    let c := m.dst % 512
    match m.body with
    | .withdraw nid =>
      let s := s.takeMsg msg
      (match (s.core c).port.entry nid with
        | some e =>
          let begun := match e.state with
            | .waiting => false | .announced => false | .claimed .. => false | _ => true
          if begun then .next s
          else
            let s := s.modEntry c nid (fun e => { e with state := .refused })
            .next ((s.wordDone c nid).arrivalRecord c e.info 2 noOffset {})
        | none =>
          -- one that was turned away will not come again; what stands behind it may (R351)
          let held := (s.core c).port.turned.any (fun x => x.2 == nid)
          let s := s.modPort c (fun p => { p with turned := p.turned.filter (fun x => x.2 != nid) })
          .next (if held ∧ (s.core c).port.table.length < 64 then s.tellFree c else s))
    | .pullEnd nid =>
      let s := s.takeMsg msg
      (match (s.core c).port.find nid with
        | some (i, b) => .next (s.settlePub c i { b with pulling := b.pulling.filter (· != m.src) })
        | none => .next s)
    | _ => .next s

/-- PULL_REFUSED (R356). -/
def execPullRefused (msg : Nat) (s : State) : Out :=
  match s.net[msg]? with
  | none => .next s
  | some m =>
    match m.body with
    | .refuse nid =>
      let c := m.dst % 512
      let s := s.takeMsg msg
      (match (s.core c).port.pulls.find? (fun p => p.nid == nid), (s.core c).port.entry nid with
        | some x, some e => .next (s.endRefused c x e.info)
        | _, _ => .next s)
    | _ => .next s

/-! Expiry and reclaim (R349) -/

/-- Whether a notice expires now. -/
def Pub.expires (b : Pub) (gtc : Nat) : Bool := !b.expired && decide (0 < b.count) && decide (b.expiry ≤ gtc)

/-- NOTICE_EXPIRY (R349). -/
def execNoticeExpiry (s : State) : Out :=
  let c := s.cur.core
  match (s.core c).port.pub s.cur.pub with
  | some b =>
    if b.expires s.gtc then
      let s := s.withdraw c b
      .next (s.setPub c s.cur.pub (some { b with expired := true, kept := [] }))
    else .next s
  | none => .next s

/-- The launch that ran on core `c` under an epoch has been pre-empted there and comes back (R407, R408). -/
def State.comesBack (s : State) (c e : Nat) : Bool :=
  (s.core c).epoch != e && s.launches.any (fun l => SMap.get 0 l.epochs c == e && !l.ended.contains c &&
    (l.state == .saved || l.state == .ready || (l.resumed && l.toReport.contains c)))

/-- Where a reclaim trap goes: the context that issued the NOTICE if it has not ended, else firmware (R349); `none` while that context is
stopped, or away. -/
def State.reclaimTo (s : State) (c : Nat) (b : Pub) : Option (Option Role) :=
  let k := s.core c
  let x := k.ctx b.role
  if b.note then some none
  else if s.comesBack c b.epoch then none
  else if k.epoch != b.epoch || k.launch == 0 || x.run == .ended || x.run == .idle || x.run == .failed then some none
  else if x.run = .running ∨ x.run = .sleeping then some (some b.role)
  else none

/-- Raise 0x33 for a notice (R349). -/
def State.raiseReclaim (s : State) (c i : Nat) (b : Pub) : State :=
  match s.reclaimTo c b with
  | some (some r) =>
    let in_ := if s.delegated c r 0x33 then some (r, b.epoch) else none
    (s.setPub c i (some { b with raised := true, trapAt := none, raisedIn := in_ })).takeTrap c r 0x33 0 b.nid 0 (s.ctx c r).pc
  | some none =>
    (s.setPub c i (some { b with raised := true, trapAt := none, raisedIn := none })).report c
      { cause := 0x33, src := 0, ctx := 3, val := b.nid }
  | none => s

/-- The first reclaim trap of an expired notice is due (R349 step 4). -/
def Pub.reclaimDue (b : Pub) : Bool := b.expired && b.pulling.isEmpty && !b.raised && b.trapAt.isNone && decide (0 < b.count)

/-- RECLAIM_TRAP (R349). -/
def execReclaimTrap (s : State) : Out :=
  match (s.core s.cur.core).port.pub s.cur.pub with
  | some b => if b.reclaimDue then .next (s.raiseReclaim s.cur.core s.cur.pub b) else .next s
  | none => .next s

/-- The reclaim trap of a notice is due again (R349 step 5). -/
def Pub.repeatDue (b : Pub) (gtc : Nat) : Bool :=
  !b.raised && (match b.trapAt with | some t => decide (t ≤ gtc) | none => false)

/-- RECLAIM_REPEAT (R349). -/
def execReclaimRepeat (s : State) : Out :=
  match (s.core s.cur.core).port.pub s.cur.pub with
  | some b => if b.repeatDue s.gtc then .next (s.raiseReclaim s.cur.core s.cur.pub b) else .next s
  | none => .next s

/-- The handler of a reclaim ends: with `release` the block is unpinned, else the trap is raised again (R349, R382). -/
def State.endReclaim (s : State) (c : Nat) (nid : Word) (release : Bool) : State :=
  match (s.core c).port.find nid with
  | some (i, b) =>
    if release then s.unpin c i b
    else if b.raised then s.setPub c i (some { b with raised := false, raisedIn := none, trapAt := some (s.gtc + b.timeout) })
    else s
  | none => s

/-- The reclaims of a core that are handled where `p` says end without release (R349). -/
def State.rearm (s : State) (c : Nat) (p : Pub → Bool) : State :=
  (List.range 64).foldl (fun s i => match (s.core c).port.pub i with
    | some b => if b.raised && p b then s.endReclaim c b.nid false else s
    | none => s) s

/-- The reclaim that firmware handles: its report has been taken, and firmware has not returned since (R374). -/
def State.handledByFirmware (s : State) (c : Nat) (b : Pub) : Bool :=
  b.raisedIn.isNone && !(s.core c).reports.any (fun r => r.cause == 0x33 && r.val == b.nid)

/-- A delegated reclaim whose handler will not end: its context has ended, or has lost UCAUSE.ACTIVE by another hand than its own. It is raised
again, TIMEOUT cycles after that (DESIGN CHOICE, log 97). -/
def State.orphaned (s : State) (c : Nat) (b : Pub) : Bool :=
  b.raised && (match b.raisedIn with
    | some (r, e) =>
      let x := s.ctx c r
      !s.comesBack c e && ((s.core c).epoch != e || x.run == .ended || x.run == .idle || x.run == .failed ||
        !Nat.testBit (x.reg 0x412).toNat 62)
    | none => false)

/-- What a publication table does by itself: an addition at DONEADDR that waits is tried again (R245, R350), and an orphaned reclaim is armed
again. `none` where nothing changes. -/
def State.pubTurn (s : State) (c : Nat) : Option State :=
  (List.range 64).findSome? (fun i => match (s.core c).port.pub i with
    | some b =>
      if b.doneSince.isSome then
        let t := s.countDone c i b
        if (t.core c).port.pub i = some b then none else some t
      else if s.orphaned c b then some (s.endReclaim c b.nid false)
      else none
    | none => none)

/-! The consumer instructions (R358 to R361) -/

/-- Whether an entry is free for a decline or a claim (R323, R359). -/
def PEntry.unclaimed (e : PEntry) : Bool := match e.state with | .waiting => true | .announced => true | _ => false

/-- Remove the entry of a notice and send its decline (R359). -/
def State.sendDecline (s : State) (c : Nat) (e : PEntry) : State :=
  (s.freeEntry c e.info.nid).send (s.podId c) e.info.producer e.group e.gen (.decline e.info.nid)

/-- DECLINE (R359). -/
def execDecline (h : Hdr) (d a : GReg) (s : State) : Out :=
  issue h .all [s.gT a] [s.gT d] (fun s =>
    let c := s.cur.core
    match (s.core c).port.entry (s.g a) with
    | some e => if e.unclaimed then .done ((s.sendDecline c e).putG d 0 none) else .done (s.putG d 1 none)
    | none => .done (s.putG d 1 none)) s

/-- Take `n` bytes off the reservations in ring order. -/
def takeRing : List Resv → Nat → Nat → List Resv × Nat
  | [], _, _ => ([], 0)
  | r :: rs, given, n => if r.size ≤ given + n then takeRing rs 0 (given + n - r.size) else (r :: rs, given + n)

/-- The spans of `n` bytes of a ring from offset `off`. -/
def ringSpans (base size off n : Nat) : List (Nat × Nat) :=
  if off + n ≤ size then [(base + off, n)] else [(base + off, size - off), (base, n - (size - off))]

/-- The parts of a recorded access: those in a span, marked, and those outside. -/
def Access.mark (x : Access) (lo n : Nat) (by_ : Agent × Nat) : List Access :=
  if !overlap x.lo x.len lo n then [x]
  else
    let a := Nat.max x.lo lo
    let b := Nat.min (x.lo + x.len) (lo + n)
    [{ x with lo := x.lo, len := a - x.lo }, { x with lo := a, len := b - a, returned := some by_ },
     { x with lo := b, len := x.lo + x.len - b }].filter (fun y => y.len != 0)

/-- The accesses of the core to the spans that happen before what agent `a` does now are returned with them (R360): those of the core and gathering
paths, and those of another path that an earlier XFENCE orders before the gathering path (R248). -/
def State.returnBytes (s : State) (a : Agent) (c : Nat) (spans : List (Nat × Nat)) : State :=
  let (s, k) := s.stamp a
  let mine (x : Access) : Bool := x.agent.core? == some c &&
    (if x.path == .core || x.path == .gath then decide (x.time ≤ SMap.get 0 k.vc x.agent.code) else k.knows x .gath)
  let t := SMap.get 0 k.vc a.code
  { s with order := { s.order with accesses := spans.foldl (fun l p =>
      l.flatMap (fun x => if mine x then x.mark p.1 p.2 (a, t) else [x])) s.order.accesses } }

/-- PULLREL (R360): for the bytes that it returns also an XFENCE naming `core` and `gath`. -/
def execPullrel (h : Hdr) (a : GReg) (s : State) : Out :=
  issue h .all [s.gT a] [] (fun s =>
    let c := s.cur.core
    let p := (s.core c).port
    let n := (s.g a).toNat
    if n % 512 ≠ 0 ∨ n < 512 ∨ p.landed < n then .trap 0x02 0 0 0
    else
      let z := (s.core c).lzsize
      let s := s.returnBytes s.me c (ringSpans (spAddr c (s.core c).lzbase) z p.rd n)
      .done (s.modPort c (fun p =>
        let (rs, g) := takeRing p.resv p.given n
        { p with rd := (p.rd + n) % z, free := p.free + n, resv := rs, given := g }))) s

/-- The 32 bytes of an arrival record (R357). -/
def recordBytes (r : Arrival) : List Byte :=
  leBytes 8 r.info.nid.toNat ++ leBytes 4 r.info.tag.toNat ++ leBytes 4 r.info.size ++ leBytes 4 r.off ++
    leBytes 2 r.info.producer ++ leBytes 1 r.status ++ leBytes 1 r.info.prio ++ leBytes 8 r.gtc

/-- NRECV (R361). -/
def execNrecv (h : Hdr) (d a : GReg) (s : State) : Out :=
  issue h .all [s.gT a] [s.gT d] (fun s =>
    let c := s.cur.core
    let e := s.g a
    if e.toNat % 32 ≠ 0 then .trap 0x06 0 e 0
    else match (s.core c).port.recs with
      | [] => .done (s.putG d 0 none)
      | r :: rest =>
        if (s.spCheck c s.cur.role e 32 1).isSome then .trap 0x05 0 e 0
        else s.spStore [(e.toNat, 32)] (recordBytes r) (fun s =>
          let s := s.modPort c (fun p => { p with recs := rest })
          let s := if r.status = 1 then s else s.freeEntry c r.info.nid
          let s := if r.status = 0 then s.acquire s.me r.clock else s
          .done (s.putG d 1 none))) s

/-! NOTE, PULL, DECL, CRED.p (R321 to R323) -/

/-- NOTE (R322). -/
def execEwNote (s : State) : Out :=
  engineWord (fun s q e => WRes.of do
    let x := s.wctx q e
    let (d, pa, res, q') ← q.pop3
    let dp ← x.sp s q d.toNat 64 8
    let rp ← x.sp s q res.toNat 8 8
    let (s, bs) ← s.engRead x.c x.agent dp
    let ds ← match parseDesc bs false with
      | some v => pure v
      | none => throw (.eng 3 0)
    if pa.toNat % 64 ≠ 0 then throw (.eng 3 0)
    let run ← match x.runs.find? (fun r => decide (r.pa ≤ pa.toNat) && decide (pa.toNat + ds.size ≤ r.pa + r.len)) with
      | some r => pure r
      | none => throw (.eng 1 pa.toNat)
    -- the block lies in one window, and is read and pinned through it (R322)
    let ps ← resolve [run] e.pages false pa.toNat ds.size
    let done ← if ds.done = 0 then pure none
      else do
        let dps ← x.glob true ds.done 8
        pure (dps.head?.map (fun p => (p.pa, p.leaf)))
    match (s.core x.c).port.freePub with
    | none => throw .hold
    | some i =>
      if s.entryAhead x.c (some x.n) (q.held.getD s.gtc) then throw .hold
      let ds := { ds with prio := q.pri.getD ds.prio }
      let (s, k) := s.noticeClock x.agent
      let (s, nid) := s.publish x.c i ds (run.va + (pa.toNat - run.pa)) (ps.map (·.leaf)).eraseDups done (s.aspaceOf x.c e.role) true e.role k
      let s ← s.engWrite x.c x.agent e.scope false rp (leBytes 8 nid.toNat)
      pure (s, q')) s

/-- A word claims notice `nid` for landing at `l` (R353); the port learns what its command knows. -/
def State.claim (s : State) (c : Nat) (q : Cmd) (a : Agent) (e : PEntry) (l : Land) : State :=
  let (s, k) := s.stamp a
  let s := s.acquire (landAgent c l e.info.producer) k
  s.modEntry c e.info.nid (fun e => { e with state := .claimed l (q.pri.getD e.info.prio) })

/-- The unclaimed entry that a word names (R323). -/
def State.wordEntry (s : State) (c : Nat) (h : Word) : Except WErr PEntry :=
  match (s.core c).port.entry h with
  | some e => if e.unclaimed then .ok e else .error (.eng 3 0)
  | none => .error (.eng 3 0)

/-- A word that waits for its notice does nothing more until the pull or decline completes. -/
def pullWord (body : State → Cmd → WCtx → Except WErr (State × Word)) (s : State) : Out :=
  engineWord (fun s q e =>
    if q.pull.isSome then .wait s q
    else
      match body s q (s.wctx q e) with
      | .ok (s, h) => .wait s { q with pull := some h }
      | .error err => .fail err) s

/-- PULL.s (R323). -/
def execEwPullS (s : State) : Out :=
  pullWord (fun s q x => do
    let (h, dst, _) ← q.pop2
    let e ← s.wordEntry x.c h
    let _ ← x.sp s q dst.toNat e.info.size 64
    pure (s.claim x.c q x.agent e (.sp dst.toNat q.swz x.n), h)) s

/-- PULL.g (R323). -/
def execEwPullG (s : State) : Out :=
  pullWord (fun s q x => do
    let (h, dst, _) ← q.pop2
    let e ← s.wordEntry x.c h
    if dst.toNat % 64 ≠ 0 then throw (.eng 3 0)
    let _ ← x.glob true dst.toNat e.info.size
    pure (s.claim x.c q x.agent e (.glob dst.toNat x.n), h)) s

/-- CRED.p (R321). -/
def execEwCredP (s : State) : Out :=
  pullWord (fun s q x => do
    let (dst, h, op, _) ← q.pop3
    if !credOk op || dst.toNat % 64 != 0 then throw (.eng 3 0)
    let e ← s.wordEntry x.c h
    let _ ← x.glob true dst.toNat e.info.size
    pure (s.claim x.c q x.agent e (.cred dst.toNat op.toNat x.n), h)) s

/-- DECL (R323): it completes as the decline arrives; towards another package, as it is sent. -/
def execEwDecl (s : State) : Out :=
  engineWord (fun s q e =>
    let x := s.wctx q e
    if q.pull.isSome then .wait s q
    else
      match q.pop with
      | .error err => .fail err
      | .ok (h, q') =>
        match s.wordEntry x.c h with
        | .error err => .fail err
        | .ok e =>
          let s := s.sendDecline x.c e
          if e.info.producer / 512 = s.pkg then .wait s { q with pull := some h } else .step s q' 1) s

/-- NOTICE_ENTRY_FREE (R346): a waiting NOTICE issues again. -/
def execNoticeEntryFree (s : State) : Out :=
  match (s.ctx s.cur.core s.cur.role).run, (s.ctx s.cur.core s.cur.role).wait with
  | .sleeping, some (.entry _) => .next (s.wake s.cur.core s.cur.role)
  | _, _ => .next s

end Sys2Proof.Machine
end

