-- ==== Sys2Proof/Machine/Parallel.lean ====
section
/-! DEFINITION. The parallel instructions inside a launch: walkers, tokens, streams, lane queues, barriers, pipeline rings and
safe points (spec 08 R160 to R181, 09 R191 to R206). -/
namespace Sys2Proof.Machine

/-! Indices and walkers (R171 to R178) -/

/-- The least b with 2^b at least e (R172). -/
def mortonBits (e : Nat) : Nat := if e ≤ 1 then 0 else Nat.log2 (e - 1) + 1

/-- Deinterleave the low bits of i over three dimensions of b0, b1 and b2 bits (R172); `fuel` bounds the bits. -/
def mortonSplit : Nat → Nat → Nat → List Nat → List Nat → List Nat → List Nat
  | 0, _, _, _, _, acc => acc
  | fuel + 1, i, d, bs, done, acc =>
    let full (d : Nat) : Bool := decide (bs.getD d 0 ≤ done.getD d 0)
    if full 0 && full 1 && full 2 then acc
    else if full d then mortonSplit fuel i ((d + 1) % 3) bs done acc
    else mortonSplit fuel (i / 2) ((d + 1) % 3) bs (done.set d (done.getD d 0 + 1))
      (acc.set d (acc.getD d 0 + i % 2 * 2 ^ done.getD d 0))

/-- N of a launch (R171, R172). -/
def indexCount (order : Nat) (ext : List Nat) : Nat :=
  if order = 3 then (ext.map (fun e => 2 ^ mortonBits e)).foldl (· * ·) 1 else ext.foldl (· * ·) 1

/-- The coordinates of index i (R171). -/
def coordsOf (order : Nat) (ext : List Nat) (i : Nat) : List Nat :=
  let e0 := ext.getD 0 1
  let e1 := ext.getD 1 1
  let e2 := ext.getD 2 1
  match order with
  | 1 => [i / (e2 * e1), i / e2 % e1, i % e2]
  | 2 =>
    let x0 := i % e0
    let x1 := i / e0 % e1
    [if i / e0 % 2 = 1 then e0 - 1 - x0 else x0, if i / (e0 * e1) % 2 = 1 then e1 - 1 - x1 else x1, i / (e0 * e1)]
  | 3 => mortonSplit 400 i 0 (ext.map mortonBits) [0, 0, 0] [0, 0, 0]
  | _ => [i % e0, i / e0 % e1, i / (e0 * e1)]

/-- A hole of the Morton order (R172). -/
def isHole (order : Nat) (ext : List Nat) (i : Nat) : Bool :=
  order == 3 && (List.zipWith (fun x e => decide (e ≤ x)) (coordsOf order ext i) ext).any id

/-- The walker of launch `q` in a quire. -/
def Quire.walker (u : Quire) (q : Nat) : Option Walker := u.walkers.find? (fun w => w.launch == q)
/-- Change the walker of launch `q` in quire `u`. -/
def State.modWalker (s : State) (u q : Nat) (f : Walker → Walker) : State :=
  s.modQuire u (fun x => { x with walkers := x.walkers.map (fun w => if w.launch = q then f w else w) })

/-- The quires of a mask. -/
def quiresOf (mask : Nat) : List Nat := (List.range Config.nQuires).filter (Nat.testBit mask)
/-- The cores of the quires of a mask. -/
def coresOf (mask : Nat) : List Nat := (quiresOf mask).flatMap (fun u => (List.range 8).map (fun i => 8 * u + i))

/-- Skip holes from lo on (R175). -/
def skipHoles (order : Nat) (ext : List Nat) (hi : Nat) : Nat → Nat → Nat
  | 0, lo => lo
  | fuel + 1, lo => if lo < hi ∧ isHole order ext lo then skipHoles order ext hi fuel (lo + 1) else lo

/-- The victim of a steal for the walker of quire `u` (R175). -/
def State.victim (s : State) (l : Launch) (u : Nat) : Option (Nat × Walker) :=
  let all := (quiresOf l.rcd.qmask).filterMap (fun v =>
    if v = u then none
    else match (s.quire v).walker l.seq with
      | some w => if 2 * l.rcd.grain ≤ w.hi - w.lo ∧ ¬ w.frozen then some (v, w) else none
      | none => none)
  let near := all.filter (fun p => p.1 / 5 == u / 5)
  (if near.isEmpty then all else near).foldl (fun best p => match best with
    | some b => if b.2.hi - b.2.lo < p.2.hi - p.2.lo then some p else some b
    | none => some p) none

/-- The agents that belong to a core now: its contexts, its port with the pulls under way, and its commands (R230). -/
def State.coreAgents (s : State) (c : Nat) : List Agent :=
  let k := s.core c
  trioRoles.map (fun r => Agent.ctx c r k.epoch) ++ [.ctx c .F 0, .port c 0] ++
    (k.port.pulls.map (fun p => strandOf p.producer)).eraseDups.map (fun n => Agent.port c n) ++
    k.chains.flatMap (fun p => p.2.cmds.map (fun e => Agent.cmd c p.1 e.seq))

/-- The wider scope of two quires' instance (R177). -/
def quiresScope (u v : Nat) : Scope := smallestScope (8 * u) [8 * v]

/-- The promotion flush of a split from quire `v` to quire `u` (R177): a release at w of what the agents of the victim's σ instance know at σ
or wider, which widens the lines held at σ or wider that it covers (R244), and an acquire by the thief's quire. A core is no instance that
contains a quire: for σ = `.core` the victim's instance is its whole quire (DESIGN CHOICE, log 91). -/
def State.promote (s : State) (l : Launch) (v u : Nat) : State :=
  let w := quiresScope u v
  let sig := (scopeOf l.rcd.sigscope).getD .core
  if scopeNum w ≤ scopeNum sig then s
  else
    let base := if sig = .core then Scope.quire else sig
    let donors := (List.range Config.nCores).filter (fun c => instOf base c == instOf base (8 * v) && decide (c < Config.nCores))
    let inst := (w, instOf w (8 * v))
    let (s, k) := (donors.flatMap s.coreAgents).foldl (fun (acc : State × Clock) a =>
      let s := (acc.1.stamp a).1.endRegion a
      let k := s.knownAt a sig
      ((s.learn a w k).widenFrom sig k inst, acc.2.join k)) (s, ({} : Clock))
    let s := s.modWalker u l.seq (fun x => { x with clock := x.clock.join k })
    ((List.range 8).flatMap (fun i => s.coreAgents (8 * u + i))).foldl (fun s a => s.acquire a k w) s

/-- What a walker answers. -/
inductive Handout where
  | index (s : State) (i : Nat)
  | finished (s : State)
  | frozen

/-- next_index (R175) for quire `u`: each round hands an index out, or steals a range and looks again. -/
def State.nextIndex (l : Launch) (u : Nat) : Nat → State → Handout
  | 0, s => .finished s
  | fuel + 1, s =>
    match (s.quire u).walker l.seq with
    | none => .finished s
    | some w =>
      if w.frozen then .frozen
      else
        let lo := skipHoles l.rcd.order l.rcd.ext w.hi (w.hi - w.lo) w.lo
        if lo < w.hi then .index (s.modWalker u l.seq (fun w => { w with lo := lo + 1 })) lo
        else
          let s := s.modWalker u l.seq (fun w => { w with lo := lo })
          match s.victim l u with
          | none => .finished s
          | some (v, x) =>
            let m := x.lo + (x.hi - x.lo + 1) / 2
            let s := s.modWalker u l.seq (fun w => { w with lo := m, hi := x.hi })
            let s := s.modWalker v l.seq (fun w => { w with hi := m })
            State.nextIndex l u fuel (s.promote l v u)

/-- HELD of a core (R187). -/
def Core.heldCount (k : Core) : Nat := k.held.length

/-- The core takes index i: it is held, and the core has run an index of the launch (R170, R191). -/
def State.takeIndex (s : State) (c i : Nat) (clk : Clock) : State :=
  let s := s.modCore c (fun k => { k with held := k.held ++ [i] })
  let s := s.modLaunch (s.core c).launch (fun l => { l with ran := if l.ran.contains c then l.ran else l.ran ++ [c] })
  trioRoles.foldl (fun s r => s.acquire (.ctx c r (s.core c).epoch) clk) s

/-- TNEXT (R191): it waits at issue while 16 indices are held. The replay list comes first (R377), then the walkers; `give` writes the
results. -/
def tnextWith (h : Hdr) (d : GReg) (defs : List GReg) (give : State → List Nat → Nat → State) (s : State) : Out :=
  issue h .load [.room] (defs.map s.gT) (fun s =>
    let c := s.cur.core
    let k := s.core c
    let finish (s : State) : Res :=
      .done ((s.modLaunch k.launch (fun l => { l with ends := l.ends ++ [c] })).putG d (BitVec.allOnes 64) none)
    match s.launchOf c with
    | none => finish s
    | some l =>
      if k.stage ≠ 0 then .trap 0x02 0 0 0
      else match k.replay with
        | i :: rest =>
          .done (give ((s.modCore c (fun k => { k with replay := rest })).takeIndex c i {}) (coordsOf l.rcd.order l.rcd.ext i) i)
        | [] =>
          if l.ends.contains c || k.marked then finish s
          else match State.nextIndex l (quireOf c) 2000 s with
            | .frozen => .sleep s .index
            | .finished s => finish s
            | .index s i =>
              let clk := (((s.quire (quireOf c)).walker l.seq).map (·.clock)).getD {}
              .done (give (s.takeIndex c i clk) (coordsOf l.rcd.order l.rcd.ext i) i)) s

/-- TNEXT with coordinates (R191). -/
def execTnext (h : Hdr) (d a b : GReg) (s : State) : Out :=
  tnextWith h d [d, a, b] (fun s xs _ =>
    ((s.putG d (BitVec.ofNat 64 (xs.getD 0 0)) none).putG a (BitVec.ofNat 64 (xs.getD 1 0)) none).putG b
      (BitVec.ofNat 64 (xs.getD 2 0)) none) s

/-- TNEXT `.idx` (R191). -/
def execTnextIdx (h : Hdr) (d : GReg) (s : State) : Out :=
  tnextWith h d [d] (fun s _ i => s.putG d (BitVec.ofNat 64 i) none) s

/-- TDONE (R192). -/
def execTdone (h : Hdr) (sc : Scope) (s : State) : Out :=
  issue h .stor [] [] (fun s =>
    let c := s.cur.core
    match (s.core c).held with
    | [] => .trap 0x02 0 0 0
    | _ :: rest =>
      s.settled (
        let s := s.modCore c (fun k => ({ k with held := rest }).setReg 0x11A (k.reg 0x11A + 1))
        .done (s.release s.me sc).1)) s

/-! Explicit token moves (R193, R194) -/

/-- The FIFOs that a context may pop and push (R64). -/
def popNames (r : Role) (single : Bool) : List Nat :=
  let (a, b, _, _) := tokNames r single
  a.toList ++ b.toList
/-- The FIFOs that a context may push to. -/
def pushNames (r : Role) (single : Bool) : List Nat :=
  let (_, _, a, b) := tokNames r single
  a.toList ++ b.toList

/-- TOKS (R193). -/
def execToks (h : Hdr) (d : GReg) (q : BitVec 2) (s : State) : Out :=
  issue h .trio [] [s.gT d] (fun s =>
    let k := s.core s.cur.core
    if !(popNames s.cur.role k.single).contains q.toNat then .trap 0x10 0 0 0
    else
      let f := k.fifo q.toNat
      let v : Word := if !f.toks.isEmpty then 1 else if f.ended then 2 else 0
      .done (((if v = 0 then s else s.pop q.toNat)).putG d v alu)) s

/-- TOKX (R194): its pushes stand before those of its TOK bits and take room as room appears. -/
def execTokx (h : Hdr) (a : GReg) (q : BitVec 2) (s : State) : Out :=
  issue h .trio [s.gT a] [] (fun s =>
    let k := s.core s.cur.core
    let n := (s.g a).toNat
    if n = 0 ∨ 15 < n ∨ ¬ (pushNames s.cur.role k.single).contains q.toNat then .trap 0x10 0 0 0
    else .done (s.modCtx s.cur.core s.cur.role (fun x => { x with push := List.replicate n [q.toNat] }))) s

/-- TOKEN_POP_READY (R161): an instruction that waits for a FIFO issues again. -/
def execTokenPopReady (s : State) : Out :=
  match (s.ctx s.cur.core s.cur.role).run, (s.ctx s.cur.core s.cur.role).wait with
  | .sleeping, some .pop => .next (s.tryAgain s.cur.core s.cur.role)
  | _, _ => .next s

/-- TOKEN_PUSH_ROOM (R162): waiting pushes are made as far as there is room; after the last one comes what the context still has
to do: stop at its safe point, end, or trap (R119, R206, R387). -/
def execTokenPushRoom (s : State) : Out :=
  let c := s.cur.core
  let r := s.cur.role
  if (s.ctx c r).push.isEmpty ∧ (s.ctx c r).ending.isNone then .next s
  else .next ((s.drain c r s.me (s.ctx c r).push).afterPushes c r s.me)

/-! Streams (R188 to R197) -/

/-- The fields of a stream descriptor (R188). -/
structure Stream where
  tail : Nat
  head : Nat
  rows : Nat
  base : Nat
  esz : Nat

/-- Stream descriptor of a register value. -/
def streamOf (w : Word) : Stream :=
  { tail := fld w 63 44, head := fld w 43 24, rows := fld w 23 13, base := fld w 12 2, esz := fld w 1 0 }
/-- The capacity C in elements. -/
def Stream.cap (t : Stream) : Nat := t.rows * 2048 / 2 ^ t.esz
/-- The register value. -/
def Stream.word (t : Stream) : Word :=
  BitVec.ofNat 64 (t.tail * 2 ^ 44 + t.head * 2 ^ 24 + t.rows * 2 ^ 13 + t.base * 4 + t.esz)
/-- Scratchpad address of element j. -/
def Stream.at (t : Stream) (j : Nat) : Nat := t.base * 2048 + j * 2 ^ t.esz

/-- The descriptor of stream `n` of the current core. -/
def State.stream (s : State) (n : Nat) : Stream := streamOf ((s.core s.cur.core).reg (0x110 + n))
/-- Replace a descriptor. -/
def State.setStream (s : State) (n : Nat) (t : Stream) : State :=
  s.modCore s.cur.core (fun k => k.setReg (0x110 + n) t.word)

/-- Whether a type has the size of the stream's elements (R195). -/
def Stream.fits (t : Stream) (ty : ETy) : Bool := t.rows != 0 && ty != .e2m1 && etyBits ty == 8 * 2 ^ t.esz

/-- The first of `m` elements from `j` on that reaches outside the reservation (R195, R31). -/
def State.streamRange (s : State) (t : Stream) (j m : Nat) (k : Res) : Res :=
  match (List.range m).find? (fun i => (s.spCheck s.cur.core s.cur.role (BitVec.ofNat 64 (t.at (j + i))) (2 ^ t.esz) 1).isSome) with
  | some i => .trap 0x05 0 (BitVec.ofNat 64 (t.at (j + i))) 0
  | none => k

/-- SPUSH (R195). -/
def execSpush (h : Hdr) (k : KReg) (ty : ETy) (sd : BitVec 3) (d : GReg) (a : VReg) (s : State) : Out :=
  issueV h (kT k :: s.vT a) [s.gT d] (fun s =>
    let t := s.stream sd.toNat
    let bits := etyBits ty
    let n := etyLanes ty
    let xs := ((activity (s.kreg k) n 1).zip (lanesOf bits n (s.v a))).filterMap (fun p => if p.1 then some p.2 else none)
    let m := xs.length
    if !t.fits ty then .trap 0x02 0 0 0
    else if t.cap < t.tail + m then .trap 0x11 0 0 0
    else
      let w := 2 ^ t.esz
      let put (s : State) : Res :=
        .done ((s.setStream sd.toNat { t with tail := t.tail + m }).putG d (BitVec.ofNat 64 m) none)
      s.streamRange t t.tail m
        (if m = 0 then put s else s.spStore [(t.at t.tail, m * w)] (leBytes (m * w) (packLanes bits xs)) put)) s

/-- The lanes that take a record: active ones while records last (R196). -/
def takers : List Bool → Nat → List Bool
  | [], _ => []
  | a :: as_, n => if a && decide (0 < n) then true :: takers as_ (n - 1) else false :: takers as_ n

/-- Values placed in the lanes that take one. -/
def dealt : List Bool → List Nat → List Nat
  | [], _ => []
  | true :: ts, x :: xs => x :: dealt ts xs
  | _ :: ts, xs => 0 :: dealt ts xs

/-- SPOP (R196). -/
def execSpop (h : Hdr) (k : KReg) (ty : ETy) (sd : BitVec 3) (d : VReg) (a : KReg) (s : State) : Out :=
  issueV h [kT k] (kT a :: s.vT d) (fun s =>
    let t := s.stream sd.toNat
    let bits := etyBits ty
    let n := etyLanes ty
    if a = 0 ∨ ¬ t.fits ty then .trap 0x02 0 0 0
    else
      let got := takers (activity (s.kreg k) n 1) (t.tail - t.head)
      let m := (got.filter id).length
      let w := 2 ^ t.esz
      let give (s : State) (bs : List Byte) : Res :=
        let xs := dealt got (lanesOf bits m (leNat bs))
        let s := s.putV d (laneMask bits got) (packLanes bits xs) none
        let s := s.putK a (2 ^ n - 1) (packLanes 1 (got.map Bool.toNat)) none
        .done (s.setStream sd.toNat { t with head := t.head + m })
      s.streamRange t t.head m (if m = 0 then give s [] else s.spLoad [(t.at t.head, m * w)] give)) s

/-- SFLUSH (R197). -/
def execSflush (h : Hdr) (sd : BitVec 3) (d a : GReg) (s : State) : Out :=
  issue h .trio [s.gT a] [s.gT d] (fun s =>
    let t := s.stream sd.toNat
    let w := 2048 / 2 ^ t.esz
    let p := (w - t.tail % w) % w
    if t.rows = 0 then .trap 0x02 0 0 0
    else
      let e := 8 * 2 ^ t.esz
      let put (s : State) : Res :=
        .done ((s.setStream sd.toNat { t with tail := t.tail + p }).putG d (BitVec.ofNat 64 p) none)
      s.streamRange t t.tail p
        (if p = 0 then put s
         else s.spStore [(t.at t.tail, p * 2 ^ t.esz)]
           (leBytes (p * 2 ^ t.esz) (packLanes e (List.replicate p ((s.g a).toNat % 2 ^ e)))) put)) s

/-- SRESET (R197). -/
def execSreset (h : Hdr) (sd : BitVec 3) (s : State) : Out :=
  issue h .trio [] [] (fun s =>
    let t := s.stream sd.toNat
    if t.rows = 0 then .trap 0x02 0 0 0 else .done (s.setStream sd.toNat { t with head := 0, tail := 0 })) s

/-! Lane queues (R198 to R200) -/

/-- Lane queue `i` of a core. -/
def Core.lane (k : Core) (i : Nat) : Lane := SMap.get {} k.lanes i
/-- Change lane queue `i` of core `c`. -/
def State.modLane (s : State) (c i : Nat) (f : Lane → Lane) : State :=
  s.modCore c (fun k => { k with lanes := SMap.set {} k.lanes i (f (k.lane i)) })
/-- A lane is exhausted when its queue is empty and its cursor equals its end (R198). -/
def Lane.exhausted (l : Lane) : Bool := l.items.isEmpty && l.cursor == l.stop
/-- Elements that a refill of the lane still has to fetch, at most to four queued (R198). -/
def Lane.wants (l : Lane) : Nat := Nat.min (4 - l.items.length) (l.stop - l.cursor - l.items.length)
/-- Scratchpad address of the next element to fetch. -/
def Lane.nextAddr (l : Lane) : Nat := (streamOf l.sd).at (l.cursor + l.items.length)

/-- LQPUSH (R199). -/
def execLqpush (h : Hdr) (k : KReg) (ty : ETy) (a b : VReg) (s : State) : Out :=
  issueV h (kT k :: (s.vT a ++ s.vT b)) [] (fun s =>
    let c := s.cur.core
    let sd := (s.core c).reg (0x110 + ((s.core c).reg 0x118).toNat % 8)
    let t := streamOf sd
    let lanes := ((List.range 512).zip ((activity (s.kreg k) 512 1).zip
      ((lanesOf 32 512 (s.v a)).zip (lanesOf 32 512 (s.v b))))).filter (fun p => p.2.1)
    let bad (p : Nat × Bool × Nat × Nat) : Bool :=
      !(decide (0 ≤ sInt 32 p.2.2.1) && decide (sInt 32 p.2.2.1 ≤ sInt 32 p.2.2.2) && decide (sInt 32 p.2.2.2 ≤ t.cap)) || t.esz != 2
    if ty ≠ .i32 then .trap 0x02 0 0 0
    else if lanes.any bad then .trap 0x12 0 0 0
    else .done (lanes.foldl (fun s p =>
      s.modLane c p.1 (fun _ => { items := [], cursor := p.2.2.1, stop := p.2.2.2, sd := sd })) s)) s

/-- LQPOP (R200): a lane whose next element cannot be read stops the instruction as the read would (log 17). -/
def execLqpop (h : Hdr) (k : KReg) (ty : ETy) (d : VReg) (a : KReg) (s : State) : Out :=
  issueV h [kT k] (kT a :: s.vT d) (fun s =>
    let c := s.cur.core
    let act := activity (s.kreg k) 512 1
    let lane (i : Nat) : Lane := (s.core c).lane i
    let waits := (List.range 512).find? (fun i => act.getD i false && (lane i).items.isEmpty && !(lane i).exhausted)
    if a = 0 ∨ ty ≠ .i32 then .trap 0x02 0 0 0
    else match waits with
      | some i =>
        let e := (lane i).nextAddr
        s.spChecked (BitVec.ofNat 64 e) 4 4 (s.spLoad [(e, 4)] (fun _ _ => .sleep s .refill))
      | none =>
        let got := (List.range 512).map (fun i => act.getD i false && !(lane i).items.isEmpty)
        let xs := (List.range 512).map (fun i => (lane i).items.headD 0)
        let s := s.putV d (laneMask 32 got) (packLanes 32 xs) none
        let s := s.putK a (2 ^ 512 - 1) (packLanes 1 (got.map Bool.toNat)) none
        .done ((List.range 512).foldl (fun s i =>
          if got.getD i false then s.modLane c i (fun l => { l with items := l.items.tail, cursor := l.cursor + 1 }) else s) s)) s

/-- LQSTAT (R200). -/
def execLqstat (h : Hdr) (ty : ETy) (d : KReg) (s : State) : Out :=
  issue h .comp [] [kT d] (fun s =>
    let k := s.core s.cur.core
    if d = 0 ∨ ty ≠ .i32 then .trap 0x02 0 0 0
    else .done (s.putK d (2 ^ 512 - 1) (packLanes 1 ((List.range 512).map (fun i => (k.lane i).exhausted.toNat))) none)) s

/-- Whether the first `m` elements that a lane still has to fetch can be read now: reservation, conflicts and data loss (log 17). -/
def State.fetchable (s : State) (c i m : Nat) : Bool :=
  let l := (s.core c).lane i
  let sp := [(spAddr c l.nextAddr, 4 * m)]
  (s.spCheck c .C (BitVec.ofNat 64 l.nextAddr) (4 * m) 1).isNone &&
    (s.clash { agent := .ctx c .C (s.core c).epoch, write := false, sync := false, spans := sp }).isNone && (s.badIn sp).isNone

/-- How many elements a lane fetches now: in increasing order, up to the first that cannot be read (R198). -/
def State.refills (s : State) (c i : Nat) : Nat :=
  (((List.range 5).filter (fun m => decide (0 < m) && decide (m ≤ ((s.core c).lane i).wants))).takeWhile (fun m => s.fetchable c i m)).length

/-- Whether a lane can fetch its next element now. -/
def State.refillOk (s : State) (c i : Nat) : Bool := decide (0 < s.refills c i)

/-- One lane fetches its next items, on behalf of C (R198). The items that are fetched together stand on one side of a store of C into the range;
R198 lets each be old or new on its own (DESIGN CHOICE, log 103). -/
def State.refillLane (s : State) (c i : Nat) : State :=
  let l := (s.core c).lane i
  let m := s.refills c i
  let sp := [(spAddr c l.nextAddr, 4 * m)]
  let s := s.record { agent := .ctx c .C (s.core c).epoch, write := false, sync := false, spans := sp }
  s.modLane c i (fun l => { l with items := l.items ++ lanesOf 32 m (leNat (s.raw (spAddr c l.nextAddr) (4 * m))) })

/-- LANE_QUEUE_REFILL (R198): every lane of the core that can fetch does. -/
def execLaneQueueRefill (s : State) : Out :=
  let c := s.cur.core
  .next ((List.range 512).foldl (fun s i => if s.refillOk c i then s.refillLane c i else s) s)

/-! Barriers (R201, R202) -/

/-- Key of a context in a launch's tables. -/
def takenKey (c : Nat) (r : Role) : Nat := 4 * c + roleNum r

/-- Key of a context's count of BARs of a scope. -/
def barKey (c : Nat) (r : Role) (sc : Scope) : Nat := (4 * c + roleNum r) * 8 + scopeNum sc
/-- BARs of a scope that a context has issued. -/
def Launch.barCount (l : Launch) (c : Nat) (r : Role) (sc : Scope) : Nat := SMap.get 0 l.bars (barKey c r sc)

/-- The cores of a launch in the instance of a scope that contains core `c` (R201). -/
def Launch.barCores (l : Launch) (sc : Scope) (c : Nat) : List Nat :=
  (coresOf l.rcd.qmask).filter (fun d => instOf sc d == instOf sc c)

/-- Whether context `r` of core `d` has arrived at the k-th barrier of a scope, or has ended (R202). -/
def State.arrived (s : State) (l : Launch) (d : Nat) (r : Role) (sc : Scope) (k : Nat) : Bool :=
  decide (k ≤ l.barCount d r sc) || l.ended.contains d ||
    ((s.core d).launch == l.seq && (r != .C && (s.core d).single || (s.ctx d r).run == .ended))

/-- Whether barrier `k` of a scope's instance is complete. -/
def State.barOver (s : State) (l : Launch) (c : Nat) (sc : Scope) (k : Nat) : Bool :=
  (l.barCores sc c).all (fun d => trioRoles.all (fun r => s.arrived l d r sc k))

/-- What barrier `k` makes known: the clocks of its arrivals, and of the contexts that have ended (R202, log 18). -/
def State.barClock (s : State) (l : Launch) (c : Nat) (sc : Scope) (k : Nat) : Clock :=
  (l.barCores sc c).foldl (fun acc d => trioRoles.foldl (fun acc r =>
    match l.barClk.find? (fun p => p.1 == barKey d r sc && p.2.1 == k) with
    | some p => acc.join p.2.2
    | none => if k ≤ l.barCount d r sc then acc else acc.join (s.clockOf (.ctx d r (SMap.get 0 l.epochs d)))) acc) {}

/-- The barrier at which the BAR of scope `sc` at `pc` has arrived already (R202). -/
def Launch.arrivedAt (l : Launch) (key : Nat) (pc : Word) (sc : Scope) : Option Nat :=
  ((SMap.get [] l.arrived key).find? (fun p => p.1 == pc && p.2.1 == sc)).map (fun p => p.2.2)

/-- The BAR at `pc` completes: it has arrived no more. -/
def Launch.left (l : Launch) (key : Nat) (pc : Word) : Launch :=
  { l with arrived := SMap.set [] l.arrived key ((SMap.get [] l.arrived key).filter (fun p => p.1 != pc)) }

/-- Arrive at the next barrier of a scope: a release at that scope (R202). The context stays arrived until its BAR completes, also over a trap or a
pre-emption. -/
def State.arrive (s : State) (sc : Scope) : State :=
  let c := s.cur.core
  let r := s.cur.role
  let key := barKey c r sc
  let pc := (s.ctx c r).pc
  let (s, clk) := s.release s.me sc
  s.modLaunch (s.core c).launch (fun l =>
    let k := SMap.get 0 l.bars key + 1
    { l.left (takenKey c r) pc with
      bars := SMap.set 0 l.bars key k
      arrived := SMap.set [] l.arrived (takenKey c r) ((SMap.get [] (l.left (takenKey c r) pc).arrived (takenKey c r)) ++ [(pc, sc, k)])
      barClk := l.barClk.filter (fun p => p.1 != key || p.2.1 == k - 1) ++ [(key, k, clk)] })

/-- Wait for barrier `k` of a scope, and complete: an acquire (R202). -/
def State.passBar (s : State) (sc : Scope) (k : Nat) : Res :=
  let c := s.cur.core
  let r := s.cur.role
  match s.launchOf c with
  | none => .done s
  | some l =>
    if s.barOver l c sc k then
      .done ((s.modLaunch l.seq (fun l => l.left (takenKey c r) (s.ctx c r).pc)).acquire s.me (s.barClock l c sc k) sc)
    else .sleep s (.bar sc k)

/-- BAR (R201, R202): it arrives when it first issues and completes when every participant has arrived or ended. -/
def execBar (h : Hdr) (sc : Scope) (s : State) : Out :=
  issue h .trio [] [] (fun s =>
    let c := s.cur.core
    let r := s.cur.role
    match s.launchOf c with
    | none => .done s
    | some l =>
      match l.arrivedAt (takenKey c r) (s.ctx c r).pc sc with
      | some k => s.passBar sc k
      | none => s.settled ((s.arrive sc).passBar sc (l.barCount c r sc + 1))) s

/-- BAR_RELEASE (R202): a waiting BAR issues again. -/
def execBarRelease (s : State) : Out :=
  match (s.ctx s.cur.core s.cur.role).run, (s.ctx s.cur.core s.cur.role).wait with
  | .sleeping, some (.bar _ _) => .next (s.wake s.cur.core s.cur.role)
  | _, _ => .next s

/-! Pipeline rings (R203 to R205) -/

/-- Stage `i` of a launch. -/
def Launch.stage? (l : Launch) (i : Nat) : Option Stage := l.st[i]?
/-- Change stage `i` of launch `q`. -/
def State.modStage (s : State) (q i : Nat) (f : Stage → Stage) : State :=
  s.modLaunch q (fun l => { l with st := l.st.mapIdx (fun j g => if j = i then f g else g) })

/-- The physical parts of `n` bytes at offset `off` of a ring, as its pages stood at acceptance or at the last TLBINV that covered one
(R203, R389). -/
def Stage.parts (g : Stage) (off n : Nat) : List Part :=
  (pageParts (BitVec.ofNat 64 ((g.ringbase + off) % 2 ^ 56)) n).filterMap (fun p =>
    (g.ring.find? (fun l => decide (l.va ≤ p.1.toNat) && decide (p.1.toNat < l.va + l.size))).map (fun l =>
      { pa := l.frame + (p.1.toNat - l.va), len := p.2, leaf := l }))
/-- The parts of `n` bytes at offset `off` of a ring for an access of the current context, which translates as any access of it does (R203,
R222), then `k`. -/
def State.ringParts (s : State) (g : Stage) (kind : AKind) (off n : Nat) (k : State → List Part → Res) : Res :=
  match s.xlatParts s.cur.core (s.aspaceOf s.cur.core s.cur.role) kind (pageParts (BitVec.ofNat 64 (g.ringbase + off)) n) with
  | .error f => Res.of f 0
  | .ok (s, ps) => k s ps

/-- Offset of slot k (R203). -/
def Stage.slotOff (g : Stage) (k : Nat) : Nat := 64 + k % g.ringsize * g.recsize
/-- PUTSEQ or GETSEQ of a ring (R203). -/
def State.ringSeq (s : State) (g : Stage) (off : Nat) : Nat := leNat (s.readParts (g.parts off 8))

/-- The put of slot k has completed: what its release covers (R204). -/
def Stage.putOver (g : Stage) (k : Nat) : Option Clock :=
  if k < g.put0 then some {} else (g.puts.find? (fun p => p.1 == k)).map (·.2)
/-- The get of slot k has completed. -/
def Stage.getOver (g : Stage) (k : Nat) : Option Clock :=
  if k < g.get0 then some {} else (g.gets.find? (fun p => p.1 == k)).map (·.2)

/-- The scope of ring synchronisation: the smallest that contains every quire of the launch (R204). -/
def Launch.ringScope (l : Launch) (c : Nat) : Scope := smallestScope c (coresOf l.rcd.qmask)

/-- Take the next slot through the sequence word at `off`, in one atomic step at the ring (R204): an atomic load and store, for which FENCEs
stand (R235). -/
def State.takeSlot (s : State) (l : Launch) (g : Stage) (off : Nat) (k : State → Nat → Res) : Res :=
  let c := s.cur.core
  s.ringParts g .write off 8 (fun s ps => s.grant true true (spansOf ps) id (fun s =>
    match s.badIn (spansOf ps) with
    | some a => .trap 0x25 0 (BitVec.ofNat 64 a) 0
    | none =>
      let n := leNat (s.readParts ps)
      let s := (s.loadAcquires none (spansOf ps)).writeParts ps (leBytes 8 ((n + 1) % 2 ^ 64))
      let s := s.storeReleases none true (spansOf ps)
      let s := s.modLaunch l.seq (fun l => { l with taken := SMap.set 0 l.taken (takenKey c s.cur.role) (n + 1) })
      k s n))

/-- The slot of the current context is given back. -/
def State.slotDone (s : State) (q : Nat) : State :=
  s.modLaunch q (fun l => { l with taken := SMap.set 0 l.taken (takenKey s.cur.core s.cur.role) 0 })

/-- Copy the record at scratchpad address `e` into slot k, once the get of slot k − RINGSIZE has completed (R204). The slot is written at
WSCOPE, as an ordinary store (R243), and released at the scope of the ring. The wait orders the read of that get before this write, which R232
does not list (DESIGN CHOICE, log 104). -/
def State.putRecord (s : State) (l : Launch) (i : Nat) (e : Nat) (k : Nat) : Res :=
  match l.stage? i with
  | none => .done s
  | some g =>
    match (if k < g.ringsize then some {} else g.getOver (k - g.ringsize)) with
    | none => .sleep s (.ring k)
    | some clk =>
      s.ringParts g .write (g.slotOff k) g.recsize (fun s ps => s.spLoad [(e, g.recsize)] (fun s bs =>
        let sc := l.ringScope s.cur.core
        let s := s.acquire s.me clk sc
        s.grant true false (spansOf ps) id (fun s =>
          let s := (s.writeParts ps bs).holdParts s.wscope false ps
          let (s, clk) := s.release s.me sc
          let s := s.modStage l.seq i (fun g => { g with puts := g.puts ++ [(k, clk)], gets := g.gets.filter (fun p => p.1 + g.ringsize != k) })
          .done (s.slotDone l.seq))))

/-- Copy slot k to scratchpad address `e`, once its put has completed (R204). What it read is made known to the put that takes the slot again, which
R232 does not list (DESIGN CHOICE, log 104). -/
def State.getRecord (s : State) (l : Launch) (i : Nat) (e : Nat) (d : GReg) (k : Nat) : Res :=
  match l.stage? i with
  | none => .done s
  | some g =>
    match g.putOver k with
    | none => .sleep s (.ring k)
    | some clk =>
      s.ringParts g .read (g.slotOff k) g.recsize (fun s ps =>
        let s := s.acquire s.me clk (l.ringScope s.cur.core)
        s.grant false false (spansOf ps) id (fun s =>
          let bs := s.readParts ps
          s.spStore [(e, g.recsize)] bs (fun s =>
            let (s, clk) := s.release s.me .core
            let s := s.modStage l.seq i (fun g => { g with gets := g.gets ++ [(k, clk)], puts := g.puts.filter (fun p => p.1 != k) })
            .done ((s.slotDone l.seq).putG d 1 none))))

/-- The slot that the current context has taken already. -/
def State.slotTaken (s : State) (l : Launch) : Option Nat :=
  match SMap.get 0 l.taken (takenKey s.cur.core s.cur.role) with
  | 0 => none
  | n + 1 => some n

/-- Some core of stage `i` is running (R205). -/
def State.stageRuns (s : State) (l : Launch) (i : Nat) : Bool :=
  s.cores.any (fun p => p.2.launch == l.seq && p.2.stage == i)

/-- Stage `i` has finished (R205). -/
def State.stageOver (s : State) (l : Launch) : Nat → Bool
  | 0 => (s.quires.all (fun p => p.2.walkers.all (fun w => w.launch != l.seq || decide (w.hi ≤ w.lo)))) && !s.stageRuns l 0
  | i + 1 => State.stageOver s l i && !s.stageRuns l (i + 1) && (match l.stage? (i + 1) with
    | some g => decide (s.ringSeq g 0 ≤ s.ringSeq g 8)
    | none => true)

/-- STGPUT (R204, R205). -/
def execStgput (h : Hdr) (a : GReg) (s : State) : Out :=
  issue h .trio [s.gT a] [] (fun s =>
    let c := s.cur.core
    let e := s.g a
    match s.launchOf c with
    | none => .trap 0x02 0 0 0
    | some l =>
      let i := (s.core c).stage + 1
      match l.stage? i with
      | none => .trap 0x02 0 0 0
      | some g =>
        if e.toNat % 64 ≠ 0 then .trap 0x06 0 e 0
        else if (s.spCheck c s.cur.role e g.recsize 1).isSome then .trap 0x05 0 e 0
        else s.settled (match s.slotTaken l with
          | some k => s.putRecord l i e.toNat k
          | none => s.takeSlot l g 0 (fun s k => s.putRecord l i e.toNat k))) s

/-- Read both sequence words of a ring, as an atomic access of the current context (R203, R237). -/
def State.peekRing (s : State) (g : Stage) (k : State → Nat → Nat → Res) : Res :=
  s.ringParts g .read 0 16 (fun s ps => s.grant false true (spansOf ps) id (fun s =>
    let bs := s.readParts ps
    k (s.loadAcquires none (spansOf ps)) (leNat (bs.take 8)) (leNat (bs.drop 8))))

/-- Since when the current STGGET waits for a record. -/
def State.getSince (s : State) : Nat :=
  match (s.ctx s.cur.core s.cur.role).wait with
  | some (.get _ t) => t
  | _ => s.gtc

/-- Another STGGET of the launch waits at the same ring since an earlier cycle, or since the same one on a lower core or in a context that stands
before this one: it takes the next record (R250). -/
def State.getAhead (s : State) (l : Launch) (stage : Nat) : Bool :=
  let place (c : Nat) (r : Role) : Nat := takenKey c r
  (coresOf l.rcd.qmask).any (fun c => (s.core c).launch == l.seq && trioRoles.any (fun r =>
    let x := s.ctx c r
    !(c == s.cur.core && r == s.cur.role) && x.run == .sleeping && (match x.wait with
      | some (.get i t) => i == stage && decide (t < s.getSince ∨ (t = s.getSince ∧ place c r < place s.cur.core s.cur.role))
      | _ => false)))

/-- STGGET (R204, R205, R250): at an empty ring it takes no slot until a record is put or its input stage finishes (log 19). -/
def execStgget (h : Hdr) (d a : GReg) (s : State) : Out :=
  issue h .trio [s.gT a] [s.gT d] (fun s =>
    let c := s.cur.core
    let e := s.g a
    match s.launchOf c with
    | none => .trap 0x02 0 0 0
    | some l =>
      match (s.core c).stage with
      | 0 => .trap 0x02 0 0 0
      | i + 1 =>
        match l.stage? (i + 1) with
        | none => .trap 0x02 0 0 0
        | some g =>
          if e.toNat % 64 ≠ 0 then .trap 0x06 0 e 0
          else if (s.spCheck c s.cur.role e g.recsize 1).isSome then .trap 0x05 0 e 0
          else match s.slotTaken l with
            | some k => s.getRecord l (i + 1) e.toNat d k
            | none =>
              if (s.core c).marked then .done (s.putG d 0 none)
              else s.peekRing g (fun s p q =>
                if p ≤ q then (if s.stageOver l i then .done (s.putG d 0 none) else .sleep s (.get (i + 1) s.getSince))
                else if s.getAhead l (i + 1) then .sleep s (.get (i + 1) s.getSince)
                else s.fencedSettled (s.takeSlot l g 8 (fun s k => s.getRecord l (i + 1) e.toNat d k)))) s

/-- RING_SLOT_READY (R204): a waiting ring instruction issues again. -/
def execRingSlotReady (s : State) : Out :=
  match (s.ctx s.cur.core s.cur.role).run, (s.ctx s.cur.core s.cur.role).wait with
  | .sleeping, some (.ring _) | .sleeping, some (.get _ _) => .next (s.wake s.cur.core s.cur.role)
  | _, _ => .next s

/-! Safe points (R206) -/

/-- Whether a pre-empt request is pending for the launch of core `c`, whose state is not saved yet. -/
def State.dusk (s : State) (c : Nat) : Bool :=
  match s.preempt with
  | some p => (s.core c).launch != 0 && p.victim == (s.core c).launch && !p.saved.contains c
  | none => false

/-- SAFE (R206): with a request pending the context stops behind it with its live-map index. -/
def execSafe (h : Hdr) (n : BitVec 12) (s : State) : Out :=
  issue h .trio [] [] (fun s =>
    let c := s.cur.core
    if s.dusk c then .done (s.modCtx c s.cur.role (fun x => { x with safe := true, safeIdx := n.toNat })) else .done s) s

end Sys2Proof.Machine
end

