-- ==== Sys2Proof/Machine/Queue.lean ====
section
/-! DEFINITION. Shared operations on queues and launches: queue state blocks, wakes, failures, the slip log, accepting a launch
record and pushing a launch (spec 08 R167 to R182, 21 R393 to R405). -/
namespace Sys2Proof.Machine

/-! Queue state blocks (R393, R394) -/

/-- `n` bytes of a QSB at an offset. -/
def State.qField (s : State) (qsb off n : Nat) : Nat := leNat (s.readKey 0 (qsb + off) n)
/-- STATE of a queue. -/
def State.qState (s : State) (qsb : Nat) : Nat := s.qField qsb 0x08 1
/-- QID of a queue. -/
def State.qid (s : State) (qsb : Nat) : Nat := s.qField qsb 0x2E 2

/-- What an access of a queue processor comes to (R239, R245): made, refused for now, or refused for good with a cause, a subcause and a
value. -/
inductive QpAns where
  | made (s : State)
  | again (s : State)
  | fail (cause sub val : Nat)

/-- What follows an access that has been made. -/
def QpAns.then (x : QpAns) (k : State → QpAns) : QpAns :=
  match x with
  | .made s => k s
  | y => y

/-- An access of the queue processor of die `d` over parts. -/
def State.qpAsk (s : State) (d : Nat) (write sync : Bool) (ps : List Part) : QpAns :=
  let t : Touch := { agent := .qp d, write := write, sync := sync, spans := spansOf ps }
  match s.ask t ps with
  | .granted s => .made s
  | .fault cause sub a _ => .fail cause sub a
  | .refused line _ =>
    let since := s.refusedAt (.qp d) line
    if since + 2 ^ 20 ≤ s.gtc then .fail 0x23 0 (64 * line) else .again (s.refuse t line since)

/-- An atomic read of `n` bytes by the queue processor at package scope, as an acquire (R393). -/
def State.qpRead (s : State) (d pa n : Nat) : QpAns :=
  match s.qpAsk d false true (physParts pa n) with
  | .made s => .made (s.acquireAt (.qp d) .pkg pa n s.order.serial)
  | x => x

/-- An admitted atomic write of `n` bytes by the queue processor, as a release at package scope (R393). -/
def State.qpWrite (s : State) (d pa n v : Nat) : State :=
  let (s, k) := s.release (.qp d) .pkg
  ((s.clearBad pa n).writeKey 0 pa (leBytes n v)).addRelease pa n (.qp d) .pkg k

/-- The words of a failed queue are written (R403): STATE 3, ERR and ERRVAL, in one access. While a held line refuses it, it waits (R245); where it
is refused for good, the queue fails for that reason, and the words are written (DESIGN CHOICE, log 66). -/
def State.writeFailure (s : State) (d : Nat) (x : Nat × Nat × Nat × Nat) : State :=
  let (qsb, cause, sub, val) := x
  let put (s : State) (cause sub val : Nat) : State :=
    let s := s.qpWrite d (qsb + 0x38) 8 (sub * 256 + cause)
    let s := s.qpWrite d (qsb + 0x40) 8 val
    let s := s.qpWrite d (qsb + 0x08) 8 (s.qField qsb 0x08 8 / 256 * 256 + 3)
    (s.tell (.queueFail (s.qid qsb))).calm (.qp d)
  match (s.qpRead d (qsb + 0x28) 8).then (fun s => s.qpAsk d true true (physParts (qsb + 0x08) 8 ++ physParts (qsb + 0x38) 16)) with
  | .made s => put s cause sub val
  | .again s => s.modDie d (fun y => { y with failing := y.failing ++ [x] })
  | .fail c b v => put s c b v

/-- A queue fails (R403): it is parsed no more, its words are written, and the host is told. -/
def State.queueFail (s : State) (d qsb cause sub val : Nat) : State :=
  (s.modDie d (fun x => { x with queues := x.queues.filter (fun q => q.qsb != qsb) })).writeFailure d (qsb, cause, sub, val)

/-- Failures whose words a held line has kept out are written now, oldest first (R245). -/
def State.retryFailures (s : State) (d : Nat) : State :=
  if (s.die d).failing.isEmpty then s
  else (s.die d).failing.foldl (fun s x => s.writeFailure d x) (s.modDie d (fun x => { x with failing := [] }))

/-- Write a field of a queue's block (R393): the queue fails where the write is refused for good; one that is refused for now waits, and those
after it wait behind it (R239, R245, R403). -/
def State.qWrite (s : State) (d qsb off n v : Nat) : State :=
  let later (s : State) : State := s.modDie d (fun x => { x with owed := x.owed ++ [(qsb, off, n, v)] })
  if (s.die d).owed.any (fun x => x.1 == qsb) then later s
  else match s.qpAsk d true true (physParts (qsb + off) n) with
    | .made s => s.qpWrite d (qsb + off) n v
    | .again s => later s
    | .fail cause sub a => s.queueFail d qsb cause sub a

/-- Writes that a held line has kept out are made now, oldest first (R245). -/
def State.retryOwed (s : State) (d : Nat) : State :=
  if (s.die d).owed.isEmpty then s
  else (s.die d).owed.foldl (fun s x => s.qWrite d x.1 x.2.1 x.2.2.1 x.2.2.2) (s.modDie d (fun x => { x with owed := [] }))

/-- The address that a link names (R393): 0 at the end of a list. -/
def linkAddr (w : Nat) : Nat := w % 2 ^ 44 * 256

/-- A QSB lies in populated memory (R394). -/
def linkOk (a : Nat) : Bool := isDram a && isDram (a + 255)

/-- One step of a run list: the word's address and the QSB, or the bad link that ends the list. -/
structure ListEnd where
  found : List (Nat × Nat)
  bad : Option Nat

/-- Walk a run list from the word at `w` (R394, R396). -/
def State.walkList (s : State) : Nat → Nat → ListEnd
  | 0, _ => { found := [], bad := none }
  | fuel + 1, w =>
    let a := linkAddr (leNat (s.readKey 0 w 8))
    if a = 0 then { found := [], bad := none }
    else if !linkOk a then { found := [], bad := some w }
    else
      let r := State.walkList s fuel a
      { r with found := (w, a) :: r.found }

/-- The run list of priority `p` of a die (R394). -/
def State.runList (s : State) (d p : Nat) : ListEnd :=
  let b := (SMap.get 0 (s.die d).sys 0x421).toNat
  if b = 0 then { found := [], bad := none } else s.walkList 65536 (b + 8 * p)

/-- The QSBs of a die in scan order: priority and address (R396). -/
def State.scanned (s : State) (d : Nat) : List (Nat × Nat) :=
  [7, 6, 5, 4, 3, 2, 1, 0].flatMap (fun p => (s.runList d p).found.map (fun q => (p, q.2)))

/-- An access of a scan is refused for now. -/
def State.scanStuck (s : State) (d : Nat) : State := s.modDie d (fun x => { x with stuck := true })

/-- The read of the head word at `w` is refused for good: no queue is concerned, so it is reported once to the firmware of core 80d, as the slips of
the die are (R238, R239; DESIGN CHOICE, log 66). -/
def State.badHead (s : State) (d w cause sub v : Nat) : State :=
  if (s.die d).badHeads.contains w then s
  else (s.report (80 * d) { cause := cause, sub := sub, val := BitVec.ofNat 64 v }).modDie d (fun x => { x with badHeads := x.badHeads ++ [w] })

/-- Blocks that a walk of the lists has reached, and whether it stands at a word that a held line refuses for now. -/
structure Reached where
  found : List Nat
  stuck : Bool := false

/-- The queue processor reads the word at `w` and then those of the blocks that it reaches (R394, R396), each as an acquire. At a word that it
cannot read, the list ends for this scan; a queue in whose block such a word stands fails, and a head word is reported (R239). -/
def State.readList (d : Nat) : Option Nat → Nat → List (Nat × Nat) → State → State × Reached
  | owner, w, rest, s =>
    match s.qpRead d w 8 with
    | .fail cause sub v => (match owner with | some q => s.queueFail d q cause sub v | none => s.badHead d w cause sub v, { found := [] })
    | .again s => (s.scanStuck d, { found := [], stuck := true })
    | .made s =>
      let s := s.modDie d (fun x => { x with badHeads := x.badHeads.filter (· != w) })
      match rest with
      | [] => (s, { found := [] })
      | (_, a) :: more =>
        let r := State.readList d (some a) a more s
        (r.1, { r.2 with found := a :: r.2.found })

/-- What the eight lists of a die hold: the QSBs in scan order, with their priorities. -/
structure Lists where
  found : List (Nat × Nat) := []
  stuck : Bool := false

/-- The queue processor reads its eight lists (R394, R396). -/
def State.readLists (s : State) (d : Nat) : State × Lists :=
  let b := (SMap.get 0 (s.die d).sys 0x421).toNat
  if b = 0 then (s, {})
  else [7, 6, 5, 4, 3, 2, 1, 0].foldl (fun (acc : State × Lists) p =>
    let r := State.readList d none (b + 8 * p) (acc.1.runList d p).found acc.1
    (r.1, { found := acc.2.found ++ r.2.found.map (fun q => (p, q)), stuck := acc.2.stuck || r.2.stuck })) (s, {})

/-- A queue id as the run lists answer it: found on a die, in no list, or not to be told while a held line refuses a read on this die (R245). -/
inductive Found where
  | at (die qsb : Nat)
  | nowhere
  | again (die : Nat)

/-- The queue processor of die `d` reads the QIDs of these blocks up to the queue named. A block that it may not read is passed over, and its queue
fails (R239, R403). -/
def State.readQids (d id : Nat) : List (Nat × Nat) → State → State × Found
  | [], s => (s, .nowhere)
  | q :: qs, s =>
    match s.qpRead d (q.2 + 0x28) 8 with
    | .made s => if s.qid q.2 = id then (s, .at d q.2) else State.readQids d id qs s
    | .again s => (s.scanStuck d, .again d)
    | .fail cause sub v => State.readQids d id qs (s.queueFail d q.2 cause sub v)

/-- The die and QSB of a queue id, looked up in the run lists (R399, R400). -/
def State.findQueue (s : State) (id : Nat) : State × Found :=
  (List.range Config.nDies).foldl (fun (acc : State × Found) d =>
    match acc.2 with
    | .at _ _ => acc
    | _ =>
      let r := acc.1.readLists d
      let x := State.readQids d id r.2.found r.1
      (x.1, match x.2, acc.2 with
        | .at e q, _ => .at e q
        | .again e, _ => .again e
        | .nowhere, .again e => .again e
        | .nowhere, _ => if r.2.stuck then .again d else .nowhere)) (s, .nowhere)

/-- A wake by agent `a` of the queue at `q` of die `d` (R399): WAKE is set, and a doorbell rings if the queue was unmapped. One that a held line
refuses for now is made later. -/
def State.wakeAt (s : State) (a : Agent) (id d q : Nat) : State :=
  let t : Touch := { agent := a, write := true, sync := true, spans := [(q + 8, 8)] }
  match s.ask t (physParts (q + 8) 8) with
  | .granted s =>
    let old := s.qField q 0x08 8
    let (s, k) := s.release a .pkg
    let s := ((s.clearBad (q + 8) 8).writeKey 0 (q + 8) (leBytes 8 (old ||| 0x100))).addRelease (q + 8) 8 a .pkg k
    if old % 256 = 0 then s.modDie d (fun x => { x with doorbell := true }) else s
  | .fault cause sub v _ => (match a with | .qp _ => s.queueFail d q cause sub v | _ => s.tell (.refused cause sub))
  | .refused line _ =>
    let since := s.refusedAt a line
    if since + 2 ^ 20 ≤ s.gtc then s.queueFail d q 0x23 0 (64 * line)
    else (s.refuse t line since).modDie d (fun x => { x with wakes := x.wakes ++ [(a, id)] })

/-- A wake by agent `a` of queue `id` (R399): while a held line refuses a read of the lists, it waits. -/
def State.wakeQueue (s : State) (a : Agent) (id : Nat) : State :=
  match s.findQueue id with
  | (s, .nowhere) => s
  | (s, .at d q) => s.wakeAt a id d q
  | (s, .again d) => s.modDie d (fun x => { x with wakes := x.wakes ++ [(a, id)] })

/-! The slip log (R405) -/

/-- Write the slip entry `bs` and report it, once those before it have been (R405). The QID of a queue's launch is read from its block first (R393).
The entry is written by the queue processor as it writes a queue's block: atomically, as a release at package scope; where a held line refuses it,
it waits and is tried again (R245). One that cannot be written fails the queue, or is reported to firmware where the launch has none; the cause and
the event then carry 0 (DEDUCED, log 63). -/
def State.putSlip (s : State) (d : Nat) (qsb : Option Nat) (bs : List Byte) : State :=
  let b := SMap.get 0 (s.die d).sys 0x424
  let idx := (SMap.get 0 (s.die d).sys 0x425).toNat
  let a := fld b 51 12 * 0x1000 + 32 * (idx % (fld b 11 0 + 1))
  let tell (s : State) (a : Nat) : State := (s.report (80 * d) { cause := 0x42, val := BitVec.ofNat 64 a }).tell (.slip a)
  let later (s : State) : State := s.modDie d (fun x => { x with slips := x.slips ++ [(qsb, bs)] })
  let read : QpAns := match qsb with
    | some q => s.qpRead d (q + 0x28) 8
    | none => .made s
  if !(s.die d).slips.isEmpty then later s
  else if b = 0 then tell s 0
  else match read.then (fun s => s.qpAsk d true true (physParts a 32)) with
    | .made s =>
      let id := match qsb with
        | some q => s.qid q
        | none => 0xFFFF
      let (s, k) := s.release (.qp d) .pkg
      let s := (if s.isMemory a then s.writePhys 0 a (bs.take 24 ++ leBytes 2 id ++ bs.drop 26) else s).addRelease a 32 (.qp d) .pkg k
      tell (s.modDie d (fun x => { x with sys := SMap.set 0 x.sys 0x425 (BitVec.ofNat 64 ((idx + 1) % 2 ^ 32)) })) a
    | .again s => later s
    | .fail cause sub v => tell (match qsb with
      | some q => s.queueFail d q cause sub v
      | none => s.report (80 * d) { cause := cause, sub := sub, val := BitVec.ofNat 64 v }) 0

/-- A slip of kind `kind` (R405); its QID is filled in as it is written. -/
def State.slip (s : State) (d : Nat) (qsb : Option Nat) (frame seq late kind : Nat) : State :=
  s.putSlip d qsb (leBytes 8 frame ++ leBytes 8 seq ++ leBytes 8 late ++ leBytes 2 0 ++ leBytes 1 kind ++ leBytes 5 0)

/-- The slip entries that wait are tried again, oldest first (R245). -/
def State.retrySlips (s : State) (d : Nat) : State :=
  if (s.die d).slips.isEmpty then s
  else (s.die d).slips.foldl (fun s x => s.putSlip d x.1 x.2) (s.modDie d (fun x => { x with slips := [] }))

/-- The slip of a launch, on the die whose queue processor answers for it; QID 0xFFFF for a launch of LAUNCH (R405, log 21). -/
def State.slipOf (s : State) (l : Launch) (frame late kind : Nat) : State :=
  match l.queue with
  | some (d, q, _) => s.slip d (some q) frame l.seq late kind
  | none => s.slip (dieOf (l.issuer.getD 0)) none frame l.seq late kind

/-! Launch records (R167 to R169, R179) -/

/-- A launch record from its 128 bytes, if no reserved bit is set (R167). -/
def recOf (bs : List Byte) : Option LRec :=
  let f (off n : Nat) : Nat := leNat ((bs.drop off).take n)
  let w (off : Nat) : Word := BitVec.ofNat 64 (f off 8)
  let order := f 0x38 1
  let sig := f 0x3F 1
  if f 0x28 8 / 2 ^ 40 ≠ 0 ∨ order / 4 % 4 ≠ 0 ∨ order / 128 ≠ 0 ∨ sig / 64 ≠ 0 ∨ f 0x78 8 ≠ 0 then none
  else some
    { lentry := w 0, centry := w 8, sentry := w 0x10, ext := [f 0x18 4, f 0x1C 4, f 0x20 4], grain := f 0x24 4,
      qmask := f 0x28 8, spbase := f 0x30 4, spsize := f 0x34 4, order := order % 4, nstage := order / 16 % 8,
      tres := f 0x39 1, tokinit := f 0x3A 2, group := BitVec.ofNat 16 (f 0x3C 2), gen := BitVec.ofNat 8 (f 0x3E 1),
      sigop := sig % 8, sigscope := sig / 8 % 8, args := w 0x40, sigaddr := w 0x48, sigval := w 0x50, reltick := w 0x58,
      deadline := w 0x60, stages := w 0x68, livemaps := w 0x70 }

/-- The entry checks of R169, for a record or a stage descriptor. -/
def entriesOk (le ce se : Word) (tokinit : Nat) : Bool :=
  ce != 0 && (le == 0) == (se == 0) && [le, ce, se].all (fun e => e == 0 || isCode e) && (le != 0 || tokinit == 0)

/-- The checks of R169 that need no stage descriptor. R179 aligns the stage descriptors to 64 bytes and names no cause for a STAGES that is not so
aligned: it counts as a fault of the record, 0x13 (DESIGN CHOICE, log 87). -/
def State.recOk (s : State) (r : LRec) : Bool :=
  r.ext.all (· != 0) && r.grain != 0 && decide (indexCount r.order r.ext ≤ 2 ^ 31) && r.qmask != 0 &&
    r.spbase % 32 == 0 && r.spsize % 32 == 0 && decide (r.spbase + r.spsize ≤ 0x300000) &&
    (coresOf r.qmask).all (fun c => decide (r.spbase + r.spsize ≤ s.sphomeBase c)) && r.tres != 0 &&
    decide (r.sigop ≤ 2) && decide (r.sigscope ≤ 4) && (r.sigop == 0 || r.sigaddr.toNat % 8 == 0) &&
    r.nstage != 1 && decide (r.nstage ≤ 4) && (r.nstage == 0) == (r.stages == 0) && r.stages.toNat % 64 == 0 &&
    (if r.nstage = 0 then entriesOk r.lentry r.centry r.sentry r.tokinit
     else r.lentry == 0 && r.centry == 0 && r.sentry == 0)

/-- One stage descriptor of 64 bytes, if it is valid; `first` for stage 0 (R179). Stage 0 has no input ring: its RECSIZE and BPTHRESH describe
nothing and are not checked. A RECSIZE of 0 in a later stage is refused, as no record (DESIGN CHOICE, log 89). -/
def stageOf? (bs : List Byte) (first : Bool) : Option Stage :=
  let f (off n : Nat) : Nat := leNat ((bs.drop off).take n)
  let w (off : Nat) : Word := BitVec.ofNat 64 (f off 8)
  let g : Stage :=
    { lentry := w 0, centry := w 8, sentry := w 0x10, ringbase := f 0x18 8, ringsize := f 0x20 4, recsize := f 0x24 4,
      bpthresh := f 0x28 4, tokinit := f 0x2C 2, mincores := f 0x2E 2, ring := [] }
  let ringOk :=
    if first then g.ringbase == 0 && g.ringsize == 0
    else g.recsize % 64 == 0 && decide (1 ≤ g.recsize ∧ g.recsize ≤ 2048) && decide (1 ≤ g.bpthresh ∧ g.bpthresh ≤ g.ringsize)
  if entriesOk g.lentry g.centry g.sentry g.tokinit && ringOk && decide (1 ≤ g.mincores) && f 0x30 8 == 0 && f 0x38 8 == 0
  then some g else none

/-- The stage descriptors from their table, if all are valid (R179). -/
def stagesOf (first : Bool) : Nat → List Byte → Option (List Stage)
  | 0, _ => some []
  | n + 1, bs => do
    let g ← stageOf? (bs.take 64) first
    let rest ← stagesOf false n (bs.drop 64)
    pure (g :: rest)

/-- The pages of every input ring, found at acceptance under the launch's address space: the bytes that are pinned (R203, log 22). -/
def State.ringPages (s : State) (c : Nat) (asp : Option Word) : List Stage → Except AFault (State × List Stage)
  | [] => .ok (s, [])
  | g :: gs => do
    let (s, g) ←
      if g.ringsize = 0 then pure (s, g)
      else do
        let (s, ps) ← s.xlatParts c asp .write (pageParts (BitVec.ofNat 64 g.ringbase) (64 + g.ringsize * g.recsize))
        pure (s, { g with ring := (ps.map (·.leaf)).eraseDups })
    let (s, rest) ← State.ringPages s c asp gs
    pure (s, g :: rest)

/-- The core set is large enough for the stages (R180). -/
def enoughCores (r : LRec) (gs : List Stage) : Bool := decide (gs.foldl (fun n g => n + g.mincores) 0 ≤ (coresOf r.qmask).length)

/-! Pushing (R182, R404) -/

/-- A step of a quire's dispatcher generator (R47, R182). -/
def State.stepGen (s : State) (u : Nat) : State × Word :=
  let g := seedStep (s.quire u).gen
  (s.modQuire u (fun q => { q with gen := g }), g)

/-- A launch that overruns holds the timetabled release `r`: its tick had not been reached when the overrun began (R404). -/
def State.withheld (s : State) (r : Nat) : Bool := s.launches.any (fun l => l.overran && decide (l.overFrame < r))

/-- Push a launch (R182): its sequence number, its bank, and its release (R404). -/
def State.pushLaunch (s : State) (u : Nat) (mk : Nat → Launch) : State × Nat :=
  let seq := s.pushSeq + 1
  let (s, g) := s.stepGen u
  let l := mk seq
  let r := l.rcd.reltick.toNat
  let held := r != 0 && decide (s.frame < r)
  let l := { l with bank := fld g 63 60, pushQuire := u, pushedAt := s.gtc, state := if held then .held else .ready }
  let s := { s with pushSeq := seq, launches := s.launches ++ [l] }
  let late := r != 0 && decide (r * 2 ^ (SMap.get 0 s.sys 0x011).toNat < s.gtc)
  if late then (s.slipOf l s.frame 0 1, seq) else (s, seq)

/-- A launch as it is pushed first. -/
def newLaunch (r : LRec) (gs : List Stage) (prio : Nat) (asp : Word) (phys : Bool) (issuer : Option Nat)
    (queue : Option (Nat × Nat × Nat)) (rerun : Bool) (clk : Clock) (seq : Nat) : Launch :=
  { seq := seq, rcd := r, st := gs, prio := prio, bank := 0, pushQuire := 0, pushedAt := 0, aspace := asp, phys := phys,
    issuer := issuer, queue := queue, rerun := rerun, clock := clk }

end Sys2Proof.Machine
end

