-- ==== Sys2Proof/Machine/Launch.lean ====
section
/-! DEFINITION. Launches: LAUNCH, the dispatcher, entry, completion, timetables and the stage scheduler (spec 08 R165 to R184,
09 R207, 21 R404). -/
namespace Sys2Proof.Machine

/-! LAUNCH (R207) -/

/-- The queue priority of a launch that the current context issues (R207). -/
def State.launchPrio (s : State) : Nat :=
  if s.cur.role = .F then 7 else ((s.launchOf s.cur.core).map (·.prio)).getD 7

/-- Push an accepted launch for the current context: a release that its contexts acquire (R207). -/
def State.launchNow (s : State) (d : GReg) (r : LRec) (gs : List Stage) : Res :=
  let c := s.cur.core
  let (s, clk) := s.release s.me (smallestScope c (coresOf r.qmask))
  let (s, q) := s.pushLaunch (quireOf c)
    (newLaunch r gs s.launchPrio ((s.core c).reg 0x201) (s.cur.role == .F) (some c) none false clk)
  .done (s.putG d (BitVec.ofNat 64 q) none)

/-- LAUNCH (R207, R169): the record, then its stage descriptors. The push, a release, waits for what the context still owes (R254). -/
def execLaunch (h : Hdr) (d a : GReg) (s : State) : Out :=
  issue h .all [s.gT a] [s.gT d] (fun s =>
    let ea := s.g a
    let bad : Res := .trap 0x13 0 ea 0
    if ea.toNat % 128 ≠ 0 then .trap 0x06 0 ea 0
    else s.checked false [(ea, 128)] (fun s ps => s.globalRead none ps (fun s bs =>
      match recOf bs with
      | none => bad
      | some r =>
        if !s.recOk r then bad
        else if r.nstage = 0 then s.settled (s.launchNow d r [])
        else s.checked false (pageParts r.stages (64 * r.nstage)) (fun s ps => s.globalRead none ps (fun s bs =>
          match stagesOf true r.nstage bs with
          | none => bad
          | some gs =>
            if !enoughCores r gs then bad
            else match s.ringPages s.cur.core (s.aspaceOf s.cur.core s.cur.role) gs with
              | .error f => Res.of f 0
              | .ok (s, gs) => s.settled (s.launchNow d r gs)))))) s

/-! The dispatcher (R173, R182 to R184) -/

/-- Free walkers of a quire that no forced launch reserves (R184). -/
def State.freeWalkers (s : State) (u : Nat) : Nat :=
  let free := 2 - (s.quire u).walkers.length
  free - (s.forcedList.filter (fun q => ((s.launch? q).map (fun l => Nat.testBit l.rcd.qmask u)).getD false)).length

/-- A quire that holds, or waits to hold, a reserved walker (R183). -/
def State.reserving (s : State) (u : Nat) : Bool :=
  s.forcedList.any (fun q => ((s.launch? q).map (fun l => Nat.testBit l.rcd.qmask u)).getD false)

/-- `a` stands before `b` in a bank (R182). -/
def Launch.before (a b : Launch) : Bool := decide (b.prio < a.prio) || (a.prio == b.prio && decide (a.seq < b.seq))

/-- The better of two launches. -/
def better (a b : Option Launch) : Option Launch :=
  match a, b with
  | some x, some y => if y.before x then some y else some x
  | some x, none => some x
  | none, y => y

/-- The head of a bank (R182). -/
def State.bankHead (s : State) (b : Nat) : Option Launch :=
  (s.launches.filter (fun l => l.state == .ready && l.bank == b)).foldl (fun best l => better best (some l)) none

/-- A head may start by a pop: every quire of its mask has a free walker (R183). A forced launch starts by its reservation alone, so that
forced launches start in the order in which they became forced (R184). -/
def State.eligible (s : State) (l : Launch) : Bool :=
  !s.forcedList.contains l.seq && (quiresOf l.rcd.qmask).all (fun u => decide (0 < s.freeWalkers u))

/-- The walker record of quire `u` in a save area, restored (R178): a record of another group leaves the walker empty. A record whose
reserved bits are not zero counts as one that does not match (DESIGN CHOICE, log 88). -/
def State.savedWalker (s : State) (l : Launch) (area u : Nat) : Walker × Bool :=
  let bs := s.readKey 0 (area + 16 * u) 16
  let ok := leNat ((bs.drop 8).take 2) == l.rcd.group.toNat && leNat ((bs.drop 10).take 1) == l.rcd.gen.toNat &&
    leNat (bs.drop 11) == 0
  if ok then ({ launch := l.seq, lo := leNat (bs.take 4), hi := leNat ((bs.drop 4).take 4) }, true)
  else ({ launch := l.seq, lo := 0, hi := 0 }, false)

/-- SAVEAREA of a launch's queue; 0 where it is never pre-empted (R393). -/
def State.saveArea (s : State) (l : Launch) : Nat :=
  match l.queue with
  | some (_, q, _) => s.qField q 0x48 8
  | none => 0

/-- The queue processor of a launch reads SAVEAREA from the queue's block (R393); a launch of LAUNCH has none. -/
def State.askSaveArea (s : State) (l : Launch) : QpAns :=
  match l.queue with
  | some (d, q, _) => s.qpRead d (q + 0x48) 8
  | none => .made s

/-- An access for a launch is refused for now, or no more (R245). -/
def State.launchWaits (s : State) (q : Nat) (since : Option Nat) : State := s.modLaunch q (fun l => { l with qSince := since })

/-- What a launch does once SAVEAREA has been read: while a held line refuses the read, it waits; where it is refused for good, the queue fails, and
the launch goes on (R239, R245, R403). -/
def State.withSaveArea (s : State) (l : Launch) (k : State → State) : State :=
  match s.askSaveArea l, l.queue with
  | .made s, _ => k (s.launchWaits l.seq none)
  | .again s, _ => s.launchWaits l.seq (some (l.qSince.getD s.gtc))
  | .fail cause sub v, some (d, q, _) => k ((s.queueFail d q cause sub v).launchWaits l.seq none)
  | .fail _ _ _, none => k s

/-- The reads of a launch that starts again after a pre-emption: SAVEAREA and the records of its walkers (R178, R393). -/
def State.askWalkers (s : State) (l : Launch) : QpAns :=
  (s.askSaveArea l).then (fun s => match l.queue with
    | some (d, _, _) =>
      s.qpAsk d false false ((quiresOf l.rcd.qmask).flatMap (fun u => physParts (s.saveArea l + 16 * u) 16))
    | none => .made s)

/-- The walkers from their records (R178): one that does not match leaves the walker empty and fails the queue; where the records may not be read,
all stand empty (`lost`). -/
def State.restoreWalker (s : State) (l : Launch) (area u : Nat) (lost : Bool) : State × Walker :=
  let empty : Walker := { launch := l.seq, lo := 0, hi := 0 }
  match l.queue with
  | none => (s, empty)
  | some (d, q, _) =>
    if lost then (s, empty)
    else
      let (w, ok) := s.savedWalker l area u
      (if ok then s else s.queueFail d q 0x13 0 (area + 16 * u), w)

/-- Give a starting launch its walkers (R173), or the saved ones (R178, R408). -/
def State.giveWalkers (s : State) (l : Launch) (lost : Bool) : State :=
  let qs := quiresOf l.rcd.qmask
  let n := indexCount l.rcd.order l.rcd.ext
  let p := (n + qs.length - 1) / qs.length
  let area := s.saveArea l
  (qs.zip (List.range qs.length)).foldl (fun s uk =>
    let (s, w) := if l.resumed then s.restoreWalker l area uk.1 lost
      else (s, { launch := l.seq, lo := Nat.min (uk.2 * p) n, hi := Nat.min ((uk.2 + 1) * p) n })
    s.modQuire uk.1 (fun x => { x with walkers := x.walkers ++ [w] })) s

/-- Each core of a pipeline joins its stage (R180). -/
def joinStages (l : Launch) : SMap Nat :=
  if l.rcd.nstage = 0 then []
  else ((coresOf l.rcd.qmask).zip (List.range Config.nCores)).foldl (fun m p => SMap.set 0 m p.1 (p.2 % l.rcd.nstage)) []

/-- A launch starts with its walkers (R173, R180, R203). -/
def State.startWith (s : State) (l : Launch) (lost : Bool) : State :=
  let gs := l.st.map (fun g =>
    if l.resumed || g.ringsize == 0 then g else { g with put0 := s.ringSeq g 0, get0 := s.ringSeq g 8 })
  let s := s.giveWalkers l lost
  let s := match l.queue with
    | some (d, qsb, _) => if l.resumed && l.toReport.isEmpty then s.qWrite d qsb 0x50 8 0 else s
    | none => s
  let s := { s with started := s.started + 1, forcedList := s.forcedList.filter (· != l.seq) }
  s.modLaunch l.seq (fun l => { l with
    state := .running, startOrder := s.started, st := gs, resumed := l.resumed && !l.toReport.isEmpty, qSince := none
    stageOf := if l.resumed then l.stageOf else joinStages l })

/-- A launch starts. One that starts again after a pre-emption first reads what was saved: while a held line refuses that, it stays at the head of its
bank; where it is refused for good, the queue fails, and the walkers stand empty (R178, R245, R403). -/
def State.startLaunch (s : State) (q : Nat) : State :=
  match s.launch? q with
  | none => s
  | some l =>
    if !l.resumed then s.startWith l false
    else match s.askWalkers l, l.queue with
      | .made s, _ => s.startWith l false
      | .again s, _ => s.launchWaits q (some (l.qSince.getD s.gtc))
      | .fail cause sub v, some (d, qsb, _) => (s.queueFail d qsb cause sub v).startWith l true
      | .fail _ _ _, none => s.startWith l true

/-- One more sampled head that did not start (R184). -/
def State.passOver (s : State) (q : Nat) : State :=
  match s.launch? q with
  | none => s
  | some l =>
    let s := s.modLaunch q (fun l => { l with pass := l.pass + 1 })
    if l.pass + 1 = 64 ∧ ¬ s.forcedList.contains q then { s with forcedList := s.forcedList ++ [q] } else s

/-- Quire `u` makes a pop in this cycle (R183): the pops of a cycle come in ascending quire order, so none follows that of a higher quire. -/
def State.popDue (s : State) (u : Nat) : Bool :=
  decide (u < Config.nQuires) && !s.quires.any (fun p => decide (u < p.1) && decide (s.gtc < p.2.popAt)) && decide ((s.quire u).popAt ≤ s.gtc) && decide ((s.quire u).walkers.length < 2) && !s.reserving u &&
    s.launches.any (fun l => l.state == .ready)

/-- DISPATCH_POP (R183, R184). -/
def execDispatchPop (u : Nat) (s : State) : Out :=
  if !s.popDue u then .next s
  else
    let (s, g) := s.stepGen u
    let s := s.modQuire u (fun q => { q with popAt := s.gtc + 1 })
    let b1 := fld g 63 60
    let b2 := (b1 + 1 + fld g 59 56 % 15) % 16
    let heads := [s.bankHead b1, s.bankHead b2].filterMap id
    let pick := better (heads.find? s.eligible) ((heads.drop 1).find? s.eligible)
    let s := (heads.filter (fun l => some l.seq != pick.map (·.seq))).foldl (fun s l => s.passOver l.seq) s
    match pick with
    | some l => .next (s.startLaunch l.seq)
    | none => .next s

/-- The forced launch that may start: the first, once every quire of its mask has a free walker (R184). -/
def State.forcedDue (s : State) : Option Launch :=
  match s.forcedList with
  | [] => none
  | q :: _ => match s.launch? q with
    | some l => if (quiresOf l.rcd.qmask).all (fun u => decide ((s.quire u).walkers.length < 2)) then some l else none
    | none => none

/-- FORCED_LAUNCH_START (R184). -/
def execForcedLaunchStart (s : State) : Out :=
  match s.forcedDue with
  | some l => .next (s.startLaunch l.seq)
  | none => .next s

/-! Entry (R34, R166, R174) -/

/-- Entries and token counts of a stage of a launch. -/
def Launch.entries (l : Launch) (stage : Nat) : Word × Word × Word × Nat :=
  match l.stage? stage with
  | some g => (g.lentry, g.centry, g.sentry, g.tokinit)
  | none => (l.rcd.lentry, l.rcd.centry, l.rcd.sentry, l.rcd.tokinit)

/-- The scalar registers of a context at entry (R34, R166). G4 holds the stage number of a pipeline also where the stage runs in
single-context mode, since R181 gives it to whatever enters the receiver's entries; outside a pipeline it is 0 (DEDUCED, log 85). -/
def entryRegs (l : Launch) (single : Bool) (r : Role) (stage : Nat) : SMap Word :=
  let set (m : SMap Word) (n : Nat) (v : Word) : SMap Word := SMap.set 0 m n v
  let m := set [] 1 l.rcd.args
  let m := set m 2 (BitVec.ofNat 64 l.rcd.spbase)
  let m := if single then m else set m 3 (BitVec.ofNat 64 (roleNum r))
  let m := set m 4 (BitVec.ofNat 64 stage)
  set m 30 (BitVec.ofNat 64 (l.rcd.spbase + l.rcd.spsize))

/-- A context at entry; it issues no second instruction in a cycle in which the trio before it issued one (R155). -/
def entryCtx (l : Launch) (single : Bool) (r : Role) (stage next : Nat) (pc : Word) : Ctx :=
  { g := entryRegs l single r stage, pc := pc, nextIssue := next, run := if pc = 0 then .ended else .running }

/-- The first cycle in which context `r` issues after an entry in cycle `gtc` (R155). -/
def Core.entryAt (k : Core) (r : Role) (gtc : Nat) : Nat := if gtc < k.trioAt ∧ gtc < (k.ctx r).nextIssue then gtc + 1 else gtc

/-- Core system registers that a launch's entry resets (R34, R187, R277, R337, R352). -/
def entryReset (n : Nat) : Bool :=
  decide (n ≤ 0x00F) || decide (0x110 ≤ n ∧ n ≤ 0x11A) || decide (0x320 ≤ n ∧ n ≤ 0x338) || n == 0x340 || decide (0x350 ≤ n ∧ n ≤ 0x353)

/-- The core's own state at entry; queues of pulses and writes start empty, and the landing ring is empty. The event bit is cleared,
but for a setting of this very cycle (R115). -/
def Core.entry (k : Core) (l : Launch) (stage gtc : Nat) : Core :=
  let (le, ce, se, ti) := l.entries stage
  let single := le == 0 && se == 0
  let kept := k.sys.filter (fun p => !entryReset p.1)
  let sys := (coreSysReset.filter (fun p => entryReset p.1)).foldl (fun m p => SMap.set 0 m p.1 p.2) kept
  let fifo (q : Nat) : Fifo := { toks := List.replicate (ti / 2 ^ (4 * q) % 16) l.clock }
  { k with
    ctxL := entryCtx l single .L stage (k.entryAt .L gtc) le
    ctxC := entryCtx l single .C stage (k.entryAt .C gtc) ce
    ctxS := entryCtx l single .S stage (k.entryAt .S gtc) se
    k := [], rows := [], side := [], pend := [], sys := SMap.set 0 sys 0x201 l.aspace, evbit := k.evbit && k.evSet == gtc + 1
    tq := [0, 1, 2, 3].foldl (fun m q => SMap.set {} m q (fifo q)) []
    lanes := [], launch := l.seq, single := single, stage := stage, marked := false
    chains := k.chains.map (fun p => (p.1, { p.2 with credits := [] }))
    pulses := [], marks := [], xwrites := [], mxCount := 0
    port := { k.port with rd := 0, wr := 0, free := 0, resv := [], given := 0 } }

/-- The reservation at entry: the launch's data image and zeros (R34). The launch record names no image: the image is the one that the
driver placed for the computer entry CENTRY, whatever the address space, and zeros where it placed none (DESIGN CHOICE, log 86). -/
def State.loadReservation (s : State) (c : Nat) (l : Launch) (centry : Word) : State :=
  let img := ((s.images.find? (fun p => p.1 == centry)).map (·.2)).getD []
  let n := l.rcd.spsize
  let a := spAddr c l.rcd.spbase
  let bs := img.take n ++ List.replicate (n - img.length) 0
  ((s.clearBad a n).forget a n).setRaw a bs

/-- The trio of core `c` enters a stage of a launch afresh (R34, R166, R181, R377). -/
def State.enterTrio (s : State) (c : Nat) (l : Launch) (stage : Nat) : State :=
  let s := s.modCore c (fun k => (k.settle).entry l stage s.gtc)
  let s := { s with late := s.late.filter (fun p => p.1 != c || !(entryReset p.2.2.1 || p.2.2.1 == 0x201)) }
  let s := s.modLaunch l.seq (fun l => { l with
    bars := l.bars.filter (fun p => p.1 / 32 != c), barClk := l.barClk.filter (fun p => p.1 / 32 != c)
    taken := l.taken.filter (fun p => p.1 / 4 != c), arrived := l.arrived.filter (fun p => p.1 / 4 != c) })
  s.loadReservation c l (l.entries stage).2.1

/-- A pull into the landing ring that the port has begun and that has not landed (R351). -/
def Port.ringPull (p : Port) : Bool :=
  p.pulls.any (fun x => !x.dead && decide (0 < x.requested) && (match x.land with | .ring _ => true | _ => false))

/-- The launch that a free core enters (R174). A core whose port still lands a begun pull into the ring of the launch before is not free: that launch
has not completed there, and its reservation holds the ring (R351; DEDUCED, log 111). -/
def State.entering (s : State) (c : Nat) : Option Launch :=
  let k := s.core c
  let busy : Bool := match s.preempt with
    | some p => p.reported.contains c && !p.saved.contains c
    | none => false
  if k.launch ≠ 0 ∨ k.failed ∨ busy ∨ k.port.ringPull ∨ Config.nCores ≤ c then none
  else
    let ws := (s.quire (quireOf c)).walkers.filterMap (fun w => s.launch? w.launch)
    (ws.filter (fun l => l.state == .running && l.killed.isNone && !l.entered.contains c)).foldl (fun best l => match best with
      | some b => if l.startOrder < b.startOrder then some l else some b
      | none => some l) none

/-- A saved core re-enters its launch: what the save area does not hold is kept with the launch, and its contexts stand
stopped until firmware has restored them (R408). -/
def State.reenter (s : State) (c : Nat) (l : Launch) : State :=
  let s := s.modLaunch l.seq (fun x => { x with bars := l.bars, barClk := l.barClk, taken := l.taken, arrived := l.arrived })
  let push (x : Ctx) (r : Role) : Ctx :=
    { x with push := SMap.get [] l.pushes (takenKey c r), ending := SMap.get none l.endings (takenKey c r) }
  let s := s.modCore c (fun k =>
    { k with ctxL := push k.ctxL .L, ctxC := push k.ctxC .C, ctxS := push k.ctxS .S, replay := SMap.get [] l.replays c })
  s.stopTrio c

/-- The contexts of core `c` that ran under epoch `old` go on under `e`: the notices that they published are theirs still (R349). -/
def State.sameContexts (s : State) (c old e : Nat) : State :=
  let up (b : Pub) : Pub :=
    { b with epoch := if b.epoch = old then e else b.epoch
             raisedIn := b.raisedIn.map (fun x => if x.2 = old then (x.1, e) else x) }
  s.modPort c (fun p => { p with pubs := p.pubs.map (fun x => (x.1, x.2.map up)) })

/-- LAUNCH_ENTER (R174): a launch that starts again after a pre-emption enters with its contexts stopped (R408). -/
def execLaunchEnter (s : State) : Out :=
  let c := s.cur.core
  match s.entering c with
  | none => .next s
  | some l =>
    let again := l.toReport.contains c
    let old := SMap.get 0 l.epochs c
    let stage := SMap.get 0 l.stageOf c
    let s := s.modCore c (fun k => { k with epoch := k.epoch + 1, held := [], replay := [] })
    let e := (s.core c).epoch
    let s := s.enterTrio c l stage
    let s := trioRoles.foldl (fun s r =>
      s.acquire (.ctx c r e) (l.clock.join (if again then s.clockOf (.ctx c r old) else {}))) s
    let s := s.modLaunch l.seq (fun l => { l with entered := l.entered ++ [c], epochs := SMap.set 0 l.epochs c e })
    .next (if again then (s.reenter c l).sameContexts c old e else s)

/-! Completion (R170, R300) -/

/-- Every trio has ended, every command that the launch's contexts enqueued has retired, and every pull into its rings that a port has begun has
landed (R300, R351). -/
def State.launchOver (s : State) (l : Launch) : Bool :=
  l.state == .running && (l.killed.isSome || (coresOf l.rcd.qmask).all (fun c => l.ended.contains c)) &&
    !s.cores.any (fun p => p.2.launch == l.seq || p.2.chains.any (fun q => q.2.cmds.any (fun e => e.live && e.launch == l.seq))) &&
    !l.entered.any (fun c => SMap.get 0 l.epochs c == (s.core c).epoch && (s.core c).port.ringPull) &&
    (match s.preempt with | some p => p.victim != l.seq | none => true)

/-- What the completion signal comes to. -/
inductive Signal where
  | sent (s : State)
  | wait (s : State)
  | failed (s : State) (cause sub : Nat)

/-- The smallest instance that contains every core that ran an index of the launch; `home` stands for a launch that ran none (R170). -/
def Launch.ranIn (l : Launch) (home : Nat) : Scope × Nat :=
  match l.ran with
  | [] => (.core, home)
  | c :: cs => (smallestScope c cs, instOf (smallestScope c cs) c)

/-- The completion signal of a launch (R170): an access on behalf of the launch as a whole. A stored value is held at the scope of its release;
an atomic addition is never held (R243). -/
def State.signal (s : State) (l : Launch) : Signal :=
  if l.rcd.sigop = 0 then .sent s
  else
    let home := match l.queue with
      | some (d, _, _) => 80 * d
      | none => l.issuer.getD 0
    let a := Agent.launch l.seq
    match s.xlatParts home (if l.phys then none else some l.aspace) .write [(l.rcd.sigaddr, 8)] with
    | .error f => .failed s f.cause f.sub
    | .ok (s, ps) =>
      let spans := spansOf ps
      if ps.any (fun p => match region p.pa with | .decoded _ _ => true | _ => false) then .failed s 0x24 0
      else if ps.any (fun p => s.pinned .trio p.pa p.len) then .failed s 0x26 0
      else
        let s := s.acquire a l.endClock
        let ran := l.ranIn home
        let t : Touch := { agent := a, write := true, sync := true, spans := spans, home := some ran }
        match s.ask t ps with
        | .fault cause sub _ _ => .failed s cause sub
        | .refused line _ =>
          let since := l.sigSince.getD s.gtc
          if since + 2 ^ 20 ≤ s.gtc then .failed s 0x23 0
          else .wait ((s.refuse t line since).modLaunch l.seq (fun l => { l with sigSince := some since }))
        | .granted s =>
          if l.rcd.sigop = 2 ∧ (s.badIn spans).isSome then .failed s 0x25 0
          else
            let old := leNat (s.readParts ps)
            let v := if l.rcd.sigop = 1 then l.rcd.sigval.toNat else (old + l.rcd.sigval.toNat) % 2 ^ 64
            let sc := widerScope ((scopeOf l.rcd.sigscope).getD .core) ran.1
            let inst := (sc, instOf sc (instCore ran.1 ran.2))
            let s : State := s.writeParts ps (leBytes 8 v)
            let hs : List Part := ps.filter (fun p => p.leaf.holdable)
            let s := if l.rcd.sigop = 1 ∧ ¬ hs.isEmpty then s.holdIn { t with spans := spansOf hs } (some inst) else s
            let (s, k) := s.releaseIn a inst
            .sent (spans.foldl (fun (s : State) (p : Nat × Nat) => s.addReleaseIn p.1 p.2 inst ran k) s)

/-- Report a failed completion signal (R170). -/
def State.signalFail (s : State) (l : Launch) (cause sub : Nat) : State :=
  match l.queue with
  | some (d, q, _) => s.queueFail d q cause sub l.rcd.sigaddr.toNat
  | none => s.report (l.issuer.getD 0) { cause := cause, sub := sub, src := 0, ctx := 3, val := l.rcd.sigaddr, notTrap := true }

/-- Report a killed launch once (R165, R403); it never completes, so the SIGNALs that wait for it are not written. -/
def State.tellKilled (s : State) (q : Nat) : State :=
  match s.launch? q with
  | some l =>
    (match l.killed, l.queue with
      | some (cause, sub, v), some (d, qsb, _) =>
        if l.told then s
        else
          let s := s.modDie d (fun x => { x with signals := x.signals.filter (fun y => !y.after.contains q) })
          (s.queueFail d qsb cause sub v.toNat).modLaunch q (fun l => { l with told := true })
      | _, _ => s)
  | none => s

/-- Release every held launch whose tick has come, unless a launch that overruns holds it (R404). -/
def State.releaseTicks (s : State) : State :=
  { s with launches := s.launches.map (fun l =>
    if l.state = .held ∧ l.rcd.reltick.toNat ≤ s.frame ∧ ¬ s.withheld l.rcd.reltick.toNat then { l with state := .ready, pushedAt := s.gtc } else l) }

/-- The walkers and the record of a launch go; timetabled releases that it held come (R404). -/
def State.dropLaunch (s : State) (q : Nat) : State :=
  let drop (u : Quire) : Quire := { u with walkers := u.walkers.filter (fun w => w.launch != q) }
  let s := { s with quires := s.quires.map (fun (p : Nat × Quire) => (p.1, drop p.2)), launches := s.launches.filter (fun l => l.seq != q),
                    forcedList := s.forcedList.filter (· != q) }
  s.releaseTicks

/-- LAUNCH_COMPLETE (R170, R165, R399, R404). -/
def execLaunchComplete (seq : Nat) (s : State) : Out :=
  match s.launch? seq with
  | none => .next s
  | some l =>
    if !s.launchOver l then .next s
    else if l.killed.isSome then .next ((s.tellKilled seq).dropLaunch seq)
    else
      let finish (s : State) : State :=
        let s := match l.queue with
          | some (d, _, w) => if w = 0xFFFF then s else s.wakeQueue (.qp d) w
          | none => s
        let s := if l.overran then s.slipOf l l.rcd.deadline.toNat (s.gtc - l.overAt) 0 else s
        s.dropLaunch seq
      match s.signal l with
      | .sent s => .next (finish s)
      | .wait s => .next s
      | .failed s cause sub => .next (finish (s.signalFail l cause sub))

/-! Timetables (R404) -/

/-- RELTICK_RELEASE (R404). -/
def execReltickRelease (seq : Nat) (s : State) : Out :=
  match s.launch? seq with
  | some l =>
    if l.state = .held ∧ l.rcd.reltick.toNat ≤ s.frame ∧ ¬ s.withheld l.rcd.reltick.toNat then
      .next (s.modLaunch seq (fun l => { l with state := .ready, pushedAt := s.gtc }))
    else .next s
  | none => .next s

/-- Whether a launch overruns now (R404). -/
def State.overruns (s : State) (l : Launch) : Bool :=
  l.rcd.deadline != 0 && !l.overran && decide (l.rcd.deadline.toNat ≤ s.frame)

/-- DEADLINE_OVERRUN (R404). -/
def execDeadlineOverrun (seq : Nat) (s : State) : Out :=
  match s.launch? seq with
  | some l =>
    if s.overruns l then
      let t := l.rcd.deadline.toNat * 2 ^ (SMap.get 0 s.sys 0x011).toNat
      .next (s.modLaunch seq (fun l => { l with overran := true, overAt := t, overFrame := s.frame }))
    else .next s
  | none => .next s

/-! The stage scheduler (R181) -/

/-- fill(i) as a fraction (R181). -/
def State.stageFill (s : State) (l : Launch) (i : Nat) : Nat × Nat :=
  match i with
  | 0 => (if s.quires.any (fun p => p.2.walkers.any (fun w => w.launch == l.seq && decide (w.lo < w.hi))) then 1 else 0, 1)
  | i + 1 => match l.stage? (i + 1) with
    | some g => (s.ringSeq g 0 - s.ringSeq g 8, g.ringsize)
    | none => (0, 1)

/-- One fraction is less than another. -/
def fillLess (a b : Nat × Nat) : Bool := decide (a.1 * b.2 < b.1 * a.2)

/-- The cores that a stage holds: those whose trio of the stage runs. A core that has joined a stage (R180) and has not entered yet counts
neither against MINCORES nor as a core to mark (DESIGN CHOICE, log 90). -/
def State.stageCores (s : State) (l : Launch) (i : Nat) : List Nat :=
  (coresOf l.rcd.qmask).filter (fun c => (s.core c).launch == l.seq && (s.core c).stage == i)

/-- The stage that has the least or the greatest fill, the lowest on a tie. -/
def State.pickStage (s : State) (l : Launch) (least : Bool) (ok : Nat → Bool) : Option Nat :=
  (List.range l.rcd.nstage).foldl (fun best i =>
    if !ok i then best
    else match best with
      | none => some i
      | some b =>
        let x := s.stageFill l i
        let y := s.stageFill l b
        if (if least then fillLess x y else fillLess y x) then some i else some b) none

/-- STAGE_SCHEDULE (R181). -/
def execStageSchedule (seq : Nat) (s : State) : Out :=
  match s.launch? seq with
  | none => .next s
  | some l =>
    if s.gtc % 4096 ≠ 0 ∨ s.gtc < l.schedAt ∨ l.rcd.nstage = 0 ∨ l.state ≠ .running then .next s
    else
      let s := s.modLaunch seq (fun l => { l with schedAt := s.gtc + 1 })
      let donor := s.pickStage l true (fun i => match l.stage? i with
        | some g => decide (g.mincores < (s.stageCores l i).length)
        | none => false)
      let receiver := s.pickStage l false (fun i => match l.stage? (i + 1) with
        | some g => decide (s.ringSeq g 0 - s.ringSeq g 8 < g.bpthresh)
        | none => true)
      match donor, receiver with
      | some d, some r =>
        let marked := s.cores.any (fun p => p.2.launch == seq && p.2.marked)
        if d = r ∨ marked ∨ ¬ fillLess (s.stageFill l d) (s.stageFill l r) then .next s
        else
          match (s.stageCores l d).getLast? with
          | some c =>
            let s := s.modCore c (fun k => { k with marked := true })
            .next (s.modLaunch seq (fun l => { l with stageOf := SMap.set 0 l.stageOf c r }))
          | none => .next s
      | _, _ => .next s

/-- The trio of a marked core has drained (R181). -/
def Core.drained (k : Core) : Bool :=
  k.marked && k.launch != 0 && k.ctxL.run == .ended && k.ctxC.run == .ended && k.ctxS.run == .ended

/-- STAGE_REENTER (R181): the drained core enters the receiver's entries. -/
def execStageReenter (s : State) : Out :=
  let c := s.cur.core
  match s.launchOf c with
  | some l => if (s.core c).drained then .next (s.enterTrio c l (SMap.get 0 l.stageOf c)) else .next s
  | none => .next s

end Sys2Proof.Machine
end

