-- ==== Sys2Proof/Machine/Packets.lean ====
section
/-! DEFINITION. The queue processor: packets, fences, signals, kicks, mapping and scans (spec 21 R393 to R403). A COLL packet
is Collective.lean's. -/
namespace Sys2Proof.Machine

/-- The core in whose TLBs a die's queue processor translates (log 6). -/
def qpCore (d : Nat) : Nat := 80 * d

/-- ASPACE of a queue (R393). -/
def State.qAspace (s : State) (qsb : Nat) : Word := BitVec.ofNat 64 (s.qField qsb 0x30 8)
/-- Slot `i` of a queue's ring (R393). -/
def State.qSlot (s : State) (qsb i : Nat) : Nat := s.qField qsb 0x20 8 + 64 * (i % s.qField qsb 0x28 4)

/-- Change queue `i` of a die. -/
def State.modQSlot (s : State) (d i : Nat) (f : QSlot → QSlot) : State :=
  s.modDie d (fun x => { x with queues := x.queues.mapIdx (fun j q => if j = i then f q else q) })

/-- A packet of a mapped queue. -/
structure Pkt where
  die : Nat
  slot : Nat
  qsb : Nat
  rd : Nat
  /-- its first slot -/
  bs : List Byte

/-- TYPE, NCNT and WAKEQ of a packet (R401). -/
def Pkt.type (p : Pkt) : Nat := leNat (p.bs.take 1)
/-- NCNT. -/
def Pkt.ncnt (p : Pkt) : Nat := leNat (p.bs.take 2) / 4096
/-- WAKEQ. -/
def Pkt.wakeq (p : Pkt) : Nat := leNat ((p.bs.drop 2).take 2)
/-- The 8 bytes at 0x08. -/
def Pkt.arg (p : Pkt) : Word := BitVec.ofNat 64 (leNat ((p.bs.drop 8).take 8))

/-- The packet at RDIDX of queue `i` of die `d`, if the queue is mapped, not held and not empty (R401). -/
def State.packetAt (s : State) (d i : Nat) : Option Pkt :=
  match (s.die d).queues[i]? with
  | none => none
  | some q =>
    let rd := s.qField q.qsb 0x18 8
    let bs := s.readKey 0 (s.qSlot q.qsb rd) 64
    let need := if leNat (bs.take 1) = 3 then 4 else 1
    if q.hold = .free ∧ s.qState q.qsb = 1 ∧ rd + need ≤ s.qField q.qsb 0x10 8 then
      some { die := d, slot := i, qsb := q.qsb, rd := rd, bs := bs }
    else none

/-- Whether the header and the unnamed bytes are as R401 and R403 ask; `named` are the named bytes after the header. -/
def Pkt.wellFormed (p : Pkt) (named : Nat) : Bool :=
  let h := leNat (p.bs.take 8)
  h / 2 ^ 32 == 0 && h / 2 ^ 9 % 8 == 0 && (p.type == 3 || p.ncnt == 0) && (p.type == 1 || h / 2 ^ 8 % 2 == 0) &&
    leNat (p.bs.drop (8 + named)) == 0

/-- RDIDX advances past `n` slots, and parsing goes on (R401). -/
def State.advance (s : State) (p : Pkt) (n : Nat) : State :=
  (s.qWrite p.die p.qsb 0x18 8 (p.rd + n)).modQSlot p.die p.slot (fun q => { q with hold := .free })

/-- Parsing holds at the packet; a queue that waits may have to make room (R397). -/
def State.holdAt (s : State) (p : Pkt) (w : QWait) : State :=
  (s.modQSlot p.die p.slot (fun q => { q with hold := w })).modDie p.die (fun x => { x with doorbell := true })

/-- The packet's queue fails (R403). -/
def State.packetFail (s : State) (p : Pkt) (cause sub val : Nat) : State := s.queueFail p.die p.qsb cause sub val

/-- The queue's access has been made: it is refused no more. -/
def State.admitQ (s : State) (p : Pkt) : State := (s.modQSlot p.die p.slot (fun q => { q with refused := none })).calm (.qp p.die)
/-- The queue's access is refused for now (R245). -/
def State.refuseQ (s : State) (p : Pkt) : State := s.modQSlot p.die p.slot (fun q => { q with refused := some (q.refused.getD s.gtc) })

/-- An access of the queue processor for a packet: it is made, or the queue fails, or it is tried again while a held line refuses it (R239, R245,
R403). -/
def State.qpAdmit (s : State) (p : Pkt) (write sync : Bool) (ps : List Part) (k : State → State) : State :=
  match s.qpAsk p.die write sync ps with
  | .made s => k (s.admitQ p)
  | .again s => s.refuseQ p
  | .fail cause sub v => s.packetFail p cause sub v

/-- A read at virtual addresses of the queue: translated parts, the admitted access, the bytes. -/
def State.qpLoad (s : State) (p : Pkt) (sync : Bool) (parts : List (Word × Nat)) (k : State → List Part → List Byte → State) : State :=
  match s.xlatParts (qpCore p.die) (some (s.qAspace p.qsb)) .read parts with
  | .error f => s.packetFail p f.cause f.sub (f.val.getD 0)
  | .ok (s, ps) => s.qpAdmit p false sync ps (fun s => k s ps (s.readParts ps))

/-- The queue processor reads the words of the queue's block from CTRL to ASPACE, as an acquire (R393). -/
def State.atQueue (s : State) (p : Pkt) (k : State → State) : State :=
  s.qpAdmit p false true (physParts (p.qsb + 0x08) 0x30) (fun s =>
    k (s.acquireAt (.qp p.die) .pkg (p.qsb + 0x08) 0x30 s.order.serial))

/-- Parse the packet of one type: the queue's words are acquired, the slot is read, its form is checked, and then `body` (R401, R403). -/
def State.parse (s : State) (d i : Nat) (ok : Nat → Bool) (named slots : Nat) (body : State → Pkt → State) : State :=
  match s.packetAt d i with
  | none => s
  | some p =>
    if !ok p.type then s
    else s.atQueue p (fun s =>
      let slotParts := (List.range slots).flatMap (fun j => physParts (s.qSlot p.qsb (p.rd + j)) 64)
      s.qpAdmit p false false slotParts (fun s =>
        if p.wellFormed named then body s p else s.packetFail p 0x02 0 p.rd))

/-- NOP_PACKET (R401); an unknown TYPE fails the queue (R403). -/
def execNopPacket (d i : Nat) (s : State) : Out :=
  .next (s.parse d i (fun t => t == 0 || decide (6 ≤ t)) 0 1 (fun s p =>
    if p.type = 0 then s.advance p 1 else s.packetFail p 0x02 0 p.rd))

/-- Push the launch of a packet (R402, R182): a release that its contexts acquire. -/
def State.packetLaunch (s : State) (p : Pkt) (r : LRec) (gs : List Stage) : State :=
  let d := p.die
  let (s, clk) := s.release (.qp d) .pkg
  let rerun := leNat (p.bs.take 2) / 2 ^ 8 % 2 == 1 && !s.featureOff 5
  let (s, _) := s.pushLaunch (10 * d)
    (newLaunch r gs (s.qField p.qsb 0x2C 1 % 8) (s.qAspace p.qsb) false none (some (d, p.qsb, p.wakeq)) rerun clk)
  s.advance p 1

/-- LAUNCH_PACKET (R402, R169, R403). -/
def execLaunchPacket (d i : Nat) (s : State) : Out :=
  .next (s.parse d i (· == 1) 8 1 (fun s p =>
    let va := p.arg
    let bad (s : State) : State := s.packetFail p 0x13 0 va.toNat
    if va.toNat % 128 ≠ 0 then bad s
    else s.qpLoad p false [(va, 128)] (fun s _ bs =>
      match recOf bs with
      | none => bad s
      | some r =>
        if !s.recOk r then bad s
        else if r.nstage = 0 then s.packetLaunch p r []
        else s.qpLoad p false (pageParts r.stages (64 * r.nstage)) (fun s _ bs =>
          match stagesOf true r.nstage bs with
          | none => bad s
          | some gs =>
            if !enoughCores r gs then bad s
            else match s.ringPages (qpCore d) (some (s.qAspace p.qsb)) gs with
              | .error f => s.packetFail p f.cause f.sub (f.val.getD 0)
              | .ok (s, gs) => s.packetLaunch p r gs))))

/-! FENCE and TIMED (R402) -/

/-- Comparison of a FENCE. -/
def fenceHolds (cmp x v : Nat) : Bool :=
  match cmp with
  | 0 => x == v | 1 => x != v | 2 => decide (v ≤ x) | _ => decide (x < v)

/-- Address word and value of counter `i` in the 256 bytes of a FENCE. -/
def fenceCounter (bs : List Byte) (i : Nat) : Nat × Nat :=
  (leNat ((bs.drop (0x40 + 16 * i)).take 8), leNat ((bs.drop (0x48 + 16 * i)).take 8))

/-- One pass over counters `i`, `i + 1`, …: parsing resumes when every comparison holds in it. -/
def State.fencePass (s : State) (p : Pkt) (bs : List Byte) : Nat → Nat → State
  | 0, _ => s.advance p 4
  | n + 1, i =>
    let (w, v) := fenceCounter bs i
    let va := BitVec.ofNat 64 (w / 8 * 8)
    match s.xlatParts (qpCore p.die) (some (s.qAspace p.qsb)) .read [(va, 8)] with
    | .error f => s.packetFail p f.cause f.sub (f.val.getD 0)
    | .ok (s, ps) =>
      match s.qpAsk p.die false true ps with
      | .fail cause sub a => s.packetFail p cause sub a
      | .again s => (s.refuseQ p).holdAt p (.fence bs)
      | .made s =>
        let x := leNat (s.readParts ps)
        let s := (spansOf ps).foldl (fun s q => s.acquireAt (.qp p.die) .pkg q.1 q.2 s.order.serial) (s.admitQ p)
        if fenceHolds (w % 8) x v then State.fencePass s p bs n (i + 1) else s.holdAt p (.fence bs)

/-- FENCE_PACKET (R401, R402, R403). -/
def execFencePacket (d i : Nat) (s : State) : Out :=
  .next (s.parse d i (· == 3) 0 4 (fun s p =>
    let bs := (List.range 4).flatMap (fun j => s.readKey 0 (s.qSlot p.qsb (p.rd + j)) 64)
    let n := p.ncnt
    if n = 0 ∨ 12 < n ∨ leNat (bs.drop (0x40 + 16 * n)) ≠ 0 ∨ (List.range n).any (fun i => decide (3 < (fenceCounter bs i).1 % 8)) then
      s.packetFail p 0x02 0 p.rd
    else s.fencePass p bs n 0))

/-- The packet at which queue `i` is held. -/
def State.heldPacket (s : State) (d i : Nat) : Option (Pkt × QWait) :=
  match (s.die d).queues[i]? with
  | none => none
  | some q =>
    let rd := s.qField q.qsb 0x18 8
    if s.qState q.qsb = 1 ∧ q.hold ≠ .free then
      some ({ die := d, slot := i, qsb := q.qsb, rd := rd, bs := s.readKey 0 (s.qSlot q.qsb rd) 64 }, q.hold)
    else none

/-- FENCE_RESUME (R402): the counters are read again. -/
def execFenceResume (d i : Nat) (s : State) : Out :=
  match s.heldPacket d i with
  | some (p, .fence bs) => .next (s.atQueue p (fun s => s.fencePass p bs (leNat (bs.take 2) / 4096) 0))
  | _ => .next s

/-- TIMED_PACKET (R402). -/
def execTimedPacket (d i : Nat) (s : State) : Out :=
  .next (s.parse d i (· == 5) 8 1 (fun s p => if p.arg.toNat ≤ s.gtc then s.advance p 1 else s.holdAt p (.timed p.arg)))

/-- TIMED_RESUME (R402). -/
def execTimedResume (d i : Nat) (s : State) : Out :=
  match s.heldPacket d i with
  | some (p, .timed t) => if t.toNat ≤ s.gtc then .next (s.atQueue p (fun s => s.advance p 1)) else .next s
  | _ => .next s

/-! SIGNAL (R402) -/

/-- Launches of a queue that have not completed. -/
def State.launchesOf (s : State) (qsb : Nat) : List Nat :=
  (s.launches.filter (fun l => match l.queue with | some (_, q, _) => q == qsb | none => false)).map (fun l => l.seq)

/-- Every launch that a SIGNAL waits for has completed (R402). -/
def State.signalDue (s : State) (x : PendSignal) : Bool := !s.launches.any (fun l => x.after.contains l.seq)

/-- The SIGNAL value is written as a release at package scope, and WAKEQ is woken (R402): a stored value is held at that scope, an addition is
never held (R243). ASPACE is read from the queue's block first (R393). Answers the signal again where a held line refuses an access for now. -/
def State.writeSignal (s : State) (d : Nat) (x : PendSignal) : State × Option PendSignal :=
  let p : Pkt := { die := d, slot := 0, qsb := x.qsb, rd := 0, bs := x.bs }
  let v := leNat ((p.bs.drop 0x10).take 8)
  let add := leNat ((p.bs.drop 0x18).take 1) % 2 == 1
  let later (s : State) : State × Option PendSignal := (s, some { x with refused := some (x.refused.getD s.gtc) })
  match s.qpRead d (p.qsb + 0x30) 8 with
  | .fail cause sub a => (s.packetFail p cause sub a, none)
  | .again s => later s
  | .made s =>
    match s.xlatParts (qpCore d) (some (s.qAspace p.qsb)) .write [(p.arg, 8)] with
    | .error f => (s.packetFail p f.cause f.sub (f.val.getD 0), none)
    | .ok (s, ps) =>
      if ps.any (fun q => match region q.pa with | .decoded _ _ => true | _ => false) then (s.packetFail p 0x24 0 p.arg.toNat, none)
      else if ps.any (fun q => s.pinned .trio q.pa q.len) then (s.packetFail p 0x26 0 p.arg.toNat, none)
      else
        match s.qpAsk d true true ps with
        | .fail cause sub a => (s.packetFail p cause sub a, none)
        | .again s => later s
        | .made s =>
          match (if add then s.badIn (spansOf ps) else none) with
          | some a => (s.packetFail p 0x25 0 a, none)
          | none =>
            let old := if add then leNat (s.readParts ps) else 0
            let hs := ps.filter (fun q => !add && q.leaf.holdable)
            let s := s.writeParts ps (leBytes 8 ((old + v) % 2 ^ 64))
            let s := if hs.isEmpty then s else s.hold { agent := .qp d, write := true, sync := true, spans := spansOf hs } (some .pkg)
            let (s, k) := s.release (.qp d) .pkg
            let s := (spansOf ps).foldl (fun s q => s.addRelease q.1 q.2 (.qp d) .pkg k) s
            (if p.wakeq = 0xFFFF then s else s.wakeQueue (.qp d) p.wakeq, none)

/-- SIGNAL_PACKET (R402): it does not hold parsing (R401); the VA is a multiple of 8. A fault that arises at the parse leaves
RDIDX at the packet (R403). -/
def execSignalPacket (d i : Nat) (s : State) : Out :=
  .next (s.parse d i (· == 4) 17 1 (fun s p =>
    if p.arg.toNat % 8 ≠ 0 ∨ 1 < leNat ((p.bs.drop 0x18).take 1) then s.packetFail p 0x02 0 p.rd
    else
      match s.xlatParts (qpCore d) (some (s.qAspace p.qsb)) .write [(p.arg, 8)] with
      | .error f => s.packetFail p f.cause f.sub (f.val.getD 0)
      | .ok (s, _) =>
        let x : PendSignal := { qsb := p.qsb, bs := p.bs, after := s.launchesOf p.qsb }
        let r := if s.signalDue x then s.writeSignal d x else (s, some x)
        let t := r.1.modDie d (fun y => { y with signals := y.signals ++ r.2.toList })
        if t.qState p.qsb = 3 then t else t.advance p 1))

/-- SIGNAL_WRITE (R402): signal `i` of the die is written once the launches that it waits for have completed. -/
def execSignalWrite (d i : Nat) (s : State) : Out :=
  match (s.die d).signals[i]? with
  | none => .next s
  | some x =>
    if s.signalDue x then
      let r := (s.modDie d (fun y => { y with signals := removeAt y.signals i })).writeSignal d x
      .next ((r.1.modDie d (fun y => { y with signals := y.signals.take i ++ r.2.toList ++ y.signals.drop i })).calm (.qp d))
    else .next s

/-! Kicks (R400) -/

/-- The agent that the host's accesses are: firmware of core 0 (R428). -/
def hostAgent : Agent := .ctx 0 .F 0

/-- A kick of the host (R400): AMAXN of the index into WRIDX, a release at package scope of what the host did before, then a wake; an unknown
queue is reported. An access that may not be made is refused with its cause (R428); while a held line refuses it, the kick waits (R245). -/
def State.kick (s : State) (qid : Nat) (index : Nat) : State :=
  let later (s : State) : State := { s with kicks := s.kicks ++ [(qid, index)] }
  match s.findQueue qid with
  | (s, .nowhere) => s.tell (.badKick qid)
  | (s, .again _) => later s
  | (s, .at d q) =>
    let t : Touch := { agent := hostAgent, write := true, sync := true, spans := [(q + 0x10, 8)] }
    match s.ask t (physParts (q + 0x10) 8) with
    | .fault cause sub _ _ => s.tell (.refused cause sub)
    | .refused line _ =>
      let since := s.refusedAt hostAgent line
      if since + 2 ^ 20 ≤ s.gtc then s.tell (.refused 0x23 0) else later (s.refuse t line since)
    | .granted s =>
      let v := Nat.max (s.qField q 0x10 8) index
      let (s, k) := s.release hostAgent .pkg
      let s := ((s.clearBad (q + 0x10) 8).writeKey 0 (q + 0x10) (leBytes 8 v)).addRelease (q + 0x10) 8 hostAgent .pkg k
      s.wakeAt hostAgent qid d q

/-- The kicks that wait are tried again, oldest first (R245); `none` where nothing changes. -/
def State.kickTurn (s : State) : Option State :=
  if s.kicks.isEmpty then none
  else
    let t := (s.kicks.foldl (fun (s : State) k => s.kick k.1 k.2) { s with kicks := [] }).calm hostAgent
    if t.kicks = s.kicks ∧ t.order.waiters = s.order.waiters then none else some t

/-- KICK (R400). -/
def execKick (qid : BitVec 16) (index : Word) (s : State) : Out := .next (s.kick qid.toNat index.toNat)

/-! Scans (R394 to R398) -/

/-- A queue is runnable (R397). -/
def State.runnable (s : State) (qsb : Nat) : Bool :=
  (s.qState qsb != 3 && decide (s.qField qsb 0x18 8 < s.qField qsb 0x10 8)) || s.qField qsb 0x08 8 / 256 % 2 == 1 ||
    s.qField qsb 0x50 8 != 0

/-- Whether a mapped queue holds a FENCE or TIMED packet. -/
def QSlot.waits (q : QSlot) : Bool := match q.hold with | .fence _ => true | .timed _ => true | _ => false
/-- A mapped queue's ring is empty, and it holds no waiting packet. -/
def State.emptied (s : State) (q : QSlot) : Bool := q.hold == .free && decide (s.qField q.qsb 0x10 8 ≤ s.qField q.qsb 0x18 8)
/-- An idle mapped queue (R397). -/
def State.idleQueue (s : State) (q : QSlot) : Bool := q.unmapping == 0 && (s.emptied q || q.waits)

/-- Change the mapped queue at `qsb` of a die. -/
def State.modMapped (s : State) (d qsb : Nat) (f : QSlot → QSlot) : State :=
  s.modDie d (fun x => { x with queues := x.queues.map (fun q => if q.qsb = qsb then f q else q) })

/-- An access of a scan to a queue's block (R393): the queue fails where it is refused for good; one that is refused for now comes again in a later
scan (R239, R245, R403). -/
def State.scanAsk (s : State) (d qsb : Nat) (write : Bool) (off n : Nat) (k : State → State) : State :=
  match (if write then s.qpAsk d true true (physParts (qsb + off) n) else s.qpRead d (qsb + off) n) with
  | .made s => k s
  | .again s => s.scanStuck d
  | .fail cause sub v => s.queueFail d qsb cause sub v

/-- CTRL of a queue takes a value, in one atomic step of the queue processor (R397, R398). -/
def State.setCtrl (s : State) (d qsb v : Nat) : State := s.qpWrite d (qsb + 0x08) 8 v

/-- The queue stays mapped after all (R398). -/
def State.stayMapped (s : State) (d qsb : Nat) : State := (s.setCtrl d qsb 1).modMapped d qsb (fun q => { q with unmapping := 0 })

/-- One step of unmapping (R398), the first where none has been made: a wake or a kick may come between any two. -/
def State.unmapStep (s : State) (d : Nat) (q : QSlot) : State :=
  let ctrl (s : State) : Nat := s.qField q.qsb 0x08 8
  let go (n : Nat) (s : State) : State := s.modMapped d q.qsb (fun q => { q with unmapping := n })
  match q.unmapping with
  | 0 => s.scanAsk d q.qsb true 0x08 8 (fun s => go 1 (s.setCtrl d q.qsb (ctrl s / 256 * 256 + 2)))
  | 1 => s.scanAsk d q.qsb true 0x08 8 (fun s => go 2 (if ctrl s / 256 % 2 = 1 then s.setCtrl d q.qsb 2 else s))
  | 2 => s.scanAsk d q.qsb false 0x10 16 (fun s =>
      if s.qField q.qsb 0x18 8 < s.qField q.qsb 0x10 8 ∨ q.waits then s.scanAsk d q.qsb true 0x08 8 (fun s => s.stayMapped d q.qsb)
      else go 3 s)
  | _ => s.scanAsk d q.qsb true 0x08 8 (fun s =>
      if ctrl s / 256 % 2 = 1 then s.stayMapped d q.qsb
      else ((s.setCtrl d q.qsb 0).modDie d (fun x => { x with queues := x.queues.filter (fun y => y.qsb != q.qsb) })).calm (.qp d))

/-- Mapping: CTRL goes from (0, w) to (1, 0) (R397). -/
def State.map (s : State) (d qsb : Nat) : State :=
  s.scanAsk d qsb true 0x08 8 (fun s =>
    (s.setCtrl d qsb 1).modDie d (fun x => { x with queues := x.queues ++ [{ qsb := qsb, hold := .free }] }))

/-- Priority of a queue as the lists place it. -/
def placeOf (order : List (Nat × Nat)) (qsb : Nat) : Nat × Nat :=
  ((order.zip (List.range order.length)).find? (fun p => p.1.2 == qsb)).elim (0, order.length) (fun p => (p.1.1, p.2))

/-- The idle mapped queue of lowest priority, the latest in scan order on a tie, below priority `p` (R397). -/
def State.idleVictim (s : State) (d p : Nat) (order : List (Nat × Nat)) : Option QSlot :=
  (s.die d).queues.foldl (fun best q =>
    let x := placeOf order q.qsb
    if !s.idleQueue q || decide (p ≤ x.1) then best
    else match best with
      | none => some q
      | some b =>
        let y := placeOf order b.qsb
        if x.1 < y.1 ∨ (x.1 = y.1 ∧ y.2 < x.2) then some q else some b) none

/-- A runnable queue of STATE 0 takes its turn in a scan (R397): it is mapped while a slot is free; else the idle queue that stands below it
begins to be unmapped, one at a time. -/
def State.placeQueue (s : State) (d : Nat) (order : List (Nat × Nat)) (x : Nat × Nat) : State :=
  if s.qState x.2 ≠ 0 ∨ ¬ s.runnable x.2 then s
  else if (s.die d).queues.length < 16 then s.map d x.2
  else if (s.die d).queues.any (fun q => q.unmapping != 0) then s
  else match s.idleVictim d x.1 order with
    | some q => s.unmapStep d q
    | none => s

/-- A scan reads a queue and gives it its turn (R396, R397): CTRL, and of a queue that has not failed WRIDX, RDIDX and SAVED. -/
def State.scanQueue (d : Nat) (order : List (Nat × Nat)) (s : State) (x : Nat × Nat) : State :=
  s.scanAsk d x.2 false 0x08 8 (fun s =>
    if s.qState x.2 = 3 then s
    else s.scanAsk d x.2 false 0x10 16 (fun s => s.scanAsk d x.2 false 0x50 8 (fun s => s.placeQueue d order x)))

/-- The bad links that a scan of a die finds: priority, word and value (R394). -/
def State.scanBad (s : State) (d : Nat) : List (Nat × Nat × Nat) :=
  [7, 6, 5, 4, 3, 2, 1, 0].filterMap (fun p => (s.runList d p).bad.map (fun w => (p, w, leNat (s.readKey 0 w 8))))

/-- Bad links not yet reported. -/
def State.freshBad (s : State) (d : Nat) : List (Nat × Nat × Nat) :=
  (s.scanBad d).filter (fun b => !(s.die d).badLinks.contains (b.2.1, b.2.2))

/-- A mapped queue's turn in a scan: its indices are read, and one that is being unmapped, or whose ring is empty, makes its next step
(R393, R397, R398). -/
def State.scanMapped (d : Nat) (s : State) (q : QSlot) : State :=
  s.scanAsk d q.qsb false 0x10 16 (fun s => if q.unmapping ≠ 0 ∨ s.emptied q then s.unmapStep d q else s)

/-- QUEUE_SCAN (R394, R396 to R399): what a held line has kept out is tried again, the mapped queues take their turns, the lists are read, and queues
are mapped in scan order. The reading of the lists is one step, so no edit comes between the two reads of a link word (log 66). -/
def execQueueScan (d : Nat) (s : State) : Out :=
  if Config.nDies ≤ d then .next s
  else
    let s := ((s.retryFailures d).retryOwed d).retrySlips d
    if SMap.get 0 (s.die d).sys 0x421 = 0 then .next (s.calm (.qp d))
    else
      let wakes := (s.die d).wakes
      let s := s.modDie d (fun x => { x with doorbell := false, stuck := false, wakes := [] })
      let s := wakes.foldl (fun s w => s.wakeQueue w.1 w.2) s
      let s := (s.freshBad d).foldl (fun s b =>
        (s.tell (.badLink b.1 b.2.1)).modDie d (fun x => { x with badLinks := x.badLinks ++ [(b.2.1, b.2.2)] })) s
      let s := (s.die d).queues.foldl (State.scanMapped d) s
      let r := s.readLists d
      .next ((r.2.found.foldl (State.scanQueue d r.2.found) r.1).calm (.qp d))

/-- A scan of die `d` would do something. -/
def State.scanDue (s : State) (d : Nat) : Bool :=
  !(s.die d).slips.isEmpty || !(s.die d).owed.isEmpty || !(s.die d).failing.isEmpty || SMap.get 0 (s.die d).sys 0x421 != 0 &&
    ((s.die d).doorbell || !(s.die d).wakes.isEmpty || !(s.freshBad d).isEmpty ||
      (s.die d).queues.any (fun q => q.unmapping != 0 || (s.emptied q && s.qField q.qsb 0x50 8 == 0)) ||
      (decide ((s.die d).queues.length < 16) && (s.scanned d).any (fun q => s.qState q.2 == 0 && s.runnable q.2)))

end Sys2Proof.Machine
end

