-- ==== Sys2Proof/Machine/Firmware.lean ====
section
/-! DEFINITION. Firmware: delivery of reports, return from the handler, FSTATE, ECTL, TLBINV and KEYLOAD (spec 20 R374 to
R391, 21 R408). -/
namespace Sys2Proof.Machine

/-! TRAP and FWCALL (R387) -/

/-- TRAP completes and then raises 0x07 (R387). -/
def execTrap (h : Hdr) (n : BitVec 12) (s : State) : Out := issue h .all [] [] (fun s => .after s 0x07 (n.setWidth 64)) s

/-- FWCALL completes and then raises 0x08; firmware reads A and writes D through FSTATE (R387). -/
def execFwcall (h : Hdr) (_d _a : GReg) (n : BitVec 12) (s : State) : Out :=
  issue h .trio [] [] (fun s => .after s 0x08 (n.setWidth 64)) s

/-! Taking a report (R374, R375, R378) -/

/-- A schedule miss that goes to the computer context instead of firmware (R380): one that arose so and still can. -/
def State.missDelegable (s : State) (c : Nat) (r : Report) : Bool :=
  r.cause == 0x32 && r.src == 1 && r.deleg && s.delegated c .C 0x32 &&
    ((s.ctx c .C).run == .running || (s.ctx c .C).run == .sleeping || (s.ctx c .C).run == .stopped)

/-- Where a report stands among those of its cycle (R375). -/
def Report.rank (r : Report) : Nat := if r.precise then r.ctx else if r.src = 1 then 8 + r.chain else 16 + r.cause

/-- A report that cannot be taken yet: a schedule miss that goes to C; one that R378 does not apply to, while there is no handler (R170; DEDUCED,
log 112). -/
def State.notYet (s : State) (c : Nat) (r : Report) : Bool := s.missDelegable c r || (r.notTrap && (s.core c).reg 0x400 == 0)

/-- The report that is taken next: the earliest, in the order of R375 within a cycle. -/
def State.nextReport (s : State) (c : Nat) : Option Report :=
  ((s.core c).reports.filter (fun r => !s.notYet c r)).foldl (fun best r => match best with
    | some b => if r.at_ < b.at_ ∨ (r.at_ = b.at_ ∧ r.rank < b.rank) then some r else some b
    | none => some r) none

/-- The firmware context is at a boundary where it takes a report (R374, R118). -/
def State.reportDue (s : State) (c : Nat) : Option Report :=
  let k := s.core c
  if k.hnd || k.failed || k.ctxF.run == .failed then none else s.nextReport c

/-- ECAUSE of a report (R373). -/
def Report.ecause (r : Report) : Word :=
  BitVec.ofNat 64 (2 ^ 63 + r.src * 2 ^ 24 + r.ctx * 2 ^ 22 + r.chain * 2 ^ 19 + r.sub * 256 + r.cause)

/-- Firmware learns at core scope what the stopped trio did, which it may save or repair (R376, R411). At a report of R408, which waits for the
commands and the pulls of the core, also what they did, on their paths as on the core path (DEDUCED from R413, log 113). -/
def State.acquireTrio (s : State) (c : Nat) (saved : Bool) : State :=
  let s := trioRoles.foldl (fun s r =>
    let (s, k) := s.stamp (s.agentNow c r)
    s.acquire (.ctx c .F 0) k .core) s
  if !saved then s
  else
    let k := ((s.core c).chains.flatMap (fun p => p.2.rel)).foldl (fun k r => k.join r.clock) (s.clockOf (.port c 0))
    s.acquire (.ctx c .F 0) (k.onto .core [.copy, .mtx, .gath, .coll]) .core

/-- The trio learns at core scope what firmware did while it stood (DEDUCED, log 113). -/
def State.informTrio (s : State) (c : Nat) : State :=
  let (s, k) := s.stamp (.ctx c .F 0)
  trioRoles.foldl (fun s r => s.acquire (s.agentNow c r) k .core) s

/-- Firmware acquires at core scope what a faulted command did before its fault, so that an XFENCE lets it rewrite the slot
(R282, R383; DEDUCED, log 29), and what a stopped trio did. -/
def State.acquireFault (s : State) (c : Nat) (r : Report) : State :=
  if r.src = 1 then
    match ((s.core c).chain r.chain).run with
    | none => s
    | some q =>
      let (s, k) := s.release (.cmd c r.chain q.seq) .core
      s.acquire (.ctx c .F 0) k
  else if r.stop || r.cause == 0x40 || r.cause == 0x41 then s.acquireTrio c (r.cause == 0x40 || r.cause == 0x41)
  else s

/-- REPORT_TAKE (R374): a report while TVEC is 0 is a double fault (R378). -/
def execReportTake (s : State) : Out :=
  let c := s.cur.core
  match s.reportDue c with
  | none => .next s
  | some r =>
    let s := s.modCore c (fun k => { k with reports := k.reports.erase r })
    if (s.core c).reg 0x400 = 0 then .next (s.coreFail c r.cause r.val)
    else
      let x := (s.core c).ctxF
      let pc : Word := if x.run = .idle then 0 else x.pc
      .next ((s.acquireFault c r).modCore c (fun k =>
        let k := ((((k.setReg 0x401 pc).setReg 0x402 r.ecause).setReg 0x403 r.val).setReg 0x404 r.other)
        { k with trioHandled := r.stop || r.cause == 0x40 || r.cause == 0x41, handled := r.launch
                 ctxF := { k.ctxF.drop with pc := k.reg 0x400, nextIssue := s.gtc + 4, run := .running } }))

/-! Engine faults (R383) -/

/-- Firmware resumes a faulted chain: the stack and UPC come from the slot, the geometry is kept. The engine reads them, and the words, as
accesses of the command, which come after what firmware did before (DEDUCED, log 29); one that is refused faults the command afresh. -/
def State.ectlResume (s : State) (c n : Nat) : State :=
  match ((s.core c).chain n).run with
  | none => s
  | some q =>
    let (s, k) := s.release (.ctx c .F 0) .core
    let s := s.acquire (.cmd c n q.seq) k
    let bs := s.readKey 0 ((s.core c).slot n q.seq) 0x80
    let depth := Nat.min 8 (field bs 0x21 1)
    let st := ((lanesOf 64 depth (leNat (bs.drop 0x40))).map (BitVec.ofNat 64)).reverse
    let s := s.modChain c n (fun ch => { ch with fault := false })
    match s.slotFaults c n q.seq [(false, 0x20, 2), (false, 0x40, 64), (false, 0x80, 512), (true, 0x1A, 1)] with
    | some (cause, x, o) => s.cmdFault c n cause 0 x o
    | none =>
      let s := ((s.slotRead c n q.seq 0x20 2).slotRead c n q.seq 0x40 64).slotRead c n q.seq 0x80 512
      let s := s.slotWrite c n q.seq 0x1A (leBytes 1 1)
      let s := s.modEnq c n q.seq (fun e => { e with status := 1 })
      s.modChain c n (fun ch => { ch with
        run := some { q with
          upc := field bs 0x20 1, stack := st, done := false, refused := none, lines := 0, waiting := none, pull := none
          next := s.gtc + 1 } })

/-- Firmware kills a faulted command: it retires with STATUS 3 and its CAUSE, and the chain goes on (R383, R297). -/
def State.ectlKill (s : State) (c n : Nat) : State :=
  match ((s.core c).chain n).run with
  | none => s
  | some q => (s.modChain c n (fun ch => { ch with fault := false })).retire c n q.seq 3

/-- A write of ECTL (R383); none where it raises RSVD. -/
def State.ectl (s : State) (c : Nat) (v : Word) : Option State :=
  let n := fld v 2 0
  if v.toNat % 8 + (v.toNat / 16 % 2) * 16 ≠ v.toNat ∨ 4 < n ∨ ¬ ((s.core c).chain n).fault then none
  else some (if fld v 4 4 = 1 then s.ectlKill c n else s.ectlResume c n)

/-- An RSVD trap at the current context's instruction. -/
def State.rsvd (s : State) : State := s.takeTrap s.cur.core s.cur.role 0x02 0 0 0 (s.ctx s.cur.core s.cur.role).pc

/-- ECTL_RESUME of chain `cur.chain` (R383). -/
def execEctlResume (s : State) : Out :=
  if ((s.core s.cur.core).chain s.cur.chain).fault then .next (s.ectlResume s.cur.core s.cur.chain) else .next s

/-- ECTL_KILL of chain `cur.chain` (R383). -/
def execEctlKill (s : State) : Out :=
  if ((s.core s.cur.core).chain s.cur.chain).fault then .next (s.ectlKill s.cur.core s.cur.chain) else .next s

/-- SCHEDULE_MISS_DELEGATION (R380, R381): the command is retired as by a kill, and C enters its handler. -/
def execScheduleMissDelegation (s : State) : Out :=
  let c := s.cur.core
  let run := (s.ctx c .C).run
  match (s.core c).reports.find? (fun r => s.missDelegable c r) with
  | none => .next s
  | some r =>
    if run = .running ∨ run = .sleeping then
      let s := s.modCore c (fun k => { k with reports := k.reports.erase r })
      .next ((s.ectlKill c r.chain).delegate c .C 0x32 0 r.val (s.ctx c .C).pc)
    else .next s

/-! Return from the handler (R377, R388, R408) -/

/-- A trio re-enters with its held list as a replay list (R377). -/
def State.rerun (s : State) (c : Nat) : State :=
  match s.launchOf c with
  | none => s
  | some l =>
    let s := (s.informTrio c).enterTrio c l (s.core c).stage
    s.modCore c (fun k => { k with replay := k.held ++ k.replay, held := [] })

/-- All three contexts resume together, unless another trap of the trio is still to be taken (R165, R374). -/
def State.resumeTrio (s : State) (c : Nat) : State :=
  if (s.core c).reports.any (fun r => r.stop) then s
  else (s.informTrio c).modCore c (fun k =>
    let up (x : Ctx) : Ctx := { x.resume with nextIssue := Nat.max x.nextIssue (s.gtc + 1) }
    { k with ctxL := up k.ctxL, ctxC := up k.ctxC, ctxS := up k.ctxS })

/-- The handler of a restart report returns (R408): a trio whose contexts had all ended leaves the core again, and when
the last handler has returned, SAVED returns to 0. -/
def State.restarted (s : State) (c q : Nat) : State :=
  let k := s.core c
  let s := if k.ctxL.run = .ended ∧ k.ctxC.run = .ended ∧ k.ctxS.run = .ended ∧ k.launch = q then s.endTrio c else s
  let s := s.modLaunch q (fun l => { l with resuming := l.resuming.filter (· != c) })
  match s.launch? q with
  | none => s
  | some l =>
    if l.resumed && l.toReport.isEmpty && l.resuming.isEmpty then
      let s := match l.queue with
        | some (d, qsb, _) => s.qWrite d qsb 0x50 8 0
        | none => s
      s.modLaunch q (fun l => { l with resumed := false })
    else s

/-- TRIOCTL is applied to the trio that is handled (R377, R408). -/
def State.applyTrioctl (s : State) (c : Nat) : State :=
  let k := s.core c
  let t := k.reg 0x40A
  let cause := fld (k.reg 0x402) 7 0
  let sub := fld (k.reg 0x402) 15 8
  let save := (cause = 0x40 ∧ sub = 0) ∨ cause = 0x41
  let q := k.handled
  if fld t 0 0 = 1 then
    let s := match s.launch? q with
      | some l => match l.queue with
        | some (d, qsb, _) => if (cause = 0x40 ∨ cause = 0x41) then s.qWrite d qsb 0x50 8 0 else s
        | none => s
      | none => s
    (s.killLaunch q cause sub (k.reg 0x403)).tellKilled q
  else if save then
    { s with preempt := s.preempt.map (fun p =>
      if p.victim = q then { p with saved := if p.saved.contains c then p.saved else p.saved ++ [c] } else p) }
  else if k.launch ≠ q then s
  else
    let s := if fld t 1 1 = 1 then s.rerun c else s.resumeTrio c
    if cause = 0x40 then s.restarted c q else s

/-- ERET (R388): the reclaim that it handles ends with or without the block's release (R349). -/
def eretWith (h : Hdr) (reclaim : Bool) (s : State) : Out :=
  issue h .fw [] [] (fun s =>
    let c := s.cur.core
    let k := s.core c
    let isReclaim := fld (k.reg 0x402) 7 0 == 0x33
    if !k.hnd || (reclaim && !isReclaim) then .trap 0x02 0 0 0
    else
      let s := if isReclaim && reclaim then s.endReclaim c (k.reg 0x403) true else s
      let s := s.rearm c (s.handledByFirmware c)
      let s := if k.trioHandled then (s.applyTrioctl c).modCore c (fun k => k.setReg 0x40A 0) else s
      let s := s.modCore c (fun k =>
        { k.setReg 0x402 (BitVec.ofNat 64 ((k.reg 0x402).toNat % 2 ^ 63)) with trioHandled := false, handled := 0 })
      .jump s (k.reg 0x401) 3) s

/-- ERET (R388). -/
def execEret (h : Hdr) (s : State) : Out := eretWith h false s
/-- ERET `.reclaim` (R388, R349). -/
def execEretReclaim (h : Hdr) (s : State) : Out := eretWith h true s

/-! Registers of the user handler and FSTATE (R373, R376, R382) -/

/-- Reserved bits of UCAUSE are zero (R373). -/
def ucauseOk (v : Word) : Bool := fld v 61 16 == 0

/-- Software clears ACTIVE: a delegated reclaim that this context has not released is taken again (R349, R382). -/
def State.ucauseCleared (s : State) (c : Nat) (r : Role) (v : Word) : State :=
  if fld ((s.ctx c r).reg 0x412) 62 62 = 1 ∧ fld v 62 62 = 0 then
    s.rearm c (fun b => b.raisedIn == some (r, (s.core c).epoch))
  else s

/-- Store UCAUSE; RELEASE reads 0. -/
def State.setUcause (s : State) (c : Nat) (r : Role) (v : Word) : State :=
  (s.ucauseCleared c r v).modCtx c r (fun x => x.setReg 0x412 (BitVec.ofNat 64 (v.toNat % 2 ^ 63)))

/-- UCAUSE_RELEASE (R382): the block of notice UVAL is unpinned; RSVD for any other cause than 0x33. -/
def execUcauseRelease (s : State) : Out :=
  let c := s.cur.core
  let x := s.ctx c s.cur.role
  if fld (x.reg 0x412) 7 0 = 0x33 then .next (s.endReclaim c (x.reg 0x413) true) else .next s.rsvd

/-- The context that FSEL names (R373). -/
def fselRole (w : Word) : Option Role :=
  match fld w 13 12 with
  | 0 => some .L | 1 => some .C | 2 => some .S | _ => none

/-- A stopped trio is being handled, and the core still holds it (R376, R411): the report is a trap of a trio context, or one of R408, which may
find that every context of the core has ended. -/
def Core.trioShown (k : Core) : Bool :=
  k.hnd && k.trioHandled && (k.launch == k.handled ||
    (k.launch == 0 && (fld (k.reg 0x402) 7 0 == 0x40 || fld (k.reg 0x402) 7 0 == 0x41)))

/-- The context and item that FSTATE reaches now, or none where the access raises RSVD (R376, R411). -/
def Core.fstateAt (k : Core) : Option (Role × Nat) :=
  let i := fld (k.reg 0x407) 11 0
  match fselRole (k.reg 0x407) with
  | some r => if 0x02B < i ∨ ¬ k.trioShown then none else some (r, i)
  | none => none

/-- The system register of an FSTATE item from 0x025 on (R376). -/
def fstateSys (i : Nat) : Nat := [0x100, 0x210, 0x410, 0x411, 0x412, 0x413, 0x212].getD (i - 0x025) 0x100

/-- Read FSTATE (R376). -/
def State.fstateRead (s : State) (c : Nat) : Option Word :=
  (s.core c).fstateAt.map (fun p =>
    let x := s.ctx c p.1
    if p.2 < 0x020 then x.getG (BitVec.ofNat 5 p.2)
    else if p.2 < 0x024 then x.getB (BitVec.ofNat 2 (p.2 - 0x020))
    else if p.2 = 0x024 then x.pc
    else x.reg (fstateSys p.2))

/-- A value that a trio register takes through FSTATE (R159, R242, R373, R376). -/
def fstateOk (n : Nat) (v : Word) : Bool :=
  if n = 0x100 then decide (v.toNat < 4)
  else if n = 0x210 then decide (v.toNat ≤ 4)
  else if n = 0x212 then decide (v.toNat < 2 ^ 32)
  else if n = 0x410 then v == 0 || isCode v
  else if n = 0x411 then isCode v
  else if n = 0x412 then ucauseOk v
  else true

/-- Write FSTATE (R376). -/
def State.fstateWrite (s : State) (c : Nat) (v : Word) : Option State :=
  match (s.core c).fstateAt with
  | none => none
  | some (r, i) =>
    if i < 0x020 then some (s.modCtx c r (fun x => x.setG (BitVec.ofNat 5 i) v))
    else if i < 0x024 then some (s.modCtx c r (fun x => x.setB (BitVec.ofNat 2 (i - 0x020)) v))
    else if i = 0x024 then (if isCode v then some (s.modCtx c r (fun x => { x with pc := v })) else none)
    else
      let n := fstateSys i
      if !fstateOk n v then none
      else if n = 0x412 then some (s.setUcause c r v)
      else some (s.modCtx c r (fun x => x.setReg n v))

/-- FSTATE_ACCESS (R376): firmware reads the item into G[r], or writes G[r] to it. -/
def execFstateAccess (write : Bool) (r : GReg) (s : State) : Out :=
  let c := s.cur.core
  if write then
    (match s.fstateWrite c (s.g r) with
      | some s => .next s
      | none => .next s.rsvd)
  else
    match s.fstateRead c with
    | some v => .next (s.putG r v alu)
    | none => .next s.rsvd

/-! Landing ring and format windows (R226, R352) -/

/-- A value of LZBASE or LZSIZE that the port takes (R352). -/
def State.lzOk (s : State) (c : Nat) (r : Role) (size : Bool) (v : Word) : Bool :=
  let k := s.core c
  let base := if size then k.lzbase else v.toNat
  let z := if size then v.toNat else k.lzsize
  let (lo, hi) := s.spRange c r
  decide (v.toNat < 2 ^ 22) && v.toNat % 2048 == 0 && k.port.free == k.lzsize &&
    (z == 0 || (decide (lo ≤ base) && decide (base + z ≤ hi)))

/-- Write LZBASE or LZSIZE: a write of LZSIZE sets FREE and both pointers (R352). -/
def State.lzWrite (s : State) (c : Nat) (size : Bool) (v : Word) : State :=
  if size then
    s.modCore c (fun k =>
      { k.setReg 0x351 v with port := { k.port with free := v.toNat, rd := 0, wr := 0, resv := [], given := 0 } })
  else s.modCore c (fun k => k.setReg 0x350 v)

/-- LANDING_RING_WRITE (R352). -/
def execLandingRingWrite (size : Bool) (v : Word) (s : State) : Out :=
  if s.lzOk s.cur.core s.cur.role size v then .next (s.lzWrite s.cur.core size v) else .next s.rsvd

/-- FORMAT_WINDOW_WRITE (R226). -/
def execFormatWindowWrite (stack win word : Nat) (v : Word) (s : State) : Out :=
  if stack < 8 ∧ win < 32 ∧ word < 4 then .next (s.windowWrite stack win word v) else .next s

/-! TLBINV (R389) -/

/-- Drop covered translations from every TLB of the package (R389). -/
def State.dropLeaves (s : State) (cov : Leaf → Bool) : State :=
  { s with cores := s.cores.map (fun p => (p.1, { p.2 with tlb := p.2.tlb.filter (fun l => !cov l) }))
           quires := s.quires.map (fun p => (p.1, { p.2 with tlb := p.2.tlb.filter (fun l => !cov l) })) }

/-- Release the home pages whose frame no entry of any TLB holds any more (R224). -/
def State.releaseHomes (s : State) : State :=
  let used (f : Nat × Nat) : Bool :=
    let hit (l : Leaf) : Bool := l.frame == f.1
    s.cores.any (fun p => p.2.tlb.any hit) || s.quires.any (fun p => p.2.tlb.any hit)
  { s with quires := s.quires.map (fun p => (p.1, { p.2 with pinned := p.2.pinned.filter used })) }

/-- Pages of `n` bytes at `va` that were found earlier: those that are covered are walked again (R222, R389). -/
def State.walkAgain (s : State) (asp : Option Word) (cov : Leaf → Bool) (old : List Leaf) (va n : Nat) : List Leaf :=
  match asp with
  | none => old
  | some w =>
    if !old.any cov then old
    else ((pageParts (BitVec.ofNat 64 va) n).filterMap (fun p =>
      let a := p.1.toNat % 2 ^ 56
      match old.find? (fun l => decide (l.va ≤ a) && decide (a < l.va + l.size)) with
      | some l => if cov l then (s.walkFrom (fld w 63 52) a (fld w 51 16 * 0x10000) 4).toOption else some l
      | none => none)).eraseDups

/-- The page of a notice's DONEADDR after a TLBINV that covers it (R222, R350, R389): found again, or the fault that the addition will meet. -/
def State.doneAgain (s : State) (c : Nat) (cov : Leaf → Bool) (b : Pub) : Pub :=
  match b.done, b.doneAsp with
  | some (pa, l), some w =>
    if !cov l then b
    else
      let va := l.va + (pa - l.frame)
      match s.xlatParts c (some w) .write [(BitVec.ofNat 64 va, 8)] with
      | .ok (_, p :: _) => { b with done := some (p.pa, p.leaf), doneFault := none }
      | .ok (_, []) => b
      | .error f => { b with doneFault := some (f.cause, va) }
  | _, _ => b

/-- What is kept of translations beside the TLBs follows the page tables: the pages of input rings and of firings, and those of DONEADDR (R222,
R389). -/
def State.renewPages (s : State) (cov : Leaf → Bool) : State :=
  let ring (l : Launch) (g : Stage) : Stage :=
    { g with ring := s.walkAgain (if l.phys then none else some l.aspace) cov g.ring g.ringbase (64 + g.ringsize * g.recsize) }
  let firing (f : Firing) : Firing :=
    let again (off : Nat) : List Leaf :=
      s.walkAgain f.asp cov f.pages (leNat ((f.image.drop off).take 8))
        ((leNat ((f.image.drop 0x1C).take 1) + 1) * leNat ((f.image.drop 0x18).take 4))
    if f.pages.any cov then { f with pages := (again 0 ++ again 8).eraseDups } else f
  let pubs (c : Nat) (p : Port) : Port := { p with pubs := p.pubs.map (fun x => (x.1, x.2.map (s.doneAgain c cov))) }
  { s with launches := s.launches.map (fun l => { l with st := l.st.map (ring l) })
           cores := s.cores.map (fun p => (p.1, { p.2 with port := pubs p.1 p.2.port }))
           dies := s.dies.map (fun p => (p.1, { p.2 with firings := p.2.firings.map firing })) }

/-- TLBINV has completed (R222, R224, R389). -/
def State.invalidated (s : State) (cov : Leaf → Bool) : State := ((s.dropLeaves cov).renewPages cov).releaseHomes

/-- TLBINV: it completes when no in-flight counter of a covered page is left (R290, R389). -/
def tlbinv (h : Hdr) (uses : List GReg) (asid : State → Option Word) (cov : State → Leaf → Bool) (s : State) : Out :=
  issue h .fw (uses.map s.gT) [] (fun s =>
    match asid s with
    | some w => if w.toNat / 2 ^ 12 ≠ 0 then .trap 0x02 0 0 0 else go s
    | none => go s) s
where
  /-- the invalidation itself -/
  go (s : State) : Res :=
    let busy := s.quires.any (fun p => p.2.inflight.any (fun f => cov s f.1))
    if busy then .sleep (s.dropLeaves (cov s)) .inflight else .done (s.invalidated (cov s))

/-- TLBINV `.page` (R389). -/
def execTlbinvPage (h : Hdr) (a b : GReg) (s : State) : Out :=
  tlbinv h [a, b] (fun s => some (s.g b)) (fun s l =>
    let va := (s.g a).toNat % 2 ^ 56
    l.asid == (s.g b).toNat && decide (l.va ≤ va) && decide (va < l.va + l.size)) s
/-- TLBINV `.asid` (R389). -/
def execTlbinvAsid (h : Hdr) (b : GReg) (s : State) : Out :=
  tlbinv h [b] (fun s => some (s.g b)) (fun s l => l.asid == (s.g b).toNat) s
/-- TLBINV `.all` (R389). -/
def execTlbinvAll (h : Hdr) (s : State) : Out := tlbinv h [] (fun _ => none) (fun _ _ => true) s

/-! KEYLOAD (R390) -/

/-- KEYLOAD (R390): data key, tweak key; two equal keys raise RSVD. -/
def execKeyload (h : Hdr) (a b : GReg) (s : State) : Out :=
  issue h .fw [s.gT a, s.gT b] [] (fun s =>
    let n := (s.g a).toNat
    let e := s.g b
    if 8191 < n then .trap 0x02 0 0 0
    else if e.toNat % 64 ≠ 0 then .trap 0x06 0 e 0
    else if (s.spCheck s.cur.core s.cur.role e 64 1).isSome then .trap 0x05 0 e 0
    else s.spLoad [(e.toNat, 64)] (fun s bs =>
      if bs.take 32 = bs.drop 32 then .trap 0x02 0 0 0
      else
        let k : Key := { serial := s.keySerial + 1, bits := BitVec.ofNat 512 (leNat bs) }
        .done { s with keys := SMap.set none s.keys n (some k), keySerial := s.keySerial + 1 })) s

/-- KEYLOAD `.clr` (R390). -/
def execKeyloadClr (h : Hdr) (a : GReg) (s : State) : Out :=
  issue h .fw [s.gT a] [] (fun s =>
    let n := (s.g a).toNat
    if 8191 < n then .trap 0x02 0 0 0 else .done { s with keys := SMap.set none s.keys n none }) s

end Sys2Proof.Machine
end

