-- ==== Sys2Proof/Machine/System.lean ====
section
/-! DEFINITION. SRD and SWR: what each system register reads, which values it takes and what a write does (spec 02 R15 to R24,
05 R110, R111, and the register tables R159, R187 to R189, R214, R242, R277 to R281, R327, R337, R341, R352, R372, R373, R392,
R424, R432). -/
namespace Sys2Proof.Machine

/-! Reading -/

/-- TOKCNT (R159). -/
def Core.tokcnt (k : Core) : Nat :=
  [0, 1, 2, 3].foldl (fun n q =>
    n + (k.fifo q).toks.length % 16 * 2 ^ (4 * q) + (if (k.fifo q).ended then 2 ^ (16 + q) else 0)) 0

/-- ESTAT (R281). -/
def Core.estat (k : Core) : Nat :=
  (List.range 5).foldl (fun v n =>
    v + (if (k.chain n).fault then 2 ^ n else 0) + (if (k.chain n).run.isSome then 2 ^ (8 + n) else 0)) 0

/-- GATECR (R281). -/
def Core.gatecr (k : Core) : Nat := (List.range 5).foldl (fun v n => v + Nat.min 255 (k.chain n).credits.length * 2 ^ (8 * n)) 0

/-- LZSTAT (R352). -/
def Core.lzstat (k : Core) : Nat := k.port.table.length * 2 ^ 56 + k.port.landed * 2 ^ 32 + k.port.free

/-- A crossbar register with the writes that wait for its next cycle (R24, R277). -/
def Core.crossbarReg (k : Core) (n : Nat) : Word :=
  match (k.xwrites.filter (fun w => w.1 == n)).getLast? with
  | some w => w.2.1
  | none => k.reg n

/-- The value that SRD returns, for every register but FSTATE (R110). -/
def State.sysValue (s : State) (c : Nat) (r : Role) (n : Nat) : Word :=
  let k := s.core c
  let nat (v : Nat) : Word := BitVec.ofNat 64 v
  if n = 0x010 then nat s.gtc
  else if n = 0x012 then nat s.frame
  else if n = 0x100 ∧ r = .F then 0
  else if n = 0x101 then nat k.tokcnt
  else if n = 0x102 then nat (s.podId c)
  else if n = 0x103 then
    (match s.launchOf c with
      | some l => nat (l.rcd.group.toNat + l.rcd.gen.toNat * 2 ^ 16)
      | none => 0)
  else if n = 0x119 then nat k.heldCount
  else if 0x320 ≤ n ∧ n ≤ 0x338 then k.crossbarReg n
  else if n = 0x339 then nat k.estat
  else if n = 0x33A then nat k.gatecr
  else if n = 0x354 then nat k.lzstat
  else if n = 0x355 then nat k.port.npub
  else if n = 0x409 then 0
  else s.sysAt c r n

/-- The merges that land after a variable time are waited for (R24, R26). -/
def State.merged (s : State) (n : Nat) : State :=
  if n = 0x002 ∨ n = 0x003 then s.modCore s.cur.core (fun k => k.interlock [if n = 0x002 then .fstat else .maxmag]) else s

/-- SRD, with scalar ALU latency (R94, R110). -/
def execSrd (h : Hdr) (d : GReg) (sys : BitVec 12) (s : State) : Out :=
  if (sysAccess sys.toNat).isNone then .next s.rsvd
  else
    issue h .all [] [s.gT d, .noMerge s.cur.role sys.toNat] (fun s =>
      let n := sys.toNat
      let c := s.cur.core
      let r := s.cur.role
      if 0x401 ≤ n ∧ n ≤ 0x409 ∧ r ≠ .F then .trap 0x03 0 0 0
      else if n = 0x408 then
        (match s.fstateRead c with
          | some v => .done (s.putG d v alu)
          | none => .trap 0x02 0 0 0)
      else
        let s := s.merged n
        .done (s.putG d (s.sysValue c r n) alu)) s

/-! The values that registers take -/

/-- A value of TSHAPE (R16). -/
def tshapeOk (w : Word) : Bool :=
  match etyOf (fld w 3 0) with
  | none => false
  | some t =>
    let rows := fld w 9 4
    let cols := fld w 21 10 + 1
    w.toNat < 2 ^ 23 && decide (1 ≤ rows ∧ rows ≤ 32) && decide (cols * etyBits t ≤ 16384) &&
      (fld w 22 22 == 0 || (etyQuant t && decide (cols ≤ 2048)))

/-- A value of SDn (R188). The field table gives BASE as 0 to 1,535 and the validity list asks for BASE + ROWS of at most 1,536, which admits 1,536 with ROWS 0;
the list decides (DEDUCED, log 117). -/
def streamOk (w : Word) : Bool :=
  let t := streamOf w
  decide (t.esz ≤ 2) && decide (t.base + t.rows ≤ 1536) && decide (t.cap ≤ 1048575) && decide (t.head ≤ t.tail) &&
    decide (t.tail ≤ t.cap)

/-- A value of MAXMAG (R22). -/
def maxmagOk (w : Word) : Bool := decide (w.toNat < 2 ^ 32) && !(fld w 30 23 == 255 && fld w 22 0 != 0)

/-- Set bits of a field. -/
def bitCount (m : Nat) : Nat := (maskBits m).length

/-- A value of ETn (R280). -/
def etOk (w : Word) : Bool :=
  fld w 59 32 == 0 && decide (fld w 63 60 ≤ 6) && decide (bitCount (fld w 31 16) ≤ 4) && decide (bitCount (fld w 15 0) ≤ 4)

/-- A value of RANKCTL (R352). -/
def rankOk (w : Word) : Bool :=
  let c := [fld w 3 0, fld w 7 4, fld w 11 8, fld w 15 12]
  decide (w.toNat < 2 ^ 17) && c.all (fun x => decide (x ≤ 6)) && (c.dropWhile (· != 0)).all (· == 0)

/-- All of `[a, a + n)` is populated DRAM. -/
def inDram (a n : Nat) : Bool :=
  match region a, region (a + n - 1) with
  | .hbm x, .hbm y => x == y
  | .tier2 _, .tier2 _ => true
  | _, _ => false

/-- A value of CHPOOLn: the pool lies in memory (R278, log 23). -/
def chpoolOk (w : Word) : Bool :=
  fld w 53 52 == 0 && fld w 9 0 == 0 && (fld w 51 10 == 0 || inDram (fld w 51 10 * 1024) ((fld w 63 54 + 1) * 1024))

/-- A value of CHCPLn (R278). -/
def State.chcplOk (s : State) (w : Word) : Bool :=
  w == 0 || (w.toNat % 8 == 0 && decide (w.toNat < 2 ^ 52) && (match region w.toNat with
    | .absent => false | .decoded _ _ => false | .sram c off => s.inSphome c off | _ => true))

/-- ECAUSE and EOTHER take any value whose reserved bits are zero (R373). -/
def ecauseOk (w : Word) : Bool := fld w 62 26 == 0 && fld w 18 16 == 0

/-- Whether the launch of core `c` is re-runnable (R377). -/
def State.rerunOk (s : State) (c : Nat) : Bool :=
  match s.launch? (s.core c).handled, s.launchOf c with
  | some l, _ => l.rerun
  | none, some l => l.rerun
  | none, none => false

/-- Whether register `n` takes value `w` from context `r` of core `c` (R110 step 4). FSTATE and UCAUSE.RELEASE decide for
themselves. -/
def State.sysOk (s : State) (c : Nat) (r : Role) (n : Nat) (w : Word) : Bool :=
  let k := s.core c
  let v := w.toNat
  let quiet (i : Nat) : Bool := k.tail i == k.chdone i
  if n = 0x000 then decide (v < 16) && decide (fld w 3 1 ≤ 5)
  else if n = 0x001 then decide (v < 8) && s.tileOk c v
  else if n = 0x002 then decide (v < 8)
  else if n = 0x003 then maxmagOk w
  else if n = 0x004 then v != 0
  else if 0x008 ≤ n ∧ n ≤ 0x00F then tshapeOk w && s.tileOk c (n - 8)
  else if n = 0x011 then decide (v < 64)
  else if n = 0x100 then decide (v < 4)
  else if 0x110 ≤ n ∧ n ≤ 0x117 then streamOk w
  else if n = 0x118 then decide (v < 8)
  else if n = 0x200 then decide (v ≤ 32) && k.launch == 0
  else if n = 0x201 then fld w 15 0 == 0
  else if n = 0x210 then decide (v ≤ 4)
  else if n = 0x211 then decide (1 ≤ v ∧ v ≤ 4096)
  else if 0x300 ≤ n ∧ n ≤ 0x304 then quiet (n - 0x300) && chpoolOk w
  else if 0x308 ≤ n ∧ n ≤ 0x30C then quiet (n - 0x308) && s.chcplOk w
  else if 0x320 ≤ n ∧ n ≤ 0x32F then decide (fld w 63 60 ≤ 9) && fld w 59 48 == 0
  else if 0x330 ≤ n ∧ n ≤ 0x337 then etOk w
  else if n = 0x340 then decide (v < 2 ^ 10) && fld w 9 8 != 3 && !(fld w 9 8 == 2 && fld w 7 0 == 0)
  else if n = 0x341 then decide (v < 2 ^ 34)
  else if n = 0x350 ∨ n = 0x351 then s.lzOk c r (n == 0x351) w
  else if n = 0x352 then rankOk w
  else if n = 0x353 then decide (v < 2 ^ 32) && fld w 15 8 == 0 && decide (1 ≤ fld w 31 16 ∧ fld w 31 16 ≤ 1024)
  else if n = 0x360 then fld w 63 48 == 0 && fld w 15 10 == 0 && decide (1 ≤ fld w 9 0 ∧ fld w 9 0 ≤ 512)
  else if n = 0x400 ∨ n = 0x410 then w == 0 || isCode w
  else if n = 0x401 ∨ n = 0x411 then isCode w
  else if n = 0x402 then ecauseOk w
  else if n = 0x404 then decide (v < 2 ^ 23) && fld w 15 15 == 0
  else if n = 0x405 then decide (v < 32)
  else if n = 0x406 then decide (v ≤ 256)
  else if n = 0x407 then decide (v < 2 ^ 14) && fld w 13 12 != 3 && decide (fld w 11 0 ≤ 0x02B)
  else if n = 0x40A then decide (v < 3) && (v != 2 || s.rerunOk c)
  else if n = 0x412 then ucauseOk w
  else if n = 0x420 then decide (1 ≤ v ∧ v < 2 ^ 32)
  else if n = 0x421 then v % 64 == 0 && decide (v < 2 ^ 52)
  else if n = 0x422 then v % 0x10000 == 0 && decide (v < 2 ^ 52) && (v == 0 || inDram v 0x10000)
  else if n = 0x424 then decide (v < 2 ^ 52)
  else if n = 0x426 then decide (v < 2 ^ 32)
  else if n = 0x520 ∨ n = 0x521 ∨ n = 0x522 then
    (s.die (dieOf c)).firings.all (fun f => f.isOver) && decide (v < 2 ^ 52) && (n != 0x521 || fld w 11 0 == 0) && (n != 0x522 || fld w 19 8 == 0)
  else true

/-! Writing -/

/-- An SWR to this register acts at once: the registers of a context, which no one else reads, and the stream descriptors, for which
R190 orders the contexts within a cycle. -/
def actsAtOnce (n : Nat) : Bool := sysHome n == .ctx || decide (0x110 ≤ n ∧ n ≤ 0x117)

/-- What the write of a register does when it takes effect: MXPRIO restarts the count of weighted starts, LZBASE and LZSIZE set the ring,
and QPBASE rings the doorbell (R338, R352, R397). -/
def State.commit (s : State) (c : Nat) (r : Role) (n : Nat) (w : Word) : State :=
  if n = 0x340 then s.modCore c (fun k => { k.setReg n w with mxCount := 0 })
  else if n = 0x350 ∨ n = 0x351 then s.lzWrite c (n == 0x351) w
  else if n = 0x421 then (s.setSysAt c r n w).modDie (dieOf c) (fun d => { d with doorbell := true })
  else s.setSysAt c r n w

/-- The SWRs of the cycle that ends take effect, in the order of their issue (R23, R154, R337, R352). -/
def State.commitLate (s : State) : State :=
  s.late.foldl (fun s p => s.commit p.1 p.2.1 p.2.2.1 p.2.2.2) { s with late := [] }

/-- The effect of an accepted SWR (R110, R111): SWR to TOKSTAT leaves PHELD, crossbar registers change in the next cycle's
crossbar step (R277), and any other register of a core, a die or the package governs from the next cycle (R23, R154). -/
def State.sysWrite (s : State) (c : Nat) (r : Role) (n : Nat) (w : Word) : State :=
  if n = 0x100 then s.modCtx c r (fun x => x.setReg n (BitVec.ofNat 64 ((x.reg n).toNat / 2 % 2 * 2 + w.toNat % 2)))
  else if 0x320 ≤ n ∧ n ≤ 0x338 then s.modCore c (fun k => { k with xwrites := k.xwrites ++ [(n, w, s.gtc)] })
  else if n = 0x412 then s.setUcause c r w
  else if actsAtOnce n then s.setSysAt c r n w
  else { s with late := s.late ++ [(c, r, n, w)] }

/-- SWR (R110). -/
def execSwr (h : Hdr) (a : GReg) (sys : BitVec 12) (s : State) : Out :=
  let n := sys.toNat
  match sysAccess n with
  | none => .next s.rsvd
  | some .ro => .next s.rsvd
  | some acc =>
    issue h .all [s.gT a] (.noMerge s.cur.role n :: (if 0x008 ≤ n ∧ n ≤ 0x00F then [.tile (n - 8)] else [])) (fun s =>
      let c := s.cur.core
      let r := s.cur.role
      let w := s.g a
      let bad : Res := .trap 0x02 0 0 0
      if acc = .fw ∧ r ≠ .F then .trap 0x03 0 0 0
      else
        let s := s.merged n
        if n = 0x408 then
          (match s.fstateWrite c w with
            | some s => .done s
            | none => bad)
        else if n = 0x409 then
          (match s.ectl c w with
            | some s => .done s
            | none => bad)
        else if !s.sysOk c r n w then bad
        else if n = 0x412 ∧ fld w 63 63 = 1 then
          (if fld ((s.ctx c r).reg 0x412) 7 0 = 0x33 then
            .done ((s.endReclaim c ((s.ctx c r).reg 0x413) true).sysWrite c r n w)
          else bad)
        else .done (s.sysWrite c r n w)) s

end Sys2Proof.Machine
end

