-- ==== Sys2Proof/Machine/Preempt.lean ====
section
/-! DEFINITION. Pre-emption: the request, the stop, the save area, CTXSAVE and CTXLOAD, and the restart (spec 08 R178, 09 R206,
21 R407 to R411). -/
namespace Sys2Proof.Machine

/-! The save area (R408 to R410) -/

/-- A of R408: the size of one core's save area. -/
def saveSize (r : LRec) : Nat := (0x8C000 + r.spsize + 4095) / 4096 * 4096

/-- The save area of core `c` of a launch (R408). -/
def State.coreArea (s : State) (l : Launch) (c : Nat) : Nat :=
  let cs := coresOf l.rcd.qmask
  s.saveArea l + 0x1000 + ((cs.zip (List.range cs.length)).find? (fun p => p.1 == c)).elim 0 (·.2) * saveSize l.rcd

/-- The core registers of a save area that are plain system registers, before and after those kept elsewhere (R410). -/
def savedRegsA : List Nat := [0x000, 0x001, 0x002, 0x003, 0x004] ++ (List.range 8).map (· + 0x008)
/-- The stream descriptors and LQCTL, TDCNT. -/
def savedRegsB : List Nat := (List.range 8).map (· + 0x110) ++ [0x118, 0x11A]
/-- The crossbar registers. -/
def savedRegsC : List Nat := (List.range 16).map (· + 0x320) ++ (List.range 8).map (· + 0x330) ++ [0x338]
/-- MXPRIO and the port's registers. -/
def savedRegsD : List Nat := [0x340, 0x350, 0x351, 0x352, 0x353]
/-- The registers of a context after its PC (R410). -/
def savedCtxRegs : List Nat := [0x100, 0x210, 0x212, 0x410, 0x411, 0x412, 0x413]

/-- The core registers of a save area, in its order. -/
def Core.savedRegs (k : Core) : List Nat :=
  savedRegsA.map (fun n => (k.reg n).toNat) ++ [k.tokcnt] ++ savedRegsB.map (fun n => (k.reg n).toNat) ++
    [if k.evbit then 1 else 0] ++ savedRegsC.map (fun n => (k.crossbarReg n).toNat) ++ [k.gatecr] ++
    savedRegsD.map (fun n => (k.reg n).toNat) ++ [k.port.rd, k.port.wr]

/-- What is live of a context: G and B registers by bit (R409). -/
structure LiveCtx where
  g : Nat
  b : Nat

/-- What is live of the core (R409). -/
structure LiveCore where
  k : Nat := 0
  tiles : Nat := 0
  lanes : Bool := false
  /-- scratchpad ranges as offset from SPBASE and length -/
  ranges : List (Nat × Nat) := []

/-- What a save holds: FULL, each context's part (none where it has ended), the core's part. -/
structure Live where
  full : Bool
  ctx : List (Option LiveCtx)
  core : LiveCore

/-- Everything of a context. -/
def LiveCtx.all : LiveCtx := { g := 0xFFFFFFFF, b := 15 }
/-- Everything of the core. -/
def LiveCore.all (r : LRec) : LiveCore := { k := 0xFE, tiles := 0xFF, lanes := true, ranges := [(0, r.spsize)] }
/-- Both. -/
def LiveCore.join (a b : LiveCore) : LiveCore :=
  { k := a.k ||| b.k, tiles := a.tiles ||| b.tiles, lanes := a.lanes || b.lanes, ranges := a.ranges ++ b.ranges }

/-- The part of [lo, hi) that lies in the reservation, as offset and length. -/
def clipRange (r : LRec) (lo hi : Nat) : List (Nat × Nat) :=
  let a := Nat.max lo r.spbase
  let b := Nat.min hi (r.spbase + r.spsize)
  if a < b then [(a - r.spbase, b - a)] else []

/-- The rows of a live stream from HEAD to TAIL (R409). -/
def streamRange (r : LRec) (w : Word) : List (Nat × Nat) :=
  let t := streamOf w
  if t.rows = 0 ∨ t.tail ≤ t.head then []
  else clipRange r (t.at t.head / 2048 * 2048) ((t.at (t.tail - 1) / 2048 + 1) * 2048)

/-- What map bytes name of a context and of the core, given the stream descriptors (R409). -/
def mapNames (r : LRec) (sd : Nat → Word) (bs : List Byte) : LiveCtx × LiveCore :=
  let f (off n : Nat) : Nat := leNat ((bs.drop off).take n)
  let ranges := (List.range 6).flatMap (fun i =>
    let o := f (0x10 + 8 * i) 4
    clipRange r (r.spbase + o) (r.spbase + o + f (0x14 + 8 * i) 4))
  let streams := (List.range 8).flatMap (fun n => if Nat.testBit (f 0x07 1) n then streamRange r (sd n) else [])
  ({ g := f 0 4, b := f 4 1 % 16 },
   { k := f 5 1 / 2 * 2, tiles := f 6 1, lanes := f 8 1 % 2 == 1, ranges := ranges ++ streams })

/-- Live map `n` of a launch through its address space; none where it cannot be read (R409). -/
def State.liveMap (s : State) (c : Nat) (l : Launch) (n : Nat) : Option (List Byte) :=
  match s.xlatParts c (some l.aspace) .read (pageParts (l.rcd.livemaps + BitVec.ofNat 64 (64 * n)) 64) with
  | .error _ => none
  | .ok (s, ps) => if (s.badIn (spansOf ps)).isSome then none else some (s.readParts ps)

/-- What is live, given which contexts have ended, their map indices and whether FULL is asked for (R409). -/
def State.live (s : State) (c : Nat) (l : Launch) (sd : Nat → Word) (ended : List Bool) (idx : List Nat) (full : Bool) : Live :=
  let maps : List (Option (Option (List Byte))) :=
    (ended.zip idx).map (fun p => if p.1 || l.rcd.livemaps == 0 then none else some (s.liveMap c l p.2))
  let full := full || maps.any (fun m => m == some none)
  let part (e : Bool) (m : Option (Option (List Byte))) : Option LiveCtx × LiveCore :=
    if e then (none, {})
    else match full, m with
      | false, some (some bs) =>
        if leNat ((bs.drop 0x0F).take 1) % 2 = 1 then
          let (x, k) := mapNames l.rcd sd bs
          (some x, k)
        else (some LiveCtx.all, LiveCore.all l.rcd)
      | _, _ => (some LiveCtx.all, LiveCore.all l.rcd)
  let parts := List.zipWith part ended maps
  { full := full, ctx := parts.map (·.1), core := parts.foldl (fun k p => k.join p.2) {} }

/-- Bytes of lane queue `i`: four items, cursor, end (R410). -/
def Core.laneBytes (k : Core) (i : Nat) : List Byte :=
  let q := k.lane i
  leBytes 16 (packLanes 32 (q.items.take 4)) ++ leBytes 4 q.cursor ++ leBytes 4 q.stop

/-- The pieces of a context: live G and B, PC, and with FULL its registers (R410). -/
def ctxPieces (i : Nat) (x : Ctx) (live : LiveCtx) (full : Bool) : List (Nat × List Byte) :=
  let o := 0x80 + 384 * i
  let gs := (List.range 32).filterMap (fun n =>
    if Nat.testBit live.g n then some (o + 8 * n, leBytes 8 (x.getG (BitVec.ofNat 5 n)).toNat) else none)
  let bs := (List.range 4).filterMap (fun n =>
    if Nat.testBit live.b n then some (o + 0x100 + 8 * n, leBytes 8 (x.getB (BitVec.ofNat 2 n)).toNat) else none)
  gs ++ bs ++ [(o + 0x120, leBytes 8 x.pc.toNat)] ++
    (if full then [(o + 0x128, savedCtxRegs.flatMap (fun n => leBytes 8 (x.reg n).toNat))] else [])

/-- The pieces of the core's live items (R410). -/
def State.corePieces (s : State) (c : Nat) (r : LRec) (v : LiveCore) : List (Nat × List Byte) :=
  let k := s.core c
  let ks := (List.range 8).filterMap (fun n =>
    if n ≠ 0 ∧ Nat.testBit v.k n then some (0x800 + 256 * (n - 1), leBytes 256 (k.getK (BitVec.ofNat 3 n)).toNat) else none)
  let ts := (List.range 8).filterMap (fun t =>
    if Nat.testBit v.tiles t then
      some (0x4000 + 0x11000 * t,
        (List.range 32).flatMap (fun i => leBytes 2048 (k.row (32 * t + i)).toNat) ++
        (List.range 32).flatMap (fun i => leBytes 128 (k.sideRow (32 * t + i)).toNat))
    else none)
  let ls := if v.lanes then [(0x1000, (List.range 512).flatMap k.laneBytes)] else []
  ks ++ ts ++ ls ++ v.ranges.map (fun p => (0x8C000 + p.1, s.raw (spAddr c (r.spbase + p.1)) p.2))

/-- A context has ended, or never ran. -/
def Ctx.isOver (x : Ctx) : Bool := x.run == .ended || x.run == .idle

/-- The launch whose trio is handled, and whether the core still runs it: with every context ended it does not (R411). -/
def State.handledLaunch (s : State) (c : Nat) : Option (Launch × Bool) :=
  let k := s.core c
  if k.trioShown then (s.launch? k.handled).map (fun l => (l, k.launch == l.seq)) else none

/-- The pieces of the save of core `c` (R409 to R411). -/
def State.savePieces (s : State) (c : Nat) (l : Launch) (mine full : Bool) : List (Nat × List Byte) :=
  let k := s.core c
  let xs := trioRoles.map k.ctx
  let ended := xs.map (fun x => !mine || x.isOver)
  let forced := (xs.zip ended).map (fun p => p.1.forced && !p.2)
  let idx := xs.map (fun x => if mine then x.safeIdx else 0)
  let isOver := ended.all id
  let v := s.live c l (fun n => k.reg (0x110 + n)) ended idx ((full || forced.any id) && !isOver)
  let held := k.held
  let bit (b : Bool) (n : Nat) : Nat := if b then 2 ^ n else 0
  let h := bit v.full 0 + bit (ended.getD 0 false) 1 + bit (ended.getD 1 false) 2 + bit (ended.getD 2 false) 3 +
    bit (forced.getD 0 false) 4 + bit (forced.getD 1 false) 5 + bit (forced.getD 2 false) 6
  let hi := idx.getD 0 0 + idx.getD 1 0 * 2 ^ 12 + idx.getD 2 0 * 2 ^ 24
  let ctxs := ((List.range 3).zip (xs.zip v.ctx)).flatMap (fun p => match p.2.2 with
    | some live => ctxPieces p.1 p.2.1 live v.full
    | none => [])
  (if v.full then [(0, List.replicate (0x8C000 + l.rcd.spsize) 0)] else []) ++
    [(0, leBytes 8 h ++ leBytes 8 hi ++ leBytes 8 held.length), (0x40, held.flatMap (fun i => leBytes 4 i))] ++ ctxs ++
    [(0x600, (k.savedRegs.flatMap (fun n => leBytes 8 n)) ++ List.replicate (512 - 8 * k.savedRegs.length) 0)] ++
    s.corePieces c l.rcd v.core

/-- The checks of R411 on a save area, then `k` with the launch, whether the core runs it, and the area. -/
def withArea (h : Hdr) (a : GReg) (write : Bool) (k : State → Launch → Bool → Nat → Res) (s : State) : Out :=
  issue h .fw [s.gT a] [] (fun s =>
    let va := s.g a
    let c := s.cur.core
    if va.toNat % 4096 ≠ 0 then .trap 0x06 0 va 0
    else match s.handledLaunch c with
      | none => .trap 0x02 0 0 0
      | some (l, mine) =>
        match s.xlatParts c none (if write then .write else .read) (pageParts va (0x8C000 + l.rcd.spsize)) with
        | .error f => Res.of f 0
        | .ok (s, ps) =>
          (match ps.find? (fun p => match region p.pa with | .decoded _ _ => true | _ => false) with
            | some p => .trap 0x24 0 (BitVec.ofNat 64 p.pa) 0
            | none =>
              match (if write then ps.find? (fun p => s.pinned .firmware p.pa p.len) else none) with
              | some p => .trap 0x26 0 (BitVec.ofNat 64 p.pa) 0
              | none => k s l mine va.toNat)) s

/-- The spans of the pieces of an area, but for the zeros of a full one. -/
def spansAt (a : Nat) (ps : List (Nat × Nat)) : List (Nat × Nat) := (ps.map (fun p => (a + p.1, p.2))).filter (fun p => p.2 != 0)

/-- The live maps that a save or a load of the core reads: physical spans (R409). -/
def State.mapSpans (s : State) (c : Nat) (l : Launch) (ended : List Bool) (idx : List Nat) : List (Nat × Nat) :=
  (ended.zip idx).flatMap (fun p =>
    if p.1 || l.rcd.livemaps == 0 || (s.liveMap c l p.2).isNone then []
    else match s.xlatParts c (some l.aspace) .read (pageParts (l.rcd.livemaps + BitVec.ofNat 64 (64 * p.2)) 64) with
      | .ok (_, ps) => spansOf ps
      | .error _ => [])

/-- Write the pieces of a save area, as admitted stores of firmware. -/
def State.writeArea (s : State) (a : Nat) (ps : List (Nat × List Byte)) : State :=
  ps.foldl (fun s p =>
    let t : Touch := { agent := s.me, write := true, sync := false, spans := [(a + p.1, p.2.length)] }
    let s := s.hold t (if isDram (a + p.1) then some s.wscope else none)
    (s.clearBad (a + p.1) p.2.length).writePhys 0 (a + p.1) p.2) s

/-- CTXSAVE, with FULL or without (R410, R411): the live maps and the live bytes of the reservation are read, the pieces are written, each as
an ordinary access of firmware (R237 to R239, R385). -/
def ctxsaveWith (h : Hdr) (a : GReg) (full : Bool) (s : State) : Out :=
  withArea h a true (fun s l mine area =>
    let c := s.cur.core
    let k := s.core c
    let gone := trioRoles.map (fun r => !mine || (k.ctx r).isOver)
    let ps := s.savePieces c l mine full
    let live := (ps.filter (fun p => decide (0x8C000 ≤ p.1))).map (fun p => (l.rcd.spbase + (p.1 - 0x8C000), p.2.length))
    s.grant false false (s.mapSpans c l gone (trioRoles.map (fun r => (k.ctx r).safeIdx)) ++ spansAt (spAddr c 0) live) (lossAddr c) (fun s =>
      s.grant true false (spansAt area (ps.map (fun p => (p.1, p.2.length)))) (lossAddr c) (fun s =>
        .done (s.writeArea area ps)))) s

/-- CTXSAVE (R411). -/
def execCtxsave (h : Hdr) (a : GReg) (s : State) : Out := ctxsaveWith h a false s
/-- CTXSAVE `.full` (R411). -/
def execCtxsaveFull (h : Hdr) (a : GReg) (s : State) : Out := ctxsaveWith h a true s

/-! CTXLOAD (R411) -/

/-- The producer and the consumer of a FIFO (R160). -/
def fifoEnds : Nat → Role × Role
  | 0 => (.L, .C) | 1 => (.C, .L) | 2 => (.C, .S) | _ => (.S, .C)

/-- The FIFOs from TOKCNT: the tokens carry what their producer knows now (log 24). -/
def State.loadFifos (s : State) (c : Nat) (v : Nat) (ended : Role → Bool) : State :=
  let single := (s.core c).single
  let e := (s.core c).epoch
  (List.range 4).foldl (fun s q =>
    let (p, r) := fifoEnds q
    let clk := s.clockOf (.ctx c p e)
    s.modFifo c q (fun _ => { toks := List.replicate (v / 2 ^ (4 * q) % 16) clk, ended := Nat.testBit v (16 + q), endClock := clk
                              deaf := !single && ended r })) s

/-- The landing ring from its pointers: the bytes between them have landed and are not released (log 25). -/
def Port.loadRing (p : Port) (z rd wr : Nat) : Port :=
  let used := if z = 0 then 0 else (wr + z - rd % z) % z
  { p with rd := rd, wr := wr, free := z - used, given := 0, resv := if used = 0 then [] else [{ nid := 0, size := used, land := used }] }

/-- The value that a register takes from an area: its entry value where it would not take the saved one by SWR, as an area holds that firmware has
changed (R16, R22; DESIGN CHOICE, log 114). -/
def State.areaReg (s : State) (c n v : Nat) : Word :=
  if s.sysOk c .F n (BitVec.ofNat 64 v) then BitVec.ofNat 64 v else SMap.get 0 coreSysReset n

/-- The core registers of an area (R410, R411). -/
def State.loadCoreRegs (s : State) (c : Nat) (f : Nat → Nat) (ended : Role → Bool) : State :=
  let a := savedRegsA.length
  let b := a + 1 + savedRegsB.length
  let d := b + 1 + savedRegsC.length
  let e := d + 1 + savedRegsD.length
  let put (ns : List Nat) (o : Nat) (k : Core) : Core :=
    (ns.zip (List.range ns.length)).foldl (fun k p => k.setReg p.1 (s.areaReg c p.1 (f (o + p.2)))) k
  let s := s.modCore c (fun k =>
    let k := put savedRegsD (d + 1) (put savedRegsC (b + 1) (put savedRegsB (a + 1) (put savedRegsA 0 k)))
    let credits (k : Core) (n : Nat) : Core :=
      { k with chains := SMap.set {} k.chains n { k.chain n with credits := List.replicate (f d / 2 ^ (8 * n) % 256) [] } }
    let k := (List.range 5).foldl credits k
    { k with evbit := f b % 2 == 1, xwrites := [], mxCount := 0, port := k.port.loadRing k.lzsize (f e) (f (e + 1)) })
  s.loadFifos c (f a) ended

/-- A context from an area; what was not saved takes its entry value (R34, R411), and so does a PC, a branch target or a register of the context that
is no code address, or would not be taken by SWR (R12; DESIGN CHOICE, log 114). -/
def State.loadCtx (s : State) (l : Launch) (c : Nat) (f : Nat → Nat → Nat) (r : Role) (live : LiveCtx) (full : Bool) (idx : Nat) (x : Ctx) : Ctx :=
  let k := s.core c
  let o := 0x80 + 384 * roleNum r
  let w (off : Nat) : Word := BitVec.ofNat 64 (f (o + off) 8)
  let code (v d : Word) : Word := if isCode v then v else d
  let (le, ce, se, _) := l.entries k.stage
  let entry : Word := match r with
    | .L => le | .S => se | _ => ce
  let reg (y : Ctx) (n : Nat) (v : Word) : Ctx := if s.sysOk c r n v then y.setReg n v else y
  let y : Ctx := { g := entryRegs l k.single r k.stage, push := x.push, ending := x.ending }
  let y := (List.range 32).foldl (fun y n => if Nat.testBit live.g n then y.setG (BitVec.ofNat 5 n) (w (8 * n)) else y) y
  let y := (List.range 4).foldl (fun y n => if Nat.testBit live.b n then y.setB (BitVec.ofNat 2 n) (code (w (0x100 + 8 * n)) 0) else y) y
  let y := if full then (savedCtxRegs.zip (List.range 7)).foldl (fun y p => reg y p.1 (w (0x128 + 8 * p.2))) y else y
  { y with pc := code (w 0x120) entry, run := .stopped, safeIdx := idx }

/-- The lane queue in 24 bytes; its stream is the one that LQCTL selects (log 26). -/
def loadLane (sd : Word) (bs : List Byte) : Lane :=
  let cursor := leNat ((bs.drop 16).take 4)
  let stop := leNat ((bs.drop 20).take 4)
  { items := lanesOf 32 (Nat.min 4 (stop - cursor)) (leNat (bs.take 16)), cursor := cursor, stop := stop, sd := sd }

/-- The core's items from an area; what was not saved takes its entry value. -/
def State.loadItems (s : State) (c : Nat) (l : Launch) (centry : Word) (area : Nat) (v : LiveCore) : State :=
  let rd (off n : Nat) : List Byte := s.readKey 0 (area + off) n
  let k := s.core c
  let sd := k.reg (0x110 + (k.reg 0x118).toNat % 8)
  let ks : SMap Mask := (List.range 8).foldl (fun m n =>
    if n ≠ 0 ∧ Nat.testBit v.k n then SMap.set 0 m n (BitVec.ofNat 2048 (leNat (rd (0x800 + 256 * (n - 1)) 256))) else m) []
  let tiles := (List.range 8).filter (Nat.testBit v.tiles)
  let rows : SMap Row := (tiles.flatMap (fun t => (List.range 32).map (fun i => (t, i)))).foldl (fun m p =>
    SMap.set 0 m (32 * p.1 + p.2) (BitVec.ofNat 16384 (leNat (rd (0x4000 + 0x11000 * p.1 + 2048 * p.2) 2048)))) []
  let side : SMap Scales := (tiles.flatMap (fun t => (List.range 32).map (fun i => (t, i)))).foldl (fun m p =>
    SMap.set 0 m (32 * p.1 + p.2) (BitVec.ofNat 1024 (cleanScales 128 (leNat (rd (0x14000 + 0x11000 * p.1 + 128 * p.2) 128))))) []
  let lanes : SMap Lane := if v.lanes then
      (List.range 512).foldl (fun m i => SMap.set {} m i (loadLane sd (rd (0x1000 + 24 * i) 24))) []
    else []
  let sp := v.ranges.map (fun p => (p.1, rd (0x8C000 + p.1) p.2))
  let s := s.modCore c (fun k => { k with k := ks, rows := rows, side := side, lanes := lanes, pend := [] })
  let s := s.loadReservation c l centry
  sp.foldl (fun s p => s.setRaw (spAddr c (l.rcd.spbase + p.1)) p.2) s

/-- The parts of an area that a load reads beyond its header, as offset and length (R410, R411). -/
def liveSpans (v : Live) : List (Nat × Nat) :=
  let bits (n m o w : Nat) : List (Nat × Nat) := (List.range n).filterMap (fun i => if Nat.testBit m i then some (o + w * i, w) else none)
  ((List.range 3).zip v.ctx).flatMap (fun p => match p.2 with
    | some x =>
      let o := 0x80 + 384 * p.1
      bits 32 x.g o 8 ++ bits 4 x.b (o + 0x100) 8 ++ [(o + 0x120, 8)] ++ (if v.full then [(o + 0x128, 56)] else [])
    | none => []) ++
  bits 7 (v.core.k / 2) 0x800 256 ++ bits 8 v.core.tiles 0x4000 0x11000 ++ (if v.core.lanes then [(0x1000, 12288)] else []) ++
    v.core.ranges.map (fun p => (0x8C000 + p.1, p.2))

/-- CTXLOAD (R411): the header, the held indices and the core registers are read, and then what the header and the live maps name, as ordinary
accesses of firmware (R237 to R239, R385). Where every context has ended, nothing else was saved, and every other item takes its entry value. -/
def execCtxload (h : Hdr) (a : GReg) (s : State) : Out :=
  withArea h a false (fun s l mine area =>
    let c := s.cur.core
    let own (a : Nat) : Nat := a
    s.grant false false (spansAt area [(0, 0x18), (0x40, 0x40), (0x600, 512)]) own (fun s =>
      let f (off n : Nat) : Nat := leNat (s.readKey 0 (area + off) n)
      let hd := f 0 8
      let ended (r : Role) : Bool := !mine || Nat.testBit hd (1 + roleNum r)
      let idx (r : Role) : Nat := f 8 8 / 2 ^ (12 * roleNum r) % 4096
      let sd (n : Nat) : Word := BitVec.ofNat 64 (f (0x600 + 8 * (savedRegsA.length + 1 + n)) 8)
      let v := s.live c l sd (trioRoles.map ended) (trioRoles.map idx) (hd % 2 == 1 && trioRoles.any (fun r => !ended r))
      s.grant false false (s.mapSpans c l (trioRoles.map ended) (trioRoles.map idx) ++ spansAt area (liveSpans v)) own (fun s =>
        let s := s.loadCoreRegs c (fun i => f (0x600 + 8 * i) 8) ended
        let s := s.modCore c (fun k => { k with held := lanesOf 32 (Nat.min 16 (f 0x10 8)) (f 0x40 64) })
        let s := s.loadItems c l (l.entries (s.core c).stage).2.1 area v.core
        .done ((trioRoles.zip v.ctx).foldl (fun s p => s.modCtx c p.1 (fun x => match p.2 with
          | some live => s.loadCtx l c f p.1 live (hd % 2 == 1) (idx p.1) x
          | none => { x.drop with run := .ended })) s)))) s

/-! The request (R407) -/

/-- PTHRESH for a launch that waits: that of the lowest core of its pushing quire (R392). -/
def State.pthresh (s : State) (l : Launch) : Nat := ((s.core (8 * l.pushQuire)).reg 0x426).toNat

/-- Whether `v` may be a victim of the waiting launch `w` (R407). -/
def State.mayYield (s : State) (w v : Launch) : Bool :=
  v.state == .running && decide (v.prio < w.prio) && v.killed.isNone && s.saveArea v != 0 &&
    (quiresOf w.rcd.qmask).any (fun u => ((s.quire u).walker v.seq).isSome)

/-- The victim of a waiting launch: the lowest priority, the latest started on a tie (R407). -/
def State.victimOf (s : State) (w : Launch) : Option Launch :=
  (s.launches.filter (s.mayYield w)).foldl (fun best v => match best with
    | none => some v
    | some b => if v.prio < b.prio ∨ (v.prio = b.prio ∧ b.startOrder < v.startOrder) then some v else some b) none

/-- A pre-emption that is to be requested now (R407). -/
def State.preemptDue (s : State) : Option (Launch × Launch) :=
  if s.preempt.isSome then none
  else s.launches.findSome? (fun w =>
    if w.state = .ready ∧ s.pthresh w ≠ 0 ∧ w.pushedAt + s.pthresh w ≤ s.gtc then (s.victimOf w).map (fun v => (w, v)) else none)

/-- PREEMPT_REQUEST (R407, R178): the victim's walkers are frozen. -/
def execPreemptRequest (waiting victim : Nat) (s : State) : Out :=
  match s.launch? waiting with
  | none => .next s
  | some w =>
    if s.preempt.isNone ∧ w.state = .ready ∧ s.pthresh w ≠ 0 ∧ w.pushedAt + s.pthresh w ≤ s.gtc ∧
        (s.victimOf w).map (·.seq) = some victim then
      let freeze (q : Quire) : Quire :=
        { q with walkers := q.walkers.map (fun x => if x.launch = victim then { x with frozen := true } else x) }
      let go (s : State) : State :=
        { s with quires := s.quires.map (fun (p : Nat × Quire) => (p.1, freeze p.2))
                 preempt := some { victim := victim, waiting := waiting, since := s.gtc } }
      match s.launch? victim with
      | some v => .next (s.withSaveArea v go)
      | none => .next s
    else .next s

/-! Stopping and saving (R408) -/

/-- A context counts as stopped for the save: it has ended, stands at its safe point, or has been forced. -/
def Ctx.saveReady (x : Ctx) : Bool := x.isOver || (x.run == .stopped && x.atSafe)

/-- A core that restarts after an earlier pre-emption: its area still holds its state, so it neither reports nor is forced before its handler has
returned (DESIGN CHOICE, log 67). -/
def Launch.restarting (l : Launch) (c : Nat) : Bool := l.toReport.contains c || l.resuming.contains c

/-- Every command of a launch that the core's contexts enqueued has retired, and every pull that its port began has landed. -/
def Core.quiet (k : Core) (q : Nat) : Bool :=
  !k.chains.any (fun p => p.2.cmds.any (fun e => e.live && e.launch == q)) && k.port.pulls.all (fun p => p.requested == 0)

/-- A core of the victim that is to report now, or to be counted as saved (R408). -/
def State.saveDue (s : State) (c : Nat) : Option (Preempt × Launch) :=
  match s.preempt with
  | none => none
  | some p => match s.launch? p.victim with
    | none => none
    | some l =>
      let k := s.core c
      if l.entered.contains c ∧ ¬ l.restarting c ∧ ¬ p.reported.contains c ∧ ¬ p.saved.contains c ∧
          (k.launch ≠ 0 ∧ k.launch ≠ l.seq ∨
            k.quiet l.seq ∧ (k.launch = 0 ∨ (k.ctxL.saveReady ∧ k.ctxC.saveReady ∧ k.ctxS.saveReady))) then some (p, l)
      else none

/-- The device writes the header of a core that runs another launch (R408), as its queue processor: no context is live. A write that is refused for
good fails the queue (R239, R403). -/
def State.writeHeader (s : State) (p : Preempt) (l : Launch) (c area : Nat) : State :=
  let done (s : State) : State := { s with preempt := some { p with saved := p.saved ++ [c], skip := p.skip ++ [c] } }
  match l.queue with
  | none => done s
  | some (d, q, _) =>
    match s.qpAsk d true false (physParts area 0x20) with
    | .made s => done ((s.clearBad area 0x20).writeKey 0 area (leBytes 8 0x0E ++ List.replicate 24 0))
    | .again s => s
    | .fail cause sub v => done (s.queueFail d q cause sub v)

/-- PREEMPT_REPORT (R408): 0x40, or 0x41 where a context was forced; for a core that runs another launch the device writes
the header itself. -/
def execPreemptReport (s : State) : Out :=
  let c := s.cur.core
  match s.saveDue c with
  | none => .next s
  | some (p, l) =>
    let k := s.core c
    let area := s.coreArea l c
    if k.launch ≠ 0 ∧ k.launch ≠ l.seq then .next (s.writeHeader p l c area)
    else
      let forced := k.launch = l.seq ∧ (k.ctxL.forced ∨ k.ctxC.forced ∨ k.ctxS.forced)
      .next (s.withSaveArea l (fun s =>
        let s := { s.modCore c Core.settle with preempt := some { p with reported := p.reported ++ [c] } }
        s.report c { cause := if forced then 0x41 else 0x40, src := 0, ctx := 3, val := BitVec.ofNat 64 area, launch := l.seq }))

/-- A context that SAFETO forces to stop (R408). -/
def Ctx.force (x : Ctx) : Ctx :=
  if x.isOver ∨ x.atSafe then x else { x.stop with safe := true, forced := true }

/-- SAFETO of the current core has passed with a context not stopped (R408). -/
def State.forceDue (s : State) (c : Nat) : Bool :=
  match s.preempt with
  | none => false
  | some p =>
    let k := s.core c
    k.launch == p.victim && !((s.launch? p.victim).any (fun l => l.restarting c)) && !p.reported.contains c && decide (p.since + (k.reg 0x420).toNat ≤ s.gtc) &&
      [k.ctxL, k.ctxC, k.ctxS].any (fun x => !x.isOver && !x.atSafe)

/-- SAFE_POINT_TIMEOUT (R408). -/
def execSafePointTimeout (s : State) : Out :=
  let c := s.cur.core
  if s.forceDue c then
    .next (s.modCore c (fun k => { k with ctxL := k.ctxL.force, ctxC := k.ctxC.force, ctxS := k.ctxS.force }))
  else .next s

/-- The victim whose cores have all been saved (R408). -/
def State.savedVictim (s : State) : Option (Preempt × Launch) :=
  match s.preempt with
  | none => none
  | some p => match s.launch? p.victim with
    | some l => if l.entered.all (fun c => p.saved.contains c) then some (p, l) else none
    | none => none

/-- The record of a quire's walker (R178); zero where the launch holds none. -/
def State.walkerBytes (s : State) (l : Launch) (u : Nat) : List Byte :=
  match (s.quire u).walker l.seq with
  | some w => leBytes 4 w.lo ++ leBytes 4 w.hi ++ leBytes 2 l.rcd.group.toNat ++ leBytes 1 l.rcd.gen.toNat ++ leBytes 5 0
  | none => leBytes 16 0

/-- The walkers are saved by the queue processor (R178, R408): refused for now, or made; where the records are refused for good the queue fails, and
they stay as they were (DESIGN CHOICE, log 69). -/
def State.saveWalkers (s : State) (d qsb area : Nat) (l : Launch) : State × Bool :=
  let bs := (List.range 40).flatMap (s.walkerBytes l)
  match s.qpAsk d true false (physParts area 640) with
  | .made s => ((s.clearBad area 640).writeKey 0 area bs, true)
  | .again s => (s, false)
  | .fail cause sub v => (s.queueFail d qsb cause sub v, true)

/-- PREEMPT_SAVE_DONE (R408, R178, R182): the walkers are saved, the cores freed, SAVED written and the launch pushed again. -/
def execPreemptSaveDone (s : State) : Out :=
  match s.savedVictim with
  | none => .next s
  | some (p, l) =>
    match l.queue with
    | none => .next s
    | some (d, qsb, _) =>
      .next (s.withSaveArea l (fun s =>
      let (s, made) := s.saveWalkers d qsb (s.saveArea l) l
      if !made then s
      else
      let running := (coresOf l.rcd.qmask).filter (fun c => (s.core c).launch == l.seq)
      let keep (c : Nat) (m : SMap (List (List Nat))) (r : Role) : SMap (List (List Nat)) := SMap.set [] m (takenKey c r) (s.ctx c r).push
      let pushes := running.foldl (fun m c => trioRoles.foldl (keep c) m) l.pushes
      let after (c : Nat) (m : SMap (Option Ending)) (r : Role) : SMap (Option Ending) := SMap.set none m (takenKey c r) (s.ctx c r).ending
      let endings := running.foldl (fun m c => trioRoles.foldl (after c) m) l.endings
      let replays := running.foldl (fun m c => SMap.set [] m c (s.core c).replay) l.replays
      let stages := running.foldl (fun m c => SMap.set 0 m c (s.core c).stage) l.stageOf
      let (s, g) := s.stepGen l.pushQuire
      let gone (x : Ctx) : Ctx := { x.drop with run := .ended, push := [], ending := none, safe := false, forced := false }
      let s := running.foldl (fun s c => s.modCore c (fun k =>
        { k.settle with launch := 0, marked := false, held := [], replay := []
                        ctxL := gone k.ctxL, ctxC := gone k.ctxC, ctxS := gone k.ctxS })) s
      let drop (u : Quire) : Quire := { u with walkers := u.walkers.filter (fun w => w.launch != l.seq) }
      let s := { s with quires := s.quires.map (fun (q : Nat × Quire) => (q.1, drop q.2)), preempt := none }
      let s := s.qWrite d qsb 0x50 8 l.seq
      s.modLaunch l.seq (fun l => { l with
        state := .ready, resumed := true, skip := p.skip, entered := p.skip, ended := p.skip
        toReport := p.saved.filter (fun c => !p.skip.contains c) ++ l.toReport.filter (fun c => !l.entered.contains c), resuming := []
        bank := fld g 63 60, pass := 0, pushedAt := s.gtc, pushes := pushes, endings := endings, replays := replays, stageOf := stages })))

/-! The restart (R408) -/

/-- A core whose restart report is due. -/
def State.restartDue (s : State) (c : Nat) : Option Launch :=
  match s.launchOf c with
  | some l => if l.toReport.contains c && l.state == .running then some l else none
  | none => none

/-- PREEMPT_RESTART (R408): cause 0x40 with subcause 1. -/
def execPreemptRestart (s : State) : Out :=
  let c := s.cur.core
  match s.restartDue c with
  | none => .next s
  | some l =>
    .next (s.withSaveArea l (fun s =>
      let s := s.modLaunch l.seq (fun l => { l with toReport := l.toReport.filter (· != c), resuming := l.resuming ++ [c] })
      s.report c { cause := 0x40, sub := 1, src := 0, ctx := 3, val := BitVec.ofNat 64 (s.coreArea l c), launch := l.seq }))

end Sys2Proof.Machine
end

