-- ==== Sys2Proof/Machine/Fabric.lean ====
section
/-! DEFINITION. Links, the pod link table, time and the host port (spec 23 R415 to R429). -/
namespace Sys2Proof.Machine

/-! Routes that change (R421, R422) -/

/-- Change the firings of a die. -/
def State.modFirings (s : State) (d : Nat) (f : Firing → Firing) : State :=
  s.modDie d (fun x => { x with firings := x.firings.map f })

/-- Member packages of a tile-table entry, ascending (R430). -/
def membersOf (e : List Byte) : List Nat := (List.range 64).filter (Nat.testBit (leNat ((e.drop 0x10).take 8)))
/-- The root (R430). -/
def rootOf (e : List Byte) : Nat := (membersOf e).headD 0

/-- KIND of a tile-table entry (R430). -/
def kindOf (e : List Byte) : Nat := leNat ((e.drop 0x1E).take 1) / 16 % 4
/-- Change one firing. -/
def State.modFiring (s : State) (d : Nat) (f : Firing) (g : Firing → Firing) : State :=
  s.modFirings d (fun x => if x.entry = f.entry ∧ x.fire = f.fire then g x else x)
/-- Members of a firing. -/
def Firing.members (f : Firing) : List Nat := membersOf f.image
/-- The core by which the engine of a die translates and is addressed. -/
def collCore (d : Nat) : Nat := 80 * d

/-- Send a message of a firing to a member. -/
def State.collSend (s : State) (d : Nat) (f : Firing) (p : Nat) (b : Body) : State :=
  s.send (s.podId (collCore d)) (512 * p + collCore d) f.group f.gen b

/-- Send to every other member. -/
def State.collTell (s : State) (d : Nat) (f : Firing) (b : Body) : State :=
  (f.members.filter (· != s.pkg)).foldl (fun s p => s.collSend d f p b) s

/-- The packages from which a firing is pulling, one entry for each pull in progress. -/
def Firing.sources (f : Firing) : List Nat :=
  f.slots.filterMap (fun x => match x.use with
    | .pull p _ _ => some p
    | _ => none) ++ f.asking ++ f.got.map (fun x => x.2.1)

/-- Without the pulls from package `p` and to it. -/
def Firing.without (f : Firing) (p : Nat) : Firing :=
  { f with
    slots := f.slots.filter (fun x => match x.use with
      | .pull q _ _ => q != p
      | _ => true)
    asking := f.asking.filter (· != p)
    got := f.got.filter (fun x => x.2.1 != p)
    serving := f.serving.filter (fun x => x.2.1 != p) }

/-- The root asks every member to stop starting pulls, where a change waits and no recomputation is under way (R437 step 1). -/
def State.stopFiring (s : State) (d : Nat) (f : Firing) : State :=
  if f.again = 0 ∨ f.recomp ∨ f.build ≤ f.halt then s
  else (s.modFiring d f (fun g => { g with halt := g.build })).collTell d f (.collStop f.entry f.fire f.build)

/-- A change that the root applies asks for a recomputation (R437). -/
def State.changeFiring (s : State) (d : Nat) (f : Firing) : State :=
  (s.modFiring d f (fun g => { g with again := g.again + 1 })).stopFiring d { f with again := f.again + 1 }

/-- A pull that ended refused asks for a recomputation, unless the member has stopped for a change already (R437; log 28). The root is told. -/
def State.askAgain (s : State) (d : Nat) (f : Firing) : State :=
  if f.recomp ∨ f.build ≤ f.halt then s
  else if rootOf f.image = s.pkg then s.changeFiring d f
  else (s.modFiring d f (fun g => { g with halt := g.build })).collSend d f (rootOf f.image) (.collAgain f.entry f.fire f.build)

/-- `n` pulls of a firing from package `p` end refused for want of a route (R422): a firing of KIND 3 aborts with subcause 2 (R439), and another
one recomputes (R437). -/
def State.pullsRefused (s : State) (d : Nat) (f : Firing) (p n : Nat) : State :=
  let s := ((List.range n).foldl (fun s _ => s.unreach) s).modFiring d f (fun g => g.without p)
  if n = 0 ∨ f.isOver ∨ f.aborting.isSome then s
  else if kindOf f.image = 3 then s.modFiring d f (fun g => { g with fail := g.fail.orElse (fun _ => some 2) })
  else s.askAgain d f

/-- The pulls of every firing from packages without a route end refused (R422). -/
def State.pullsLost (s : State) : State :=
  (List.range Config.nDies).foldl (fun s d => (s.die d).firings.foldl (fun s f =>
    (f.members.filter (fun p => p != s.pkg && (s.routeLink p).isNone)).foldl (fun s p =>
      s.pullsRefused d (((s.die d).firings.find? (fun g => g.entry == f.entry && g.fire == f.fire)).getD f) p (f.sources.filter (· == p)).length) s) s) s

/-- A message is routed again, or ends at its source: a pull request's pull ends as refused (R422). -/
def State.reroute (s : State) (m : Packet) : State :=
  match s.linkFor m with
  | some l => s.onLink l m
  | none =>
    match m.body with
    | .segReq nid _ =>
      let s := s.noRoute m
      let c := m.src % 512
      (match (s.core c).port.pulls.find? (fun p => p.nid == nid), (s.core c).port.entry nid with
        | some x, some e => (s.endRefused c x e.info).endPull c x e
        | _, _ => s)
    | _ => s.noRoute m

/-- Messages that wait for a route are sent where one has returned (R422). -/
def State.flushKept (s : State) : State :=
  let (go, stay) := s.kept.partition (fun m => (s.linkFor m).isSome)
  go.foldl State.reroute { s with kept := stay }

/-- One more applied link-table change (R421). -/
def State.ltgenUp (s : State) : State :=
  { s with sys := SMap.set 0 s.sys 0x501 (BitVec.ofNat 64 (((SMap.get 0 s.sys 0x501).toNat + 1) % 2 ^ 32)) }

/-- Whether a change of the row of package `p` matters to a firing (R437): a link between two members changes, or the link
to a pod switch over which its chain of packages leaves goes down. -/
def Firing.touchedBy (f : Firing) (p : Nat) (old new : List Word) : Bool :=
  let ms := membersOf f.image
  let between (w : Word) : Bool := linkKind w == 1 && ms.contains (linkPeer w)
  let switch (row : List Word) : Option Nat := row.findIdx? (fun w => linkKind w == 2)
  ms.contains p &&
    ((List.range 16).any (fun l =>
      let a := old.getD l 0
      let b := new.getD l 0
      (between a || between b) && (fld a 63 40 != fld b 63 40)) ||
     match switch old with
     | some l => f.spines.any (fun x => x.chain) && linkKind (new.getD l 0) != 2
     | none => false)

/-- The firings whose root is here recompute where a change of a row matters to them (R437). -/
def State.disturb (s : State) (p : Nat) (old new : List Word) : State :=
  (List.range Config.nDies).foldl (fun s d =>
    ((s.die d).firings.filter (fun f => rootOf f.image == s.pkg && f.ready && kindOf f.image != 3 && f.touchedBy p old new)).foldl
      (fun s f => s.changeFiring d f) s) s

/-- The package sends its own row to every other package on the control network (R421). -/
def State.announce (s : State) : State :=
  s.others.foldl (fun s p => s.send (s.pkg * 512) (p * 512) 0 0 (.linkRow s.pkg s.ownRow)) s

/-- Messages that wait on a link for a package that has no route any more end at their source; one whose flits are on the way goes on (R422). -/
def State.unqueue (s : State) : State :=
  (List.range 16).foldl (fun s l =>
    let k := s.link l
    let sending (m : Packet) : Bool := SMap.get 0 k.part (netOf m.body) != 0 && k.head (netOf m.body) == some m
    let lost := k.queue.filter (fun m => (s.linkFor m).isNone && !sending m)
    if lost.isEmpty then s
    else lost.foldl State.reroute (s.modLink l (fun k => { k with queue := k.queue.filter (fun m => !lost.contains m) }))) s

/-- What follows a change of the table, before any message is routed by it: collectives see it, pulls that have lost their route end, and the
messages that wait go on (R421, R422, R437). -/
def State.rowChanged (s : State) (p : Nat) (old new : List Word) : State :=
  (s.ltgenUp.disturb p old new).pullsLost.unqueue.flushKept

/-- KIND, PEER, PLINK and LANES of a link change: LTGEN and the event; the messages `ms` that were on the link go another way, then the new row is
announced, so that it comes after older ones (R421, R422, R428). -/
def State.setLink (s : State) (l : Nat) (v : Word) (ms : List Packet := []) : State :=
  let old := s.linkReg l
  let w := BitVec.ofNat 64 (v.toNat / 2 ^ 40 * 2 ^ 40 + old.toNat % 2 ^ 32)
  let before := s.ownRow
  let s := { s with sys := SMap.set 0 s.sys (0x510 + l) w }
  let s := (s.tell (.linkChange l)).rowChanged s.pkg before s.ownRow
  (ms.foldl State.reroute s).announce

/-- A link goes down (R422): every message with an unacknowledged flit, or still unsent, goes another way. -/
def State.takeDown (s : State) (l : Nat) : State :=
  if linkKind (s.linkReg l) = 0 then s
  else
    let k := s.link l
    (s.modLink l (fun _ => {})).setLink l 0 (k.tx.filterMap (fun f => f.flit.msg) ++ k.queue)

/-- LINK_DOWN (R422). -/
def execLinkDown (l : Nat) (s : State) : Out := if l < 16 then .next (s.takeDown l) else .next s

/-- A value that a trained link may take (R424). -/
def linkValueOk (v : Word) : Bool :=
  (linkKind v == 1 || linkKind v == 2) && fld v 61 54 == 0 && (fld v 43 40 == 7 || fld v 43 40 == 8) && fld v 39 0 == 0 &&
    (linkKind v == 1 || fld v 53 44 == 0)

/-- LINK_UP (R421). -/
def execLinkUp (l : Nat) (v : Word) (s : State) : Out :=
  if l < 16 ∧ linkKind (s.linkReg l) = 0 ∧ linkValueOk v then .next ((s.modLink l (fun _ => {})).setLink l v) else .next s

/-! Time (R425, R426) -/

/-- The lowest of some package ids. -/
def lowest (ps : List Nat) : Option Nat := ps.foldl (fun b p => match b with | none => some p | some q => some (Nat.min p q)) none

/-- The pod reference among packages that have ended dawn, with their locks (R426): the lowest that has LOCK from its own host port, else the
lowest. -/
def referenceOf (ps : List (Nat × Bool)) : Option Nat :=
  (lowest ((ps.filter (·.2)).map (·.1))).orElse (fun _ => lowest (ps.map (·.1)))

/-- The packages that are known to have ended dawn, this one among them once it has. -/
def State.podUp (s : State) : List (Nat × Bool) := (if s.phase = .up then [(s.pkg, s.hostLock)] else []) ++ s.podTime

/-- Send the GTC to a package, and whether this one has LOCK from its own host port (R426; log 96). -/
def State.sendTime (s : State) (p : Nat) : State := s.send (s.pkg * 512) (p * 512) 0 0 (.time s.gtc s.hostLock)

/-- Send it to every other package that has a route: as this one ends dawn, and as its host port brings it a time (log 96). -/
def State.tellTime (s : State) : State := (s.others.filter (fun p => (s.routeLink p).isSome)).foldl State.sendTime s

/-- A package in step 6 of dawn that no longer has a route to a reference keeps its own GTC (R426; log 96). -/
def State.stillAligns (s : State) : State :=
  if s.phase ≠ .aligning then s
  else match referenceOf s.podTime with
    | some p => if (s.routeLink p).isSome then s else { s with phase := .up }.tellTime
    | none => { s with phase := .up }.tellTime

/-- The round trip of the link over which a package is reached (R426). -/
def State.roundTrip (s : State) (p : Nat) : Nat := ((s.routeLink p).map (fun l => s.dawnCfg.trips.getD l 0)).getD 0

/-- SKEW takes a new estimate of the offset; LOCK asks for one of at most 24 cycles (R424, R426, R428). -/
def State.setSkew (s : State) (locked : Bool) (offset : BitVec 32) : State :=
  let small := decide (offset.toInt ≤ 24) && decide (-24 ≤ offset.toInt)
  let was := fld (SMap.get 0 s.sys 0x502) 63 63 = 1
  let now := locked && small
  let s := { s with sys := SMap.set 0 s.sys 0x502 (BitVec.ofNat 64 ((if now then 2 ^ 63 else 0) + offset.toNat)) }
  if was ∧ ¬ now then s.tell .lostLock else s

/-- A control flit of package `p` carries its GTC (R426): where it is the reference, a package in step 6 of dawn is aligned by it, and any other
measures its offset from it. A package that was not known to be up is answered. -/
def State.timeFrom (s : State) (p g : Nat) (locked : Bool) : State :=
  let known := s.podTime.any (fun x => x.1 == p)
  let s := { s with podTime := s.podTime.filter (fun x => x.1 != p) ++ [(p, locked)] }
  let now := g + s.roundTrip p / 2
  if s.phase = .aligning then
    if referenceOf s.podTime = some p then ({ s with gtc := now, phase := .up }).tellTime else s
  else
    let s := if referenceOf s.podUp = some p then s.setSkew true (BitVec.ofInt 32 (Int.ofNat s.gtc - Int.ofNat now)) else s
    if known ∨ s.phase ≠ .up then s else s.sendTime p

/-- LINK_TABLE_ROW (R421): the row of another package is applied, in the order of its arrival. -/
def execLinkTableRow (msg : Nat) (s : State) : Out :=
  match s.net[msg]? with
  | some m =>
    (match m.body with
      | .linkRow p row =>
        if s.notFirst msg then .next s
        else
          let s := s.takeMsg msg
          let before := s.rowOf p
          let s := ({ s with linkTable := SMap.set [] s.linkTable p row }).rowChanged p before row
          let s := s.stillAligns
          .next (if s.phase = .up ∧ referenceOf s.podUp = some s.pkg ∧ (s.routeLink p).isSome then s.sendTime p else s)
      | _ => .next s)
  | none => .next s

/-- LANE_SPARE (R457, R416): the link goes on with 7 lanes. -/
def execLaneSpare (l : Nat) (s : State) : Out :=
  let w := s.linkReg l
  if l < 16 ∧ fld w 43 40 = 8 then .next (s.setLink l (BitVec.ofNat 64 (w.toNat - 2 ^ 40))) else .next s

/-! Flits (R417 to R419, R422) -/

/-- Drop the flits that an acknowledgement covers. -/
def ackTo (a : BitVec 8) (tx : List TxFlit) : List TxFlit :=
  if tx.any (fun f => f.flit.seq == a) then (tx.dropWhile (fun f => f.flit.seq != a)).drop 1 else tx

/-- A message that has come over a link: passed on where it is for another package (log 118), and discarded if its MSEQ was taken before (R422).
The time is taken as it arrives (R420, R426); any other message has its way through the package before it. -/
def State.deliver (s : State) (m : Packet) : State :=
  let id := (m.src / 512, m.mseq.toNat)
  if m.dst / 512 ≠ s.pkg then (if passedOn m.body then s.reroute m else s)
  else if 319 < m.dst % 512 ∨ s.taken.contains id then s
  else
    let s := { s with taken := s.taken ++ [id] }
    match m.body with
    | .time g locked => s.timeFrom (m.src / 512) g locked
    | _ => { s with net := s.net ++ [{ m with made := s.gtc }] }

/-- FLIT_RECEIVE (R418, R419): a flit in order is taken, its acknowledgement and credits count, a whole message goes on, and the flit is
answered (log 95). One that is lost is answered by a negative acknowledgement, one that was taken before by its acknowledgement. -/
def execFlitReceive (l : Nat) (f : Flit) (s : State) : Out :=
  let k := s.link l
  if 16 ≤ l ∨ linkKind (s.linkReg l) = 0 then .next s
  else if ¬ crcHolds f then .next (s.modLink l (fun k => k.answerAlone true))
  else if f.seq ≠ k.expect then
    .next (if flitAlone f then s else s.modLink l (fun k => k.answerAlone (decide ((f.seq - k.expect).toNat < 128))))
  else if flitAlone f then .next (s.modLink l (fun k => { k with tx := ackTo f.ack k.tx, nacked := k.nacked || f.nack }))
  else
    let s := s.modLink l (fun k => { k with
      expect := k.expect + 1
      tx := ackTo f.ack k.tx
      spent := SMap.set 0 k.spent f.cvn.toNat (SMap.get 0 k.spent f.cvn.toNat - f.cret.toNat)
      owed := if flitEmpty f then k.owed else SMap.set 0 k.owed f.vn.toNat (SMap.get 0 k.owed f.vn.toNat + 1) })
    let s := match f.last, f.msg with
      | true, some m => s.deliver m
      | _, _ => s
    .next (s.modLink l (fun k => k.answer s.gtc))

/-- A link whose oldest unacknowledged flit has waited 2,048 cycles (R418). -/
def State.resendDue (s : State) (l : Nat) : Bool :=
  match (s.link l).tx with
  | f :: _ => decide (f.sentAt + 2048 ≤ s.gtc)
  | [] => false

/-- FLIT_RESEND (R418): all unacknowledged flits again, unchanged, on a negative acknowledgement or after the wait; after 16 resends the link
retrains, or goes down. -/
def execFlitResend (l : Nat) (nack trained : Bool) (s : State) : Out :=
  let k := s.link l
  if 16 ≤ l ∨ ¬ (nack && k.nacked ∨ s.resendDue l) then .next s
  else
    let tx : List TxFlit := k.tx.map (fun f => { f with sentAt := s.gtc, resent := f.resent + 1 })
    let w := s.linkReg l
    let w' := BitVec.ofNat 64 (w.toNat / 2 ^ 32 * 2 ^ 32 + (w.toNat + tx.length) % 2 ^ 32)
    let s := ({ s with sys := SMap.set 0 s.sys (0x510 + l) w' }).modLink l (fun k => { k with nacked := false })
    let times : Nat := (tx.head?.map (fun f => f.resent)).getD 0
    if times < 16 then .next (s.modLink l (fun k => { k with tx := tx }))
    else if trained then .next (s.modLink l (fun k => { k with tx := tx.map (fun f => { f with resent := 0 }) }))
    else .next (s.takeDown l)

/-- PTP_MESSAGE: the frequency is trimmed. The port has lock with an offset of at most 24, which the pod learns of; SKEW takes the estimate where
this package is the reference, and is the offset from the reference elsewhere (R425, R426). -/
def execPtpMessage (locked : Bool) (offset : BitVec 32) (s : State) : Out :=
  if s.featureOff 3 then .next s
  else
    let s := { s with hostLock := locked && decide (offset.toInt ≤ 24) && decide (-24 ≤ offset.toInt) }
    .next (if referenceOf s.podUp = some s.pkg then s.setSkew locked offset else s).tellTime

/-- LOST_LOCK (R428): the host port has lost its lock, and the pod learns of it; SKEW loses it where it came from the port (R426). -/
def execLostLock (s : State) : Out :=
  if !s.hostLock then .next s
  else
    let own := referenceOf s.podUp == some s.pkg
    let s := { s with hostLock := false }
    .next (if own then s.setSkew false (BitVec.ofNat 32 (SMap.get 0 s.sys 0x502).toNat) else s.tell .lostLock).tellTime

/-! The host port (R427 to R429, R450, R452) -/

/-- The FEATURE bits that the device offers (R429). -/
def offered : BitVec 128 := 0x3F

/-- The bytes of a 256-bit value, lowest first, and back (log 8). -/
def valueOf (bs : List Byte) : BitVec 256 := BitVec.ofNat 256 (leNat bs)

/-- What carries something to one session only: an answer to one of its requests. -/
def isAnswer (o : HostOut) : Bool := match o with
  | .reply _ | .ack | .refused _ _ => true
  | _ => false

/-- The report of the OPEN exchange, which precedes the sealed datagrams. -/
def isReport (o : HostOut) : Bool := match o with
  | .attestation .. => true
  | _ => false

/-- The selective bitmap: bit `i` for the datagram that is `i + 1` behind the next one (R427; DESIGN CHOICE, log 119). -/
def Session.sack (x : Session) : BitVec 64 :=
  x.early.foldl (fun m d =>
    let i := (d.seq - x.nextSeq).toNat
    if 1 ≤ i ∧ i ≤ 64 then m ||| BitVec.ofNat 64 (2 ^ (i - 1)) else m) 0

/-- Send what waits, while fewer than 64 datagrams are unacknowledged (R427); the number bounds them. -/
def Session.pump : Nat → Session → Session
  | 0, x => x
  | fuel + 1, x =>
    match x.waiting with
    | [] => x
    | o :: os =>
      if 64 ≤ x.flying.length then x
      else Session.pump fuel { x with
        outSeq := x.outSeq + 1, waiting := os
        flying := x.flying ++ [{ seq := x.outSeq, ack := x.nextSeq - 1, sack := x.sack, out := o }] }

/-- The host has taken the datagrams that an acknowledgement and its bitmap name (R427). -/
def Session.taken (x : Session) (ack : BitVec 32) (sack : BitVec 64) : Session :=
  let has (q : BitVec 32) : Bool :=
    let back := (ack - q).toNat
    let i := (q - ack).toNat
    decide (back < 64) || (decide (2 ≤ i) && decide (i ≤ 65) && sack.getLsbD (i - 2))
  Session.pump 64 { x with flying := x.flying.filter (fun o => !has o.seq) }

/-- Without the feature of datagrams above 1,500 bytes the data of a reply goes out in pieces of 1,024 bytes (R429; DESIGN CHOICE, log 119); the
number bounds the pieces. -/
def replyPieces : Nat → List Byte → List HostOut
  | 0, _ => []
  | n + 1, bs => if bs.length ≤ 1024 then [.reply bs] else .reply (bs.take 1024) :: replyPieces n (bs.drop 1024)

/-- A session takes something over for the host. -/
def Session.take (x : Session) (o : HostOut) : Session :=
  let os := match o with
    | .reply bs => if x.features.getLsbD 2 || decide (bs.length ≤ 1024) then [o] else replyPieces 9 bs
    | _ => [o]
  Session.pump 64 { x with waiting := x.waiting ++ os }

/-- What is new for the host goes to the sessions: an answer to the session that asked, an EVENT to every one (R427, R428; DESIGN CHOICE,
log 119). -/
def State.passOut (s : State) (asker : Option Nat) : State :=
  let fresh := (s.hostOut.drop s.hostSeen).filter (fun o => !isReport o)
  let give (n : Nat) (x : Session) : Session := (fresh.filter (fun o => !isAnswer o || asker == some n)).foldl Session.take x
  { s with sessions := s.sessions.map (fun p => (p.1, p.2.map (give p.1))), hostSeen := s.hostOut.length }

/-- Events that no session has taken over yet. -/
def State.hostTurn (s : State) : Option State := if s.hostSeen < s.hostOut.length then some (s.passOut none) else none

/-- OPEN (R427, R429, R450, R452): the report answers the nonce, the host's answer brings the secret of the session keys, and the accepted features
are fixed. A report is not signed twice over one nonce of a session. FEATURE0 and FEATURE1 show the subset of the session that was opened first
(DESIGN CHOICE, log 119). -/
def execHostOpen (session : Nat) (nonce : BitVec 256) (features : BitVec 128) (s : State) : Out :=
  let recovery := s.phase == .recovery
  if s.phase ≠ .up ∧ ¬ recovery then .next s
  else
    let old := SMap.get none s.sessions session
    let x := old.getD {}
    if x.nonces.contains nonce then .next s
    else
      let mvs := [0, 1, 2, 3].flatMap (fun d => (s.die d).mv)
      let pkg := BitVec.ofNat 6 s.pkg
      let n := x.nonces.length
      let kem := Config.kemKey s.dawns session n
      let sig := Config.attest nonce pkg mvs offered s.version kem
      let first := s.sessions.isEmpty
      let s := s.tell (.attestation nonce pkg mvs offered s.version kem sig recovery)
      let v := features &&& offered
      let secret := Config.kemSecret s.dawns session n
      let x := { x with
        nonces := x.nonces ++ [nonce]
        rxKey := kmac256 secret (Config.kmacText 0) (Config.kmacCustom 0)
        txKey := kmac256 secret (Config.kmacText 1) (Config.kmacCustom 1)
        features := if old.isSome then x.features else v }
      let s := { s with sessions := SMap.set none s.sessions session (some x) }
      if !first then .next s
      else .next { s with features := v, sys := SMap.set 0 (SMap.set 0 s.sys 0x504 (v.setWidth 64)) 0x505 ((v >>> 64).setWidth 64) }

/-- The parts of a host access under a key, or why it is refused (R220, R428). -/
def State.hostParts (s : State) (pa len key : Nat) (write : Bool) : Except AFault (List Part) :=
  if len = 0 ∨ 8192 < len ∨ 8191 < key then .error { cause := 0x02 }
  else (pageParts (BitVec.ofNat 64 pa) len).mapM (fun p => do
    let l ← s.physLeaf p.1 p.2
    let l := { l with key := key }
    match s.permit l (if write then .write else .read) with
    | some f => throw f
    | none =>
      let q := l.pa p.1
      match region q with
      | .decoded st off => if write then throw { cause := 0x24 } else if !s.covered st off p.2 then throw { cause := 0x20, sub := 4 } else pure ()
      | _ => pure ()
      if write && s.pinned .firmware q p.2 then throw { cause := 0x26 }
      pure { pa := q, len := p.2, leaf := l })

/-- Perform an access of the host, or send the cause (R428). -/
def State.hostAccess (s : State) (pa len key : Nat) (write : Bool) (k : State → List Part → State) : State :=
  match s.hostParts pa len key write with
  | .error f => s.tell (.refused f.cause f.sub)
  | .ok ps =>
    match s.engAdmit 0 hostAgent write false ps with
    | .error (.fault cause sub _ _) => s.tell (.refused cause sub)
    | .error (.retry ..) => s.tell (.refused 0x23 0)
    | .error .hold => s
    | .ok s => k s ps

/-- A READ of the host. -/
def State.hostRead (s : State) (pa len key : Nat) : State :=
  s.hostAccess pa len key false (fun s ps => ((s.release hostAgent .pkg).1).tell (.reply (s.readParts ps)))

/-- A WRITE of the host. -/
def State.hostWrite (s : State) (pa key : Nat) (data : List Byte) : State :=
  s.hostAccess pa data.length key true (fun s ps =>
    let sc := (scopeOf ((s.ctx 0 .F).reg 0x210).toNat).getD .core
    let t (qs : List Part) : Touch := { agent := hostAgent, write := true, sync := false, spans := spansOf qs }
    let s := s.hold (t (ps.filter (fun p => !p.leaf.holdable))) none
    let s := s.hold (t (ps.filter (fun p => p.leaf.holdable))) (some sc)
    (((s.writeParts ps data).release hostAgent .pkg).1).tell .ack)

/-- Put bytes into a staging image. -/
def stageBytes (img : List Byte) (off : Nat) (bs : List Byte) : List Byte :=
  img.take off ++ List.replicate (off - img.length) 0 ++ bs ++ img.drop (off + bs.length)

/-- READ (R428); in recovery it is refused (R450). -/
def execHostRead (pa len key : Nat) (s : State) : Out :=
  match s.phase with
  | .up => .next (s.hostRead pa len key)
  | .recovery => .next (s.tell (.refused 0 0))
  | _ => .next s

/-- WRITE (R428); in recovery it goes into the staging image (R450). -/
def execHostWrite (pa key : Nat) (data : List Byte) (s : State) : Out :=
  match s.phase with
  | .up => .next (s.hostWrite pa key data)
  | .recovery => .next (({ s with staging := stageBytes s.staging pa data }).tell .ack)
  | _ => .next s

/-- Restart from the staged image (R450): the package is held in reset until its dawn, which takes the image from there. -/
def State.restart (s : State) : State := if s.phase = .recovery then { s with phase := .reset, sessions := [] } else s

/-- RESTART_REQUEST (R450). -/
def execRestartRequest (s : State) : Out := .next s.restart

/-- Perform one request of a session (R428, R450). -/
def State.perform (s : State) (r : HostReq) : State :=
  let rec_ := s.phase == .recovery
  match r with
  | .read pa len key => if rec_ then s.tell (.refused 0 0) else s.hostRead pa len key
  | .write pa key data =>
    if rec_ then ({ s with staging := stageBytes s.staging pa data }).tell .ack else s.hostWrite pa key data
  | .kick qid index => if rec_ then s.tell (.refused 0 0) else s.kick qid.toNat index.toNat
  | .restart => if rec_ then s.restart else s.tell (.refused 0 0)

/-- Perform the datagrams of a session whose turn has come; `fuel` bounds them (R427). -/
def State.drainSession (session : Nat) : Nat → State → State
  | 0, s => s
  | fuel + 1, s =>
    match SMap.get none s.sessions session with
    | none => s
    | some x =>
      match x.early.find? (fun d => d.seq == x.nextSeq) with
      | none => s
      | some d =>
        let x := { x with nextSeq := x.nextSeq + 1, early := x.early.filter (fun e => e.seq != d.seq) }
        State.drainSession session fuel
          ((({ s with sessions := SMap.set none s.sessions session (some x) }).perform d.req).passOut (some session))

/-- A datagram that uses a feature which its session has not accepted (R429). -/
def Session.lacks (x : Session) (d : Datagram) : Bool :=
  (d.v6 && !x.features.getLsbD 1) || (decide (1500 < d.size) && !x.features.getLsbD 2)

/-- DATAGRAM_RECEIVE (R427): a failed tag is counted; what uses a feature that the session has not accepted is as absent (R429); the
acknowledgements count, and datagrams are performed in sequence order, once each, at most 64 ahead. -/
def execDatagramReceive (d : Datagram) (s : State) : Out :=
  match SMap.get none s.sessions d.session with
  | none => .next s
  | some x =>
    if !d.tagOk then .next { s with badTags := s.badTags + 1 }
    else if x.lacks d then .next s
    else
      let x := x.taken d.ack d.sack
      let put (x : Session) : State := { s with sessions := SMap.set none s.sessions d.session (some x) }
      if 64 ≤ (d.seq - x.nextSeq).toNat ∨ x.early.any (fun e => e.seq == d.seq) then .next (put x)
      else .next (State.drainSession d.session 64 (put { x with early := x.early ++ [d] }))

end Sys2Proof.Machine
end

