-- ==== Sys2Proof/Machine/Collective.lean ====
section
/-! DEFINITION. Collectives (spec 24 R430 to R444). The messages that members exchange are the model's own (log 28): a member announces data, the
puller asks for it segment by segment, and an acknowledgement ends the pull. -/
namespace Sys2Proof.Machine

/-! The tile table and the state area (R430, R432, R433) -/

/-- CTBASE of a die. -/
def State.ctbase (s : State) (d : Nat) : Word := SMap.get 0 (s.die d).sys 0x520
/-- Address of tile-table entry `i` (R430). -/
def State.tileAddr (s : State) (d i : Nat) : Nat := fld (s.ctbase d) 51 12 * 0x1000 + 32 * i
/-- Address of the state of entry `i` (R433). -/
def State.areaAddr (s : State) (d i : Nat) : Nat := fld (SMap.get 0 (s.die d).sys 0x521) 51 12 * 0x1000 + 128 * i
/-- Whether there is an entry `i` (R442 to R444). -/
def State.entryOk (s : State) (d i : Nat) : Bool := fld (s.ctbase d) 51 12 != 0 && decide (i ≤ fld (s.ctbase d) 11 0)

/-- SRC of an entry. -/
def eSrc (e : List Byte) : Nat := leNat (e.take 8)
/-- DST. -/
def eDst (e : List Byte) : Nat := leNat ((e.drop 8).take 8)
/-- CHUNK. -/
def eChunk (e : List Byte) : Nat := leNat ((e.drop 0x18).take 4)
/-- NCH: chunks minus one. -/
def eNch (e : List Byte) : Nat := leNat ((e.drop 0x1C).take 1)
/-- OPS. -/
def eOps (e : List Byte) : Nat := leNat ((e.drop 0x1D).take 1)
/-- TYP. -/
def eTyp (e : List Byte) : Nat := leNat ((e.drop 0x1E).take 1)
/-- KIND: 0 all-reduce, 1 reduce, 2 broadcast, 3 all-to-all. -/
def eKind (e : List Byte) : Nat := kindOf e
/-- The operator and type of a reduction, where R263 accepts the pair. -/
def eRop (e : List Byte) : Option (Rop × STy) :=
  match ropOf (eOps e % 16), styOf (eTyp e % 8) with
  | some op, some t => if ropAccepts op t then some (op, t) else none
  | _, _ => none

/-- A valid entry (R430); READY is looked at before. -/
def entryValid (pkg : Nat) (e : List Byte) : Bool :=
  eOps e / 16 == 0 && eTyp e / 8 % 2 == 0 && eTyp e / 64 % 2 == 0 && leNat ((e.drop 0x1F).take 1) == 0 &&
    eSrc e % 64 == 0 && eDst e % 64 == 0 && (membersOf e).contains pkg &&
    eChunk e % 512 == 0 && decide (512 ≤ eChunk e) && decide (eChunk e ≤ 1048576) &&
    (if eKind e ≤ 1 then (eRop e).isSome else eOps e == 0 && eTyp e % 8 == 0)

/-- A place where the engine can write: no absent address, decoded aperture or core SRAM (R442). -/
def State.placeOk (s : State) (pa n : Nat) : Bool :=
  match region pa, region (pa + n - 1) with
  | .hbm a, .hbm b => a == b
  | .tier2 _, .tier2 _ => !s.featureOff 4
  | .window _ _ _, .window _ _ _ => true
  | _, _ => false

/-- The check of R442 on entry `i` and its state. -/
def State.placesOk (s : State) (d i : Nat) : Bool := s.placeOk (s.tileAddr d i) 32 && s.placeOk (s.areaAddr d i) 128

/-- The firing of entry `i` as an agent: firings of different entries run side by side in the engine (R230, R234). -/
def collAgent (d i : Nat) : Agent := .coll d (512 + i)

/-- A synchronising access of the engine to its tables. -/
def tableTouch (d i : Nat) (write : Bool) (a n : Nat) : Touch := { agent := collAgent d i, write := write, sync := true, spans := [(a, n)] }

/-- An access of the engine to the tile table or to the state of an entry in the course of a step that has begun: recorded, or refused for good and
reported, and then the firing aborts (R239, R347, R439). A held line no longer holds it back (log 37). -/
def State.areaTouch (s : State) (d i : Nat) (write : Bool) (a n : Nat) : State × Bool :=
  let t := tableTouch d i write a n
  let bad (s : State) (cause sub x : Nat) (o : Word) : State × Bool :=
    let s := s.report (80 * d) { cause := cause, sub := sub, src := 3, val := BitVec.ofNat 64 x, other := o }
    (s.modFirings d (fun f => if f.entry = i ∧ ¬ f.isOver then { f with fail := f.fail.orElse (fun _ => some 4) } else f), false)
  if write && s.pinned .area a n then bad s 0x22 0 (a / 64 * 64) 0
  else match s.ask t (physParts a n) with
    | .granted s => (s, true)
    | .refused _ _ => (s.record t, true)
    | .fault cause sub x o => bad s cause sub x o

/-- The engine writes bytes of its tables; a write that is refused is not made. READY, which no store sets, is written so (R430). -/
def State.tablePut (s : State) (d i a : Nat) (bs : List Byte) : State :=
  let (s, ok) := s.areaTouch d i true a bs.length
  if ok then (s.clearBad a bs.length).writeKey 0 a bs else s

/-- The engine writes bytes of the state of an entry (R433). -/
def State.areaPut (s : State) (d i off : Nat) (bs : List Byte) : State := s.tablePut d i (s.areaAddr d i + off) bs

/-- READY of entry `i` (R430, R442). -/
def State.putReady (s : State) (d i : Nat) (on : Bool) : State :=
  let a := s.tileAddr d i + 0x1E
  s.tablePut d i a ((s.readPhys 0 a 1).map (fun b => if on then b ||| 0x80 else b &&& 0x7F))

/-- What the accesses of a step to the state area and READY come to, before it begins: the area is read, and may be written (R245, R433). -/
def State.areaReady (s : State) (d i : Nat) : Except WErr State := do
  let a := s.areaAddr d i
  let s ← s.engAdmit (collCore d) (collAgent d i) false true (physParts a 128)
  let _ ← s.engAdmit (collCore d) (collAgent d i) true true (physParts a 128 ++ physParts (s.tileAddr d i + 0x1E) 1)
  pure s

/-- The status word (R433). -/
def State.status (s : State) (d i : Nat) : Nat := leNat (s.readPhys 0 (s.areaAddr d i) 8)

/-- Change a field of the status word: bits `lo` to `lo + n - 1` take `v`. -/
def State.setStatus (s : State) (d i lo n v : Nat) : State :=
  s.areaPut d i 0 (leBytes 8 (mergeBits (s.status d i) ((2 ^ n - 1) * 2 ^ lo) (v % 2 ^ n * 2 ^ lo)))

/-- A bookmark as it stands in the state area (R433). -/
def State.bookmark (s : State) (d i c : Nat) : Nat := leNat (s.readPhys 0 (s.areaAddr d i + 0x40 + c / 4) 1) / 4 ^ (c % 4) % 4

/-- The bookmark of chunk `c` of a firing; every bookmark of a firing that has ended COMPLETE is 3. -/
def State.bm (s : State) (d : Nat) (f : Firing) (c : Nat) : Nat := if f.isOver then 3 else s.bookmark d f.entry c

/-- Set a bookmark. -/
def State.setBm (s : State) (d : Nat) (f : Firing) (c v : Nat) : State :=
  if f.isOver then s
  else
    let off := 0x40 + c / 4
    let old := leNat (s.readPhys 0 (s.areaAddr d f.entry + off) 1)
    s.areaPut d f.entry off (leBytes 1 (mergeBits old (3 * 4 ^ (c % 4)) (v * 4 ^ (c % 4))))

/-- The running firing of entry `i` (R430). -/
def State.firing? (s : State) (d i : Nat) : Option Firing := (s.die d).firings.find? (fun f => f.entry == i && !f.isOver)
/-- The firing with this entry and FIRE. -/
def State.firingOf (s : State) (d i n : Nat) : Option Firing := (s.die d).firings.find? (fun f => f.entry == i && f.fire == n)
/-- The same firing as it stands now. -/
def State.again (s : State) (d : Nat) (f : Firing) : Firing := (s.firingOf d f.entry f.fire).getD f

/-- KIND. -/
def Firing.kind (f : Firing) : Nat := eKind f.image
/-- Its bookmarks: chunks, or ranks of KIND 3 (R438). -/
def Firing.marks (f : Firing) : Nat := if f.kind = 3 then f.members.length else eNch f.image + 1
/-- Every bookmark is 3. -/
def State.allDone (s : State) (d : Nat) (f : Firing) : Bool := (List.range f.marks).all (fun c => s.bm d f c == 3)


/-! Spines (R434) -/

/-- A direct link between two members: package and link at one end, package and link at the other. -/
structure Edge where
  u : Nat
  l : Nat
  v : Nat
  m : Nat
  deriving DecidableEq, Repr

/-- The direct links that the rows of both ends show up, one edge a link, from its lower end. -/
def State.edges (s : State) (ps : List Nat) : List Edge :=
  ps.flatMap (fun u => (List.range 16).filterMap (fun l =>
    let w := (s.rowOf u).getD l 0
    let v := linkPeer w
    let x := (s.rowOf v).getD (linkPlink w) 0
    if linkKind w = 1 ∧ u < v ∧ ps.contains v ∧ linkKind x = 1 ∧ linkPeer x = u ∧ linkPlink x = l then
      some { u := u, l := l, v := v, m := linkPlink w }
    else none))

/-- The link of an edge at its end `u`, if it joins `u` to `v`. -/
def Edge.at (e : Edge) (u v : Nat) : Option Nat :=
  if e.u = u ∧ e.v = v then some e.l else if e.v = u ∧ e.u = v then some e.m else none

/-- The edge from `u` to `v` with the lowest link id at `u`. -/
def lowestEdge (es : List Edge) (u v : Nat) : Option Edge :=
  es.foldl (fun best e =>
    match e.at u v with
    | none => best
    | some l => match best with
      | none => some e
      | some b => if l < (b.at u v).getD 16 then some e else best) none

/-- The depth-first search of R434: marked packages, and tree edges as parent, child and link. -/
def dfs (ps : List Nat) (es : List Edge) : Nat → Nat → List Nat × List (Nat × Nat × Edge) → List Nat × List (Nat × Nat × Edge)
  | 0, _, acc => acc
  | fuel + 1, u, acc =>
    ps.foldl (fun acc v =>
      if acc.1.contains v then acc
      else match lowestEdge es u v with
        | none => acc
        | some e => dfs ps es fuel v (v :: acc.1, acc.2 ++ [(u, v, e)])) acc

/-- Up to `n` edge-disjoint spanning trees. -/
def spinesFrom (ps : List Nat) (r : Nat) : Nat → List Edge → List Spine
  | 0, _ => []
  | n + 1, es =>
    let (seen, tree) := dfs ps es ps.length r ([r], [])
    if ps.all (fun p => seen.contains p) then
      { edges := tree.map (fun t => (t.1, t.2.1)) } :: spinesFrom ps r n (es.filter (fun e => !tree.any (fun t => t.2.2 == e)))
    else []

/-- The spines of a member set (R434): trees, else the chain over pod switches, else none. -/
def State.buildSpines (s : State) (ps : List Nat) : List Spine :=
  let trees := spinesFrom ps (ps.headD 0) 4 (s.edges ps)
  if !trees.isEmpty then trees
  else if ps.all (fun p => ps.all (fun q => s.hasRoute p q)) then [{ edges := ps.zip (ps.drop 1), chain := true }]
  else []

/-- The spine of a chunk: c mod S (R435). -/
def Firing.spine (f : Firing) (c : Nat) : Spine := f.spines.getD (c % Nat.max 1 f.spines.length) { edges := [] }
/-- Children of a member on the chunk's spine, ascending. -/
def Firing.kids (f : Firing) (c p : Nat) : List Nat :=
  f.members.filter (fun q => (f.spine c).edges.contains (p, q))
/-- Parent of a member on the chunk's spine. -/
def Firing.parent (f : Firing) (c p : Nat) : Option Nat := ((f.spine c).edges.find? (fun e => e.2 == p)).map (·.1)

/-! Ends and aborts (R436, R439) -/

/-- A queue that waited for this firing goes on, or fails (R440). -/
def State.endPacket (s : State) (d : Nat) (f : Firing) (ok : Bool) : State :=
  match f.qsb with
  | none => s
  | some q =>
    if !ok then s.queueFail d q 0x50 0 f.entry
    else
      match (List.range (s.die d).queues.length).find? (fun i =>
        ((s.die d).queues[i]?).any (fun (x : QSlot) => x.qsb == q && x.hold == QWait.coll f.entry)) with
      | some i => s.advance { die := d, slot := i, qsb := q, rd := s.qField q 0x18 8, bs := [] } 1
      | none => s

/-- The record of a firing goes. -/
def State.dropFiring (s : State) (d : Nat) (f : Firing) : State :=
  s.modDie d (fun x => { x with firings := x.firings.filter (fun g => g.entry != f.entry || g.fire != f.fire) })

/-- A firing ends at this member: COMPLETE, or ABORTED with a subcause (R433, R436, R439). READY is cleared, the pins go, and
the end is a release at pod scope. One that has ended COMPLETE serves the members that have not. -/
def State.endFiring (s : State) (d : Nat) (f : Firing) (sub : Nat) : State :=
  let ok := sub == 0
  let s := (s.setStatus d f.entry 62 2 (if ok then 2 else 3)).setStatus d f.entry 48 4 sub
  let ccnt := (SMap.get 0 (s.die d).sys 0x523).toNat
  let ccnt := if ok then ccnt / 2 ^ 32 * 2 ^ 32 + (ccnt + 1) % 2 ^ 32 else (ccnt + 2 ^ 32) % 2 ^ 64
  let s := s.modDie d (fun x => { x with sys := SMap.set 0 x.sys 0x523 (BitVec.ofNat 64 ccnt) })
  let s := s.putReady d f.entry false
  let s := s.lowerFlight (f.core.getD (collCore d)) f.src
  let (s, clk) := s.release (collAgent d f.entry) .pod
  let s := s.addRelease (s.areaAddr d f.entry) 8 (collAgent d f.entry) .pod clk
  let s := match f.core with
    | some c => if ok then s.modCore c (fun k => { k with pulses := k.pulses ++ [(7, Path.coll, clk)] }) else s
    | none => s
  let s := if ok then s else s.report (collCore d) { cause := 0x50, src := 3, val := BitVec.ofNat 64 f.entry }
  let s := s.endPacket d f ok
  if ok then
    let s := s.collTell d f (.collEnd f.entry f.fire)
    if (f.members.filter (· != s.pkg)).all (fun p => f.ended.contains p) then s.dropFiring d f
    else s.modFiring d f (fun g => { g with isOver := true, slots := [], landed := [], fail := none })
  else s.dropFiring d f

/-- Nothing of a firing is in progress: no pull of its own, none of its data, and no chunk that has landed (R439). -/
def Firing.quiet (f : Firing) : Bool :=
  f.sources.isEmpty && f.landed.isEmpty && f.serving.isEmpty && !f.slots.any (fun x => x.use == .land)

/-- An aborted firing ends when what was in progress has completed: COMPLETE if every bookmark is 3 (R439). -/
def State.finishAbort (s : State) (d : Nat) (f : Firing) : State :=
  let f := s.again d f
  match f.aborting with
  | some sub => if f.quiet && !f.isOver then s.endFiring d f (if s.allDone d f then 0 else sub) else s
  | none => s

/-- The abort takes effect at this member (R439): no transfer begins, partials are discarded, and what is in progress completes. A second one, after
an access of what was in progress has failed, drops that. -/
def State.takeAbort (s : State) (d : Nat) (f : Firing) (sub : Nat) : State :=
  let f := s.again d f
  if f.isOver then s.dropFiring d f
  else if f.aborting.isSome then
    (s.modFiring d f (fun g => { g with slots := [], asking := [], got := [], landed := [], serving := [], fail := none })).finishAbort d f
  else
    (s.modFiring d f (fun g => { g with
      aborting := some sub, fail := none
      slots := g.slots.filter (fun x => match x.use with
        | .acc _ | .whole => false
        | .part => g.serving.any (fun y => y.1 == x.chunk && !y.2.2)
        | _ => true) })).finishAbort d f

/-- An abort arises at this member and is sent to every other one (R439). -/
def State.abortFiring (s : State) (d : Nat) (f : Firing) (sub : Nat) : State :=
  (if (s.again d f).aborting.isSome then s else s.collTell d f (.collAbort f.entry f.fire sub)).takeAbort d f sub

/-! Accesses of the engine (R239, R245, R431, R435) -/

/-- What an access of the engine comes to: a fault goes to the firmware of core 80d and aborts the firing; an access that a
held line refuses is made again, for at most 2^20 cycles. -/
def State.collTry {α : Type} (s : State) (d : Nat) (f : Firing) (r : Except WErr α) (k : α → State) : State :=
  match r with
  | .ok x => k x
  | .error (.fault cause sub a o) =>
    (s.report (collCore d) { cause := cause, sub := sub, src := 3, val := BitVec.ofNat 64 a, other := o }).abortFiring d f 4
  | .error (.retry t l o) =>
    let since := s.refusedAt t.agent l
    if since + 2 ^ 20 ≤ s.gtc then
      (s.report (collCore d) { cause := 0x23, src := 3, val := BitVec.ofNat 64 (64 * l), other := o }).abortFiring d f 4
    else (s.refuse t l since).modFiring d f (fun g => { g with refused := some since })
  | .error .hold => s

/-- The translated parts of `n` bytes at a virtual address of the firing. -/
def Firing.span (f : Firing) (va n : Nat) : Except WErr (List Part) :=
  (pageParts (BitVec.ofNat 64 (va % 2 ^ 56)) n).mapM (fun p =>
    match f.pages.find? (fun l => decide (l.va ≤ p.1.toNat) && decide (p.1.toNat < l.va + l.size)) with
    | some l => .ok { pa := l.frame + (p.1.toNat - l.va), len := p.2, leaf := l }
    | none => .error (.fault 0x20 2 p.1.toNat 0))

/-- Read `n` bytes at a virtual address on the collective path. -/
def State.collRead (s : State) (d : Nat) (f : Firing) (va n : Nat) : Except WErr (State × List Byte) := do
  let ps ← f.span va n
  let r ← s.engRead (collCore d) (collAgent d f.entry) ps
  pure (r.1.modFiring d f (fun g => { g with refused := none }), r.2)

/-- Write bytes at a virtual address on the collective path. -/
def State.collWrite (s : State) (d : Nat) (f : Firing) (va : Nat) (bs : List Byte) : Except WErr State := do
  let ps ← f.span va bs.length
  let s ← s.engWrite (collCore d) (collAgent d f.entry) .pkg false ps bs
  pure (s.modFiring d f (fun g => { g with refused := none }))

/-- A step of a firing, whose accesses to the state area and READY are admitted first (R237, R239, R245). -/
def State.areaStep (s : State) (d : Nat) (f : Firing) (k : State → State) : State :=
  s.collTry d f (s.areaReady d f.entry) (fun s => k (s.modFiring d f (fun g => { g with refused := none })))

/-- Bytes `off` to `off + n` of input chunk `c` (R431). -/
def State.inputBytes (s : State) (d : Nat) (f : Firing) (c off n : Nat) : Except WErr (State × List Byte) :=
  s.collRead d f (eSrc f.image + c * eChunk f.image + off) n
/-- Input chunk `c` (R431). -/
def State.inputChunk (s : State) (d : Nat) (f : Firing) (c : Nat) : Except WErr (State × List Byte) := s.inputBytes d f c 0 (eChunk f.image)
/-- Write result chunk `c` (R431). -/
def State.resultChunk (s : State) (d : Nat) (f : Firing) (c : Nat) (bs : List Byte) : Except WErr State :=
  s.collWrite d f (eDst f.image + c * eChunk f.image) bs

/-- combine(x, y) of R435, element by element; the number counts elements. -/
def combineBytes (op : Rop) (t : STy) : Nat → List Byte → List Byte → List Byte
  | 0, _, _ => []
  | k + 1, x, y =>
    let n := styBytes t
    leBytes n (ropApply op t (leNat (x.take n)) (leNat (y.take n))) ++ combineBytes op t k (x.drop n) (y.drop n)

/-- combine on whole chunks of an entry. -/
def combine (e : List Byte) (x y : List Byte) : List Byte :=
  match eRop e with
  | some (op, t) => combineBytes op t (x.length / styBytes t) x y
  | none => x

/-! CWORK (R433) -/

/-- Places of CHUNK bytes that a firing may use in CWORK at one time (R433). -/
def Firing.budget (f : Firing) : Nat := 2 * f.spines.length
/-- First address and bytes of the work area. -/
def State.cwork (s : State) (d : Nat) : Nat × Nat :=
  let w := SMap.get 0 (s.die d).sys 0x522
  (fld w 51 20 * 2 ^ 20, fld w 7 0 * 2 ^ 20)
/-- Address of a place of a firing. -/
def Firing.placeAt (f : Firing) (idx : Nat) : Nat := f.cbase + idx * eChunk f.image
/-- Bytes of CWORK from `cbase` that a firing takes while it uses any. -/
def Firing.room (f : Firing) : Nat := f.budget * eChunk f.image

/-- Where the places of a firing can begin: the lowest free stretch of the work area that holds them all (log 120). -/
def State.freeWork (s : State) (d : Nat) (f : Firing) : Option Nat :=
  let (lo, n) := s.cwork d
  let others := (s.die d).firings.filter (fun g => !g.slots.isEmpty && (g.entry != f.entry || g.fire != f.fire))
  let ok (a : Nat) : Bool := decide (lo ≤ a) && decide (a + f.room ≤ lo + n) && !others.any (fun g => overlap g.cbase g.room a f.room)
  lowest ((lo :: others.map (fun g => g.cbase + g.room)).filter ok)

/-- The places that chunk `c` still needs at once to finish here, of this member's own (R435, R436): two to combine three or more partials, one to
combine two or to land the final chunk. -/
def State.need (s : State) (d : Nat) (f : Firing) (c : Nat) : Nat :=
  let kids := f.kids c s.pkg
  let root := rootOf f.image == s.pkg
  match s.bm d f c with
  | 0 => if f.kind < 2 ∧ ¬ kids.isEmpty then Nat.min 2 kids.length else if f.kind = 1 ∨ root then 0 else 1
  | 3 => 0
  | _ => if f.kind = 1 ∨ root then 0 else 1

/-- The chunks can finish one after the other in ascending order, with `free` places left: no chunk waits for a later one. -/
def canFinish (free : Nat) : List (Nat × Nat) → Bool
  | [] => true
  | (held, need) :: cs => decide (need ≤ free + held) && canFinish (free + held) cs

/-- Chunk `c` may take one place more (R433; log 120). -/
def State.mayTake (s : State) (d : Nat) (f : Firing) (c : Nat) : Bool :=
  let held (x : Nat) : Nat := (f.slots.filter (fun y => y.chunk == x)).length + (if x = c then 1 else 0)
  let used := f.slots.length + 1
  decide (used ≤ f.budget) && canFinish (f.budget - used) ((List.range f.marks).map (fun x => (held x, s.need d f x)))

/-- Take a place for chunk `c`; `none`: it waits for space (R433). What the engine did there before comes first. -/
def State.takePlace (s : State) (d : Nat) (f : Firing) (c : Nat) (use : CUse) : Option State :=
  if !s.mayTake d f c then none
  else match (if f.slots.isEmpty then s.freeWork d f else some f.cbase) with
    | none => none
    | some base =>
      let idx := ((List.range f.budget).find? (fun i => !f.slots.any (fun x => x.idx == i))).getD 0
      let f' := { f with cbase := base }
      let old (x : Access) : Bool := overlap x.lo x.len (f'.placeAt idx) (eChunk f.image) && (match x.agent with
        | .coll _ _ => true
        | _ => false)
      some (({ s with order := { s.order with accesses := s.order.accesses.filter (fun x => !old x) } } : State).modFiring d f (fun g =>
        { g with cbase := base, slots := g.slots ++ [{ chunk := c, idx := idx, use := use }] }))

/-- The place of a chunk with a use. -/
def Firing.slot? (f : Firing) (c : Nat) (u : CUse → Bool) : Option CSlot := f.slots.find? (fun x => x.chunk == c && u x.use)
/-- Change the use of a place. -/
def State.setUse (s : State) (d : Nat) (f : Firing) (x : CSlot) (u : CUse) : State :=
  s.modFiring d f (fun g => { g with slots := g.slots.map (fun y => if y.idx = x.idx then { y with use := u } else y) })
/-- Give a place back. -/
def State.freePlace (s : State) (d : Nat) (f : Firing) (x : CSlot) : State :=
  s.modFiring d f (fun g => { g with slots := g.slots.filter (fun y => y.idx != x.idx) })

/-- Read `n` bytes of a place (R433). -/
def State.workRead (s : State) (d : Nat) (f : Firing) (x : CSlot) (off n : Nat) : Except WErr (State × List Byte) := do
  let r ← s.engRead (collCore d) (collAgent d f.entry) (physParts (f.placeAt x.idx + off) n)
  pure (r.1.modFiring d f (fun g => { g with refused := none }), r.2)

/-- Write bytes of a place (R433). The work area is memory (R442 asks the same of the tables). -/
def State.workWrite (s : State) (d : Nat) (f : Firing) (x : CSlot) (off : Nat) (bs : List Byte) : Except WErr State := do
  let a := f.placeAt x.idx + off
  if !s.placeOk a bs.length then throw (.fault 0x20 4 a 0)
  let s ← s.engWrite (collCore d) (collAgent d f.entry) .pkg false (physParts a bs.length) bs
  pure (s.modFiring d f (fun g => { g with refused := none }))

/-! Pulls (R435 to R438) -/

/-- No pull and no combination of the firing begins: a recomputation is under way, or an abort (R437 step 1, R439). -/
def Firing.stopped (f : Firing) : Bool := f.aborting.isSome || (f.kind != 3 && (f.recomp || decide (f.build ≤ f.halt)))

/-- Announce final data of chunk `c` to this member's children. -/
def State.serve (s : State) (d : Nat) (f : Firing) (c : Nat) : State :=
  (f.kids c s.pkg).foldl (fun s p => s.collSend d f p (.chunkReady f.entry f.fire f.build c true)) s

/-- Start a pull of announced data (R435, R436); without a route it ends refused (R422). -/
def State.collAsk (s : State) (d : Nat) (f : Firing) (c p : Nat) (final : Bool) : State :=
  let f := s.again d f
  let busy := f.slots.any (fun x => x.chunk == c && (match x.use with
    | .pull _ _ _ => true
    | _ => false))
  if !f.peerReady.contains (c, p, final) || busy || f.stopped then s
  else if (s.routeLink p).isNone then s.pullsRefused d f p 1
  else match s.takePlace d f c (.pull p final 0) with
    | none => s
    | some s => (s.modFiring d f (fun g => { g with peerReady := g.peerReady.filter (· != (c, p, final)) })).collSend d f p
        (.chunkReq f.entry f.fire f.build c final 0)

/-! New spines (R434, R437) -/

/-- What new spines do to one chunk of this member. -/
def State.fateOf (s : State) (d : Nat) (f : Firing) (c : Nat) (x : ChunkFate) : State :=
  let drop (s : State) : State := s.modFiring d f (fun g => { g with slots := g.slots.filter (fun y => y.chunk != c) })
  match x with
  | .finished => s
  | .broadcast => if rootOf f.image = s.pkg then (drop s).setBm d f c 2 else drop s
  | .restart => (drop s).setBm d f c 0

/-- What members that have not ended may still pull when a firing ends COMPLETE: the final chunks, since new spines may make this member a parent, and
the bytes of KIND 3 that a member has not taken (R436, R437; log 28). -/
def State.keepServed (s : State) (d : Nat) (f : Firing) : Except WErr (State × List (Nat × List Byte)) :=
  let hdr := (f.headers.find? (fun h => h.1 == s.pkg)).elim [] (·.2)
  let cnt (m : Nat) : Nat := leNat ((hdr.drop (8 * m)).take 8)
  let wanted : List (Nat × Nat × Nat) :=
    if f.kind = 3 then
      ((List.range f.members.length).filter (fun m => f.members.getD m 0 != s.pkg && !f.acked.contains (m, f.members.getD m 0))).map (fun m =>
        (m, eSrc f.image + 512 + (List.range m).foldl (fun n k => n + cnt k) 0, cnt m))
    else if f.kind = 1 then []
    else (List.range f.marks).map (fun c => (c, eDst f.image + c * eChunk f.image, eChunk f.image))
  let wanted := if (f.members.filter (· != s.pkg)).all (fun p => f.ended.contains p) then [] else wanted
  wanted.foldlM (fun (acc : State × List (Nat × List Byte)) w => do
    let r ← acc.1.collRead d f w.2.1 w.2.2
    pure (r.1, acc.2 ++ [(w.1, r.2)])) (s, [])

/-- End a firing whose bookmarks are all 3. -/
def State.settleFiring (s : State) (d : Nat) (f : Firing) : State :=
  let f := s.again d f
  if f.isOver || f.aborting.isSome || !s.allDone d f then s
  else s.collTry d f (s.keepServed d f) (fun r =>
    let s := r.1.modFiring d f (fun g => { g with served := r.2 })
    s.endFiring d (s.again d f) 0)

/-- This member holds new spines (R434, R437): NSP, LTGEN, the chunks' fates, and after the first time NREC and cause 0x51. A
need for CWORK above the whole area aborts (R439). -/
def State.applySpines (s : State) (d : Nat) (f : Firing) (build ltgen : Nat) (sp : List Spine) (fates : List ChunkFate) : State :=
  let first := f.build == 0
  let s := s.modFiring d f (fun g => { g with
    spines := sp, ready := true, build := build, recomp := !first, peerReady := [], acked := [], serving := [] })
  let s := ((List.range fates.length).zip fates).foldl (fun s x => s.fateOf d f x.1 x.2) s
  let s := if f.isOver then s
    else
      let s := (s.setStatus d f.entry 52 4 sp.length).areaPut d f.entry 8 (leBytes 8 ltgen)
      if first then s else s.setStatus d f.entry 32 16 (s.status d f.entry / 2 ^ 32 % 2 ^ 16 + 1)
  let s := if first then s
    else s.report (collCore d) { cause := 0x51, src := 3, val := BitVec.ofNat 64 (f.entry + sp.length * 2 ^ 16) }
  if !f.isOver && decide ((s.cwork d).2 < 2 * sp.length * eChunk f.image) then s.abortFiring d (s.again d f) 3
  else s.settleFiring d f

/-- What the root decides for chunk `c` (R437). -/
def State.fateFor (s : State) (d : Nat) (f : Firing) (c : Nat) : ChunkFate :=
  let b := s.bm d f c
  if f.kind = 1 then (if b = 3 then .finished else .restart) else if 2 ≤ b then .broadcast else .restart

/-- The root builds the spines and sends them (R434). -/
def State.build (s : State) (d : Nat) (f : Firing) : State :=
  let sp := s.buildSpines f.members
  if sp.isEmpty then s.abortFiring d f 2
  else
    let fates := (List.range (eNch f.image + 1)).map (s.fateFor d f)
    let ltgen := (SMap.get 0 s.sys 0x501).toNat
    let s := s.collTell d f (.spines f.entry f.fire (f.build + 1) ltgen sp fates)
    s.applySpines d f (f.build + 1) ltgen sp fates

/-- A pull or a result write of the firing is in progress (R437 step 1). -/
def Firing.busy (f : Firing) : Bool := !f.sources.isEmpty || !f.serving.isEmpty || f.slots.any (fun x => x.use == .land)

/-- The firing of entry `i` for which the root of this package recomputes now: one change at a time, when its own pulls have ended (R437). -/
def State.recomputing (s : State) (d i : Nat) : Option Firing :=
  (s.die d).firings.find? (fun f => f.entry == i && f.again != 0 && !f.recomp && !f.busy && f.aborting.isNone && rootOf f.image == s.pkg)

/-- COLL_RECOMPUTE (R437): a second change waits for the recomputation that is under way. -/
def execCollRecompute (d i : Nat) (s : State) : Out :=
  match s.recomputing d i with
  | some f => .next ((s.modFiring d f (fun g => { g with again := g.again - 1 })).build d { f with again := f.again - 1 })
  | none => .next s

/-- Whether the report 0x51 of an entry has still to be taken. -/
def State.reportHeld (s : State) (d i : Nat) : Bool :=
  (s.core (collCore d)).reports.any (fun r => r.cause == 0x51 && r.val.toNat % 4096 == i)

/-- After new spines a member announces what it has to its new neighbours (R437). -/
def State.announceChunks (s : State) (d : Nat) (f : Firing) : State :=
  (List.range (eNch f.image + 1)).foldl (fun s c =>
    let b := s.bm d f c
    if f.kind = 1 || b < 2 then s
    else
      let s := s.serve d f c
      match f.parent c s.pkg with
      | some p => if b = 3 then s.collSend d f p (.chunkAck f.entry f.fire f.build c true) else s
      | none => s) s

/-- COLL_RESUME (R437): the member holds the new spines and its own report has been taken. A change that came meanwhile is next. -/
def execCollResume (d i : Nat) (s : State) : Out :=
  match (s.die d).firings.find? (fun f => f.entry == i && f.recomp) with
  | some f =>
    if s.reportHeld d i then .next s
    else
      let s := s.modFiring d f (fun g => { g with recomp := false })
      let s := if f.kind = 3 ∨ f.aborting.isSome then s else s.announceChunks d f
      .next (s.stopFiring d (s.again d f))
  | none => .next s

/-! Firing (R442) -/

/-- The checks of the DST range, page by page (R442). -/
def State.dstPages (s : State) (c : Nat) (asp : Option Word) (w : Writer) : List (Word × Nat) → Except AFault (State × List Leaf)
  | [] => .ok (s, [])
  | (va, n) :: ps => do
    let at_ (f : AFault) : AFault := { f with val := some va.toNat }
    let (s, l) ← (s.xlat c asp va .write).mapError at_
    let pa := l.pa va
    match region pa with
    | .decoded _ _ => throw (at_ { cause := 0x24 })
    | _ => pure ()
    if s.pinned w pa n then throw (at_ { cause := 0x26 })
    let (s, ls) ← State.dstPages s c asp w ps
    pure (s, l :: ls)

/-- The translation checks of a valid entry: pages of SRC, and of SRC and DST. -/
def State.firingPages (s : State) (c : Nat) (asp : Option Word) (w : Writer) (e : List Byte) :
    Except AFault (State × List Leaf × List Leaf) := do
  let n := (eNch e + 1) * eChunk e
  let (s, ps) ← s.xlatParts c asp .read (pageParts (BitVec.ofNat 64 (eSrc e)) n)
  let (s, ls) ← s.dstPages c asp w (pageParts (BitVec.ofNat 64 (eDst e)) n)
  let src := (ps.map (·.leaf)).eraseDups
  pure (s, src, (ls ++ src).eraseDups)

/-- Entry and FIRE of a collective message. -/
def collKey : Body → Option (Nat × Nat)
  | .spines x y .. | .chunkReady x y .. | .chunkReq x y .. | .chunkData x y .. | .chunkAck x y .. | .chunkRefuse x y ..
  | .collAgain x y .. | .collStop x y .. | .collEnd x y | .headerReq x y | .header x y _ | .rankReq x y _ | .rankData x y _ _
  | .collAbort x y _ => some (x, y)
  | _ => none

/-- Fire a checked entry (R442): READY, FIRE, STATE, bookmarks; the engine's start acquires the firing's release. Messages that
were held for this firing come in, and the root builds the spines. -/
def State.fire (s : State) (d i : Nat) (e : List Byte) (a : Agent) (core qsb : Option Nat) (src pages : List Leaf)
    (group : BitVec 16) (gen : BitVec 8) (asp : Option Word) : State :=
  let (s, k) := s.release a .pod
  let s := (s.acquire (collAgent d i) k).putReady d i true
  let n := (s.status d i + 1) % 2 ^ 32
  let s := s.raiseFlight (core.getD (collCore d)) src
  let f : Firing := { entry := i, fire := n, image := e, core := core, qsb := qsb, group := group, gen := gen, pages := pages,
                      src := src, asp := asp }
  let s := s.modDie d (fun x => { x with firings := x.firings ++ [f] })
  let s := ((s.areaPut d i 0 (leBytes 8 (2 ^ 62 + n))).areaPut d i 0x10 (leBytes 48 0)).areaPut d i 0x40 (leBytes 64 0)
  let mine (m : Packet) : Bool := collKey m.body == some (i, n)
  let held := (s.die d).heldMsgs
  let s := s.modDie d (fun x => { x with heldMsgs := held.filter (fun m => !mine m) })
  let s := { s with net := s.net ++ held.filter mine }
  if f.kind ≠ 3 ∧ rootOf e = s.pkg then s.build d f else s

/-- TREADY (R442). Its read of the entry is a synchronising access of the core path, as TREADY is a release: the engine's own writes of
READY do not conflict with the firing that they are made for (DEDUCED, log 122). -/
def execTready (h : Hdr) (d a : GReg) (s : State) : Out :=
  issue h .stor [s.gT a] [s.gT d] (fun s =>
    let c := s.cur.core
    let r := s.cur.role
    let die := dieOf c
    let i := (s.g a).toNat
    if !s.entryOk die i || !s.placesOk die i then .trap 0x02 0 0 0
    else s.grant false true [(s.tileAddr die i, 32)] id (fun s =>
      let e := s.readPhys 0 (s.tileAddr die i) 32
      if eTyp e / 128 = 1 then .done (s.putG d 1 none)
      else if !entryValid s.pkg e then .trap 0x02 0 0 0
      else match s.firingPages c (s.aspaceOf c r) (if r = .F then .firmware else .trio) e with
        | .error f => Res.of f 0
        | .ok (s, src, pages) =>
          let (g, gen) := s.groupOf c
          .done ((s.fire die i e s.me (some c) none src pages g gen (s.aspaceOf c r)).putG d 0 none))) s

/-- COLL_PACKET (R440): it waits while the entry runs; then the image is written, checked and fired by the queue processor. The write is a
synchronising access, as TREADY's read is (DEDUCED, log 122). -/
def execCollPacket (d i : Nat) (s : State) : Out :=
  .next (s.parse d i (· == 2) 8 1 (fun s p =>
    s.qpLoad p false (pageParts p.arg 64) (fun s _ bs =>
      let e := bs.take 32
      let x := leNat ((bs.drop 0x20).take 2)
      let flags := leNat ((bs.drop 0x25).take 1)
      let bad (s : State) : State := s.packetFail p 0x02 0 p.rd
      if flags / 2 ≠ 0 ∨ leNat (bs.drop 0x26) ≠ 0 ∨ eTyp e / 128 = 1 ∨ ¬ s.entryOk d x ∨ ¬ s.placesOk d x then bad s
      else if (s.firing? d x).isSome then s
      else s.qpAdmit p true true (physParts (s.tileAddr d x) 32) (fun s =>
        let s := s.writePhys 0 (s.tileAddr d x) e
        if !entryValid s.pkg e then bad s
        else match s.firingPages (qpCore d) (some (s.qAspace p.qsb)) .trio e with
          | .error f => s.packetFail p f.cause f.sub (f.val.getD 0)
          | .ok (s, src, pages) =>
            let s := if flags = 1 then s.holdAt p (.coll x) else s.advance p 1
            s.fire d x e (.qp d) none (some p.qsb) src pages
              (BitVec.ofNat 16 (leNat ((bs.drop 0x22).take 2))) (BitVec.ofNat 8 (leNat ((bs.drop 0x24).take 1))) (some (s.qAspace p.qsb))))))

/-- The acquire of a CSTAT that reads an ended state (R443). -/
def State.cstatAcquire (s : State) (d i : Nat) : State :=
  if 2 ≤ s.status d i / 2 ^ 62 then s.acquireAt s.me .pod (s.areaAddr d i) 8 s.order.serial else s

/-- The reads of CSTAT are atomic accesses to what the engine writes: they are recorded, and nothing refuses them, since the instruction has no
trap for that (R443, R444; DEDUCED, log 121). -/
def State.cstatRead (s : State) (a n : Nat) : State := s.record { agent := s.me, write := false, sync := true, spans := [(a, n)] }

/-- CSTAT (R443). -/
def execCstat (h : Hdr) (d a : GReg) (s : State) : Out :=
  issue h .all [s.gT a] [s.gT d] (fun s =>
    let die := dieOf s.cur.core
    let i := (s.g a).toNat
    if !s.entryOk die i then .trap 0x02 0 0 0
    else .done (((s.cstatRead (s.areaAddr die i) 8).cstatAcquire die i).putG d (BitVec.ofNat 64 (s.status die i)) none)) s

/-- CSTAT with .bm (R443): it reads no STATE. -/
def execCstatBm (h : Hdr) (d a b : GReg) (s : State) : Out :=
  issue h .all [s.gT a, s.gT b] [s.gT d] (fun s =>
    let die := dieOf s.cur.core
    let i := (s.g a).toNat
    let c := (s.g b).toNat
    if !s.entryOk die i || decide (eNch (s.readPhys 0 (s.tileAddr die i) 32) < c) then .trap 0x02 0 0 0
    else .done (((s.cstatRead (s.tileAddr die i) 32).cstatRead (s.areaAddr die i + 0x40 + c / 4) 1).putG d
      (BitVec.ofNat 64 (s.bookmark die i c)) none)) s

/-- CABORT (R444). An abort that is under way already goes on as it is. -/
def execCabort (h : Hdr) (d a : GReg) (s : State) : Out :=
  issue h .all [s.gT a] [s.gT d] (fun s =>
    let die := dieOf s.cur.core
    let i := (s.g a).toNat
    if !s.entryOk die i then .trap 0x02 0 0 0
    else match s.firing? die i with
      | some f => .done ((if f.aborting.isSome then s else s.abortFiring die f 1).putG d 0 none)
      | none => .done (s.putG d 1 none)) s

/-! Chunk steps (R435, R436, R438) -/

/-- The root has a final chunk: its result, and bookmark 2, or 3 for KIND 1. -/
def State.rootResult (s : State) (d : Nat) (f : Firing) (c : Nat) (bs : List Byte) : State :=
  s.collTry d f (s.resultChunk d f c bs) (fun s =>
    let s := (s.modFiring d f (fun g => { g with slots := g.slots.filter (fun x => x.chunk != c) })).setBm d f c (if f.kind = 1 then 3 else 2)
    (if f.kind = 1 then s else s.serve d f c).settleFiring d f)

/-- This member has its partial of chunk `c`: it is published to the parent, and the bookmark is 1. -/
def State.publishPart (s : State) (d : Nat) (f : Firing) (c u : Nat) : State :=
  (s.setBm d f c 1).collSend d f u (.chunkReady f.entry f.fire f.build c false)

/-- Whether a use holds the combination of the first children. -/
def accUse (u : CUse) : Bool := match u with
  | .acc _ => true
  | _ => false

/-- Combination at this member (R435), one indivisible step a time: the next child's partial is pulled; one that has landed joins those before it;
after the last child comes the input chunk. A member without children publishes its input chunk where it lies. -/
def State.combineChunk (s : State) (d : Nat) (f : Firing) (c : Nat) : State :=
  let kids := f.kids c s.pkg
  let acc := f.slot? c accUse
  let n := (acc.map (fun x => match x.use with
    | .acc n => n
    | _ => 0)).getD 0
  match kids.drop n, acc with
  | k :: _, none => s.collAsk d f c k false
  | k :: _, some a =>
    (match f.slot? c (· == .whole) with
      | none => s.collAsk d f c k false
      | some w =>
        s.collTry d f (s.workRead d f a 0 (eChunk f.image)) (fun r =>
          r.1.collTry d f (r.1.workRead d f w 0 (eChunk f.image)) (fun q =>
            q.1.collTry d f (q.1.workWrite d f a 0 (combine f.image r.2 q.2)) (fun s => (s.freePlace d f w).setUse d f a (.acc (n + 1))))))
  | [], some a =>
    s.collTry d f (s.workRead d f a 0 (eChunk f.image)) (fun r =>
      r.1.collTry d f (r.1.inputChunk d f c) (fun q =>
        let data := combine f.image r.2 q.2
        match f.parent c s.pkg with
        | none => q.1.rootResult d f c data
        | some u => q.1.collTry d f (q.1.workWrite d f a 0 data) (fun s => (s.setUse d f a .part).publishPart d f c u)))
  | [], none =>
    match f.parent c s.pkg with
    | none => s.collTry d f (s.inputChunk d f c) (fun q => q.1.rootResult d f c q.2)
    | some u => s.publishPart d f c u

/-- The root of KIND 2 copies its input chunks, in increasing order (R436). -/
def State.rootCopy (s : State) (d : Nat) (f : Firing) (c : Nat) : State :=
  if (f.parent c s.pkg).isSome || !(List.range c).all (fun x => decide (2 ≤ s.bm d f x)) then s
  else s.collTry d f (s.inputChunk d f c) (fun r => r.1.rootResult d f c r.2)

/-- `cnt[m]` of a header (R438). -/
def cntOf (hdr : List Byte) (m : Nat) : Nat := leNat ((hdr.drop (8 * m)).take 8)
/-- The header of package `p`. -/
def Firing.header (f : Firing) (p : Nat) : List Byte := (f.headers.find? (fun h => h.1 == p)).elim [] (·.2)
/-- This member's rank. -/
def Firing.rank (f : Firing) (p : Nat) : Nat := (f.members.takeWhile (· != p)).length
/-- recv[j] for the member of rank `i`. -/
def Firing.recv (f : Firing) (i j : Nat) : Nat := cntOf (f.header (f.members.getD j 0)) i
/-- off[j]: exclusive prefix sum. -/
def Firing.off (f : Firing) (i j : Nat) : Nat := (List.range j).foldl (fun n k => n + f.recv i k) 0

/-- KIND 3 before its transfers (R438): the own header is read, and may then be pulled; the others' are pulled; when all are here, the sizes go to
DST. -/
def State.headerStep (s : State) (d : Nat) (f : Firing) : State :=
  let missing := f.members.filter (fun p => !f.headers.any (fun h => h.1 == p))
  if missing.contains s.pkg then
    s.collTry d f (s.collRead d f (eSrc f.image) 512) (fun r => r.1.modFiring d f (fun g => { g with headers := g.headers ++ [(r.1.pkg, r.2)] }))
  else match missing.find? (fun p => !f.asking.contains p) with
    | some p =>
      if (s.routeLink p).isNone then s.pullsRefused d f p 1
      else (s.modFiring d f (fun g => { g with asking := g.asking ++ [p] })).collSend d f p (.headerReq f.entry f.fire)
    | none =>
      if !missing.isEmpty then s
      else
        let m := f.members.length
        let i := f.rank s.pkg
        if (eNch f.image + 1) * eChunk f.image < f.off i m + 512 then s.abortFiring d f 5
        else
          let table := (List.range m).flatMap (fun j => leBytes 8 (f.recv i j)) ++ leBytes (512 - 8 * m) 0
          s.collTry d f (s.collWrite d f (eDst f.image) table) (fun s => s.modFiring d f (fun g => { g with ready := true }))

/-- Bytes `off` to `off + n` of this member's payload for rank `m`. -/
def State.payload (s : State) (d : Nat) (f : Firing) (m off n : Nat) : Except WErr (State × List Byte) :=
  let hdr := f.header s.pkg
  s.collRead d f (eSrc f.image + 512 + (List.range m).foldl (fun n k => n + cntOf hdr k) 0 + off) n

/-- Rank `j`'s bytes are written to DST and its bookmark becomes 3, in one step; the source learns that they are here (R438; log 120). -/
def State.rankWrite (s : State) (d : Nat) (f : Firing) (j : Nat) (bs : List Byte) : State :=
  let p := f.members.getD j 0
  s.collTry d f (s.collWrite d f (eDst f.image + 512 + f.off (f.rank s.pkg) j) bs) (fun s =>
    let s := (s.modFiring d f (fun g => { g with landed := g.landed.filter (·.1 != j) })).setBm d f j 3
    (if p = s.pkg then s else s.collSend d f p (.chunkAck f.entry f.fire 0 (f.rank s.pkg) true)).settleFiring d f)

/-- One rank of KIND 3. What has landed is written, in an abort too. -/
def State.rankStep (s : State) (d : Nat) (f : Firing) (j : Nat) : State :=
  let i := f.rank s.pkg
  match f.landed.find? (fun x => x.1 == j) with
  | some x => s.rankWrite d f j x.2
  | none =>
    if f.stopped then s
    else if f.recv i j = 0 then (s.setBm d f j 3).settleFiring d f
    else if i = j then s.collTry d f (s.payload d f j 0 (f.recv i j)) (fun r => r.1.rankWrite d f j r.2)
    else
      let p := f.members.getD j 0
      if f.got.any (fun x => x.1 == j) then s
      else if (s.routeLink p).isNone then s.pullsRefused d f p 1
      else (s.modFiring d f (fun g => { g with got := g.got ++ [(j, p, [])] })).collSend d f p (.rankReq f.entry f.fire 0)

/-- What a firing does by itself: one that has lost an access or a route aborts, and an aborted one ends when nothing is in progress (R239,
R439). `none` where there is none. -/
def State.collFail (s : State) (d : Nat) : Option State :=
  (s.die d).firings.findSome? (fun f =>
    match f.fail with
    | some sub => if f.isOver then none else some (s.abortFiring d f sub)
    | none => if f.aborting.isSome && f.quiet && !f.isOver then some (s.finishAbort d f) else none)

/-- COLL_COMBINE (R435, R436, R438): the next step of a chunk towards its bookmark 1, 2 or, at a rank of KIND 3, 3; with every bookmark 3 the firing
ends. -/
def execCollCombine (d i c : Nat) (s : State) : Out :=
  match s.firing? d i with
  | none => .next s
  | some f =>
    if f.fail.isSome ∨ f.marks ≤ c then .next s
    else .next (s.areaStep d f (fun s =>
      if s.allDone d f then s.settleFiring d f
      else if s.bm d f c ≠ 0 then s
      else if f.kind = 3 then (if f.ready then s.rankStep d f c else if f.stopped then s else s.headerStep d f)
      else if f.stopped then s
      else if f.kind = 2 then s.rootCopy d f c
      else s.combineChunk d f c))

/-- COLL_BROADCAST_PULL (R436): a member pulls a final chunk; one that has landed whole is written, in a recomputation and an abort too (R437,
R439). The root finishes a chunk that every child has written. -/
def execCollBroadcastPull (d i c : Nat) (s : State) : Out :=
  match s.firing? d i with
  | none => .next s
  | some f =>
    if f.fail.isSome ∨ f.kind = 3 ∨ f.kind = 1 ∨ f.marks ≤ c then .next s
    else .next (s.areaStep d f (fun s =>
      let b := s.bm d f c
      if b = 3 then s
      else match f.slot? c (· == .land), f.parent c s.pkg with
        | some x, some u =>
          s.collTry d f (s.workRead d f x 0 (eChunk f.image)) (fun r =>
            r.1.collTry d f (r.1.resultChunk d f c r.2) (fun s =>
              let s := ((s.freePlace d f x).setBm d f c 3).collSend d f u (.chunkAck f.entry f.fire f.build c true)
              (if f.stopped then s else s.serve d f c).settleFiring d f))
        | none, some u => if f.stopped then s else s.collAsk d f c u true
        | _, none =>
          if b = 2 ∧ ¬ f.stopped ∧ (f.kids c s.pkg).all (fun k => f.acked.contains (c, k)) then (s.setBm d f c 3).settleFiring d f else s))

/-! Messages (R433, R434, R437, R439) -/

/-- What a member answers: the bytes of one segment; `none`: it has none to give. -/
abbrev Served := Option (Except WErr (State × List Byte))

/-- Segment `seg` of data of this member that may be pulled: a partial under the spines that it was made for, or a final chunk. One that has ended
gives what it has kept. -/
def State.chunkSegment (s : State) (d : Nat) (f : Firing) (build c : Nat) (final : Bool) (seg : Nat) : Served :=
  if f.isOver then
    (if final then (f.served.find? (fun x => x.1 == c)).map (fun x => .ok (s, (x.2.drop (512 * seg)).take 512)) else none)
  else if final then
    (if build = f.build ∧ 2 ≤ s.bm d f c ∧ f.kind ≠ 1 then some (s.collRead d f (eDst f.image + c * eChunk f.image + 512 * seg) 512) else none)
  else if build ≠ f.build ∨ f.recomp ∨ s.bm d f c ≠ 1 then none
  else match f.slot? c (· == .part) with
    | some x => some (s.workRead d f x (512 * seg) 512)
    | none => if (f.kids c s.pkg).isEmpty then some (s.inputBytes d f c (512 * seg) 512) else none

/-- Answer a request with a segment: it takes response credits for it, else it waits (R420). A pull that has begun is served to its end, though the
firing aborts; none begins then (R439). The flag says whether the request is done with. -/
def State.answerSegment (s : State) (d : Nat) (f : Firing) (p key : Nat) (final : Bool) (data : Served) (mk : List Byte → Body)
    (no : Body) : State × Bool :=
  let begun := f.serving.contains (key, p, final)
  if (s.routeLink p).isNone then (s, true)
  else if f.aborting.isSome ∧ ¬ begun then (s.collSend d f p no, true)
  else match data with
    | none => (s.collSend d f p no, true)
    | some r =>
      if s.responseRoom p < flitCount (mk (leBytes 512 0)) then (s, false)
      else match r with
        | .error (.retry t l o) => (s.collTry d f (.error (.retry t l o) : Except WErr Unit) (fun _ => s), false)
        | .error e => (s.collTry d f (.error e : Except WErr Unit) (fun _ => s), true)
        | .ok (s, bs) =>
          ((if begun ∨ f.isOver then s else s.modFiring d f (fun g => { g with serving := g.serving ++ [(key, p, final)] })).collSend d f p (mk bs),
            true)

/-- A segment of a pull in progress lands in its place in CWORK. After the last one a final chunk waits for its write; a partial is the first of a
combination or waits to join it, unless a recomputation or an abort discards it (R435 to R437, R439). -/
def State.landSegment (s : State) (d : Nat) (f : Firing) (p c : Nat) (final : Bool) (seg : Nat) (bs : List Byte) : State × Bool :=
  match f.slots.find? (fun x => x.chunk == c && x.use == .pull p final seg) with
  | none => (s, true)
  | some x =>
    match s.workWrite d f x (512 * seg) bs with
    | .error (.retry t l o) =>
      let u := s.collTry d f (.error (.retry t l o) : Except WErr Unit) (fun _ => s)
      (u, (u.again d f).aborting.isSome && f.aborting.isNone)
    | .error e => (s.collTry d f (.error e : Except WErr Unit) (fun _ => s), true)
    | .ok s =>
      if 512 * (seg + 1) < eChunk f.image then
        ((s.setUse d f x (.pull p final (seg + 1))).collSend d f p (.chunkReq f.entry f.fire f.build c final (seg + 1)), true)
      else if final then (s.setUse d f x .land, true)
      else
        let s := if f.stopped then s.freePlace d f x
          else s.setUse d f x (if (f.slot? c accUse).isSome then .whole else .acc 1)
        (s.collSend d f p (.chunkAck f.entry f.fire f.build c false), true)

/-- A segment of a rank's bytes; they are written when all are here, so that no result is partly written (R438, R439; log 120). -/
def State.landRank (s : State) (d : Nat) (f : Firing) (p seg : Nat) (bs : List Byte) : State :=
  match f.got.find? (fun x => x.2.1 == p && x.2.2.length == 512 * seg) with
  | none => s
  | some (j, _, old) =>
    let all := old ++ bs
    if all.length < f.recv (f.rank s.pkg) j then
      (s.modFiring d f (fun g => { g with got := g.got.map (fun x => if x.1 = j then (j, p, all) else x) })).collSend d f p
        (.rankReq f.entry f.fire (seg + 1))
    else s.modFiring d f (fun g => { g with got := g.got.filter (·.1 != j), landed := g.landed ++ [(j, all)] })

/-- The end of a pull from this member (R435, R436). -/
def State.collAcked (s : State) (d : Nat) (f : Firing) (p build c : Nat) (final : Bool) : State :=
  let s := s.modFiring d f (fun g => { g with serving := g.serving.filter (· != (c, p, final)) })
  if final then (if build = f.build then s.modFiring d f (fun g => { g with acked := g.acked ++ [(c, p)] }) else s)
  else if build ≠ f.build then s
  else
    let s := match f.slot? c (· == .part) with
      | some x => s.freePlace d f x
      | none => s
    if f.kind = 1 ∧ s.bm d f c = 1 then (s.setBm d f c 3).settleFiring d f else s

/-- A control message for a firing that this member has reached; `none`: it has come too early, and is held (R433). -/
def State.collBody (s : State) (d : Nat) (f : Firing) (p : Nat) (b : Body) : Option State :=
  match b with
  | .spines _ _ build ltgen sp fates =>
    if f.aborting.isSome ∨ build ≤ f.build then some s
    else if f.recomp ∨ f.busy then none
    else some (s.applySpines d f build ltgen sp fates)
  | .chunkReady _ _ build c final =>
    if f.build < build then none
    else if build < f.build ∨ f.isOver ∨ f.aborting.isSome then some s
    else some (s.modFiring d f (fun g => { g with peerReady := g.peerReady ++ [(c, p, final)] }))
  | .chunkAck _ _ build c final => if f.build < build then none else some (s.collAcked d f p build c final)
  | .chunkRefuse _ _ build c final =>
    some (if build = f.build then s.modFiring d f (fun g =>
        if g.kind = 3 then { g with asking := g.asking.filter (· != p), got := g.got.filter (fun x => x.2.1 != p) }
        else { g with slots := g.slots.filter (fun x => !(x.chunk == c && (match x.use with
          | .pull q y _ => q == p && y == final
          | _ => false))) })
      else s)
  | .collStop _ _ build => if f.build < build then none else some (s.modFiring d f (fun g => { g with halt := Nat.max g.halt build }))
  | .collAgain _ _ build =>
    some (if build = f.build ∧ f.again = 0 ∧ f.aborting.isNone then
        (if f.recomp then s.modFiring d f (fun g => { g with again := 1 }) else if f.build ≤ f.halt then s else s.changeFiring d f)
      else s)
  | .collEnd _ _ =>
    let ended := f.ended ++ [p]
    if f.isOver ∧ (f.members.filter (· != s.pkg)).all (fun q => ended.contains q) then some (s.dropFiring d f)
    else some (s.modFiring d f (fun g => { g with ended := ended }))
  | .collAbort _ _ sub => some (if f.aborting.isSome then s else s.takeAbort d f sub)
  | _ => some s

/-- The messages of a firing that were held come in as their turn comes; the number bounds them. -/
def State.drainInbox (d i n : Nat) : Nat → State → State
  | 0, s => s
  | fuel + 1, s =>
    match s.firingOf d i n with
    | none => s
    | some f =>
      match f.inbox.find? (fun x => (s.collBody d f x.1 x.2).isSome) with
      | none => s
      | some x =>
        let s := s.modFiring d f (fun g => { g with inbox := g.inbox.erase x })
        State.drainInbox d i n fuel ((s.collBody d (s.again d f) x.1 x.2).getD s)

/-- A held message of a firing of die `d` whose turn has come. -/
def State.inboxTurn (s : State) (d : Nat) : Option State :=
  ((s.die d).firings.find? (fun f => f.inbox.any (fun x => (s.collBody d f x.1 x.2).isSome))).map (fun f =>
    State.drainInbox d f.entry f.fire f.inbox.length s)

/-- A request or a response for a firing that this member has reached; the flag says whether it is done with. -/
def State.collData (s : State) (d : Nat) (f : Firing) (p : Nat) (b : Body) : Option (State × Bool) :=
  match b with
  | .chunkReq e n build c final seg =>
    if f.build < build then some (s, false)
    else some (s.answerSegment d f p c final (s.chunkSegment d f build c final seg) (.chunkData e n build c final seg) (.chunkRefuse e n build c final))
  | .chunkData _ _ build c final seg bs => some (if build = f.build then s.landSegment d f p c final seg bs else (s, true))
  | .headerReq e n =>
    if f.headers.any (fun h => h.1 == s.pkg) then
      some (s.answerSegment d f p f.members.length true (some (.ok (s, f.header s.pkg))) (.header e n) (.chunkRefuse e n 0 0 true))
    else if f.aborting.isSome then some (s.collSend d f p (.chunkRefuse e n 0 0 true), true)
    else some (s, false)
  | .header _ _ bs =>
    some (if f.asking.contains p then
        ((s.modFiring d f (fun g => { g with asking := g.asking.filter (· != p), headers := g.headers ++ [(p, bs)] })).collSend d f p
          (.chunkAck f.entry f.fire 0 f.members.length true), true)
      else (s, true))
  | .rankReq e n seg =>
    let m := f.rank p
    let len := Nat.min 512 (cntOf (f.header s.pkg) m - 512 * seg)
    if f.isOver then
      some (s.answerSegment d f p m true ((f.served.find? (fun x => x.1 == m)).map (fun x => .ok (s, (x.2.drop (512 * seg)).take len)))
        (.rankData e n seg) (.chunkRefuse e n 0 m true))
    else some (s.answerSegment d f p m true (some (s.payload d f m (512 * seg) len)) (.rankData e n seg) (.chunkRefuse e n 0 m true))
  | .rankData _ _ seg bs => some (s.landRank d f p seg bs, true)
  | _ => none

/-- A collective message comes to die `d` (R433), in its turn (R419): a stale one is dropped (R406); one for a firing that is not reached is held;
of one for a firing that is gone a request is refused, and the rest changes nothing; one that must wait is held, and a request or a response stays. -/
def State.collArrive (s : State) (d msg : Nat) (only : Body → Bool) : State :=
  match s.net[msg]? with
  | none => s
  | some m =>
    match collKey m.body with
    | none => s
    | some (i, n) =>
      if m.dst ≠ 512 * s.pkg + collCore d ∨ !only m.body ∨ s.notFirst msg then s
      else
        let t := s.takeMsg msg
        let p := m.src / 512
        if s.stale m then t.dropStale m d
        else match s.firingOf d i n with
          | some f =>
            (match s.collData d f p m.body with
              | some (u, done) => if done then u.takeMsg msg else u
              | none => (t.collBody d f p m.body).getD (t.modFiring d f (fun g => { g with inbox := g.inbox ++ [(p, m.body)] })))
          | none =>
            let ahead := (n + 2 ^ 32 - s.status d i % 2 ^ 32) % 2 ^ 32
            let no (build c : Nat) (final : Bool) : State :=
              t.send (t.podId (collCore d)) (512 * p + collCore d) m.group m.gen (.chunkRefuse i n build c final)
            if ahead = 0 ∨ 2 ^ 31 ≤ ahead then
              match m.body with
              | .chunkReq _ _ build c final _ => no build c final
              | .headerReq _ _ | .rankReq _ _ _ => no 0 0 true
              | _ => t
            else t.modDie d (fun x => { x with heldMsgs := x.heldMsgs ++ [m] })

/-- SPINES_ARRIVAL (R434): spines, and the other messages of a firing, reach a member. -/
def execSpinesArrival (d msg : Nat) (s : State) : Out := .next (s.collArrive d msg (fun _ => true))

/-- COLL_ABORT (R439): an abort of entry `i` with this subcause that has reached the die takes effect. -/
def execCollAbort (d i sub : Nat) (s : State) : Out :=
  let hit (m : Packet) : Bool := match m.body with
    | .collAbort x _ y => x == i && y == sub && m.dst == 512 * s.pkg + collCore d
    | _ => false
  match s.net.findIdx? hit with
  | some n => .next (s.collArrive d n (fun _ => true))
  | none => .next s

/-- A collective message that would do something now. -/
def State.collMsgDue (s : State) (d n : Nat) : Bool :=
  match s.net[n]? with
  | some m =>
    (collKey m.body).isSome && m.dst == 512 * s.pkg + collCore d &&
      (let t := s.collArrive d n (fun _ => true); t.net.length != s.net.length || t.dies != s.dies)
  | none => false

end Sys2Proof.Machine
end

