-- ==== Sys2Proof/Machine/Platform.lean ====
section
/-! DEFINITION. Dawn, live update, modules, power and heat, scrubbing and array errors (spec 26 R449 to R460, 20 R384). -/
namespace Sys2Proof.Machine

/-! Dawn (R449 to R453) -/

/-- The image verifies under the vendor key: by the outside's word, or by the check of R449 step 4. -/
def dawnVerified (k : DawnCfg) : Bool := k.trusted || Config.verifies k.digest k.signature

/-- MV extended with a digest: SHA3-256(MV ‖ digest), 32 bytes each, lowest first (R451; log 8). -/
def extendMv (mv digest : BitVec 256) : BitVec 256 := valueOf (sha3 (leBytes 32 mv.toNat ++ leBytes 32 digest.toNat))

/-- Measurement `n` of every die extended with a digest (R451). -/
def State.measure (s : State) (n : Nat) (digest : BitVec 256) : State :=
  (List.range Config.nDies).foldl (fun s d => s.modDie d (fun x => { x with
    mv := x.mv.mapIdx (fun i v => if i = n then extendMv v digest else v) })) s

/-- The map of architectural cores onto physical ones (R7): in each quire the working ones of nine, in order. -/
def dawnMap (bad : List Nat) : List (Nat × Nat) :=
  (List.range Config.nQuires).flatMap (fun u =>
    ((List.range 8).map (fun i => 8 * u + i)).zip (((List.range 9).map (fun i => 9 * u + i)).filter (fun p => !bad.contains p)))

/-- A core at dawn: its reset state; the firmware context of a core runs at the entry that the configuration names. A core
for which no working core is left stays failed (R7, R460). -/
def dawnCore (k : DawnCfg) (mapped : Bool) : Core :=
  let x := Core.reset
  let f : Ctx := { sys := [(0x210, 4)] }
  if !mapped then { x with failed := true, ctxF := { f with run := .failed } }
  else if k.fwEntry = 0 then { x with ctxF := f }
  else { x with ctxF := { f with pc := k.fwEntry, run := .running } }

/-- The links that have trained at dawn, with values that a trained link may take (R424). -/
def dawnLinks (k : DawnCfg) : List (Nat × Word) := ((List.range 16).zip k.links).filter (fun p => linkValueOk p.2)

/-- The LINK registers, the pod's identity and LTGEN at dawn: each link that has trained and each row that has come is a change (R421; log 11). -/
def dawnSys (k : DawnCfg) : SMap Word :=
  SMap.set 0 ((dawnLinks k).foldl (fun m p => SMap.set 0 m (0x510 + p.1) p.2)
    (SMap.set 0 pkgSysReset 0x500 (k.pkgid.setWidth 64))) 0x501 (BitVec.ofNat 64 ((dawnLinks k).length + k.peers.length))

/-- The alignment of step 6 (R426): to the reference among the packages that have ended dawn, where there is one and a route to it. Its value
may have come already; else the step waits for it. Without a route the package keeps its own GTC (DESIGN CHOICE, log 96). -/
def State.align (s : State) (k : DawnCfg) : State :=
  match referenceOf (k.dawned.filter (fun x => x.1 != s.pkg)) with
  | none => { s with phase := .up }.tellTime
  | some p =>
    if !s.hasRoute s.pkg p then { s with phase := .up }.tellTime
    else match k.gtcFromRef with
      | some (v, rtt) => { s with gtc := v + rtt / 2, phase := .up }.tellTime
      | none => { s with phase := .aligning }

/-- Row and channel repairs from the fused and the logged lists replace the lines that are named: they hold no error any more (R449 step 2, R457; what
they read as is not stated, and the model keeps their bytes, log 11). -/
def State.repaired (s : State) (k : DawnCfg) : State :=
  { s with bad := (k.repairs ++ s.repairLog).foldl (fun m a => (List.range 64).foldl (fun m i => SMap.set false m (a + i) false) m) s.bad }

/-- The package after a dawn whose image verified. Memory keeps its bytes. -/
def State.dawned (s : State) (k : DawnCfg) : State :=
  let map := dawnMap (k.failedCores ++ s.failedLog)
  let s := { s.repaired k with
    gtc := 0, phase := .up, keys := SMap.set none [] 0 (some { serial := s.keySerial, bits := Config.dawnKey s.dawns }),
    keySerial := s.keySerial + 1,
    cores := (List.range Config.nCores).map (fun c => (c, { dawnCore k (map.any (fun p => p.1 == c)) with image := k.version })),
    quires := (List.range Config.nQuires).map (fun q =>
      (q, { gen := ((k.gens.find? (fun (g : Nat × Word) => g.1 == q)).map (fun (g : Nat × Word) => g.2)).getD (Config.dawnGen q) : Quire })),
    dies := (List.range Config.nDies).map (fun d => (d, ({} : Die))),
    sys := dawnSys k, late := [], order := {}, launches := [], pushSeq := 0, started := 0, forcedList := [], preempt := none,
    links := [], linkTable := k.peers.foldl (fun m (p : Nat × List Word) => SMap.set [] m p.1 p.2) [],
    podTime := k.dawned.filter (fun x => x.1 != k.pkgid.toNat), hostLock := false, mseq := [], taken := [], net := [],
    kept := [], sessions := [], hostSeen := s.hostOut.length, kicks := [], staging := [], badTags := 0, coreMap := map, features := k.features, digest := k.digest, version := k.version,
    dawns := s.dawns + 1, dawnCfg := k, agenda := [], cur := {} }
  (((s.measure 0 k.digest).measure 1 k.cfgDigest).measure 3 k.repairDigest).announce.align k

/-- The image of a dawn: after a restart from recovery it is the one that was staged, with its own SHA3-256 digest (R449 step 4, R450). -/
def State.imageOf (s : State) (k : DawnCfg) : DawnCfg := if s.staging.isEmpty then k else { k with digest := valueOf (sha3 s.staging) }

/-- DAWN (R449, R450): from reset, or from off. A die whose image does not verify stays in recovery: its cores take no launch. -/
def execDawn (k : DawnCfg) (s : State) : Out :=
  if s.phase = .up ∨ s.phase = .recovery ∨ s.phase = .aligning then .next s
  else
    let k := s.imageOf k
    if dawnVerified k then .next (s.dawned k)
    else
      let s := { s with phase := .recovery, cores := [], quires := [], dies := (List.range Config.nDies).map (fun d => (d, ({} : Die))),
                        launches := [], preempt := none, forcedList := [], late := [], order := {}, sessions := [], kicks := [],
                        staging := [], dawnCfg := k, agenda := [], net := [], kept := [] }
      .next (s.measure 0 k.digest)

/-- LIVE_UPDATE (R458): a failed verification changes nothing; trios, engines and reports continue. Each core's firmware context
changes over by itself. -/
def execLiveUpdate (digest signature : BitVec 256) (version : Nat) (s : State) : Out :=
  if s.phase = .up ∧ Config.verifies digest signature then
    .next ({ s with digest := digest, version := version }.measure 2 digest)
  else .next s

/-- The firmware context of a core is at an instruction boundary at which HND is 0, and runs an older image (R458). -/
def Core.switches (k : Core) (version : Nat) : Bool :=
  k.image != version && !k.failed && !k.hnd && k.ctxF.push.isEmpty && k.ctxF.ending.isNone && !k.ctxF.made &&
    (k.ctxF.run != .sleeping || k.ctxF.wait == some .pop || k.ctxF.wait == some .busy)

/-- Firmware of a core that changes over to the image of the last live update (R458, log 81). -/
def State.switchTurn (s : State) : Option State :=
  (s.cores.find? (fun (p : Nat × Core) => p.2.switches s.version)).map (fun p => s.modCore p.1 (fun k => { k with image := s.version }))

/-! Modules (R456) -/

/-- What was known of a package whose module is taken out or put in: its time, and the numbers of its messages (R417, R426). -/
def State.forgetPackage (s : State) (p : Nat) : State :=
  { s with podTime := s.podTime.filter (fun x => x.1 != p), taken := s.taken.filter (fun x => x.1 != p) }

/-- MODULE_INSERT: a package's row joins the link table; its dawn numbers its messages from 0 again. -/
def execModuleInsert (p : Nat) (row : List Word) (s : State) : Out :=
  if p = s.pkg ∨ 64 ≤ p ∨ row.length ≠ 16 then .next s
  else
    let before := s.rowOf p
    .next (({ s.forgetPackage p with linkTable := SMap.set [] s.linkTable p row }).rowChanged p before row)

/-- MODULE_REMOVE: the package's links go down, its row first, so that nothing more takes a route to it; this package itself is then off. -/
def execModuleRemove (p : Nat) (s : State) : Out :=
  if p = s.pkg then .next { (List.range 16).foldl State.takeDown s with phase := .off }
  else if 64 ≤ p then .next s
  else
    let before := s.rowOf p
    let row : List Word := List.replicate 16 0
    let s := { s.forgetPackage p with linkTable := SMap.set [] s.linkTable p row }
    let s := ((List.range 16).filter (fun l => linkKind (s.linkReg l) == 1 && linkPeer (s.linkReg l) == p)).foldl State.takeDown s
    .next (s.rowChanged p before row).stillAligns

/-! Power and heat (R454, R455) -/

/-- THROTTLE (R454): the die holds issue and engine starts for g cycles of every 16, g at most 12. -/
def execThrottle (d : Nat) (g : BitVec 4) (s : State) : Out :=
  if d < Config.nDies ∧ g.toNat ≤ 12 then .next (s.modDie d (fun x => { x with throttle := g })) else .next s

/-- THERMAL_SHUTDOWN (R455): the event goes first; every die stops until the next dawn. -/
def execThermalShutdown (s : State) : Out := .next { s.tell .shutdown with phase := .off, agenda := [] }

/-- The die of core `c` holds trio contexts and engine starts in this cycle (R454, log 5). -/
def State.throttled (s : State) (c : Nat) : Bool := decide (s.gtc % 16 < (s.die (dieOf c)).throttle.toNat)

/-! Errors in arrays (R384, R385, R459) -/

/-- First address and bytes of the word or line of an array. -/
def arrayPlace : ArrayKind → Nat × Nat
  | .dram pa | .slice pa => (pa / 64 * 64, 64)
  | .sram c a => (spAddr c (a / 8 * 8), 8)
  | .records _ _ _ => (0, 0)

/-- A corrected error counts in ERRCNT of the core that owns the array (R384). -/
def State.corrected (s : State) (c : Nat) : State :=
  s.modCore c (fun k => k.setReg 0x40B (BitVec.ofNat 64 (((k.reg 0x40B).toNat + 1) % 2 ^ 32)))

/-- A migrated product of a chain whose operand records an engine holds, by its age (R343). -/
def State.records (s : State) (c n i : Nat) : Option Product := ((s.core c).mx.filter (fun p => p.chain == n && p.by_ != c))[i]?

/-- The core that owns an array, for the SRAM arrays of a core (R384). -/
def State.ownerOf (s : State) (a : ArrayKind) : Option Nat :=
  match a with
  | .sram c _ => some c
  | .records c n i => (s.records c n i).map (fun p => p.by_)
  | .dram _ | .slice _ => none

/-- A single error is corrected: no value changes, and it counts for the core that owns the array (R384). -/
def State.correctedIn (s : State) (a : ArrayKind) : State := ((s.ownerOf a).map s.corrected).getD s

/-- ARRAY_ERROR (R384, R385): a corrected error of an SRAM array counts in ERRCNT of its core; an uncorrectable one stays
where it is: in memory, or in the operand records of a migrated product, whose command it faults (R343). The DRAM line is logged for repair
(R457). -/
def execArrayError (a : ArrayKind) (correctable : Bool) (s : State) : Out :=
  if correctable then .next (s.correctedIn a)
  else match a with
    | .records c n i =>
      (match s.records c n i with
        | none => .next s
        | some p => .next (s.modCore c (fun k => { k with mx := k.mx.map (fun x => if x = p then { x with bad := true } else x) })))
    | .sram _ _ | .slice _ => .next (lose s)
    | .dram _ => .next { lose s with repairLog := if s.repairLog.contains (arrayPlace a).1 then s.repairLog else s.repairLog ++ [(arrayPlace a).1] }
where
  /-- the bytes stay wrong where they are -/
  lose (s : State) : State :=
    let (lo, n) := arrayPlace a
    { s with bad := (List.range n).foldl (fun m i => SMap.set false m (lo + i) true) s.bad }

/-- SCRUB (R459): it reads a word or line. A single error that it finds, which the environment decides, is corrected in place; an uncorrectable
one is told to the host and changes nothing. -/
def execScrub (a : ArrayKind) (s : State) : Out :=
  let clean : Unit → Out := fun _ =>
    let t := { s with scrubs := s.scrubs + 1 }
    if Config.scrubSingle s.scrubs then .next (t.correctedIn a) else .next t
  match a with
  | .records c n i => if (s.records c n i).any (fun p => p.bad) then .next (s.tell (.scrubError 0)) else clean ()
  | _ =>
    let (lo, n) := arrayPlace a
    match s.hasBad lo n with
    | some x => .next (s.tell (.scrubError x))
    | none => clean ()

end Sys2Proof.Machine
end

