-- ==== Sys2Proof/Machine/Dispatch.lean ====
section
/-! DEFINITION. One arm per constructor of `Instr`: the meaning of each step. -/
namespace Sys2Proof.Machine

/-- The effect of one step on the package. -/
def exec (i : Instr) (s : State) : Host.Outcome State Fault Refusal :=
  match i with
  | .add h d a b => Sys2Proof.Machine.execAdd h d a b s
  | .sub h d a b => Sys2Proof.Machine.execSub h d a b s
  | .mul h d a b => Sys2Proof.Machine.execMul h d a b s
  | .mulh h d a b => Sys2Proof.Machine.execMulh h d a b s
  | .mulhn h d a b => Sys2Proof.Machine.execMulhn h d a b s
  | .div h d a b => Sys2Proof.Machine.execDiv h d a b s
  | .divn h d a b => Sys2Proof.Machine.execDivn h d a b s
  | .rem h d a b => Sys2Proof.Machine.execRem h d a b s
  | .remn h d a b => Sys2Proof.Machine.execRemn h d a b s
  | .and h d a b => Sys2Proof.Machine.execAnd h d a b s
  | .or h d a b => Sys2Proof.Machine.execOr h d a b s
  | .xor h d a b => Sys2Proof.Machine.execXor h d a b s
  | .andn h d a b => Sys2Proof.Machine.execAndn h d a b s
  | .shl h d a b => Sys2Proof.Machine.execShl h d a b s
  | .shr h d a b => Sys2Proof.Machine.execShr h d a b s
  | .sar h d a b => Sys2Proof.Machine.execSar h d a b s
  | .rol h d a b => Sys2Proof.Machine.execRol h d a b s
  | .min h d a b => Sys2Proof.Machine.execMin h d a b s
  | .max h d a b => Sys2Proof.Machine.execMax h d a b s
  | .minn h d a b => Sys2Proof.Machine.execMinn h d a b s
  | .maxn h d a b => Sys2Proof.Machine.execMaxn h d a b s
  | .seq h d a b => Sys2Proof.Machine.execSeq h d a b s
  | .sne h d a b => Sys2Proof.Machine.execSne h d a b s
  | .slt h d a b => Sys2Proof.Machine.execSlt h d a b s
  | .sltn h d a b => Sys2Proof.Machine.execSltn h d a b s
  | .sel h d a b c => Sys2Proof.Machine.execSel h d a b c s
  | .madd h d a b c => Sys2Proof.Machine.execMadd h d a b c s
  | .addi h d a imm => Sys2Proof.Machine.execAddi h d a imm s
  | .andi h d a imm => Sys2Proof.Machine.execAndi h d a imm s
  | .ori h d a imm => Sys2Proof.Machine.execOri h d a imm s
  | .xori h d a imm => Sys2Proof.Machine.execXori h d a imm s
  | .shli h d a n => Sys2Proof.Machine.execShli h d a n s
  | .shri h d a n => Sys2Proof.Machine.execShri h d a n s
  | .sari h d a n => Sys2Proof.Machine.execSari h d a n s
  | .slti h d a imm => Sys2Proof.Machine.execSlti h d a imm s
  | .sltni h d a imm => Sys2Proof.Machine.execSltni h d a imm s
  | .muli h d a imm => Sys2Proof.Machine.execMuli h d a imm s
  | .li h d imm => Sys2Proof.Machine.execLi h d imm s
  | .lih h d a imm => Sys2Proof.Machine.execLih h d a imm s
  | .clz h d a => Sys2Proof.Machine.execClz h d a s
  | .ctz h d a => Sys2Proof.Machine.execCtz h d a s
  | .popc h d a => Sys2Proof.Machine.execPopc h d a s
  | .bfx h d a signed pos len1 => Sys2Proof.Machine.execBfx h d a signed pos len1 s
  | .bfi h d a pos len1 => Sys2Proof.Machine.execBfi h d a pos len1 s
  | .lds h ty swz d a off => Sys2Proof.Machine.execLds h ty swz d a off s
  | .sts h ty swz a b off => Sys2Proof.Machine.execSts h ty swz a b off s
  | .bcc h cc a b disp => Sys2Proof.Machine.execBcc h cc a b disp s
  | .j h disp => Sys2Proof.Machine.execJ h disp s
  | .pbr h d t => Sys2Proof.Machine.execPbr h d t s
  | .br h a => Sys2Proof.Machine.execBr h a s
  | .brl h a => Sys2Proof.Machine.execBrl h a s
  | .jr h a => Sys2Proof.Machine.execJr h a s
  | .nop h => Sys2Proof.Machine.execNop h s
  | .srd h d sys => Sys2Proof.Machine.execSrd h d sys s
  | .swr h a sys => Sys2Proof.Machine.execSwr h a sys s
  | .waitt h a => Sys2Proof.Machine.execWaitt h a s
  | .waittP h a b => Sys2Proof.Machine.execWaittP h a b s
  | .wfe h => Sys2Proof.Machine.execWfe h s
  | .sev h => Sys2Proof.Machine.execSev h s
  | .sevRemote h a => Sys2Proof.Machine.execSevRemote h a s
  | .halt h => Sys2Proof.Machine.execHalt h s
  | .vadd h k ty rm sat d a b => Sys2Proof.Machine.execVadd h k ty rm sat d a b s
  | .vsub h k ty rm sat d a b => Sys2Proof.Machine.execVsub h k ty rm sat d a b s
  | .vmul h k ty rm sat d a b => Sys2Proof.Machine.execVmul h k ty rm sat d a b s
  | .vfma h k ty rm sat d a b c => Sys2Proof.Machine.execVfma h k ty rm sat d a b c s
  | .vfms h k ty rm sat d a b c => Sys2Proof.Machine.execVfms h k ty rm sat d a b c s
  | .vmin h k ty d a b => Sys2Proof.Machine.execVmin h k ty d a b s
  | .vmax h k ty d a b => Sys2Proof.Machine.execVmax h k ty d a b s
  | .vabs h k ty d a => Sys2Proof.Machine.execVabs h k ty d a s
  | .vneg h k ty d a => Sys2Proof.Machine.execVneg h k ty d a s
  | .vdiv h k ty rm sat d a b => Sys2Proof.Machine.execVdiv h k ty rm sat d a b s
  | .vsqrt h k ty rm sat d a => Sys2Proof.Machine.execVsqrt h k ty rm sat d a s
  | .vrcp h k ty rm sat d a => Sys2Proof.Machine.execVrcp h k ty rm sat d a s
  | .vrsq h k ty rm sat d a => Sys2Proof.Machine.execVrsq h k ty rm sat d a s
  | .vexp2 h k ty rm sat d a => Sys2Proof.Machine.execVexp2 h k ty rm sat d a s
  | .vlog2 h k ty rm sat d a => Sys2Proof.Machine.execVlog2 h k ty rm sat d a s
  | .viadd h k ty sat d a b => Sys2Proof.Machine.execViadd h k ty sat d a b s
  | .visub h k ty sat d a b => Sys2Proof.Machine.execVisub h k ty sat d a b s
  | .vimul h k ty sat d a b => Sys2Proof.Machine.execVimul h k ty sat d a b s
  | .vand h k ty d a b => Sys2Proof.Machine.execVand h k ty d a b s
  | .vor h k ty d a b => Sys2Proof.Machine.execVor h k ty d a b s
  | .vxor h k ty d a b => Sys2Proof.Machine.execVxor h k ty d a b s
  | .vshl h k ty d a b => Sys2Proof.Machine.execVshl h k ty d a b s
  | .vshr h k ty d a b => Sys2Proof.Machine.execVshr h k ty d a b s
  | .vsar h k ty d a b => Sys2Proof.Machine.execVsar h k ty d a b s
  | .vimin h k ty d a b => Sys2Proof.Machine.execVimin h k ty d a b s
  | .vimax h k ty d a b => Sys2Proof.Machine.execVimax h k ty d a b s
  | .vcmp h k ty cc d a b => Sys2Proof.Machine.execVcmp h k ty cc d a b s
  | .vsel h k ty d a b => Sys2Proof.Machine.execVsel h k ty d a b s
  | .kop h d op => Sys2Proof.Machine.execKop h d op s
  | .kpop h ty d a => Sys2Proof.Machine.execKpop h ty d a s
  | .kfirst h ty d a => Sys2Proof.Machine.execKfirst h ty d a s
  | .vmov h k ty d a => Sys2Proof.Machine.execVmov h k ty d a s
  | .vbcast h k ty d a => Sys2Proof.Machine.execVbcast h k ty d a s
  | .viota h k ty d a => Sys2Proof.Machine.execViota h k ty d a s
  | .vperm h k ty d a op => Sys2Proof.Machine.execVperm h k ty d a op s
  | .vext h ty d a b => Sys2Proof.Machine.execVext h ty d a b s
  | .vins h ty d a b => Sys2Proof.Machine.execVins h ty d a b s
  | .vredsum h k ty rm d a => Sys2Proof.Machine.execVredsum h k ty rm d a s
  | .vredmax h k ty d a => Sys2Proof.Machine.execVredmax h k ty d a s
  | .vredmin h k ty d a => Sys2Proof.Machine.execVredmin h k ty d a s
  | .vcvt h k src dst rm sat mm d a => Sys2Proof.Machine.execVcvt h k src dst rm sat mm d a s
  | .vquant h k src dst rm sat mm d a => Sys2Proof.Machine.execVquant h k src dst rm sat mm d a s
  | .vdeq h k src dst rm sat d a => Sys2Proof.Machine.execVdeq h k src dst rm sat d a s
  | .vscale h k src dst rm sat mm d a b => Sys2Proof.Machine.execVscale h k src dst rm sat mm d a b s
  | .vcell h k d a b c => Sys2Proof.Machine.execVcell h k d a b c s
  | .vhash3 h k w d a b c => Sys2Proof.Machine.execVhash3 h k w d a b c s
  | .vmorton h k d a b op => Sys2Proof.Machine.execVmorton h k d a b op s
  | .vld h k swz d a off => Sys2Proof.Machine.execVld h k swz d a off s
  | .vst h k swz a b off => Sys2Proof.Machine.execVst h k swz a b off s
  | .vldx h k ty swz d a b off => Sys2Proof.Machine.execVldx h k ty swz d a b off s
  | .vstx h k ty swz d a b off => Sys2Proof.Machine.execVstx h k ty swz d a b off s
  | .tld h swz d a b off => Sys2Proof.Machine.execTld h swz d a b off s
  | .tst h swz d a b off => Sys2Proof.Machine.execTst h swz d a b off s
  | .tzero h d => Sys2Proof.Machine.execTzero h d s
  | .tmov h d a => Sys2Proof.Machine.execTmov h d a s
  | .ttrans h d a => Sys2Proof.Machine.execTtrans h d a s
  | .tnext h d a b => Sys2Proof.Machine.execTnext h d a b s
  | .tnextIdx h d => Sys2Proof.Machine.execTnextIdx h d s
  | .tdone h sc => Sys2Proof.Machine.execTdone h sc s
  | .toks h d q => Sys2Proof.Machine.execToks h d q s
  | .tokx h a q => Sys2Proof.Machine.execTokx h a q s
  | .spush h k ty sd d a => Sys2Proof.Machine.execSpush h k ty sd d a s
  | .spop h k ty sd d a => Sys2Proof.Machine.execSpop h k ty sd d a s
  | .sflush h sd d a => Sys2Proof.Machine.execSflush h sd d a s
  | .sreset h sd => Sys2Proof.Machine.execSreset h sd s
  | .lqpush h k ty a b => Sys2Proof.Machine.execLqpush h k ty a b s
  | .lqpop h k ty d a => Sys2Proof.Machine.execLqpop h k ty d a s
  | .lqstat h ty d => Sys2Proof.Machine.execLqstat h ty d s
  | .bar h sc => Sys2Proof.Machine.execBar h sc s
  | .stgput h a => Sys2Proof.Machine.execStgput h a s
  | .stgget h d a => Sys2Proof.Machine.execStgget h d a s
  | .safe h n => Sys2Proof.Machine.execSafe h n s
  | .launch h d a => Sys2Proof.Machine.execLaunch h d a s
  | .ldg h ty acq d a off => Sys2Proof.Machine.execLdg h ty acq d a off s
  | .stg h ty rel a b off => Sys2Proof.Machine.execStg h ty rel a b off s
  | .vldg h k acq d a off => Sys2Proof.Machine.execVldg h k acq d a off s
  | .vstg h k rel a b off => Sys2Proof.Machine.execVstg h k rel a b off s
  | .aadd h ty ord d a b off => Sys2Proof.Machine.execAadd h ty ord d a b off s
  | .afadd h ty ord d a b off => Sys2Proof.Machine.execAfadd h ty ord d a b off s
  | .amin h ty ord d a b off => Sys2Proof.Machine.execAmin h ty ord d a b off s
  | .amax h ty ord d a b off => Sys2Proof.Machine.execAmax h ty ord d a b off s
  | .aminn h ty ord d a b off => Sys2Proof.Machine.execAminn h ty ord d a b off s
  | .amaxn h ty ord d a b off => Sys2Proof.Machine.execAmaxn h ty ord d a b off s
  | .afmin h ty ord d a b off => Sys2Proof.Machine.execAfmin h ty ord d a b off s
  | .afmax h ty ord d a b off => Sys2Proof.Machine.execAfmax h ty ord d a b off s
  | .aand h ty ord d a b off => Sys2Proof.Machine.execAand h ty ord d a b off s
  | .aor h ty ord d a b off => Sys2Proof.Machine.execAor h ty ord d a b off s
  | .axor h ty ord d a b off => Sys2Proof.Machine.execAxor h ty ord d a b off s
  | .aswp h ty ord d a b off => Sys2Proof.Machine.execAswp h ty ord d a b off s
  | .acas h ty ord d a b off => Sys2Proof.Machine.execAcas h ty ord d a b off s
  | .abadd h ord d a b off => Sys2Proof.Machine.execAbadd h ord d a b off s
  | .red h op ty a b off => Sys2Proof.Machine.execRed h op ty a b off s
  | .redc h op ty det sc a b cnt1 idx => Sys2Proof.Machine.execRedc h op ty det sc a b cnt1 idx s
  | .fence h sc ord => Sys2Proof.Machine.execFence h sc ord s
  | .xfence h c1 c2 => Sys2Proof.Machine.execXfence h c1 c2 s
  | .pref h a off => Sys2Proof.Machine.execPref h a off s
  | .cflush h a off => Sys2Proof.Machine.execCflush h a off s
  | .cinv h a off => Sys2Proof.Machine.execCinv h a off s
  | .waitv h ty acq d a b off => Sys2Proof.Machine.execWaitv h ty acq d a b off s
  | .enq h sc d a e => Sys2Proof.Machine.execEnq h sc d a e s
  | .eseq h d e => Sys2Proof.Machine.execEseq h d e s
  | .waitseq h d a e => Sys2Proof.Machine.execWaitseq h d a e s
  | .prom h d a => Sys2Proof.Machine.execProm h d a s
  | .ecancel h d a e => Sys2Proof.Machine.execEcancel h d a e s
  | .notice h d a => Sys2Proof.Machine.execNotice h d a s
  | .decline h d a => Sys2Proof.Machine.execDecline h d a s
  | .pullrel h a => Sys2Proof.Machine.execPullrel h a s
  | .nrecv h d a => Sys2Proof.Machine.execNrecv h d a s
  | .tready h d a => Sys2Proof.Machine.execTready h d a s
  | .cstat h d a => Sys2Proof.Machine.execCstat h d a s
  | .cstatBm h d a b => Sys2Proof.Machine.execCstatBm h d a b s
  | .cabort h d a => Sys2Proof.Machine.execCabort h d a s
  | .trap h n => Sys2Proof.Machine.execTrap h n s
  | .eret h => Sys2Proof.Machine.execEret h s
  | .eretReclaim h => Sys2Proof.Machine.execEretReclaim h s
  | .fwcall h d a n => Sys2Proof.Machine.execFwcall h d a n s
  | .ctxsave h a => Sys2Proof.Machine.execCtxsave h a s
  | .ctxsaveFull h a => Sys2Proof.Machine.execCtxsaveFull h a s
  | .ctxload h a => Sys2Proof.Machine.execCtxload h a s
  | .tlbinvPage h a b => Sys2Proof.Machine.execTlbinvPage h a b s
  | .tlbinvAsid h b => Sys2Proof.Machine.execTlbinvAsid h b s
  | .tlbinvAll h => Sys2Proof.Machine.execTlbinvAll h s
  | .keyload h a b => Sys2Proof.Machine.execKeyload h a b s
  | .keyloadClr h a => Sys2Proof.Machine.execKeyloadClr h a s
  | .ewLit k => Sys2Proof.Machine.execEwLit k s
  | .ewExt k => Sys2Proof.Machine.execEwExt k s
  | .nopPacket die slot => Sys2Proof.Machine.execNopPacket die slot s
  | .launchPacket die slot => Sys2Proof.Machine.execLaunchPacket die slot s
  | .collPacket die slot => Sys2Proof.Machine.execCollPacket die slot s
  | .fencePacket die slot => Sys2Proof.Machine.execFencePacket die slot s
  | .signalPacket die slot => Sys2Proof.Machine.execSignalPacket die slot s
  | .timedPacket die slot => Sys2Proof.Machine.execTimedPacket die slot s
  | .fenceResume die slot => Sys2Proof.Machine.execFenceResume die slot s
  | .timedResume die slot => Sys2Proof.Machine.execTimedResume die slot s
  | .signalWrite die slot => Sys2Proof.Machine.execSignalWrite die slot s
  | .kick qid index => Sys2Proof.Machine.execKick qid index s
  | .queueScan die => Sys2Proof.Machine.execQueueScan die s
  | .dispatchPop quire => Sys2Proof.Machine.execDispatchPop quire s
  | .launchComplete seq => Sys2Proof.Machine.execLaunchComplete seq s
  | .reltickRelease seq => Sys2Proof.Machine.execReltickRelease seq s
  | .deadlineOverrun seq => Sys2Proof.Machine.execDeadlineOverrun seq s
  | .stageSchedule seq => Sys2Proof.Machine.execStageSchedule seq s
  | .fstateAccess write r => Sys2Proof.Machine.execFstateAccess write r s
  | .landingRingWrite size v => Sys2Proof.Machine.execLandingRingWrite size v s
  | .formatWindowWrite stack win word v => Sys2Proof.Machine.execFormatWindowWrite stack win word v s
  | .homeAccess pa data => Sys2Proof.Machine.execHomeAccess pa data s
  | .redcLand pa op ty det sc cnt idx v => Sys2Proof.Machine.execRedcLand pa op ty det sc cnt idx v s
  | .remoteEventArrival msg => Sys2Proof.Machine.execRemoteEventArrival msg s
  | .noticeArrival msg => Sys2Proof.Machine.execNoticeArrival msg s
  | .noticeResend msg => Sys2Proof.Machine.execNoticeResend msg s
  | .pullBegin msg => Sys2Proof.Machine.execPullBegin msg s
  | .segmentLand msg => Sys2Proof.Machine.execSegmentLand msg s
  | .pullComplete msg => Sys2Proof.Machine.execPullComplete msg s
  | .declineArrival msg => Sys2Proof.Machine.execDeclineArrival msg s
  | .withdrawalArrival msg => Sys2Proof.Machine.execWithdrawalArrival msg s
  | .pullRefused msg => Sys2Proof.Machine.execPullRefused msg s
  | .preemptRequest waiting victim => Sys2Proof.Machine.execPreemptRequest waiting victim s
  | .flitReceive link f => Sys2Proof.Machine.execFlitReceive link f s
  | .flitResend link nack trained => Sys2Proof.Machine.execFlitResend link nack trained s
  | .linkDown link => Sys2Proof.Machine.execLinkDown link s
  | .linkTableRow msg => Sys2Proof.Machine.execLinkTableRow msg s
  | .laneSpare link => Sys2Proof.Machine.execLaneSpare link s
  | .ptpMessage locked offset => Sys2Proof.Machine.execPtpMessage locked offset s
  | .hostOpen session nonce features => Sys2Proof.Machine.execHostOpen session nonce features s
  | .datagramReceive d => Sys2Proof.Machine.execDatagramReceive d s
  | .hostRead pa len key => Sys2Proof.Machine.execHostRead pa len key s
  | .hostWrite pa key data => Sys2Proof.Machine.execHostWrite pa key data s
  | .spinesArrival die msg => Sys2Proof.Machine.execSpinesArrival die msg s
  | .collCombine die entry chunk => Sys2Proof.Machine.execCollCombine die entry chunk s
  | .collBroadcastPull die entry chunk => Sys2Proof.Machine.execCollBroadcastPull die entry chunk s
  | .collRecompute die entry => Sys2Proof.Machine.execCollRecompute die entry s
  | .collResume die entry => Sys2Proof.Machine.execCollResume die entry s
  | .collAbort die entry sub => Sys2Proof.Machine.execCollAbort die entry sub s
  | .dawn cfg => Sys2Proof.Machine.execDawn cfg s
  | .liveUpdate digest signature version => Sys2Proof.Machine.execLiveUpdate digest signature version s
  | .moduleInsert pkg row => Sys2Proof.Machine.execModuleInsert pkg row s
  | .moduleRemove pkg => Sys2Proof.Machine.execModuleRemove pkg s
  | .throttle die g => Sys2Proof.Machine.execThrottle die g s
  | .scrub a => Sys2Proof.Machine.execScrub a s
  | .illop w => Sys2Proof.Machine.execIllop w s
  | .linkUp link v => Sys2Proof.Machine.execLinkUp link v s
  | .arrayError a correctable => Sys2Proof.Machine.execArrayError a correctable s
  | .ewDup => Sys2Proof.Machine.execEwDup s
  | .ewDrop => Sys2Proof.Machine.execEwDrop s
  | .ewSwap => Sys2Proof.Machine.execEwSwap s
  | .ewOver => Sys2Proof.Machine.execEwOver s
  | .ewAdd => Sys2Proof.Machine.execEwAdd s
  | .ewSub => Sys2Proof.Machine.execEwSub s
  | .ewShl => Sys2Proof.Machine.execEwShl s
  | .ewElem => Sys2Proof.Machine.execEwElem s
  | .ewSwz => Sys2Proof.Machine.execEwSwz s
  | .ewDim1 => Sys2Proof.Machine.execEwDim1 s
  | .ewDim2 => Sys2Proof.Machine.execEwDim2 s
  | .ewPrio => Sys2Proof.Machine.execEwPrio s
  | .ewStamp => Sys2Proof.Machine.execEwStamp s
  | .ewGate => Sys2Proof.Machine.execEwGate s
  | .ewSeqat => Sys2Proof.Machine.execEwSeqat s
  | .ewCopyGs => Sys2Proof.Machine.execEwCopyGs s
  | .ewCopySg => Sys2Proof.Machine.execEwCopySg s
  | .ewCopyGg => Sys2Proof.Machine.execEwCopyGg s
  | .ewCopySs => Sys2Proof.Machine.execEwCopySs s
  | .ewCopytLd => Sys2Proof.Machine.execEwCopytLd s
  | .ewCopytSt => Sys2Proof.Machine.execEwCopytSt s
  | .ewCopyxG => Sys2Proof.Machine.execEwCopyxG s
  | .ewCopyxS => Sys2Proof.Machine.execEwCopyxS s
  | .ewFillG => Sys2Proof.Machine.execEwFillG s
  | .ewFillS => Sys2Proof.Machine.execEwFillS s
  | .ewTmma => Sys2Proof.Machine.execEwTmma s
  | .ewCredL => Sys2Proof.Machine.execEwCredL s
  | .ewCredP => Sys2Proof.Machine.execEwCredP s
  | .ewNote => Sys2Proof.Machine.execEwNote s
  | .ewPullS => Sys2Proof.Machine.execEwPullS s
  | .ewPullG => Sys2Proof.Machine.execEwPullG s
  | .ewDecl => Sys2Proof.Machine.execEwDecl s
  | .ewEnd => Sys2Proof.Machine.execEwEnd s
  | .ewAddr => Sys2Proof.Machine.execEwAddr s
  | .forcedLaunchStart => Sys2Proof.Machine.execForcedLaunchStart s
  | .launchEnter => Sys2Proof.Machine.execLaunchEnter s
  | .stageReenter => Sys2Proof.Machine.execStageReenter s
  | .reportTake => Sys2Proof.Machine.execReportTake s
  | .scheduleMissDelegation => Sys2Proof.Machine.execScheduleMissDelegation s
  | .ectlResume => Sys2Proof.Machine.execEctlResume s
  | .ectlKill => Sys2Proof.Machine.execEctlKill s
  | .ucauseRelease => Sys2Proof.Machine.execUcauseRelease s
  | .variableResultLand => Sys2Proof.Machine.execVariableResultLand s
  | .retryAdmit => Sys2Proof.Machine.execRetryAdmit s
  | .pinnedLineTimeout => Sys2Proof.Machine.execPinnedLineTimeout s
  | .wfeWake => Sys2Proof.Machine.execWfeWake s
  | .waittExpire => Sys2Proof.Machine.execWaittExpire s
  | .waitvWake => Sys2Proof.Machine.execWaitvWake s
  | .barRelease => Sys2Proof.Machine.execBarRelease s
  | .waitseqComplete => Sys2Proof.Machine.execWaitseqComplete s
  | .tokenPopReady => Sys2Proof.Machine.execTokenPopReady s
  | .tokenPushRoom => Sys2Proof.Machine.execTokenPushRoom s
  | .enqSlotFree => Sys2Proof.Machine.execEnqSlotFree s
  | .noticeEntryFree => Sys2Proof.Machine.execNoticeEntryFree s
  | .ringSlotReady => Sys2Proof.Machine.execRingSlotReady s
  | .laneQueueRefill => Sys2Proof.Machine.execLaneQueueRefill s
  | .crossbarCycle => Sys2Proof.Machine.execCrossbarCycle s
  | .commandStart => Sys2Proof.Machine.execCommandStart s
  | .commandRetire => Sys2Proof.Machine.execCommandRetire s
  | .mxStart => Sys2Proof.Machine.execMxStart s
  | .stampedTmmaStart => Sys2Proof.Machine.execStampedTmmaStart s
  | .scheduleMiss => Sys2Proof.Machine.execScheduleMiss s
  | .migrationOffer => Sys2Proof.Machine.execMigrationOffer s
  | .tmmaComplete => Sys2Proof.Machine.execTmmaComplete s
  | .migratedProductReturn => Sys2Proof.Machine.execMigratedProductReturn s
  | .portStart => Sys2Proof.Machine.execPortStart s
  | .segmentRequest => Sys2Proof.Machine.execSegmentRequest s
  | .noticeExpiry => Sys2Proof.Machine.execNoticeExpiry s
  | .reclaimTrap => Sys2Proof.Machine.execReclaimTrap s
  | .reclaimRepeat => Sys2Proof.Machine.execReclaimRepeat s
  | .preemptReport => Sys2Proof.Machine.execPreemptReport s
  | .safePointTimeout => Sys2Proof.Machine.execSafePointTimeout s
  | .preemptSaveDone => Sys2Proof.Machine.execPreemptSaveDone s
  | .preemptRestart => Sys2Proof.Machine.execPreemptRestart s
  | .restartRequest => Sys2Proof.Machine.execRestartRequest s
  | .thermalShutdown => Sys2Proof.Machine.execThermalShutdown s
  | .lostLock => Sys2Proof.Machine.execLostLock s

end Sys2Proof.Machine
end

