-- ==== Sys2Proof/Machine/Fetch.lean ====
section
/-! DEFINITION. Fetching an instruction word or an engine word (spec 02 R12, 04 R80 to R84, 11 R215, 15 R305, 20 R371). -/
namespace Sys2Proof.Machine

/-- The instruction word at the PC of a context, through the context's address space (R84, R215, R220, R385). A
fetch of a changed address always sees the new word (DESIGN CHOICE, log 34). -/
def State.fetch (s : State) (c : Nat) (r : Role) : Except AFault (State × Nat) := do
  let pc := (s.ctx c r).pc
  let (s, l) ← s.xlat c (s.aspaceOf c r) pc .fetch
  let pa := l.pa pc
  match s.badIn [(pa, 8)] with
  | some a => throw { cause := 0x25, val := some a }
  | none => pure (s, leNat (s.readPhys l.key pa 8))

/-- A context stands at an instruction that it may go on with in this cycle. -/
def State.goesOn (s : State) (c : Nat) (r : Role) : Bool :=
  let x := s.ctx c r
  x.run == .running && x.push.isEmpty && x.ending.isNone && decide (x.nextIssue ≤ s.gtc)

/-- A trap of the firmware context itself is pending, and it takes it next: until then it issues nothing (R374, R378). -/
def Core.fwTrapped (k : Core) : Bool := !k.hnd && k.reports.any (fun r => r.precise && r.src == 0 && r.ctx == 3)

/-- The core's issue slots are open to context `r` in this cycle: no trio context issues in a cycle in which F does, nor F in one in which a trio context
does (R155). -/
def Core.slotOpen (k : Core) (r : Role) (gtc : Nat) : Bool :=
  if r = .F then decide (k.trioAt ≤ gtc) && !k.fwTrapped else decide (k.fwAt ≤ gtc)

/-- Whether a context may issue in this cycle. -/
def State.issues (s : State) (c : Nat) (r : Role) : Bool := s.goesOn c r && (s.core c).slotOpen r s.gtc

end Sys2Proof.Machine
end

