-- ==== Sys2Proof/Machine/Schedule.lean ====
section
/-! DEFINITION. What the next step is (log 4). The agenda names the next turn where the outside or a wake has placed one;
otherwise the first thing that is due in this cycle comes about, and when nothing is due a cycle passes (R23, R25, R155,
R190, R291). Within a cycle, arrivals, landings and the engines come first, then the contexts, then the crossbar (R291), and last
the reports that firmware takes (R375). -/
namespace Sys2Proof.Machine

/-- What a step does: nothing, for a package that is off; a change of its own; or one instruction at a state. -/
inductive Choice where
  | off
  | idle (s : State)
  | run (s : State) (i : Instr)
  deriving DecidableEq, Repr

/-! The passing of a cycle (R23, R155, R279, R342) -/

/-- The context waits at issue: the instruction at its PC has not issued, because it cannot make its pops, or waits for a tile, a divider
or an update (R24, R94, R161, R336). -/
def Ctx.waitsAtIssue (x : Ctx) : Bool := x.run == .sleeping && (x.wait == some .pop || x.wait == some .busy || x.wait == none)

/-- The share of firmware at the start of a cycle (R155). The spec does not say what runnable means: F counts as runnable where it runs, also between two
issues, and where it waits at issue; asleep in an instruction that has issued it does not, and its credit is 0 (DESIGN CHOICE, log 115). -/
def Core.credit (k : Core) : Core :=
  { k with acc := if k.ctxF.run = .running ∨ k.ctxF.waitsAtIssue then Nat.min (k.acc + (k.reg 0x406).toNat) 256 else 0 }

/-- Candidates that wait count their cycles from when they became candidates (R342). -/
def State.countWait (s : State) (c n : Nat) : State :=
  match s.atTmma c n with
  | some (q, _, _) => if q.stamp.isNone ∧ (s.candidate c n).isNone then s.modCmd c n (fun q => { q with waiting := some (s.gtc + 1) }) else s
  | none => s

/-- One core in a new cycle: the results that are ready in it land (R26, R27), the pulse of source 9 (R279), and the share (R155). -/
def Core.cycle (k : Core) (gtc : Nat) : Core :=
  let k := (k.landBy gtc).credit
  if (k.reg 0x338).toNat = gtc then { k with pulses := k.pulses ++ [(9, Path.core, {})] } else k

/-- A cycle passes: the SWRs of the old one take effect (R23, R154). -/
def State.tick (s : State) : State :=
  let s := s.commitLate
  let busy := s.cores.filter (fun (p : Nat × Core) => !p.2.chains.isEmpty)
  let s := busy.foldl (fun s (p : Nat × Core) => (s.countWait p.1 1).countWait p.1 2) s
  { s with gtc := s.gtc + 1, cores := s.cores.map (fun (p : Nat × Core) => (p.1, p.2.cycle (s.gtc + 1))) }

/-! Issue (R12, R25, R80 to R84, R371) -/

/-- The decoded next instruction of a context, or the exception of its fetch. -/
def State.fetched (s : State) (c : Nat) (r : Role) : Except AFault (State × Except DecodeError Instr) :=
  (s.fetch c r).map (fun p => (p.1, decodeWord p.2))

/-- The current context runs the instruction at its PC; at PC 0 it ends, when all that its end releases has been performed, and nothing is fetched
(R12, R35, R254). An instruction that waits after its issue is fetched and decoded again when it goes on: a word stored meanwhile runs in its place, with
the pops counted as made (DESIGN CHOICE, log 116). -/
def State.runNow (s : State) : Choice :=
  let c := s.cur.core
  let r := s.cur.role
  let pc := (s.ctx c r).pc
  if pc = 0 then .idle (if s.owes s.me then s.modCtx c r (fun x => { x with ending := some .halt }) else s.endCtx c r s.me)
  else
    match s.fetched c r with
    | .error f => .idle (s.takeTrap c r f.cause f.sub (match f.val with | some v => BitVec.ofNat 64 v | none => pc) f.other pc)
    | .ok (s, .ok i) => .run s i
    | .ok (s, .error _) => .idle (s.takeTrap c r 0x02 0 0 0 pc)

/-- A trio context of core `c` issues in this cycle (R155). -/
def State.markTrio (s : State) (c : Nat) : State := s.modCore c (fun k => { k with trioAt := s.gtc + 1 })

/-- Firmware of core `c` issues in this cycle (R155). -/
def State.markFirmware (s : State) (c : Nat) : State := s.modCore c (fun k => { k with fwAt := s.gtc + 1 })

/-- The current context issues the instruction at its PC. -/
def State.issueNow (s : State) : Choice := (if s.cur.role = .F then s.markFirmware s.cur.core else s.markTrio s.cur.core).runNow

/-- A context that runs, but not before a later cycle: by its own next issue, for the sake of another context of its core, or held by throttling. -/
def State.later (s : State) (c : Nat) (r : Role) : Bool :=
  let x := s.ctx c r
  let k := s.core c
  x.run == .running && x.push.isEmpty && x.ending.isNone && !(r == .F && k.fwTrapped) &&
    (decide (s.gtc < x.nextIssue) || !k.slotOpen r s.gtc || (r != .F && s.throttled c))

/-! Engine words (R286, R287, R305, R385) -/

/-- The current chain executes the word at its micro-PC. -/
def State.wordNow (s : State) : Choice :=
  let c := s.cur.core
  let n := s.cur.chain
  let ch := (s.core c).chain n
  match ch.run with
  | none => .idle s
  | some q =>
    if ch.fault || q.done then .idle s
    else
      let a := (s.core c).slot n q.seq + 0x80 + 2 * q.upc
      if 256 ≤ q.upc then .idle (s.cmdFault c n 0x34 0 0 0)
      else match s.hasBad a 2 with
        | some x => .idle (s.cmdFault c n 0x25 0 x 0)
        | none => match decodeEngine (s.slotWord c n q.seq q.upc) with
          | some i => if (wordChains i).contains n then .run s i else .idle (s.cmdFault c n 0x34 0 0 0)
          | none => .idle (s.cmdFault c n 0x34 0 0 0)

/-! What is due (default order) -/

/-- A due thing with its place. -/
abbrev Due := Option (Place × Instr)

/-- Due if a condition holds. -/
def due (b : Bool) (p : Place) (i : Instr) : Due := if b then some (p, i) else none

/-- The first due thing of a list. -/
def firstDue : List (Unit → Due) → Due
  | [] => none
  | d :: ds => match d () with
    | some x => some x
    | none => firstDue ds

/-- A meaning answers a state that differs in what `f` shows. -/
def differs {α : Type} [DecidableEq α] (s : State) (o : Out) (f : State → α) : Bool :=
  match o with
  | .next t => decide (f t ≠ f s)
  | _ => false

/-- The step that takes message number `i`. -/
def netStep (i : Nat) (m : Packet) : Instr × (State → Out) :=
  match m.body with
  | .notice _ => (.noticeArrival i, execNoticeArrival i)
  | .tableFull _ | .entryFree => (.noticeResend i, execNoticeResend i)
  | .segReq .. => (.pullBegin i, execPullBegin i)
  | .segData .. => (.segmentLand i, execSegmentLand i)
  | .refuse _ => (.pullRefused i, execPullRefused i)
  | .ack _ => (.pullComplete i, execPullComplete i)
  | .decline _ => (.declineArrival i, execDeclineArrival i)
  | .withdraw _ | .pullEnd _ => (.withdrawalArrival i, execWithdrawalArrival i)
  | .event => (.remoteEventArrival i, execRemoteEventArrival i)
  | .linkRow .. => (.linkTableRow i, execLinkTableRow i)
  | _ => (.spinesArrival (dieOf (m.dst % 512)) i, execSpinesArrival (dieOf (m.dst % 512)) i)

/-- Of the notices that come to the port of notice `i` in this cycle, the one of the lowest producer goes first (R351). -/
def State.noticeFor (s : State) (i : Nat) (m : Packet) : Nat :=
  (List.range s.net.length).foldl (fun (b : Nat) j => match s.net[j]?, s.net[b]? with
    | some x, some y => if bodyKind x.body = 0 ∧ x.dst = m.dst ∧ x.src < y.src ∧ s.notFirst j = false then j else b
    | _, _ => b) i

/-- The first message that can be taken; what a held line refuses is looked at again in each cycle (R245). -/
def State.dueMessage (s : State) : Due :=
  (List.range s.net.length).findSome? (fun i => match s.net[i]? with
    | some m =>
      let j := if bodyKind m.body = 0 then s.noticeFor i m else i
      due (differs s ((netStep j m).2 s) (fun t => (t.net, t.order.waiters))) {} (netStep j m).1
    | none => none)

/-- Landings, entries and releases of one core. -/
def State.dueCore (s : State) (c : Nat) (k : Core) : Due :=
  let p : Place := { core := c }
  firstDue [
    fun _ => due (k.reports.any (s.missDelegable c) && (k.ctxC.run == .running || k.ctxC.run == .sleeping)) p .scheduleMissDelegation,
    fun _ => due (s.productDue c true).isSome p .tmmaComplete,
    fun _ => due (s.productDue c false).isSome p .migratedProductReturn,
    fun _ => due (k.evbit && [Role.L, .C, .S, .F].any (fun r => (k.ctx r).run == .sleeping && (k.ctx r).wait == some .wfe)) p .wfeWake,
    fun _ => due ((s.launchOf c).isSome && k.drained) p .stageReenter,
    fun _ => due (s.entering c).isSome p .launchEnter,
    fun _ => due ((s.restartDue c).isSome && differs s (execPreemptRestart { s with cur := p }) (fun t => (t.launches, t.order.waiters))) p .preemptRestart,
    fun _ => due ((s.saveDue c).isSome && differs s (execPreemptReport { s with cur := p }) (fun t => (t.preempt, t.order.waiters))) p .preemptReport,
    fun _ => due (s.forceDue c) p .safePointTimeout,
    fun _ => (List.range 64).findSome? (fun i => match k.port.pub i with
      | some b =>
        let q : Place := { core := c, pub := i }
        firstDue [fun _ => due (b.expires s.gtc) q .noticeExpiry,
                  fun _ => due (b.reclaimDue && (s.reclaimTo c b).isSome) q .reclaimTrap,
                  fun _ => due (b.repeatDue s.gtc && (s.reclaimTo c b).isSome) q .reclaimRepeat]
      | none => none),
    fun _ => due (!s.throttled c && k.portPick.isSome) p .portStart,
    fun _ => due (!s.throttled c && match s.nextSeg c with | some x => (k.port.entry x.nid).isSome | none => false) p .segmentRequest]

/-- What ends a cycle on one core: the crossbar, when every pulse of the cycle has been made (R291), and then the report that firmware
takes, when every report of the cycle is pending (R375). -/
def State.dueLate (s : State) (c : Nat) (k : Core) : Due :=
  firstDue [
    fun _ => due (k.crossbarDue s.gtc) { core := c } .crossbarCycle,
    fun _ => (k.chains.map (·.1)).findSome? (fun n => due (s.misses c n) { core := c, chain := n } .scheduleMiss),
    fun _ => due (s.reportDue c).isSome { core := c, role := .F } .reportTake]

/-- The chains of one core. -/
def State.dueChains (s : State) (c : Nat) (k : Core) : Due :=
  let held := s.throttled c
  (k.chains.map (·.1)).findSome? (fun n =>
    let p : Place := { core := c, chain := n }
    firstDue [
      fun _ => due ((s.cmdOver c n).any (fun q => decide (q.next ≤ s.gtc))) p .commandRetire,
      fun _ => due (!held && (s.canStart c n).isSome) p .commandStart])

/-- The matrix engine of one core, once every word of the cycle has been executed: stamped starts, starts, and offers (R338, R339, R342). -/
def State.dueMatrix (s : State) (c : Nat) (k : Core) : Due :=
  let p : Place := { core := c }
  if k.chains.isEmpty then none
  else firstDue [
    fun _ => (k.chains.map (·.1)).findSome? (fun n => due (s.stampedDue c n).isSome { core := c, chain := n } .stampedTmmaStart),
    fun _ => due (!s.throttled c && (s.mxPick c).isSome) p .mxStart,
    fun _ => if s.throttled c then none
      else [1, 2].findSome? (fun n => due (s.offer c n).isSome { core := c, chain := n } .migrationOffer)]

/-- A chain that executes a word in this cycle. -/
def State.dueWord (s : State) (c : Nat) (k : Core) : Option Place :=
  if s.throttled c then none
  else (k.chains.find? (fun (x : Nat × Chain) => !x.2.fault &&
    x.2.run.any (fun q => !q.done && decide (q.next ≤ s.gtc)))).map (fun (x : Nat × Chain) => { core := c, chain := x.1 })

/-- Launches and the dispatcher. -/
def State.dueLaunch (s : State) : Due :=
  firstDue [
    fun _ => s.launches.findSome? (fun l => firstDue [
      fun _ => due (s.launchOver l && differs s (execLaunchComplete l.seq s) (fun t => t.launches)) {} (.launchComplete l.seq),
      fun _ => due (s.overruns l) {} (.deadlineOverrun l.seq),
      fun _ => due (l.state == .held && decide (l.rcd.reltick.toNat ≤ s.frame) && !s.withheld l.rcd.reltick.toNat) {} (.reltickRelease l.seq),
      fun _ => due (l.rcd.nstage != 0 && l.state == .running && s.gtc % 4096 == 0 && decide (l.schedAt ≤ s.gtc)) {} (.stageSchedule l.seq)]),
    fun _ => due (s.forcedDue.isSome && differs s (execForcedLaunchStart s) (fun t => (t.launches, t.order.waiters))) {} .forcedLaunchStart,
    fun _ => (List.range Config.nQuires).findSome? (fun u => due (s.popDue u) {} (.dispatchPop u)),
    fun _ => (s.preemptDue).bind (fun x =>
      due (differs s (execPreemptRequest x.1.seq x.2.seq s) (fun t => (t.preempt, t.order.waiters))) {} (.preemptRequest x.1.seq x.2.seq)),
    fun _ => due ((s.savedVictim).any (fun x => x.2.queue.isSome) && differs s (execPreemptSaveDone s) (fun t => (t.preempt, t.order.waiters))) {}
      .preemptSaveDone]

/-- The step of a packet type. -/
def packetStep (d i t : Nat) : Instr × (State → Out) :=
  match t with
  | 1 => (.launchPacket d i, execLaunchPacket d i)
  | 2 => (.collPacket d i, execCollPacket d i)
  | 3 => (.fencePacket d i, execFencePacket d i)
  | 4 => (.signalPacket d i, execSignalPacket d i)
  | 5 => (.timedPacket d i, execTimedPacket d i)
  | _ => (.nopPacket d i, execNopPacket d i)

/-- The queue processor of a die. -/
def State.dueQueue (s : State) (d : Nat) : Due :=
  let seen (t : State) : List QSlot × List Host.Cell := ((t.die d).queues, t.mem)
  firstDue [
    fun _ => due (s.scanDue d && differs s (execQueueScan d s) (fun t => (t.die d, t.mem))) {} (.queueScan d),
    fun _ => (List.range (s.die d).signals.length).findSome? (fun i =>
      due (differs s (execSignalWrite d i s) (fun t => (t.die d).signals)) {} (.signalWrite d i)),
    fun _ => (List.range (s.die d).queues.length).findSome? (fun i =>
      match s.packetAt d i, s.heldPacket d i with
      | some p, _ => due (differs s ((packetStep d i p.type).2 s) seen) {} (packetStep d i p.type).1
      | none, some (_, .fence _) => due (differs s (execFenceResume d i s) seen) {} (.fenceResume d i)
      | none, some (_, .timed t) => due (decide (t.toNat ≤ s.gtc)) {} (.timedResume d i)
      | none, _ => none)]

/-- The collective engine of a die; throttling holds its operations (R454). -/
def State.dueColl (s : State) (d : Nat) : Due :=
  (s.die d).firings.findSome? (fun f =>
    let i := f.entry
    firstDue [
      fun _ => due (s.recomputing d i).isSome {} (.collRecompute d i),
      fun _ => due (f.recomp && !s.reportHeld d i) {} (.collResume d i),
      fun _ => if f.isOver ∨ s.throttled (collCore d) then none else (List.range f.marks).findSome? (fun c => firstDue [
        fun _ => due (differs s (execCollCombine d i c s) (fun t => t.dies)) {} (.collCombine d i c),
        fun _ => due (differs s (execCollBroadcastPull d i c s) (fun t => t.dies)) {} (.collBroadcastPull d i c)])])

/-- Links whose flits are to be sent again (R418). -/
def State.dueLink (s : State) : Due :=
  (List.range 16).findSome? (fun l => due ((s.resendDue l || (s.link l).nacked) && linkKind (s.linkReg l) != 0) {} (.flitResend l (s.link l).nacked false))

/-! Contexts (R25, R155, R190) -/

/-- The context may try to issue in this cycle. -/
def State.mayTry (s : State) (c : Nat) (r : Role) : Bool :=
  let x := s.ctx c r
  (x.run == .running || x.waitsAtIssue) && x.push.isEmpty && x.ending.isNone && decide (x.nextIssue ≤ s.gtc) && (s.core c).slotOpen r s.gtc &&
    (r == .F || !s.throttled c)

/-- The state after a context has run the instruction at its PC. -/
def State.outcome (s : State) (c : Nat) (r : Role) : State :=
  match ({ s with cur := { core := c, role := r } }).runNow with
  | .off => s
  | .idle t => t
  | .run t i => match exec i t with
    | .next u => u
    | _ => t

/-- The instruction at the PC issues now: it meets the pop condition and nothing that it names is busy (R25, R155, R161). -/
def State.couldIssue (s : State) (c : Nat) (r : Role) : Bool := !((s.outcome c r).ctx c r).waitsAtIssue

/-- The context now takes a trap that its own user handler receives: where two contexts trap in one cycle, this one comes first (R375). -/
def State.delegating (s : State) (c : Nat) (r : Role) : Bool :=
  !Nat.testBit ((s.ctx c r).reg 0x412).toNat 62 && Nat.testBit (((s.outcome c r).ctx c r).reg 0x412).toNat 62

/-- The stream that an SWR or SRESET of the context replaces. -/
def State.setsStream (s : State) (c : Nat) (r : Role) : Option Nat :=
  match s.fetched c r with
  | .ok (_, .ok (.sreset _ n)) => some n.toNat
  | .ok (_, .ok (.swr _ _ n)) => if 0x110 ≤ n.toNat ∧ n.toNat ≤ 0x117 then some (n.toNat - 0x110) else none
  | _ => none

/-- The stream that an SPUSH or SPOP of the context advances. -/
def State.movesStream (s : State) (c : Nat) (r : Role) : Option Nat :=
  match s.fetched c r with
  | .ok (_, .ok (.spush _ _ _ n _ _)) => some n.toNat
  | .ok (_, .ok (.spop _ _ _ n _ _)) => some n.toNat
  | _ => none

/-- The order of the trio within a cycle: L, C, S; but an SWR to SDn or an SRESET of L comes after C's SPUSH or SPOP of the same stream,
which stands before S's in any case (R190). -/
def State.trioOrder (s : State) (c : Nat) : List Role :=
  if s.mayTry c .L && s.mayTry c .C && (s.setsStream c .L).isSome && s.setsStream c .L == s.movesStream c .C then [.C, .L, .S]
  else [.L, .C, .S]

/-- Firmware issues: where a trio context could have, the credit is used (R155). -/
def State.firmwareIssues (s : State) (c : Nat) (used : Bool) : State :=
  s.modCore c (fun k => { k with acc := if used then k.acc - 256 else k.acc })

/-- How a context that waits after its issue goes on: by the step of its wait, or by looking again. -/
inductive Poll where
  | step (i : Instr)
  | again
  deriving DecidableEq, Repr

/-- What a context that waits after its issue does in this cycle; each looks again at most once a cycle (R118). -/
def State.poll (s : State) (c : Nat) (r : Role) : Option Poll :=
  let x := s.ctx c r
  if x.run ≠ .sleeping ∨ s.gtc < x.nextIssue then none
  else match x.wait with
    | none | some .pop | some .busy => none
    | some .index | some .refill | some .inflight | some .behind => some .again
    | some (.slot _ _) => some (.step .enqSlotFree)
    | some (.entry _) => some (.step .noticeEntryFree)
    | some (.ring _) | some (.get _ _) => some (.step .ringSlotReady)
    | some (.retry since _) => some (.step (if since + 2 ^ 20 ≤ s.gtc then .pinnedLineTimeout else .retryAdmit))
    | some .wfe => none
    | some (.waitt t) => if t.toNat ≤ s.gtc then some (.step .waittExpire) else none
    | some (.waittP t _ _) => if t.toNat ≤ s.gtc then some (.step .waittExpire) else none
    | some (.waitv _) => some (.step .waitvWake)
    | some (.bar _ _) => some (.step .barRelease)
    | some (.waitseq _ _) => if s.seqReached c r then some (.step .waitseqComplete) else none

/-- A context that tries to issue: one that slept for a pop by its own step, any other at once. A context that cannot issue yet looks
again in the next cycle. -/
def State.try_ (s : State) (c : Nat) (r : Role) (ready : Bool) : Choice :=
  let x := s.ctx c r
  let t := { s with cur := { core := c, role := r } }
  if ready then (if x.run = .sleeping ∧ x.wait = some .pop then .run t .tokenPopReady else t.issueNow)
  else if x.run = .sleeping then .idle (s.modCtx c r (fun x => { x with nextIssue := s.gtc + 1 }))
  else t.runNow

/-- The role among `rs` that goes next: one that takes a delegated trap, else the first (R375). -/
def State.firstOf (s : State) (c : Nat) (rs : List Role) : Option Role :=
  if ((s.core c).reg 0x405) = 0 then rs.head?
  else (rs.find? (s.delegating c)).orElse (fun _ => rs.head?)

/-- The trio contexts of core `c` that try to issue in this cycle, in their order. -/
def State.tries (s : State) (c : Nat) : List Role := (s.trioOrder c).filter (s.mayTry c)

/-- Firmware of core `c` issues now, under the rule of R155; answers whether it uses its credit. -/
def State.firmwareNext (s : State) (c : Nat) (k : Core) : Option Bool :=
  if s.mayTry c .F && s.couldIssue c .F then
    let used := (s.tries c).any (s.couldIssue c)
    if !used || decide (256 ≤ k.acc) then some used else none
  else none

/-- A new instruction of core `c`, under the rule of R155. -/
def State.issueNext (s : State) (c : Nat) (k : Core) : Option Choice :=
  match s.firmwareNext c k with
  | some used => some ((s.firmwareIssues c used).try_ c .F true)
  | none => match s.firstOf c (s.tries c) with
    | some r => some (s.try_ c r (s.couldIssue c r))
    | none => if s.mayTry c .F && !s.couldIssue c .F then some (s.try_ c .F false) else none

/-- A trio context that takes a trap which its own user handler receives: it goes before whatever could stop the trio in this cycle (R375). -/
def State.delegatesNow (s : State) (c : Nat) (k : Core) : Option Role :=
  if k.reg 0x405 = 0 ∨ (s.firmwareNext c k).isSome then none else (s.tries c).find? (s.delegating c)

/-- The contexts of one core: delegated traps, waiting pushes, waits after an issue, issue, results of variable latency and lane queues. -/
def State.dueContext (s : State) (c : Nat) (k : Core) : Option Choice :=
  let roles := [Role.L, Role.C, Role.S, Role.F]
  let at_ (r : Role) : State := { s with cur := { core := c, role := r } }
  match s.delegatesNow c k with
  | some r => some (s.try_ c r true)
  | none =>
  match roles.find? (s.drains c) with
  | some r => some (.run (at_ r) .tokenPushRoom)
  | none =>
    match s.firstOf c (roles.filter (fun r => (s.poll c r).isSome)) with
    | some r => match s.poll c r with
      | some (.step i) => some (.run (at_ r) i)
      | some .again => some (.idle (s.wake c r))
      | none => none
    | none =>
      (s.issueNext c k).orElse (fun _ =>
        if k.pend.any (fun e => e.ready.isNone) then some (.run { s with cur := { core := c } } .variableResultLand)
        else if (k.lanes.map (·.1)).any (s.refillOk c) then some (.run { s with cur := { core := c } } .laneQueueRefill)
        else none)

/-- What a unit does by itself in this cycle, beside the steps that have a name: a publication table, a store
of a completion word that waits, a kick that waits, a firing that has lost an access or holds a message, firmware that
changes over to a new image, events that go to the host's sessions. -/
def State.dueTurn (s : State) : Option State :=
  (s.cores.findSome? (fun (p : Nat × Core) => if p.2.port.pubs.isEmpty then none else s.pubTurn p.1)).orElse (fun _ =>
  (s.cores.findSome? (fun (p : Nat × Core) => (p.2.chains.map (·.1)).findSome? (s.storeTurn p.1))).orElse (fun _ =>
  s.kickTurn.orElse (fun _ =>
  ((List.range Config.nDies).findSome? s.collFail).orElse (fun _ =>
  ((List.range Config.nDies).findSome? s.inboxTurn).orElse (fun _ => s.switchTurn.orElse (fun _ => s.hostTurn))))))

/-- A due thing as a choice. -/
def State.take (s : State) (d : Due) : Option Choice := d.map (fun x => .run { s with cur := x.1 } x.2)

/-- The first thing that is due in this cycle. -/
def State.pick (s : State) : Option Choice :=
  let dies := List.range Config.nDies
  (s.take (s.dueMessage)).orElse (fun _ =>
  (s.dueTurn.map Choice.idle).orElse (fun _ =>
  (s.take (s.cores.findSome? (fun (p : Nat × Core) => s.dueCore p.1 p.2))).orElse (fun _ =>
  (s.take (s.cores.findSome? (fun (p : Nat × Core) => s.dueChains p.1 p.2))).orElse (fun _ =>
  (s.take s.dueLaunch).orElse (fun _ =>
  (s.take (dies.findSome? s.dueQueue)).orElse (fun _ =>
  (s.take (dies.findSome? s.dueColl)).orElse (fun _ =>
  (s.take s.dueLink).orElse (fun _ =>
  ((s.cores.findSome? (fun (p : Nat × Core) => s.dueWord p.1 p.2)).map (fun p => ({ s with cur := p }).wordNow)).orElse (fun _ =>
  (s.take (s.cores.findSome? (fun (p : Nat × Core) => s.dueMatrix p.1 p.2))).orElse (fun _ =>
  (s.cores.findSome? (fun (p : Nat × Core) => s.dueContext p.1 p.2)).orElse (fun _ =>
  s.take (s.cores.findSome? (fun (p : Nat × Core) => s.dueLate p.1 p.2)))))))))))))

/-! The step -/

/-- The steps by which a gathering port or a collective engine starts an operation, which throttling holds (R454). -/
def startsEngine : Instr → Bool
  | .portStart | .segmentRequest | .commandStart | .mxStart | .migrationOffer | .collCombine .. | .collBroadcastPull .. => true
  | _ => false

/-- A turn of the agenda: what cannot issue or start before a later cycle lets the cycle pass first. -/
def State.turn (s : State) (t : Turn) (rest : List Turn) : Choice :=
  let s' := { s with cur := t.place, agenda := rest }
  match t.act with
  | .step i => if startsEngine i && s.throttled (match i with
      | .collCombine d _ _ | .collBroadcastPull d _ _ => collCore d
      | _ => t.place.core) then .idle s.tick else .run s' i
  | .word => if s.throttled t.place.core then .idle s.tick else s'.wordNow
  | .issue =>
    if s.issues t.place.core t.place.role && !(t.place.role != .F && s.throttled t.place.core) then s'.issueNow
    else if s.later t.place.core t.place.role then .idle s.tick
    else .idle s'
  | .resume =>
    if s.goesOn t.place.core t.place.role then s'.runNow
    else if s.later t.place.core t.place.role then .idle s.tick
    else .idle s'

/-- What comes about while step 6 of dawn waits for the time of the reference: links, time and the platform (R426, R449). -/
def duringDawn : Instr → Bool
  | .flitReceive .. | .flitResend .. | .linkUp .. | .linkDown .. | .laneSpare .. | .linkTableRow .. | .moduleInsert .. | .moduleRemove ..
  | .ptpMessage .. | .lostLock | .arrayError .. | .scrub .. | .throttle .. | .thermalShutdown => true
  | _ => false

/-- The step while step 6 of dawn waits: no launch, kick or pull is accepted, and nothing of a core runs (R449). -/
def State.aligning (s : State) : Choice :=
  match s.agenda with
  | { act := .step i, place := p } :: rest => if duringDawn i then .run { s with agenda := rest, cur := p } i else .idle { s with agenda := rest }
  | _ :: rest => .idle { s with agenda := rest }
  | [] =>
    let rows := (List.range s.net.length).findSome? (fun i => match s.net[i]? with
      | some m => due (bodyKind m.body == 11 && !s.notFirst i) {} (.linkTableRow i)
      | none => none)
    ((s.take rows).orElse (fun _ => s.take s.dueLink)).getD (.idle s.tick)

/-- What comes about before dawn: the reset is released, and links and the platform (R449). -/
def beforeDawn : Instr → Bool
  | .dawn _ => true
  | i => duringDawn i

/-- What comes about in recovery: the host's session and its requests, which refuse all but a staging image and a restart, a new dawn, and links and the
platform (R450). -/
def inRecovery : Instr → Bool
  | .dawn _ | .hostOpen .. | .datagramReceive .. | .hostRead .. | .hostWrite .. | .restartRequest => true
  | i => duringDawn i

/-- The next turn of the agenda where it is one of those that may come about; any other is dropped: no launch, kick or pull is accepted (R449,
R450). -/
def State.only (s : State) (ok : Instr → Bool) (rest : Choice) : Choice :=
  match s.agenda with
  | [] => rest
  | { act := .step i, place := p } :: more => if ok i then .run { s with agenda := more, cur := p } i else .idle { s with agenda := more }
  | _ :: more => .idle { s with agenda := more }

/-- What the next step does. -/
def State.choose (s : State) : Choice :=
  match s.phase, s.agenda with
  | .off, { act := .step (.dawn k), place := _ } :: rest => .run { s with agenda := rest } (.dawn k)
  | .off, _ => .off
  | .aligning, _ => s.aligning
  | .reset, _ => s.only beforeDawn (.run s (.dawn s.dawnCfg))
  | .recovery, _ => s.only inRecovery (.idle s.tick)
  | .up, t :: rest => s.turn t rest
  | .up, [] => s.pick.getD (.idle s.tick)

end Sys2Proof.Machine
end

