-- ==== Sys2Proof/Machine/Step.lean ====
section
/-! DEFINITION. The step of the package, and an instruction placed where the next step takes it. -/
namespace Sys2Proof.Machine

/-- One step: what `State.choose` names. -/
def step (s : State) : Host.Outcome State Fault Refusal :=
  match s.choose with
  | .off => .fault .packageOff
  | .idle t => .next t
  | .run t i => exec i t

/-- Where `withFetchWord` places an instruction word: virtual address and frame. -/
def fetchAt : Nat := 0x10000

/-- The page through which the placed instruction is fetched (R216). -/
def fetchLeaf : Leaf :=
  { asid := 0, va := fetchAt, size := 0x10000, frame := fetchAt, key := 0, htgt := 0, home := 0, x := true, w := true }

/-- A launch in single-context mode that runs on core 0 with the whole scratchpad and every tile (R167). -/
def fetchLaunch : Launch :=
  { seq := 1
    rcd := { lentry := 0, centry := BitVec.ofNat 64 fetchAt, sentry := 0, ext := [1, 1, 1], grain := 1, qmask := 1, spbase := 0,
             spsize := 0x300000, order := 0, nstage := 0, tres := 0xFF, tokinit := 0, group := 0, gen := 0, sigop := 0, sigscope := 0,
             args := 0, sigaddr := 0, sigval := 0, reltick := 0, deadline := 0, stages := 0, livemaps := 0 }
    st := [], prio := 0, bank := 0, state := .running, pushQuire := 0, pushedAt := 0, aspace := 0, phys := false, issuer := none,
    queue := none, entered := [0], clock := {} }

/-- The command slot in which `withFetchWord` places an engine word. -/
def fetchSlot : Nat := 0x100000

/-- A command of chain `n` that stands at its first word. -/
def fetchEnq : Enq :=
  { seq := 1, scope := .core, age := 0, role := .C, launch := 1, pages := [], vas := [], tiles := [], promise := 0, clock := {},
    status := 1 }

/-- `s` with an instruction of the opcode table where the next step takes it (log 10): an engine word in the running command
of a chain of core 0, any other word at the PC of the computer of core 0, in a launch that runs there. -/
def State.withFetchWord (s : State) (nbits w : Nat) : State :=
  let s := { s with phase := .up }
  if nbits ≤ 16 then
    let v := w % 2 ^ nbits
    let n := (((decodeEngine v).map wordChains).getD []).headD 0
    let s := s.modCore 0 (fun k => (k.setReg (0x300 + n) (BitVec.ofNat 64 fetchSlot)).setReg (0x318 + n) 1)
    let s := s.modChain 0 n (fun _ => { cmds := [fetchEnq], run := some { seq := 1 } })
    let s := (s.clearBad (fetchSlot + 0x80) 12).writeKey 0 (fetchSlot + 0x80) (leBytes 2 v ++ leBytes 10 0)
    { s with agenda := [{ place := { core := 0, chain := n }, act := .word }] }
  else
    let key : Key := { serial := 0, bits := 0 }
    let s := { s with keys := SMap.set none s.keys 0 (some ((s.keyAt 0).getD key)), launches := [fetchLaunch] }
    let s := s.modDie 0 (fun d => { d with throttle := 0 })
    let s := s.modCore 0 (fun k => { (k.setReg 0x201 0) with launch := 1, single := true, fwAt := 0, tlb := [fetchLeaf] })
    let s := s.modCtx 0 .C (fun x =>
      { x with pc := BitVec.ofNat 64 fetchAt, run := .running, nextIssue := 0, wait := none, made := false, latch := none, push := [], ending := none })
    let s := (s.clearBad fetchAt 8).writeKey 0 fetchAt (leBytes 8 (w % 2 ^ nbits))
    { s with agenda := [{ place := { core := 0, role := .C }, act := .issue }] }

end Sys2Proof.Machine
end

