-- ==== Sys2Proof/Safety.lean ====
section
/-! DEFINITION. What counts as a safe run, and the terms in which claims speak of one instruction: when it issues with its
own effect, the state that its effect is computed from, and what it leaves unchanged. -/
namespace Sys2Proof.Machine

/-! Safe runs -/

/-- A step that goes on: the package is not off and nothing is refused. -/
def State.answers (s : State) : Bool :=
  match step s with
  | .next _ => true
  | .fault _ => false
  | .refused _ => false

/-- `n` steps that all go on. -/
def State.safeFor (s : State) : Nat → Bool
  | 0 => true
  | n + 1 => match step s with
    | .next t => State.safeFor t n
    | .fault _ => false
    | .refused _ => false

/-! Issue of an instruction by the current context (R83) -/

/-- The FIFOs that an instruction's TOK bits pop and push for the current context (R64). -/
def State.toksOf (s : State) (h : Hdr) : Option (List Nat × List Nat) := tokens h s.cur.role (s.core s.cur.core).single

/-- The FIFOs that it pushes. -/
def State.pushesOf (s : State) (h : Hdr) : List Nat := ((s.toksOf h).map (fun p => p.2)).getD []

/-- The FIFOs that it pops. -/
def State.popsOf (s : State) (h : Hdr) : List Nat := ((s.toksOf h).map (fun p => p.1)).getD []

/-- Its pops were made before it went to sleep or was stopped (R118). -/
def State.popsMade (s : State) : Bool :=
  (s.ctx s.cur.core s.cur.role).made || (s.ctx s.cur.core s.cur.role).popsHeld

/-- The state with the results landed that an instruction with operands `ts` sees landed (R26). -/
def State.landed (s : State) (ts : List Target) : State :=
  s.modCore s.cur.core (fun k => (k.landBy s.gtc).interlock ts)

/-- The state after the pops, on which the instruction's own effect is computed. -/
def State.atIssue (s : State) (h : Hdr) (ts : List Target) : State :=
  if s.popsMade then (s.landed ts).modCtx s.cur.core s.cur.role (fun x => { x.clearHeld with made := true })
  else (s.popsOf h).foldl State.pop (s.landed ts)

/-- Every condition of R83 holds: the TOK bits name FIFOs, the context has the right, the pops can be made, no operand lies in
a busy tile, and the checking scoreboard finds no early access. -/
def State.mayIssue (s : State) (h : Hdr) (rt : Rights) (ts : List Target) : Bool :=
  let k := (s.landed ts).core s.cur.core
  (s.toksOf h).isSome && allowed rt (s.core s.cur.core).single s.cur.role &&
    (s.popsMade || (s.core s.cur.core).popReady (s.popsOf h)) && !k.busy ts && !(Nat.testBit (k.reg 0).toNat 0 && k.early ts)

/-- A push of the TOK bits would have to wait (R162, R254). -/
def State.pushWaits (s : State) (h : Hdr) (ts : List Target) : Bool :=
  (s.pushesOf h).any (fun q => !(s.atIssue h ts).canPush s.cur.core (s.atIssue h ts).me q)

/-- The end of the context, a release, would have to wait (R162, R164, R254). -/
def State.endWaits (s : State) (h : Hdr) (ts : List Target) : Bool :=
  s.pushWaits h ts || (s.atIssue h ts).owes (s.atIssue h ts).me

/-- Instruction `i`, issued by the current context under the conditions of R83, has the effect `f`, and the context goes on to
the next word. -/
def Completes (h : Hdr) (rt : Rights) (ts : List Target) (i : Instr) (s : State) (f : State → State) : Prop :=
  s.mayIssue h rt ts = true → exec i s = .next ((f (s.atIssue h ts)).finish h (s.pushesOf h) (s.pc + 8) 0)

/-- The same for an instruction whose own operands must pass a check `ok` at the issue. -/
def CompletesIf (h : Hdr) (rt : Rights) (ts : List Target) (i : Instr) (s : State) (ok : State → Prop) (f : State → State) : Prop :=
  s.mayIssue h rt ts = true → ok (s.atIssue h ts) →
    exec i s = .next ((f (s.atIssue h ts)).finish h (s.pushesOf h) (s.pc + 8) 0)

/-- The same for a vector instruction: the launch reserves the tile that ACCSEL selects (R158). -/
def CompletesV (h : Hdr) (ts : List Target) (i : Instr) (s : State) (f : State → State) : Prop :=
  CompletesIf h .comp ts i s (fun t => t.tileOk t.cur.core (t.core t.cur.core).accsel = true) f

/-- Instruction `i`, issued under the conditions of R83 but failing its own check, traps at itself with no effect (R370). -/
def TrapsIf (h : Hdr) (rt : Rights) (ts : List Target) (i : Instr) (s : State) (bad : State → Prop) (cause sub : Nat)
    (val : Word) : Prop :=
  s.mayIssue h rt ts = true → bad (s.atIssue h ts) →
    exec i s = .next ((s.landed ts).takeTrap s.cur.core s.cur.role cause sub val 0 s.pc)

/-- Instruction `i`, issued under the conditions of R83, waits after its pops and has not completed (R118). -/
def SleepsIf (h : Hdr) (rt : Rights) (ts : List Target) (i : Instr) (s : State) (waits : State → Prop) (w : State → Wait) : Prop :=
  s.mayIssue h rt ts = true → waits (s.atIssue h ts) →
    exec i s = .next ((s.atIssue h ts).sleepNow (w (s.atIssue h ts)) true)

/-- Branch `i`, issued under the conditions of R83, leaves `f` and goes on at `target`, a code address other than 0, after
`bubbles` cycles (R106, R107). -/
def JumpsIf (h : Hdr) (ts : List Target) (i : Instr) (s : State) (taken : State → Prop) (f : State → State)
    (target : State → Word) (bubbles : State → Nat) : Prop :=
  s.mayIssue h .all ts = true → taken (s.atIssue h ts) → isCode (target (s.atIssue h ts)) = true → target (s.atIssue h ts) ≠ 0 →
    exec i s = .next ((f (s.atIssue h ts)).finish h (s.pushesOf h) (target (s.atIssue h ts)) (bubbles (s.atIssue h ts)))

/-! The scalar tables of the manual (R94, R97, R98), written with its own formulas -/

/-- Number of zero bits above the highest set bit, 64 for 0 (R97). -/
def zerosAbove (a : Word) : Nat := ((List.range 64).takeWhile (fun i => !a.getLsbD (63 - i))).length
/-- Number of zero bits below the lowest set bit, 64 for 0 (R97). -/
def zerosBelow (a : Word) : Nat := ((List.range 64).takeWhile (fun i => !a.getLsbD i)).length
/-- Number of set bits (R97). -/
def setBits (a : Word) : Nat := ((List.range 64).map (fun i => (a.getLsbD i).toNat)).sum
/-- Signed quotient rounded toward zero, all ones for a divisor of 0 (R58). -/
def quotient (a b : Word) : Word := if b = 0 then BitVec.allOnes 64 else BitVec.ofInt 64 (a.toInt.tdiv b.toInt)
/-- Signed remainder with the sign of the dividend, the dividend for a divisor of 0 (R58). -/
def remainder (a b : Word) : Word := if b = 0 then a else BitVec.ofInt 64 (a.toInt.tmod b.toInt)
/-- Unsigned quotient (R58). -/
def quotientN (a b : Word) : Word := if b = 0 then BitVec.allOnes 64 else BitVec.ofNat 64 (a.toNat / b.toNat)
/-- Unsigned remainder (R58). -/
def remainderN (a b : Word) : Word := if b = 0 then a else BitVec.ofNat 64 (a.toNat % b.toNat)
/-- 1 for a relation that holds, else 0 (R97, R98). -/
def oneIf (p : Prop) [Decidable p] : Word := if p then 1 else 0

/-- The forms with two register operands, what G[D] becomes, and the latency; `none` is a variable one (R94, R97). -/
def threeRegisterForms : List ((Hdr → GReg → GReg → GReg → Instr) × (Word → Word → Word) × Option Nat) :=
  [(.add, fun a b => a + b, some 1), (.sub, fun a b => a - b, some 1), (.mul, fun a b => a * b, some 3),
   (.mulh, fun a b => (a.signExtend 128 * b.signExtend 128).extractLsb' 64 64, some 3),
   (.mulhn, fun a b => (a.setWidth 128 * b.setWidth 128).extractLsb' 64 64, some 3),
   (.and, fun a b => a &&& b, some 1), (.or, fun a b => a ||| b, some 1), (.xor, fun a b => a ^^^ b, some 1),
   (.andn, fun a b => a &&& ~~~b, some 1), (.shl, fun a b => a <<< (b.extractLsb' 0 6).toNat, some 1),
   (.shr, fun a b => a >>> (b.extractLsb' 0 6).toNat, some 1), (.sar, fun a b => a.sshiftRight (b.extractLsb' 0 6).toNat, some 1),
   (.rol, fun a b => a <<< (b.extractLsb' 0 6).toNat ||| a >>> (64 - (b.extractLsb' 0 6).toNat), some 1),
   (.min, fun a b => if a.sle b then a else b, some 1), (.max, fun a b => if b.sle a then a else b, some 1),
   (.minn, fun a b => if a.ule b then a else b, some 1), (.maxn, fun a b => if b.ule a then a else b, some 1),
   (.seq, fun a b => oneIf (a = b), some 1), (.sne, fun a b => oneIf (a ≠ b), some 1),
   (.slt, fun a b => oneIf (a.slt b), some 1), (.sltn, fun a b => oneIf (a.ult b), some 1)]

/-- The divides and what they leave for G[D], which lands after a variable time (R58, R94, R97). -/
def divideForms : List ((Hdr → GReg → GReg → GReg → Instr) × (Word → Word → Word)) :=
  [(.div, quotient), (.divn, quotientN), (.rem, remainder), (.remn, remainderN)]

/-- The operands of a divide of the current context, its divider among them (R94). -/
def State.divideOps (s : State) (d a b : GReg) : List Target := [s.gT a, s.gT b, s.gT d, .divider s.cur.role]

/-- The forms with three register operands (R94, R97). -/
def fourRegisterForms : List ((Hdr → GReg → GReg → GReg → GReg → Instr) × (Word → Word → Word → Word) × Option Nat) :=
  [(.sel, fun a b c => if c ≠ 0 then a else b, some 1), (.madd, fun a b c => a * b + c, some 3)]

/-- The forms with one register operand (R94, R97). -/
def twoRegisterForms : List ((Hdr → GReg → GReg → Instr) × (Word → Word)) :=
  [(.clz, fun a => BitVec.ofNat 64 (zerosAbove a)), (.ctz, fun a => BitVec.ofNat 64 (zerosBelow a)),
   (.popc, fun a => BitVec.ofNat 64 (setBits a))]

/-- The forms with a 32-bit immediate; `sx` and `zx` of it as R70 gives (R94, R98). -/
def immediateForms : List ((Hdr → GReg → GReg → BitVec 32 → Instr) × (Word → BitVec 32 → Word) × Option Nat) :=
  [(.addi, fun a e => a + e.signExtend 64, some 1), (.andi, fun a e => a &&& e.setWidth 64, some 1),
   (.ori, fun a e => a ||| e.setWidth 64, some 1), (.xori, fun a e => a ^^^ e.setWidth 64, some 1),
   (.slti, fun a e => oneIf (a.slt (e.signExtend 64)), some 1), (.sltni, fun a e => oneIf (a.ult (e.signExtend 64)), some 1),
   (.muli, fun a e => a * e.signExtend 64, some 3),
   (.lih, fun a e => e.setWidth 64 <<< 32 ||| (a.extractLsb' 0 32).setWidth 64, some 1)]

/-- The shifts by an immediate (R98). -/
def shiftForms : List ((Hdr → GReg → GReg → BitVec 6 → Instr) × (Word → Nat → Word)) :=
  [(.shli, fun a n => a <<< n), (.shri, fun a n => a >>> n), (.sari, fun a n => a.sshiftRight n)]

/-! Rights (R157) -/

/-- The header of an instruction and its row of the role-rights table, as the manual groups the majors; none for ILLOP and for
steps that no instruction word encodes (R157). -/
def rightsOf : Instr → Option (Hdr × Rights)
  | .add h _ _ _ => some (h, .all)
  | .sub h _ _ _ => some (h, .all)
  | .mul h _ _ _ => some (h, .all)
  | .mulh h _ _ _ => some (h, .all)
  | .mulhn h _ _ _ => some (h, .all)
  | .div h _ _ _ => some (h, .all)
  | .divn h _ _ _ => some (h, .all)
  | .rem h _ _ _ => some (h, .all)
  | .remn h _ _ _ => some (h, .all)
  | .and h _ _ _ => some (h, .all)
  | .or h _ _ _ => some (h, .all)
  | .xor h _ _ _ => some (h, .all)
  | .andn h _ _ _ => some (h, .all)
  | .shl h _ _ _ => some (h, .all)
  | .shr h _ _ _ => some (h, .all)
  | .sar h _ _ _ => some (h, .all)
  | .rol h _ _ _ => some (h, .all)
  | .min h _ _ _ => some (h, .all)
  | .max h _ _ _ => some (h, .all)
  | .minn h _ _ _ => some (h, .all)
  | .maxn h _ _ _ => some (h, .all)
  | .seq h _ _ _ => some (h, .all)
  | .sne h _ _ _ => some (h, .all)
  | .slt h _ _ _ => some (h, .all)
  | .sltn h _ _ _ => some (h, .all)
  | .sel h _ _ _ _ => some (h, .all)
  | .madd h _ _ _ _ => some (h, .all)
  | .addi h _ _ _ => some (h, .all)
  | .andi h _ _ _ => some (h, .all)
  | .ori h _ _ _ => some (h, .all)
  | .xori h _ _ _ => some (h, .all)
  | .shli h _ _ _ => some (h, .all)
  | .shri h _ _ _ => some (h, .all)
  | .sari h _ _ _ => some (h, .all)
  | .slti h _ _ _ => some (h, .all)
  | .sltni h _ _ _ => some (h, .all)
  | .muli h _ _ _ => some (h, .all)
  | .li h _ _ => some (h, .all)
  | .lih h _ _ _ => some (h, .all)
  | .clz h _ _ => some (h, .all)
  | .ctz h _ _ => some (h, .all)
  | .popc h _ _ => some (h, .all)
  | .bfx h _ _ _ _ _ => some (h, .all)
  | .bfi h _ _ _ _ => some (h, .all)
  | .lds h _ _ _ _ _ => some (h, .all)
  | .sts h _ _ _ _ _ => some (h, .all)
  | .bcc h _ _ _ _ => some (h, .all)
  | .j h _ => some (h, .all)
  | .pbr h _ _ => some (h, .all)
  | .br h _ => some (h, .all)
  | .brl h _ => some (h, .all)
  | .jr h _ => some (h, .all)
  | .nop h => some (h, .all)
  | .srd h _ _ => some (h, .all)
  | .swr h _ _ => some (h, .all)
  | .waitt h _ => some (h, .all)
  | .waittP h _ _ => some (h, .all)
  | .wfe h => some (h, .all)
  | .sev h => some (h, .all)
  | .sevRemote h _ => some (h, .all)
  | .halt h => some (h, .all)
  | .vadd h _ _ _ _ _ _ _ => some (h, .comp)
  | .vsub h _ _ _ _ _ _ _ => some (h, .comp)
  | .vmul h _ _ _ _ _ _ _ => some (h, .comp)
  | .vfma h _ _ _ _ _ _ _ _ => some (h, .comp)
  | .vfms h _ _ _ _ _ _ _ _ => some (h, .comp)
  | .vmin h _ _ _ _ _ => some (h, .comp)
  | .vmax h _ _ _ _ _ => some (h, .comp)
  | .vabs h _ _ _ _ => some (h, .comp)
  | .vneg h _ _ _ _ => some (h, .comp)
  | .vdiv h _ _ _ _ _ _ _ => some (h, .comp)
  | .vsqrt h _ _ _ _ _ _ => some (h, .comp)
  | .vrcp h _ _ _ _ _ _ => some (h, .comp)
  | .vrsq h _ _ _ _ _ _ => some (h, .comp)
  | .vexp2 h _ _ _ _ _ _ => some (h, .comp)
  | .vlog2 h _ _ _ _ _ _ => some (h, .comp)
  | .viadd h _ _ _ _ _ _ => some (h, .comp)
  | .visub h _ _ _ _ _ _ => some (h, .comp)
  | .vimul h _ _ _ _ _ _ => some (h, .comp)
  | .vand h _ _ _ _ _ => some (h, .comp)
  | .vor h _ _ _ _ _ => some (h, .comp)
  | .vxor h _ _ _ _ _ => some (h, .comp)
  | .vshl h _ _ _ _ _ => some (h, .comp)
  | .vshr h _ _ _ _ _ => some (h, .comp)
  | .vsar h _ _ _ _ _ => some (h, .comp)
  | .vimin h _ _ _ _ _ => some (h, .comp)
  | .vimax h _ _ _ _ _ => some (h, .comp)
  | .vcmp h _ _ _ _ _ _ => some (h, .comp)
  | .vsel h _ _ _ _ _ => some (h, .comp)
  | .kop h _ _ => some (h, .comp)
  | .kpop h _ _ _ => some (h, .comp)
  | .kfirst h _ _ _ => some (h, .comp)
  | .vmov h _ _ _ _ => some (h, .comp)
  | .vbcast h _ _ _ _ => some (h, .comp)
  | .viota h _ _ _ _ => some (h, .comp)
  | .vperm h _ _ _ _ _ => some (h, .comp)
  | .vext h _ _ _ _ => some (h, .comp)
  | .vins h _ _ _ _ => some (h, .comp)
  | .vredsum h _ _ _ _ _ => some (h, .comp)
  | .vredmax h _ _ _ _ => some (h, .comp)
  | .vredmin h _ _ _ _ => some (h, .comp)
  | .vcvt h _ _ _ _ _ _ _ _ => some (h, .comp)
  | .vquant h _ _ _ _ _ _ _ _ => some (h, .comp)
  | .vdeq h _ _ _ _ _ _ _ => some (h, .comp)
  | .vscale h _ _ _ _ _ _ _ _ _ => some (h, .comp)
  | .vcell h _ _ _ _ _ => some (h, .comp)
  | .vhash3 h _ _ _ _ _ _ => some (h, .comp)
  | .vmorton h _ _ _ _ _ => some (h, .comp)
  | .vld h _ _ _ _ _ => some (h, .comp)
  | .vst h _ _ _ _ _ => some (h, .comp)
  | .vldx h _ _ _ _ _ _ _ => some (h, .comp)
  | .vstx h _ _ _ _ _ _ _ => some (h, .comp)
  | .tld h _ _ _ _ _ => some (h, .comp)
  | .tst h _ _ _ _ _ => some (h, .comp)
  | .tzero h _ => some (h, .comp)
  | .tmov h _ _ => some (h, .comp)
  | .ttrans h _ _ => some (h, .comp)
  | .tnext h _ _ _ => some (h, .load)
  | .tnextIdx h _ => some (h, .load)
  | .tdone h _ => some (h, .stor)
  | .toks h _ _ => some (h, .trio)
  | .tokx h _ _ => some (h, .trio)
  | .spush h _ _ _ _ _ => some (h, .comp)
  | .spop h _ _ _ _ _ => some (h, .comp)
  | .sflush h _ _ _ => some (h, .trio)
  | .sreset h _ => some (h, .trio)
  | .lqpush h _ _ _ _ => some (h, .comp)
  | .lqpop h _ _ _ _ => some (h, .comp)
  | .lqstat h _ _ => some (h, .comp)
  | .bar h _ => some (h, .trio)
  | .stgput h _ => some (h, .trio)
  | .stgget h _ _ => some (h, .trio)
  | .safe h _ => some (h, .trio)
  | .launch h _ _ => some (h, .all)
  | .ldg h _ _ _ _ _ => some (h, .all)
  | .stg h _ _ _ _ _ => some (h, .all)
  | .vldg h _ _ _ _ _ => some (h, .comp)
  | .vstg h _ _ _ _ _ => some (h, .comp)
  | .aadd h _ _ _ _ _ _ => some (h, .all)
  | .afadd h _ _ _ _ _ _ => some (h, .all)
  | .amin h _ _ _ _ _ _ => some (h, .all)
  | .amax h _ _ _ _ _ _ => some (h, .all)
  | .aminn h _ _ _ _ _ _ => some (h, .all)
  | .amaxn h _ _ _ _ _ _ => some (h, .all)
  | .afmin h _ _ _ _ _ _ => some (h, .all)
  | .afmax h _ _ _ _ _ _ => some (h, .all)
  | .aand h _ _ _ _ _ _ => some (h, .all)
  | .aor h _ _ _ _ _ _ => some (h, .all)
  | .axor h _ _ _ _ _ _ => some (h, .all)
  | .aswp h _ _ _ _ _ _ => some (h, .all)
  | .acas h _ _ _ _ _ _ => some (h, .all)
  | .abadd h _ _ _ _ _ => some (h, .all)
  | .red h _ _ _ _ _ => some (h, .all)
  | .redc h _ _ _ _ _ _ _ _ => some (h, .all)
  | .fence h _ _ => some (h, .all)
  | .xfence h _ _ => some (h, .all)
  | .pref h _ _ => some (h, .all)
  | .cflush h _ _ => some (h, .all)
  | .cinv h _ _ => some (h, .all)
  | .waitv h _ _ _ _ _ _ => some (h, .all)
  | .enq h _ _ _ .copy => some (h, .all)
  | .enq h _ _ _ .mtx => some (h, .comp)
  | .enq h _ _ _ .mq1 => some (h, .comp)
  | .enq h _ _ _ .gath => some (h, .load)
  | .enq h _ _ _ .coll => some (h, .stor)
  | .eseq h _ _ => some (h, .all)
  | .waitseq h _ _ _ => some (h, .all)
  | .prom h _ _ => some (h, .all)
  | .ecancel h _ _ _ => some (h, .all)
  | .notice h _ _ => some (h, .stor)
  | .decline h _ _ => some (h, .all)
  | .pullrel h _ => some (h, .all)
  | .nrecv h _ _ => some (h, .all)
  | .tready h _ _ => some (h, .stor)
  | .cstat h _ _ => some (h, .all)
  | .cstatBm h _ _ _ => some (h, .all)
  | .cabort h _ _ => some (h, .all)
  | .trap h _ => some (h, .all)
  | .eret h => some (h, .fw)
  | .eretReclaim h => some (h, .fw)
  | .fwcall h _ _ _ => some (h, .trio)
  | .ctxsave h _ => some (h, .fw)
  | .ctxsaveFull h _ => some (h, .fw)
  | .ctxload h _ => some (h, .fw)
  | .tlbinvPage h _ _ => some (h, .fw)
  | .tlbinvAsid h _ => some (h, .fw)
  | .tlbinvAll h => some (h, .fw)
  | .keyload h _ _ => some (h, .fw)
  | .keyloadClr h _ => some (h, .fw)
  | _ => none

/-- The contexts that a row of the table marks; in single-context mode C holds the rights of L, C and S (R157). -/
def marked : Rights → List Role
  | .all => [.L, .C, .S, .F]
  | .trio => [.L, .C, .S]
  | .comp => [.C]
  | .load => [.L]
  | .stor => [.S]
  | .fw => [.F]

/-- The context may issue by its row (R157). -/
def hasRight (rt : Rights) (single : Bool) (r : Role) : Prop :=
  r ∈ marked rt ∨ (single = true ∧ r = .C ∧ (Role.L ∈ marked rt ∨ Role.S ∈ marked rt))

/-! Accesses of the current context (R31, R32, R237 to R245, R385) -/

/-- The ordinary access of the current context over physical spans. -/
def State.myAccess (s : State) (write : Bool) (spans : List (Nat × Nat)) : Touch :=
  { agent := s.me, write := write, sync := false, spans := spans }

/-- Nothing refuses an ordinary read of these spans: no conflict, no held line, no lost byte. -/
def State.mayRead (s : State) (spans : List (Nat × Nat)) : Prop :=
  s.clash (s.myAccess false spans) = none ∧ s.badIn spans = none

/-- Nothing refuses an ordinary write of these scratchpad spans: no pinned block where firmware writes (R347), no conflict, no held line, no
lost byte that it keeps. -/
def State.mayWrite (s : State) (spans : List (Nat × Nat)) : Prop :=
  (s.cur.role = .F → ∀ p ∈ spans, s.pinned .firmware p.1 p.2 = false) ∧ s.clash (s.myAccess true spans) = none ∧ (s.bad = [] ∨ spans.findSome? (fun p => s.badPartial p.1 p.2) = none)

/-- The `n` scratchpad bytes at effective address `e` under a swizzle, as physical spans of the current core (R32, R212). -/
def State.spAt (s : State) (swz : BitVec 3) (e : Word) (n : Nat) : List (Nat × Nat) :=
  spSpans s.cur.core (spPieces swz e.toNat n)

/-- The access of `n` bytes at `e` is aligned and within the range and the reservation (R31). -/
def State.spFine (s : State) (e : Word) (n : Nat) : Prop := s.spCheck s.cur.core s.cur.role e n n = none

/-! Exceptions -/

/-- The conditions of R379 for a precise trap of context `r` of core `c`. -/
def State.delegates (s : State) (c : Nat) (r : Role) (cause : Nat) : Prop :=
  r ≠ .F ∧ (∃ p ∈ [(0x04, 0), (0x22, 1), (0x31, 2), (0x32, 3), (0x33, 4)], p.1 = cause ∧ ((s.core c).reg 0x405).getLsbD p.2 = true) ∧
    (s.ctx c r).reg 0x410 ≠ 0 ∧ ((s.ctx c r).reg 0x412).getLsbD 62 = false

/-! Lanes (R13, R121, R122) -/

/-- The mask bit that governs lane `i`, two lanes of 4-bit elements to a bit (R13). -/
def State.lit (s : State) (k : KReg) (ty : ETy) (i : Nat) : Bool := (s.kreg k).getLsbD (i / perBit ty)

/-- The mask bit with the number of the lane, as conversions and the moves count (R13, R135). -/
def State.bit (s : State) (k : KReg) (i : Nat) : Bool := (s.kreg k).getLsbD i

/-- A row write of `mask` and `value` puts `f i` into each of the `n` lanes that `on` marks, and changes no other bit. -/
def WritesLanes (bits n : Nat) (on : Nat → Bool) (mask value : Nat) (f : Nat → Nat) : Prop :=
  mask < 2 ^ (bits * n) ∧ ∀ i, i < n → ∀ j, j < bits →
    mask.testBit (i * bits + j) = on i ∧ (on i = true → value.testBit (i * bits + j) = (f i).testBit j)

/-- Vector instruction `i` puts `f` into the lanes of V[d] that `on` marks, with latency `lat`, where the launch reserves the
accumulator tile, and changes nothing else. -/
def PutsLanes (h : Hdr) (ts : List Target) (i : Instr) (s : State) (bits n : Nat) (on : State → Nat → Bool) (lat : Option Nat)
    (d : VReg) (f : State → Nat → Nat) : Prop :=
  s.mayIssue h .comp ts = true →
    let t := s.atIssue h ts
    t.tileOk t.cur.core (t.core t.cur.core).accsel = true →
    ∃ mask value, exec i s = .next ((t.putV d mask value lat).finish h (s.pushesOf h) (s.pc + 8) 0) ∧
      WritesLanes bits n (on t) mask value (f t)

/-- The generator after `n` draws (R47). -/
def drawn (seed : Word) : Nat → Word
  | 0 => seed
  | n + 1 => drawn (seedDraw seed).1 n

/-- Lanes below `n` that are marked. -/
def countOn (on : Nat → Bool) (n : Nat) : Nat := ((List.range n).filter on).length

/-- The random value of lane `j` under RSTO: one draw for each marked lane, in increasing order (R47). -/
def laneDraw (m : Rm) (seed : Word) (on : Nat → Bool) (j : Nat) : Nat :=
  if m = .rsto then (seedDraw (drawn seed (countOn on j))).2 else 0

/-- Vector instruction `i` rounds `out` in each lane of V[d] that `on` marks: FSTAT takes the sticky bits and MAXMAG the magnitude
`mag` at the ready cycle, the generator moves at issue by one draw a lane, and `post` puts the scales (R47, R49 to R53). -/
def RoundsLanes (h : Hdr) (ts : List Target) (i : Instr) (s : State) (ok : State → Prop) (bits n : Nat) (on : State → Nat → Bool)
    (rm : RmCode) (lat : Nat) (d : VReg) (out : State → Rm → Nat → Nat → Rounded) (nan : State → Prop) (mag : State → Nat → Prop)
    (post : State → State → Prop) : Prop :=
  s.mayIssue h .comp ts = true →
    let t := s.atIssue h ts
    t.tileOk t.cur.core (t.core t.cur.core).accsel = true → ok t →
    let m := t.rm rm
    let lane (j : Nat) : Rounded := out t m (laneDraw m t.seed (on t) j) j
    ∃ mask value st mg u,
      exec i s = .next (u.finish h (s.pushesOf h) (s.pc + 8) 0) ∧
      post ((((t.setSeed (if m = .rsto then drawn t.seed (countOn (on t) n) else t.seed)).putV d mask value (some lat)).putSticky st
        lat).putMag mg lat) u ∧
      WritesLanes bits n (on t) mask value (fun j => (lane j).bits) ∧ mag t mg ∧ st < 8 ∧
      (st.testBit 2 = true ↔ ∃ j, j < n ∧ on t j = true ∧ (lane j).unf = true) ∧
      (st.testBit 1 = true ↔ ∃ j, j < n ∧ on t j = true ∧ (lane j).ovf = true) ∧ (st.testBit 0 = true ↔ nan t)

/-- The floating-point types with the widths of exponent and mantissa and the bias (R38). -/
def floatLayouts : List (ETy × Nat × Nat × Nat) :=
  [(.f32, 8, 23, 127), (.f16, 5, 10, 15), (.bf16, 8, 7, 127), (.e4m3, 4, 3, 7), (.e5m2, 5, 2, 15), (.e2m1, 2, 1, 1)]

/-- The types whose greatest exponent code holds the infinities and the NaNs (R38). -/
def hasInf (ty : ETy) : Bool := ty == .f32 || ty == .f16 || ty == .bf16 || ty == .e5m2

/-- The greatest finite magnitude code of a type with `e` exponent and `m` mantissa bits (R38). -/
def topCode (ty : ETy) (e m : Nat) : Nat := if hasInf ty then 2 ^ (e + m) - 2 ^ m - 1 else if ty = .e4m3 then 0x7E else 0x7

/-- The magnitude of code `c` with `m` mantissa bits, in units of the smallest subnormal, the exponent unbounded above (R38, R46). -/
def magnitude (m c : Nat) : Nat := if c / 2 ^ m = 0 then c else (2 ^ m + c % 2 ^ m) * 2 ^ (c / 2 ^ m - 1)

/-- The rounded magnitude is the upper neighbour, for a value `x / gap` of the way up from the lower one, whose mantissa bit 0 is `odd` (R46,
R48). -/
def goesUp (rm : Rm) (neg odd : Bool) (r x gap : Nat) : Bool :=
  x != 0 && match rm with
    | .rne => decide (gap < 2 * x) || (decide (gap = 2 * x) && odd)
    | .rtz => false
    | .rdn => neg
    | .rup => !neg
    | .rna => decide (gap ≤ 2 * x)
    | .rsto => decide (r * gap < 65536 * x)

/-- What an overflow writes: the greatest finite magnitude, an infinity, or the NaN of e4m3 (R49). -/
def overflowed (ty : ETy) (e m : Nat) (rm : Rm) (sat neg : Bool) : Nat :=
  let sign := if neg then 2 ^ (e + m) else 0
  if hasInf ty then sign + topCode ty e m + (if sat || rm == .rtz || (rm == .rdn && !neg) || (rm == .rup && neg) then 0 else 1)
  else if ty = .e4m3 ∧ sat = false then 0x7F else sign + topCode ty e m

/-- One signed term of a ds8 byte, in 64ths (R42). -/
def shiftTerm (sign code : Nat) : Int := if code = 7 then 0 else (if sign = 1 then -1 else 1) * (2 ^ (6 - code) : Nat)

/-- Node `i` of level `j` of the tree over `2^k` leaves; under RSTO the nodes draw level by level, each in increasing order (R57). -/
def sumNode (rm : Rm) (seed : Word) (k : Nat) (leaf : Nat → Nat) : Nat → Nat → Nat
  | 0, i => leaf i
  | j + 1, i =>
    let draw := if rm = .rsto then (seedDraw (drawn seed (2 ^ k - 2 ^ (k - j) + i))).2 else 0
    (roundTo .f32 rm draw false
      (xAdd (rm == .rdn) (xOf .f32 (sumNode rm seed k leaf j (2 * i))) (xOf .f32 (sumNode rm seed k leaf j (2 * i + 1))))).bits

/-- The floating operations of two exact values, before the one rounding, with their latencies (R54, R55, R123, R127). -/
def floatForms : List ((Hdr → KReg → ETy → RmCode → Bool → VReg → VReg → VReg → Instr) × (Rm → XVal → XVal → XVal) × Nat) :=
  [(.vadd, fun m x y => xAdd (m == .rdn) x y, 4), (.vsub, fun m x y => xAdd (m == .rdn) x y.flip, 4), (.vmul, fun _ x y => xMul x y, 4),
   (.vdiv, fun _ x y => xDiv x y, 12)]

/-- The fused operations of three exact values (R54, R127). -/
def fusedForms : List ((Hdr → KReg → ETy → RmCode → Bool → VReg → VReg → VReg → VReg → Instr) × (Rm → XVal → XVal → XVal → XVal)) :=
  [(.vfma, fun m x y z => xAdd (m == .rdn) (xMul x y) z), (.vfms, fun m x y z => xAdd (m == .rdn) (xMul x y) z.flip)]

/-- The special functions of one exact value (R55, R127). -/
def specialForms : List ((Hdr → KReg → ETy → RmCode → Bool → VReg → VReg → Instr) × (XVal → XVal)) :=
  [(.vsqrt, xSqrt), (.vrcp, xRcp), (.vrsq, xRsqrt), (.vexp2, xExp2), (.vlog2, xLog2)]

/-- An element as the integer of its type (R36, R128). -/
def laneInt (ty : ETy) (x : Nat) : Int := if etySigned ty then (BitVec.ofNat (etyBits ty) x).toInt else (x % 2 ^ etyBits ty : Nat)

/-- The least and the greatest integer of a type (R36). -/
def laneRange (ty : ETy) : Int × Int :=
  if etySigned ty then (-(2 ^ (etyBits ty - 1) : Nat), (2 ^ (etyBits ty - 1) : Nat) - 1) else (0, (2 ^ etyBits ty : Nat) - 1)

/-- `fit` of R128: saturated to the range of the type with `.sat`, else wrapped. -/
def laneFit (ty : ETy) (sat : Bool) (v : Int) : Nat :=
  (BitVec.ofInt (etyBits ty) (if sat then max (laneRange ty).1 (min v (laneRange ty).2) else v)).toNat

/-- The integer operations that may saturate (R128). -/
def integerForms : List ((Hdr → KReg → ETy → Bool → VReg → VReg → VReg → Instr) × (Int → Int → Int)) :=
  [(.viadd, fun x y => x + y), (.visub, fun x y => x - y), (.vimul, fun x y => x * y)]

/-- The operations on the bits and on the order of two elements (R56, R127, R128). -/
def elementForms : List ((Hdr → KReg → ETy → VReg → VReg → VReg → Instr) × (ETy → Nat → Nat → Nat)) :=
  [(.vand, fun _ x y => x &&& y), (.vor, fun _ x y => x ||| y), (.vxor, fun _ x y => x ^^^ y),
   (.vshl, fun ty x y => x * 2 ^ (y % etyBits ty)), (.vshr, fun ty x y => x / 2 ^ (y % etyBits ty)),
   (.vsar, fun ty x y => ((BitVec.ofNat (etyBits ty) x).sshiftRight (y % etyBits ty)).toNat),
   (.vimin, fun ty x y => if laneInt ty x ≤ laneInt ty y then x else y), (.vimax, fun ty x y => if laneInt ty y ≤ laneInt ty x then x else y),
   (.vmin, fun ty x y => if isNan ty x ∧ isNan ty y then nanBits ty else if isNan ty x then y else if isNan ty y then x
     else if xLt (xOf ty y) (xOf ty x) then y else x),
   (.vmax, fun ty x y => if isNan ty x ∧ isNan ty y then nanBits ty else if isNan ty x then y else if isNan ty y then x
     else if xLt (xOf ty x) (xOf ty y) then y else x)]

/-- MAXMAG's merge of a `.m` form: the greatest magnitude of the marked elements that are no NaN, as a binary32 code, 0 for none (R53). -/
def topMag (ty : ETy) (n : Nat) (on : Nat → Bool) (x : Nat → Nat) (m : Nat) : Prop :=
  (∀ j, j < n → on j = true → ∀ g, magOf ty (x j) = some g → g ≤ m) ∧
    (m = 0 ∨ ∃ j, j < n ∧ on j = true ∧ magOf ty (x j) = some m)

/-- The scales of a block conversion: the container of each block of 32 elements with a marked one takes its scale (R138, R139). -/
def PutsScales (s u : State) (n : Nat) (on : Nat → Bool) (d : VReg) (scale : Nat → Nat) : Prop :=
  ∃ mask value, u = s.putSide d mask value (some 4) ∧
    WritesLanes 16 (n / 32) (fun b => (List.range 32).any (fun j => on (32 * b + j))) mask value scale

/-- The exact values of the marked elements of block `b`. -/
def blockOf (ty : ETy) (on : Nat → Bool) (x : Nat → Nat) (b : Nat) : List XVal :=
  ((List.range 32).filter (fun j => on (32 * b + j))).map (fun j => xOf ty (x (32 * b + j)))

/-! Global accesses of the current context (R252 to R254) -/

/-- An access of the current context. -/
def State.access (s : State) (write sync : Bool) (spans : List (Nat × Nat)) : Touch :=
  { agent := s.me, write := write, sync := sync, spans := spans }

/-- The range is readable under the context's address space: its parts are `ps`, and `u` is the state after the walks. -/
def State.readable (s : State) (range : List (Word × Nat)) (u : State) (ps : List Part) : Prop :=
  s.xlatParts s.cur.core (s.aspaceOf s.cur.core s.cur.role) .read range = .ok (u, ps)

/-- The range is writable: no decoded aperture and no pinned block lies in it. -/
def State.writable (s : State) (range : List (Word × Nat)) (u : State) (ps : List Part) : Prop :=
  s.xlatParts s.cur.core (s.aspaceOf s.cur.core s.cur.role) .write range = .ok (u, ps) ∧
    ∀ p ∈ ps, (∀ st off, region p.pa ≠ .decoded st off) ∧ u.pinned (if s.cur.role = .F then .firmware else .trio) p.pa p.len = false

/-- Nothing refuses the access at the home: no held line, no conflict, no lost byte. -/
def State.admits (s : State) (write sync : Bool) (spans : List (Nat × Nat)) : Prop :=
  s.clash (s.access write sync spans) = none ∧
    (if write then s.bad = [] ∨ spans.findSome? (fun p => s.badPartial p.1 p.2) = none else s.badIn spans = none)

/-- The same for an access that no waiting contribution of the context itself holds back, where it synchronises (R254). -/
def State.admitsInOrder (s : State) (write sync : Bool) (spans : List (Nat × Nat)) : Prop :=
  (sync = true → s.contributes s.me spans = false) ∧ s.admits write sync spans

/-- A release of the context, where it makes one, need not wait for contributions of its own that stand behind another's (R254). -/
def State.mayRelease (s : State) (releases : Bool) : Prop := releases = true → s.owes s.me = false

/-- The value of `n` little-endian bytes that a load returns, extended by its type (R102, R256). -/
def extended (ty : STy) (x : Nat) : Word :=
  if stySigned ty then (BitVec.ofNat (8 * styBytes ty) x).signExtend 64 else BitVec.ofNat 64 x

/-- The value that an atomic operator writes, with memory m and operand b (R258, R259). -/
def atomicNew (op : Rop) (ty : STy) (m b : Nat) : Nat :=
  let n := 8 * styBytes ty
  let f := ((styFloat ty).map fstyEty).getD .f32
  match op with
  | .add => (m + b) % 2 ^ n
  | .and => m &&& b
  | .or => m ||| b
  | .xor => m ^^^ b
  | .min => if (BitVec.ofNat n b).toInt < (BitVec.ofNat n m).toInt then b else m
  | .max => if (BitVec.ofNat n m).toInt < (BitVec.ofNat n b).toInt then b else m
  | .minn => min m b
  | .maxn => max m b
  | .fadd => (roundTo f .rne 0 false (xAdd false (xOf f m) (xOf f b))).bits
  | .fmin => if isNan f m ∧ isNan f b then nanBits f else if isNan f m then b else if isNan f b then m
    else if xLt (xOf f b) (xOf f m) then b else m
  | .fmax => if isNan f m ∧ isNan f b then nanBits f else if isNan f m then b else if isNan f b then m
    else if xLt (xOf f m) (xOf f b) then b else m

/-- The integer atomics with their operators (R258). -/
def integerAtomics : List ((Hdr → STy → AOrd → GReg → GReg → GReg → BitVec 16 → Instr) × Rop) :=
  [(.aadd, .add), (.amin, .min), (.amax, .max), (.aminn, .minn), (.amaxn, .maxn), (.aand, .and), (.aor, .or), (.axor, .xor)]

/-- The floating atomics (R258, R259). -/
def floatAtomics : List ((Hdr → FSty → AOrd → GReg → GReg → GReg → BitVec 16 → Instr) × Rop) :=
  [(.afadd, .fadd), (.afmin, .fmin), (.afmax, .fmax)]

/-- What an atomic at part `p` leaves, in one step: the access, which is a write only if it writes, the acquire, the new bytes, the release
(R232, R258). -/
def State.atomicDone (u : State) (ord : AOrd) (p : Part) (n : Nat) (new : Option Nat) : State :=
  let v := (u.record (u.access new.isSome true [(p.pa, p.len)])).loadAcquires (ordAcq ord) [(p.pa, p.len)]
  let v := match new with
    | some x => v.writeParts [p] (leBytes n x)
    | none => v
  v.atomicReleases ord new.isSome [(p.pa, p.len)]

/-- The old value that an atomic at part `p` finds. -/
def State.atomicOld (u : State) (p : Part) : Nat := leNat (u.readParts [p])

/-- The atomic access of `n` bytes at `e` may be made: aligned, writable, admitted, with no lost byte, and its release need not wait (R253, R254);
one that writes nothing only reads, and no FENCE stands at it (R235, R237, R260). -/
def State.atomicFine (t : State) (e : Word) (n : Nat) (u : State) (p : Part) (ord : AOrd) (writes : Bool) : Prop :=
  e.toNat % n = 0 ∧ t.writable [(e, n)] u [p] ∧ u.admitsInOrder writes true [(p.pa, p.len)] ∧ u.badIn [(p.pa, p.len)] = none ∧
    u.mayRelease ((ordRel ord).isSome || (writes && u.fenced))

/-- How an instruction accesses global memory, as far as what stops it goes (R252 to R254). -/
structure GlobalForm where
  rights : Rights
  operands : List Target
  base : GReg
  offset : Word
  size : Nat
  align : Nat
  /-- it needs the right to write -/
  store : Bool
  sync : Bool
  /-- it reads and writes the location in one step -/
  updates : Bool
  /-- it stands behind the context's own waiting contributions to its bytes -/
  ordered : Bool
  may : State → Prop
  spans : State → List Part → List (Nat × Nat)
  writes : State → State → List Part → Bool
  releases : State → State → List Part → Bool

/-- What the home answers to the access of the current context of `u`: a conflict, a held line, which it may wait for during 2^20 cycles from its
first refusal on, or lost data; `traps` is the trap of its instruction (R239, R245, R385). -/
def RefusedAtHome (u : State) (a : Touch) (updates : Bool) (traps : Nat → Nat → Word → Word → Out) (out : Out) : Prop :=
  let kept := if a.write then a.spans.findSome? (fun p => u.badPartial p.1 p.2) else u.badIn a.spans
  (∀ l o, u.clash a = some (.conflict l o) → out = traps 0x22 0 (BitVec.ofNat 64 (64 * l)) (u.agentWord o)) ∧
  (∀ l o, u.clash a = some (.retry l o) →
    (u.refusedSince l + 2 ^ 20 ≤ u.gtc → out = traps 0x23 0 (BitVec.ofNat 64 (64 * l)) (u.agentWord o)) ∧
    (u.gtc < u.refusedSince l + 2 ^ 20 →
      out = .next ((u.refuse a l (u.refusedSince l)).sleepNow (.retry (u.refusedSince l) l) true))) ∧
  (∀ x, u.clash a = none → (kept = some x ∨ (kept = none ∧ updates = true ∧ u.badIn a.spans = some x)) →
    out = traps 0x25 0 (BitVec.ofNat 64 x) 0)

/-- Where the global access of instruction `i` stops, in the order of R253: alignment, translation and permission, a decoded aperture, a pinned
block, the context's own contributions, the home. Every trap is precise and without effect. -/
def GlobalStops (h : Hdr) (i : Instr) (s : State) (f : GlobalForm) : Prop :=
  let t := s.atIssue h f.operands
  let e := t.g f.base + f.offset
  let range := if f.size ≤ 8 then [(e, f.size)] else pageParts e f.size
  let found := t.xlatParts t.cur.core (t.aspaceOf t.cur.core t.cur.role) (if f.store then .write else .read) range
  let traps (cause sub : Nat) (val other : Word) : Out :=
    .next ((s.landed f.operands).takeTrap s.cur.core s.cur.role cause sub val other s.pc)
  let decoded (p : Part) : Prop := ∃ st off, region p.pa = .decoded st off
  let pinned (u : State) (p : Part) : Prop := u.pinned (if t.cur.role = .F then .firmware else .trio) p.pa p.len = true
  s.mayIssue h f.rights f.operands = true → f.may t →
    (e.toNat % f.align ≠ 0 → exec i s = traps 0x06 0 e 0) ∧
    (e.toNat % f.align = 0 →
      (∀ x, found = .error x → exec i s = traps x.cause x.sub (x.val.elim 0 (BitVec.ofNat 64)) x.other) ∧
      (∀ (u : State) (ps : List Part) (n : Nat) (p : Word × Nat) (q : Part), found = .ok (u, ps) → f.store = true → range[n]? = some p → ps[n]? = some q →
        (decoded q → (∀ m r, m < n → ps[m]? = some r → ¬ decoded r) → exec i s = traps 0x24 0 p.1 0) ∧
        ((∀ r ∈ ps, ¬ decoded r) → pinned u q → (∀ m r, m < n → ps[m]? = some r → ¬ pinned u r) → exec i s = traps 0x26 0 p.1 0)) ∧
      (∀ u ps, found = .ok (u, ps) → (f.store = true → ∀ q ∈ ps, ¬ decoded q ∧ ¬ pinned u q) →
        let a := u.access (f.writes t u ps) f.sync (f.spans t ps)
        let stands := (f.ordered = true ∧ u.contributes u.me a.spans = true) ∨ (f.releases t u ps = true ∧ u.owes u.me = true)
        (stands → exec i s = .next (u.sleepNow .behind true)) ∧
        (¬ stands → RefusedAtHome u a f.updates traps (exec i s))))

/-- A load or store of a scalar with an order or none. -/
def scalarForm (operands : List Target) (base : GReg) (off : BitVec 16) (size : Nat) (store ordered : Bool) : GlobalForm :=
  { rights := .all, operands := operands, base := base, offset := off.signExtend 64, size := size, align := size, store := store,
    sync := ordered, updates := false, ordered := ordered, may := fun _ => True, spans := fun _ ps => spansOf ps,
    writes := fun _ _ _ => store, releases := fun _ _ _ => store && ordered }

/-- A load or store of the marked words of a row. -/
def rowForm (operands : List Target) (base : GReg) (off : BitVec 16) (k : KReg) (store ordered : Bool) : GlobalForm :=
  { scalarForm operands base off 2048 store ordered with
    rights := .comp, align := 64, may := fun t => t.tileOk t.cur.core (t.core t.cur.core).accsel = true,
    spans := fun t ps => spansOf (rowParts ps (wordRuns (t.kreg k))) }

/-- An atomic of `size` bytes that writes where `writes` says so. -/
def atomicForm (operands : List Target) (base : GReg) (off : BitVec 16) (size : Nat) (ord : AOrd) (writes : State → State → List Part → Bool) :
    GlobalForm :=
  { scalarForm operands base off size true true with
    updates := true, writes := writes, releases := fun t u ps => (ordRel ord).isSome || (writes t u ps && u.fenced) }

/-- No tile table with READY bits lies in the range (R430). -/
def State.offTables (s : State) (pa n : Nat) : Prop :=
  ∀ x ∈ s.dies, let w := SMap.get 0 x.2.sys 0x520
    fld w 51 12 = 0 ∨ pa + n ≤ fld w 51 12 * 0x1000 ∨ fld w 51 12 * 0x1000 + 32 * (fld w 11 0 + 1) ≤ pa

/-! Frames -/

/-- What an instruction that only computes a register result leaves as it is: memory and everything else outside the cores, every
other core, and of its own core everything but the results under way and its own context; of that context every register
value that has landed. `u` is the state after the landings and pops, on which the effect is computed. -/
structure RegisterFrame (s u t : State) : Prop where
  memory : ∀ a, t.raw a 1 = s.raw a 1
  package : { t with cores := s.cores } = s
  otherCores : ∀ c, c ≠ s.cur.core → t.core c = s.core c
  core : ∃ (pend : List Pend) (x : Ctx), t.core s.cur.core = { u.core s.cur.core with pend := pend }.setCtx s.cur.role x
  scalars : ∀ n, (t.ctx s.cur.core s.cur.role).getG n = (u.ctx s.cur.core s.cur.role).getG n
  branches : ∀ n, (t.ctx s.cur.core s.cur.role).getB n = (u.ctx s.cur.core s.cur.role).getB n
  contextRegisters : (t.ctx s.cur.core s.cur.role).sys = (u.ctx s.cur.core s.cur.role).sys

/-- What an instruction that only stores bytes leaves as it is: everything outside the cores but memory's bytes, their keys and
error marks, and the record of accesses; every other core; of its own core everything but its own context; of that context
every register value. The bytes themselves are for each statement to say. -/
structure StoreFrame (s u t : State) : Prop where
  package : { t with cores := s.cores, mem := s.mem, lineKey := s.lineKey, bad := s.bad, order := s.order } = s
  otherCores : ∀ c, c ≠ s.cur.core → t.core c = s.core c
  core : ∃ x : Ctx, t.core s.cur.core = (u.core s.cur.core).setCtx s.cur.role x
  scalars : ∀ n, (t.ctx s.cur.core s.cur.role).getG n = (u.ctx s.cur.core s.cur.role).getG n
  branches : ∀ n, (t.ctx s.cur.core s.cur.role).getB n = (u.ctx s.cur.core s.cur.role).getB n

/-- The instruction has no TOK bit, and no push of the context waits. -/
def State.noTokens (s : State) (h : Hdr) : Prop :=
  h.popL = false ∧ h.popR = false ∧ h.pushL = false ∧ h.pushR = false ∧ (s.ctx s.cur.core s.cur.role).push = []

/-- Physical address of byte `j` of a scratchpad access at effective address `e` (R32, R212). -/
def State.spByte (s : State) (swz : BitVec 3) (e : Word) (j : Nat) : Nat := spAddr s.cur.core (swizzle swz (e.toNat + j))

/-- Memory after `v` is that of `u` with the bytes of `ws` written one after another. -/
def WritesBytes (u v : State) (ws : List (Nat × Byte)) : Prop :=
  Memory.wf u.mem = true → ∀ x, v.raw x 1 = match (ws.filter (fun p => p.1 == x)).getLast? with
    | some p => [p.2]
    | none => u.raw x 1

/-- The active 32-bit lanes of a row. -/
def State.activeLanes (s : State) (k : KReg) (n : Nat) : List Nat := (List.range n).filter (s.bit k)

/-- Byte `i` of a row. -/
def rowByte (row i : Nat) : Byte := BitVec.ofNat 8 (row / 2 ^ (8 * i))

/-- Results put one after another, all of variable latency. -/
def State.putAll (s : State) (rs : List (Target × Nat × Nat)) : State := rs.foldl (fun u r => u.put u.cur.core r.1 r.2.1 r.2.2 none) s

/-- A storing instruction completes: the next PC follows, the bytes of `ws` are written in order and no others, and without TOK bits
nothing else changes but what the frame leaves open. -/
def StoresBytes (h : Hdr) (i : Instr) (s t : State) (ws : List (Nat × Byte)) : Prop :=
  ∃ v : State, exec i s = .next v ∧ v.pc = nextPc s.pc ∧ (s.noTokens h → StoreFrame s t v) ∧ WritesBytes t v ws

/-! Pipeline rings and launches (R167 to R207) -/

/-- `n` bytes at offset `off` of ring `g` translate for an access of the current context: `ps` are its parts, `u` the state after the walks. -/
def State.ringFine (t : State) (g : Stage) (kind : AKind) (off n : Nat) (u : State) (ps : List Part) : Prop :=
  t.xlatParts t.cur.core (t.aspaceOf t.cur.core t.cur.role) kind (pageParts (BitVec.ofNat 64 (g.ringbase + off)) n) = .ok (u, ps)

/-- The atomic access of the current context that takes slot `n` through the sequence word at `off` of ring `g`: `v` is the state after (R204). -/
def State.takesSlot (t : State) (l : Launch) (g : Stage) (off n : Nat) (v : State) : Prop :=
  ∃ u ps, let w := u.record (u.access true true (spansOf ps))
    t.slotTaken l = none ∧ t.ringFine g .write off 8 u ps ∧ u.admits true true (spansOf ps) ∧ w.badIn (spansOf ps) = none ∧
    n = leNat (w.readParts ps) ∧
      v = (((w.loadAcquires none (spansOf ps)).writeParts ps (leBytes 8 ((n + 1) % 2 ^ 64))).storeReleases none true (spansOf ps)).modLaunch l.seq
        (fun x => { x with taken := SMap.set 0 x.taken (takenKey w.cur.core w.cur.role) (n + 1) })

/-- The atomic read of both sequence words of ring `g` by the current context finds PUTSEQ `p` and GETSEQ `q`; `v` is the state after (R203). -/
def State.peeks (t : State) (g : Stage) (p q : Nat) (v : State) : Prop :=
  ∃ u ps, let w := u.record (u.access false true (spansOf ps))
    t.ringFine g .read 0 16 u ps ∧ u.admits false true (spansOf ps) ∧ p = leNat ((w.readParts ps).take 8) ∧ q = leNat ((w.readParts ps).drop 8) ∧
      v = w.loadAcquires none (spansOf ps)

/-- The record at scratchpad address `e` may be copied into slot `k`, whose last get has completed with `clk`; `w` is the state after (R204). -/
def State.putsSlot (v : State) (l : Launch) (i : Nat) (g : Stage) (e k : Nat) (clk : Clock) (w : State) : Prop :=
  ∃ u qs, let sp := spSpans u.cur.core [(e, g.recsize)]
    let x := u.record (u.access false false sp)
    let y := x.acquire x.me clk (l.ringScope x.cur.core)
    let z := y.record (y.access true false (spansOf qs))
    let z := (z.writeParts qs (x.raw (spAddr x.cur.core e) g.recsize)).holdParts z.wscope false qs
    let r := z.release z.me (l.ringScope x.cur.core)
    v.ringFine g .write (g.slotOff k) g.recsize u qs ∧ u.admits false false sp ∧ y.admits true false (spansOf qs) ∧
      w = (r.1.modStage l.seq i (fun g => { g with puts := g.puts ++ [(k, r.2)], gets := g.gets.filter (fun p => p.1 + g.ringsize != k) })).slotDone l.seq

/-- Slot `k`, whose put has completed with `clk`, may be copied to scratchpad address `e`; `w` is the state after (R204). -/
def State.getsSlot (v : State) (l : Launch) (i : Nat) (g : Stage) (e k : Nat) (clk : Clock) (w : State) : Prop :=
  ∃ u qs, let x := u.acquire u.me clk (l.ringScope u.cur.core)
    let y := x.record (x.access false false (spansOf qs))
    let sp := spSpans y.cur.core [(e, g.recsize)]
    let z := ((y.record (y.access true false sp)).clearBad (spAddr y.cur.core e) g.recsize).writePieces y.cur.core [(e, g.recsize)] (y.readParts qs)
    let r := z.release z.me .core
    v.ringFine g .read (g.slotOff k) g.recsize u qs ∧ x.admits false false (spansOf qs) ∧ y.admits true false sp ∧
      w = (r.1.modStage l.seq i (fun g => { g with gets := g.gets ++ [(k, r.2)], puts := g.puts.filter (fun p => p.1 != k) })).slotDone l.seq

/-- Entries as R169 allows them: a computer, both or neither of the others, all code addresses, and no tokens without the others. -/
def entriesFine (le ce se : Word) (tokinit : Nat) : Prop :=
  ce ≠ 0 ∧ (le = 0 ↔ se = 0) ∧ (∀ e ∈ [le, ce, se], e = 0 ∨ isCode e = true) ∧ (le = 0 → tokinit = 0)

/-- The checks of R169 on the fields of a launch record. -/
def State.recordFine (s : State) (r : LRec) : Prop :=
  (∀ e ∈ r.ext, e ≠ 0) ∧ r.grain ≠ 0 ∧ indexCount r.order r.ext ≤ 2 ^ 31 ∧ r.qmask ≠ 0 ∧ r.spbase % 32 = 0 ∧ r.spsize % 32 = 0 ∧
    r.spbase + r.spsize ≤ 0x300000 ∧ (∀ c ∈ coresOf r.qmask, r.spbase + r.spsize ≤ s.sphomeBase c) ∧ r.tres ≠ 0 ∧ r.sigop ≤ 2 ∧
    r.sigscope ≤ 4 ∧ (r.sigop ≠ 0 → r.sigaddr.toNat % 8 = 0) ∧ r.nstage ≠ 1 ∧ r.nstage ≤ 4 ∧ (r.nstage = 0 ↔ r.stages = 0) ∧
    r.stages.toNat % 64 = 0 ∧ (r.nstage = 0 → entriesFine r.lentry r.centry r.sentry r.tokinit) ∧
    (r.nstage ≠ 0 → r.lentry = 0 ∧ r.centry = 0 ∧ r.sentry = 0)

/-- LAUNCH has read and accepted the record at `ea`: `r` is its content, `gs` its stages, `v` the state in which it is pushed (R169, R207). -/
def State.acceptsRecord (t : State) (ea : Word) (r : LRec) (gs : List Stage) (v : State) : Prop :=
  ∃ u ps, let w := u.record (u.access false false (spansOf ps))
    ea.toNat % 128 = 0 ∧ t.readable [(ea, 128)] u ps ∧ u.admitsInOrder false false (spansOf ps) ∧ recOf (w.readParts ps) = some r ∧ w.recOk r = true ∧
      ((r.nstage = 0 ∧ gs = [] ∧ v = w) ∨
       (r.nstage ≠ 0 ∧ ∃ x qs gs', let y := x.record (x.access false false (spansOf qs))
          w.readable (pageParts r.stages (64 * r.nstage)) x qs ∧ x.admitsInOrder false false (spansOf qs) ∧
          stagesOf true r.nstage (y.readParts qs) = some gs' ∧ enoughCores r gs' = true ∧
          y.ringPages y.cur.core (y.aspaceOf y.cur.core y.cur.role) gs' = .ok (v, gs)))

/-! Engine commands and words (R275 to R323) -/

/-- The current chain runs command `q`, linked as `e`, is not stopped, and has not executed its END. -/
def State.atWord (s : State) (q : Cmd) (e : Enq) : Prop :=
  let ch := (s.core s.cur.core).chain s.cur.chain
  ch.run = some q ∧ ch.enq q.seq = some e ∧ ch.fault = false ∧ q.done = false

/-- Word `i` completes: it leaves `t` and its command as `q`, and takes `n` words of the slot (R287). -/
def WordDone (i : Instr) (s t : State) (q : Cmd) (n : Nat) : Prop :=
  exec i s = .next (t.modChain s.cur.core s.cur.chain (fun ch =>
    { ch with run := some { q with upc := q.upc + n, refused := none, held := none, next := t.gtc + 1 } }))

/-- Word `i` waits at its place, with its command as `q`. -/
def WordWaits (i : Instr) (s : State) (q : Cmd) : Prop :=
  exec i s = .next (s.modChain s.cur.core s.cur.chain (fun ch => { ch with run := some { q with held := none, next := s.gtc + 1 } }))

/-- Word `i` faults: the command stops at it, with no effect of the word (R289). -/
def WordFaults (i : Instr) (s : State) (cause sub addr : Nat) : Prop :=
  exec i s = .next (s.cmdFault s.cur.core s.cur.chain cause sub addr 0)

/-- The words that pop one value `a`, and what they push, top first (R304). -/
def oneValueWords (k : BitVec 14) : List (Instr × (Word → List Word)) :=
  [(.ewExt k, fun a => [a * 2 ^ 14 ||| k.setWidth 64]), (.ewDup, fun a => [a, a]), (.ewDrop, fun _ => [])]

/-- The words that pop `b`, the top, and `a` below it, and what they push, top first (R304). -/
def twoValueWords : List (Instr × (Word → Word → List Word)) :=
  [(.ewSwap, fun a b => [a, b]), (.ewOver, fun a b => [a, b, a]), (.ewAdd, fun a b => [a + b]), (.ewSub, fun a b => [a - b]),
   (.ewShl, fun a b => [a <<< (b.toNat % 64)])]

/-- Nothing refuses the access of agent `a` over parts found earlier: their keys are loaded and their views enabled (R226, R390), no conflict, no held
line, no lost byte. -/
def State.engAdmits (s : State) (a : Agent) (write sync : Bool) (ps : List Part) : Prop :=
  (∀ p ∈ ps, s.keyless p.leaf = false ∧ s.keylessView p.pa = false) ∧
    (∀ p ∈ ps, ∀ st off, region p.pa = .decoded st off → s.windowAt st off ≠ none) ∧
    s.clash { agent := a, write := write, sync := sync, spans := spansOf ps } = none ∧
    (if write then s.bad = [] ∨ (spansOf ps).findSome? (fun p => s.badPartial p.1 p.2) = none else s.badIn (spansOf ps) = none)

/-- The state after a read of engine agent `a`. -/
def State.engLoaded (s : State) (a : Agent) (ps : List Part) : State :=
  s.record { agent := a, write := false, sync := false, spans := spansOf ps }

/-- The state after a write of engine agent `a` at scope `sc` (R243). -/
def State.engStored (s : State) (a : Agent) (sc : Scope) (ps : List Part) (bs : List Byte) : State :=
  let t (qs : List Part) : Touch := { agent := a, write := true, sync := false, spans := spansOf qs }
  (((s.record (t ps)).hold (t (ps.filter (fun p => !p.leaf.holdable))) none).hold (t (ps.filter (fun p => p.leaf.holdable)))
    (some sc)).writeParts ps bs

/-- The copy words: destination and source are global memory or the scratchpad (R313). -/
def copyWords : List (Instr × Bool × Bool) :=
  [(.ewCopyGs, true, false), (.ewCopySg, false, true), (.ewCopyGg, true, true), (.ewCopySs, false, false)]

/-- The words of the commands that ENQ reads at `e`: up to the first END within the reservation and 256 words (R295). -/
def State.enqWords (t : State) (e : Word) : Option (List Nat) :=
  let b := t.spRange t.cur.core t.cur.role
  let room := if e.toNat < b.1 then 0 else Nat.min 256 ((Nat.min b.2 0x300000 - e.toNat) / 2)
  untilEnd (lanesOf 16 room (leNat (t.raw (spAddr t.cur.core e.toNat) (2 * room))))

/-- ENQ's checks pass for the words at `e`: `u` is the state after them, `pas` and `pages` what its address runs name (R295). -/
def State.enqFine (t : State) (sel : Sel) (e : Word) (words : List Nat) (u : State) (pas : List Nat) (pages : List Leaf) : Prop :=
  let n := selChain sel
  let sp := spSpans t.cur.core [(e.toNat, 2 * words.length)]
  let v := t.record (t.access false false sp)
  e.toNat % 8 = 0 ∧ t.enqWords e = some words ∧ t.admits false false sp ∧ illegalWord n words 0 0 = none ∧
    (v.core t.cur.core).pool n ≠ 0 ∧ v.checkRuns t.cur.core t.cur.role (scanRuns words 0) = .ok (u, pas, pages)

/-- The slot that the next command of chain `n` takes still holds a live command (R295). -/
def State.slotBusy (u : State) (c n : Nat) : Prop :=
  (u.core c).slots n ≤ (u.core c).tail n ∧
    ∃ x ∈ ((u.core c).chain n).cmds, x.seq + (u.core c).slots n = (u.core c).tail n + 1 ∧ x.live = true

/-- One accumulator element over its chunks of `kc` products: each chunk is summed exactly and rounded once into it (R62). -/
def tmmaElement (x : Nat → XVal) (kc k : Nat) (ovw : Bool) (old : Nat) : Nat :=
  (List.range ((k + kc - 1) / kc)).foldl (fun c t =>
    let sum := xSum ((List.range (Nat.min kc (k - t * kc))).map (fun q => x (t * kc + q)))
    (roundTo .f32 .rne 0 false (if ovw && t == 0 then sum else xAdd false (xOf .f32 c) sum)).bits) old

/-! Notices (R344 to R361) -/

/-- The completion address of a notice, found before the publication: `w` is the state after, `done` its byte and page (R346). -/
def State.doneFound (v : State) (x : Desc) (w : State) (done : Option (Nat × Leaf)) : Prop :=
  (x.done = 0 ∧ w = v ∧ done = none) ∨
    (x.done ≠ 0 ∧ ∃ q qs, v.xlatParts v.cur.core (v.aspaceOf v.cur.core v.cur.role) .write [(BitVec.ofNat 64 x.done, 8)] = .ok (w, q :: qs) ∧
      (∀ st off, region q.pa ≠ .decoded st off) ∧ done = some (q.pa, q.leaf))

/-- NOTICE's checks pass for the descriptor at `e`: `x` is the descriptor, `ps` the block's parts, `w` the state after (R345, R346). -/
def State.noticeFine (t : State) (e : Word) (x : Desc) (ps : List Part) (w : State) (done : Option (Nat × Leaf)) : Prop :=
  let sp := spSpans t.cur.core [(e.toNat, 64)]
  let u := t.record (t.access false false sp)
  e.toNat % 8 = 0 ∧ t.spCheck t.cur.core t.cur.role e 64 1 = none ∧ t.admits false false sp ∧
    parseDesc (u.raw (spAddr t.cur.core e.toNat) 64) true = some x ∧
    ∃ v, u.readable (pageParts (BitVec.ofNat 64 x.loc) x.size) v ps ∧ v.doneFound x w done

/-- Message `i` of the package's fabric is `m`. -/
def State.message (s : State) (i : Nat) (m : Packet) : Prop := s.net[i]? = some m

/-- The producer reads segment `seg` of notice `b` for the consumer: its parts (R348). -/
def Pub.segment (b : Pub) (seg : Nat) : List Part :=
  (viaPages b.frames (b.loc + 512 * seg) 512).map (fun p =>
    { pa := p.1, len := p.2, leaf := (b.frames.find? (fun l => decide (l.frame ≤ p.1) && decide (p.1 < l.frame + l.size))).getD spLeaf })

/-- A pull of segment `seg` by consumer `x` is in order at the producer (R348). -/
def Pub.admitsPull (b : Pub) (x seg : Nat) : Prop :=
  seg * 512 < b.info.size ∧ (seg = 0 → b.expired = false ∧ 0 < b.count ∧ x ∉ b.begun) ∧ (seg ≠ 0 → x ∈ b.pulling)

/-- The entry after a segment of consumer `x` has been served (R348). -/
def Pub.served (b : Pub) (x seg : Nat) : Pub :=
  if seg = 0 then { b with pulling := b.pulling ++ [x], begun := b.begun ++ [x] } else b

/-! Saves, launches in the package, queues (R165 to R184, R393 to R411) -/

/-- The read of SAVEAREA by the queue processor of a launch's queue. -/
def saveAreaTouch (d b : Nat) : Touch := { agent := .qp d, write := false, sync := true, spans := spansOf (physParts (b + 0x48) 8) }

/-- SAVEAREA of the launch's queue is read and acquired, where it has a queue; `u` is the state after (R393). -/
def State.readsSaveArea (s : State) (l : Launch) (u : State) : Prop :=
  (l.queue = none → u = s.launchWaits l.seq none) ∧
  ∀ d b w, l.queue = some (d, b, w) →
    let v := s.record (saveAreaTouch d b)
    s.engAdmits (.qp d) false true (physParts (b + 0x48) 8) ∧
      u = (v.acquireAt (.qp d) .pkg (b + 0x48) 8 v.order.serial).launchWaits l.seq none

/-- CTXSAVE and CTXLOAD may use the save area at `va` for launch `l` of the trio that is handled; `u` is the state after the walks (R411). -/
def State.areaFine (t : State) (va : Word) (write : Bool) (l : Launch) (mine : Bool) (u : State) : Prop :=
  va.toNat % 4096 = 0 ∧ t.handledLaunch t.cur.core = some (l, mine) ∧
    ∃ ps, t.xlatParts t.cur.core none (if write then .write else .read) (pageParts va (0x8C000 + l.rcd.spsize)) = .ok (u, ps) ∧
      ∀ p ∈ ps, (∀ st off, region p.pa ≠ .decoded st off) ∧ (write = true → u.pinned .firmware p.pa p.len = false)

/-- The physical bytes that a save of the handled trio reads: live maps and live bytes of the reservation (R409, R411). -/
def State.saveReads (u : State) (l : Launch) (mine full : Bool) : List (Nat × Nat) :=
  let c := u.cur.core
  let gone := trioRoles.map (fun r => !mine || ((u.core c).ctx r).isOver)
  let live := (u.savePieces c l mine full).filter (fun p => decide (0x8C000 ≤ p.1))
  u.mapSpans c l gone (trioRoles.map (fun r => ((u.core c).ctx r).safeIdx)) ++
    spansAt (spAddr c 0) (live.map (fun p => (l.rcd.spbase + (p.1 - 0x8C000), p.2.length)))

/-- The bytes of the area that a save writes (R410). -/
def State.saveWrites (u : State) (l : Launch) (mine full : Bool) (area : Nat) : List (Nat × Nat) :=
  spansAt area ((u.savePieces u.cur.core l mine full).map (fun p => (p.1, p.2.length)))

/-- A save may make its reads and its writes; `v` is the state in which it makes the writes (R237, R239, R411). -/
def State.mayCopyOut (u : State) (l : Launch) (mine full : Bool) (area : Nat) (v : State) : Prop :=
  let rs := u.saveReads l mine full
  let ws := u.saveWrites l mine full area
  let w := u.record (u.access false false rs)
  u.admits false false rs ∧ w.admits true false ws ∧ v = w.record (w.access true false ws)

/-- What every load of an area reads: the header, the held indices and the core registers (R410). -/
def areaHead (area : Nat) : List (Nat × Nat) := spansAt area [(0, 0x18), (0x40, 0x40), (0x600, 512)]

/-- The live maps that a load consults, and what the header and they name in the area (R409 to R411). -/
def State.loadReads (u : State) (l : Launch) (mine : Bool) (area : Nat) : List (Nat × Nat) :=
  let f (off n : Nat) : Nat := leNat (u.readKey 0 (area + off) n)
  let ended := trioRoles.map (fun r => !mine || Nat.testBit (f 0 8) (1 + roleNum r))
  let idx := trioRoles.map (fun r => f 8 8 / 2 ^ (12 * roleNum r) % 4096)
  let sd (n : Nat) : Word := BitVec.ofNat 64 (f (0x600 + 8 * (savedRegsA.length + 1 + n)) 8)
  u.mapSpans u.cur.core l ended idx ++ spansAt area (liveSpans (u.live u.cur.core l sd ended idx (f 0 8 % 2 == 1 && ended.any (!·))))

/-- A load may make its reads (R237, R239, R411). -/
def State.mayCopyIn (u : State) (l : Launch) (mine : Bool) (area : Nat) : Prop :=
  let v := u.record (u.access false false (areaHead area))
  u.admits false false (areaHead area) ∧ v.admits false false (v.loadReads l mine area)

/-- A step of chunk or rank `c` of firing `f` begins: the accesses to its state area are admitted, and `s` is the state after them (R433, R239). -/
def State.stepsChunk (s₀ : State) (d i c : Nat) (f : Firing) (s : State) : Prop :=
  s₀.firing? d i = some f ∧ f.fail = none ∧ c < f.marks ∧
    ∃ u, s₀.areaReady d i = .ok u ∧ s = u.modFiring d f (fun g => { g with refused := none })

/-- The place in which chunk `c` gathers the partials of its first `n` children. -/
def Firing.gathers (f : Firing) (c n : Nat) (x : CSlot) : Prop := f.slot? c accUse = some x ∧ x.use = .acc n

/-- The queue processor's read over parts for packet `p` is admitted; `u` is the state after (R239). -/
def State.qpMakes (s : State) (p : Pkt) (sync : Bool) (ps : List Part) (u : State) : Prop :=
  s.engAdmits (.qp p.die) false sync ps ∧
    u = (s.record { agent := .qp p.die, write := false, sync := sync, spans := spansOf ps }).admitQ p

/-- The words of the queue's block are read and acquired for packet `p`; `u` is the state after (R393). -/
def State.qpAcquires (s : State) (p : Pkt) (u : State) : Prop :=
  ∃ a, s.qpMakes p true (physParts (p.qsb + 0x08) 0x30) a ∧ u = a.acquireAt (.qp p.die) .pkg (p.qsb + 0x08) 0x30 a.order.serial

/-- The packet at RDIDX of queue `i` of die `d` is `p`, well formed; its reads are admitted, and `u` is the state in which it takes effect
(R401). -/
def State.parses (s : State) (d i : Nat) (p : Pkt) (named slots : Nat) (u : State) : Prop :=
  s.packetAt d i = some p ∧ p.wellFormed named = true ∧
    ∃ b, s.qpAcquires p b ∧ b.qpMakes p false ((List.range slots).flatMap (fun j => physParts (b.qSlot p.qsb (p.rd + j)) 64)) u

/-- A read of the queue processor through the queue's address space: `v` is the state after, `bs` the bytes. -/
def State.qpReads (s : State) (p : Pkt) (range : List (Word × Nat)) (v : State) (bs : List Byte) : Prop :=
  ∃ u ps, s.xlatParts (qpCore p.die) (some (s.qAspace p.qsb)) .read range = .ok (u, ps) ∧ u.qpMakes p false ps v ∧ bs = v.readParts ps

end Sys2Proof.Machine
end

