-- ==== Sys2Proof/Certificates/Slice0/Obligations.lean ====
section
/-! DEFINITION. The statements about the model, for the provers: each formalises rules of the spec or a property of the
whole machine; OBLIGATIONS.json lists them in this order. -/
open Sys2Proof Sys2Proof.Machine

/-- The registers to which the manual gives a reset value hold it at reset (R15, R19, R22, R187, R214, R242, R337, R352, R373, R392).
Memory at reset has its canonical form; that it lists nothing is the model's choice (log 1). -/
def Obligations.ResetState : Prop :=
  ((∀ c r, State.reset.sysAt c r 0x004 = 0x6A09E667F3BCC909) ∧
   (∀ c r n, 0x008 ≤ n → n ≤ 0x00F → State.reset.sysAt c r n = 0x7FE04) ∧
   (∀ c r, State.reset.sysAt c r 0x011 = 16) ∧ (∀ c r, State.reset.sysAt c r 0x211 = 4096) ∧
   (∀ c r, State.reset.sysAt c r 0x341 = 0x300000400) ∧ (∀ c r, State.reset.sysAt c r 0x352 = 0x10451) ∧
   (∀ c r, State.reset.sysAt c r 0x353 = 0x400005) ∧ (∀ c r, State.reset.sysAt c r 0x406 = 16) ∧
   (∀ c r, State.reset.sysAt c r 0x420 = 65536) ∧ (∀ c r, State.reset.sysAt c r 0x426 = 8192) ∧
   (∀ c r, ∀ n ∈ [0x000, 0x001, 0x002, 0x003, 0x100, 0x110, 0x117, 0x118, 0x119, 0x200, 0x201, 0x210, 0x212, 0x300, 0x320, 0x330, 0x338,
       0x340, 0x350, 0x351, 0x400, 0x401, 0x402, 0x405, 0x410, 0x411, 0x412, 0x413, 0x421, 0x422, 0x423, 0x424, 0x520, 0x521],
     State.reset.sysAt c r n = 0)) ∧
  (Memory.wf State.reset.mem = true ∧ State.reset.mem = [])

/-- Words that the manual itself gives, with the instruction that each stands for (R64, R66, R69, R75, R80, R97, R121, R299, R441). -/
def Obligations.DecodeGivenWords : Prop :=
  let h (w : Nat) : Hdr := { wait := BitVec.ofNat 4 w, popL := false, popR := false, pushL := false, pushR := false }
  decodeWord 0x201B1461C5000000 = .ok (.madd (h 2) 5 6 7 5) ∧
  decodeWord 0x003A240000010000 = .ok (.srd (h 0) 9 0x010) ∧
  decodeWord 0x0078105180000800 = .ok (.tld (h 0) 0 4 5 6 2048) ∧
  decodeWord 0x00C0146000000001 = .ok (.enq (h 0) .core 5 6 .copy) ∧
  decodeWord 0x00B400001B000000 = .ok (.fence (h 0) .pkg .ar) ∧
  decodeWord 0x00E1000020000000 = .ok (.eretReclaim (h 0)) ∧
  decodeWord 0x00E3004000000001 = .ok (.ctxsaveFull (h 0) 4) ∧
  decodeWord 0x00D11C8260000000 = .ok (.cstatBm (h 0) 7 8 9) ∧
  decodeWord 0 = .ok (.illop 0)

/-- A turn of a context runs the instruction that the eight bytes at its PC, translated through its address space, decode to; a word that
R82 rejects traps with RSVD at the word, and a fetch that fails traps with its own cause (R12, R80 to R84, R371). A word of an unassigned
major, the all-zero word and every word with OP 0xF0 to 0xFF among them, raises ILLOP precisely at the word, with no effect of its own
(R81, R83). At PC 0 the context ends, and nothing is fetched (R12, R35); where its end has to wait for contributions of its own, it is pending
(R254). That a fetch of a changed address sees the new word is the model's choice (log 34). -/
def Obligations.StepRunsTheDecodedInstruction : Prop :=
  (∀ (s : State) (p : Place) (rest : List Turn),
     s.phase = .up → s.agenda = { place := p, act := .issue } :: rest →
     let u : State := { s with cur := p, agenda := rest }
     u.issues p.core p.role = true → (p.role = .F ∨ u.throttled p.core = false) →
     let v := if p.role = .F then u.modCore p.core (fun k => { k with fwAt := u.gtc + 1 })
       else u.modCore p.core (fun k => { k with trioAt := u.gtc + 1 })
     (v.pc = 0 → v.owes v.me = false → step s = .next (v.endCtx p.core p.role v.me)) ∧
     (v.pc = 0 → v.owes v.me = true → step s = .next (v.modCtx p.core p.role (fun x => { x with ending := some .halt }))) ∧
     (v.pc ≠ 0 →
     (∀ t l i, v.xlat p.core (v.aspaceOf p.core p.role) v.pc .fetch = .ok (t, l) → t.badIn [(l.pa v.pc, 8)] = none →
       decodeWord (leNat (t.readPhys l.key (l.pa v.pc) 8)) = .ok i → step s = exec i t) ∧
     (∀ t l e, v.xlat p.core (v.aspaceOf p.core p.role) v.pc .fetch = .ok (t, l) → t.badIn [(l.pa v.pc, 8)] = none →
       decodeWord (leNat (t.readPhys l.key (l.pa v.pc) 8)) = .error e →
       step s = .next (t.takeTrap p.core p.role 0x02 0 0 0 v.pc)) ∧
     (∀ t l a, v.xlat p.core (v.aspaceOf p.core p.role) v.pc .fetch = .ok (t, l) → t.badIn [(l.pa v.pc, 8)] = some a →
       step s = .next (v.takeTrap p.core p.role 0x25 0 (BitVec.ofNat 64 a) 0 v.pc)) ∧
     (∀ f, v.xlat p.core (v.aspaceOf p.core p.role) v.pc .fetch = .error f →
       step s = .next (v.takeTrap p.core p.role f.cause f.sub (f.val.elim v.pc (BitVec.ofNat 64)) f.other v.pc)))) ∧
  ((∀ w : Nat, w < 2 ^ 64 → (majorAssigned (w / 2 ^ 48 % 256) = false ↔ decodeWord w = .ok (.illop (BitVec.ofNat 64 w)))) ∧
   majorAssigned 0 = false ∧ (∀ n, 0xF0 ≤ n → n ≤ 0xFF → majorAssigned n = false) ∧
   (∀ (w : Word) (s : State), exec (.illop w) s = .next (s.takeTrap s.cur.core s.cur.role 0x01 0 0 0 s.pc)))

/-- Decoding the encoded bytes of a well-formed instruction of the control core gives the instruction and the rest of the bytes, for every
operand at every value that decode accepts (R63 to R82). A word that decodes has the one encoding: encoding the decoded instruction gives
the word back, so no two words are one instruction and no reserved bit is dropped (R65 to R82). -/
def Obligations.DecodeEncode : Prop :=
  (∀ (i : Instr) (w : Nat) (rest : List Byte), i.wf = true → encodeWord i = some w →
     encode i = some (leBytes 8 w) ∧ decode (leBytes 8 w ++ rest) = .ok (i, rest)) ∧
  (∀ (w : Nat) (i : Instr), w < 2 ^ 64 → decodeWord w = .ok i → i.wf = true ∧ encodeWord i = some w)

/-- Every step that goes on keeps memory in its canonical form, whatever the step is and whatever the state (the form is the model's own,
log 1; the bytes are those of R212). -/
def Obligations.StepKeepsMemory : Prop :=
  ∀ s t : State, Memory.wf s.mem = true → step s = .next t → Memory.wf t.mem = true

/-- Every register form of R97 writes the value of the table to G[D], with the latency of R94; a divide occupies the context's divider until
its result lands. Every immediate form of R98 writes the
value of the table to G[D]. BFX writes the field, extended by its sign or by zeros, and BFI replaces the field in the old G[D], bit by
bit; a word whose field ends above bit 63 is rejected at decode (R100, R82). -/
def Obligations.ScalarForms : Prop :=
  ((∀ row ∈ threeRegisterForms, ∀ h d a b s,
     Completes h .all [s.gT a, s.gT b, s.gT d] (row.1 h d a b) s (fun t => t.putG d (row.2.1 (t.g a) (t.g b)) row.2.2)) ∧
   (∀ row ∈ fourRegisterForms, ∀ h d a b c s,
     Completes h .all [s.gT a, s.gT b, s.gT c, s.gT d] (row.1 h d a b c) s
       (fun t => t.putG d (row.2.1 (t.g a) (t.g b) (t.g c)) row.2.2)) ∧
   (∀ row ∈ divideForms, ∀ h d a b s,
     Completes h .all (s.divideOps d a b) (row.1 h d a b) s (fun t => t.putDivide d (row.2 (t.g a) (t.g b)))) ∧
   (∀ row ∈ twoRegisterForms, ∀ h d a s,
     Completes h .all [s.gT a, s.gT d] (row.1 h d a) s (fun t => t.putG d (row.2 (t.g a)) (some 1)))) ∧
  ((∀ row ∈ immediateForms, ∀ h d a e s,
     Completes h .all [s.gT a, s.gT d] (row.1 h d a e) s (fun t => t.putG d (row.2.1 (t.g a) e) row.2.2)) ∧
   (∀ row ∈ shiftForms, ∀ h d a n s,
     Completes h .all [s.gT a, s.gT d] (row.1 h d a n) s (fun t => t.putG d (row.2 (t.g a) n.toNat) (some 1))) ∧
   (∀ h d (e : BitVec 32) s, Completes h .all [s.gT d] (.li h d e) s (fun t => t.putG d (e.signExtend 64) (some 1)))) ∧
  ((∀ h d a sg (pos len1 : BitVec 6) s, pos.toNat + len1.toNat + 1 ≤ 64 → s.mayIssue h .all [s.gT a, s.gT d] = true →
     let t := s.atIssue h [s.gT a, s.gT d]
     ∃ v : Word, exec (.bfx h d a sg pos len1) s = .next ((t.putG d v (some 1)).finish h (s.pushesOf h) (s.pc + 8) 0) ∧
       ∀ j, j < 64 → v.getLsbD j =
         if j ≤ len1.toNat then (t.g a).getLsbD (pos.toNat + j) else sg && (t.g a).getLsbD (pos.toNat + len1.toNat)) ∧
   (∀ h d a (pos len1 : BitVec 6) s, pos.toNat + len1.toNat + 1 ≤ 64 → s.mayIssue h .all [s.gT a, s.gT d, s.gT d] = true →
     let t := s.atIssue h [s.gT a, s.gT d, s.gT d]
     ∃ v : Word, exec (.bfi h d a pos len1) s = .next ((t.putG d v (some 1)).finish h (s.pushesOf h) (s.pc + 8) 0) ∧
       ∀ j, j < 64 → v.getLsbD j =
         if pos.toNat ≤ j ∧ j ≤ pos.toNat + len1.toNat then (t.g a).getLsbD (j - pos.toNat) else (t.g d).getLsbD j) ∧
   (∀ h d a sg (pos len1 : BitVec 6) w, 64 < pos.toNat + len1.toNat + 1 →
     (encodeWord (.bfx h d a sg pos len1) = some w → decodeWord w = .error .rsvd) ∧
     (encodeWord (.bfi h d a pos len1) = some w → decodeWord w = .error .rsvd)))

/-- The corners of division: a zero divisor, the minimum by −1, and rounding toward zero (R58). A divide waits at issue while an older divide
of its context is under way (R94). -/
def Obligations.DivisionCorners : Prop :=
  (∀ h d a b s, s.mayIssue h .all (s.divideOps d a b) = true →
    let t := s.atIssue h (s.divideOps d a b)
    let next (v : Word) : Out := .next ((t.putDivide d v).finish h (s.pushesOf h) (s.pc + 8) 0)
    (t.g b = 0 → exec (.div h d a b) s = next (BitVec.allOnes 64) ∧ exec (.rem h d a b) s = next (t.g a) ∧
      exec (.divn h d a b) s = next (BitVec.allOnes 64) ∧ exec (.remn h d a b) s = next (t.g a)) ∧
    (t.g a = 0x8000000000000000 → t.g b = BitVec.allOnes 64 →
      exec (.div h d a b) s = next 0x8000000000000000 ∧ exec (.rem h d a b) s = next 0) ∧
    (t.g b ≠ 0 → ∃ q r : Word, exec (.div h d a b) s = next q ∧ exec (.rem h d a b) s = next r ∧
      ((t.g a).toInt = (t.g b).toInt * q.toInt + r.toInt ∨ (t.g a = 0x8000000000000000 ∧ t.g b = BitVec.allOnes 64)) ∧
      r.toInt.natAbs < (t.g b).toInt.natAbs ∧ (0 ≤ (t.g a).toInt → 0 ≤ r.toInt) ∧ ((t.g a).toInt ≤ 0 → r.toInt ≤ 0)) ∧
    (t.g b ≠ 0 → ∃ q r : Word, exec (.divn h d a b) s = next q ∧ exec (.remn h d a b) s = next r ∧
      (t.g a).toNat = (t.g b).toNat * q.toNat + r.toNat ∧ r.toNat < (t.g b).toNat)) ∧
  (∀ row ∈ divideForms, ∀ h d a b s, (s.toksOf h).isSome = true → (s.popsMade = true ∨ (s.core s.cur.core).popReady (s.popsOf h) = true) →
    (∃ e ∈ ((s.landed (s.divideOps d a b)).core s.cur.core).pend, e.divide = true ∧ ∃ n, e.target = .g s.cur.role n) →
    exec (row.1 h d a b) s = .next ((s.landed (s.divideOps d a b)).sleepNow .busy false))

/-- A result for G0 is discarded and G0 reads zero; any other scalar result is pending for its register, to be ready after its latency,
and changes nothing else (R10, R11, R26); a divide's marks its divider as in use, also for G0 (R94). What a reader of G[n] in cycle `u` sees: the youngest of the results for it that are ready by
`u`, else the old value; and what stays pending: the results that are not ready, without those that a younger ready result for the same
register overtakes (R26, R27); the scale containers of a tile row are part of the row (R124). -/
def Obligations.ScalarResults : Prop :=
  ((∀ (x : Ctx), x.getG 0 = 0 ∧ ∀ v, x.setG 0 v = x) ∧
   (∀ (s : State) (v : Word) (lat : Option Nat), s.putG 0 v lat = s) ∧
   (∀ (s : State) (d : GReg) (v : Word) (lat : Option Nat), d ≠ 0 →
     (s.putG d v lat).core s.cur.core =
       { s.core s.cur.core with pend := (s.core s.cur.core).pend ++
           [{ target := .g s.cur.role d.toNat, mask := 0, value := v.toNat, ready := lat.map (fun l => s.gtc + l) }] } ∧
     (∀ c, c ≠ s.cur.core → (s.putG d v lat).core c = s.core c) ∧
     { s.putG d v lat with cores := s.cores } = s) ∧
   (∀ (s : State) (d : GReg) (v : Word),
     (s.putDivide d v).core s.cur.core =
       { s.core s.cur.core with pend := (s.core s.cur.core).pend ++
           [{ target := .g s.cur.role d.toNat, mask := 0, value := v.toNat, ready := none, divide := true }] } ∧
     (∀ c, c ≠ s.cur.core → (s.putDivide d v).core c = s.core c) ∧
     { s.putDivide d v with cores := s.cores } = s)) ∧
  (let due (u : Nat) (e : Pend) : Bool := match e.ready with | some t => decide (t ≤ u) | none => false
   let one (a b : Target) : Bool := decide (a = b) || (match a, b with | .row i, .side j => i == j | .side i, .row j => i == j | _, _ => false)
   let names (r : Role) (n : GReg) (e : Pend) : Bool := match e.target with | .g q m => q == r && BitVec.ofNat 5 m == n | _ => false
   (∀ (k : Core) (u : Nat) (r : Role) (n : GReg), n ≠ 0 →
     ((k.landBy u).ctx r).getG n =
       match (k.pend.filter (fun e => due u e && names r n e)).getLast? with
       | some e => BitVec.ofNat 64 e.value
       | none => (k.ctx r).getG n) ∧
   (∀ (k : Core) (u : Nat), ∃ keep : List Pend → List Pend, (k.landBy u).pend = keep k.pend ∧ keep [] = [] ∧
     ∀ e es, keep (e :: es) =
       if due u e then keep es
       else if !e.target.merges && es.any (fun y => due u y && one e.target y.target) then keep es
       else e :: keep es))

/-- The frame of the scalar instructions that only write G[D], BFX, BFI, SEL, MADD and LI among them, and of the vector instructions that round
nothing and read no memory: arithmetic on integers, the operations on bits and order, VABS, VNEG, VMOV, VSEL, VCMP, and the mask operations
KOP, KPOP and KFIRST. With no TOK bit, nothing that the frame names changes (R10, R26, R27, R97, R98, R100, R127 to R132). -/
def Obligations.RegisterFrames : Prop :=
  (∀ (h : Hdr) (s t : State), s.noTokens h →
     (∀ row ∈ threeRegisterForms, ∀ d a b, s.mayIssue h .all [s.gT a, s.gT b, s.gT d] = true → exec (row.1 h d a b) s = .next t →
       RegisterFrame s (s.atIssue h [s.gT a, s.gT b, s.gT d]) t) ∧
     (∀ row ∈ divideForms, ∀ d a b, s.mayIssue h .all (s.divideOps d a b) = true → exec (row.1 h d a b) s = .next t →
       RegisterFrame s (s.atIssue h (s.divideOps d a b)) t) ∧
     (∀ row ∈ fourRegisterForms, ∀ d a b c, s.mayIssue h .all [s.gT a, s.gT b, s.gT c, s.gT d] = true → exec (row.1 h d a b c) s = .next t →
       RegisterFrame s (s.atIssue h [s.gT a, s.gT b, s.gT c, s.gT d]) t) ∧
     (∀ d e, s.mayIssue h .all [s.gT d] = true → exec (.li h d e) s = .next t → RegisterFrame s (s.atIssue h [s.gT d]) t) ∧
     (∀ d a sg pos len, s.mayIssue h .all [s.gT a, s.gT d] = true → exec (.bfx h d a sg pos len) s = .next t →
       RegisterFrame s (s.atIssue h [s.gT a, s.gT d]) t) ∧
     (∀ d a pos len, s.mayIssue h .all [s.gT a, s.gT d, s.gT d] = true → exec (.bfi h d a pos len) s = .next t →
       RegisterFrame s (s.atIssue h [s.gT a, s.gT d, s.gT d]) t) ∧
     (∀ row ∈ twoRegisterForms, ∀ d a, s.mayIssue h .all [s.gT a, s.gT d] = true → exec (row.1 h d a) s = .next t →
       RegisterFrame s (s.atIssue h [s.gT a, s.gT d]) t) ∧
     (∀ row ∈ immediateForms, ∀ d a e, s.mayIssue h .all [s.gT a, s.gT d] = true → exec (row.1 h d a e) s = .next t →
       RegisterFrame s (s.atIssue h [s.gT a, s.gT d]) t) ∧
     (∀ row ∈ shiftForms, ∀ d a n, s.mayIssue h .all [s.gT a, s.gT d] = true → exec (row.1 h d a n) s = .next t →
       RegisterFrame s (s.atIssue h [s.gT a, s.gT d]) t)) ∧
  (∀ (h : Hdr) (s t : State), s.noTokens h →
     (∀ row ∈ integerForms, ∀ k ty sat d a b, s.mayIssue h .comp (kT k :: (s.vT a ++ s.vT b) ++ s.vT d) = true →
       (s.atIssue h (kT k :: (s.vT a ++ s.vT b) ++ s.vT d)).tileOk s.cur.core
         ((s.atIssue h (kT k :: (s.vT a ++ s.vT b) ++ s.vT d)).core s.cur.core).accsel = true →
       exec (row.1 h k ty sat d a b) s = .next t → RegisterFrame s (s.atIssue h (kT k :: (s.vT a ++ s.vT b) ++ s.vT d)) t) ∧
     (∀ row ∈ elementForms, ∀ k ty d a b, s.mayIssue h .comp (kT k :: (s.vT a ++ s.vT b) ++ s.vT d) = true →
       (s.atIssue h (kT k :: (s.vT a ++ s.vT b) ++ s.vT d)).tileOk s.cur.core
         ((s.atIssue h (kT k :: (s.vT a ++ s.vT b) ++ s.vT d)).core s.cur.core).accsel = true →
       exec (row.1 h k ty d a b) s = .next t → RegisterFrame s (s.atIssue h (kT k :: (s.vT a ++ s.vT b) ++ s.vT d)) t)) ∧
  (∀ (h : Hdr) (s t : State), s.noTokens h →
     let framed (ts : List Target) (i : Instr) : Prop := s.mayIssue h .comp ts = true →
       (s.atIssue h ts).tileOk s.cur.core ((s.atIssue h ts).core s.cur.core).accsel = true → exec i s = .next t → RegisterFrame s (s.atIssue h ts) t
     (∀ k ty d a, framed (kT k :: s.vT a ++ s.vT d) (.vabs h k ty d a) ∧ framed (kT k :: s.vT a ++ s.vT d) (.vneg h k ty d a) ∧
       framed (kT k :: s.vT a ++ s.vT d) (.vmov h k ty d a)) ∧
     (∀ k ty d a b, framed (kT k :: (s.vT a ++ s.vT b) ++ s.vT d) (.vsel h k ty d a b)) ∧
     (∀ k ty cc d a b, framed (kT k :: (s.vT a ++ s.vT b) ++ [kT d]) (.vcmp h k ty cc d a b)) ∧
     (∀ d, framed [kT d] (.kop h d .ones) ∧ framed [kT d] (.kop h d .zero)) ∧
     (∀ d a, framed [kT a, kT d] (.kop h d (.not a)) ∧ framed [kT a, kT d] (.kop h d (.mov a))) ∧
     (∀ d a b, framed [kT a, kT b, kT d] (.kop h d (.and a b)) ∧ framed [kT a, kT b, kT d] (.kop h d (.or a b)) ∧
       framed [kT a, kT b, kT d] (.kop h d (.xor a b)) ∧ framed [kT a, kT b, kT d] (.kop h d (.andn a b))) ∧
     (∀ ty d a, framed [kT a, s.gT d] (.kpop h ty d a) ∧ framed [kT a, s.gT d] (.kfirst h ty d a)))

/-- The swizzle of an effective address replaces bits [10:5] by their exclusive or with bits [15+swz:10+swz], changes no other bit, and is
a permutation of the chunks of a row (R32). -/
def Obligations.Swizzle : Prop :=
  (∀ (swz : BitVec 3) (e i : Nat), (swizzle swz e).testBit i =
    if swz ≠ 0 ∧ 5 ≤ i ∧ i ≤ 10 then (e.testBit i != e.testBit (i + 5 + swz.toNat)) else e.testBit i) ∧
  (∀ (swz : BitVec 3) (e f : Nat), swizzle swz e = swizzle swz f → e = f) ∧
  (∀ (swz : BitVec 3) (e j : Nat), e % 32 + j < 32 → swizzle swz (e + j) = swizzle swz e + j) ∧
  (∀ (swz : BitVec 3) (e j : Nat), e % 2048 = 0 → j < 64 →
    swizzle swz (e + 32 * j) / 32 % 64 = if swz = 0 then j else Nat.xor j (e / 2 ^ (10 + swz.toNat) % 64)) ∧
  swizzle 2 0x12860 = 0x12A20

/-- LDS reads the little-endian bytes at the swizzled address and writes them, sign- or zero-extended, to G[D] after a variable time (R94,
R101, R102). STS completes where the address passes R31, and stores the low bytes of G[B] little-endian at the swizzled address of G[A] +
sx(OFF): those bytes read back, every other byte of memory reads as before, and without TOK bits nothing else changes (R31, R32, R101,
R102). LDS and STS at an address that is not a multiple of the size raise ALIGN; at an aligned one outside the range or the reservation,
SPRANGE. Both report the effective address and have no effect (R31, R102). -/
def Obligations.Scratchpad : Prop :=
  (∀ h ty swz d a off s,
     CompletesIf h .all [s.gT a, s.gT d] (.lds h ty swz d a off) s
       (fun t => t.spFine (t.g a + off.signExtend 64) (styBytes ty) ∧
         t.mayRead (t.spAt swz (t.g a + off.signExtend 64) (styBytes ty)))
       (fun t =>
         let e := t.g a + off.signExtend 64
         let x := leNat (t.spRead t.cur.core swz e.toNat (styBytes ty))
         (t.record (t.myAccess false (t.spAt swz e (styBytes ty)))).putG d
           (if stySigned ty then (BitVec.ofNat (8 * styBytes ty) x).signExtend 64 else BitVec.ofNat 64 x) none)) ∧
  (∀ (h : Hdr) (ty : STy) (swz : BitVec 3) (a b : GReg) (off : BitVec 16) (s : State), s.mayIssue h .all [s.gT a, s.gT b] = true →
     let t := s.atIssue h [s.gT a, s.gT b]
     let e := t.g a + off.signExtend 64
     let byteAt (j : Nat) : Nat := spAddr s.cur.core (swizzle swz (e.toNat + j))
     t.spFine e (styBytes ty) → t.mayWrite (t.spAt swz e (styBytes ty)) →
     ∃ v : State, exec (.sts h ty swz a b off) s = .next v ∧ v.pc = nextPc s.pc ∧ (s.noTokens h → StoreFrame s t v) ∧
       (Memory.wf s.mem = true →
         (∀ j, j < styBytes ty → v.raw (byteAt j) 1 = [(t.g b).extractLsb' (8 * j) 8]) ∧
         (∀ x, (∀ j, j < styBytes ty → x ≠ byteAt j) → v.raw x 1 = s.raw x 1))) ∧
  (∀ (h : Hdr) (ty : STy) (swz : BitVec 3) (a b d : GReg) (off : BitVec 16) (s : State),
     let outside (t : State) (e : Word) : Prop :=
       let r := t.spRange t.cur.core t.cur.role
       e.toNat < r.1 ∨ r.2 < e.toNat + styBytes ty ∨ 0x300000 < e.toNat + styBytes ty
     let bad (t : State) (cause : Nat) : Prop :=
       let e := t.g a + off.signExtend 64
       (e.toNat % styBytes ty ≠ 0 ∧ cause = 0x06) ∨ (e.toNat % styBytes ty = 0 ∧ outside t e ∧ cause = 0x05)
     (∀ cause, s.mayIssue h .all [s.gT a, s.gT d] = true →
       let t := s.atIssue h [s.gT a, s.gT d]
       bad t cause → exec (.lds h ty swz d a off) s =
         .next ((s.landed [s.gT a, s.gT d]).takeTrap s.cur.core s.cur.role cause 0 (t.g a + off.signExtend 64) 0 s.pc)) ∧
     (∀ cause, s.mayIssue h .all [s.gT a, s.gT b] = true →
       let t := s.atIssue h [s.gT a, s.gT b]
       bad t cause → exec (.sts h ty swz a b off) s =
         .next ((s.landed [s.gT a, s.gT b]).takeTrap s.cur.core s.cur.role cause 0 (t.g a + off.signExtend 64) 0 s.pc)))

/-- What BCC compares (R77): EQ, NE, LT, GE signed and LTN, GEN unsigned. Branches transfer to their target with the bubbles of R107; BRL
writes pc + 8 to G31 with scalar ALU latency; a BCC that is not taken goes on (R106, R107). PBR writes its target, if it is a code
address, to B[D] and nothing else but the distance, which it sets to 0 before it counts itself; each further instruction counts one, up to
3 (R106 to R108). A target with a set bit in [2:0], or one that is not the sign extension of its low 56 bits, raises ALIGN at the branch
or at the PBR, and neither the PC nor a register changes (R106). At a distance of 3 it stays (R107). -/
def Obligations.Branches : Prop :=
  (∀ a b : Word, (condHolds .eq a b ↔ a = b) ∧ (condHolds .ne a b ↔ a ≠ b) ∧ (condHolds .lt a b ↔ a.toInt < b.toInt) ∧
     (condHolds .ge a b ↔ b.toInt ≤ a.toInt) ∧ (condHolds .ltn a b ↔ a.toNat < b.toNat) ∧ (condHolds .gen a b ↔ b.toNat ≤ a.toNat)) ∧
  ((∀ h cc a b (disp : BitVec 24) s,
     JumpsIf h [s.gT a, s.gT b] (.bcc h cc a b disp) s (fun t => condHolds cc (t.g a) (t.g b) = true) (fun t => t)
       (fun t => t.pc + disp.signExtend 64 * 8) (fun _ => 2) ∧
     CompletesIf h .all [s.gT a, s.gT b] (.bcc h cc a b disp) s (fun t => condHolds cc (t.g a) (t.g b) = false) (fun t => t)) ∧
   (∀ h (disp : BitVec 24) s,
     JumpsIf h [] (.j h disp) s (fun _ => True) (fun t => t) (fun t => t.pc + disp.signExtend 64 * 8) (fun _ => 2)) ∧
   (∀ h a s,
     JumpsIf h [] (.br h a) s (fun _ => True) (fun t => t) (fun t => (t.ctx t.cur.core t.cur.role).getB a)
       (fun t => 3 - SMap.get 3 (t.ctx t.cur.core t.cur.role).since a.toNat) ∧
     JumpsIf h [s.gT 31] (.brl h a) s (fun _ => True) (fun t => t.putG 31 (t.pc + 8) (some 1))
       (fun t => (t.ctx t.cur.core t.cur.role).getB a) (fun t => 3 - SMap.get 3 (t.ctx t.cur.core t.cur.role).since a.toNat)) ∧
   (∀ h a s, JumpsIf h [s.gT a] (.jr h a) s (fun _ => True) (fun t => t) (fun t => t.g a) (fun _ => 3))) ∧
  ((∀ h d (disp : BitVec 24) s,
     CompletesIf h .all [] (.pbr h d (.rel disp)) s (fun t => isCode (t.pc + disp.signExtend 64 * 8) = true)
       (fun t => t.modCtx t.cur.core t.cur.role
         (fun x => { x.setB d (t.pc + disp.signExtend 64 * 8) with since := SMap.set 3 x.since d.toNat 0 }))) ∧
   (∀ h d a (disp : BitVec 24) s,
     CompletesIf h .all [s.gT a] (.pbr h d (.reg a disp)) s (fun t => isCode (t.g a + disp.signExtend 64 * 8) = true)
       (fun t => t.modCtx t.cur.core t.cur.role
         (fun x => { x.setB d (t.g a + disp.signExtend 64 * 8) with since := SMap.set 3 x.since d.toNat 0 }))) ∧
   (∀ (x : Ctx) (d : BReg) (v : Word), (x.setB d v).getB d = v ∧ ∀ e, e ≠ d → (x.setB d v).getB e = x.getB e) ∧
   (∀ (x : Ctx) (n k : Nat), SMap.get 3 x.since n = k → k + 1 < 3 → SMap.get 3 x.count.since n = k + 1) ∧
   (∀ (x : Ctx) (n k : Nat), SMap.wf 3 x.since = true → SMap.get 3 x.since n = k → 2 ≤ k → SMap.get 3 x.count.since n = 3) ∧
   (∀ (x : Ctx) (d : BReg), SMap.wf 3 x.since = true → SMap.wf 3 (SMap.set 3 x.since d.toNat 0) = true ∧ SMap.wf 3 x.count.since = true)) ∧
  ((∀ w : Word, isCode w = true ↔ w.toNat % 8 = 0 ∧ (∀ i, 55 ≤ i → i < 64 → w.getLsbD i = w.getLsbD 55)) ∧
   (∀ h cc a b (disp : BitVec 24) s e,
     TrapsIf h .all [s.gT a, s.gT b] (.bcc h cc a b disp) s
       (fun t => condHolds cc (t.g a) (t.g b) = true ∧ t.pc + disp.signExtend 64 * 8 = e ∧ isCode e = false) 0x06 0 e) ∧
   (∀ h (disp : BitVec 24) s e,
     TrapsIf h .all [] (.j h disp) s (fun t => t.pc + disp.signExtend 64 * 8 = e ∧ isCode e = false) 0x06 0 e) ∧
   (∀ h d (disp : BitVec 24) s e,
     TrapsIf h .all [] (.pbr h d (.rel disp)) s (fun t => t.pc + disp.signExtend 64 * 8 = e ∧ isCode e = false) 0x06 0 e) ∧
   (∀ h d a (disp : BitVec 24) s e,
     TrapsIf h .all [s.gT a] (.pbr h d (.reg a disp)) s (fun t => t.g a + disp.signExtend 64 * 8 = e ∧ isCode e = false) 0x06 0 e) ∧
   (∀ h a s e,
     TrapsIf h .all [] (.br h a) s (fun t => (t.ctx t.cur.core t.cur.role).getB a = e ∧ isCode e = false) 0x06 0 e ∧
     TrapsIf h .all [s.gT 31] (.brl h a) s (fun t => (t.ctx t.cur.core t.cur.role).getB a = e ∧ isCode e = false) 0x06 0 e) ∧
   (∀ h a s e, TrapsIf h .all [s.gT a] (.jr h a) s (fun t => t.g a = e ∧ isCode e = false) 0x06 0 e))

/-- HALT, and a transfer to PC 0, end the context once its instruction has completed; where a push of its TOK bits waits for room, the others
are made, and the end comes about with the last (R12, R35, R119, R162), and not before what it releases has been performed (R254). NOP has no effect but its TOK bits
and its WAIT; SEV sets the event bit, unless a WFE of the cycle has consumed the setting; WFE clears a set bit and completes, and sleeps while it is clear
(R109, R114 to R116). SEV `.remote`
names a core by its pod core id: its own, whose bit it sets, or another, to which an event message goes; a value with bits [63:15] set, or
a core above 319, raises RSVD (R116). -/
def Obligations.EndsAndEvents : Prop :=
  (let ends (s u : State) (h : Hdr) (npc : Word) : Out :=
     .next ((u.finish h (s.pushesOf h) npc 0).endCtx s.cur.core s.cur.role (u.finish h (s.pushesOf h) npc 0).me)
   let waits (s u : State) (h : Hdr) (npc : Word) : Out :=
     .next ((u.finish h (s.pushesOf h) npc 0).modCtx s.cur.core s.cur.role (fun x => { x with ending := some .halt }))
   (∀ h s, s.mayIssue h .all [] = true →
     (s.endWaits h [] = false → exec (.halt h) s = ends s (s.atIssue h []) h (s.pc + 8)) ∧
     (s.endWaits h [] = true → exec (.halt h) s = waits s (s.atIssue h []) h (s.pc + 8))) ∧
   (∀ h cc a b (disp : BitVec 24) s, let ts := [s.gT a, s.gT b]
     s.mayIssue h .all ts = true → condHolds cc ((s.atIssue h ts).g a) ((s.atIssue h ts).g b) = true →
     (s.atIssue h ts).pc + disp.signExtend 64 * 8 = 0 →
     (s.endWaits h ts = false → exec (.bcc h cc a b disp) s = ends s (s.atIssue h ts) h s.pc) ∧
     (s.endWaits h ts = true → exec (.bcc h cc a b disp) s = waits s (s.atIssue h ts) h s.pc)) ∧
   (∀ h (disp : BitVec 24) s, s.mayIssue h .all [] = true → (s.atIssue h []).pc + disp.signExtend 64 * 8 = 0 →
     (s.endWaits h [] = false → exec (.j h disp) s = ends s (s.atIssue h []) h s.pc) ∧
     (s.endWaits h [] = true → exec (.j h disp) s = waits s (s.atIssue h []) h s.pc)) ∧
   (∀ h a s, s.mayIssue h .all [s.gT a] = true → (s.atIssue h [s.gT a]).g a = 0 →
     (s.endWaits h [s.gT a] = false → exec (.jr h a) s = ends s (s.atIssue h [s.gT a]) h s.pc) ∧
     (s.endWaits h [s.gT a] = true → exec (.jr h a) s = waits s (s.atIssue h [s.gT a]) h s.pc)) ∧
   (∀ h a s, s.mayIssue h .all [] = true → ((s.atIssue h []).ctx s.cur.core s.cur.role).getB a = 0 →
     (s.endWaits h [] = false → exec (.br h a) s = ends s (s.atIssue h []) h s.pc) ∧
     (s.endWaits h [] = true → exec (.br h a) s = waits s (s.atIssue h []) h s.pc)) ∧
   (∀ h a s, let t := s.atIssue h [s.gT 31]
     s.mayIssue h .all [s.gT 31] = true → (t.ctx s.cur.core s.cur.role).getB a = 0 →
     (s.endWaits h [s.gT 31] = false → exec (.brl h a) s = ends s (t.putG 31 (t.pc + 8) (some 1)) h s.pc) ∧
     (s.endWaits h [s.gT 31] = true → exec (.brl h a) s = waits s (t.putG 31 (t.pc + 8) (some 1)) h s.pc)) ∧
   (∀ (s : State) c r a, (s.ctx c r).push = [] → (s.ctx c r).ending = some .halt → s.owes a = false →
     s.afterPushes c r a = (s.modCtx c r (fun x => { x with ending := none })).endCtx c r a) ∧
   (∀ (s : State) (c : Nat) (a : Agent),
     (s.endCtx c .F a).ctx c .F = { s.ctx c .F with run := .idle, pc := 0, wait := none, made := false, latch := none }) ∧
   (∀ (s : State) (c : Nat) (r : Role) (a : Agent), r ≠ .F → ((s.endCtx c r a).ctx c r).run = .ended)) ∧
  ((∀ h s, Completes h .all [] (.nop h) s (fun t => t)) ∧
   (∀ h s, Completes h .all [] (.sev h) s (fun t => t.setEvent t.cur.core)) ∧
   (∀ (s : State) (c : Nat), ((s.core c).evClr ≠ s.gtc + 1 → ((s.setEvent c).core c).evbit = true) ∧
     ((s.core c).evClr = s.gtc + 1 → ((s.setEvent c).core c).evbit = (s.core c).evbit) ∧ ((s.setEvent c).core c).evSet = s.gtc + 1 ∧
     ((s.setEvent c).core c).pulses = (s.core c).pulses ++ [(8, Path.core, ({ vc := [], xc := [] } : Clock))] ∧ ∀ j, j ≠ c → (s.setEvent c).core j = s.core j) ∧
   (∀ h s, CompletesIf h .all [] (.wfe h) s
     (fun t => ((t.core t.cur.core).evbit = true ∨ (t.core t.cur.core).evClr = t.gtc + 1) ∧ (t.ctx t.cur.core t.cur.role).wait ≠ some .wfe)
     (fun t => t.modCore t.cur.core (fun k => { k with evbit := false, evClr := t.gtc + 1 }))) ∧
   (∀ h s, CompletesIf h .all [] (.wfe h) s (fun t => (t.ctx t.cur.core t.cur.role).wait = some .wfe) (fun t => t)) ∧
   (∀ h s, SleepsIf h .all [] (.wfe h) s
     (fun t => (t.core t.cur.core).evbit = false ∧ (t.core t.cur.core).evClr ≠ t.gtc + 1 ∧ (t.ctx t.cur.core t.cur.role).wait ≠ some .wfe)
     (fun _ => .wfe))) ∧
  ((∀ h a s, CompletesIf h .all [s.gT a] (.sevRemote h a) s
     (fun t => (t.g a).toNat = t.podId t.cur.core ∧ (t.g a).toNat < 2 ^ 15 ∧ (t.g a).toNat % 512 ≤ 319)
     (fun t => t.setEvent t.cur.core)) ∧
   (∀ h a s, CompletesIf h .all [s.gT a] (.sevRemote h a) s
     (fun t => (t.g a).toNat ≠ t.podId t.cur.core ∧ (t.g a).toNat < 2 ^ 15 ∧ (t.g a).toNat % 512 ≤ 319)
     (fun t => t.send (t.podId t.cur.core) (t.g a).toNat (t.groupOf t.cur.core).1 (t.groupOf t.cur.core).2 .event)) ∧
   (∀ h a s, TrapsIf h .all [s.gT a] (.sevRemote h a) s (fun t => 2 ^ 15 ≤ (t.g a).toNat ∨ 319 < (t.g a).toNat % 512) 0x02 0 0))

/-- WAITT without `.p` completes in a cycle in which u(GTC) ≥ u(a) and writes no register; before it, it sleeps until then. Its operands are
those that it read when it issued, also where it has slept since (R93). The next
instruction issues no earlier than the cycle after (R112). WAITT `.p`, once GTC has reached a: it completes for a sequence number that is
0, above CHTAIL0 when it issued, or retired, and raises the promise-miss trap 0x31 otherwise (R113). -/
def Obligations.Waits : Prop :=
  ((∀ h a s, CompletesIf h .all [s.gT a] (.waitt h a) s (fun t => (t.waitTime a).toNat ≤ t.gtc) (fun t => t)) ∧
   (∀ h a s, SleepsIf h .all [s.gT a] (.waitt h a) s (fun t => t.gtc < (t.waitTime a).toNat) (fun t => .waitt (t.waitTime a))) ∧
   (∀ (t : State) a, (∀ v, (t.ctx t.cur.core t.cur.role).wait ≠ some (.waitt v)) → t.waitTime a = t.g a) ∧
   (∀ (t : State) a v, (t.ctx t.cur.core t.cur.role).wait = some (.waitt v) → t.waitTime a = v) ∧
   (∀ s v, (s.ctx s.cur.core s.cur.role).run = .sleeping → (s.ctx s.cur.core s.cur.role).wait = some (.waitt v) →
     (v.toNat ≤ s.gtc → exec .waittExpire s = .next (s.wake s.cur.core s.cur.role)) ∧
     (s.gtc < v.toNat → exec .waittExpire s = .next s)) ∧
   (∀ (s : State) h ps npc b, s.gtc + 1 ≤ ((s.finish h ps npc b).ctx s.cur.core s.cur.role).nextIssue ∧
     ((s.finish h ps npc b).ctx s.cur.core s.cur.role).nextIssue = s.gtc + 1 + Nat.max h.wait.toNat b)) ∧
  (let past (t : State) (p : Word × Word × Bool) : Prop :=
     p.2.2 = false ∨ ∀ e ∈ ((t.core t.cur.core).chain 0).cmds, e.seq = p.2.1.toNat → e.status = 2 ∨ e.status = 3
   (∀ h a b s, CompletesIf h .all [s.gT a, s.gT b] (.waittP h a b) s
     (fun t => (t.waitPromise a b).1.toNat ≤ t.gtc ∧ past t (t.waitPromise a b)) (fun t => t)) ∧
   (∀ h a b s v, TrapsIf h .all [s.gT a, s.gT b] (.waittP h a b) s
     (fun t => (t.waitPromise a b).1.toNat ≤ t.gtc ∧ (t.waitPromise a b).2.1 = v ∧ ¬ past t (t.waitPromise a b)) 0x31 0 v) ∧
   (∀ h a b s, SleepsIf h .all [s.gT a, s.gT b] (.waittP h a b) s (fun t => t.gtc < (t.waitPromise a b).1.toNat)
     (fun t => .waittP (t.waitPromise a b).1 (t.waitPromise a b).2.1 (t.waitPromise a b).2.2)) ∧
   (∀ (t : State) a b, (∀ v q n, (t.ctx t.cur.core t.cur.role).wait ≠ some (.waittP v q n)) →
     t.waitPromise a b = (t.g a, t.g b, decide (t.g b ≠ 0 ∧ (t.g b).toNat ≤ ((t.core t.cur.core).reg 0x318).toNat))) ∧
   (∀ (t : State) a b v q n, (t.ctx t.cur.core t.cur.role).wait = some (.waittP v q n) → t.waitPromise a b = (v, q, n)))

/-- Before an instruction issues: TOK bits that name no FIFO raise RSVD, a context that the table does not mark raises ROLE, and both
without pops or any other effect; and pops that cannot be made let the instruction wait (R64, R83, R157, R161). With CTL.CHK set, a scalar
instruction that reads or writes a register whose older fixed-latency result is still pending raises STALL, precisely and without effect;
with CHK clear it issues (R28). -/
def Obligations.IssueChecks : Prop :=
  ((∀ (i : Instr) (h : Hdr) (rt : Rights) (s : State), i.wf = true → rightsOf i = some (h, rt) →
     (s.toksOf h = none → exec i s = .next (s.takeTrap s.cur.core s.cur.role 0x02 0 0 0 s.pc)) ∧
     ((s.toksOf h).isSome = true → ¬ hasRight rt (s.core s.cur.core).single s.cur.role →
       exec i s = .next (s.takeTrap s.cur.core s.cur.role 0x03 0 0 0 s.pc)) ∧
     ((s.toksOf h).isSome = true → hasRight rt (s.core s.cur.core).single s.cur.role → s.popsMade = false →
       (∃ q ∈ s.popsOf h, ((s.core s.cur.core).fifo q).toks = [] ∧ ((s.core s.cur.core).fifo q).ended = false) →
       exec i s = .next (s.sleepNow .pop false))) ∧
   (∀ (h : Hdr) (s : State), s.toksOf h = none ↔
     ((s.core s.cur.core).single = true ∧ (h.popL || h.popR || h.pushL || h.pushR) = true) ∨
     ((s.core s.cur.core).single = false ∧ ((s.cur.role = .L ∧ (h.popL || h.pushL) = true) ∨ (s.cur.role = .S ∧ (h.popR || h.pushR) = true) ∨
       (s.cur.role = .F ∧ (h.popL || h.popR || h.pushL || h.pushR) = true))))) ∧
  (∀ row ∈ threeRegisterForms, ∀ (h : Hdr) (d a b : GReg) (s : State),
     let ts := [s.gT a, s.gT b, s.gT d]
     let k := (s.landed ts).core s.cur.core
     (s.toksOf h).isSome = true → (s.popsMade = true ∨ (s.core s.cur.core).popReady (s.popsOf h) = true) → k.busy ts = false →
     ((k.reg 0).toNat % 2 = 1 → (∃ e ∈ k.pend, e.ready.isSome = true ∧ e.target ∈ ts) →
       exec (row.1 h d a b) s = .next ((s.landed ts).takeTrap s.cur.core s.cur.role 0x04 0 0 0 s.pc)) ∧
     ((k.reg 0).toNat % 2 = 0 → ∃ v : Word, exec (row.1 h d a b) s =
       .next (((s.atIssue h ts).putG d v row.2.2).finish h (s.pushesOf h) (s.pc + 8) 0)))

/-- SRD writes the value of the register to G[D] with latency 1; the registers of 20 from EPC to ECTL are read by firmware alone, and
FSTATE reads the item that FSEL names (R19, R94, R110, R159, R376). SWR stores an accepted value in the register, which then reads back: a
register of a context and a stream descriptor at once, any other from the next cycle on (R23, R154, R337, R352). A
firmware register raises ROLE from any other context, and a value that the register's description rejects raises RSVD, and then nothing is
written (R110, R111). -/
def Obligations.SystemRegisters : Prop :=
  ((∀ h d (sys : BitVec 12) s, (sysAccess sys.toNat).isSome = true →
     CompletesIf h .all [s.gT d, .noMerge s.cur.role sys.toNat] (.srd h d sys) s
       (fun t => sys.toNat ≠ 0x408 ∧ (0x401 ≤ sys.toNat → sys.toNat ≤ 0x409 → t.cur.role = .F))
       (fun t => (t.merged sys.toNat).putG d ((t.merged sys.toNat).sysValue t.cur.core t.cur.role sys.toNat) (some 1))) ∧
   (∀ h d s v, CompletesIf h .all [s.gT d, .noMerge s.cur.role 0x408] (.srd h d 0x408) s
     (fun t => t.cur.role = .F ∧ t.fstateRead t.cur.core = some v) (fun t => t.putG d v (some 1))) ∧
   (∀ h d (sys : BitVec 12) s, 0x401 ≤ sys.toNat → sys.toNat ≤ 0x409 →
     TrapsIf h .all [s.gT d, .noMerge s.cur.role sys.toNat] (.srd h d sys) s (fun t => t.cur.role ≠ .F) 0x03 0 0) ∧
   (∀ (s : State) c r, s.sysValue c r 0x010 = BitVec.ofNat 64 s.gtc ∧
     s.sysValue c r 0x012 = BitVec.ofNat 64 (s.gtc / 2 ^ (SMap.get 0 s.sys 0x011).toNat) ∧
     s.sysValue c r 0x102 = BitVec.ofNat 64 ((SMap.get 0 s.sys 0x500).toNat % 64 * 512 + c)) ∧
   (∀ (s : State) c r, ∀ n ∈ [0x000, 0x001, 0x002, 0x003, 0x004, 0x008, 0x00F, 0x110, 0x118, 0x201, 0x210, 0x211, 0x300, 0x308, 0x310, 0x318,
       0x340, 0x341, 0x350, 0x351, 0x352, 0x353, 0x400, 0x401, 0x402, 0x403, 0x404, 0x405, 0x406, 0x410, 0x411, 0x412, 0x413, 0x420, 0x500],
     s.sysValue c r n = s.sysAt c r n)) ∧
  (let mayWrite (acc : SysAccess) (t : State) : Prop := acc = .rw ∨ t.cur.role = .F
   let ops (s : State) (a : GReg) (n : Nat) : List Target := s.gT a :: .noMerge s.cur.role n :: (if 0x008 ≤ n ∧ n ≤ 0x00F then [.tile (n - 8)] else [])
   (∀ h a (sys : BitVec 12) acc s, sysAccess sys.toNat = some acc → acc ≠ .ro →
     CompletesIf h .all (ops s a sys.toNat) (.swr h a sys) s
       (fun t => mayWrite acc t ∧ sys.toNat ≠ 0x408 ∧ sys.toNat ≠ 0x409 ∧
         (t.merged sys.toNat).sysOk t.cur.core t.cur.role sys.toNat (t.g a) = true ∧ ¬ (sys.toNat = 0x412 ∧ (t.g a).getLsbD 63 = true))
       (fun t => (t.merged sys.toNat).sysWrite t.cur.core t.cur.role sys.toNat (t.g a))) ∧
   (∀ h a s u, CompletesIf h .all (ops s a 0x408) (.swr h a 0x408) s
     (fun t => t.cur.role = .F ∧ t.fstateWrite t.cur.core (t.g a) = some u) (fun _ => u)) ∧
   (∀ h a s u, CompletesIf h .all (ops s a 0x409) (.swr h a 0x409) s
     (fun t => t.cur.role = .F ∧ t.ectl t.cur.core (t.g a) = some u) (fun _ => u)) ∧
   (∀ h a (sys : BitVec 12) s, sysAccess sys.toNat = some .fw →
     TrapsIf h .all (ops s a sys.toNat) (.swr h a sys) s (fun t => t.cur.role ≠ .F) 0x03 0 0) ∧
   (∀ h a (sys : BitVec 12) acc s, sysAccess sys.toNat = some acc → acc ≠ .ro → sys.toNat ≠ 0x408 → sys.toNat ≠ 0x409 →
     TrapsIf h .all (ops s a sys.toNat) (.swr h a sys) s
       (fun t => mayWrite acc t ∧ (t.merged sys.toNat).sysOk t.cur.core t.cur.role sys.toNat (t.g a) = false) 0x02 0 0) ∧
   (∀ (s : State) c r (w : Word), ∀ n ∈ [0x110, 0x113, 0x117, 0x210, 0x212, 0x410, 0x411, 0x413], (s.sysWrite c r n w).sysAt c r n = w) ∧
   (∀ (s : State) c r (w : Word), ∀ n ∈ [0x000, 0x001, 0x002, 0x003, 0x004, 0x008, 0x00F, 0x011, 0x118, 0x200, 0x201, 0x211, 0x300, 0x308, 0x340,
       0x341, 0x350, 0x351, 0x352, 0x353, 0x360, 0x400, 0x401, 0x402, 0x403, 0x404, 0x405, 0x406, 0x407, 0x40A, 0x420, 0x421, 0x422, 0x424, 0x426,
       0x520], (s.sysWrite c r n w).sysAt c r n = s.sysAt c r n ∧ (s.sysWrite c r n w).commitLate.sysAt c r n = w) ∧
   (∀ (s : State) c r (w : Word), ((s.sysWrite c r 0x100 w).sysAt c r 0x100).getLsbD 0 = w.getLsbD 0 ∧
     ((s.sysWrite c r 0x100 w).sysAt c r 0x100).getLsbD 1 = (s.sysAt c r 0x100).getLsbD 1))

/-- A trap that R379 delegates enters the context's own handler in one step: UEPC, UCAUSE and UVAL are written, the PC becomes UTVEC with
three bubbles, no other register of the context changes, and the trio goes on (R379, R381). -/
def Obligations.DelegatedTrap : Prop :=
  ∀ (s : State) (c : Nat) (r : Role) (cause sub : Nat) (val other pc : Word), cause < 256 → sub < 256 → s.delegates c r cause →
    let t := s.takeTrap c r cause sub val other pc
    let u := s.modCore c (fun k => k.landIf (landsFor r))
    let x := t.ctx c r
    x.reg 0x411 = pc ∧ x.reg 0x412 = BitVec.ofNat 64 (2 ^ 62 + sub * 256 + cause) ∧ x.reg 0x413 = val ∧
      x.pc = (s.ctx c r).reg 0x410 ∧ x.nextIssue = s.gtc + 1 + 3 ∧ x.run = .running ∧
      (∀ n, n ≠ 0x100 → n ≠ 0x411 → n ≠ 0x412 → n ≠ 0x413 → x.reg n = (s.ctx c r).reg n) ∧
      (∀ n, x.getG n = (u.ctx c r).getG n ∧ ∀ m, x.getB m = (s.ctx c r).getB m) ∧
      (∀ q, q ≠ r → (t.ctx c q).run = (s.ctx c q).run ∧ (t.ctx c q).pc = (s.ctx c q).pc) ∧
      (t.core c).reports = (s.core c).reports ∧ t.mem = s.mem ∧ (∀ j, j ≠ c → t.core j = s.core j)

/-- Any other trap of a trio context stops every context of the trio that runs or sleeps, at its own place, and becomes a report to the
firmware of the core; the trapping context stands at the resumption PC, and firmware itself is not touched (R165, R371, R374). A trap of
the firmware context is delivered to itself while HND is 0 and TVEC is set; otherwise it is a double fault: the context stops, every trio
of the core stays stopped, and the core is reported as failed (R374, R378). Taking a report: EPC, ECAUSE, EVAL and EOTHER are written, HND
is set, the PC becomes TVEC with three bubbles, and the report is no longer pending. A delivery while TVEC is 0 is a double fault (R373,
R374, R378). -/
def Obligations.TrapEntry : Prop :=
  (∀ (s : State) (c : Nat) (r : Role) (cause sub : Nat) (val other pc : Word), r ≠ .F → ¬ s.delegates c r cause →
     let t := s.takeTrap c r cause sub val other pc
     (t.ctx c r).pc = pc ∧
       (∀ q, q ≠ .F → ((s.ctx c q).run = .running ∨ (s.ctx c q).run = .sleeping) → (t.ctx c q).run = .stopped) ∧
       (∀ q, q ≠ .F → (s.ctx c q).run ≠ .running → (s.ctx c q).run ≠ .sleeping → (t.ctx c q).run = (s.ctx c q).run) ∧
       (∀ q, q ≠ r → (t.ctx c q).pc = (s.ctx c q).pc) ∧ (t.ctx c .F).run = (s.ctx c .F).run ∧ (t.ctx c .F).sys = (s.ctx c .F).sys ∧
       (t.core c).pend = [] ∧
       (t.core c).reports = (s.core c).reports ++
         [{ cause := cause, sub := sub, src := 0, ctx := roleNum r, val := val, other := other, stop := true, precise := true,
            launch := (s.core c).launch, at_ := s.gtc }] ∧
       t.mem = s.mem ∧ (∀ j, j ≠ c → t.core j = s.core j)) ∧
  (∀ (s : State) (c cause sub : Nat) (val other pc : Word),
     let t := s.takeTrap c .F cause sub val other pc
     ((s.core c).hnd = false → (s.core c).reg 0x400 ≠ 0 →
       (t.ctx c .F).pc = pc ∧ (t.ctx c .F).run = (if (s.ctx c .F).run = .sleeping then .running else (s.ctx c .F).run) ∧ (∀ q, q ≠ .F → (t.ctx c q).run = (s.ctx c q).run) ∧
         (t.core c).reports = (s.core c).reports ++
           [{ cause := cause, sub := sub, src := 0, ctx := 3, val := val, other := other, stop := false, precise := true, launch := 0,
              at_ := s.gtc }]) ∧
     ((s.core c).hnd = true ∨ (s.core c).reg 0x400 = 0 →
       (t.core c).failed = true ∧ (t.ctx c .F).run = .failed ∧
         (∀ q, q ≠ .F → (t.ctx c q).run ≠ .running ∧ (t.ctx c q).run ≠ .sleeping) ∧ s.physOf c ∈ t.failedLog ∧ HostOut.coreFailed c ∈ t.hostOut)) ∧
  (∀ (s : State) (r : Report), s.reportDue s.cur.core = some r →
     let c := s.cur.core
     let k := s.core c
     (k.reg 0x400 ≠ 0 → ∃ t, exec .reportTake s = .next t ∧
       (t.core c).reg 0x401 = (if k.ctxF.run = .idle then 0 else k.ctxF.pc) ∧
       (t.core c).reg 0x402 = BitVec.ofNat 64 (2 ^ 63 + r.src * 2 ^ 24 + r.ctx * 2 ^ 22 + r.chain * 2 ^ 19 + r.sub * 2 ^ 8 + r.cause) ∧
       (t.core c).reg 0x403 = r.val ∧ (t.core c).reg 0x404 = r.other ∧
       (t.ctx c .F).pc = k.reg 0x400 ∧ (t.ctx c .F).nextIssue = s.gtc + 1 + 3 ∧ (t.ctx c .F).run = .running ∧
       (∀ n, (t.ctx c .F).getG n = (s.ctx c .F).getG n) ∧ (t.core c).reports = k.reports.erase r ∧ t.mem = s.mem ∧
       (∀ q, q ≠ .F → t.ctx c q = s.ctx c q)) ∧
     (k.reg 0x400 = 0 → ∃ t, exec .reportTake s = .next t ∧ (t.core c).failed = true))

/-- TRAP and FWCALL complete, their pushes included, and then raise 0x07 and 0x08 with their number as the value; the resumption PC is
that of the next instruction (R371, R387). ERET clears HND and goes to EPC with three bubbles, after it has applied TRIOCTL where a stopped trio
is handled; EPC 0 makes firmware idle; `.reclaim` also ends the reclaim with the block's release; with HND clear it raises RSVD (R349,
R377, R388). TRIOCTL 0 lets the three stopped contexts of the handled trio go on together, each where it stands, unless another trap of
the trio is still to be taken or a context stands at its safe point (R165, R377). -/
def Obligations.TrapInstructions : Prop :=
  ((∀ h (n : BitVec 12) s, s.mayIssue h .all [] = true → s.pushWaits h [] = false →
     exec (.trap h n) s = .next (((s.atIssue h []).finish h (s.pushesOf h) (s.pc + 8) 0).takeTrap s.cur.core s.cur.role 0x07 0
       (n.setWidth 64) 0 (nextPc s.pc))) ∧
   (∀ h d a (n : BitVec 12) s, s.mayIssue h .trio [] = true → s.pushWaits h [] = false →
     exec (.fwcall h d a n) s = .next (((s.atIssue h []).finish h (s.pushesOf h) (s.pc + 8) 0).takeTrap s.cur.core s.cur.role 0x08 0
       (n.setWidth 64) 0 (nextPc s.pc))) ∧
   (∀ h (n : BitVec 12) s, s.mayIssue h .all [] = true → s.pushWaits h [] = true →
     exec (.trap h n) s = .next (((s.atIssue h []).finish h (s.pushesOf h) (s.pc + 8) 0).modCtx s.cur.core s.cur.role
       (fun x => { x with ending := some (.trap 0x07 (n.setWidth 64)) }))) ∧
   (∀ (s : State) c r a cause val, (s.ctx c r).push = [] → (s.ctx c r).ending = some (.trap cause val) →
     s.afterPushes c r a = (s.modCtx c r (fun x => { x with ending := none })).takeTrap c r cause 0 val 0 (s.ctx c r).pc)) ∧
  (let left (t : State) : State :=
     let c := t.cur.core
     let t := if (t.core c).trioHandled then (t.applyTrioctl c).modCore c (fun k => k.setReg 0x40A 0) else t
     t.modCore c (fun k => { k.setReg 0x402 (BitVec.ofNat 64 ((k.reg 0x402).toNat % 2 ^ 63)) with trioHandled := false, handled := 0 })
   let cause (t : State) : Nat := ((t.core t.cur.core).reg 0x402).toNat % 256
   (∀ h s, s.mayIssue h .fw [] = true →
     let t := s.atIssue h []
     let u := left (t.rearm t.cur.core (t.handledByFirmware t.cur.core))
     let epc := (u.core u.cur.core).reg 0x401
     (t.core t.cur.core).hnd = true →
       (epc ≠ 0 → exec (.eret h) s = .next (u.finish h (s.pushesOf h) epc 3)) ∧
       (epc = 0 → s.endWaits h [] = false → exec (.eret h) s =
         .next ((u.finish h (s.pushesOf h) s.pc 0).endCtx s.cur.core s.cur.role (u.finish h (s.pushesOf h) s.pc 0).me))) ∧
   (∀ h s, s.mayIssue h .fw [] = true →
     let t := s.atIssue h []
     let v := t.endReclaim t.cur.core ((t.core t.cur.core).reg 0x403) true
     let u := left (v.rearm t.cur.core (v.handledByFirmware t.cur.core))
     let epc := (u.core u.cur.core).reg 0x401
     (t.core t.cur.core).hnd = true → cause t = 0x33 → epc ≠ 0 →
       exec (.eretReclaim h) s = .next (u.finish h (s.pushesOf h) epc 3)) ∧
   (∀ h s, TrapsIf h .fw [] (.eret h) s (fun t => (t.core t.cur.core).hnd = false) 0x02 0 0) ∧
   (∀ h s, TrapsIf h .fw [] (.eretReclaim h) s (fun t => (t.core t.cur.core).hnd = false ∨ cause t ≠ 0x33) 0x02 0 0)) ∧
  (∀ (s : State) (c : Nat), (s.core c).reg 0x40A = 0 → ((s.core c).reg 0x402).toNat % 256 ≠ 0x40 → ((s.core c).reg 0x402).toNat % 256 ≠ 0x41 →
     (s.core c).launch = (s.core c).handled → (∀ r ∈ (s.core c).reports, r.stop = false) →
     ∀ q, q ≠ .F → (s.ctx c q).run = .stopped → (s.ctx c q).safe = false →
       ((s.applyTrioctl c).ctx c q).run = .running ∧ ((s.applyTrioctl c).ctx c q).pc = (s.ctx c q).pc ∧
       ∀ n, ((s.applyTrioctl c).ctx c q).getG n = (s.ctx c q).getG n)

/-- TLBINV drops the covered leaves of every TLB of the package and completes when no in-flight counter of a covered page is left, or
waits; when it has completed, a home page stays pinned only while some TLB holds an entry of its frame (R224). An ASID above 12 bits raises RSVD (R389). KEYLOAD loads the slot from 64 scratchpad bytes and `.clr` empties it; no other slot
changes; a slot above 8,191, two equal keys, a misaligned address and one outside the scratchpad trap (R390). Accesses of firmware and
contexts whose effect is more than a register: FSTATE, the landing ring, a format window, UCAUSE.RELEASE, and the two commands of ECTL; a
value that they do not take raises RSVD and changes nothing (R226, R349, R352, R376, R382, R383). That a resumed command comes after what
firmware did before is the model's choice (log 29). -/
def Obligations.TlbKeysControl : Prop :=
  (let page (t : State) (a b : GReg) (l : Leaf) : Bool :=
     l.asid == (t.g b).toNat && decide (l.va ≤ (t.g a).toNat % 2 ^ 56) && decide ((t.g a).toNat % 2 ^ 56 < l.va + l.size)
   let idle (t : State) (cov : Leaf → Bool) : Prop := ∀ p ∈ t.quires, ∀ f ∈ p.2.inflight, cov f.1 = false
   (∀ h a b s, CompletesIf h .fw [s.gT a, s.gT b] (.tlbinvPage h a b) s
     (fun t => (t.g b).toNat < 2 ^ 12 ∧ idle t (page t a b)) (fun t => t.invalidated (page t a b))) ∧
   (∀ h b s, CompletesIf h .fw [s.gT b] (.tlbinvAsid h b) s
     (fun t => (t.g b).toNat < 2 ^ 12 ∧ idle t (fun l => l.asid == (t.g b).toNat)) (fun t => t.invalidated (fun l => l.asid == (t.g b).toNat))) ∧
   (∀ h s, CompletesIf h .fw [] (.tlbinvAll h) s (fun t => idle t (fun _ => true)) (fun t => t.invalidated (fun _ => true))) ∧
   (∀ h s, s.mayIssue h .fw [] = true → ¬ idle (s.atIssue h []) (fun _ => true) →
     exec (.tlbinvAll h) s = .next (((s.atIssue h []).dropLeaves (fun _ => true)).sleepNow .inflight true)) ∧
   (∀ h b s, s.mayIssue h .fw [s.gT b] = true →
     let t := s.atIssue h [s.gT b]
     (t.g b).toNat < 2 ^ 12 → ¬ idle t (fun l => l.asid == (t.g b).toNat) →
     exec (.tlbinvAsid h b) s = .next ((t.dropLeaves (fun l => l.asid == (t.g b).toNat)).sleepNow .inflight true)) ∧
   (∀ h a b s, s.mayIssue h .fw [s.gT a, s.gT b] = true →
     let t := s.atIssue h [s.gT a, s.gT b]
     (t.g b).toNat < 2 ^ 12 → ¬ idle t (page t a b) →
     exec (.tlbinvPage h a b) s = .next ((t.dropLeaves (page t a b)).sleepNow .inflight true)) ∧
   (∀ (s : State) (cov : Leaf → Bool) (c : Nat), ((s.invalidated cov).core c).tlb = ((s.dropLeaves cov).core c).tlb) ∧
   (∀ (s : State) (cov : Leaf → Bool) (q : Nat), ((s.invalidated cov).quire q).tlb = ((s.dropLeaves cov).quire q).tlb) ∧
   (∀ (s : State) (cov : Leaf → Bool) (q : Nat) (f : Nat × Nat), f ∈ ((s.invalidated cov).quire q).pinned ↔
     f ∈ (s.quire q).pinned ∧ ((∃ p ∈ (s.dropLeaves cov).cores, ∃ l ∈ p.2.tlb, l.frame = f.1) ∨
       ∃ p ∈ (s.dropLeaves cov).quires, ∃ l ∈ p.2.tlb, l.frame = f.1)) ∧
   (∀ h a b s, TrapsIf h .fw [s.gT a, s.gT b] (.tlbinvPage h a b) s (fun t => 2 ^ 12 ≤ (t.g b).toNat) 0x02 0 0) ∧
   (∀ h b s, TrapsIf h .fw [s.gT b] (.tlbinvAsid h b) s (fun t => 2 ^ 12 ≤ (t.g b).toNat) 0x02 0 0) ∧
   (∀ (s : State) (cov : Leaf → Bool) (c : Nat) (l : Leaf), l ∈ ((s.dropLeaves cov).core c).tlb ↔ l ∈ (s.core c).tlb ∧ cov l = false) ∧
   (∀ (s : State) (cov : Leaf → Bool) (q : Nat) (l : Leaf), l ∈ ((s.dropLeaves cov).quire q).tlb ↔ l ∈ (s.quire q).tlb ∧ cov l = false)) ∧
  (let keyBytes (t : State) (b : GReg) : List Byte := t.raw (spAddr t.cur.core (t.g b).toNat) 64
   let fine (t : State) (b : GReg) : Prop := (t.g b).toNat % 64 = 0 ∧ t.spCheck t.cur.core t.cur.role (t.g b) 64 1 = none
   (∀ h a b s, s.mayIssue h .fw [s.gT a, s.gT b] = true →
     let t := s.atIssue h [s.gT a, s.gT b]
     (t.g a).toNat ≤ 8191 → fine t b → t.mayRead [(spAddr t.cur.core (t.g b).toNat, 64)] →
     (keyBytes t b).take 32 ≠ (keyBytes t b).drop 32 →
     ∃ u : State, exec (.keyload h a b) s = .next (u.finish h (s.pushesOf h) (s.pc + 8) 0) ∧
       u.keyAt (t.g a).toNat = some { serial := t.keySerial + 1, bits := BitVec.ofNat 512 (leNat (keyBytes t b)) } ∧
       (∀ i, i ≠ (t.g a).toNat → u.keyAt i = t.keyAt i) ∧ u.mem = t.mem) ∧
   (∀ h a s, CompletesIf h .fw [s.gT a] (.keyloadClr h a) s (fun t => (t.g a).toNat ≤ 8191)
     (fun t => { t with keys := SMap.set none t.keys (t.g a).toNat none })) ∧
   (∀ (s : State) (i j : Nat), ({ s with keys := SMap.set none s.keys i none } : State).keyAt i = none ∧
     (j ≠ i → ({ s with keys := SMap.set none s.keys i none } : State).keyAt j = s.keyAt j)) ∧
   (∀ h a s, TrapsIf h .fw [s.gT a] (.keyloadClr h a) s (fun t => 8191 < (t.g a).toNat) 0x02 0 0) ∧
   (∀ h a b s, TrapsIf h .fw [s.gT a, s.gT b] (.keyload h a b) s (fun t => 8191 < (t.g a).toNat) 0x02 0 0) ∧
   (∀ h a b s v, TrapsIf h .fw [s.gT a, s.gT b] (.keyload h a b) s
     (fun t => (t.g a).toNat ≤ 8191 ∧ t.g b = v ∧ v.toNat % 64 ≠ 0) 0x06 0 v) ∧
   (∀ h a b s v, TrapsIf h .fw [s.gT a, s.gT b] (.keyload h a b) s
     (fun t => (t.g a).toNat ≤ 8191 ∧ t.g b = v ∧ v.toNat % 64 = 0 ∧ (let r := t.spRange t.cur.core t.cur.role
       v.toNat < r.1 ∨ r.2 < v.toNat + 64 ∨ 0x300000 < v.toNat + 64)) 0x05 0 v) ∧
   (∀ h a b s, TrapsIf h .fw [s.gT a, s.gT b] (.keyload h a b) s
     (fun t => (t.g a).toNat ≤ 8191 ∧ fine t b ∧ t.mayRead [(spAddr t.cur.core (t.g b).toNat, 64)] ∧
       (keyBytes t b).take 32 = (keyBytes t b).drop 32) 0x02 0 0)) ∧
  ((∀ s : State, (s.ctx s.cur.core s.cur.role).reg 0x412 &&& 0xFF = 0x33 →
     exec .ucauseRelease s = .next (s.endReclaim s.cur.core ((s.ctx s.cur.core s.cur.role).reg 0x413) true)) ∧
   (∀ s : State, (s.ctx s.cur.core s.cur.role).reg 0x412 &&& 0xFF ≠ 0x33 → exec .ucauseRelease s = .next s.rsvd) ∧
   (∀ (s : State) (c i : Nat) (nid : Word) (b : Pub), (s.core c).port.find nid = some (i, b) → s.endReclaim c nid true = s.unpin c i b) ∧
   (∀ (s : State) (r : GReg) (q : Role) (i : Nat), (s.core s.cur.core).fstateAt = some (q, i) →
     (i < 32 → exec (.fstateAccess false r) s = .next (s.putG r ((s.ctx s.cur.core q).getG (BitVec.ofNat 5 i)) (some 1)) ∧
       exec (.fstateAccess true r) s = .next (s.modCtx s.cur.core q (fun x => x.setG (BitVec.ofNat 5 i) (s.g r)))) ∧
     (32 ≤ i → i < 36 → exec (.fstateAccess false r) s = .next (s.putG r ((s.ctx s.cur.core q).getB (BitVec.ofNat 2 (i - 32))) (some 1)) ∧
       exec (.fstateAccess true r) s = .next (s.modCtx s.cur.core q (fun x => x.setB (BitVec.ofNat 2 (i - 32)) (s.g r)))) ∧
     (i = 36 → exec (.fstateAccess false r) s = .next (s.putG r (s.ctx s.cur.core q).pc (some 1)) ∧
       (isCode (s.g r) = true → exec (.fstateAccess true r) s = .next (s.modCtx s.cur.core q (fun x => { x with pc := s.g r }))) ∧
       (isCode (s.g r) = false → exec (.fstateAccess true r) s = .next s.rsvd))) ∧
   (∀ (s : State) (w : Bool) (r : GReg), (s.core s.cur.core).fstateAt = none → exec (.fstateAccess w r) s = .next s.rsvd) ∧
   (∀ (s : State) (v : Word), s.lzOk s.cur.core s.cur.role true v = true →
     ∃ t, exec (.landingRingWrite true v) s = .next t ∧ (t.core s.cur.core).reg 0x351 = v ∧ (t.core s.cur.core).port.free = v.toNat ∧
       (t.core s.cur.core).port.rd = 0 ∧ (t.core s.cur.core).port.wr = 0 ∧ (t.core s.cur.core).reg 0x350 = (s.core s.cur.core).reg 0x350) ∧
   (∀ (s : State) (v : Word), s.lzOk s.cur.core s.cur.role false v = true →
     ∃ t, exec (.landingRingWrite false v) s = .next t ∧ (t.core s.cur.core).reg 0x350 = v ∧
       (t.core s.cur.core).port = (s.core s.cur.core).port) ∧
   (∀ (s : State) (size : Bool) (v : Word), s.lzOk s.cur.core s.cur.role size v = false → exec (.landingRingWrite size v) s = .next s.rsvd) ∧
   (∀ (s : State) (c : Nat) (r : Role) (size : Bool) (v : Word), s.lzOk c r size v = true ↔
     v.toNat < 2 ^ 22 ∧ v.toNat % 2048 = 0 ∧ (s.core c).port.free = (s.core c).lzsize ∧
       (let base := if size then (s.core c).lzbase else v.toNat
        let z := if size then v.toNat else (s.core c).lzsize
        z = 0 ∨ ((s.spRange c r).1 ≤ base ∧ base + z ≤ (s.spRange c r).2))) ∧
   (∀ (s : State) (st w i : Nat) (v : Word), st < 8 → w < 32 → i < 4 →
     ∃ t, exec (.formatWindowWrite st w i v) s = .next t ∧
       (s.winWord st w 0 % 2 = 1 → i ≠ 0 → t = s) ∧
       (Memory.wf s.mem = true → s.winWord st w 0 % 2 = 1 → i = 0 → t.winWord st w 0 = s.winWord st w 0 - 1 + v.toNat % 2) ∧
       (Memory.wf s.mem = true → s.winWord st w 0 % 2 = 0 → (i ≠ 0 ∨ v.toNat % 2 = 0) → t.winWord st w i = v.toNat) ∧
       (Memory.wf s.mem = true → s.winWord st w 0 % 2 = 0 → i = 0 → v.toNat % 2 = 1 →
         t.winWord st w 0 = if windowValid st v.toNat (s.winWord st w 1) (s.winWord st w 2) (s.winWord st w 3) then v.toNat else v.toNat - 1)) ∧
   (∀ (s : State) (q : Cmd), let ch := (s.core s.cur.core).chain s.cur.chain
     ch.fault = true → ch.run = some q →
     exec .ectlKill s =
       .next ((s.modChain s.cur.core s.cur.chain (fun ch => { ch with fault := false })).retire s.cur.core s.cur.chain q.seq 3) ∧
     let k := s.release (.ctx s.cur.core .F 0) .core
     let u := (k.1.acquire (.cmd s.cur.core s.cur.chain q.seq) k.2).modChain s.cur.core s.cur.chain (fun ch => { ch with fault := false })
     let seen := u.slotFaults s.cur.core s.cur.chain q.seq [(false, 0x20, 2), (false, 0x40, 64), (false, 0x80, 512), (true, 0x1A, 1)]
     (seen = none → ∃ t, exec .ectlResume s = .next t ∧ ((t.core s.cur.core).chain s.cur.chain).fault = false ∧
       ∃ st : List Word, ((t.core s.cur.core).chain s.cur.chain).run =
         some { q with upc := leNat (((s.readKey 0 ((s.core s.cur.core).slot s.cur.chain q.seq) 0x80).drop 0x20).take 1), stack := st, done := false,
                       refused := none, lines := 0, waiting := none, pull := none, next := s.gtc + 1 }) ∧
     (∀ cause x o, seen = some (cause, x, o) → exec .ectlResume s = .next (u.cmdFault s.cur.core s.cur.chain cause 0 x o))) ∧
   (∀ (s : State) (r : Report) (rest : List Report), (s.core s.cur.core).reports = r :: rest → r.cause = 0x32 → r.src = 1 → r.deleg = true →
     s.delegated s.cur.core .C 0x32 = true → (s.ctx s.cur.core .C).run = .running ∨ (s.ctx s.cur.core .C).run = .sleeping →
       exec .scheduleMissDelegation s =
         .next (((s.modCore s.cur.core (fun k => { k with reports := rest })).ectlKill s.cur.core r.chain).delegate s.cur.core .C 0x32 0 r.val
           (s.ctx s.cur.core .C).pc)))

/-- Vector arithmetic rounds the exact result of each active lane once, under the rounding mode of the code or of CTL.DRND, with the
sticky bits of those lanes and one draw each under RSTO (R45, R47, R49, R50, R54, R55, R127). The exact value that an encoding stands for:
floating-point with its infinities and NaNs, integers, the two terms of ds8, and scales (R36 to R38, R42, R44); every rounding goes to a neighbour by
the table of the mode, with the overflow rule, and exact values of ds8 to themselves (R46, R48, R49, R52). -/
def Obligations.VectorArithmetic : Prop :=
  ((∀ row ∈ floatLayouts, ∀ sg ex ma, sg < 2 → ex < 2 ^ row.2.1 → ma < 2 ^ row.2.2.1 →
     let (ty, e, m, bias) := row
     let b := sg * 2 ^ (e + m) + ex * 2 ^ m + ma
     let top : Bool := hasInf ty && ex == 2 ^ e - 1
     let nan8 : Bool := ty == .e4m3 && ex == 15 && ma == 7
     (top = true → ma = 0 → xOf ty b = .inf (sg == 1)) ∧ (top = true → ma ≠ 0 → xOf ty b = .nan) ∧ (nan8 = true → xOf ty b = .nan) ∧
     (top = false → nan8 = false → ∃ n d, xOf ty b = .num (sg == 1) n d false ∧ 0 < d ∧
       (ex = 0 → n * 2 ^ (bias + m - 1) = ma * d) ∧ (ex ≠ 0 → n * 2 ^ (bias + m) = (2 ^ m + ma) * 2 ^ ex * d))) ∧
   (∀ (ty : ETy) (b : Nat), etyIsInt ty = true → xOf ty b = .num (decide (laneInt ty b < 0)) (laneInt ty b).natAbs 1 false) ∧
   (∀ b, b < 256 →
     let w := shiftTerm (b / 128) (b / 16 % 8) + shiftTerm (b / 8 % 2) (b % 8)
     xOf .ds8 b = .num (decide (w < 0)) w.natAbs 64 false ∧
       ∀ rm r sat, ∃ b', b' < 256 ∧ roundTo .ds8 rm r sat (xOf .ds8 b) = .quiet b' ∧ xOf .ds8 b' = xOf .ds8 b) ∧
   (∀ c, c < 1024 → (c / 4 = 255 → xs10 c = none) ∧
     (c / 4 ≠ 255 → ∃ n d, xs10 c = some (.num false n d false) ∧ 0 < d ∧ n * 4 * 2 ^ 127 = (4 + c % 4) * 2 ^ (c / 4) * d))) ∧
  ((∀ row ∈ floatLayouts, ∀ n d, 0 < d → ∃ c, magnitude row.2.2.1 c * d ≤ n * 2 ^ (row.2.2.2 + row.2.2.1 - 1) ∧
     n * 2 ^ (row.2.2.2 + row.2.2.1 - 1) < magnitude row.2.2.1 (c + 1) * d) ∧
   (∀ row ∈ floatLayouts, ∀ rm r sat neg n d c, 0 < d → r < 65536 →
     let (ty, e, m, bias) := row
     let y := n * 2 ^ (bias + m - 1)
     let lo := magnitude m c
     let hi := magnitude m (c + 1)
     lo * d ≤ y → y < hi * d →
     let k := if goesUp rm neg (c % 2 == 1) r (y - lo * d) ((hi - lo) * d) then c + 1 else c
     (k ≤ topCode ty e m → roundTo ty rm r sat (.num neg n d false) =
       { bits := (if neg then 2 ^ (e + m) else 0) + k, unf := decide (k = 0 ∧ n ≠ 0), ovf := false }) ∧
     (topCode ty e m < k → roundTo ty rm r sat (.num neg n d false) = { bits := overflowed ty e m rm sat neg, unf := false, ovf := true })) ∧
   (∀ row ∈ floatLayouts, ∀ rm r sat neg,
     roundTo row.1 rm r sat .nan = .quiet (if hasInf row.1 then topCode row.1 row.2.1 row.2.2.1 + 1 + 2 ^ (row.2.2.1 - 1) else if row.1 = .e4m3 then 0x7F else 0) ∧
     roundTo row.1 rm r sat (.inf neg) = { bits := overflowed row.1 row.2.1 row.2.2.1 .rne (sat && !hasInf row.1) neg, unf := false, ovf := !hasInf row.1 }) ∧
   (∀ ty rm r sat neg n d, etyIsInt ty = true → 0 < d → r < 65536 →
     let q := n / d + (goesUp rm neg (n / d % 2 == 1) r (n % d) d).toNat
     let v : Int := if neg then -q else q
     roundTo ty rm r sat (.num neg n d false) =
       { bits := laneFit ty true v, unf := false, ovf := decide (v < (laneRange ty).1 ∨ (laneRange ty).2 < v) }) ∧
   (roundTo .ds8 .rne 0 false (.num false 4 5 false) = roundTo .ds8 .rne 0 false (.num false 3 4 false) ∧
     roundTo .ds8 .rne 0 false (.num false 5 2 false) = .quiet 0x00 ∧ roundTo .ds8 .rne 0 false (.num true 3 1 false) = .quiet 0x88 ∧
     roundTo .ds8 .rne 0 false (.num false 7 2 false) = { bits := 0x00, unf := false, ovf := true } ∧
     roundTo .ds8 .rtz 0 false (.num false 7 2 false) = .quiet 0x00 ∧
     roundTo .ds8 .rtz 0 false (.num true 4 1 false) = { bits := 0x88, unf := false, ovf := true })) ∧
  (∀ row ∈ floatForms, ∀ h k ty rm sat d a b s,
    RoundsLanes h (kT k :: (s.vT a ++ s.vT b) ++ s.vT d) (row.1 h k ty rm sat d a b) s (fun _ => True) (etyBits ty) (etyLanes ty)
      (fun t => t.lit k ty) rm row.2.2 d
      (fun t m r j => roundTo ty m r sat (row.2.1 m (xOf ty (lane (etyBits ty) (t.v a) j)) (xOf ty (lane (etyBits ty) (t.v b) j))))
      (fun _ => False) (fun _ m => m = 0) (fun v u => u = v)) ∧
  (∀ row ∈ fusedForms, ∀ h k ty rm sat d a b c s,
    RoundsLanes h (kT k :: (s.vT a ++ s.vT b ++ s.vT c) ++ s.vT d) (row.1 h k ty rm sat d a b c) s (fun _ => True) (etyBits ty) (etyLanes ty)
      (fun t => t.lit k ty) rm 4 d
      (fun t m r j => roundTo ty m r sat (row.2 m (xOf ty (lane (etyBits ty) (t.v a) j)) (xOf ty (lane (etyBits ty) (t.v b) j))
        (xOf ty (lane (etyBits ty) (t.v c) j))))
      (fun _ => False) (fun _ m => m = 0) (fun v u => u = v)) ∧
  (∀ row ∈ specialForms, ∀ h k ty rm sat d a s,
    RoundsLanes h (kT k :: s.vT a ++ s.vT d) (row.1 h k ty rm sat d a) s (fun _ => True) (etyBits ty) (etyLanes ty)
      (fun t => t.lit k ty) rm 12 d
      (fun t m r j => roundTo ty m r sat (row.2 (xOf ty (lane (etyBits ty) (t.v a) j))))
      (fun _ => False) (fun _ m => m = 0) (fun v u => u = v))

/-- Integer, bitwise, extreme and sign operations write each active lane with the value of the tables, and no other lane (R40, R56, R127,
R128). VCMP writes the condition of each lane, 0 for an inactive one, to the low bits of K[D]; VSEL takes each bit from A or B; KOP
computes on all 2,048 bits; KPOP counts, and KFIRST finds the lowest set bit (R129 to R131). The condition compares the values of two numbers,
the zeros equal, and a NaN is unordered (R129). -/
def Obligations.VectorIntegers : Prop :=
  ((∀ row ∈ integerForms, ∀ h k ty sat d a b s,
     PutsLanes h (kT k :: (s.vT a ++ s.vT b) ++ s.vT d) (row.1 h k ty sat d a b) s (etyBits ty) (etyLanes ty) (fun t => t.lit k ty) (some 4) d
       (fun t i => laneFit ty sat (row.2 (laneInt ty (lane (etyBits ty) (t.v a) i)) (laneInt ty (lane (etyBits ty) (t.v b) i))))) ∧
   (∀ row ∈ elementForms, ∀ h k ty d a b s,
     PutsLanes h (kT k :: (s.vT a ++ s.vT b) ++ s.vT d) (row.1 h k ty d a b) s (etyBits ty) (etyLanes ty) (fun t => t.lit k ty) (some 4) d
       (fun t i => row.2 ty (lane (etyBits ty) (t.v a) i) (lane (etyBits ty) (t.v b) i))) ∧
   (∀ h k ty d a s,
     PutsLanes h (kT k :: s.vT a ++ s.vT d) (.vabs h k ty d a) s (etyBits ty) (etyLanes ty) (fun t => t.lit k ty) (some 4) d
       (fun t i => lane (etyBits ty) (t.v a) i % 2 ^ (etyBits ty - 1)) ∧
     PutsLanes h (kT k :: s.vT a ++ s.vT d) (.vneg h k ty d a) s (etyBits ty) (etyLanes ty) (fun t => t.lit k ty) (some 4) d
       (fun t i => lane (etyBits ty) (t.v a) i ^^^ 2 ^ (etyBits ty - 1)) ∧
     PutsLanes h (kT k :: s.vT a ++ s.vT d) (.vmov h k ty d a) s (etyBits ty) (etyLanes ty) (fun t => t.lit k ty) (some 4) d
       (fun t i => lane (etyBits ty) (t.v a) i))) ∧
  ((∀ h k ty cc d a b s, s.mayIssue h .comp (kT k :: (s.vT a ++ s.vT b) ++ [kT d]) = true →
     let t := s.atIssue h (kT k :: (s.vT a ++ s.vT b) ++ [kT d])
     t.tileOk t.cur.core (t.core t.cur.core).accsel = true →
     ∃ value, exec (.vcmp h k ty cc d a b) s =
         .next ((t.putK d (2 ^ etyLanes ty - 1) value (some 4)).finish h (s.pushesOf h) (s.pc + 8) 0) ∧
       ∀ i, i < etyLanes ty → value.testBit i = (t.bit k i && vcondHolds cc ty (lane (etyBits ty) (t.v a) i) (lane (etyBits ty) (t.v b) i))) ∧
   (∀ (ty : ETy) (cc : VCond) (x y : Nat), (xOf ty x = .nan ∨ xOf ty y = .nan) → (vcondHolds cc ty x y = true ↔ cc = .ne ∨ cc = .un)) ∧
   (∀ (ty : ETy) (x y n d m e : Nat) (a b : Bool), xOf ty x = .num a n d false → xOf ty y = .num b m e false →
     let p : Int := (if a then -(n : Int) else n) * e
     let q : Int := (if b then -(m : Int) else m) * d
     (vcondHolds .eq ty x y = true ↔ p = q) ∧ (vcondHolds .ne ty x y = true ↔ p ≠ q) ∧ (vcondHolds .lt ty x y = true ↔ p < q) ∧
     (vcondHolds .le ty x y = true ↔ p ≤ q) ∧ (vcondHolds .gt ty x y = true ↔ q < p) ∧ (vcondHolds .ge ty x y = true ↔ q ≤ p) ∧
     vcondHolds .un ty x y = false ∧ vcondHolds .or ty x y = true) ∧
   (∀ (ty : ETy) (x y : Nat) (a : Bool), xOf ty x = .inf a → xOf ty y ≠ .nan →
     (vcondHolds .eq ty x y = true ↔ xOf ty y = .inf a) ∧ (vcondHolds .lt ty x y = true ↔ a = true ∧ xOf ty y ≠ .inf a) ∧
     (vcondHolds .gt ty x y = true ↔ a = false ∧ xOf ty y ≠ .inf a) ∧
     (vcondHolds .lt ty y x = true ↔ a = false ∧ xOf ty y ≠ .inf a) ∧ (vcondHolds .gt ty y x = true ↔ a = true ∧ xOf ty y ≠ .inf a)) ∧
   (∀ h k ty d a b s, s.mayIssue h .comp (kT k :: (s.vT a ++ s.vT b) ++ s.vT d) = true →
     let t := s.atIssue h (kT k :: (s.vT a ++ s.vT b) ++ s.vT d)
     t.tileOk t.cur.core (t.core t.cur.core).accsel = true →
     ∃ value, exec (.vsel h k ty d a b) s =
         .next ((t.putV d (2 ^ 16384 - 1) value (some 4)).finish h (s.pushesOf h) (s.pc + 8) 0) ∧
       ∀ j, j < 16384 → value.testBit j = if t.lit k ty (j / etyBits ty) then (t.v a).testBit j else (t.v b).testBit j) ∧
   (∀ h d s, ∀ row ∈ ([(.ones, [], fun _ => BitVec.allOnes 2048), (.zero, [], fun _ => 0)] : List (KOp × List KReg × (State → Mask))),
     Completes h .comp [kT d] (.kop h d row.1) s (fun t => t.putK d (2 ^ 2048 - 1) (row.2.2 t).toNat (some 1))) ∧
   (∀ h d a s, Completes h .comp [kT a, kT d] (.kop h d (.not a)) s (fun t => t.putK d (2 ^ 2048 - 1) (~~~t.kreg a).toNat (some 1)) ∧
     Completes h .comp [kT a, kT d] (.kop h d (.mov a)) s (fun t => t.putK d (2 ^ 2048 - 1) (t.kreg a).toNat (some 1))) ∧
   (∀ h d a b s, ∀ row ∈ ([(.and a b, fun t => t.kreg a &&& t.kreg b), (.or a b, fun t => t.kreg a ||| t.kreg b),
       (.xor a b, fun t => t.kreg a ^^^ t.kreg b), (.andn a b, fun t => t.kreg a &&& ~~~t.kreg b)] : List (KOp × (State → Mask))),
     Completes h .comp [kT a, kT b, kT d] (.kop h d row.1) s (fun t => t.putK d (2 ^ 2048 - 1) (row.2 t).toNat (some 1))) ∧
   (∀ h ty d a s, s.mayIssue h .comp [kT a, s.gT d] = true →
     let t := s.atIssue h [kT a, s.gT d]
     let m := if ty = .e2m1 then 2048 else etyLanes ty
     exec (.kpop h ty d a) s = .next ((t.putG d (BitVec.ofNat 64 (countOn (t.bit a) m)) (some 1)).finish h (s.pushesOf h) (s.pc + 8) 0) ∧
     ∃ i, exec (.kfirst h ty d a) s = .next ((t.putG d (BitVec.ofNat 64 i) (some 1)).finish h (s.pushesOf h) (s.pc + 8) 0) ∧
       i ≤ m ∧ (∀ j, j < i → t.bit a j = false) ∧ (i < m → t.bit a i = true)))

/-- The moves: broadcasts, iotas and permutations of lanes, and one element out of and into a row (R132, R133). VCELL, VHASH3 and VMORTON
on 32-bit lanes (R142 to R144). -/
def Obligations.VectorMoves : Prop :=
  ((∀ h k ty d a s,
     PutsLanes h ([kT k, s.gT a] ++ s.vT d) (.vbcast h k ty d a) s (etyBits ty) (etyLanes ty) (fun t => t.bit k) (some 4) d
       (fun t _ => (t.g a).toNat) ∧
     PutsLanes h ([kT k, s.gT a] ++ s.vT d) (.viota h k ty d a) s (etyBits ty) (etyLanes ty) (fun t => t.bit k) (some 4) d
       (fun t i => (t.g a).toNat + i)) ∧
   (∀ h k ty d a (op : PermOp) s,
     PutsLanes h (kT k :: (s.vT a ++ permUses s op) ++ s.vT d) (.vperm h k ty d a op) s (etyBits ty) (etyLanes ty) (fun t => t.bit k) (some 4) d
       (fun t i =>
         let n := etyLanes ty
         let x (j : Nat) : Nat := lane (etyBits ty) (t.v a) j
         let y (b : VReg) (j : Nat) : Nat := lane (etyBits ty) (t.v b) j
         match op with
         | .idx b => x (y b i % n)
         | .rot b => x ((i + (t.g b).toNat) % n)
         | .rev => x (n - 1 - i)
         | .ziplo b => if i % 2 = 0 then x (i / 2) else y b ((i - 1) / 2)
         | .ziphi b => if i % 2 = 0 then x (n / 2 + i / 2) else y b (n / 2 + (i - 1) / 2)
         | .even b => if i < n / 2 then x (2 * i) else y b (2 * (i - n / 2))
         | .odd b => if i < n / 2 then x (2 * i + 1) else y b (2 * (i - n / 2) + 1))) ∧
   (∀ h ty d a b s, CompletesV h (s.gT b :: s.vT a ++ [s.gT d]) (.vext h ty d a b) s (fun t =>
     let e := lane (etyBits ty) (t.v a) ((t.g b).toNat % etyLanes ty)
     t.putG d (if etySigned ty then (BitVec.ofNat (etyBits ty) e).signExtend 64 else BitVec.ofNat 64 e) (some 4))) ∧
   (∀ h ty d a b s, PutsLanes h (s.gT a :: s.gT b :: s.vT d ++ s.vT d) (.vins h ty d a b) s (etyBits ty) (etyLanes ty)
     (fun t i => i == (t.g b).toNat % etyLanes ty) (some 4) d (fun t _ => (t.g a).toNat))) ∧
  ((∀ h k d a b c s,
     PutsLanes h (kT k :: s.gT b :: s.gT c :: s.vT a ++ s.vT d) (.vcell h k d a b c) s 32 512 (fun t => t.bit k) (some 4) d (fun t i =>
       let hi : Nat := if (t.g c).toNat % 2 ^ 32 = 0 then 2 ^ 31 - 1 else (t.g c).toNat % 2 ^ 32 - 1
       match xMul (xAdd false (xOf .f32 (lane 32 (t.v a) i)) (xOf .f32 ((t.g b).toNat % 2 ^ 32)).flip) (xOf .f32 ((t.g b).toNat / 2 ^ 32)) with
       | .nan => 0
       | .inf neg => if neg then 0 else hi
       | .num neg n e _ => if neg then 0 else min (n / e) hi)) ∧
   (∀ h k (w : BitVec 6) d a b c s,
     PutsLanes h (kT k :: (s.vT a ++ s.vT b ++ s.vT c) ++ s.vT d) (.vhash3 h k w d a b c) s 32 512 (fun t => t.bit k) (some 4) d (fun t i =>
       let m (x p : Nat) : BitVec 32 := BitVec.ofNat 32 x * BitVec.ofNat 32 p
       (m (lane 32 (t.v a) i) 73856093 ^^^ m (lane 32 (t.v b) i) 19349663 ^^^ m (lane 32 (t.v c) i) 83492791).toNat % 2 ^ w.toNat)) ∧
   (∀ h k d a b s, s.mayIssue h .comp (kT k :: (s.vT a ++ s.vT b) ++ s.vT d) = true →
     let t := s.atIssue h (kT k :: (s.vT a ++ s.vT b) ++ s.vT d)
     t.tileOk t.cur.core (t.core t.cur.core).accsel = true →
     ∃ mask value, exec (.vmorton h k d a b .c2) s = .next ((t.putV d mask value (some 4)).finish h (s.pushesOf h) (s.pc + 8) 0) ∧
       ∃ f, WritesLanes 32 512 (t.bit k) mask value f ∧ ∀ i, i < 512 → ∀ j, j < 16 →
         (f i).testBit (2 * j) = (lane 32 (t.v a) i).testBit j ∧ (f i).testBit (2 * j + 1) = (lane 32 (t.v b) i).testBit j) ∧
   (∀ h k d a b c s, s.mayIssue h .comp (kT k :: (s.vT a ++ s.vT b ++ s.vT c) ++ s.vT d) = true →
     let t := s.atIssue h (kT k :: (s.vT a ++ s.vT b ++ s.vT c) ++ s.vT d)
     t.tileOk t.cur.core (t.core t.cur.core).accsel = true →
     ∃ mask value, exec (.vmorton h k d a b (.c3 c)) s = .next ((t.putV d mask value (some 4)).finish h (s.pushesOf h) (s.pc + 8) 0) ∧
       ∃ f, WritesLanes 32 512 (t.bit k) mask value f ∧ ∀ i, i < 512 → (f i).testBit 30 = false ∧ (f i).testBit 31 = false ∧
         ∀ j, j < 10 → (f i).testBit (3 * j) = (lane 32 (t.v a) i).testBit j ∧ (f i).testBit (3 * j + 1) = (lane 32 (t.v b) i).testBit j ∧
           (f i).testBit (3 * j + 2) = (lane 32 (t.v c) i).testBit j))

/-- Reductions to a scalar: the sum over the tree of R57 with inactive lanes as −0.0, and the extremes of the active lanes with the type's
far end, or the canonical NaN, for none (R56, R57, R134). Conversions round each element that the mask bit of its number marks; `.m`
merges the magnitudes of the sources; VQUANT and VSCALE divide by the block's scale and write it, VDEQ multiplies by it (R53, R59 to R61,
R135 to R140). A conversion between integers clamps or keeps the low bits, any other rounds the exact value once; a block's scale is the power of two
of its greatest magnitude less emax (R50, R51, R59). -/
def Obligations.VectorConversions : Prop :=
  ((∀ h k ty rm d a s, CompletesV h (kT k :: s.vT a ++ [s.gT d]) (.vredsum h k ty rm d a) s (fun t =>
     let leaves := (List.range (etyLanes ty)).map (fun i =>
       if t.lit k ty i then (roundTo .f32 .rne 0 false (xOf ty (lane (etyBits ty) (t.v a) i))).bits else 0x80000000)
     let k := Nat.log2 (etyLanes ty)
     (t.setSeed (if t.rm rm = .rsto then drawn t.seed (etyLanes ty - 1) else t.seed)).putG d
       (BitVec.ofNat 64 (sumNode (t.rm rm) t.seed k (fun i => leaves.getD i 0) k 0)) (some 8))) ∧
   (∀ h k ty d a s, s.mayIssue h .comp (kT k :: s.vT a ++ [s.gT d]) = true →
     let t := s.atIssue h (kT k :: s.vT a ++ [s.gT d])
     let n := etyLanes ty
     let x (i : Nat) : Nat := lane (etyBits ty) (t.v a) i
     t.tileOk t.cur.core (t.core t.cur.core).accsel = true →
     (etyIsInt ty = true → ∃ lo hi : Int,
       exec (.vredmax h k ty d a) s = .next ((t.putG d (BitVec.ofInt 64 hi) (some 8)).finish h (s.pushesOf h) (s.pc + 8) 0) ∧
       exec (.vredmin h k ty d a) s = .next ((t.putG d (BitVec.ofInt 64 lo) (some 8)).finish h (s.pushesOf h) (s.pc + 8) 0) ∧
       (∀ i, i < n → t.lit k ty i = true → lo ≤ laneInt ty (x i) ∧ laneInt ty (x i) ≤ hi) ∧
       (hi = (laneRange ty).1 ∨ ∃ i, i < n ∧ t.lit k ty i = true ∧ hi = laneInt ty (x i)) ∧
       (lo = (laneRange ty).2 ∨ ∃ i, i < n ∧ t.lit k ty i = true ∧ lo = laneInt ty (x i))) ∧
     (etyIsInt ty = false →
       let wide (i : Nat) : Nat := (roundTo .f32 .rne 0 false (xOf ty (x i))).bits
       ∃ lo hi : Nat,
       exec (.vredmax h k ty d a) s = .next ((t.putG d (BitVec.ofNat 64 hi) (some 8)).finish h (s.pushesOf h) (s.pc + 8) 0) ∧
       exec (.vredmin h k ty d a) s = .next ((t.putG d (BitVec.ofNat 64 lo) (some 8)).finish h (s.pushesOf h) (s.pc + 8) 0) ∧
       (((∀ i, i < n → t.lit k ty i = true → isNan ty (x i) = true) ∧ lo = 0x7FC00000 ∧ hi = 0x7FC00000) ∨
         ((∃ i, i < n ∧ t.lit k ty i = true ∧ isNan ty (x i) = false ∧ hi = wide i) ∧
           (∃ i, i < n ∧ t.lit k ty i = true ∧ isNan ty (x i) = false ∧ lo = wide i) ∧
           ∀ i, i < n → t.lit k ty i = true → isNan ty (x i) = false →
             xLt (xOf .f32 hi) (xOf .f32 (wide i)) = false ∧ xLt (xOf .f32 (wide i)) (xOf .f32 lo) = false))))) ∧
  ((∀ h k src dst rm sat mm d a s,
     RoundsLanes h (kT k :: s.vT a ++ s.vT d) (.vcvt h k src dst rm sat mm d a) s (fun _ => True) (etyBits dst) (convCount src dst)
       (fun t => t.bit k) rm 4 d (fun t m r j => convert src dst m r sat (lane (etyBits src) (t.v a) j))
       (fun t => mm = true ∧ ∃ j, j < convCount src dst ∧ t.bit k j = true ∧ isNan src (lane (etyBits src) (t.v a) j) = true)
       (fun t g => if mm then topMag src (convCount src dst) (t.bit k) (fun j => lane (etyBits src) (t.v a) j) g else g = 0)
       (fun v u => u = v)) ∧
   (∀ h k src dst rm sat d a s,
     RoundsLanes h (kT k :: s.vT a ++ s.vT d) (.vdeq h k src dst rm sat d a) s (fun _ => True) (etyBits dst) (convCount src dst)
       (fun t => t.bit k) rm 4 d
       (fun t m r j => match xs10 (lane 16 (t.vSide a) (j / 32) % 1024) with
         | none => .quiet (nanBits dst)
         | some c => roundTo dst m r sat (xMul (xOf src (lane (etyBits src) (t.v a) j)) c))
       (fun _ => False) (fun _ g => g = 0) (fun v u => u = v)) ∧
   (∀ h k src dst rm sat mm d a b s,
     RoundsLanes h (kT k :: s.gT b :: s.vT a ++ s.vT d) (.vscale h k src dst rm sat mm d a b) s (fun t => (t.g b).toNat < 1024) (etyBits dst)
       (convCount src dst) (fun t => t.bit k) rm 4 d
       (fun t m r j => scaledElem src dst m sat r (t.g b).toNat (lane (etyBits src) (t.v a) j))
       (fun t => mm = true ∧ ∃ j, j < convCount src dst ∧ t.bit k j = true ∧ isNan src (lane (etyBits src) (t.v a) j) = true)
       (fun t g => if mm then topMag src (convCount src dst) (t.bit k) (fun j => lane (etyBits src) (t.v a) j) g else g = 0)
       (fun v u =>
         let t := s.atIssue h (kT k :: s.gT b :: s.vT a ++ s.vT d)
         PutsScales v u (convCount src dst) (t.bit k) d (fun _ => if xs10 (t.g b).toNat = none then 0x3FC else (t.g b).toNat))) ∧
   (∀ h k src dst rm sat mm d a b s,
     TrapsIf h .comp (kT k :: s.gT b :: s.vT a ++ s.vT d) (.vscale h k src dst rm sat mm d a b) s (fun t => 1024 ≤ (t.g b).toNat) 0x02 0 0) ∧
   (∀ h k src dst rm sat mm d a s,
     let x (t : State) (j : Nat) : Nat := lane (etyBits src) (t.v a) j
     let block (t : State) (b : Nat) : List XVal := blockOf src (t.bit k) (x t) b
     RoundsLanes h (kT k :: s.vT a ++ s.vT d) (.vquant h k src dst rm sat mm d a) s (fun _ => True) (etyBits dst) (convCount src dst)
       (fun t => t.bit k) rm 4 d
       (fun t m r j => if (block t (j / 32)).all XVal.isZero then .quiet (if dst = .ds8 then 0x77 else 0)
         else scaledElem src dst m sat r (blockScale dst (block t (j / 32))) (x t j))
       (fun t => mm = true ∧ ∃ j, j < convCount src dst ∧ t.bit k j = true ∧ isNan src (x t j) = true)
       (fun t g => if mm then topMag src (convCount src dst) (t.bit k) (x t) g else g = 0)
       (fun v u =>
         let t := s.atIssue h (kT k :: s.vT a ++ s.vT d)
         PutsScales v u (convCount src dst) (t.bit k) d (fun b => blockScale dst (block t b))))) ∧
  ((∀ src dst rm r sat b, (etyIsInt src && etyIsInt dst) = true → convert src dst rm r sat b = .quiet (laneFit dst sat (laneInt src b))) ∧
   (∀ src dst rm r sat b, (etyIsInt src && etyIsInt dst) = false → convert src dst rm r sat b = roundTo dst rm r sat (xOf src b)) ∧
   (∀ src dst rm sat r c b, scaledElem src dst rm sat r c b = match xs10 c with
     | none => .quiet (if dst = .ds8 then 0x77 else nanBits dst)
     | some v => roundTo dst rm r sat (xDiv (xOf src b) v)) ∧
   (∀ fmt xs, .nan ∈ xs → blockScale fmt xs = 0x3FC) ∧
   (∀ fmt xs, (∀ x ∈ xs, ∃ s d, x = .num s 0 d false) → blockScale fmt xs = 0) ∧
   (∀ fmt xs, .nan ∉ xs → (∃ s, .inf s ∈ xs) → blockScale fmt xs = 254 * 4) ∧
   (∀ fmt (xs : List XVal) (k : Int), (∀ x ∈ xs, ∃ s n d, x = .num s n d false ∧ 0 < d ∧ n * 2 ^ (-(k + 1)).toNat < d * 2 ^ (k + 1).toNat) →
     (∃ s n d, .num s n d false ∈ xs ∧ d * 2 ^ k.toNat ≤ n * 2 ^ (-k).toNat ∧ 0 < n) →
     let emax : Int := if fmt = .e4m3 then 8 else if fmt = .e5m2 then 15 else if fmt = .e2m1 then 2 else 1
     blockScale fmt xs = (min (max (k - emax) (-127)) 127 + 127).toNat * 4))

/-- VLD and VST move the words of a row that the mask marks, from and to the 2,048 bytes at a multiple of 2,048; a misaligned address
raises ALIGN, and one outside the range SPRANGE (R31, R146). VLDX and VSTX move an element for each active lane at base plus signed index
plus offset, lanes in increasing order, so that the highest lane's bytes stand where two overlap; a misaligned active lane raises ALIGN
before any SPRANGE (R147). That EVAL names the
first address that fails is the model's reading (log 35). -/
def Obligations.RowsAndGather : Prop :=
  ((∀ h k swz d a off s, s.mayIssue h .comp ([s.gT a, kT k] ++ s.vT d) = true →
     let t := s.atIssue h ([s.gT a, kT k] ++ s.vT d)
     let e := t.g a + off.signExtend 64
     let spans := spSpans t.cur.core (runPieces swz e.toNat (wordRuns (t.kreg k)))
     t.tileOk t.cur.core (t.core t.cur.core).accsel = true → t.spCheck t.cur.core t.cur.role e 2048 2048 = none → t.mayRead spans →
     ∃ mask value, exec (.vld h k swz d a off) s =
         .next (((t.record (t.myAccess false spans)).putV d mask value none).finish h (s.pushesOf h) (s.pc + 8) 0) ∧
       WritesLanes 32 512 (t.bit k) mask value (fun i => leNat (t.spRead t.cur.core swz (e.toNat + 4 * i) 4))) ∧
   (∀ h k swz a b off s, s.mayIssue h .comp (s.gT a :: kT k :: s.vT b ++ []) = true →
     let t := s.atIssue h (s.gT a :: kT k :: s.vT b ++ [])
     let e := t.g a + off.signExtend 64
     t.tileOk t.cur.core (t.core t.cur.core).accsel = true → t.spCheck t.cur.core t.cur.role e 2048 2048 = none →
     t.mayWrite (spSpans t.cur.core (runPieces swz e.toNat (wordRuns (t.kreg k)))) →
     StoresBytes h (.vst h k swz a b off) s t
       ((t.activeLanes k 512).flatMap (fun i => (List.range 4).map (fun j => (t.spByte swz e (4 * i + j), rowByte (t.v b) (4 * i + j)))))) ∧
   (∀ h k swz d a b off s e cause,
     let bad (t : State) : Prop := t.tileOk t.cur.core (t.core t.cur.core).accsel = true ∧ t.g a + off.signExtend 64 = e ∧
       t.spCheck t.cur.core t.cur.role e 2048 2048 = some cause
     TrapsIf h .comp ([s.gT a, kT k] ++ s.vT d) (.vld h k swz d a off) s bad cause 0 e ∧
     TrapsIf h .comp (s.gT a :: kT k :: s.vT b ++ []) (.vst h k swz a b off) s bad cause 0 e)) ∧
  (let addr (t : State) (a : GReg) (off : BitVec 16) (b : VReg) (i : Nat) : Word :=
     t.g a + (BitVec.ofNat 32 (lane 32 (t.v b) i)).signExtend 64 + off.signExtend 64
   let n (ty : STy) : Nat := if styBytes ty = 8 then 256 else 512
   let fine (t : State) (k : KReg) (ty : STy) (a : GReg) (off : BitVec 16) (b : VReg) : Prop :=
     t.tileOk t.cur.core (t.core t.cur.core).accsel = true ∧ ∀ i ∈ t.activeLanes k (n ty), t.spFine (addr t a off b i) (styBytes ty)
   let spans (t : State) (k : KReg) (ty : STy) (swz : BitVec 3) (a : GReg) (off : BitVec 16) (b : VReg) : List (Nat × Nat) :=
     (t.activeLanes k (n ty)).flatMap (fun i => t.spAt swz (addr t a off b i) (styBytes ty))
   (∀ h k ty swz d a b off s, s.mayIssue h .comp (s.gT a :: kT k :: s.vT b ++ s.vT d) = true →
     let t := s.atIssue h (s.gT a :: kT k :: s.vT b ++ s.vT d)
     fine t k ty a off b → t.mayRead (spans t k ty swz a off b) →
     ∃ mask value, exec (.vldx h k ty swz d a b off) s =
         .next (((t.record (t.myAccess false (spans t k ty swz a off b))).putV d mask value none).finish h (s.pushesOf h) (s.pc + 8) 0) ∧
       WritesLanes (8 * styBytes ty) (n ty) (t.bit k) mask value
         (fun i => leNat (t.spRead t.cur.core swz (addr t a off b i).toNat (styBytes ty)))) ∧
   (∀ h k ty swz d a b off s, s.mayIssue h .comp (s.gT a :: kT k :: (s.vT b ++ s.vT d) ++ []) = true →
     let t := s.atIssue h (s.gT a :: kT k :: (s.vT b ++ s.vT d) ++ [])
     fine t k ty a off b → t.mayWrite (spans t k ty swz a off b) →
     StoresBytes h (.vstx h k ty swz d a b off) s t
       ((t.activeLanes k (n ty)).flatMap (fun i => (List.range (styBytes ty)).map (fun j =>
         (t.spByte swz (addr t a off b i) j, rowByte (t.v d) (styBytes ty * i + j)))))) ∧
   (∀ h k ty swz d a b off s i e, i < n ty →
     let bad (t : State) : Prop := t.tileOk t.cur.core (t.core t.cur.core).accsel = true ∧ t.bit k i = true ∧ addr t a off b i = e ∧
       e.toNat % styBytes ty ≠ 0 ∧ ∀ j, j < i → t.bit k j = true → (addr t a off b j).toNat % styBytes ty = 0
     TrapsIf h .comp (s.gT a :: kT k :: s.vT b ++ s.vT d) (.vldx h k ty swz d a b off) s bad 0x06 0 e ∧
     TrapsIf h .comp (s.gT a :: kT k :: (s.vT b ++ s.vT d) ++ []) (.vstx h k ty swz d a b off) s bad 0x06 0 e))

/-- TLD and TST move a tile image: rows of L bytes at the pitch, and after them, for a scaled shape, the containers of each row at 128
bytes, of which bits [15:10] load as zeros; the base and the pitch are multiples of 32. TST waits at issue for every older writer of the rows that it stores,
and raises no STALL for them (R149, R150). TZERO zeroes the 32 rows, TMOV copies
the rows and their containers, and TTRANS transposes a tile of at most 32 columns; an unreserved tile and a shape that cannot be
transposed raise RSVD (R151, R158). -/
def Obligations.Tiles : Prop :=
  (let at_ (t : State) (a : GReg) (off : BitVec 16) (x : Nat) : Word := t.g a + off.signExtend 64 + BitVec.ofNat 64 x
   let fine (t : State) (a b : GReg) (off : BitVec 16) (g : Shape) : Prop :=
     (t.g a + off.signExtend 64).toNat % 32 = 0 ∧ (t.g b).toNat % 32 = 0 ∧
       ∀ q ∈ g.plan (t.g b).toNat, t.spCheck t.cur.core t.cur.role (at_ t a off q.1) q.2.1 1 = none
   let spans (t : State) (swz : BitVec 3) (a b : GReg) (off : BitVec 16) (g : Shape) : List (Nat × Nat) :=
     (g.plan (t.g b).toNat).flatMap (fun q => t.spAt swz (at_ t a off q.1) q.2.1)
   (∀ h swz (d : TReg) a b off s,
     let g := s.shape s.cur.core d.toNat
     let ts := [s.gT a, s.gT b] ++ tileTs d.toNat g.rows
     s.mayIssue h .comp ts = true →
     let t := s.atIssue h ts
     t.tileOk t.cur.core d.toNat = true → fine t a b off g → t.mayRead (spans t swz a b off g) →
     ∃ rs, exec (.tld h swz d a b off) s =
         .next (((t.record (t.myAccess false (spans t swz a b off g))).putAll rs).finish h (s.pushesOf h) (s.pc + 8) 0) ∧
       rs.length = g.rows + (if g.scaled then g.rows else 0) ∧
       ∀ r, r < g.rows →
         rs[r]? = some (.row (32 * d.toNat + r), 2 ^ (8 * g.rowLen) - 1,
           leNat (t.spRead t.cur.core swz (at_ t a off (r * (t.g b).toNat)).toNat g.rowLen)) ∧
         (g.scaled = true → ∃ v, rs[g.rows + r]? = some (.side (32 * d.toNat + r), 2 ^ (16 * g.blocks) - 1, v) ∧
           ∀ c, c < g.blocks → lane 16 v c =
             leNat (t.spRead t.cur.core swz (at_ t a off (g.rows * (t.g b).toNat + 128 * r + 2 * c)).toNat 2) % 1024)) ∧
   (∀ h swz (d : TReg) a b off s,
     let g := s.shape s.cur.core d.toNat
     let ts := [s.gT a, s.gT b] ++ quietTs d.toNat g.rows
     s.mayIssue h .comp ts = true →
     let t := s.atIssue h ts
     let u := t.modCore t.cur.core (fun k => k.interlock (tileTs d.toNat g.rows))
     t.tileOk t.cur.core d.toNat = true → fine u a b off g → u.mayWrite (spans u swz a b off g) →
     StoresBytes h (.tst h swz d a b off) s u
       ((g.plan (u.g b).toNat).flatMap (fun q => (List.range q.2.1).map (fun j =>
         (u.spByte swz (at_ u a off q.1) j,
          rowByte (if q.2.2.2 then ((u.core u.cur.core).sideRow (32 * d.toNat + q.2.2.1)).toNat
            else ((u.core u.cur.core).row (32 * d.toNat + q.2.2.1)).toNat) j))))) ∧
   (∀ (g : Shape), (g.scaled = false → ∀ p, g.plan p = (List.range g.rows).map (fun r => (r * p, g.rowLen, r, false))) ∧
     g.rowLen = (g.cols * etyBits g.ew + 255) / 256 * 32 ∧ g.blocks = (g.cols + 31) / 32) ∧
   (∀ h swz (d : TReg) a b off s e,
     TrapsIf h .comp ([s.gT a, s.gT b] ++ tileTs d.toNat (s.shape s.cur.core d.toNat).rows) (.tld h swz d a b off) s
       (fun t => t.tileOk t.cur.core d.toNat = true ∧ t.g a + off.signExtend 64 = e ∧ (e.toNat % 32 ≠ 0 ∨ (t.g b).toNat % 32 ≠ 0)) 0x06 0 e ∧
     TrapsIf h .comp ([s.gT a, s.gT b] ++ quietTs d.toNat (s.shape s.cur.core d.toNat).rows) (.tst h swz d a b off) s
       (fun t => t.tileOk t.cur.core d.toNat = true ∧ t.g a + off.signExtend 64 = e ∧ (e.toNat % 32 ≠ 0 ∨ (t.g b).toNat % 32 ≠ 0)) 0x06 0 e) ∧
   (∀ (s : State) h (d : TReg) swz a b off, (s.toksOf h).isSome = true → allowed .comp (s.core s.cur.core).single s.cur.role = true →
     (s.popsMade = true ∨ (s.core s.cur.core).popReady (s.popsOf h) = true) →
     let ts := [s.gT a, s.gT b] ++ quietTs d.toNat (s.shape s.cur.core d.toNat).rows
     (∃ e ∈ ((s.landed ts).core s.cur.core).pend, e.ready.isSome = true ∧ ∃ r, r < (s.shape s.cur.core d.toNat).rows ∧
       (e.target = .row (32 * d.toNat + r) ∨ e.target = .side (32 * d.toNat + r))) →
     exec (.tst h swz d a b off) s = .next ((s.landed ts).sleepNow .busy false))) ∧
  ((∀ h (d : TReg) s, CompletesIf h .comp (tileTs d.toNat 32) (.tzero h d) s (fun t => t.tileOk t.cur.core d.toNat = true)
     (fun t => t.putAll ((List.range 32).map (fun r => (.row (32 * d.toNat + r), 2 ^ 16384 - 1, 0))))) ∧
   (∀ h (d a : TReg) s, CompletesIf h .comp (tileTs a.toNat 32 ++ tileTs d.toNat 32) (.tmov h d a) s
     (fun t => t.tileOk t.cur.core d.toNat = true ∧ t.tileOk t.cur.core a.toNat = true)
     (fun t => t.putAll ((List.range 32).flatMap (fun r =>
       [(.row (32 * d.toNat + r), 2 ^ 16384 - 1, ((t.core t.cur.core).row (32 * a.toNat + r)).toNat),
        (.side (32 * d.toNat + r), 2 ^ 1024 - 1, ((t.core t.cur.core).sideRow (32 * a.toNat + r)).toNat)])))) ∧
   (∀ h (d a : TReg) s,
     let g := s.shape s.cur.core a.toNat
     let ts := tileTs a.toNat g.rows ++ tileTs d.toNat (min g.cols 32)
     s.mayIssue h .comp ts = true →
     let t := s.atIssue h ts
     t.tileOk t.cur.core d.toNat = true → t.tileOk t.cur.core a.toNat = true → g.ew ≠ .e2m1 → g.scaled = false → g.cols ≤ 32 →
     ∃ rs, exec (.ttrans h d a) s = .next ((t.putAll rs).finish h (s.pushesOf h) (s.pc + 8) 0) ∧ rs.length = g.cols ∧
       ∀ c, c < g.cols → ∃ v, rs[c]? = some (.row (32 * d.toNat + c), 2 ^ (etyBits g.ew * g.rows) - 1, v) ∧
         ∀ r, r < g.rows → lane (etyBits g.ew) v r = lane (etyBits g.ew) ((t.core t.cur.core).row (32 * a.toNat + r)).toNat c) ∧
   (∀ h (d : TReg) s, TrapsIf h .comp (tileTs d.toNat 32) (.tzero h d) s (fun t => t.tileOk t.cur.core d.toNat = false) 0x02 0 0) ∧
   (∀ h (d a : TReg) s,
     let g := s.shape s.cur.core a.toNat
     TrapsIf h .comp (tileTs a.toNat g.rows ++ tileTs d.toNat (min g.cols 32)) (.ttrans h d a) s
       (fun t => t.tileOk t.cur.core d.toNat = true ∧ t.tileOk t.cur.core a.toNat = true ∧
         (g.ew = .e2m1 ∨ g.scaled = true ∨ 32 < g.cols)) 0x02 0 0))

/-- The index orders: row-major, column-major and serpentine map the indices of the range one to one to the coordinates inside the
extents, serpentine by the reversals of R171 (R171). TNEXT takes the next index of the procedure of R175, appends it to the held list and
writes its coordinates, or with `.idx` the index itself; at the end it writes all ones to G[D] alone; with 16 held indices it waits at issue,
with no pop made, before a frozen walker it waits, and in a later stage it traps (R161, R175, R191). -/
def Obligations.Indexes : Prop :=
  ((∀ e0 e1 e2 i, i < e0 * e1 * e2 →
     (∃ x0 x1 x2, coordsOf 0 [e0, e1, e2] i = [x0, x1, x2] ∧ x0 < e0 ∧ x1 < e1 ∧ x2 < e2 ∧ i = x0 + e0 * (x1 + e1 * x2)) ∧
     (∃ x0 x1 x2, coordsOf 1 [e0, e1, e2] i = [x0, x1, x2] ∧ x0 < e0 ∧ x1 < e1 ∧ x2 < e2 ∧ i = x2 + e2 * (x1 + e1 * x0)) ∧
     (∃ x0 x1 x2 y0 y1, coordsOf 0 [e0, e1, e2] i = [x0, x1, x2] ∧ coordsOf 2 [e0, e1, e2] i = [y0, y1, x2] ∧
       y0 = (if i / e0 % 2 = 1 then e0 - 1 - x0 else x0) ∧ y1 = (if i / (e0 * e1) % 2 = 1 then e1 - 1 - x1 else x1))) ∧
   (∀ e0 e1 e2 i j, i < e0 * e1 * e2 → j < e0 * e1 * e2 → ∀ o, o < 3 → coordsOf o [e0, e1, e2] i = coordsOf o [e0, e1, e2] j → i = j) ∧
   (∀ o e0 e1 e2, o < 3 → indexCount o [e0, e1, e2] = e0 * e1 * e2)) ∧
  (let open_ (t : State) (l : Launch) : Prop := t.launchOf t.cur.core = some l ∧ (t.core t.cur.core).stage = 0
   let fresh (t : State) (l : Launch) : Prop := open_ t l ∧ (t.core t.cur.core).replay = [] ∧ l.ends.contains t.cur.core = false ∧
     (t.core t.cur.core).marked = false
   let known (t u : State) (l : Launch) : Clock := (((u.quire (quireOf t.cur.core)).walker l.seq).map (·.clock)).getD {}
   let coord (l : Launch) (i j : Nat) : Word := BitVec.ofNat 64 ((coordsOf l.rcd.order l.rcd.ext i).getD j 0)
   (∀ h d a b s l i u,
     CompletesIf h .load [.room, s.gT d, s.gT a, s.gT b] (.tnext h d a b) s
       (fun t => fresh t l ∧ State.nextIndex l (quireOf t.cur.core) 2000 t = .index u i)
       (fun t => (((u.takeIndex t.cur.core i (known t u l)).putG d (coord l i 0) none).putG a (coord l i 1) none).putG b (coord l i 2) none) ∧
     CompletesIf h .load [.room, s.gT d] (.tnextIdx h d) s
       (fun t => fresh t l ∧ State.nextIndex l (quireOf t.cur.core) 2000 t = .index u i)
       (fun t => (u.takeIndex t.cur.core i (known t u l)).putG d (BitVec.ofNat 64 i) none)) ∧
   (∀ h d s l i rest,
     CompletesIf h .load [.room, s.gT d] (.tnextIdx h d) s (fun t => open_ t l ∧ (t.core t.cur.core).replay = i :: rest)
       (fun t => ((t.modCore t.cur.core (fun k => { k with replay := rest })).takeIndex t.cur.core i {}).putG d (BitVec.ofNat 64 i) none)) ∧
   (∀ h d a b s l u,
     let ended (t u : State) : State := (u.modLaunch (t.core t.cur.core).launch (fun l => { l with ends := l.ends ++ [t.cur.core] })).putG d
       (BitVec.allOnes 64) none
     CompletesIf h .load [.room, s.gT d, s.gT a, s.gT b] (.tnext h d a b) s
       (fun t => fresh t l ∧ State.nextIndex l (quireOf t.cur.core) 2000 t = .finished u) (fun t => ended t u) ∧
     CompletesIf h .load [.room, s.gT d, s.gT a, s.gT b] (.tnext h d a b) s
       (fun t => open_ t l ∧ (t.core t.cur.core).replay = [] ∧ (l.ends.contains t.cur.core = true ∨ (t.core t.cur.core).marked = true))
       (fun t => ended t t)) ∧
   (∀ h d a b s, (s.toksOf h).isSome = true → allowed .load (s.core s.cur.core).single s.cur.role = true →
     (s.popsMade || (s.core s.cur.core).popReady (s.popsOf h)) = true → 16 ≤ (s.core s.cur.core).heldCount →
     exec (.tnext h d a b) s = .next ((s.landed [.room, s.gT d, s.gT a, s.gT b]).sleepNow .busy false) ∧
     exec (.tnextIdx h d) s = .next ((s.landed [.room, s.gT d]).sleepNow .busy false)) ∧
   (∀ h d a b s l,
     SleepsIf h .load [.room, s.gT d, s.gT a, s.gT b] (.tnext h d a b) s
       (fun t => fresh t l ∧ ∃ w, (t.quire (quireOf t.cur.core)).walker l.seq = some w ∧ w.frozen = true) (fun _ => .index) ∧
     TrapsIf h .load [.room, s.gT d, s.gT a, s.gT b] (.tnext h d a b) s
       (fun t => t.launchOf t.cur.core = some l ∧ (t.core t.cur.core).stage ≠ 0) 0x02 0 0) ∧
   (∀ (l : Launch) (u n : Nat) (s : State) (w : Walker), (s.quire u).walker l.seq = some w → w.frozen = false → w.lo < w.hi →
     isHole l.rcd.order l.rcd.ext w.lo = false →
     State.nextIndex l u (n + 1) s = .index (s.modWalker u l.seq (fun w' => { w' with lo := w.lo + 1 })) w.lo) ∧
   (∀ (s : State) (c i : Nat) (k : Clock), ((s.takeIndex c i k).core c).held = (s.core c).held ++ [i]))

/-- TDONE retires the oldest held index, counts it and releases at its scope, once no contribution of its context stands behind another's; with
none held it traps. TOKS takes a token without waiting;
TOKX pushes 1 to 15 of them; both trap on a FIFO that the context may not use (R163, R192 to R194). BAR arrives once with a release at its
scope, also where it is issued again at its address after a trap, waits until every participant has arrived or ended, and completes with the
acquire of what they knew, of ended ones what they knew at their end (the model's choice, log 18); SAFE stops the context behind
it, once its pushes have been made, only while its launch is to be pre-empted (R201, R202, R206). -/
def Obligations.TokensAndBarriers : Prop :=
  ((∀ h sc s i rest, CompletesIf h .stor [] (.tdone h sc) s (fun t => (t.core t.cur.core).held = i :: rest ∧ t.owes t.me = false)
     (fun t => ((t.modCore t.cur.core (fun k => ({ k with held := rest }).setReg 0x11A (k.reg 0x11A + 1))).release t.me sc).1)) ∧
   (∀ h sc s, TrapsIf h .stor [] (.tdone h sc) s (fun t => (t.core t.cur.core).held = []) 0x02 0 0) ∧
   (∀ h d (q : BitVec 2) s,
     let mine (t : State) : Prop := q.toNat ∈ popNames t.cur.role (t.core t.cur.core).single
     CompletesIf h .trio [s.gT d] (.toks h d q) s (fun t => mine t ∧ ((t.core t.cur.core).fifo q.toNat).toks ≠ [])
       (fun t => (t.pop q.toNat).putG d 1 (some 1)) ∧
     CompletesIf h .trio [s.gT d] (.toks h d q) s
       (fun t => mine t ∧ ((t.core t.cur.core).fifo q.toNat).toks = [] ∧ ((t.core t.cur.core).fifo q.toNat).ended = true)
       (fun t => (t.pop q.toNat).putG d 2 (some 1)) ∧
     CompletesIf h .trio [s.gT d] (.toks h d q) s
       (fun t => mine t ∧ ((t.core t.cur.core).fifo q.toNat).toks = [] ∧ ((t.core t.cur.core).fifo q.toNat).ended = false)
       (fun t => t.putG d 0 (some 1)) ∧
     TrapsIf h .trio [s.gT d] (.toks h d q) s (fun t => ¬ mine t) 0x10 0 0) ∧
   (∀ h a (q : BitVec 2) s,
     let mine (t : State) : Prop := q.toNat ∈ pushNames t.cur.role (t.core t.cur.core).single
     CompletesIf h .trio [s.gT a] (.tokx h a q) s (fun t => mine t ∧ 1 ≤ (t.g a).toNat ∧ (t.g a).toNat ≤ 15)
       (fun t => t.modCtx t.cur.core t.cur.role (fun x => { x with push := List.replicate (t.g a).toNat [q.toNat] })) ∧
     TrapsIf h .trio [s.gT a] (.tokx h a q) s (fun t => ¬ mine t ∨ (t.g a).toNat = 0 ∨ 15 < (t.g a).toNat) 0x10 0 0) ∧
   (∀ (s : State) (q : Nat) (k : Clock) (ks : List Clock), ((s.core s.cur.core).fifo q).toks = k :: ks →
     ((s.pop q).core s.cur.core).fifo q = { (s.core s.cur.core).fifo q with toks := ks }) ∧
   (∀ (s : State) (c q : Nat) (a : Agent), ((s.core c).fifo q).deaf = false →
     ∃ k, (((s.pushTok c q a).core c).fifo q).toks = ((s.core c).fifo q).toks ++ [k]) ∧
   (∀ (s : State) (c : Nat) (r : Role) (a : Agent) (n q : Nat), ((s.core c).fifo q).deaf = false → s.owes a = false →
     ((s.core c).fifo q).toks.length + n ≤ 15 →
     (((s.drain c r a (List.replicate n [q])).core c).fifo q).toks.length = ((s.core c).fifo q).toks.length + n) ∧
   (∀ (s : State) (c : Nat) (r : Role) (a : Agent) (p q : Nat), p ≠ q → s.canPush c a p = false → s.canPush c a q = true →
     let t := s.drain c r a [[p, q]]
     (t.ctx c r).push = [[p]] ∧ (t.core c).fifo p = (s.core c).fifo p ∧ (t.core c).fifo q = ((s.pushTok c q a).core c).fifo q)) ∧
  (let at_ (t : State) (l : Launch) (sc : Scope) : Option Nat :=
     l.arrivedAt (takenKey t.cur.core t.cur.role) (t.ctx t.cur.core t.cur.role).pc sc
   let first (t : State) (l : Launch) (sc : Scope) : Prop := t.launchOf t.cur.core = some l ∧ at_ t l sc = none ∧ t.owes t.me = false
   let met (t : State) (l : Launch) (sc : Scope) (k : Nat) : Prop :=
     ∀ d ∈ l.barCores sc t.cur.core, ∀ r ∈ [Role.L, .C, .S], t.arrived l d r sc k = true
   let passed (t : State) (l : Launch) (sc : Scope) (k : Nat) : State :=
     (t.modLaunch l.seq (fun m => m.left (takenKey t.cur.core t.cur.role) (t.ctx t.cur.core t.cur.role).pc)).acquire t.me
       (t.barClock l t.cur.core sc k) sc
   (∀ h sc s l m, CompletesIf h .trio [] (.bar h sc) s
     (fun t => first t l sc ∧ (t.arrive sc).launchOf t.cur.core = some m ∧ met (t.arrive sc) m sc (l.barCount t.cur.core t.cur.role sc + 1))
     (fun t => passed (t.arrive sc) m sc (l.barCount t.cur.core t.cur.role sc + 1))) ∧
   (∀ h sc s l m, s.mayIssue h .trio [] = true →
     let t := s.atIssue h []
     first t l sc → (t.arrive sc).launchOf t.cur.core = some m → ¬ met (t.arrive sc) m sc (l.barCount t.cur.core t.cur.role sc + 1) →
     exec (.bar h sc) s = .next ((t.arrive sc).sleepNow (.bar sc (l.barCount t.cur.core t.cur.role sc + 1)) true)) ∧
   (∀ h sc s l k, CompletesIf h .trio [] (.bar h sc) s (fun t => t.launchOf t.cur.core = some l ∧ at_ t l sc = some k ∧ met t l sc k)
     (fun t => passed t l sc k)) ∧
   (∀ h sc s l k, SleepsIf h .trio [] (.bar h sc) s (fun t => t.launchOf t.cur.core = some l ∧ at_ t l sc = some k ∧ ¬ met t l sc k)
     (fun _ => .bar sc k)) ∧
   (∀ (t : State) (l : Launch) sc, t.launchOf t.cur.core = some l →
     ∃ m, (t.arrive sc).launchOf t.cur.core = some m ∧ m.barCount t.cur.core t.cur.role sc = l.barCount t.cur.core t.cur.role sc + 1 ∧
       at_ t m sc = some (l.barCount t.cur.core t.cur.role sc + 1)) ∧
   (∀ h n s, CompletesIf h .trio [] (.safe h n) s (fun t => t.dusk t.cur.core = false) (fun t => t)) ∧
   (∀ h n s, CompletesIf h .trio [] (.safe h n) s (fun t => t.dusk t.cur.core = true)
     (fun t => t.modCtx t.cur.core t.cur.role (fun x => { x with safe := true, safeIdx := n.toNat }))) ∧
   (∀ (s : State) h ps npc b, (s.ctx s.cur.core s.cur.role).safe = true →
     let x := (s.finish h ps npc b).ctx s.cur.core s.cur.role
     x.pc = canonPc npc ∧ (x.push = [] → x.run = .stopped) ∧ (x.push ≠ [] → x.forced = false → x.run = .running)) ∧
   (∀ (s : State) c r a, (s.ctx c r).push = [] → (s.ctx c r).ending = none → (s.ctx c r).run = .running → (s.ctx c r).safe = true →
     ((s.afterPushes c r a).ctx c r).run = .stopped))

/-- SPUSH appends the active lanes in increasing order and counts them; SPOP deals records to the active lanes while they last and marks
those that took one; SFLUSH fills the row; SRESET empties the stream (R188, R195 to R197). LQPUSH sets the cursor and the end of each
active lane; LQPOP takes the front of each active lane that has one, once no active lane waits for its fill; LQSTAT marks the exhausted
lanes (R198 to R200). STGPUT copies the record at G[A] into the next slot of its stage's output ring, STGGET copies the next slot of its
input ring to G[A] and answers 1, or answers 0 when its core is marked or its input stage has finished with the ring empty, and waits before an
empty ring and behind an older waiter (R204, R205, R250). That a slot is not taken while the ring is empty, and that the wait for a get orders
that get's read before the put, are the model's choices (log 19, log 104). -/
def Obligations.StreamsAndQueues : Prop :=
  (let fits (t : Stream) (ty : ETy) : Prop := t.rows ≠ 0 ∧ ty ≠ .e2m1 ∧ etyBits ty = 8 * 2 ^ t.esz
   let inside (t : State) (sd : Stream) (j m : Nat) : Prop :=
     ∀ i, i < m → t.spCheck t.cur.core t.cur.role (BitVec.ofNat 64 (sd.at (j + i))) (2 ^ sd.esz) 1 = none
   let span (t : State) (sd : Stream) (j m : Nat) : List (Nat × Nat) := [(spAddr t.cur.core (sd.at j), m * 2 ^ sd.esz)]
   (∀ h k ty (n : BitVec 3) d a s, s.mayIssue h .comp (kT k :: s.vT a ++ [s.gT d]) = true →
     let t := s.atIssue h (kT k :: s.vT a ++ [s.gT d])
     let sd := t.stream n.toNat
     let xs := t.activeLanes k (etyLanes ty)
     let w := 2 ^ sd.esz
     t.tileOk t.cur.core (t.core t.cur.core).accsel = true → fits sd ty → sd.tail + xs.length ≤ sd.cap → inside t sd sd.tail xs.length →
     t.mayWrite (span t sd sd.tail xs.length) →
     ∃ u : State, exec (.spush h k ty n d a) s = .next (((u.setStream n.toNat { sd with tail := sd.tail + xs.length }).putG d
         (BitVec.ofNat 64 xs.length) none).finish h (s.pushesOf h) (s.pc + 8) 0) ∧ StoreFrame t t u ∧
       WritesBytes t u (xs.zipIdx.flatMap (fun p => (List.range w).map (fun b =>
         (spAddr t.cur.core (sd.at (sd.tail + p.2)) + b, rowByte (lane (etyBits ty) (t.v a) p.1) b))))) ∧
   (∀ h k ty (n : BitVec 3) d a s, s.mayIssue h .comp (kT k :: s.vT a ++ [s.gT d]) = true →
     let t := s.atIssue h (kT k :: s.vT a ++ [s.gT d])
     let sd := t.stream n.toNat
     t.tileOk t.cur.core (t.core t.cur.core).accsel = true → fits sd ty → sd.cap < sd.tail + (t.activeLanes k (etyLanes ty)).length →
     exec (.spush h k ty n d a) s =
       .next ((s.landed (kT k :: s.vT a ++ [s.gT d])).takeTrap s.cur.core s.cur.role 0x11 0 0 0 s.pc)) ∧
   (∀ h k ty (n : BitVec 3) d a s, a ≠ 0 → s.mayIssue h .comp ([kT k] ++ (kT a :: s.vT d)) = true →
     let t := s.atIssue h ([kT k] ++ (kT a :: s.vT d))
     let sd := t.stream n.toNat
     let rank (i : Nat) : Nat := countOn (t.bit k) i
     let takes (i : Nat) : Bool := t.bit k i && decide (rank i < sd.tail - sd.head)
     let m := min (countOn (t.bit k) (etyLanes ty)) (sd.tail - sd.head)
     t.tileOk t.cur.core (t.core t.cur.core).accsel = true → fits sd ty → inside t sd sd.head m → t.mayRead (span t sd sd.head m) →
     ∃ u : State, ∃ mask value kv, exec (.spop h k ty n d a) s =
         .next ((((u.putV d mask value none).putK a (2 ^ etyLanes ty - 1) kv none).setStream n.toNat
           { sd with head := sd.head + m }).finish h (s.pushesOf h) (s.pc + 8) 0) ∧
       u = (if m = 0 then t else t.record (t.myAccess false (span t sd sd.head m))) ∧
       WritesLanes (etyBits ty) (etyLanes ty) takes mask value
         (fun i => leNat (t.raw (spAddr t.cur.core (sd.at (sd.head + rank i))) (2 ^ sd.esz))) ∧
       ∀ i, i < etyLanes ty → kv.testBit i = takes i) ∧
   (∀ h (n : BitVec 3) d a s, s.mayIssue h .trio [s.gT a, s.gT d] = true →
     let t := s.atIssue h [s.gT a, s.gT d]
     let sd := t.stream n.toNat
     let w := 2048 / 2 ^ sd.esz
     let p := (w - sd.tail % w) % w
     sd.rows ≠ 0 → inside t sd sd.tail p → t.mayWrite (span t sd sd.tail p) →
     ∃ u : State, exec (.sflush h n d a) s = .next (((u.setStream n.toNat { sd with tail := sd.tail + p }).putG d (BitVec.ofNat 64 p) none).finish h
         (s.pushesOf h) (s.pc + 8) 0) ∧ StoreFrame t t u ∧
       WritesBytes t u ((List.range p).flatMap (fun i => (List.range (2 ^ sd.esz)).map (fun b =>
         (spAddr t.cur.core (sd.at (sd.tail + i)) + b, rowByte (t.g a).toNat b))))) ∧
   (∀ h (n : BitVec 3) s, CompletesIf h .trio [] (.sreset h n) s (fun t => (t.stream n.toNat).rows ≠ 0)
     (fun t => t.setStream n.toNat { t.stream n.toNat with head := 0, tail := 0 })) ∧
   (∀ t : Stream, t.tail < 2 ^ 20 → t.head < 2 ^ 20 → t.rows < 2 ^ 11 → t.base < 2 ^ 11 → t.esz < 4 → streamOf t.word = t)) ∧
  ((∀ h k a b s, s.mayIssue h .comp (kT k :: (s.vT a ++ s.vT b) ++ []) = true →
     let t := s.atIssue h (kT k :: (s.vT a ++ s.vT b) ++ [])
     let sd := (t.core t.cur.core).reg (0x110 + ((t.core t.cur.core).reg 0x118).toNat % 8)
     let from_ (i : Nat) : Nat := lane 32 (t.v a) i
     let to_ (i : Nat) : Nat := lane 32 (t.v b) i
     t.tileOk t.cur.core (t.core t.cur.core).accsel = true →
     (∀ i ∈ t.activeLanes k 512, (streamOf sd).esz = 2 ∧ from_ i ≤ to_ i ∧ to_ i < 2 ^ 31 ∧ to_ i ≤ (streamOf sd).cap) →
     ∃ u : State, exec (.lqpush h k .i32 a b) s = .next (u.finish h (s.pushesOf h) (s.pc + 8) 0) ∧
       (∀ i, i < 512 → (u.core t.cur.core).lane i =
         if t.bit k i then { items := [], cursor := from_ i, stop := to_ i, sd := sd } else (t.core t.cur.core).lane i) ∧
       { (u.core t.cur.core) with lanes := (t.core t.cur.core).lanes } = t.core t.cur.core ∧
       { u with cores := t.cores } = t ∧ ∀ c, c ≠ t.cur.core → u.core c = t.core c) ∧
   (∀ h k a b s, s.mayIssue h .comp (kT k :: (s.vT a ++ s.vT b) ++ []) = true →
     let t := s.atIssue h (kT k :: (s.vT a ++ s.vT b) ++ [])
     let sd := streamOf ((t.core t.cur.core).reg (0x110 + ((t.core t.cur.core).reg 0x118).toNat % 8))
     t.tileOk t.cur.core (t.core t.cur.core).accsel = true →
     (∃ i ∈ t.activeLanes k 512, sd.esz ≠ 2 ∨ lane 32 (t.v b) i < lane 32 (t.v a) i ∨ 2 ^ 31 ≤ lane 32 (t.v b) i ∨ sd.cap < lane 32 (t.v b) i) →
     exec (.lqpush h k .i32 a b) s =
       .next ((s.landed (kT k :: (s.vT a ++ s.vT b) ++ [])).takeTrap s.cur.core s.cur.role 0x12 0 0 0 s.pc)) ∧
   (∀ h k d a s, a ≠ 0 → s.mayIssue h .comp ([kT k] ++ (kT a :: s.vT d)) = true →
     let t := s.atIssue h ([kT k] ++ (kT a :: s.vT d))
     let q (i : Nat) : Lane := (t.core t.cur.core).lane i
     let gets (i : Nat) : Bool := t.bit k i && !(q i).items.isEmpty
     t.tileOk t.cur.core (t.core t.cur.core).accsel = true →
     (∀ i ∈ t.activeLanes k 512, (q i).items ≠ [] ∨ (q i).exhausted = true) →
     ∃ mask value kv, ∃ u : State, exec (.lqpop h k .i32 d a) s = .next (u.finish h (s.pushesOf h) (s.pc + 8) 0) ∧
       WritesLanes 32 512 gets mask value (fun i => (q i).items.headD 0) ∧ (∀ i, i < 512 → kv.testBit i = gets i) ∧
       (u.core t.cur.core).pend = (((t.putV d mask value none).putK a (2 ^ 512 - 1) kv none).core t.cur.core).pend ∧
       (∀ i, i < 512 → (u.core t.cur.core).lane i =
         if gets i then { q i with items := (q i).items.tail, cursor := (q i).cursor + 1 } else q i) ∧ u.mem = t.mem) ∧
   (∀ h d s, d ≠ 0 → s.mayIssue h .comp [kT d] = true →
     let t := s.atIssue h [kT d]
     ∃ kv, exec (.lqstat h .i32 d) s = .next ((t.putK d (2 ^ 512 - 1) kv none).finish h (s.pushesOf h) (s.pc + 8) 0) ∧
       ∀ i, i < 512 → kv.testBit i = ((t.core t.cur.core).lane i).exhausted) ∧
   (∀ l : Lane, l.exhausted = true ↔ l.items = [] ∧ l.cursor = l.stop)) ∧
  (let stands (t : State) (a : GReg) (l : Launch) (i : Nat) (g : Stage) : Prop :=
     t.launchOf t.cur.core = some l ∧ l.st[i]? = some g ∧ (t.g a).toNat % 64 = 0 ∧
       t.spCheck t.cur.core t.cur.role (t.g a) g.recsize 1 = none
   (∀ h a s l g n v w clk,
     CompletesIf h .trio [s.gT a] (.stgput h a) s
       (fun t => stands t a l ((t.core t.cur.core).stage + 1) g ∧ t.owes t.me = false ∧ ((t.slotTaken l = some n ∧ v = t) ∨ t.takesSlot l g 0 n v) ∧
         (if n < g.ringsize then clk = {} else g.getOver (n - g.ringsize) = some clk) ∧
         v.putsSlot l ((t.core t.cur.core).stage + 1) g (t.g a).toNat n clk w)
       (fun _ => w)) ∧
   (∀ h a s l g n v, s.mayIssue h .trio [s.gT a] = true →
     let t := s.atIssue h [s.gT a]
     stands t a l ((t.core t.cur.core).stage + 1) g → t.owes t.me = false → t.takesSlot l g 0 n v → g.ringsize ≤ n → g.getOver (n - g.ringsize) = none →
       exec (.stgput h a) s = .next (v.sleepNow (.ring n) true)) ∧
   (let waits (t : State) (a : GReg) (l : Launch) (i : Nat) (g : Stage) : Prop :=
      (t.core t.cur.core).stage = i + 1 ∧ stands t a l (i + 1) g ∧ t.slotTaken l = none
    (∀ h d a s l g i n x p q v w clk,
      CompletesIf h .trio [s.gT a, s.gT d] (.stgget h d a) s
        (fun t => (t.core t.cur.core).stage = i + 1 ∧ stands t a l (i + 1) g ∧
          ((t.slotTaken l = some n ∧ v = t) ∨
            (t.slotTaken l = none ∧ (t.core t.cur.core).marked = false ∧ t.peeks g p q x ∧ q < p ∧ x.getAhead l (i + 1) = false ∧
              (x.fenced = true → x.owes x.me = false) ∧ x.takesSlot l g 8 n v)) ∧
          g.putOver n = some clk ∧ v.getsSlot l (i + 1) g (t.g a).toNat n clk w)
        (fun _ => w.putG d 1 none)) ∧
    (∀ h d a s l g i p q x,
      CompletesIf h .trio [s.gT a, s.gT d] (.stgget h d a) s (fun t => waits t a l i g ∧ (t.core t.cur.core).marked = true) (fun t => t.putG d 0 none) ∧
      CompletesIf h .trio [s.gT a, s.gT d] (.stgget h d a) s
        (fun t => waits t a l i g ∧ (t.core t.cur.core).marked = false ∧ t.peeks g p q x ∧ p ≤ q ∧ x.stageOver l i = true)
        (fun _ => x.putG d 0 none)) ∧
    (∀ h d a s l g i p q x, s.mayIssue h .trio [s.gT a, s.gT d] = true →
      let t := s.atIssue h [s.gT a, s.gT d]
      waits t a l i g → (t.core t.cur.core).marked = false → t.peeks g p q x →
        ((p ≤ q ∧ x.stageOver l i = false) ∨ (q < p ∧ x.getAhead l (i + 1) = true)) →
        exec (.stgget h d a) s = .next (x.sleepNow (.get (i + 1) x.getSince) true))))

/-- Lines of DRAM under keys: what is written under a key slot reads back under it; every other byte reads as before, in the same line
under the same key, in other lines under every key; a line written under one key reads under another as what that key's
XTS-AES-256 makes of the stored ciphertext (R225). The byte order and the tweak of the mode are the model's choice (log 94). -/
def Obligations.KeyedMemory : Prop :=
  ∀ (s : State) (key pa : Nat) (bs : List Byte), Memory.wf s.mem = true → isDram pa = true → 0 < bs.length → pa % 64 + bs.length ≤ 64 →
    let t := s.writeKey key pa bs
    t.readKey key pa bs.length = bs ∧
    (∀ x, x / 64 = pa / 64 → (x < pa ∨ pa + bs.length ≤ x) → t.readKey key x 1 = s.readKey key x 1) ∧
    (∀ k x, x / 64 ≠ pa / 64 → t.readKey k x 1 = s.readKey k x 1) ∧
    (∀ k a b, bs.length = 64 → s.keyAt key = some a → s.keyAt k = some b → sameKey a b = false →
      t.readKey k pa 64 = leBytes 64 (leNat (xtsDecrypt b.bits (pa / 64) (xtsEncrypt a.bits (pa / 64) bs))))

/-- LDG and VLDG read at the translated parts and load G[D], extended by the type, or the marked words of V[D], after a variable time;
with an order they acquire at its scope (R252, R254, R256, R257). A decoded aperture is read from the current bytes (the model's choice, log 7),
and a load reads in its own step, so loads are made in program order (the model's choice, log 16). -/
def Obligations.GlobalLoad : Prop :=
  (∀ h ty acq d a off s u p,
    CompletesIf h .all [s.gT a, s.gT d] (.ldg h ty acq d a off) s
      (fun t => (t.g a + off.signExtend 64).toNat % styBytes ty = 0 ∧ t.readable [(t.g a + off.signExtend 64, styBytes ty)] u [p] ∧
        u.admitsInOrder false acq.isSome [(p.pa, p.len)])
      (fun _ =>
        let v := u.record (u.access false acq.isSome [(p.pa, p.len)])
        (if acq.isSome then v.loadAcquires acq [(p.pa, p.len)] else v).putG d (extended ty (leNat (v.readPhys p.leaf.key p.pa p.len))) none)) ∧
  (∀ h k acq d a off s u ps, s.mayIssue h .comp ([s.gT a, kT k] ++ s.vT d) = true →
    let t := s.atIssue h ([s.gT a, kT k] ++ s.vT d)
    let e := t.g a + off.signExtend 64
    let spans := spansOf (rowParts ps (wordRuns (t.kreg k)))
    t.tileOk t.cur.core (t.core t.cur.core).accsel = true → e.toNat % 64 = 0 → t.readable (pageParts e 2048) u ps →
    u.admitsInOrder false acq.isSome spans →
    let v := u.record (u.access false acq.isSome spans)
    let w := if acq.isSome then v.loadAcquires acq spans else v
    ∃ mask value, exec (.vldg h k acq d a off) s = .next ((w.putV d mask value none).finish h (s.pushesOf h) (s.pc + 8) 0) ∧
      ((∀ p ∈ ps, isDram p.pa = true) →
        WritesLanes 32 512 (t.bit k) mask value (fun i => leNat (v.readParts (slice ps (4 * i) 4)))))

/-- STG and VSTG store the low bytes of G[B], or the marked words of V[B], at the translated parts, and release at the scope of their
order, once no contribution of the context stands behind another's; a store of one line in DRAM reads back, and every other byte reads as
before (R225, R252, R254 to R257). A store is made in its own step (the model's choice, log 16). -/
def Obligations.GlobalStore : Prop :=
  (∀ h ty rel a b off s u p,
    CompletesIf h .all [s.gT a, s.gT b] (.stg h ty rel a b off) s
      (fun t => (t.g a + off.signExtend 64).toNat % styBytes ty = 0 ∧ t.writable [(t.g a + off.signExtend 64, styBytes ty)] u [p] ∧
        u.admitsInOrder true rel.isSome [(p.pa, p.len)] ∧ u.mayRelease rel.isSome)
      (fun t =>
        let v := (u.record (u.access true rel.isSome [(p.pa, p.len)])).writeParts [p] (leBytes (styBytes ty) (t.g b).toNat)
        (v.holdParts (rel.getD v.wscope) rel.isSome [p]).storeReleases rel rel.isSome [(p.pa, p.len)])) ∧
  (∀ h k rel a b off s u ps, s.mayIssue h .comp (s.gT a :: kT k :: s.vT b ++ []) = true →
    let t := s.atIssue h (s.gT a :: kT k :: s.vT b ++ [])
    let e := t.g a + off.signExtend 64
    let qs := rowParts ps (wordRuns (t.kreg k))
    t.tileOk t.cur.core (t.core t.cur.core).accsel = true → e.toNat % 64 = 0 → t.writable (pageParts e 2048) u ps →
    u.admitsInOrder true rel.isSome (spansOf qs) → u.mayRelease rel.isSome →
    let v := (u.record (u.access true rel.isSome (spansOf qs))).writeParts qs
      ((t.activeLanes k 512).flatMap (fun i => (List.range 4).map (fun j => rowByte (t.v b) (4 * i + j))))
    exec (.vstg h k rel a b off) s =
      .next (((v.holdParts (rel.getD v.wscope) rel.isSome qs).storeReleases rel rel.isSome (spansOf qs)).finish h (s.pushesOf h) (s.pc + 8) 0)) ∧
  (∀ h ty rel a b off s u p v, s.mayIssue h .all [s.gT a, s.gT b] = true →
    let t := s.atIssue h [s.gT a, s.gT b]
    let e := t.g a + off.signExtend 64
    e.toNat % styBytes ty = 0 → t.writable [(e, styBytes ty)] u [p] → u.admitsInOrder true rel.isSome [(p.pa, p.len)] → u.mayRelease rel.isSome →
    Memory.wf u.mem = true →
    isDram p.pa = true → p.pa % 64 + styBytes ty ≤ 64 → u.offTables p.pa p.len → exec (.stg h ty rel a b off) s = .next v →
      v.readKey p.leaf.key p.pa (styBytes ty) = leBytes (styBytes ty) (t.g b).toNat ∧
      (∀ x, x / 64 = p.pa / 64 → (x < p.pa ∨ p.pa + styBytes ty ≤ x) → v.readKey p.leaf.key x 1 = u.readKey p.leaf.key x 1) ∧
      (∀ k x, x / 64 ≠ p.pa / 64 → v.readKey k x 1 = u.readKey k x 1) ∧
      (s.noTokens h → ({ v with cores := u.cores, mem := u.mem, lineKey := u.lineKey, bad := u.bad, order := u.order } : State) = u ∧
        (∀ c, c ≠ s.cur.core → v.core c = u.core c) ∧ (∃ x, v.core s.cur.core = (u.core s.cur.core).setCtx s.cur.role x) ∧
        ∀ n, (v.ctx s.cur.core s.cur.role).getG n = (u.ctx s.cur.core s.cur.role).getG n))

/-- What stops a global access of LDG, STG, VLDG, VSTG, the atomics, RED and WAITV, in order: a misaligned address, a translation or permission
fault, a write into a decoded aperture or a pinned block; a synchronising access to bytes to which the context's own contributions still wait
stands behind them, and a release behind the context's contributions that stand behind others; then a conflict at the home, a line held
elsewhere, lost data. Every trap is precise, at the instruction, without effect. A held line is waited for during 2^20 cycles from the first
refusal on, and the access keeps its age (R239, R245, R246, R253, R254, R385). The home answers in the access's own step (the model's choice,
log 16). -/
def Obligations.GlobalRefusals : Prop :=
  let always : State → State → List Part → Bool := fun _ _ _ => true
  (∀ h ty acq d a off s, GlobalStops h (.ldg h ty acq d a off) s (scalarForm [s.gT a, s.gT d] a off (styBytes ty) false acq.isSome)) ∧
  (∀ h ty rel a b off s, GlobalStops h (.stg h ty rel a b off) s (scalarForm [s.gT a, s.gT b] a off (styBytes ty) true rel.isSome)) ∧
  (∀ h k acq d a off s, GlobalStops h (.vldg h k acq d a off) s (rowForm ([s.gT a, kT k] ++ s.vT d) a off k false acq.isSome)) ∧
  (∀ h k rel a b off s, GlobalStops h (.vstg h k rel a b off) s (rowForm (s.gT a :: kT k :: s.vT b ++ []) a off k true rel.isSome)) ∧
  (∀ mk ∈ integerAtomics.map (·.1) ++ [.aswp], ∀ h ty ord d a b off s,
    GlobalStops h (mk h ty ord d a b off) s (atomicForm [s.gT a, s.gT b, s.gT d] a off (styBytes ty) ord always)) ∧
  (∀ mk ∈ floatAtomics.map (·.1), ∀ h ty ord d a b off s,
    GlobalStops h (mk h ty ord d a b off) s (atomicForm [s.gT a, s.gT b, s.gT d] a off (styBytes (fstySty ty)) ord always)) ∧
  (∀ h ty ord d a b off s, GlobalStops h (.acas h ty ord d a b off) s
    (atomicForm [s.gT a, s.gT b, s.gT d, s.gT d] a off (styBytes ty) ord
      (fun t u ps => leNat (u.readParts ps) == (t.g d).toNat % 2 ^ (8 * styBytes ty)))) ∧
  (∀ h ord d a b off s, GlobalStops h (.abadd h ord d a b off) s
    (atomicForm [s.gT a, s.gT b, s.gT d, s.gT d] a off 4 ord
      (fun t u ps => decide (leNat (u.readParts ps) + (t.g b).toNat % 2 ^ 32 ≤ (t.g d).toNat % 2 ^ 32)))) ∧
  (∀ h op ty a b off s, GlobalStops h (.red h op ty a b off) s
    { atomicForm [s.gT a, s.gT b] a off (styBytes ty) .rlx always with ordered := false }) ∧
  (∀ h ty acq d a b off s, GlobalStops h (.waitv h ty acq d a b off) s
    (scalarForm [s.gT a, s.gT b, s.gT d] a off (styBytes ty) false true)) ∧
  (∀ (u : State) l q m,
    ((u.ctx u.cur.core u.cur.role).wait = some (.retry q m) → u.refusedSince l = q) ∧
    ((∀ x y, (u.ctx u.cur.core u.cur.role).wait ≠ some (.retry x y)) → (∀ w ∈ u.order.waiters, ¬ (w.agent = u.me ∧ w.line = l)) →
      u.refusedSince l = u.gtc))

/-- Atomics: one step reads the location, writes the new value and answers the old one, with the order of the suffix; ACAS writes on
equality, ABADD within its bound, and AFMIN and AFMAX write what the manual's table gives. One that releases waits while a contribution of its
context stands behind another's. RED applies its operator and answers nothing, in the order of the context's own accesses; REDC lands one
contribution at the line's home (R254, R258 to R266). Each is performed at the home in its own step (the model's choice, log 16). -/
def Obligations.Atomics : Prop :=
  let fine (t : State) (a : GReg) (off : BitVec 16) (n : Nat) (u : State) (p : Part) (ord : AOrd) (writes : Bool) : Prop :=
    t.atomicFine (t.g a + off.signExtend 64) n u p ord writes
  let low (t : State) (b : GReg) (n : Nat) : Nat := (t.g b).toNat % 2 ^ (8 * n)
  let integer (mk : Hdr → STy → AOrd → GReg → GReg → GReg → BitVec 16 → Instr) (new : STy → Nat → Nat → Nat) : Prop :=
    ∀ h ty ord d a b off s u p, CompletesIf h .all [s.gT a, s.gT b, s.gT d] (mk h ty ord d a b off) s
      (fun t => fine t a off (styBytes ty) u p ord true)
      (fun t => (u.atomicDone ord p (styBytes ty) (some (new ty (u.atomicOld p) (low t b (styBytes ty))))).putG d
        (extended ty (u.atomicOld p)) none)
  let float (mk : Hdr → FSty → AOrd → GReg → GReg → GReg → BitVec 16 → Instr) (op : Rop) : Prop :=
    ∀ h ty ord d a b off s u p, CompletesIf h .all [s.gT a, s.gT b, s.gT d] (mk h ty ord d a b off) s
      (fun t => fine t a off (styBytes (fstySty ty)) u p ord true)
      (fun t => (u.atomicDone ord p (styBytes (fstySty ty))
        (some (atomicNew op (fstySty ty) (u.atomicOld p) (low t b (styBytes (fstySty ty)))))).putG d (BitVec.ofNat 64 (u.atomicOld p)) none)
  (integer .aadd (atomicNew .add) ∧ integer .amin (atomicNew .min) ∧ integer .amax (atomicNew .max) ∧ integer .aminn (atomicNew .minn) ∧
    integer .amaxn (atomicNew .maxn) ∧ integer .aand (atomicNew .and) ∧ integer .aor (atomicNew .or) ∧ integer .axor (atomicNew .xor) ∧
    integer .aswp (fun _ _ b => b) ∧ float .afadd .fadd ∧ float .afmin .fmin ∧ float .afmax .fmax) ∧
  ((∀ h ty ord d a b off s u p,
     CompletesIf h .all [s.gT a, s.gT b, s.gT d, s.gT d] (.acas h ty ord d a b off) s
       (fun t => u.atomicOld p = low t d (styBytes ty) ∧ fine t a off (styBytes ty) u p ord true)
       (fun t => (u.atomicDone ord p (styBytes ty) (some (low t b (styBytes ty)))).putG d (extended ty (u.atomicOld p)) none) ∧
     CompletesIf h .all [s.gT a, s.gT b, s.gT d, s.gT d] (.acas h ty ord d a b off) s
       (fun t => u.atomicOld p ≠ low t d (styBytes ty) ∧ fine t a off (styBytes ty) u p ord false)
       (fun _ => (u.atomicDone ord p (styBytes ty) none).putG d (extended ty (u.atomicOld p)) none)) ∧
   (∀ h ord d a b off s u p,
     CompletesIf h .all [s.gT a, s.gT b, s.gT d, s.gT d] (.abadd h ord d a b off) s
       (fun t => u.atomicOld p + low t b 4 ≤ low t d 4 ∧ fine t a off 4 u p ord true)
       (fun t => (u.atomicDone ord p 4 (some (u.atomicOld p + low t b 4))).putG d (BitVec.ofNat 64 (u.atomicOld p)) none) ∧
     CompletesIf h .all [s.gT a, s.gT b, s.gT d, s.gT d] (.abadd h ord d a b off) s
       (fun t => low t d 4 < u.atomicOld p + low t b 4 ∧ fine t a off 4 u p ord false)
       (fun _ => (u.atomicDone ord p 4 none).putG d (BitVec.allOnes 64) none))) ∧
  ((∀ h op ty a b off s u p,
     let v := u.record (u.access true true [(p.pa, p.len)])
     let reduces (t : State) : Prop := (t.g a + off.signExtend 64).toNat % styBytes ty = 0 ∧
       t.writable [(t.g a + off.signExtend 64, styBytes ty)] u [p] ∧ u.admits true true [(p.pa, p.len)] ∧ u.badIn [(p.pa, p.len)] = none ∧
       u.mayRelease u.fenced
     CompletesIf h .all [s.gT a, s.gT b] (.red h op ty a b off) s (fun t => reduces t ∧ u.contributes u.me [(p.pa, p.len)] = false)
       (fun t => (v.writeParts [p] (leBytes (styBytes ty) (atomicNew op ty (u.atomicOld p) (low t b (styBytes ty))))).storeReleases none true
         [(p.pa, p.len)]) ∧
     CompletesIf h .all [s.gT a, s.gT b] (.red h op ty a b off) s (fun t => reduces t ∧ u.contributes u.me [(p.pa, p.len)] = true)
       (fun t =>
         let x : Contribution := { idx := 0, agent := u.me, scope := .core, clock := {}, rop := op, sty := ty,
                                   elems := [(p.pa % 64, styBytes ty, low t b (styBytes ty))],
                                   after := v.order.counters.flatMap (fun q => if q.1 = p.pa / 64 then
                                     (q.2.waiting.filter (fun y => y.agent == u.me)).map (·.idx) else []) }
         let stands (q : Nat × Counter) : Nat × Counter := if q.1 = p.pa / 64 then (q.1, { q.2 with behind := q.2.behind ++ [x] }) else q
         ({ v with order := { v.order with counters := v.order.counters.map stands } } : State).storeReleases none true [(p.pa, p.len)])) ∧
   (∀ h op ty det sc a b (cnt1 idx : BitVec 8) s u p,
     let v := u.record (u.access true true [(p.pa, p.len)])
     let lands (t : State) : Prop := (t.g a).toNat % styBytes ty = 0 ∧ (t.g a).toNat % 64 < 56 ∧ t.writable [(t.g a, styBytes ty)] u [p] ∧
       u.admits true true [(p.pa, p.len)] ∧ u.badIn [(p.pa, p.len)] = none ∧ u.mayRelease u.fenced
     let completes : Prop := v.completes (p.pa / 64) (cnt1.toNat + 1) = true
     CompletesIf h .all [s.gT a, s.gT b] (.redc h op ty det sc a b cnt1 idx) s
       (fun t => lands t ∧ v.refuses (p.pa / 64) (cnt1.toNat + 1) idx.toNat det = false ∧
         (completes → v.pinned (if v.cur.role = .F then .firmware else .trio) (64 * (p.pa / 64) + 56) 8 = false ∧
           v.flagClash v.me (p.pa / 64) = none ∧ v.badIn [(64 * (p.pa / 64) + 56, 8)] = none))
       (fun t =>
         let w := v.storeReleases none true [(p.pa, p.len)]
         (w.stamp w.me).1.contribute p.leaf.key (p.pa / 64) (cnt1.toNat + 1) det
           { idx := idx.toNat, agent := v.me, scope := sc, clock := (w.stamp w.me).2, rop := op, sty := ty,
             elems := [(p.pa % 64, styBytes ty, low t b (styBytes ty))] }) ∧
     TrapsIf h .all [s.gT a, s.gT b] (.redc h op ty det sc a b cnt1 idx) s
       (fun t => lands t ∧ v.refuses (p.pa / 64) (cnt1.toNat + 1) idx.toNat det = true) 0x02 0 0) ∧
   (∀ h op ty det sc a b (cnt1 idx : BitVec 8) s e,
     TrapsIf h .all [s.gT a, s.gT b] (.redc h op ty det sc a b cnt1 idx) s
       (fun t => t.g a = e ∧ (e.toNat % styBytes ty ≠ 0 ∨ 56 ≤ e.toNat % 64)) 0x06 0 e) ∧
   (∀ (op : Rop) (ty : STy) (m b : Nat), m < 2 ^ (8 * styBytes ty) → b < 2 ^ (8 * styBytes ty) → ropApply op ty m b = atomicNew op ty m b)) ∧
  (∀ row ∈ [(Rop.fmin, 0x00000000, 0x80000000, 0x80000000), (.fmax, 0x80000000, 0x00000000, 0x00000000), (.fmin, 0x7FC00001, 0x40400000, 0x40400000),
      (.fmax, 0x40A00000, 0x7FC00000, 0x40A00000), (.fmin, 0x7F800001, 0xFFC00000, 0x7FC00000), (.fmax, 0x40000000, 0x7F800002, 0x40000000)],
    atomicNew row.1 .i32 row.2.1 row.2.2.1 = row.2.2.2)

/-- FENCE holds its release for the next synchronising store and acquires what the last load found. XFENCE, in either order of its paths, makes
what its context knows of accesses on one path count as before what it does or makes known on the other; it orders no other pair of paths, and
ends no region. Both wait while a contribution of their context stands behind another's. PREF, CFLUSH and CINV change no value that is read;
WAITV waits while its location holds the value of G[B], and then answers what it holds (R235, R247, R248, R254, R268 to R272). What a FENCE
acquires at its own step, and that CINV leaves no old decoded line, are the model's choices (log 33, log 7). -/
def Obligations.Ordering : Prop :=
  let held (t : State) (sc : Scope) : State :=
    let v := (t.stamp t.me).1.endRegion (t.stamp t.me).1.me
    v.modCtx v.cur.core v.cur.role (fun x => { x with fences := x.fences ++ [(sc, (t.stamp t.me).2)] })
  let taken (t : State) (sc : Scope) : State :=
    (t.ctx t.cur.core t.cur.role).lastLoad.foldl (fun t l => t.acquireAt t.me sc l.1 l.2.1 l.2.2) t
  let free (t : State) : Prop := t.owes t.me = false
  (∀ h sc s, CompletesIf h .all [] (.fence h sc .rel) s free (fun t => held t sc)) ∧
  (∀ h sc s, CompletesIf h .all [] (.fence h sc .ar) s free (fun t => held (taken t sc) sc)) ∧
  (∀ h sc s, CompletesIf h .all [] (.fence h sc .acq) s free
    (fun t => ((taken t sc).stamp (taken t sc).me).1.endRegion ((taken t sc).stamp (taken t sc).me).1.me)) ∧
  (∀ h p q s, CompletesIf h .all [] (.xfence h p q) s free (fun t => t.xfence t.me p q)) ∧
  (∀ h sc o p q s, SleepsIf h .all [] (.fence h sc o) s (fun t => ¬ free t) (fun _ => .behind) ∧
    SleepsIf h .all [] (.xfence h p q) s (fun t => ¬ free t) (fun _ => .behind)) ∧
  (∀ (t : State) (p q : Path), p ≠ q →
    let u := t.xfence t.me p q
    let known (x : Access) : Prop := x.time ≤ SMap.get 0 (t.clockOf t.me).vc x.agent.code ∨ (x.agent = t.me ∧ x.time ≤ t.timeOf t.me)
    (∀ x, known x → (x.path = p → (u.clockOf u.me).knows x q = true) ∧ (x.path = q → (u.clockOf u.me).knows x p = true)) ∧
    (∀ x r, x.agent.code ≠ t.me.code → (r = x.path ∨ pairCode x.path r ≠ pairCode p q) →
      (u.clockOf u.me).knows x r = (t.clockOf t.me).knows x r) ∧
    (∀ a : Agent, a.code ≠ t.me.code → u.clockOf a = t.clockOf a) ∧
    ({ u with order := { u.order with clocks := t.order.clocks } } : State) = t) ∧
  (∀ h a off s, Completes h .all [s.gT a] (.pref h a off) s (fun t => t)) ∧
  (∀ h a off s u p,
    let at_ (t : State) : Prop := t.xlatParts t.cur.core (t.aspaceOf t.cur.core t.cur.role) .none [(t.g a + off.signExtend 64, 1)] = .ok (u, [p])
    CompletesIf h .all [s.gT a] (.cflush h a off) s at_ (fun _ => u) ∧
    CompletesIf h .all [s.gT a] (.cinv h a off) s (fun t => at_ t ∧ u.hasBad (p.pa / 64 * 64) 64 = none) (fun _ => u)) ∧
  (∀ h ty acq d a b off s u p,
    let fine (t : State) : Prop := (t.g a + off.signExtend 64).toNat % styBytes ty = 0 ∧
      t.readable [(t.g a + off.signExtend 64, styBytes ty)] u [p] ∧ u.admitsInOrder false true [(p.pa, p.len)]
    let v := u.record (u.access false true [(p.pa, p.len)])
    let now := leNat (v.readParts [p])
    CompletesIf h .all [s.gT a, s.gT b, s.gT d] (.waitv h ty acq d a b off) s
      (fun t => fine t ∧ now ≠ (t.g b).toNat % 2 ^ (8 * styBytes ty))
      (fun _ => (v.loadAcquires acq [(p.pa, p.len)]).putG d (extended ty now) none) ∧
    (s.mayIssue h .all [s.gT a, s.gT b, s.gT d] = true →
      let t := s.atIssue h [s.gT a, s.gT b, s.gT d]
      fine t → now = (t.g b).toNat % 2 ^ (8 * styBytes ty) →
      exec (.waitv h ty acq d a b off) s = .next (v.sleepNow (.waitv (p.pa / 64)) true)))

/-- LAUNCH reads the record at G[A], checks it, pushes the launch with the issuer's priority and address space as its release, once no
contribution of its context stands behind another's, and answers the push sequence number; a bad record traps with 0x13 and a misaligned one
with ALIGN, and nothing starts (R169, R182, R207, R254). The checks on a launch record's fields are those of R169; that a misaligned STAGES
counts as a bad record is the model's choice (log 87). -/
def Obligations.Launches : Prop :=
  ((∀ h d a s r gs v,
     CompletesIf h .all [s.gT a, s.gT d] (.launch h d a) s (fun t => t.acceptsRecord (t.g a) r gs v ∧ v.owes v.me = false)
       (fun _ =>
         let x := v.release v.me (smallestScope v.cur.core (coresOf r.qmask))
         (x.1.pushLaunch (quireOf v.cur.core) (newLaunch r gs x.1.launchPrio ((x.1.core v.cur.core).reg 0x201) (x.1.cur.role == .F)
           (some v.cur.core) none false x.2)).1.putG d (BitVec.ofNat 64 (x.1.pushSeq + 1)) none)) ∧
   (∀ h d a s r gs v, s.mayIssue h .all [s.gT a, s.gT d] = true → (s.atIssue h [s.gT a, s.gT d]).acceptsRecord
     ((s.atIssue h [s.gT a, s.gT d]).g a) r gs v → v.owes v.me = true → exec (.launch h d a) s = .next (v.sleepNow .behind true)) ∧
   (∀ h d a s e, TrapsIf h .all [s.gT a, s.gT d] (.launch h d a) s (fun t => t.g a = e ∧ e.toNat % 128 ≠ 0) 0x06 0 e) ∧
   (∀ h d a s e u ps,
     TrapsIf h .all [s.gT a, s.gT d] (.launch h d a) s
       (fun t =>
         let w := u.record (u.access false false (spansOf ps))
         t.g a = e ∧ e.toNat % 128 = 0 ∧ t.readable [(e, 128)] u ps ∧ u.admitsInOrder false false (spansOf ps) ∧
           ∀ r, recOf (w.readParts ps) = some r → w.recOk r = false) 0x13 0 e) ∧
   (∀ (s : State) (u : Nat) (mk : Nat → Launch), (mk (s.pushSeq + 1)).rcd.reltick = 0 →
     (s.pushLaunch u mk).2 = s.pushSeq + 1 ∧
       ∃ l, (s.pushLaunch u mk).1.launches = s.launches ++ [l] ∧ l.state = .ready ∧ l.rcd = (mk (s.pushSeq + 1)).rcd ∧
         l.bank = ((seedStep (s.quire u).gen).extractLsb' 60 4).toNat ∧ l.pushQuire = u)) ∧
  (∀ (s : State) (r : LRec), s.recOk r = true ↔ s.recordFine r)

/-- ENQ reads its words from the scratchpad up to END, checks them, and links one command with the next number of its chain, which it
answers; while the slot is not free, or an ENQ of another context waits before it, or a contribution of its context stands behind another's, it
waits. What it refuses traps with no effect, and so does a slot write that links the command and is refused (the model's choice, log 105) (R254,
R283, R295). ESEQ answers CHDONE; WAITSEQ waits until CHDONE reaches its number and answers 1 for a command that was cancelled or killed, else 0;
PROM answers the promise that the chain keeps of a command; ECANCEL retires a command that has not started and answers 1, else 0 (R296 to
R299). -/
def Obligations.EngineCommands : Prop :=
  ((∀ h sc d a sel s words u pas pages,
     CompletesIf h (enqRights sel) [s.gT a, s.gT d] (.enq h sc d a sel) s
       (fun t => t.enqFine sel (t.g a) words u pas pages ∧ ¬ u.slotBusy t.cur.core (selChain sel) ∧ u.slotAhead (selChain sel) = false ∧
         u.owes u.me = false ∧ ((u.release u.me .core).1.slotKnown t.cur.core (selChain sel) (u.release u.me .core).2).linkFault t.cur.core (selChain sel) = none)
       (fun t =>
         let x := u.release u.me .core
         let y := (x.1.slotKnown t.cur.core (selChain sel) x.2).linkCmd t.cur.core t.cur.role (selChain sel) sc words ((scanRuns words 0).map (fun r => (sxN 56 (r.1 % 2 ^ 56)).toNat))
           pas pages.eraseDups x.2
         y.1.putG d (BitVec.ofNat 64 y.2) none)) ∧
   (∀ h sc d a sel s words u pas pages, s.mayIssue h (enqRights sel) [s.gT a, s.gT d] = true →
     let t := s.atIssue h [s.gT a, s.gT d]
     t.enqFine sel (t.g a) words u pas pages → (u.slotBusy t.cur.core (selChain sel) ∨ u.slotAhead (selChain sel) = true) →
       exec (.enq h sc d a sel) s = .next (u.sleepNow (.slot (selChain sel) (u.slotSince (selChain sel))) true)) ∧
   (∀ h sc d a sel s words u pas pages x, s.mayIssue h (enqRights sel) [s.gT a, s.gT d] = true →
     let t := s.atIssue h [s.gT a, s.gT d]
     t.enqFine sel (t.g a) words u pas pages → ¬ u.slotBusy t.cur.core (selChain sel) → u.slotAhead (selChain sel) = false →
       (u.owes u.me = true → exec (.enq h sc d a sel) s = .next (u.sleepNow .behind true)) ∧
       (u.owes u.me = false →
         ((u.release u.me .core).1.slotKnown t.cur.core (selChain sel) (u.release u.me .core).2).linkFault t.cur.core (selChain sel) = some x →
           exec (.enq h sc d a sel) s =
             .next ((s.landed [s.gT a, s.gT d]).takeTrap s.cur.core s.cur.role x.1 0 (BitVec.ofNat 64 x.2.1) x.2.2 s.pc))) ∧
   (∀ h sc d a sel s e, TrapsIf h (enqRights sel) [s.gT a, s.gT d] (.enq h sc d a sel) s (fun t => t.g a = e ∧ e.toNat % 8 ≠ 0) 0x06 0 e) ∧
   (∀ h sc d a sel s e, TrapsIf h (enqRights sel) [s.gT a, s.gT d] (.enq h sc d a sel) s
     (fun t => t.g a = e ∧ e.toNat % 8 = 0 ∧ t.enqWords e = none) 0x05 0 e) ∧
   (∀ h sc d a sel s e words i, TrapsIf h (enqRights sel) [s.gT a, s.gT d] (.enq h sc d a sel) s
     (fun t => t.g a = e ∧ e.toNat % 8 = 0 ∧ t.enqWords e = some words ∧
       t.admits false false (spSpans t.cur.core [(e.toNat, 2 * words.length)]) ∧ illegalWord (selChain sel) words 0 0 = some i)
     0x34 0 (e + BitVec.ofNat 64 (2 * i))) ∧
   (∀ (s : State) (c : Nat) (r : Role) (n : Nat) (sc : Scope) (words vas pas : List Nat) (pages : List Leaf) (clk : Clock),
     let q := (s.core c).tail n + 1
     let t := (s.linkCmd c r n sc words vas pas pages clk).1
     (s.linkCmd c r n sc words vas pas pages clk).2 = q ∧ (t.core c).reg (0x318 + n) = BitVec.ofNat 64 q ∧
       ∃ e, ((t.core c).chain n).cmds = ((s.core c).chain n).cmds ++ [e] ∧ e.seq = q ∧ e.scope = sc ∧ e.role = r ∧ e.status = 0 ∧
         e.launch = (s.core c).launch ∧ e.vas = vas ∧ e.pages = pages ∧ e.age = s.gtc ∧
         (n = 0 → ((t.core c).chain 0).promised.getLast? = some (q, e.promise)))) ∧
  ((∀ h d sel s, Completes h .all [s.gT d] (.eseq h d sel) s (fun t => t.putG d ((t.core t.cur.core).reg (0x310 + selChain sel)) none)) ∧
   (∀ h d a sel s,
     CompletesIf h .all [s.gT a, s.gT d] (.waitseq h d a sel) s
       (fun t => t.g a ≠ 0 ∧ (t.g a).toNat ≤ (t.core t.cur.core).tail (selChain sel) ∧ (t.g a).toNat ≤ (t.core t.cur.core).chdone (selChain sel))
       (fun t =>
         let ch := (t.core t.cur.core).chain (selChain sel)
         (match ch.rel.find? (fun (x : Retired) => x.seq == (t.g a).toNat) with
           | some x => if pairs (.cmd t.cur.core (selChain sel) x.by_) x.byScope t.me x.scope then t.acquire t.me x.clock x.scope else t
           | none => t).putG d (if ch.cancelled.contains (t.g a).toNat then 1 else 0) none)) ∧
   (∀ h d a sel s,
     SleepsIf h .all [s.gT a, s.gT d] (.waitseq h d a sel) s
       (fun t => t.g a ≠ 0 ∧ (t.g a).toNat ≤ (t.core t.cur.core).tail (selChain sel) ∧ (t.core t.cur.core).chdone (selChain sel) < (t.g a).toNat)
       (fun t => .waitseq (selChain sel) (t.g a).toNat)) ∧
   (∀ h d a s,
     CompletesIf h .all [s.gT a, s.gT d] (.prom h d a) s
       (fun t => t.g a ≠ 0 ∧ (t.g a).toNat ≤ (t.core t.cur.core).tail 0 ∧ (t.core t.cur.core).tail 0 < (t.g a).toNat + 64)
       (fun t => t.putG d (BitVec.ofNat 64 (((((t.core t.cur.core).chain 0).promised.find? (fun p => p.1 == (t.g a).toNat)).map (·.2)).getD 0))
         none)) ∧
   (∀ h d a sel s e,
     CompletesIf h .all [s.gT a, s.gT d] (.ecancel h d a sel) s
       (fun t => t.g a ≠ 0 ∧ (t.g a).toNat ≤ (t.core t.cur.core).tail (selChain sel) ∧
         ((t.core t.cur.core).chain (selChain sel)).enq (t.g a).toNat = some e ∧ e.status = 0)
       (fun t => (t.retire t.cur.core (selChain sel) (t.g a).toNat 3).putG d 1 none)) ∧
   (∀ h d a sel s,
     CompletesIf h .all [s.gT a, s.gT d] (.ecancel h d a sel) s
       (fun t => t.g a ≠ 0 ∧ (t.g a).toNat ≤ (t.core t.cur.core).tail (selChain sel) ∧
         ∀ e, ((t.core t.cur.core).chain (selChain sel)).enq (t.g a).toNat = some e → e.status ≠ 0)
       (fun t => t.putG d 0 none)) ∧
   (∀ h d a sel s,
     TrapsIf h .all [s.gT a, s.gT d] (.waitseq h d a sel) s (fun t => t.g a = 0 ∨ (t.core t.cur.core).tail (selChain sel) < (t.g a).toNat) 0x02 0 0 ∧
     TrapsIf h .all [s.gT a, s.gT d] (.ecancel h d a sel) s (fun t => t.g a = 0 ∨ (t.core t.cur.core).tail (selChain sel) < (t.g a).toNat) 0x02 0 0 ∧
     TrapsIf h .all [s.gT a, s.gT d] (.prom h d a) s
       (fun t => t.g a = 0 ∨ (t.core t.cur.core).tail 0 < (t.g a).toNat ∨ (t.g a).toNat + 64 ≤ (t.core t.cur.core).tail 0) 0x02 0 0))

/-- The words on values: LIT, EXT, DUP, DROP, SWAP, OVER, ADD, SUB and SHL pop and push a stack of at most eight values with the results
of the word table, before the next word; one that finds too few values, and a push of a ninth, faults with 0x35 (R304). -/
def Obligations.EngineStack : Prop :=
  ∀ s q e, s.atWord q e →
    (∀ k : BitVec 15, (q.stack.length < 8 → WordDone (.ewLit k) s s { q with stack := k.setWidth 64 :: q.stack } 1) ∧
      (8 ≤ q.stack.length → WordFaults (.ewLit k) s 0x35 0 0)) ∧
    (∀ k, ∀ row ∈ oneValueWords k,
      (∀ a rest, q.stack = a :: rest → (row.2 a).length + rest.length ≤ 8 → WordDone row.1 s s { q with stack := row.2 a ++ rest } 1) ∧
      (q.stack = [] → WordFaults row.1 s 0x35 0 0)) ∧
    (∀ row ∈ twoValueWords,
      (∀ a b rest, q.stack = b :: a :: rest → (row.2 a b).length + rest.length ≤ 8 →
        WordDone row.1 s s { q with stack := row.2 a b ++ rest } 1) ∧
      (q.stack.length < 2 → WordFaults row.1 s 0x35 0 0)) ∧
    (q.stack.length = 8 → WordFaults .ewDup s 0x35 0 0 ∧ WordFaults .ewOver s 0x35 0 0)

/-- A 16-bit code that decodes is the code of its word, and each word's code decodes to it (R302). The words that set a command's own
state: ELEM, SWZ, DIM, PRIO, STAMP, with their limits; ADDR pushes the run that follows; SEQAT names the completion word; GATE takes a
credit or waits for one; END ends the command (R285, R287, R292, R305, R308 to R312). -/
def Obligations.EngineWords : Prop :=
  ((∀ (i : Instr) (w : Nat), encodeEngine i = some w → w < 2 ^ 16 ∧ decodeEngine w = some i) ∧
   (∀ (w : Nat) (i : Instr), w < 2 ^ 16 → decodeEngine w = some i → encodeEngine i = some w)) ∧
  (∀ s q e rest, s.atWord q e →
     (∀ t, q.stack = t :: rest →
       (∀ ty, etyOf t.toNat = some ty → ty ≠ .e2m1 → WordDone .ewElem s s { q with stack := rest, elem := ty } 1) ∧
       (etyOf t.toNat = none ∨ etyOf t.toNat = some .e2m1 → WordFaults .ewElem s 0x30 3 0) ∧
       (t.toNat ≤ 7 → WordDone .ewSwz s s { q with stack := rest, swz := BitVec.ofNat 3 t.toNat } 1) ∧
       (7 < t.toNat → WordFaults .ewSwz s 0x30 3 0) ∧
       (t.toNat < 8 → WordDone .ewPrio s s { q with stack := rest, pri := some t.toNat } 1) ∧
       (t.toNat = 8 → WordDone .ewPrio s s { q with stack := rest, pri := none } 1) ∧
       (8 < t.toNat → WordFaults .ewPrio s 0x30 3 0) ∧
       WordDone .ewStamp s s { q with stack := rest, stamp := some t.toNat } 1) ∧
     (∀ n ss ds, q.stack = ds :: ss :: n :: rest →
       (1 ≤ n.toNat → n.toNat ≤ 2 ^ 20 →
         WordDone .ewDim1 s s { q with stack := rest, cnt1 := n.toNat, ss1 := ss, ds1 := ds } 1 ∧
         WordDone .ewDim2 s s { q with stack := rest, cnt2 := n.toNat, ss2 := ss, ds2 := ds } 1) ∧
       (n.toNat = 0 ∨ 2 ^ 20 < n.toNat → WordFaults .ewDim1 s 0x30 3 0 ∧ WordFaults .ewDim2 s 0x30 3 0)) ∧
     (∀ n ss, q.stack.length < 3 → q.stack = n :: ss → WordFaults .ewDim1 s 0x35 0 0 ∧ WordFaults .ewDim2 s 0x35 0 0) ∧
     (q.stack = [] → WordFaults .ewElem s 0x35 0 0 ∧ WordFaults .ewSwz s 0x35 0 0 ∧ WordFaults .ewPrio s 0x35 0 0 ∧
       WordFaults .ewStamp s 0x35 0 0 ∧ WordFaults .ewSeqat s 0x35 0 0) ∧
     (let w (i : Nat) : Nat := s.slotWord s.cur.core s.cur.chain q.seq (q.upc + i)
      (q.stack.length < 8 → WordDone .ewAddr s s { q with stack := BitVec.ofNat 64 (runValue (w 1) (w 2) (w 3) (w 4)) :: q.stack } 6) ∧
      (8 ≤ q.stack.length → WordFaults .ewAddr s 0x35 0 0)) ∧
     (∀ a ps, q.stack = a :: rest → a.toNat % 8 = 0 → (s.wctx q e).glob true a.toNat 8 = .ok ps →
       WordDone .ewSeqat s s { q with stack := rest, seqa := some a.toNat } 1) ∧
     (∀ a, q.stack = a :: rest → a.toNat % 8 ≠ 0 → WordFaults .ewSeqat s 0x30 3 0) ∧
     (((s.core s.cur.core).chain s.cur.chain).credits = [] → WordWaits .ewGate s q) ∧
     (∀ k ks, ((s.core s.cur.core).chain s.cur.chain).credits = k :: ks →
       WordDone .ewGate s (s.takeCredit s.cur.core s.cur.chain (.cmd s.cur.core s.cur.chain q.seq) k) q 1) ∧
     WordDone .ewEnd s s { q with done := true, stack := [], stamp := none } 0)

/-- The copying words: every row is resolved before any access, then each is read whole and written in order; COPYT moves a whole tile
image; COPYX moves elements by their indices; FILL writes a pattern; a length outside its limits faults with 0x30, subcause 3 (R306, R313
to R317). CRED.l contributes the lines of its source, below offset 56, to the lines of its destination in order; each as the atomic
contribution of R265; a line that is refused faults the word, and the lines below it stay landed (R319, R320). -/
def Obligations.EngineTransfers : Prop :=
  ((∀ s q e rest, s.atWord q e →
     let x := s.wctx q e
     (∀ row ∈ copyWords, ∀ n src dst rows t, q.stack = n :: src :: dst :: rest →
       (1 ≤ n.toNat → n.toNat ≤ 2 ^ 24 →
         resolveRows (fun a => if row.2.2 then x.glob false a n.toNat else x.sp s q a n.toNat 1)
           (fun a => if row.2.1 then x.glob true a n.toNat else x.sp s q a n.toNat 1) dst src q.rowsOf = .ok rows →
         s.copyRows x rows = .ok t → WordDone row.1 s t { q with stack := rest } 1) ∧
       (n.toNat = 0 ∨ 2 ^ 24 < n.toNat → WordFaults row.1 s 0x30 3 0)) ∧
     (∀ pitch addr t ps, q.stack = pitch :: addr :: t :: rest → s.cmdTile e t.toNat = true → addr.toNat % 32 = 0 → pitch.toNat % 32 = 0 →
       ((s.core s.cur.core).landBy s.gtc).early (tileTs t.toNat 32) = false →
       let u := s.modCore s.cur.core (fun k => (k.landBy s.gtc).interlock (tileTs t.toNat 32))
       let plan := (u.shape s.cur.core t.toNat).plan pitch.toNat
       (resolvePlan (fun a n => x.glob false a n) addr plan = .ok ps → u.engAdmits x.agent false false ps →
         let v := u.engLoaded x.agent ps
         WordDone .ewCopytLd s (v.modCore s.cur.core (fun k => (loadResults t.toNat plan (v.readParts ps)).foldl (fun k r =>
           k.landOne { target := r.1, mask := r.2.1, value := r.2.2, ready := none }) k)) { q with stack := rest } 1) ∧
       (resolvePlan (fun a n => x.glob true a n) addr plan = .ok ps → (∀ p ∈ ps, u.pinned .engine p.pa p.len = false) →
         u.engAdmits x.agent true false ps →
         WordDone .ewCopytSt s (u.engStored x.agent e.scope ps ((u.core s.cur.core).tileImage t.toNat plan)) { q with stack := rest } 1)) ∧
     (∀ n idx base sp ip sps els t, q.stack = n :: idx :: base :: sp :: rest → 1 ≤ n.toNat → n.toNat ≤ 65536 →
       x.sp s q idx.toNat (4 * n.toNat) 4 = .ok ip → x.sp s q sp.toNat (q.size * n.toNat) q.size = .ok sps →
       s.engAdmits x.agent false false ip →
       let u := s.engLoaded x.agent ip
       let ids := lanesOf 32 n.toNat (leNat (u.readParts ip))
       (resolveElems x u q false sp base q.size ids 0 = .ok els → u.copyRows x els = .ok t → WordDone .ewCopyxG s t { q with stack := rest } 1) ∧
       (resolveElems x u q true sp base q.size ids 0 = .ok els → u.copyRows x (els.map (fun p => (p.2, p.1))) = .ok t →
         WordDone .ewCopyxS s t { q with stack := rest } 1)) ∧
     (∀ pat len dst rows t, q.stack = pat :: len :: dst :: rest → len.toNat % q.size = 0 → q.size ≤ len.toNat → len.toNat ≤ 2 ^ 24 →
       dst.toNat % q.size = 0 →
       let bs := (List.replicate (len.toNat / q.size) (leBytes q.size pat.toNat)).flatten
       (resolveFill (fun a => x.glob true a len.toNat) dst q.rowsOf = .ok rows → s.fillRows x bs rows = .ok t →
         WordDone .ewFillG s t { q with stack := rest } 1) ∧
       (resolveFill (fun a => x.sp s q a len.toNat 1) dst q.rowsOf = .ok rows → s.fillRows x bs rows = .ok t →
         WordDone .ewFillS s t { q with stack := rest } 1))) ∧
   (∀ (s : State) (x : WCtx) (a b : List Part) (rest : List (List Part × List Part)),
     let u := s.engLoaded x.agent a
     s.copyRows x [] = .ok s ∧
     (s.engAdmits x.agent false false a → (∀ p ∈ b, u.pinned .engine p.pa p.len = false) → u.engAdmits x.agent true false b →
       s.copyRows x ((a, b) :: rest) = (u.engStored x.agent x.enq.scope b (u.readParts a)).copyRows x rest)) ∧
   (∀ (s : State) (x : WCtx) (bs : List Byte) (b : List Part) (rest : List (List Part)),
     s.fillRows x bs [] = .ok s ∧
     ((∀ p ∈ b, s.pinned .engine p.pa p.len = false) → s.engAdmits x.agent true false b →
       s.fillRows x bs (b :: rest) = (s.engStored x.agent x.enq.scope b bs).fillRows x bs rest))) ∧
  ((∀ s q e rest, s.atWord q e →
     let x := s.wctx q e
     ∀ op n src dst o sp ds, q.stack = op :: n :: src :: dst :: rest → credOp op = some o → dst.toNat % 64 = 0 → n.toNat % 64 = 0 →
       64 ≤ n.toNat → n.toNat ≤ 2 ^ 24 → x.sp s q src.toNat n.toNat 64 = .ok sp → x.lines dst.toNat (n.toNat / 64) = .ok ds →
       s.engAdmits x.agent false false (sourceParts sp (n.toNat / 64) 0) →
       let u := s.engLoaded x.agent (sourceParts sp (n.toNat / 64) 0)
       let r := u.credLines x.c x.agent o (ds.drop q.lines) ((u.readParts sp).drop (64 * q.lines)) q.lines
       (r.2.2 = none → WordDone .ewCredL s r.1 { q with stack := rest, lines := 0 } 1) ∧
       (∀ cause sub addr other, r.2.2 = some (.fault cause sub addr other) →
         exec .ewCredL s = .next ((r.1.cmdFault x.c x.n cause sub addr other).modChain x.c x.n (fun ch =>
           { ch with run := some { q with lines := 0, next := s.gtc + 1 } })))) ∧
   (∀ (s : State) (c : Nat) (a : Agent) (o : CredOp) (d : List Part) (ds : List (List Part)) (bs : List Byte) (n : Nat),
     s.credLines c a o [] bs n = (s, n, none) ∧
     (∀ t, s.credLine c a o d (bs.take 64) = .ok t → s.credLines c a o (d :: ds) bs n = t.credLines c a o ds (bs.drop 64) (n + 1)) ∧
     (∀ e, s.credLine c a o d (bs.take 64) = .error e → s.credLines c a o (d :: ds) bs n = (s, n, some e))) ∧
   (∀ (s : State) (c : Nat) (a : Agent) (o : CredOp) (d : Part) (ds : List Part) (bs : List Byte),
     let line := d.pa / 64
     let ps := firstOf (d :: ds) 56
     let u := s.record { agent := a, write := true, sync := true, spans := spansOf ps }
     (∀ p ∈ ps, s.pinned .engine p.pa p.len = false) → s.engAdmits a true true ps → u.badIn (spansOf ps) = none →
     u.refuses line o.cnt o.idx o.det = false →
     (u.completes line o.cnt = true → u.pinned .engine (64 * line + 56) 8 = false ∧ u.flagClash a line = none ∧
       u.badIn [(64 * line + 56, 8)] = none) →
       s.credLine c a o (d :: ds) bs = .ok ((u.stamp a).1.contribute d.leaf.key line o.cnt o.det
         { idx := o.idx, agent := a, scope := o.scope, clock := (u.stamp a).2, rop := o.rop, sty := o.sty,
           elems := (List.range (56 / styBytes o.sty)).map (fun i =>
             (i * styBytes o.sty, styBytes o.sty, leNat ((bs.drop (i * styBytes o.sty)).take (styBytes o.sty)))) })))

/-- A TMMA whose tiles its command may name waits as a candidate until its product starts; a product's element is the running sum of its
chunks, each summed exactly and rounded once, and lands in its accumulator tile when it is due (R62, R318, R331 to R334). The matrix
engine starts the candidate that R338 picks, a stamped product in its cycle, a product offered to another engine of the quire; a started
product holds the engine for its occupancy and is due 12 cycles later, a rejected one faults its command, and a missed stamp faults with
0x32 (R331, R332, R334, R338 to R340, R342). A product that is due lands in its accumulator tile and gives up its tiles; one that ran
elsewhere is counted at both ends; one whose operand records are lost faults its command at the TMMA word with 0x25 and changes no tile
(R334, R336, R341, R343); that a later product which reads its accumulator is lost with it is the model's choice (log 109). -/
def Obligations.MatrixEngine : Prop :=
  ((∀ s q e rest op o, s.atWord q e → q.stack = op :: rest → tmmaOp op = some o →
     (s.cmdTile e o.ct && s.cmdTile e o.at_ && s.cmdTile e o.bt) = true →
       WordWaits .ewTmma s { q with waiting := some (q.waiting.getD s.gtc) }) ∧
   (∀ s q e rest op, s.atWord q e → q.stack = op :: rest → tmmaOp op = none → WordFaults .ewTmma s 0x30 3 0) ∧
   (∀ (k : Core) (o : TmmaOp) (a b : Shape) (kc i : Nat), i < a.rows → b.rows ≤ 32 → (kc = 16 ∨ kc = 32) →
     ∃ value, (k.tmmaRows o a b kc)[i]? = some (i, 2 ^ (32 * b.cols) - 1, value) ∧
       ∀ j, j < b.cols →
         let x (q : Nat) : XVal := xMul
           (xMul (xOf a.ew (lane (etyBits a.ew) (k.row (32 * o.at_ + i)).toNat (o.koff + q)))
             (scaleAt a.scaled (k.sideRow (32 * o.at_ + i)).toNat (o.koff + q)))
           (xMul (xOf b.ew (lane (etyBits b.ew) (k.row (32 * o.bt + q)).toNat j)) (scaleAt b.scaled (k.sideRow (32 * o.bt + q)).toNat j))
         lane 32 value j = tmmaElement x kc b.rows o.ovw (lane 32 (k.rowAfter o.ct i) j))) ∧
  ((∀ (s : State) (n : Nat) (o : TmmaOp) (m : Nat), s.mxPick s.cur.core = some (n, o, m) →
     exec .mxStart s = .next ((s.modCore s.cur.core (fun k => { k with mxCount := m })).startTmma s.cur.core n s.cur.core o)) ∧
   (∀ (s : State) (c : Nat), (s.core c).mxUntil ≤ s.gtc →
     let mode := ((s.core c).reg 0x340).extractLsb' 8 2
     let wt := (((s.core c).reg 0x340).extractLsb' 0 8).toNat
     let k := (s.core c).mxCount
     (∀ o, s.candidate c 1 = some o → s.candidate c 2 = none → s.mxPick c = some (1, o, k)) ∧
     (∀ o, s.candidate c 1 = none → s.candidate c 2 = some o → s.mxPick c = some (2, o, 0)) ∧
     (∀ o p, s.candidate c 1 = some o → s.candidate c 2 = some p →
       (mode = 0 → s.mxPick c = some (1, o, k)) ∧ (mode = 1 → s.mxPick c = some (2, p, k)) ∧
       (mode = 2 → s.mxPick c = if k < wt then some (1, o, k + 1) else some (2, p, 0)))) ∧
   (∀ (s : State) (o : TmmaOp), s.stampedDue s.cur.core s.cur.chain = some o →
     let u := if s.cur.chain = 2 ∧ s.candidate s.cur.core 1 = none then s.modCore s.cur.core (fun k => { k with mxCount := 0 }) else s
     exec .stampedTmmaStart s = .next (u.startTmma s.cur.core s.cur.chain s.cur.core o) ∧
       ∃ q since, s.atTmma s.cur.core s.cur.chain = some (q, o, since) ∧ q.stamp = some s.gtc) ∧
   (∀ (s : State) (q : Cmd) (o : TmmaOp) (since t : Nat), s.atTmma s.cur.core s.cur.chain = some (q, o, since) → q.stamp = some t → t ≤ s.gtc →
     s.stampedDue s.cur.core s.cur.chain = none →
       exec .scheduleMiss s = .next (s.cmdFault s.cur.core s.cur.chain 0x32 0 0 0)) ∧
   (∀ (s : State) (o : TmmaOp) (d : Nat), s.offer s.cur.core s.cur.chain = some (o, d) →
     exec .migrationOffer s = .next (s.startTmma s.cur.core s.cur.chain d o) ∧ d ≠ s.cur.core ∧ d / 8 = s.cur.core / 8 ∧
       ((s.core d).reg 0x341).getLsbD 33 = true ∧ s.mxIdle d = true) ∧
   (∀ (s : State) (c n b : Nat) (o : TmmaOp) (q : Cmd), ((s.core c).chain n).run = some q →
     let u := s.modCore c (fun k => (k.landBy s.gtc).interlock (tileTs o.ct 32 ++ tileTs o.at_ 32 ++ tileTs o.bt 32))
     let x := u.shape c o.at_
     let y := u.shape c o.bt
     let t := s.startTmma c n b o
     (∀ kc occ, tmmaForm x.ew y.ew x.rows y.rows = some (kc, occ) → tmmaOk o x y (u.shape c o.ct) = true →
       (t.core b).mxUntil = (if b = c then s.gtc + occ else s.gtc + occ + 12) ∧
       ((t.core c).chain n).run = some { q with stack := q.stack.drop 1, upc := q.upc + 1, waiting := none, stamp := none, exec := b,
                                                next := s.gtc + 1 } ∧
       ∃ p, (t.core c).mx = (s.core c).mx ++ [p] ∧ p.chain = n ∧ p.seq = q.seq ∧ p.ct = o.ct ∧ p.at_ = o.at_ ∧ p.bt = o.bt ∧
         p.rows = (u.core c).tmmaRows o x y kc ∧ p.occEnd = s.gtc + occ ∧ p.ready = s.gtc + occ + 12 ∧ p.by_ = b ∧
         p.ovw = o.ovw) ∧
     (tmmaForm x.ew y.ew x.rows y.rows = none ∨ tmmaOk o x y (u.shape c o.ct) = false → t = u.cmdFault c n 0x30 3 0 0))) ∧
  ((∀ (s : State) (p : Product), s.productDue s.cur.core true = some p →
     exec .tmmaComplete s = .next (if p.bad = true then s.loseProduct s.cur.core p else s.landProduct s.cur.core p) ∧
       p ∈ (s.core s.cur.core).mx ∧ p.ready ≤ s.gtc ∧ p.by_ = s.cur.core) ∧
   (∀ (s : State) (p : Product), s.productDue s.cur.core false = some p → p.bad = false →
     let u := s.modCore s.cur.core (fun k => k.setReg 0x342 (bumpLow (k.reg 0x342) false))
     exec .migratedProductReturn s =
       .next ((u.modCore p.by_ (fun k => k.setReg 0x342 (bumpLow (k.reg 0x342) true))).landProduct s.cur.core p) ∧ p.by_ ≠ s.cur.core) ∧
   (∀ (s : State) (p : Product), s.productDue s.cur.core false = some p → p.bad = true →
     exec .migratedProductReturn s = .next (s.loseProduct s.cur.core p)) ∧
   (∀ (s : State) (c : Nat) (p : Product) (q : Cmd), ((s.core c).chain p.chain).run = some q → q.seq = p.seq →
     (((s.core c).chain p.chain).fault = false ∨ p.upc < q.upc) →
       let reads (x : Product) : Prop := x.ct = p.ct ∧ x.ovw = false ∧ p.ready ≤ x.ready ∧ p.occEnd ≤ x.occEnd
       ∃ mx : List Product, mx.length = ((s.core c).mx.erase p).length ∧
         (∀ (n : Nat) (x y : Product), ((s.core c).mx.erase p)[n]? = some x → mx[n]? = some y →
           (reads x → y = { x with bad := true }) ∧ (¬ reads x → y = x)) ∧
         s.loseProduct c p = ((s.modCore c (fun k => { k with mx := mx })).modCmd c p.chain (fun q => { q with
           upc := p.upc, stack := p.stack, done := false, waiting := none, pull := none, refused := none, lines := 0 })).cmdFault c p.chain
             0x25 0 0 0) ∧
   (∀ (w : Word) (hi : Bool), bumpLow w hi =
     if hi then w + 0x100000000 else (w &&& 0xFFFFFFFF00000000) ||| ((w + 1) &&& 0xFFFFFFFF)) ∧
   (∀ (s : State) (c : Nat) (p : Product) (i mask value : Nat) (before after : List (Nat × Nat × Nat)),
     p.rows = before ++ (i, mask, value) :: after → (∀ r ∈ before ++ after, r.1 % 32 ≠ i) → (∀ r ∈ p.rows, r.1 < 32) → p.ct < 8 →
       ((s.landProduct c p).core c).row (32 * p.ct + i) =
         BitVec.ofNat 16384 (mergeBits ((s.core c).row (32 * p.ct + i)).toNat mask value) ∧
       ((s.landProduct c p).core c).mx = (s.core c).mx.erase p ∧
       (∀ r, r / 32 ≠ p.ct → r < 256 → ((s.landProduct c p).core c).row r = (s.core c).row r)))

/-- NOTICE publishes the block that its descriptor names and answers the notice's number; with the publication table full, or behind an older
waiter, it waits, and while a contribution of its context stands behind another's; a bad descriptor traps. DECLINE, PULLREL and NRECV act on the core's own port; what PULLREL returns is ordered before what the port lands there
next (R250, R254, R345, R346, R356 to R361). That the release of NOTICE and NOTE reaches the pulls of the block, as an XFENCE would, and that a DECL
towards another package completes at its send, are the model's choices (log 15, log 42). The words of notices: NOTE publishes a
block of the command and stores the number; PULL and CRED.p claim an announced or waiting entry and wait until the pull has completed;
DECL declines it (R321 to R323). -/
def Obligations.Notices : Prop :=
  ((∀ h d a s x ps w done i,
     CompletesIf h .stor [s.gT a, s.gT d] (.notice h d a) s
       (fun t => t.noticeFine (t.g a) x ps w done ∧ (w.core t.cur.core).port.freePub = some i ∧
         w.entryAhead t.cur.core none w.entrySince = false ∧ w.owes w.me = false)
       (fun t =>
         let y := w.noticeClock w.me
         let z := y.1.publish t.cur.core i x x.loc (ps.map (·.leaf)).eraseDups done (y.1.aspaceOf t.cur.core y.1.cur.role) false y.1.cur.role y.2
         z.1.putG d z.2 none)) ∧
   (∀ h d a s x ps w done, s.mayIssue h .stor [s.gT a, s.gT d] = true →
     let t := s.atIssue h [s.gT a, s.gT d]
     t.noticeFine (t.g a) x ps w done →
       ((w.core t.cur.core).port.freePub = none ∨ w.entryAhead t.cur.core none w.entrySince = true →
         exec (.notice h d a) s = .next (w.sleepNow (.entry w.entrySince) true)) ∧
       ((w.core t.cur.core).port.freePub ≠ none → w.entryAhead t.cur.core none w.entrySince = false → w.owes w.me = true →
         exec (.notice h d a) s = .next (w.sleepNow .behind true))) ∧
   (∀ h d a s,
     TrapsIf h .stor [s.gT a, s.gT d] (.notice h d a) s
       (fun t =>
         let sp := spSpans t.cur.core [((t.g a).toNat, 64)]
         (t.g a).toNat % 8 = 0 ∧ t.spCheck t.cur.core t.cur.role (t.g a) 64 1 = none ∧ t.admits false false sp ∧
           parseDesc ((t.record (t.access false false sp)).raw (spAddr t.cur.core (t.g a).toNat) 64) true = none) 0x02 0 0) ∧
   (∀ (s : State) (c i : Nat) (d : Desc) (loc : Nat) (pages : List Leaf) (done : Option (Nat × Leaf)) (asp : Option Word)
       (note : Bool) (role : Role) (clk : Clock),
     (s.publish c i d loc pages done asp note role clk).2 = BitVec.ofNat 64 (s.podId c * 2 ^ 48 + (s.core c).port.serial % 2 ^ 48) ∧
       ∃ b, ((s.publish c i d loc pages done asp note role clk).1.core c).port.pub i = some b ∧ b.done = done ∧ b.doneAsp = asp ∧ b.count = d.retain ∧ b.cons = d.cons ∧
         b.expiry = s.gtc + d.timeout ∧ b.expired = false ∧ b.frames = pages ∧ b.info.size = d.size ∧ b.info.tag = d.tag) ∧
   (∀ h d a s e,
     CompletesIf h .all [s.gT a, s.gT d] (.decline h d a) s
       (fun t => (t.core t.cur.core).port.entry (t.g a) = some e ∧ e.unclaimed = true)
       (fun t => (t.sendDecline t.cur.core e).putG d 0 none)) ∧
   (∀ h d a s,
     CompletesIf h .all [s.gT a, s.gT d] (.decline h d a) s
       (fun t => ∀ e, (t.core t.cur.core).port.entry (t.g a) = some e → e.unclaimed = false)
       (fun t => t.putG d 1 none)) ∧
   (∀ h a s,
     CompletesIf h .all [s.gT a] (.pullrel h a) s
       (fun t => (t.g a).toNat % 512 = 0 ∧ 512 ≤ (t.g a).toNat ∧ (t.g a).toNat ≤ (t.core t.cur.core).port.landed)
       (fun t =>
         let k := t.core t.cur.core
         (t.returnBytes t.me t.cur.core (ringSpans (spAddr t.cur.core k.lzbase) k.lzsize k.port.rd (t.g a).toNat)).modPort t.cur.core (fun p =>
           { p with rd := (p.rd + (t.g a).toNat) % (t.core t.cur.core).lzsize, free := p.free + (t.g a).toNat,
                    resv := (takeRing p.resv p.given (t.g a).toNat).1, given := (takeRing p.resv p.given (t.g a).toNat).2 }))) ∧
   (∀ h a s,
     TrapsIf h .all [s.gT a] (.pullrel h a) s
       (fun t => (t.g a).toNat % 512 ≠ 0 ∨ t.g a = 0 ∨ (t.core t.cur.core).port.landed < (t.g a).toNat) 0x02 0 0) ∧
   (∀ (s : State) (a : Agent) (c lo n : Nat) (x : Access), a.core? = some c → x ∈ s.order.accesses → x.agent.core? = some c →
     (x.path = .core ∨ x.path = .gath → x.time ≤ SMap.get 0 (s.stamp a).2.vc x.agent.code) →
     (x.path ≠ .core → x.path ≠ .gath → (s.stamp a).2.knows x .gath = true) → lo ≤ x.lo → x.lo + x.len ≤ lo + n → 0 < x.len →
       let t := s.returnBytes a c [(lo, n)]
       let y : Access := { x with returned := some (a, SMap.get 0 (s.stamp a).2.vc a.code) }
       y ∈ t.order.accesses ∧ ∀ strand, t.ordered y (.port c strand) = true) ∧
   (∀ h d a s,
     CompletesIf h .all [s.gT a, s.gT d] (.nrecv h d a) s (fun t => (t.g a).toNat % 32 = 0 ∧ (t.core t.cur.core).port.recs = [])
       (fun t => t.putG d 0 none) ∧
     ∀ r rest,
       CompletesIf h .all [s.gT a, s.gT d] (.nrecv h d a) s
         (fun t => (t.g a).toNat % 32 = 0 ∧ t.spCheck t.cur.core t.cur.role (t.g a) 32 1 = none ∧ (t.core t.cur.core).port.recs = r :: rest ∧
           t.mayWrite (spSpans t.cur.core [((t.g a).toNat, 32)]))
         (fun t =>
           let c := t.cur.core
           let e := (t.g a).toNat
           let u := (((t.record (t.access true false (spSpans c [(e, 32)]))).clearBad (spAddr c e) 32).writePieces c [(e, 32)]
             (leBytes 8 r.info.nid.toNat ++ leBytes 4 r.info.tag.toNat ++ leBytes 4 r.info.size ++ leBytes 4 r.off ++
               leBytes 2 r.info.producer ++ leBytes 1 r.status ++ leBytes 1 r.info.prio ++ leBytes 8 r.gtc)).modPort c (fun p => { p with recs := rest })
           let v := if r.status = 1 then u else u.freeEntry c r.info.nid
           (if r.status = 0 then v.acquire v.me r.clock else v).putG d 1 none))) ∧
  (∀ s q e rest, s.atWord q e →
     let x := s.wctx q e
     (∀ d pa res dp rp ds run ps done i, q.stack = res :: pa :: d :: rest → x.sp s q d.toNat 64 8 = .ok dp → x.sp s q res.toNat 8 8 = .ok rp →
       s.engAdmits x.agent false false dp →
       let u := s.engLoaded x.agent dp
       parseDesc (u.readParts dp) false = some ds → pa.toNat % 64 = 0 →
       x.runs.find? (fun r => decide (r.pa ≤ pa.toNat) && decide (pa.toNat + ds.size ≤ r.pa + r.len)) = some run →
       resolve [run] e.pages false pa.toNat ds.size = .ok ps →
       ((ds.done = 0 ∧ done = none) ∨ (ds.done ≠ 0 ∧ ∃ dps, x.glob true ds.done 8 = .ok dps ∧ done = dps.head?.map (fun p => (p.pa, p.leaf)))) →
       (u.core x.c).port.freePub = some i → u.entryAhead x.c (some x.n) (q.held.getD u.gtc) = false →
       let y := u.noticeClock x.agent
       let z := y.1.publish x.c i { ds with prio := q.pri.getD ds.prio } (run.va + (pa.toNat - run.pa)) (ps.map (·.leaf)).eraseDups done
         (y.1.aspaceOf x.c e.role) true e.role y.2
       (∀ p ∈ rp, z.1.pinned .engine p.pa p.len = false) → z.1.engAdmits x.agent true false rp →
       WordDone .ewNote s (z.1.engStored x.agent e.scope rp (leBytes 8 z.2.toNat)) { q with stack := rest } 1) ∧
     (∀ n, q.pull = some n → WordWaits .ewPullS s q ∧ WordWaits .ewPullG s q ∧ WordWaits .ewCredP s q ∧ WordWaits .ewDecl s q) ∧
     (∀ n dst y ps, q.pull = none → q.stack = dst :: n :: rest → s.wordEntry x.c n = .ok y →
       let waits (i : Instr) (l : Land) : Prop :=
         exec i s = .next ((s.claim x.c q x.agent y l).modChain s.cur.core s.cur.chain (fun ch =>
           { ch with run := some { q with pull := some n, held := none, next := (s.claim x.c q x.agent y l).gtc + 1 } }))
       (x.sp s q dst.toNat y.info.size 64 = .ok ps → waits .ewPullS (.sp dst.toNat q.swz x.n)) ∧
       (dst.toNat % 64 = 0 → x.glob true dst.toNat y.info.size = .ok ps → waits .ewPullG (.glob dst.toNat x.n))) ∧
     (∀ n dst op y ps, q.pull = none → q.stack = op :: n :: dst :: rest → credOk op = true → dst.toNat % 64 = 0 →
       s.wordEntry x.c n = .ok y → x.glob true dst.toNat y.info.size = .ok ps →
       let t := s.claim x.c q x.agent y (.cred dst.toNat op.toNat x.n)
       exec .ewCredP s = .next (t.modChain s.cur.core s.cur.chain (fun ch =>
         { ch with run := some { q with pull := some n, held := none, next := t.gtc + 1 } }))) ∧
     (∀ n y, q.pull = none → q.stack = n :: rest → s.wordEntry x.c n = .ok y →
       let t := s.sendDecline x.c y
       (y.info.producer / 512 = t.pkg → exec .ewDecl s = .next (t.modChain s.cur.core s.cur.chain (fun ch =>
         { ch with run := some { q with pull := some n, held := none, next := t.gtc + 1 } }))) ∧
       (y.info.producer / 512 ≠ t.pkg → WordDone .ewDecl s t { q with stack := rest } 1)) ∧
     (∀ n, q.pull = none → q.stack = n :: rest → s.wordEntry x.c n = .error (.eng 3 0) → WordFaults .ewDecl s 0x30 3 0) ∧
     ∀ (t : State) (c : Nat) (n : Word) (y : PEntry), t.wordEntry c n = .ok y ↔ ((t.core c).port.entry n = some y ∧ y.unclaimed = true))

/-- Notices between their producer and a port of this package: arrival, a full table and the sending again, the beginning of a pull, its
refusal, its completion, a decline, a withdrawal (R348, R349, R351, R356, R406, R420). An acknowledged pull or a decline of a consumer
counts once; with the count at zero and no pull in progress the block is unpinned: its pages and its entry are given up, the completion
word rises by one, and those who have not begun are told (R348, R350). Messages of one line are taken in the order in which they stand,
and kept notices are sent again in the order of their publication (R351). The agent that reads the block is the one that lands the pull.
The completion word is a release of the producer's port (the model's choice, log 45). -/
def Obligations.NoticeProtocol : Prop :=
  (∀ (s : State) (i : Nat) (m : Packet), s.message i m →
     let c := m.dst % 512
     let t := s.takeMsg i
     let port := (t.core c).port
     (s.notFirst i = true → exec (.noticeArrival i) s = .next s ∧ exec (.noticeResend i) s = .next s ∧ exec (.pullBegin i) s = .next s ∧
       exec (.segmentLand i) s = .next s) ∧
     (∀ info, m.body = .notice info → s.notFirst i = false →
       (t.stale m = true → exec (.noticeArrival i) s = .next (t.dropStale m (dieOf c))) ∧
       (t.stale m = false → port.turnsAway m.src info.nid = true →
         let u := t.modPort c (fun p => { p with turned := (p.turned ++ [(m.src, info.nid)]).eraseDups })
         exec (.noticeArrival i) s = .next (u.send (u.podId c) m.src m.group m.gen (.tableFull info.nid))) ∧
       (t.stale m = false → port.turnsAway m.src info.nid = false → ∃ e : PEntry, e.info = info ∧ e.arrival = t.gtc ∧ e.order = port.arrivals ∧
         let u := t.modPort c (fun p => { p with
           table := p.table ++ [e], arrivals := p.arrivals + 1, turned := p.turned.filter (· != (m.src, info.nid)) })
         let r := u.release (.port c 0) .core
         (info.size ≤ (t.core c).lzsize → (t.core c).auto = true → e.state = .waiting ∧ exec (.noticeArrival i) s = .next u) ∧
         ((t.core c).lzsize < info.size ∨ (t.core c).auto = false →
           e.state = .announced ∧ exec (.noticeArrival i) s = .next (r.1.arrivalRecord c info 1 noOffset r.2)))) ∧
     (∀ nid j b, m.body = .tableFull nid → s.notFirst i = false → port.find nid = some (j, b) →
       exec (.noticeResend i) s = .next (t.setPub c j (some { b with kept := (b.kept ++ [m.src]).eraseDups }))) ∧
     (m.body = .entryFree → s.notFirst i = false →
       exec (.noticeResend i) s = .next ((port.keptFor m.src).foldl (fun t x =>
         let u := t.setPub c x.1 (some { x.2 with kept := x.2.kept.filter (· != m.src) })
         u.send (u.podId c) m.src x.2.group x.2.gen (.notice x.2.info)) t)) ∧
     (∀ nid seg, m.body = .segReq nid seg → s.notFirst i = false → t.stale m = false →
       (port.find nid = none → exec (.pullBegin i) s = .next (t.send (t.podId c) m.src m.group m.gen (.refuse nid))) ∧
       (∀ j b, port.find nid = some (j, b) → ¬ b.admitsPull m.src seg →
         exec (.pullBegin i) s = .next (t.send (t.podId c) m.src m.group m.gen (.refuse nid))) ∧
       (∀ j b, port.find nid = some (j, b) → b.admitsPull m.src seg → m.src / 512 = t.pkg →
         let a := s.consumer m.src nid (s.podId c)
         let u := s.acquire a b.clock
         let ps := b.segment seg
         u.engAdmits a false false ps →
         let v := (((u.engLoaded a ps).takeMsg i).setPub c j (some (b.served m.src seg))).pullWaits (m.src % 512) nid none
         exec (.pullBegin i) s = .next (v.send (v.podId c) m.src m.group m.gen (.segData nid seg ((u.engLoaded a ps).readParts ps))))) ∧
     (∀ nid, m.body = .ack nid →
       let own : Prop := m.src / 512 = t.pkg
       (∀ j b, own → ((t.wordDone (m.src % 512) nid).core c).port.find nid = some (j, b) →
         exec (.pullComplete i) s =
           .next ((t.wordDone (m.src % 512) nid).settlePub c j (b.complete m.src (t.clockOf (.port (m.src % 512) 0))))) ∧
       (∀ j b, ¬ own → port.find nid = some (j, b) → exec (.pullComplete i) s = .next (t.settlePub c j (b.complete m.src {})))) ∧
     (∀ nid j b, m.body = .decline nid → t.stale m = false →
       let u := if m.src / 512 = t.pkg then t.wordDone (m.src % 512) nid else t
       (u.core c).port.find nid = some (j, b) → exec (.declineArrival i) s = .next (u.settlePub c j (b.complete m.src {}))) ∧
     (∀ nid e, m.body = .withdraw nid → port.entry nid = some e →
       ((e.state = .waiting ∨ e.state = .announced ∨ ∃ l p, e.state = .claimed l p) →
         exec (.withdrawalArrival i) s =
           .next (((t.modEntry c nid (fun e => { e with state := .refused })).wordDone c nid).arrivalRecord c e.info 2 noOffset {})) ∧
       (e.state = .pulling ∨ e.state = .landed ∨ e.state = .refused → exec (.withdrawalArrival i) s = .next t)) ∧
     (∀ nid, m.body = .withdraw nid → port.entry nid = none →
       let u := t.modPort c (fun p => { p with turned := p.turned.filter (fun x => x.2 != nid) })
       exec (.withdrawalArrival i) s =
         .next (if (∃ x ∈ port.turned, x.2 = nid) ∧ port.table.length < 64 then u.tellFree c else u)) ∧
     (∀ nid j b, m.body = .pullEnd nid → port.find nid = some (j, b) →
       exec (.withdrawalArrival i) s = .next (t.settlePub c j { b with pulling := b.pulling.filter (· != m.src) })) ∧
     (∀ nid x e, m.body = .refuse nid → port.pulls.find? (fun p => p.nid == nid) = some x → port.entry nid = some e →
       exec (.pullRefused i) s = .next (t.endRefused c x e.info))) ∧
  ((∀ (b : Pub) (x : Nat) (k : Clock), x ∈ b.cons → x ∉ b.counted →
     (b.complete x k).count = b.count - 1 ∧ (b.complete x k).counted = b.counted ++ [x] ∧ x ∉ (b.complete x k).pulling) ∧
   (∀ (b : Pub) (x : Nat) (k : Clock), (x ∉ b.cons ∨ x ∈ b.counted) →
     (b.complete x k).count = b.count ∧ (b.complete x k).counted = b.counted ∧ x ∉ (b.complete x k).pulling) ∧
   (∀ (s : State) (pod : Nat) (nid : Word) (producer : Nat),
     (pod / 512 ≠ s.pkg → s.consumer pod nid producer = farPort pod) ∧
     (∀ x, pod / 512 = s.pkg → (s.core (pod % 512)).port.pulls.find? (fun x => x.nid == nid) = some x →
       s.consumer pod nid producer = landAgent (pod % 512) x.land producer)) ∧
   (∀ (s : State) (c i : Nat) (b : Pub), b.count = 0 → b.pulling = [] → s.settlePub c i b = s.unpin c i b) ∧
   (∀ (s : State) (c i : Nat) (b : Pub), (b.count ≠ 0 ∨ b.pulling ≠ []) → s.settlePub c i b = s.setPub c i (some b)) ∧
   (∀ (p : Port) (x i : Nat) (b : Pub), (i, b) ∈ p.keptFor x ↔ i < 64 ∧ p.pub i = some b ∧ x ∈ b.kept) ∧
   (∀ (p : Port) (x : Nat), (p.keptFor x).Pairwise (fun a b => a.2.nid.toNat ≤ b.2.nid.toNat)) ∧
   (∀ (s : State) (c i : Nat) (b : Pub), b.done = none → ((s.unpin c i b).core c).port.pub i = none) ∧
   (∀ (s : State) (c i : Nat) (b : Pub) (pa : Nat) (l : Leaf), Memory.wf s.mem = true → isDram pa = true → pa % 64 + 8 ≤ 64 →
     s.offTables pa 8 → b.done = some (pa, l) → b.doneFault = none →
     (∀ x ∈ b.cons, x ∈ b.begun ∨ x ∈ b.counted) →
       let u := (s.lowerFlight c b.frames).acquire (.port c 0) b.clock
       (u.setPub c i none).pinned .engine pa 8 = false → u.engAdmits (.port c 0) true true [{ pa := pa, len := 8, leaf := l }] →
       u.badIn [(pa, 8)] = none →
         ((s.unpin c i b).core c).port.pub i = none ∧
         (s.unpin c i b).readKey l.key pa 8 = leBytes 8 (leNat (s.readKey l.key pa 8) + 1)))

/-- The port: its first-ranked candidate starts, segments are requested under the pace, and land in the ring, in the scratchpad or in
global memory; the last one is a release and makes an arrival record; a landing that is refused ends the pull, and one that a held line
keeps out is tried again for at most 2^20 cycles (R239, R245, R353 to R357). An expired notice is withdrawn, and when no pull is in
progress its reclaim trap is taken by the context that issued it, or reported to firmware where that context is gone; the trap is raised
again, TIMEOUT cycles after its handler has ended without a release (R349). A report of a reclaim has SRC 0 and CTX 3 (the model's choice, log
44). -/
def Obligations.PortsAndReclaims : Prop :=
  ((∀ (s : State) (e : PEntry) (l : Land), (s.core s.cur.core).portPick = some (e, l) →
     let c := s.cur.core
     let n := e.info.size
     let u := (s.modEntry c e.info.nid (fun e => { e with state := .pulling })).acquire (landAgent c l e.info.producer) e.clock
     let pull : Pull := { nid := e.info.nid, producer := e.info.producer, size := n, requested := 0, landed := 0, land := l, dead := false }
     (∀ o, l = .ring o → exec .portStart s = .next (u.modPort c (fun p =>
       { p with pulls := p.pulls ++ [pull], wr := (p.wr + n) % (s.core c).lzsize, free := p.free - n,
                resv := p.resv ++ [{ nid := e.info.nid, size := n, land := 0 }] }))) ∧
     ((∀ o, l ≠ .ring o) → exec .portStart s = .next (u.modPort c (fun p => { p with pulls := p.pulls ++ [pull] })))) ∧
   (∀ (k : Core) (e : PEntry) (l : Land), k.portPick = some (e, l) → e ∈ k.port.table ∧ k.isCand e = true ∧
     (∀ p ∈ k.port.pulls, p.dead = true ∨ p.size ≤ p.requested * 512) ∧
     (∀ f ∈ k.port.table, k.isCand f = true → keysBefore (k.rankKeys f) (k.rankKeys e) = false) ∧
     (∀ o, l = .ring o → (∀ m p, e.state ≠ .claimed m p) → e.info.size ≤ k.port.free ∧ o = k.port.wr)) ∧
   (∀ (s : State) (x : Pull) (e : PEntry), s.nextSeg s.cur.core = some x → (s.core s.cur.core).port.entry x.nid = some e →
     let c := s.cur.core
     (x.producer / 512 = s.pkg ∨ (s.routeLink (x.producer / 512)).isSome = true →
       let u := s.modPort c (fun p => { p with
         lastReq := some s.gtc
         pulls := p.pulls.map (fun y => if y.nid = x.nid then { y with requested := y.requested + 1 } else y) })
       exec .segmentRequest s = .next (u.send (u.podId c) x.producer e.group e.gen (.segReq x.nid x.requested))) ∧
     (x.producer / 512 ≠ s.pkg → s.routeLink (x.producer / 512) = none →
       exec .segmentRequest s = .next ((s.unreach.endRefused c x e.info).endPull c x e))) ∧
   (∀ (s : State) (i : Nat) (m : Packet) (nid : Word) (seg : Nat) (data : List Byte) (x : Pull) (e : PEntry) (u : State) (k : Nat),
     s.message i m → m.body = .segData nid seg data → s.notFirst i = false →
     let c := m.dst % 512
     s.stale m = false → (s.core c).port.pulls.find? (fun p => p.nid == nid) = some x → (s.core c).port.entry nid = some e →
     s.landSeg c x seg data = (u, k, none) →
     let v := (u.takeMsg i).modPort c (fun p => { p with
       pulls := p.pulls.map (fun y => if y.nid = nid then { y with landed := y.landed + 1, refused := none, lines := 0 } else y)
       resv := p.resv.map (fun r => if r.nid = nid then { r with land := r.land + data.length } else r) })
     ((x.landed + 1) * 512 < x.size → exec (.segmentLand i) s = .next v) ∧
     (x.size ≤ (x.landed + 1) * 512 →
       let r := v.release (landAgent c x.land x.producer) .core
       let w := ((r.1.acquire (.port c 0) r.2).modPort c (fun p => { p with pulls := p.pulls.filter (fun y => y.nid != nid) })).modEntry c nid
         (fun e => { e with state := .landed })
       let z := w.arrivalRecord c e.info 0 (match x.land with | .ring o => o | _ => noOffset) (r.2.join e.clock)
       exec (.segmentLand i) s = .next ((if x.producer / 512 = z.pkg then z else z.wordDone c nid).send
         ((if x.producer / 512 = z.pkg then z else z.wordDone c nid).podId c) x.producer e.group e.gen (.ack nid)))) ∧
   (∀ (s : State) (c : Nat) (x : Pull) (o seg : Nat) (data : List Byte), x.land = .ring o →
     (∃ r ∈ (s.core c).port.resv, r.nid = x.nid) →
     let ps : List Part := [{ pa := spAddr c ((s.core c).lzbase + (o + 512 * seg) % (s.core c).lzsize), len := data.length, leaf := spLeaf }]
     let a := Agent.port c (strandOf x.producer)
     (∀ p ∈ ps, s.pinned .engine p.pa p.len = false) → s.engAdmits a true false ps →
     s.landSeg c x seg data = (s.engStored a .core ps data, 0, none)) ∧
   (∀ (s : State) (i : Nat) (m : Packet) (nid : Word) (seg : Nat) (data : List Byte) (x : Pull) (e : PEntry) (u : State) (k : Nat),
     s.message i m → m.body = .segData nid seg data → s.notFirst i = false →
     let c := m.dst % 512
     s.stale m = false → (s.core c).port.pulls.find? (fun p => p.nid == nid) = some x → (s.core c).port.entry nid = some e →
     (∀ cause sub addr other, s.landSeg c x seg data = (u, k, some (.fault cause sub addr other)) →
       exec (.segmentLand i) s = .next ((u.takeMsg i).landFault c x e cause sub addr other)) ∧
     (∀ w l o, s.landSeg c x seg data = (u, k, some (.retry w l o)) →
       let since := if k = x.lines then x.refused.getD s.gtc else s.gtc
       (since + 2 ^ 20 ≤ s.gtc → exec (.segmentLand i) s = .next ((u.takeMsg i).landFault c x e 0x23 0 (64 * l) o)) ∧
       (s.gtc < since + 2 ^ 20 → exec (.segmentLand i) s = .next ((u.modPort c (fun p => { p with
         pulls := p.pulls.map (fun y => if y.nid = nid then { y with refused := some since, lines := k } else y) })).refuse w l since)))) ∧
   (∀ (s : State) (c : Nat) (x : Pull) (e : PEntry) (cause sub addr : Nat) (other : Word), cause ≠ 0x30 →
     s.landFault c x e cause sub addr other =
       (((s.endPull c x e).portFault c x.land.chain cause addr other).endRefused c x e.info).calm (landAgent c x.land x.producer))) ∧
  (∀ (s : State) (b : Pub), (s.core s.cur.core).port.pub s.cur.pub = some b →
     let c := s.cur.core
     let r := s.ctx c b.role
     let here : Prop := b.note = false ∧ (s.core c).epoch = b.epoch ∧ (s.core c).launch ≠ 0 ∧ (r.run = .running ∨ r.run = .sleeping)
     let gone : Prop := b.note = true ∨ (s.comesBack c b.epoch = false ∧
       ((s.core c).epoch ≠ b.epoch ∨ (s.core c).launch = 0 ∨ r.run = .ended ∨ r.run = .idle ∨ r.run = .failed))
     let raised (p : Option (Role × Nat)) := s.setPub c s.cur.pub (some { b with raised := true, trapAt := none, raisedIn := p })
     (b.expired = false → 0 < b.count → b.expiry ≤ s.gtc →
       exec .noticeExpiry s = .next ((s.withdraw c b).setPub c s.cur.pub (some { b with expired := true, kept := [] }))) ∧
     (∀ i, (i = .reclaimTrap ∧ b.expired = true ∧ b.pulling = [] ∧ b.raised = false ∧ b.trapAt = none ∧ 0 < b.count) ∨
         (i = .reclaimRepeat ∧ b.raised = false ∧ ∃ t, b.trapAt = some t ∧ t ≤ s.gtc) →
       (here → exec i s = .next ((raised (if s.delegated c b.role 0x33 then some (b.role, b.epoch) else none)).takeTrap c b.role 0x33 0 b.nid 0
         r.pc)) ∧
       (gone → exec i s = .next ((raised none).report c { cause := 0x33, src := 0, ctx := 3, val := b.nid }))) ∧
     (∀ t, b.trapAt = some t → s.gtc < t → exec .reclaimRepeat s = .next s)) ∧
  (∀ (s : State) (c i : Nat) (nid : Word) (b : Pub), (s.core c).port.find nid = some (i, b) → b.raised = true →
    s.endReclaim c nid false = s.setPub c i (some { b with raised := false, raisedIn := none, trapAt := some (s.gtc + b.timeout) }))

/-- What a sleeping context waits for comes: its instruction goes on next, for every kind of wait; a timed one not before its time; a
requester that was refused is refused again while one that was refused before it at the line is admitted and waits still; after 2^20
cycles comes the fault; a set event bit wakes every WFE of the core and is cleared once; waiting pushes of one instruction take room each in
its own FIFO, those of a later one stand behind (R112, R113, R115, R118, R161, R162, R202, R204, R245, R246, R272, R295, R297, R346). -/
def Obligations.Wakes : Prop :=
  (∀ (s : State) (c : Nat) (r : Role), ((s.wake c r).ctx c r).run = .running ∧
    (s.wake c r).agenda = { place := { core := c, role := r }, act := .resume } :: s.agenda ∧
    ∀ d q, (d, q) ≠ (c, r) → (s.wake c r).ctx d q = s.ctx d q) ∧
  (∀ (s : State) (c : Nat) (r : Role), ((s.tryAgain c r).ctx c r).run = .running ∧
    (s.tryAgain c r).agenda = { place := { core := c, role := r }, act := .issue } :: s.agenda ∧
    ∀ d q, (d, q) ≠ (c, r) → (s.tryAgain c r).ctx d q = s.ctx d q) ∧
  (∀ s : State, (s.ctx s.cur.core s.cur.role).run = .sleeping →
    let w := (s.ctx s.cur.core s.cur.role).wait
    let woken : Out := .next (s.wake s.cur.core s.cur.role)
    (w = some .pop → exec .tokenPopReady s = .next (s.tryAgain s.cur.core s.cur.role)) ∧
    (∀ sc k, w = some (.bar sc k) → exec .barRelease s = woken) ∧
    (∀ k, w = some (.ring k) → exec .ringSlotReady s = woken) ∧
    (∀ n t, w = some (.slot n t) → exec .enqSlotFree s = woken) ∧
    (∀ i t, w = some (.get i t) → exec .ringSlotReady s = woken) ∧
    (∀ t, w = some (.entry t) → exec .noticeEntryFree s = woken) ∧
    (∀ l, w = some (.waitv l) → exec .waitvWake s = woken) ∧
    (∀ n q, w = some (.waitseq n q) → exec .waitseqComplete s = if q ≤ (s.core s.cur.core).chdone n then woken else .next s) ∧
    (∀ t, w = some (.waitt t) → exec .waittExpire s = if t.toNat ≤ s.gtc then woken else .next s) ∧
    (∀ t q n, w = some (.waittP t q n) → exec .waittExpire s = if t.toNat ≤ s.gtc then woken else .next s) ∧
    (∀ since l, w = some (.retry since l) →
      exec .pinnedLineTimeout s = (if since + 2 ^ 20 ≤ s.gtc then woken else .next s) ∧
      exec .retryAdmit s = woken)) ∧
  (∀ (s : State) (t : Touch) (w mine : Waiter), mine ∈ s.order.waiters → mine.agent = t.agent → t.mask mine.line ≠ 0 → w ∈ s.order.waiters →
    w.line = mine.line → w.since < mine.since → s.stillWaits w.agent = true → s.admitted w = true → s.clash t ≠ none) ∧
  (∀ (s : State) (t : Touch) (line since : Nat), ∃ w ∈ (s.refuse t line since).order.waiters,
    w.agent = t.agent ∧ w.line = line ∧ w.since = since ∧ w.mask = t.mask line) ∧
  (∀ s : State, (s.core s.cur.core).evbit = true →
    let asleep (r : Role) : Prop := (s.ctx s.cur.core r).run = .sleeping ∧ (s.ctx s.cur.core r).wait = some .wfe
    (∃ r, asleep r) → ∃ t, exec .wfeWake s = .next t ∧ (t.core s.cur.core).evbit = false ∧
      (∀ r, asleep r → (t.ctx s.cur.core r).run = .running) ∧ (∀ r, ¬ asleep r → t.ctx s.cur.core r = s.ctx s.cur.core r)) ∧
  (∀ s : State, (s.ctx s.cur.core s.cur.role).push ≠ [] ∨ (s.ctx s.cur.core s.cur.role).ending ≠ none →
    exec .tokenPushRoom s = .next ((s.drain s.cur.core s.cur.role s.me (s.ctx s.cur.core s.cur.role).push).afterPushes s.cur.core s.cur.role s.me)) ∧
  (∀ (s : State) (c : Nat) (r : Role) (a : Agent) (q : Nat) (g : List Nat) (gs : List (List Nat)),
    s.drain c r a [] = s.modCtx c r (fun x => { x with push := [] }) ∧ s.drain c r a ([] :: gs) = s.drain c r a gs ∧
    (s.canPush c a q = true → s.drain c r a ((q :: g) :: gs) = (s.pushTok c q a).drain c r a (g :: gs)) ∧
    (s.canPush c a q = false → s.drain c r a ((q :: g) :: gs) = (s.pushGroup c a g).1.modCtx c r (fun x =>
      { x with push := (q :: (s.pushGroup c a g).2) :: gs })))

/-- Writes and contributions that land at a home without an instruction of this step, which is the model's choice (logs 16, 17, 41): the
bytes of a store, a counted contribution, a variable-latency result, the refill of the lane queues, which stops before the first element
that cannot be read (R26, R198, R242, R254). A contribution raises RSVD, and has no effect, with `.det` and an index that is not below the
count, or with another count, mode or a repeated index of the open round; one that completes the round adds 1 to the ready flag in the
last word of the line, as its release, and closes the counter; with `.det` the lower index is applied first (R266, R267). That a lane
fetches its items together is the model's choice (log 103), and that a RED or a release stands behind the context's own waiting
contributions its reading (log 92). -/
def Obligations.Landings : Prop :=
  (∀ (s : State) (pa : Nat) (data : List Byte), data ≠ [] → s.isMemory pa = true → s.isMemory (pa + data.length - 1) = true →
    let span := [(pa, data.length)]
    let t := s.access true false span
    s.pinned .firmware pa data.length = false → s.admitsInOrder true false span →
    let u := (s.record t).writePhys 0 pa data
    exec (.homeAccess pa data) s = .next (if isDram pa then u.hold t (some u.wscope) else u) ∧
    (Memory.wf s.mem = true → isDram pa = true → pa % 64 + data.length ≤ 64 → s.offTables pa data.length →
      u.readKey 0 pa data.length = data)) ∧
  (∀ (s : State) (pa : Nat) (op : Rop) (ty : STy) (det : Bool) (sc : Scope) (cnt idx : Nat) (v : Word), pa % styBytes ty = 0 → pa % 64 < 56 →
    s.isMemory pa = true → s.pinned .firmware pa (styBytes ty) = false →
    let span := [(pa, styBytes ty)]
    let flag := 64 * (pa / 64) + 56
    (s.fenced = true → s.owes s.me = true → exec (.redcLand pa op ty det sc cnt idx v) s = .next s) ∧
    (s.mayRelease s.fenced → s.admits true true span → s.badIn span = none →
    let u := s.record (s.access true true span)
    (u.refuses (pa / 64) cnt idx det = false →
      (u.completes (pa / 64) cnt = true → u.pinned (if u.cur.role = .F then .firmware else .trio) flag 8 = false ∧
        u.flagClash u.me (pa / 64) = none ∧ u.badIn [(flag, 8)] = none) →
      let w := u.storeReleases none true span
      exec (.redcLand pa op ty det sc cnt idx v) s = .next ((w.stamp w.me).1.contribute 0 (pa / 64) cnt det
        { idx := idx, agent := u.me, scope := sc, clock := (w.stamp w.me).2, rop := op, sty := ty,
          elems := [(pa % 64, styBytes ty, v.toNat % 2 ^ (8 * styBytes ty))] })) ∧
    (u.refuses (pa / 64) cnt idx det = true → exec (.redcLand pa op ty det sc cnt idx v) s =
      .next (s.takeTrap s.cur.core s.cur.role 0x02 0 0 0 (s.ctx s.cur.core s.cur.role).pc)))) ∧
  ((∀ (s : State) (line cnt idx : Nat) (det : Bool), s.refuses line cnt idx det = true ↔
     (det = true ∧ cnt ≤ idx) ∨
       ∃ q, s.order.counters.find? (fun p => p.1 == line) = some q ∧ (q.2.cnt ≠ cnt ∨ q.2.det ≠ det ∨ (det = true ∧ idx ∈ q.2.landed))) ∧
   (∀ (s : State) (key line cnt : Nat) (det : Bool) (x : Contribution), s.order.counters = [] → 1 < cnt →
     ∃ k, (s.contribute key line cnt det x).order.counters = [(line, k)] ∧ k.seen = 1 ∧ k.cnt = cnt ∧ k.det = det ∧ k.landed = [x.idx]) ∧
   (∀ (s : State) (key line : Nat) (x : Contribution), Memory.wf s.mem = true → isDram (64 * line) = true → s.offTables (64 * line) 64 →
     s.order.counters = [] → (∀ e ∈ x.elems, e.1 + e.2.1 ≤ 56) →
     let t := s.contribute key line 1 false x
     let flag := 64 * line + 56
     t.order.counters = [] ∧ t.readKey key flag 8 = leBytes 8 (leNat (s.readKey key flag 8) + 1) ∧
       ∃ r ∈ t.order.releases, r.lo = flag ∧ r.len = 8 ∧ r.inst = agentInst x.scope x.agent ∧ r.home = agentHome x.agent ∧ r.clock = x.clock) ∧
   (∀ (s : State) (key line : Nat) (x y : Contribution), s.order.counters = [] → x.idx = 0 → y.idx = 1 →
     let t := s.contribute key line 2 true y
     let u := t.contribute key line 2 true x
     let w := (s.applyElems key line x).applyElems key line y
     let flag := 64 * line + 56
     t.mem = s.mem ∧ u.order.counters = [] ∧
       ({ u with order := s.order } : State) =
         { w.writePhys key flag (leBytes 8 (leNat (w.readPhys key flag 8) + 1)) with order := s.order })) ∧
  (∀ (s : State) (es rest : List Pend) (p : Pend) (r : Role) (n : Nat), (s.core s.cur.core).pend = es ++ p :: rest →
    (∀ e ∈ es, e.ready.isSome = true) → p.ready = none → p.target = .g r n → 0 < n → n < 32 →
      ∃ t, exec .variableResultLand s = .next t ∧ (t.ctx s.cur.core r).getG (BitVec.ofNat 5 n) = BitVec.ofNat 64 p.value ∧
        p ∉ (t.core s.cur.core).pend) ∧
  (∀ s : State, exec .laneQueueRefill s =
    .next ((List.range 512).foldl (fun u i => if u.refillOk s.cur.core i then u.refillLane s.cur.core i else u) s)) ∧
  (∀ (s : State) (c i m : Nat),
    let l := (s.core c).lane i
    m ≤ l.wants → l.wants ≤ 4 → (∀ n, 1 ≤ n → n ≤ m → s.fetchable c i n = true) → (m < l.wants → s.fetchable c i (m + 1) = false) →
    (s.refillOk c i = true ↔ 0 < m) ∧
    ((s.refillLane c i).core c).lane i = { l with items := l.items ++ lanesOf 32 m (leNat (s.raw (spAddr c l.nextAddr) (4 * m))) }) ∧
  (∀ (s : State) (c i : Nat), s.refillOk c i = true → (((s.refillLane c i).core c).lane i).items.length ≤ 4)

/-- A chain's oldest live command starts when the chain runs none and is not stopped, with the geometry of R308 at its start; it retires
after END and all its products: its SEQAT store, its status, its pulse, and CHDONE up to the first live command (R287, R288, R308, R312).
That a refused access to the slot faults the command, and that the SEQAT word lies in a run of the slot, follow the model's reading (logs
36, 37).
Each cycle of the event crossbar: counters add the pulses of their sources, saturating; each term fires at most once on the counts that
the terms before it leave, taking the thresholds of the first true product, and sets the event bit or adds a gate credit up to 255; writes
of earlier cycles come last (R279, R280, R291, R292). -/
def Obligations.CommandStarts : Prop :=
  ((∀ (ch : Chain) (e : Enq), ch.ready = some e ↔
     ch.fault = false ∧ ch.run = none ∧ ch.cmds.find? Enq.live = some e ∧ e.status = 0) ∧
   (∀ (s : State) (e : Enq), s.canStart s.cur.core s.cur.chain = some e →
     let c := s.cur.core
     let n := s.cur.chain
     let w := if n = 4 then s.modDie (dieOf c) (fun d => { d with collAt := s.gtc + 1 }) else s
     let u := ((w.acquire (.cmd c n e.seq) (e.clock.join (s.clockOf (.cmd c n (e.seq - 1)))) .core).modEnq c n e.seq
       (fun x => { x with status := 1 })).modChain c n (fun ch => { ch with run := some { seq := e.seq, exec := c, next := s.gtc } })
     let seen := u.slotFaults c n e.seq [(false, 0x80, 512), (true, 0x1A, 1), (true, 0x1E, 2)]
     (∀ x, seen = some x → exec .commandStart s = .next (u.cmdFault c n x.1 0 x.2.1 x.2.2)) ∧
     (seen = none → ∃ t, exec .commandStart s = .next t ∧
       (t.core c).chain n = (u.core c).chain n ∧ ((t.core c).chain n).run = some { seq := e.seq, exec := c, next := s.gtc } ∧
       ((t.core c).chain n).cmds = ((s.core c).chain n).cmds.map (fun x => if x.seq = e.seq then { x with status := 1 } else x) ∧
       t.mem = ((((u.slotRead c n e.seq 0x80 512).slotWrite c n e.seq 0x1A (leBytes 1 1)).slotWrite c n e.seq 0x1E (leBytes 2 c))).mem ∧
       (n = 4 → ∀ b, dieOf b = dieOf c → t.canStart b 4 = none))) ∧
   (∀ (s : State) (c n q : Nat) (r : Cmd), ((s.core c).chain n).run = some r → r.seq = q →
     s.putExec c n q = if r.exec = c then s else s.slotWrite c n q 0x1E (leBytes 2 r.exec)) ∧
   (∀ (s : State) (q : Cmd), s.cmdOver s.cur.core s.cur.chain = some q →
     let c := s.cur.core
     let n := s.cur.chain
     let own : List (Bool × Nat × Nat) := (true, 0x1A, 1) :: (if q.exec = c then [] else [(true, 0x1E, 2)])
     let ends (u : State) : Prop :=
       (u.slotFaults c n q.seq own = none → exec .commandRetire s = .next (u.retire c n q.seq 2)) ∧
       (∀ x, u.slotFaults c n q.seq own = some x → exec .commandRetire s = .next (u.cmdFault c n x.1 0 x.2.1 x.2.2))
     (q.seqa = none → ends s) ∧
     (∀ x e ps u, q.seqa = some x → ((s.core c).chain n).enq q.seq = some e →
       resolve (runsOf (s.slotWords c n q.seq) e.vas) e.pages true x 8 = .ok ps →
       s.engWrite c (.cmd c n q.seq) e.scope true ps (leBytes 8 q.seq) = .ok u →
       let k := u.release (.cmd c n q.seq) e.scope
       let v := ps.foldl (fun (v : State) p => v.addRelease p.pa p.len (.cmd c n q.seq) e.scope k.2) k.1
       ends v)) ∧
   (∀ (s : State) (c n : Nat) (q : Cmd), s.cmdOver c n = some q ↔
     ((s.core c).chain n).run = some q ∧ q.done = true ∧ ((s.core c).chain n).fault = false ∧
       ∀ p ∈ (s.core c).mx, ¬ (p.chain = n ∧ p.seq = q.seq)) ∧
   (∀ (s : State) (c n q st : Nat), n < 5 → (s.core c).tail n < 2 ^ 64 →
     let t := s.retire c n q st
     let cmds := ((s.core c).chain n).cmds.map (fun e => if e.seq = q then { e with status := st } else e)
     let d := match cmds.find? Enq.live with
       | some e => e.seq - 1
       | none => (s.core c).tail n
     (∃ k, (t.core c).pulses = (s.core c).pulses ++ [(n + 1, chainPath n, k)]) ∧
       (d < 2 ^ 64 → (t.core c).chdone n = max ((s.core c).chdone n) d) ∧ ((t.core c).tail n = (s.core c).tail n))) ∧
  ((∀ s : State, (s.core s.cur.core).crossbarDue s.gtc = true →
     let c := s.cur.core
     let u := (List.range 8).foldl (fireTerm c) (s.modCore c (fun k => { (k.keepMarks).addPulses with pulses := [], xAt := s.gtc + 1 }))
     ∃ t, exec .crossbarCycle s = .next t ∧ (t.core c).pulses = (u.core c).pulses ∧ (t.core c).evbit = (u.core c).evbit ∧
       (t.core c).chains = (u.core c).chains ∧
       (∀ n, (∀ w ∈ (s.core c).xwrites, w.1 = n → ¬ w.2.2 < s.gtc) → (t.core c).reg n = (u.core c).reg n)) ∧
   (∀ (k : Core) (i : Nat), i < 16 →
     let w := k.reg (0x320 + i)
     let hits := (k.pulses.filter (fun p => p.1 == (w.extractLsb' 60 4).toNat && p.1 != 0)).length
     ((k.addPulses.reg (0x320 + i)).extractLsb' 0 24).toNat = min ((w.extractLsb' 0 24).toNat + hits) (2 ^ 24 - 1) ∧
       (k.addPulses.reg (0x320 + i)).extractLsb' 24 40 = w.extractLsb' 24 40) ∧
   (∀ (w : Word), ecReached w = true ↔ w.extractLsb' 24 24 ≠ 0 ∧ (w.extractLsb' 24 24).toNat ≤ (w.extractLsb' 0 24).toNat) ∧
   (∀ (k : Core) (m : Nat), k.productTrue m = true ↔ m ≠ 0 ∧ ∀ i, i < 16 → m.testBit i = true → ecReached (k.reg (0x320 + i)) = true) ∧
   (∀ (s : State) (c i m : Nat),
     let k := s.core c
     let w := k.reg (0x330 + i)
     let p0 := fld w 15 0
     let p1 := fld w 31 16
     (k.productTrue p0 = true ∧ m = p0) ∨ (k.productTrue p0 = false ∧ k.productTrue p1 = true ∧ m = p1) →
     let t := fireTerm c s i
     (fld w 63 60 = 0 → t = s) ∧
     (fld w 63 60 = 1 → k.evClr ≠ s.gtc + 1 → (t.core c).evbit = true) ∧
     (fld w 63 60 = 1 → k.evClr = s.gtc + 1 → (t.core c).evbit = k.evbit) ∧
     (∀ n, n < 5 → fld w 63 60 = n + 2 → (k.chain n).credits.length < 255 →
       ((t.core c).chain n).credits = (k.chain n).credits ++ [k.pulseClock m]) ∧
     (∀ n, n < 5 → fld w 63 60 = n + 2 → 255 ≤ (k.chain n).credits.length → ((t.core c).chain n).credits = (k.chain n).credits) ∧
     (1 ≤ fld w 63 60 → fld w 63 60 ≤ 6 → ∀ j, j < 16 → m.testBit j = true →
       ecCount ((t.core c).reg (0x320 + j)) = ecCount (k.reg (0x320 + j)) - ecThresh (k.reg (0x320 + j)))) ∧
   (∀ (s : State) (c i : Nat), (s.core c).productTrue (fld ((s.core c).reg (0x330 + i)) 15 0) = false →
     (s.core c).productTrue (fld ((s.core c).reg (0x330 + i)) 31 16) = false → fireTerm c s i = s))

/-- CTXSAVE writes the pieces of the handled trio's state to the area, CTXLOAD takes it from there: contexts that have not ended stand
stopped with their saved PC and registers, and where every context has ended none comes back; both check the area first (R408 to R411).
That what they read and write are ordinary accesses of firmware is the model's reading (log 69; R237, R239), and that a saved PC which is
no code address gives the entry address its choice (log 114). -/
def Obligations.ContextSaves : Prop :=
  (∀ h a s l mine u v (full : Bool),
    CompletesIf h .fw [s.gT a] (if full then .ctxsaveFull h a else .ctxsave h a) s
      (fun t => t.areaFine (t.g a) true l mine u ∧ u.mayCopyOut l mine full (t.g a).toNat v)
      (fun t => v.writeArea (t.g a).toNat (u.savePieces u.cur.core l mine full))) ∧
  (∀ h a s (full : Bool), TrapsIf h .fw [s.gT a] (if full then .ctxsaveFull h a else .ctxsave h a) s
    (fun t => (t.g a).toNat % 4096 = 0 ∧ t.handledLaunch t.cur.core = none) 0x02 0 0) ∧
  (∀ h a s e i, i ∈ [Instr.ctxsave h a, .ctxsaveFull h a, .ctxload h a] →
    TrapsIf h .fw [s.gT a] i s (fun t => t.g a = e ∧ e.toNat % 4096 ≠ 0) 0x06 0 e) ∧
  (∀ (s : State) (c : Nat) (l : Launch) (r : Role), r ≠ .F → (s.ctx c r).isOver = false →
    let o := 0x80 + 384 * roleNum r
    (∀ n, n < 32 → (o + 8 * n, leBytes 8 ((s.ctx c r).getG (BitVec.ofNat 5 n)).toNat) ∈ s.savePieces c l true true) ∧
    (∀ n, n < 4 → (o + 0x100 + 8 * n, leBytes 8 ((s.ctx c r).getB (BitVec.ofNat 2 n)).toNat) ∈ s.savePieces c l true true) ∧
    (o + 0x120, leBytes 8 (s.ctx c r).pc.toNat) ∈ s.savePieces c l true true ∧
    (∀ n, 1 ≤ n → n < 8 → (0x800 + 256 * (n - 1), leBytes 256 ((s.core c).getK (BitVec.ofNat 3 n)).toNat) ∈ s.savePieces c l true true) ∧
    (0x8C000, s.raw (spAddr c l.rcd.spbase) l.rcd.spsize) ∈ s.savePieces c l true true) ∧
  (∀ h a s l mine u, s.mayIssue h .fw [s.gT a] = true → (s.ctx s.cur.core s.cur.role).push = [] →
    let t := s.atIssue h [s.gT a]
    let c := s.cur.core
    let area := (t.g a).toNat
    let word (off : Nat) : Word := BitVec.ofNat 64 (leNat (u.readKey 0 (area + off) 8))
    let gone (r : Role) : Bool := !mine || (word 0).getLsbD (1 + roleNum r)
    let saved (r : Role) : Word := word (0x80 + 384 * roleNum r + 0x120)
    let entries := l.entries (s.core c).stage
    t.areaFine (t.g a) false l mine u → u.mayCopyIn l mine area → (word 0).getLsbD 0 = true →
    ∃ v, exec (.ctxload h a) s = .next v ∧ v.pc = nextPc s.pc ∧
      ∀ r e, (r, e) ∈ [(Role.L, entries.1), (.C, entries.2.1), (.S, entries.2.2.1)] →
        (gone r = true → (v.ctx c r).run = .ended) ∧
        (gone r = false →
          (v.ctx c r).run = .stopped ∧ (v.ctx c r).pc = (if isCode (saved r) then saved r else e) ∧
            ∀ n, 1 ≤ n → n < 32 → (v.ctx c r).getG (BitVec.ofNat 5 n) = word (0x80 + 384 * roleNum r + 8 * n)))

/-- The dispatcher: a quire's pop samples two banks of its generator's choosing and starts the better eligible head, or the only eligible
one; each head that it samples and does not start is passed over. A head passed over for the 64th time is forced and starts when its
quires have a walker each; a starting launch's range is divided among its quires (R173, R182 to R184). A free core enters the launch that
started first: every context at its entry with the registers of R34 and R166, masks and tiles zero, the reservation holding the launch's
image and zeros (R34, R166, R174). That the image is the one placed for the computer entry is the model's choice (log 86); that G4 holds
the stage also in single-context mode, and that a core whose port still lands ring pulls is not free, its reading (logs 85, 111). -/
def Obligations.Dispatch : Prop :=
  ((∀ (s : State) (u : Nat), s.popDue u = true →
     let g := seedStep (s.quire u).gen
     let t := (s.modQuire u (fun q => { q with gen := g })).modQuire u (fun q => { q with popAt := s.gtc + 1 })
     let b1 := (g.extractLsb' 60 4).toNat
     let b2 := (b1 + 1 + (g.extractLsb' 56 4).toNat % 15) % 16
     (t.bankHead b1 = none → t.bankHead b2 = none → exec (.dispatchPop u) s = .next t) ∧
     (∀ l, (t.bankHead b1 = some l ∧ t.bankHead b2 = none) ∨ (t.bankHead b1 = none ∧ t.bankHead b2 = some l) →
       (t.eligible l = true → exec (.dispatchPop u) s = .next (t.startLaunch l.seq)) ∧
       (t.eligible l = false → exec (.dispatchPop u) s = .next (t.passOver l.seq))) ∧
     (∀ l m, t.bankHead b1 = some l → t.bankHead b2 = some m → l.seq ≠ m.seq →
       (t.eligible l = true → t.eligible m = true → exec (.dispatchPop u) s =
         .next (if m.before l then (t.passOver l.seq).startLaunch m.seq else (t.passOver m.seq).startLaunch l.seq)) ∧
       (t.eligible l = true → t.eligible m = false → exec (.dispatchPop u) s = .next ((t.passOver m.seq).startLaunch l.seq)) ∧
       (t.eligible l = false → t.eligible m = true → exec (.dispatchPop u) s = .next ((t.passOver l.seq).startLaunch m.seq)) ∧
       (t.eligible l = false → t.eligible m = false → exec (.dispatchPop u) s = .next ((t.passOver l.seq).passOver m.seq)))) ∧
   (∀ (s : State) (b : Nat) (l : Launch), s.bankHead b = some l →
     l ∈ s.launches ∧ l.state = .ready ∧ l.bank = b ∧ ∀ m ∈ s.launches, m.state = .ready → m.bank = b → m.before l = false) ∧
   (∀ (s : State) (q : Nat) (l : Launch), s.launch? q = some l →
     ∃ m, (s.passOver q).launch? q = some m ∧ m.pass = l.pass + 1 ∧
       (l.pass + 1 = 64 → q ∈ (s.passOver q).forcedList) ∧ (l.pass + 1 ≠ 64 → (s.passOver q).forcedList = s.forcedList)) ∧
   (∀ (s : State) (q : Nat) (rest : List Nat) (l : Launch), s.forcedList = q :: rest → s.launch? q = some l →
     ((∀ u ∈ quiresOf l.rcd.qmask, (s.quire u).walkers.length < 2) → exec .forcedLaunchStart s = .next (s.startLaunch l.seq)) ∧
     ((∃ u ∈ quiresOf l.rcd.qmask, 2 ≤ (s.quire u).walkers.length) → exec .forcedLaunchStart s = .next s)) ∧
   (∀ (s : State) (q k u : Nat) (l : Launch), s.launch? q = some l → l.resumed = false → (quiresOf l.rcd.qmask)[k]? = some u →
     let n := indexCount l.rcd.order l.rcd.ext
     let p := (n + (quiresOf l.rcd.qmask).length - 1) / (quiresOf l.rcd.qmask).length
     ((s.startLaunch q).quire u).walkers = (s.quire u).walkers ++ [{ launch := q, lo := min (k * p) n, hi := min ((k + 1) * p) n }] ∧
       ∃ m, (s.startLaunch q).launch? q = some m ∧ m.state = .running ∧ q ∉ (s.startLaunch q).forcedList)) ∧
  ((∀ (s : State) (l : Launch), s.entering s.cur.core = some l → l.toReport = [] →
     let c := s.cur.core
     let stage := SMap.get 0 l.stageOf c
     let e := l.entries stage
     let single := e.1 = 0 ∧ e.2.2.1 = 0
     ∃ t, exec .launchEnter s = .next t ∧ (t.core c).launch = l.seq ∧ (t.core c).stage = stage ∧ ((t.core c).single = true ↔ single) ∧
       (∀ r pc, (r, pc) ∈ [(Role.L, e.1), (Role.C, e.2.1), (Role.S, e.2.2.1)] →
         (t.ctx c r).pc = pc ∧ (t.ctx c r).run = (if pc = 0 then .ended else .running) ∧ (t.ctx c r).getG 1 = l.rcd.args ∧
           (t.ctx c r).getG 2 = BitVec.ofNat 64 l.rcd.spbase ∧ (t.ctx c r).getG 30 = BitVec.ofNat 64 (l.rcd.spbase + l.rcd.spsize) ∧
           (t.ctx c r).getG 4 = BitVec.ofNat 64 stage ∧ (¬ single → (t.ctx c r).getG 3 = BitVec.ofNat 64 (roleNum r)) ∧
           (∀ n, n ∉ [1, 2, 3, 4, 30] → (t.ctx c r).getG n = 0) ∧ (∀ n, (t.ctx c r).getB n = 0)) ∧
       (∀ n, (t.core c).getK n = if n = 0 then BitVec.allOnes 2048 else 0) ∧ (∀ n, (t.core c).row n = 0) ∧ (t.core c).pend = [] ∧
       (t.core c).reg 0x201 = l.aspace ∧ (t.core c).reg 0x004 = 0x6A09E667F3BCC909 ∧ (t.core c).reg 0x352 = 0x10451 ∧
       (Memory.wf s.mem = true → ∀ j, j < l.rcd.spsize →
         t.raw (spAddr c (l.rcd.spbase + j)) 1 =
           [(((s.images.find? (fun p => p.1 == e.2.1)).map (·.2)).getD []).getD j 0])) ∧
   (∀ (s : State) (c : Nat) (l : Launch), s.entering c = some l →
     (s.core c).launch = 0 ∧ (s.core c).port.ringPull = false ∧ c ∉ l.entered ∧ l.state = .running ∧ ((s.quire (quireOf c)).walker l.seq).isSome = true ∧
       ∀ w ∈ (s.quire (quireOf c)).walkers, ∀ m, s.launch? w.launch = some m → m.state = .running → m.killed = none → c ∉ m.entered →
         l.startOrder ≤ m.startOrder))

/-- A launch completes when every trio has ended and its commands have retired: its signal is written, its walkers go, and a waiting queue
is woken; a killed one only goes. Timetabled launches are released at their frame and overrun at their deadline (R165, R170, R404). The
stage scheduler marks the donor's last core for the receiver at multiples of 4,096 cycles, and a marked core that has drained enters the
receiver's stage afresh (R181). That a signal which a held line refuses is tried again follows the model's reading (log 52), and that the
cores of a stage are those whose trio runs in it is its choice (log 90). -/
def Obligations.Completion : Prop :=
  ((∀ (s : State) (q : Nat) (l : Launch), s.launch? q = some l → s.launchOver l = true →
     (l.killed.isSome = true → exec (.launchComplete q) s = .next ((s.tellKilled q).dropLaunch q)) ∧
     (l.killed = none → ∀ t, s.signal l = .wait t → exec (.launchComplete q) s = .next t) ∧
     (l.killed = none → l.overran = false → ∀ t, s.signal l = .sent t →
       (l.queue = none → exec (.launchComplete q) s = .next (t.dropLaunch q)) ∧
       (∀ d b w, l.queue = some (d, b, w) →
         exec (.launchComplete q) s = .next ((if w = 0xFFFF then t else t.wakeQueue (.qp d) w).dropLaunch q))) ∧
     (l.killed = none → l.overran = false → ∀ t cause sub, s.signal l = .failed t cause sub → l.queue = none →
       exec (.launchComplete q) s = .next ((t.signalFail l cause sub).dropLaunch q))) ∧
   (∀ (s : State) (l : Launch), l.rcd.sigop = 0 → s.signal l = .sent s) ∧
   (∀ (s : State) (q : Nat), (s.dropLaunch q).launch? q = none ∧ q ∉ (s.dropLaunch q).forcedList ∧
     ∀ u w, w ∈ ((s.dropLaunch q).quire u).walkers → w.launch ≠ q) ∧
   (∀ (s : State) (q : Nat) (l : Launch), s.launch? q = some l →
     (l.state = .held → l.rcd.reltick.toNat ≤ s.frame → (∀ m ∈ s.launches, m.overran = false) →
       exec (.reltickRelease q) s = .next (s.modLaunch q (fun x => { x with state := .ready, pushedAt := s.gtc }))) ∧
     (s.frame < l.rcd.reltick.toNat → exec (.reltickRelease q) s = .next s) ∧
     (l.rcd.deadline ≠ 0 → l.overran = false → l.rcd.deadline.toNat ≤ s.frame →
       exec (.deadlineOverrun q) s = .next (s.modLaunch q (fun x =>
         { x with overran := true, overFrame := s.frame, overAt := l.rcd.deadline.toNat * 2 ^ (SMap.get 0 s.sys 0x011).toNat }))) ∧
     (l.rcd.deadline = 0 ∨ s.frame < l.rcd.deadline.toNat → exec (.deadlineOverrun q) s = .next s))) ∧
  ((∀ (s : State) (q : Nat) (l : Launch), s.launch? q = some l → s.gtc % 4096 = 0 → l.schedAt ≤ s.gtc → l.rcd.nstage ≠ 0 → l.state = .running →
     let u := s.modLaunch q (fun x => { x with schedAt := s.gtc + 1 })
     let spare (i : Nat) : Bool := match l.st[i]? with
       | some g => decide (g.mincores < (u.stageCores l i).length)
       | none => false
     let open_ (i : Nat) : Bool := match l.st[i + 1]? with
       | some g => decide (u.ringSeq g 0 - u.ringSeq g 8 < g.bpthresh)
       | none => true
     (∀ d r c, u.pickStage l true spare = some d → u.pickStage l false open_ = some r → d ≠ r →
       (∀ p ∈ u.cores, ¬ (p.2.launch = q ∧ p.2.marked = true)) → fillLess (u.stageFill l d) (u.stageFill l r) = true →
       (u.stageCores l d).getLast? = some c →
         exec (.stageSchedule q) s = .next ((u.modCore c (fun k => { k with marked := true })).modLaunch q (fun x =>
           { x with stageOf := SMap.set 0 x.stageOf c r }))) ∧
     ((u.pickStage l true spare = none ∨ u.pickStage l false open_ = none) → exec (.stageSchedule q) s = .next u)) ∧
   (∀ (s : State) (q : Nat), s.gtc % 4096 ≠ 0 → exec (.stageSchedule q) s = .next s) ∧
   (∀ (s : State) (l : Launch) (ok : Nat → Bool) (i : Nat), s.pickStage l true ok = some i → ok i = true ∧ i < l.rcd.nstage) ∧
   (∀ (s : State) (l : Launch), s.launchOf s.cur.core = some l →
     let k := s.core s.cur.core
     k.marked = true → k.ctxL.run = .ended → k.ctxC.run = .ended → k.ctxS.run = .ended →
       exec .stageReenter s = .next (s.enterTrio s.cur.core l (SMap.get 0 l.stageOf s.cur.core))))

/-- Pre-emption: the request freezes the victim's walkers; each core reports once it is quiet and stopped, forced after SAFETO; with all
saved the victim gives up its walkers and cores, SAVED receives its push sequence number, unless its write waits for a held line or
fails the queue, and it is pushed again; its restart is reported to each core (R178, R407, R408). SAVEAREA is read from the queue's block
as an access of the queue processor (R393); that a report waits while a held line refuses that read follows the model's reading (log 63). -/
def Obligations.Preemption : Prop :=
  (∀ (s : State) (w v : Launch) (a : State), s.launch? w.seq = some w → s.launch? v.seq = some v → s.preempt = none → w.state = .ready →
    s.pthresh w ≠ 0 → w.pushedAt + s.pthresh w ≤ s.gtc → s.victimOf w = some v → s.readsSaveArea v a →
      ∃ t, exec (.preemptRequest w.seq v.seq) s = .next t ∧ t.preempt = some { victim := v.seq, waiting := w.seq, since := s.gtc } ∧
        (∀ u x, x ∈ (t.quire u).walkers → x.launch = v.seq → x.frozen = true) ∧ t.launches = a.launches ∧ t.cores = s.cores) ∧
  (∀ (s : State) (w v : Launch), s.victimOf w = some v → v ∈ s.launches ∧ v.state = .running ∧ v.prio < w.prio ∧ v.killed = none ∧
    s.saveArea v ≠ 0 ∧ ∀ x ∈ s.launches, s.mayYield w x = true → v.prio ≤ x.prio) ∧
  (∀ (s : State) (p : Preempt) (l : Launch), s.saveDue s.cur.core = some (p, l) →
    let c := s.cur.core
    let k := s.core c
    (k.launch = 0 ∨ k.launch = l.seq → ∀ a, s.readsSaveArea l a →
      let u := a.modCore c Core.settle
      let v : State := { u with preempt := some { p with reported := p.reported ++ [c] } }
      exec .preemptReport s = .next (v.report c
        { cause := if k.launch = l.seq ∧ (k.ctxL.forced = true ∨ k.ctxC.forced = true ∨ k.ctxS.forced = true) then 0x41 else 0x40,
          src := 0, ctx := 3, val := BitVec.ofNat 64 (s.coreArea l c), launch := l.seq })) ∧
    (k.launch = 0 ∨ k.launch = l.seq → ∀ d b w line o, l.queue = some (d, b, w) → isDram (b + 0x48) = true →
      s.keyless (physPart (b + 0x48) 8).leaf = false → s.clash (saveAreaTouch d b) = some (.retry line o) →
      s.gtc < s.refusedAt (.qp d) line + 2 ^ 20 →
        exec .preemptReport s =
          .next ((s.refuse (saveAreaTouch d b) line (s.refusedAt (.qp d) line)).launchWaits l.seq (some (l.qSince.getD s.gtc)))) ∧
    (k.launch ≠ 0 → k.launch ≠ l.seq →
      let area := s.coreArea l c
      let parts := physParts area 0x20
      let past : Option Preempt := some { p with saved := p.saved ++ [c], skip := p.skip ++ [c] }
      (l.queue = none → exec .preemptReport s = .next { s with preempt := past }) ∧
      (∀ d b w, l.queue = some (d, b, w) → s.engAdmits (.qp d) true false parts →
        let u := s.record { agent := .qp d, write := true, sync := false, spans := spansOf parts }
        exec .preemptReport s =
          .next { ((u.clearBad area 0x20).writeKey 0 area (leBytes 8 0x0E ++ List.replicate 24 0)) with preempt := past }))) ∧
  (∀ s : State, s.forceDue s.cur.core = true → ∃ t, exec .safePointTimeout s = .next t ∧
    ∀ r, r ≠ .F → (s.ctx s.cur.core r).isOver = false → (s.ctx s.cur.core r).safe = false →
      (t.ctx s.cur.core r).safe = true ∧ (t.ctx s.cur.core r).forced = true ∧
        ((s.ctx s.cur.core r).run = .running ∨ (s.ctx s.cur.core r).run = .sleeping → (t.ctx s.cur.core r).run = .stopped)) ∧
  (∀ (s : State) (p : Preempt) (l : Launch) (d b w : Nat) (a : State), s.savedVictim = some (p, l) → l.queue = some (d, b, w) →
    s.readsSaveArea l a → a.engAdmits (.qp d) true false (physParts (a.saveArea l) 640) →
    ∃ t, exec .preemptSaveDone s = .next t ∧ t.preempt = none ∧ (∀ c ∈ coresOf l.rcd.qmask, (t.core c).launch ≠ l.seq ∨ l.seq = 0) ∧
      (∀ u x, x ∈ (t.quire u).walkers → x.launch ≠ l.seq) ∧
      (Memory.wf s.mem = true → l.seq < 2 ^ 64 → b % 256 = 0 → isDram (b + 0x50) = true →
        t.qField b 0x50 8 = l.seq ∨ (b, 0x50, 8, l.seq) ∈ (t.die d).owed ∨ ∀ q ∈ (t.die d).queues, q.qsb ≠ b) ∧
      ∃ m, t.launch? l.seq = some m ∧ m.state = .ready ∧ m.resumed = true ∧ m.pass = 0 ∧ m.pushedAt = s.gtc ∧
        m.bank = ((seedStep (s.quire l.pushQuire).gen).extractLsb' 60 4).toNat) ∧
  (∀ (s : State) (l : Launch) (a : State), s.restartDue s.cur.core = some l → s.readsSaveArea l a →
    let c := s.cur.core
    let u := a.modLaunch l.seq (fun x => { x with toReport := x.toReport.filter (· != c), resuming := x.resuming ++ [c] })
    exec .preemptRestart s =
      .next (u.report c { cause := 0x40, sub := 1, src := 0, ctx := 3, val := BitVec.ofNat 64 (u.coreArea l c), launch := l.seq }))

/-- The packets of a mapped queue: NOP only advances RDIDX; an unknown type or a set reserved bit fails the queue; LAUNCH pushes its
record's launch or fails with 0x13; TIMED and FENCE hold until their condition holds; SIGNAL waits for the launches before it without
holding (R401 to R403). What a SIGNAL writes: its value, or the sum with what is there, modulo 2^64, at its address, and then it wakes the
queue that it names (R402). That slots are read as ordinary accesses, that a SIGNAL checks its address at the parse, and that an access
which a held line refuses is tried again, follow the model's reading (logs 54, 63, 64). -/
def Obligations.QueuePackets : Prop :=
  ((∀ s d i p u, s.parses d i p 0 1 u →
     (p.type = 0 → exec (.nopPacket d i) s = .next (u.advance p 1)) ∧
     (6 ≤ p.type → exec (.nopPacket d i) s = .next (u.packetFail p 0x02 0 p.rd))) ∧
   (∀ s d i, s.packetAt d i = none → exec (.nopPacket d i) s = .next s) ∧
   (∀ s d i p u, s.parses d i p 8 1 u → p.type = 1 →
     (p.arg.toNat % 128 ≠ 0 → exec (.launchPacket d i) s = .next (u.packetFail p 0x13 0 p.arg.toNat)) ∧
     (∀ v bs, p.arg.toNat % 128 = 0 → u.qpReads p [(p.arg, 128)] v bs →
       ((∀ r, recOf bs = some r → v.recOk r = false) → exec (.launchPacket d i) s = .next (v.packetFail p 0x13 0 p.arg.toNat)) ∧
       (∀ r, recOf bs = some r → v.recOk r = true → r.nstage = 0 → exec (.launchPacket d i) s = .next (v.packetLaunch p r [])) ∧
       (∀ r w ts gs x gs', recOf bs = some r → v.recOk r = true → r.nstage ≠ 0 → v.qpReads p (pageParts r.stages (64 * r.nstage)) w ts →
         stagesOf true r.nstage ts = some gs → enoughCores r gs = true →
         w.ringPages (qpCore p.die) (some (w.qAspace p.qsb)) gs = .ok (x, gs') →
           exec (.launchPacket d i) s = .next (x.packetLaunch p r gs')))) ∧
   (∀ s d i p u, s.parses d i p 8 1 u → p.type = 5 →
     (p.arg.toNat ≤ u.gtc → exec (.timedPacket d i) s = .next (u.advance p 1)) ∧
     (u.gtc < p.arg.toNat → exec (.timedPacket d i) s = .next (u.holdAt p (.timed p.arg)))) ∧
   (∀ s d i p t, s.heldPacket d i = some (p, .timed t) →
     (s.gtc < t.toNat → exec (.timedResume d i) s = .next s) ∧
     (t.toNat ≤ s.gtc → ∀ u, s.qpAcquires p u → exec (.timedResume d i) s = .next (u.advance p 1))) ∧
   (∀ s d i p u, s.parses d i p 0 4 u → p.type = 3 →
     let bs := (List.range 4).flatMap (fun j => u.readKey 0 (u.qSlot p.qsb (p.rd + j)) 64)
     (p.ncnt = 0 ∨ 12 < p.ncnt → exec (.fencePacket d i) s = .next (u.packetFail p 0x02 0 p.rd)) ∧
     (1 ≤ p.ncnt → p.ncnt ≤ 12 → leNat (bs.drop (0x40 + 16 * p.ncnt)) = 0 → (∀ k, k < p.ncnt → (fenceCounter bs k).1 % 8 ≤ 3) →
       exec (.fencePacket d i) s = .next (u.fencePass p bs p.ncnt 0))) ∧
   (∀ s d i p bs u, s.heldPacket d i = some (p, .fence bs) → s.qpAcquires p u →
     exec (.fenceResume d i) s = .next (u.fencePass p bs (leNat (bs.take 2) / 4096) 0)) ∧
   (∀ (s u : State) (p : Pkt) (bs : List Byte) (n i : Nat) (ps : List Part),
     let w := (fenceCounter bs i).1
     s.xlatParts (qpCore p.die) (some (s.qAspace p.qsb)) .read [(BitVec.ofNat 64 (w / 8 * 8), 8)] = .ok (u, ps) →
     u.engAdmits (.qp p.die) false true ps →
     let v := (u.record { agent := .qp p.die, write := false, sync := true, spans := spansOf ps }).admitQ p
     let x := leNat (v.readParts ps)
     let y := (fenceCounter bs i).2
     let z := (spansOf ps).foldl (fun (t : State) q => t.acquireAt (.qp p.die) .pkg q.1 q.2 t.order.serial) v
     let holds : Prop := (w % 8 = 0 ∧ x = y) ∨ (w % 8 = 1 ∧ x ≠ y) ∨ (w % 8 = 2 ∧ y ≤ x) ∨ (3 ≤ w % 8 ∧ x < y)
     (holds → s.fencePass p bs (n + 1) i = z.fencePass p bs n (i + 1)) ∧ (¬ holds → s.fencePass p bs (n + 1) i = z.holdAt p (.fence bs))) ∧
   (∀ (s : State) (p : Pkt) (bs : List Byte) (i : Nat), s.fencePass p bs 0 i = s.advance p 4) ∧
   (∀ s d i p u v ps, s.parses d i p 17 1 u → p.type = 4 → p.arg.toNat % 8 = 0 → leNat ((p.bs.drop 0x18).take 1) ≤ 1 →
     u.xlatParts (qpCore p.die) (some (u.qAspace p.qsb)) .write [(p.arg, 8)] = .ok (v, ps) →
     let x : PendSignal := { qsb := p.qsb, bs := p.bs, after := v.launchesOf p.qsb }
     let r := if v.signalDue x then v.writeSignal d x else (v, some x)
     let t := r.1.modDie d (fun y => { y with signals := y.signals ++ r.2.toList })
     exec (.signalPacket d i) s = .next (if t.qState p.qsb = 3 then t else t.advance p 1)) ∧
   (∀ (s : State) (d i : Nat) (x : PendSignal), (s.die d).signals[i]? = some x →
     let r := (s.modDie d (fun y => { y with signals := removeAt y.signals i })).writeSignal d x
     ((∀ l ∈ s.launches, l.seq ∉ x.after) → exec (.signalWrite d i) s =
       .next ((r.1.modDie d (fun y => { y with signals := y.signals.take i ++ r.2.toList ++ y.signals.drop i })).calm (.qp d))) ∧
     ((∃ l ∈ s.launches, l.seq ∈ x.after) → exec (.signalWrite d i) s = .next s))) ∧
  (∀ (s a u : State) (d : Nat) (x : PendSignal) (ps : List Part),
     let arg : Word := BitVec.ofNat 64 (leNat ((x.bs.drop 8).take 8))
     let wakeq := leNat ((x.bs.drop 2).take 2)
     s.qpRead d (x.qsb + 0x30) 8 = .made a → a.xlatParts (qpCore d) (some (a.qAspace x.qsb)) .write [(arg, 8)] = .ok (u, ps) →
     (∀ q ∈ ps, (∀ st off, region q.pa ≠ .decoded st off) ∧ u.pinned .trio q.pa q.len = false) → u.engAdmits (.qp d) true true ps →
     let t (qs : List Part) : Touch := { agent := .qp d, write := true, sync := true, spans := spansOf qs }
     let v := u.record (t ps)
     let add : Prop := leNat ((x.bs.drop 0x18).take 1) % 2 = 1
     (add → v.badIn (spansOf ps) = none) →
     let value := leNat ((x.bs.drop 0x10).take 8)
     ∀ new, (add → new = (leNat (v.readParts ps) + value) % 2 ^ 64) → (¬ add → new = value) →
     let y := v.writeParts ps (leBytes 8 new)
     let hs := ps.filter (fun q => q.leaf.holdable)
     ∀ w, (add ∨ hs = [] → w = y) → (¬ add → hs ≠ [] → w = y.hold (t hs) (some .pkg)) →
     let k := w.release (.qp d) .pkg
     let z := (spansOf ps).foldl (fun (y : State) q => y.addRelease q.1 q.2 (.qp d) .pkg k.2) k.1
     s.writeSignal d x = (if wakeq = 0xFFFF then z else z.wakeQueue (.qp d) wakeq, none)) ∧
  (∀ (s a u t : State) (d : Nat) (x : PendSignal) (ps : List Part),
     let arg : Word := BitVec.ofNat 64 (leNat ((x.bs.drop 8).take 8))
     let waits : PendSignal := { x with refused := some (x.refused.getD t.gtc) }
     (s.qpRead d (x.qsb + 0x30) 8 = .again t → s.writeSignal d x = (t, some waits)) ∧
     (s.qpRead d (x.qsb + 0x30) 8 = .made a → a.xlatParts (qpCore d) (some (a.qAspace x.qsb)) .write [(arg, 8)] = .ok (u, ps) →
      (∀ q ∈ ps, (∀ st off, region q.pa ≠ .decoded st off) ∧ u.pinned .trio q.pa q.len = false) →
      u.qpAsk d true true ps = .again t → s.writeSignal d x = (t, some waits)))

/-- A kick raises WRIDX to its index and never lowers it, as a release of what the host did before, and wakes the queue; one that names no
queue is reported. A wake sets WAKE and rings the doorbell of a queue of STATE 0. A scan reports bad links, unmaps what has emptied, in the
four steps of R398 with any wake between them kept, and maps runnable queues in order, at most 16 on a die; with every slot taken, it
begins to unmap the idle queue of lowest priority below a runnable one (R394, R396 to R400). That a scan reads the lists in one step is the
model's choice (log 66), and that a kick waits while a held line refuses it, its reading of R245. -/
def Obligations.KicksAndScans : Prop :=
  ((∀ (s u : State) (qid : BitVec 16) (w : Word) (d : Nat),
     let waits (v : State) : State := { v with kicks := v.kicks ++ [(qid.toNat, w.toNat)] }
     (s.findQueue qid.toNat = (u, .nowhere) → exec (.kick qid w) s = .next (u.tell (.badKick qid.toNat))) ∧
     (s.findQueue qid.toNat = (u, .again d) → exec (.kick qid w) s = .next (waits u)) ∧
     (∀ q line o, s.findQueue qid.toNat = (u, .at d q) →
       let t : Touch := { agent := hostAgent, write := true, sync := true, spans := [(q + 0x10, 8)] }
       u.ask t (physParts (q + 0x10) 8) = .refused line o → u.gtc < u.refusedAt hostAgent line + 2 ^ 20 →
         exec (.kick qid w) s = .next (waits (u.refuse t line (u.refusedAt hostAgent line))))) ∧
   (∀ (s u v : State) (qid : BitVec 16) (w : Word) (d q : Nat), s.findQueue qid.toNat = (u, .at d q) →
     u.ask { agent := hostAgent, write := true, sync := true, spans := [(q + 0x10, 8)] } (physParts (q + 0x10) 8) = .granted v →
     let k := v.release hostAgent .pkg
     let y := ((k.1.clearBad (q + 0x10) 8).writeKey 0 (q + 0x10) (leBytes 8 (max (v.qField q 0x10 8) w.toNat))).addRelease (q + 0x10) 8
       hostAgent .pkg k.2
     exec (.kick qid w) s = .next (y.wakeAt hostAgent qid.toNat d q)) ∧
   (∀ (s v : State) (a : Agent) (id d q : Nat),
     s.ask { agent := a, write := true, sync := true, spans := [(q + 8, 8)] } (physParts (q + 8) 8) = .granted v →
     let k := v.release a .pkg
     let y := ((k.1.clearBad (q + 8) 8).writeKey 0 (q + 8) (leBytes 8 (v.qField q 0x08 8 ||| 0x100))).addRelease (q + 8) 8 a .pkg k.2
     s.wakeAt a id d q = if v.qState q = 0 then y.modDie d (fun x => { x with doorbell := true }) else y) ∧
   (∀ (s t : State) (d q off v : Nat), Memory.wf s.mem = true → isDram (q + off) = true → (q + off) % 64 + 8 ≤ 64 →
     s.qpAsk d true true (physParts (q + off) 8) = .made t →
     s.qWrite d q off 8 v = t.qpWrite d (q + off) 8 v ∧ (s.qWrite d q off 8 v).qField q off 8 = v % 2 ^ 64)) ∧
  ((∀ (s : State) (d : Nat), d < Config.nDies → SMap.get 0 (s.die d).sys 0x421 = 0 →
     let u := ((s.retryFailures d).retryOwed d).retrySlips d
     exec (.queueScan d) s = .next (u.calm (.qp d)) ∧ ((s.die d).failing = [] → (s.die d).owed = [] → (s.die d).slips = [] → u = s)) ∧
   (∀ (s : State) (d : Nat), d < Config.nDies → SMap.get 0 (s.die d).sys 0x421 ≠ 0 →
     ∃ t, exec (.queueScan d) s = .next t ∧ ((s.die d).queues.length ≤ 16 → (t.die d).queues.length ≤ 16) ∧
       ((s.die d).failing = [] → (s.die d).owed = [] → (s.die d).slips = [] → (s.die d).wakes = [] → (t.die d).doorbell = false ∧ ∀ b ∈ s.freshBad d, HostOut.badLink b.1 b.2.1 ∈ t.hostOut)) ∧
   (∀ (s : State) (d : Nat), d < Config.nDies → SMap.get 0 (s.die d).sys 0x421 ≠ 0 → (s.die d).failing = [] → (s.die d).owed = [] →
     (s.die d).slips = [] → (s.die d).wakes = [] → s.freshBad d = [] →
     let a := s.modDie d (fun x => { x with doorbell := false, stuck := false, wakes := [] })
     let r := ((s.die d).queues.foldl (State.scanMapped d) a).readLists d
     exec (.queueScan d) s = .next ((r.2.found.foldl (State.scanQueue d r.2.found) r.1).calm (.qp d))) ∧
   (∀ (s t : State) (d : Nat) (q : QSlot), s.qpRead d (q.qsb + 0x10) 16 = .made t →
     (q.unmapping ≠ 0 ∨ (q.hold = .free ∧ t.qField q.qsb 0x10 8 ≤ t.qField q.qsb 0x18 8) → State.scanMapped d s q = t.unmapStep d q) ∧
     (q.unmapping = 0 → q.hold ≠ .free ∨ t.qField q.qsb 0x18 8 < t.qField q.qsb 0x10 8 → State.scanMapped d s q = t)) ∧
   (∀ (s : State) (q : QSlot), s.idleQueue q = true ↔ q.unmapping = 0 ∧
     ((q.hold = .free ∧ s.qField q.qsb 0x10 8 ≤ s.qField q.qsb 0x18 8) ∨ (∃ bs, q.hold = .fence bs) ∨ ∃ t, q.hold = .timed t)) ∧
   (∀ (s : State) (q : Nat), s.runnable q = true ↔
     (s.qState q ≠ 3 ∧ s.qField q 0x18 8 < s.qField q 0x10 8) ∨ s.qField q 0x08 8 / 256 % 2 = 1 ∨ s.qField q 0x50 8 ≠ 0) ∧
   (∀ (s a b c : State) (d : Nat) (order : List (Nat × Nat)) (x : Nat × Nat), s.qpRead d (x.2 + 0x08) 8 = .made a → a.qState x.2 ≠ 3 →
     a.qpRead d (x.2 + 0x10) 16 = .made b → b.qpRead d (x.2 + 0x50) 8 = .made c →
     State.scanQueue d order s x = c.placeQueue d order x) ∧
   (∀ (s t : State) (d : Nat) (order : List (Nat × Nat)) (x : Nat × Nat), s.qState x.2 = 0 → s.runnable x.2 = true →
     (s.die d).queues.length < 16 → s.qpAsk d true true (physParts (x.2 + 8) 8) = .made t →
     s.placeQueue d order x = (t.setCtrl d x.2 1).modDie d (fun y => { y with queues := y.queues ++ [{ qsb := x.2, hold := .free }] })) ∧
   (∀ (s : State) (d : Nat) (order : List (Nat × Nat)) (x : Nat × Nat) (q : QSlot), s.idleVictim d x.1 order = some q →
     q ∈ (s.die d).queues ∧ s.idleQueue q = true ∧ (placeOf order q.qsb).1 < x.1 ∧
       ∀ y ∈ (s.die d).queues, s.idleQueue y = true →
         (placeOf order q.qsb).1 < (placeOf order y.qsb).1 ∨
           ((placeOf order q.qsb).1 = (placeOf order y.qsb).1 ∧ (placeOf order y.qsb).2 ≤ (placeOf order q.qsb).2)) ∧
   (∀ (s : State) (d p : Nat) (order : List (Nat × Nat)), s.idleVictim d p order = none ↔
     ∀ y ∈ (s.die d).queues, s.idleQueue y = true → p ≤ (placeOf order y.qsb).1) ∧
   (∀ (s : State) (d : Nat) (order : List (Nat × Nat)) (x : Nat × Nat), s.qState x.2 = 0 → s.runnable x.2 = true →
     16 ≤ (s.die d).queues.length → (∀ y ∈ (s.die d).queues, y.unmapping = 0) →
     s.placeQueue d order x = match s.idleVictim d x.1 order with
       | some q => s.unmapStep d q
       | none => s)) ∧
  (∀ (s t : State) (d : Nat) (q : QSlot),
     let wake : Prop := t.qField q.qsb 0x08 8 / 256 % 2 = 1
     (s.qpAsk d true true (physParts (q.qsb + 8) 8) = .made t →
       (q.unmapping = 0 → s.unmapStep d q =
         (t.setCtrl d q.qsb (t.qField q.qsb 0x08 8 / 256 * 256 + 2)).modMapped d q.qsb (fun y => { y with unmapping := 1 })) ∧
       (q.unmapping = 1 → wake → s.unmapStep d q = (t.setCtrl d q.qsb 2).modMapped d q.qsb (fun y => { y with unmapping := 2 })) ∧
       (q.unmapping = 1 → ¬ wake → s.unmapStep d q = t.modMapped d q.qsb (fun y => { y with unmapping := 2 })) ∧
       (3 ≤ q.unmapping → wake → s.unmapStep d q = t.stayMapped d q.qsb) ∧
       (3 ≤ q.unmapping → ¬ wake → s.unmapStep d q =
         ((t.setCtrl d q.qsb 0).modDie d (fun x => { x with queues := x.queues.filter (fun y => y.qsb != q.qsb) })).calm (.qp d))) ∧
     (s.qpRead d (q.qsb + 0x10) 16 = .made t → q.unmapping = 2 →
       (t.qField q.qsb 0x10 8 ≤ t.qField q.qsb 0x18 8 → q.waits = false →
         s.unmapStep d q = t.modMapped d q.qsb (fun y => { y with unmapping := 3 })) ∧
       (∀ v, t.qField q.qsb 0x18 8 < t.qField q.qsb 0x10 8 ∨ q.waits = true →
         t.qpAsk d true true (physParts (q.qsb + 8) 8) = .made v → s.unmapStep d q = v.stayMapped d q.qsb)))

/-- The collective instructions: an entry outside the table, or a place that the engine cannot write, raises RSVD; TREADY of a running
entry gives 1, of an invalid one raises RSVD, and of a valid one fires it after its page checks and gives 0; CSTAT gives the status word,
acquiring where the firing has ended; `.bm` a bookmark; CABORT aborts the running firing (R430, R433, R442 to R444). A COLL packet: a set
reserved bit or READY bit, or an entry that is not there, fails the queue; a running entry is waited for; else the image is written and
fired by the queue processor, and with WAIT the queue goes on when the firing has ended (R440). That CSTAT reads with atomic accesses which
nothing refuses, and that TREADY reads the entry, and a packet writes it, with synchronising ones, is the model's reading (logs 121, 122). -/
def Obligations.Collectives : Prop :=
  ((∀ (s : State) (d i : Nat), s.entryOk d i = true ↔ fld (s.ctbase d) 51 12 ≠ 0 ∧ i ≤ fld (s.ctbase d) 11 0) ∧
   (∀ (h : Hdr) (d a b : GReg) (s : State), let ts := [s.gT a, s.gT d]
     let die (t : State) : Nat := dieOf t.cur.core
     let i (t : State) : Nat := (t.g a).toNat
     let there (t : State) : Prop := t.entryOk (die t) (i t) = true
     let pos (t : State) : Nat := t.tileAddr (die t) (i t)
     let read (t : State) : State := t.record (t.access false true [(pos t, 32)])
     let image (t : State) : List Byte := (read t).readPhys 0 (pos t) 32
     let fine (t : State) : Prop := there t ∧ t.placesOk (die t) (i t) = true ∧ t.admits false true [(pos t, 32)]
     TrapsIf h .stor ts (.tready h d a) s (fun t => ¬ there t ∨ t.placesOk (die t) (i t) = false) 0x02 0 0 ∧
     TrapsIf h .stor ts (.tready h d a) s
       (fun t => fine t ∧ eTyp (image t) / 128 ≠ 1 ∧ entryValid (read t).pkg (image t) = false) 0x02 0 0 ∧
     CompletesIf h .stor ts (.tready h d a) s (fun t => fine t ∧ eTyp (image t) / 128 = 1) (fun t => (read t).putG d 1 none) ∧
     (∀ u src pages, CompletesIf h .stor ts (.tready h d a) s
       (fun t => fine t ∧ eTyp (image t) / 128 ≠ 1 ∧ entryValid (read t).pkg (image t) = true ∧
         (read t).firingPages t.cur.core ((read t).aspaceOf t.cur.core t.cur.role) (if t.cur.role = .F then .firmware else .trio) (image t) =
           .ok (u, src, pages))
       (fun t =>
         let g := u.groupOf t.cur.core
         (u.fire (die t) (i t) (image t) u.me (some t.cur.core) none src pages g.1 g.2 (u.aspaceOf t.cur.core t.cur.role)).putG d 0 none)) ∧
     TrapsIf h .all ts (.cstat h d a) s (fun t => ¬ there t) 0x02 0 0 ∧
     CompletesIf h .all ts (.cstat h d a) s there (fun t =>
       let u := t.record (t.access false true [(t.areaAddr (die t) (i t), 8)])
       (if 2 ≤ t.status (die t) (i t) / 2 ^ 62 then u.acquireAt u.me .pod (t.areaAddr (die t) (i t)) 8 u.order.serial else u).putG d
         (BitVec.ofNat 64 (t.status (die t) (i t))) none) ∧
     TrapsIf h .all ts (.cabort h d a) s (fun t => ¬ there t) 0x02 0 0 ∧
     CompletesIf h .all ts (.cabort h d a) s (fun t => there t ∧ t.firing? (die t) (i t) = none) (fun t => t.putG d 1 none) ∧
     (∀ f, CompletesIf h .all ts (.cabort h d a) s (fun t => there t ∧ t.firing? (die t) (i t) = some f)
       (fun t => (if f.aborting = none then t.abortFiring (die t) f 1 else t).putG d 0 none)) ∧
     (let tb := [s.gT a, s.gT b, s.gT d]
      let last (t : State) : Nat := leNat ((t.readPhys 0 (pos t) 32).drop 0x1C |>.take 1)
      TrapsIf h .all tb (.cstatBm h d a b) s (fun t => ¬ there t ∨ last t < (t.g b).toNat) 0x02 0 0 ∧
      CompletesIf h .all tb (.cstatBm h d a b) s (fun t => there t ∧ (t.g b).toNat ≤ last t)
       (fun t =>
         let u := t.record (t.access false true [(pos t, 32)])
         (u.record (u.access false true [(t.areaAddr (die t) (i t) + 0x40 + (t.g b).toNat / 4, 1)])).putG d
           (BitVec.ofNat 64 (t.bookmark (die t) (i t) (t.g b).toNat)) none))) ∧
   (∀ (p : Nat) (e : List Byte), entryValid p e = true ↔
     eOps e / 16 = 0 ∧ eTyp e / 8 % 2 = 0 ∧ eTyp e / 64 % 2 = 0 ∧ leNat ((e.drop 0x1F).take 1) = 0 ∧ eSrc e % 64 = 0 ∧ eDst e % 64 = 0 ∧
       p ∈ membersOf e ∧ eChunk e % 512 = 0 ∧ 512 ≤ eChunk e ∧ eChunk e ≤ 1048576 ∧
       (eKind e ≤ 1 → ∃ op ty, ropOf (eOps e % 16) = some op ∧ styOf (eTyp e % 8) = some ty ∧ ropAccepts op ty = true) ∧
       (2 ≤ eKind e → eOps e = 0 ∧ eTyp e % 8 = 0))) ∧
  (∀ s d i p u v bs, s.parses d i p 8 1 u → p.type = 2 → u.qpReads p (pageParts p.arg 64) v bs →
     let e := bs.take 32
     let x := leNat ((bs.drop 0x20).take 2)
     let flags := leNat ((bs.drop 0x25).take 1)
     let odd : Prop := 2 ≤ flags ∨ leNat (bs.drop 0x26) ≠ 0 ∨ eTyp e / 128 = 1
     let there : Prop := v.entryOk d x = true ∧ v.placesOk d x = true
     let tile := physParts (v.tileAddr d x) 32
     let w := ((v.record { agent := .qp p.die, write := true, sync := true, spans := spansOf tile }).admitQ p).writePhys 0 (v.tileAddr d x) e
     (odd ∨ ¬ there → exec (.collPacket d i) s = .next (v.packetFail p 0x02 0 p.rd)) ∧
     (¬ odd → there → (v.firing? d x).isSome = true → exec (.collPacket d i) s = .next v) ∧
     (¬ odd → there → v.firing? d x = none → v.engAdmits (.qp p.die) true true tile →
       (entryValid w.pkg e = false → exec (.collPacket d i) s = .next (w.packetFail p 0x02 0 p.rd)) ∧
       (∀ y src pages, entryValid w.pkg e = true → w.firingPages (qpCore d) (some (w.qAspace p.qsb)) .trio e = .ok (y, src, pages) →
         let z := if flags = 1 then y.holdAt p (.coll x) else y.advance p 1
         exec (.collPacket d i) s = .next (z.fire d x e (.qp d) none (some p.qsb) src pages (BitVec.ofNat 16 (leNat ((bs.drop 0x22).take 2)))
           (BitVec.ofNat 8 (leNat ((bs.drop 0x24).take 1))) (some (z.qAspace p.qsb))))))

/-- The steps of a chunk. Each step first makes sure of its accesses to the entry's state area, as synchronising accesses of the engine: one
that is refused for good is reported and aborts the firing with subcause 4, one that a held line refuses is made again for at most 2^20
cycles (R237, R239, R245, R439). The partials of the children are pulled and combined one at a time in ascending order, and the input
comes last, element by element (R435); the root writes its result, another member publishes its partial (R436). The root of KIND 2 copies
its chunks in increasing order; a final chunk is pulled into CWORK and then written, and the root finishes it when every child has
(R436). Of KIND 3 the headers are pulled, the sizes are written, or the overflow aborts, and then each rank's bytes are pulled and written
(R438). No pull and no combination begins while the firing has stopped for a recomputation or an abort; what has landed is written all
the same (R437, R439). That an access to the area in the course of a step does not wait for a held line, how segments are asked for, and
which places of CWORK a chunk takes, are the model's choice (logs 28, 37, 120). -/
def Obligations.ChunkSteps : Prop :=
  (∀ (op : Rop) (ty : STy) (x y : Nat) (xs ys : List Byte),
    combineBytes op ty 0 xs ys = [] ∧
    ∀ n, combineBytes op ty (n + 1) (leBytes (styBytes ty) x ++ xs) (leBytes (styBytes ty) y ++ ys) =
      leBytes (styBytes ty) (ropApply op ty (x % 2 ^ (8 * styBytes ty)) (y % 2 ^ (8 * styBytes ty))) ++ combineBytes op ty n xs ys) ∧
  ((∀ (s : State) (d i a n : Nat) (write : Bool),
     let t : Touch := { agent := collAgent d i, write := write, sync := true, spans := [(a, n)] }
     let lost (cause sub x : Nat) (o : Word) : State :=
       (s.report (80 * d) { cause := cause, sub := sub, src := 3, val := BitVec.ofNat 64 x, other := o }).modFirings d
         (fun f => if f.entry = i ∧ ¬ f.isOver then { f with fail := some (f.fail.getD 4) } else f)
     (write = true → s.pinned .area a n = true → s.areaTouch d i write a n = (lost 0x22 0 (a / 64 * 64) 0, false)) ∧
     ((write = true → s.pinned .area a n = false) →
       (∀ u, s.ask t (physParts a n) = .granted u → s.areaTouch d i write a n = (u, true)) ∧
       (∀ l o, s.ask t (physParts a n) = .refused l o → s.areaTouch d i write a n = (s.record t, true)) ∧
       (∀ cause sub x o, s.ask t (physParts a n) = .fault cause sub x o → s.areaTouch d i write a n = (lost cause sub x o, false)))) ∧
   (∀ (s u v : State) (d i : Nat),
     let a := s.areaAddr d i
     let ps := physParts a 128 ++ physParts (s.tileAddr d i + 0x1E) 1
     s.ask { agent := collAgent d i, write := false, sync := true, spans := [(a, 128)] } (physParts a 128) = .granted u →
     u.ask { agent := collAgent d i, write := true, sync := true, spans := spansOf ps } ps = .granted v → s.areaReady d i = .ok u) ∧
   (∀ (s : State) (d : Nat) (f : Firing) (k : State → State),
     (∀ cause sub a o, s.areaReady d f.entry = .error (.fault cause sub a o) → s.areaStep d f k =
       (s.report (80 * d) { cause := cause, sub := sub, src := 3, val := BitVec.ofNat 64 a, other := o }).abortFiring d f 4) ∧
     (∀ t l o, s.areaReady d f.entry = .error (.retry t l o) →
       (s.gtc < s.refusedAt t.agent l + 2 ^ 20 → s.areaStep d f k =
         (s.refuse t l (s.refusedAt t.agent l)).modFiring d f (fun g => { g with refused := some (s.refusedAt t.agent l) })) ∧
       (s.refusedAt t.agent l + 2 ^ 20 ≤ s.gtc → s.areaStep d f k =
         (s.report (80 * d) { cause := 0x23, src := 3, val := BitVec.ofNat 64 (64 * l), other := o }).abortFiring d f 4))) ∧
   (∀ (s : State) (d i c : Nat), (∀ f, s.firing? d i = some f → f.fail ≠ none) →
     exec (.collCombine d i c) s = .next s ∧ exec (.collBroadcastPull d i c) s = .next s)) ∧
  (∀ (s₀ : State) (d i c : Nat) (f : Firing) (s : State), s₀.stepsChunk d i c f s → s.bm d f c = 0 → f.stopped = false →
    let kids := f.kids c s.pkg
    let whole := f.slot? c (· == .whole)
    (f.kind ≤ 1 →
      (kids = [] → f.slot? c accUse = none → (∀ q, f.parent c s.pkg = some q → exec (.collCombine d i c) s₀ = .next (s.publishPart d f c q)) ∧
        (f.parent c s.pkg = none → ∀ u input, s.inputChunk d f c = .ok (u, input) →
          exec (.collCombine d i c) s₀ = .next (u.rootResult d f c input))) ∧
      (∀ k ks, kids = k :: ks → f.slot? c accUse = none → exec (.collCombine d i c) s₀ = .next (s.collAsk d f c k false)) ∧
      (∀ n x k, f.gathers c n x → kids[n]? = some k → whole = none → exec (.collCombine d i c) s₀ = .next (s.collAsk d f c k false)) ∧
      (∀ n x k w u a v b t, f.gathers c n x → kids[n]? = some k → whole = some w → s.workRead d f x 0 (eChunk f.image) = .ok (u, a) →
        u.workRead d f w 0 (eChunk f.image) = .ok (v, b) → v.workWrite d f x 0 (combine f.image a b) = .ok t →
          exec (.collCombine d i c) s₀ = .next ((t.freePlace d f w).setUse d f x (.acc (n + 1)))) ∧
      (∀ n x u a v input, f.gathers c n x → kids.length ≤ n → s.workRead d f x 0 (eChunk f.image) = .ok (u, a) →
        u.inputChunk d f c = .ok (v, input) →
          (f.parent c s.pkg = none → exec (.collCombine d i c) s₀ = .next (v.rootResult d f c (combine f.image a input))) ∧
          (∀ q t, f.parent c s.pkg = some q → v.workWrite d f x 0 (combine f.image a input) = .ok t →
            exec (.collCombine d i c) s₀ = .next ((t.setUse d f x .part).publishPart d f c q)))) ∧
    (f.kind = 2 →
      (∀ u input, f.parent c s.pkg = none → (∀ x, x < c → 2 ≤ s.bm d f x) → s.inputChunk d f c = .ok (u, input) →
        exec (.collCombine d i c) s₀ = .next (u.rootResult d f c input)) ∧
      ((f.parent c s.pkg).isSome = true ∨ (∃ x, x < c ∧ s.bm d f x < 2) → exec (.collCombine d i c) s₀ = .next s))) ∧
  (∀ (s₀ : State) (d i c : Nat) (f : Firing) (s : State), s₀.stepsChunk d i c f s → s.bm d f c = 0 → f.kind ≠ 3 → f.stopped = true →
    exec (.collCombine d i c) s₀ = .next s) ∧
  (∀ (s₀ : State) (d i c : Nat) (f : Firing) (s : State), s₀.stepsChunk d i c f s → s.bm d f c = 0 → f.kind = 3 →
    let me := f.rank s.pkg
    let bytes := f.off me f.members.length
    let here (q : Nat) : Prop := ∃ x ∈ f.headers, x.1 = q
    let p := f.members.getD c 0
    (f.ready = false → f.stopped = false →
      (s.pkg ∈ f.members → ¬ here s.pkg → ∀ u bs, s.collRead d f (eSrc f.image) 512 = .ok (u, bs) →
        exec (.collCombine d i c) s₀ = .next (u.modFiring d f (fun g => { g with headers := g.headers ++ [(u.pkg, bs)] }))) ∧
      (here s.pkg → ∀ q before after, f.members = before ++ q :: after → ¬ here q → q ∉ f.asking → (∀ x ∈ before, here x ∨ x ∈ f.asking) →
        (s.routeLink q ≠ none → exec (.collCombine d i c) s₀ =
          .next ((s.modFiring d f (fun g => { g with asking := g.asking ++ [q] })).collSend d f q (.headerReq f.entry f.fire))) ∧
        (s.routeLink q = none → exec (.collCombine d i c) s₀ = .next (s.pullsRefused d f q 1))) ∧
      ((∀ q ∈ f.members, here q) →
        ((eNch f.image + 1) * eChunk f.image < bytes + 512 → exec (.collCombine d i c) s₀ = .next (s.abortFiring d f 5)) ∧
        (∀ u, bytes + 512 ≤ (eNch f.image + 1) * eChunk f.image →
          s.collWrite d f (eDst f.image) ((List.range f.members.length).flatMap (fun j => leBytes 8 (f.recv me j)) ++
            leBytes (512 - 8 * f.members.length) 0) = .ok u →
          exec (.collCombine d i c) s₀ = .next (u.modFiring d f (fun g => { g with ready := true }))))) ∧
    (f.ready = true →
      (∀ x u, f.landed.find? (fun y => y.1 == c) = some x → s.collWrite d f (eDst f.image + 512 + f.off me c) x.2 = .ok u →
        let v := (u.modFiring d f (fun g => { g with landed := g.landed.filter (·.1 != c) })).setBm d f c 3
        exec (.collCombine d i c) s₀ =
          .next ((if p = v.pkg then v else v.collSend d f p (.chunkAck f.entry f.fire 0 (f.rank v.pkg) true)).settleFiring d f)) ∧
      (f.landed.find? (fun y => y.1 == c) = none → f.stopped = false →
        (f.recv me c = 0 → exec (.collCombine d i c) s₀ = .next ((s.setBm d f c 3).settleFiring d f)) ∧
        (f.recv me c ≠ 0 → me = c → ∀ u bs, s.payload d f c 0 (f.recv me c) = .ok (u, bs) →
          exec (.collCombine d i c) s₀ = .next (u.rankWrite d f c bs)) ∧
        (f.recv me c ≠ 0 → me ≠ c → (∀ x ∈ f.got, x.1 ≠ c) →
          (s.routeLink p ≠ none → exec (.collCombine d i c) s₀ =
            .next ((s.modFiring d f (fun g => { g with got := g.got ++ [(c, p, [])] })).collSend d f p (.rankReq f.entry f.fire 0))) ∧
          (s.routeLink p = none → exec (.collCombine d i c) s₀ = .next (s.pullsRefused d f p 1)))))) ∧
  ((∀ (s u : State) (d : Nat) (f : Firing) (c : Nat) (bs : List Byte), s.resultChunk d f c bs = .ok u →
     s.rootResult d f c bs =
       let v := (u.modFiring d f (fun g => { g with slots := g.slots.filter (fun x => x.chunk != c) })).setBm d f c (if f.kind = 1 then 3 else 2)
       (if f.kind = 1 then v else v.serve d f c).settleFiring d f) ∧
   (∀ (s : State) (d : Nat) (f g : Firing) (c p : Nat) (final : Bool), s.firingOf d f.entry f.fire = some g →
     let idle : Prop := (c, p, final) ∈ g.peerReady ∧ g.stopped = false ∧ ∀ x ∈ g.slots, x.chunk = c → ∀ q y n, x.use ≠ .pull q y n
     (¬ idle → s.collAsk d f c p final = s) ∧
     (idle → s.routeLink p = none → s.collAsk d f c p final = s.pullsRefused d g p 1) ∧
     (idle → s.routeLink p ≠ none → s.takePlace d g c (.pull p final 0) = none → s.collAsk d f c p final = s) ∧
     (∀ u, idle → s.routeLink p ≠ none → s.takePlace d g c (.pull p final 0) = some u → s.collAsk d f c p final =
       (u.modFiring d g (fun x => { x with peerReady := x.peerReady.filter (· != (c, p, final)) })).collSend d g p
         (.chunkReq g.entry g.fire g.build c final 0))) ∧
   (∀ (s u : State) (d : Nat) (f : Firing) (c : Nat) (use : CUse), s.takePlace d f c use = some u → f.slots.length < 2 * f.spines.length)) ∧
  (∀ (s₀ : State) (d i c : Nat) (f : Firing) (s : State), s₀.stepsChunk d i c f s → f.kind ≠ 3 → f.kind ≠ 1 → s.bm d f c ≠ 3 →
    (f.parent c s.pkg = none →
      let allIn : Prop := s.bm d f c = 2 ∧ f.stopped = false ∧ ∀ k ∈ f.kids c s.pkg, (c, k) ∈ f.acked
      (allIn → exec (.collBroadcastPull d i c) s₀ = .next ((s.setBm d f c 3).settleFiring d f)) ∧
      (¬ allIn → exec (.collBroadcastPull d i c) s₀ = .next s)) ∧
    (∀ q, f.parent c s.pkg = some q → f.slot? c (· == .land) = none →
      exec (.collBroadcastPull d i c) s₀ = .next (if f.stopped then s else s.collAsk d f c q true)) ∧
    (∀ q x u bs v, f.parent c s.pkg = some q → f.slot? c (· == .land) = some x → s.workRead d f x 0 (eChunk f.image) = .ok (u, bs) →
      u.resultChunk d f c bs = .ok v →
        let w := ((v.freePlace d f x).setBm d f c 3).collSend d f q (.chunkAck f.entry f.fire f.build c true)
        exec (.collBroadcastPull d i c) s₀ = .next ((if f.stopped then w else w.serve d f c).settleFiring d f)))

/-- Recomputation, ends and messages: the root builds new spines where a change waits and its own pulls have ended, aborting without any;
a member resumes when its report has been taken; a firing whose bookmarks are all 3 ends COMPLETE; a message is held, dropped or taken by
its FIRE; and an abort stops what has not begun, and ends the firing when nothing is in progress any more, COMPLETE where every bookmark is
3 by then, else ABORTED (R433, R434, R436, R437, R439). The messages are the model's choice (log 28). -/
def Obligations.CollectiveChanges : Prop :=
  ((∀ (s : State) (d i : Nat), s.recomputing d i = none → exec (.collRecompute d i) s = .next s) ∧
   (∀ (s : State) (d i : Nat) (f : Firing), s.recomputing d i = some f →
     let g : Firing := { f with again := f.again - 1 }
     let t := s.modFiring d f (fun x => { x with again := x.again - 1 })
     f.entry = i ∧ f.again ≠ 0 ∧ f.recomp = false ∧ f.aborting = none ∧ f.sources = [] ∧ f.serving = [] ∧ rootOf f.image = s.pkg ∧
     (t.buildSpines f.members = [] → exec (.collRecompute d i) s = .next (t.abortFiring d g 2)) ∧
     (t.buildSpines f.members ≠ [] →
       let sp := t.buildSpines f.members
       let fates := (List.range (eNch f.image + 1)).map (t.fateFor d g)
       let gen := (SMap.get 0 s.sys 0x501).toNat
       exec (.collRecompute d i) s =
         .next ((t.collTell d g (.spines f.entry f.fire (f.build + 1) gen sp fates)).applySpines d g (f.build + 1) gen sp fates))) ∧
   (∀ (s : State) (d : Nat) (f : Firing) (c : Nat), s.fateFor d f c =
     if f.kind = 1 then (if s.bm d f c = 3 then .finished else .restart) else if 2 ≤ s.bm d f c then .broadcast else .restart) ∧
   (∀ (s : State) (d : Nat) (f : Firing) (c : Nat),
     let t := s.modFiring d f (fun g => { g with slots := g.slots.filter (fun y => y.chunk != c) })
     s.fateOf d f c .finished = s ∧ s.fateOf d f c .restart = t.setBm d f c 0 ∧
       s.fateOf d f c .broadcast = if rootOf f.image = s.pkg then t.setBm d f c 2 else t) ∧
   (∀ (s : State) (d i : Nat) (f : Firing), (s.die d).firings.find? (fun f => f.entry == i && f.recomp) = some f →
     let held : Prop := ∃ r ∈ (s.core (80 * d)).reports, r.cause = 0x51 ∧ r.val.toNat % 4096 = i
     let t := s.modFiring d f (fun g => { g with recomp := false })
     let u := if f.kind = 3 ∨ f.aborting.isSome = true then t else t.announceChunks d f
     (held → exec (.collResume d i) s = .next s) ∧
     (¬ held → exec (.collResume d i) s = .next (u.stopFiring d (u.again d f)))) ∧
   (∀ (s : State) (d : Nat) (f : Firing),
     (f.again = 0 ∨ f.recomp = true ∨ f.build ≤ f.halt → s.stopFiring d f = s) ∧
     (f.again ≠ 0 → f.recomp = false → f.halt < f.build → s.stopFiring d f =
       (s.modFiring d f (fun g => { g with halt := g.build })).collTell d f (.collStop f.entry f.fire f.build)))) ∧
  ((∀ (s : State) (d : Nat) (f : Firing), s.firingOf d f.entry f.fire = some f → f.isOver = false → f.aborting = none →
     ((∀ c, c < f.marks → s.bm d f c = 3) → ∀ u kept, s.keepServed d f = .ok (u, kept) →
       let t := u.modFiring d f (fun g => { g with served := kept })
       s.settleFiring d f = t.endFiring d (t.again d f) 0) ∧
     ((∃ c, c < f.marks ∧ s.bm d f c ≠ 3) → s.settleFiring d f = s)) ∧
   (∀ (s : State) (d : Nat) (f : Firing) (sub : Nat),
     let counts := (SMap.get 0 (s.die d).sys 0x523).toNat
     let after := (SMap.get 0 ((s.endFiring d f sub).die d).sys 0x523).toNat
     (sub = 0 → after % 2 ^ 32 = (counts + 1) % 2 ^ 32 ∧ after / 2 ^ 32 = counts / 2 ^ 32 ∧
       ∀ c, f.core = some c → ∃ k, (7, Path.coll, k) ∈ ((s.endFiring d f sub).core c).pulses) ∧
     (sub ≠ 0 → after % 2 ^ 32 = counts % 2 ^ 32 ∧ after / 2 ^ 32 = (counts / 2 ^ 32 + 1) % 2 ^ 32 ∧
       (∃ r ∈ ((s.endFiring d f sub).core (80 * d)).reports, r.cause = 0x50 ∧ r.src = 3 ∧ r.val = BitVec.ofNat 64 f.entry) ∧
       (s.endFiring d f sub).firingOf d f.entry f.fire = none)) ∧
   (∀ (s : State) (d : Nat) (f : Firing) (sub : Nat), s.firingOf d f.entry f.fire = some f → f.isOver = false →
     (f.aborting = none → s.takeAbort d f sub =
       (s.modFiring d f (fun g => { g with
         aborting := some sub, fail := none
         slots := g.slots.filter (fun x => match x.use with
           | .acc _ | .whole => false
           | .part => g.serving.any (fun y => y.1 == x.chunk && !y.2.2)
           | _ => true) })).finishAbort d f) ∧
     (f.aborting = some sub → f.quiet = false → s.finishAbort d f = s) ∧
     (f.aborting = some sub → f.quiet = true → s.finishAbort d f = s.endFiring d f (if s.allDone d f then 0 else sub)))) ∧
  (∀ (s : State) (d n k x fire : Nat) (m : Packet), s.message n m → collKey m.body = some (x, fire) → m.dst = 512 * s.pkg + 80 * d →
    (s.notFirst n = true → exec (.spinesArrival d n) s = .next s) ∧
    (s.notFirst n = false →
      let t := s.takeMsg n
      let p := m.src / 512
      let ahead := (fire + 2 ^ 32 - s.status d x % 2 ^ 32) % 2 ^ 32
      (s.stale m = true → exec (.spinesArrival d n) s = .next (t.dropStale m d)) ∧
      (s.stale m = false → s.firingOf d x fire = none → 0 < ahead → ahead < 2 ^ 31 →
        exec (.spinesArrival d n) s = .next (t.modDie d (fun y => { y with heldMsgs := y.heldMsgs ++ [m] }))) ∧
      (s.stale m = false → s.firingOf d x fire = none → ahead = 0 ∨ 2 ^ 31 ≤ ahead → netOf m.body ≠ 1 →
        exec (.spinesArrival d n) s = .next t) ∧
      (∀ f, s.stale m = false → s.firingOf d x fire = some f →
        (t.collData d f p m.body = none → exec (.spinesArrival d n) s =
          .next ((t.collBody d f p m.body).getD (t.modFiring d f (fun g => { g with inbox := g.inbox ++ [(p, m.body)] })))) ∧
        (m.body = .collAbort x fire k → t.collData d f p m.body = none ∧
          t.collBody d f p m.body = some (if f.aborting.isSome then t else t.takeAbort d f k))))) ∧
  (∀ (s : State) (d i k fire : Nat) (m : Packet) (before after : List Packet), s.net = before ++ m :: after → m.body = .collAbort i fire k →
    m.dst = 512 * s.pkg + 80 * d → (∀ x ∈ before, ∀ y, x.body ≠ .collAbort i y k) →
      exec (.collAbort d i k) s = exec (.spinesArrival d before.length) s) ∧
  (∀ (s : State) (d i k : Nat), (∀ x ∈ s.net, ∀ y, x.body ≠ .collAbort i y k) → exec (.collAbort d i k) s = .next s)

/-- Flits: on a link that is up, a flit whose CRC-32C over its bytes 0 to 247 fails or that comes ahead of its turn changes no more than that it is
answered, negatively; one that was taken before is acknowledged again; one in order moves SEQ on, drops what it acknowledges, returns credits, and
its whole message is delivered, once by its MSEQ; after 2,048 cycles or a negative acknowledgement every unacknowledged flit is sent again and
REPLAY counts them, and after 16 times the link goes down unless it trains (R417, R418, R419, R422). A link sends while its window of 128 and the
8 credits of a network allow: control first, then the message made first, the lower network on a tie, and no network without a credit holds up
another; a message takes as many flits as its header and payload fill (R417 to R419). Links that change: one that goes down is sent around; one
that trains takes its value; a lane is spared; each change raises LTGEN and is told, the messages that wait are routed by the new table and the
new row is announced after them; a row from another package is applied in its order; a route is a direct link, else one through a pod switch at
both ends; and an event message sets the event bit of its core (R114, R421, R422, R424, R428, R457). That acknowledgements travel on flits of
their own and when, the places of a flit's fields in its bytes, the least time of a message and the packages that pass rows on are the model's
choice (logs 9, 95, 110, 118), as is the send of the time to a package whose row comes (log 96). -/
def Obligations.Links : Prop :=
  ((∀ (s : State) (l : Nat) (f : Flit), 16 ≤ l ∨ linkKind (s.linkReg l) = 0 → exec (.flitReceive l f) s = .next s) ∧
   (∀ (s : State) (l : Nat) (f : Flit), l < 16 → linkKind (s.linkReg l) ≠ 0 → crcHolds f = false →
     exec (.flitReceive l f) s = .next (s.modLink l (fun k => k.answerAlone true))) ∧
   (∀ (s : State) (l : Nat) (f : Flit), l < 16 → linkKind (s.linkReg l) ≠ 0 → crcHolds f = true → f.seq ≠ (s.link l).expect →
     let ahead := (f.seq - (s.link l).expect).toNat
     (flitAlone f = true → exec (.flitReceive l f) s = .next s) ∧
     (flitAlone f = false → ahead < 128 → exec (.flitReceive l f) s = .next (s.modLink l (fun k => k.answerAlone true))) ∧
     (flitAlone f = false → 128 ≤ ahead → exec (.flitReceive l f) s = .next (s.modLink l (fun k => k.answerAlone false)))) ∧
   (∀ (s : State) (l : Nat) (f : Flit), l < 16 → linkKind (s.linkReg l) ≠ 0 → crcHolds f = true → f.seq = (s.link l).expect →
     flitAlone f = true → exec (.flitReceive l f) s =
       .next (s.modLink l (fun k => { k with tx := ackTo f.ack k.tx, nacked := k.nacked || f.nack }))) ∧
   (∀ (s : State) (l : Nat) (f : Flit), l < 16 → linkKind (s.linkReg l) ≠ 0 → crcHolds f = true → f.seq = (s.link l).expect →
     flitAlone f = false →
     let k := s.link l
     let t := s.modLink l (fun k => { k with
       expect := k.expect + 1
       tx := ackTo f.ack k.tx
       spent := SMap.set 0 k.spent f.cvn.toNat (SMap.get 0 k.spent f.cvn.toNat - f.cret.toNat)
       owed := if flitEmpty f then k.owed else SMap.set 0 k.owed f.vn.toNat (SMap.get 0 k.owed f.vn.toNat + 1) })
     let answered (v : State) : State := v.modLink l (fun k => k.answer v.gtc)
     (f.last = false ∨ f.msg = none → exec (.flitReceive l f) s = .next (answered t)) ∧
     (∀ m, f.last = true → f.msg = some m → m.dst / 512 ≠ t.pkg →
       (passedOn m.body = true → exec (.flitReceive l f) s = .next (answered (t.reroute m))) ∧
       (passedOn m.body = false → exec (.flitReceive l f) s = .next (answered t))) ∧
     (∀ m, f.last = true → f.msg = some m → m.dst / 512 = t.pkg →
       let id := (m.src / 512, m.mseq.toNat)
       (id ∈ t.taken ∨ 320 ≤ m.dst % 512 → exec (.flitReceive l f) s = .next (answered t)) ∧
       (id ∉ t.taken → m.dst % 512 < 320 →
         let v : State := { t with taken := t.taken ++ [id] }
         ((∀ g b, m.body ≠ .time g b) →
           exec (.flitReceive l f) s = .next (answered { v with net := v.net ++ [{ m with made := v.gtc }] })) ∧
         (∀ g b, m.body = .time g b → exec (.flitReceive l f) s = .next (answered (v.timeFrom (m.src / 512) g b))))) ∧
     (∀ older newer x, k.tx = older ++ x :: newer → x.flit.seq = f.ack → (∀ y ∈ older, y.flit.seq ≠ f.ack) → ackTo f.ack k.tx = newer)) ∧
   (∀ (s : State) (l : Nat) (nack trained : Bool) (x : TxFlit) (xs : List TxFlit), l < 16 → (s.link l).tx = x :: xs →
     let again : List TxFlit := (x :: xs).map (fun f => { f with sentAt := s.gtc, resent := f.resent + 1 })
     let w := s.linkReg l
     let replay := BitVec.ofNat 64 (w.toNat / 2 ^ 32 * 2 ^ 32 + (w.toNat + (x :: xs).length) % 2 ^ 32)
     let t := ({ s with sys := SMap.set 0 s.sys (0x510 + l) replay } : State).modLink l (fun k => { k with nacked := false })
     (¬ (nack = true ∧ (s.link l).nacked = true) → s.gtc < x.sentAt + 2048 → exec (.flitResend l nack trained) s = .next s) ∧
     ((nack = true ∧ (s.link l).nacked = true) ∨ x.sentAt + 2048 ≤ s.gtc →
       (x.resent < 15 → exec (.flitResend l nack trained) s = .next (t.modLink l (fun k => { k with tx := again }))) ∧
       (15 ≤ x.resent → trained = true →
         exec (.flitResend l nack trained) s = .next (t.modLink l (fun k => { k with tx := again.map (fun f => { f with resent := 0 }) }))) ∧
       (15 ≤ x.resent → trained = false → exec (.flitResend l nack trained) s = exec (.linkDown l) t))) ∧
   (∀ f : Flit, crcHolds f = true ↔ f.payload.length = 240 ∧ (flitBytes f).length = 248 ∧ f.crc = crc32c (flitBytes f)) ∧
   (∀ f : Flit, f.payload.length = 240 → crcHolds (sealFlit f) = true) ∧
   (∀ (k : LinkLayer) (vn : Nat), k.ready vn = true ↔ (∃ m ∈ k.queue, netOf m.body = vn) ∧ SMap.get 0 k.spent vn < 8) ∧
   (∀ k : LinkLayer, (k.ready 3 = true → k.next = some 3) ∧ (k.next = none → ∀ vn, vn < 4 → k.ready vn = false) ∧
     ∀ vn m, k.next = some vn → k.head vn = some m → k.ready vn = true ∧
       (vn ≠ 3 → ∀ w x, w < 3 → k.ready w = true → k.head w = some x → m.made < x.made ∨ (m.made = x.made ∧ vn ≤ w))) ∧
   (∀ (k : LinkLayer) (gtc n : Nat), (128 ≤ k.tx.length ∨ k.next = none → LinkLayer.pump gtc (n + 1) k = k) ∧
     (∀ vn, k.tx.length < 128 → k.next = some vn → LinkLayer.pump gtc (n + 1) k = LinkLayer.pump gtc n (k.sendFlit gtc vn))) ∧
   (∀ b : Body, 16 + bodySize b ≤ 240 * flitCount b ∧ 240 * (flitCount b - 1) < 16 + bodySize b) ∧
   (∀ (p : Packet) (i : Nat) (seq ack : BitVec 8), i < flitCount p.body →
     let f := mkFlit p i seq ack
     f.seq = seq ∧ f.ack = ack ∧ f.vn.toNat = netOf p.body ∧ (f.first = true ↔ i = 0) ∧ (f.last = true ↔ i + 1 = flitCount p.body) ∧
       (f.last = true → f.msg = some p) ∧ f.payload.length = 240)) ∧
  ((∀ (s : State) (l : Nat), 16 ≤ l ∨ linkKind (s.linkReg l) = 0 → exec (.linkDown l) s = .next s) ∧
   (∀ (s : State) (l : Nat), l < 16 → linkKind (s.linkReg l) ≠ 0 →
     let k := s.link l
     exec (.linkDown l) s = .next ((s.modLink l (fun _ => {})).setLink l 0 (k.tx.filterMap (fun f => f.flit.msg) ++ k.queue))) ∧
   (∀ (s : State) (l : Nat) (v : Word), l < 16 → linkKind (s.linkReg l) = 0 → linkValueOk v = true →
     exec (.linkUp l v) s = .next ((s.modLink l (fun _ => {})).setLink l v [])) ∧
   (∀ (s : State) (l : Nat) (v : Word), 16 ≤ l ∨ linkKind (s.linkReg l) ≠ 0 ∨ linkValueOk v = false → exec (.linkUp l v) s = .next s) ∧
   (∀ v : Word, linkValueOk v = true ↔ (fld v 63 62 = 1 ∨ fld v 63 62 = 2) ∧ fld v 61 54 = 0 ∧ (fld v 43 40 = 7 ∨ fld v 43 40 = 8) ∧
     fld v 39 0 = 0 ∧ (fld v 63 62 = 2 → fld v 53 44 = 0)) ∧
   (∀ (s : State) (l : Nat), l < 16 → fld (s.linkReg l) 43 40 = 8 →
     exec (.laneSpare l) s = .next (s.setLink l (BitVec.ofNat 64 ((s.linkReg l).toNat - 2 ^ 40)) [])) ∧
   (∀ (s : State) (l : Nat), 16 ≤ l ∨ fld (s.linkReg l) 43 40 ≠ 8 → exec (.laneSpare l) s = .next s) ∧
   (∀ (s : State) (l : Nat) (v : Word) (ms : List Packet), s.setLink l v ms =
     let w := BitVec.ofNat 64 (v.toNat / 2 ^ 40 * 2 ^ 40 + (s.linkReg l).toNat % 2 ^ 32)
     let t : State := { s with sys := SMap.set 0 s.sys (0x510 + l) w }
     (ms.foldl State.reroute ((t.tell (.linkChange l)).rowChanged t.pkg s.ownRow t.ownRow)).announce) ∧
   (∀ (s : State) (p : Nat) (old new : List Word),
     s.rowChanged p old new = (s.ltgenUp.disturb p old new).pullsLost.unqueue.flushKept) ∧
   (∀ s : State, SMap.get 0 s.ltgenUp.sys 0x501 = BitVec.ofNat 64 (((SMap.get 0 s.sys 0x501).toNat + 1) % 2 ^ 32) ∧
     ∀ n, n ≠ 0x501 → SMap.get 0 s.ltgenUp.sys n = SMap.get 0 s.sys n) ∧
   (∀ (s : State) (n p : Nat) (m : Packet) (row : List Word), s.message n m → m.body = .linkRow p row →
     let t := s.takeMsg n
     let u := (({ t with linkTable := SMap.set [] t.linkTable p row } : State).rowChanged p (t.rowOf p) row).stillAligns
     (s.notFirst n = true → exec (.linkTableRow n) s = .next s) ∧
     (s.notFirst n = false → exec (.linkTableRow n) s =
       .next (if u.phase = .up ∧ referenceOf u.podUp = some u.pkg ∧ (u.routeLink p).isSome = true then u.sendTime p else u))) ∧
   (∀ (s : State) (p l : Nat), s.routeLink p = some l → l < 16 ∧
     ((linkKind (s.linkReg l) = 1 ∧ linkPeer (s.linkReg l) = p) ∨ (linkKind (s.linkReg l) = 2 ∧ ∃ w ∈ s.rowOf p, linkKind w = 2))) ∧
   (∀ (s : State) (m : Packet) (l : Nat), s.linkFor m = some l → passedOn m.body = false → s.routeLink (m.dst / 512) = some l) ∧
   (∀ (s : State) (n : Nat) (m : Packet), s.message n m → m.body = .event →
     exec (.remoteEventArrival n) s = .next ((s.takeMsg n).setEvent (m.dst % 512)) ∧
     (m.dst % 512 < 320 → (s.core (m.dst % 512)).evClr ≠ s.gtc + 1 →
       (((s.takeMsg n).setEvent (m.dst % 512)).core (m.dst % 512)).evbit = true)))

/-- Time and heat: a PTP message gives the host port its lock, within 24 cycles alone; in the pod reference it leaves its offset in SKEW, and
elsewhere SKEW keeps the offset from the reference; a lock lost is told; the GTC is never stepped; the pod reference is the lowest package with a
lock of its own, else the lowest; its GTC aligns a package that waits in dawn and gives any other its offset; throttling is at most 12 of every 16
cycles; the shutdown is told first and everything stops until the next dawn; modules come and go (R425, R426, R428, R454 to R456). Errors in
arrays: a corrected one changes no value and counts, one in SRAM, in ERRCNT of its core; an uncorrectable one stays at its word or line, or in the
operand records of a migrated product; a scrub that finds one tells the host and changes nothing, and a single one that it finds is corrected (R384,
R385, R457, R459). Which packages learn of a time, and what a lost route does to a package that waits for it, are the model's choice (log 96); so are that the removal
of a package's own module turns it off (log 80) and whether a scrub finds a single error, which is free (log 8). -/
def Obligations.PlatformEvents : Prop :=
  ((∀ (s : State) (locked : Bool) (o : BitVec 32), s.featureOff 3 = true → exec (.ptpMessage locked o) s = .next s) ∧
   (∀ (s : State) (locked : Bool) (o : BitVec 32), s.featureOff 3 = false →
     let t : State := { s with hostLock := locked && decide (o.toInt ≤ 24) && decide (-24 ≤ o.toInt) }
     (referenceOf t.podUp = some t.pkg → exec (.ptpMessage locked o) s = .next (t.setSkew locked o).tellTime) ∧
     (referenceOf t.podUp ≠ some t.pkg → exec (.ptpMessage locked o) s = .next t.tellTime)) ∧
   (∀ (s : State) (locked : Bool) (o : BitVec 32),
     let t := s.setSkew locked o
     let w := SMap.get 0 s.sys 0x502
     let x := SMap.get 0 t.sys 0x502
     t.gtc = s.gtc ∧ fld x 31 0 = o.toNat ∧ fld x 62 32 = 0 ∧ (fld x 63 63 = 1 ↔ locked = true ∧ o.toInt ≤ 24 ∧ -24 ≤ o.toInt) ∧
       (∀ n, n ≠ 0x502 → SMap.get 0 t.sys n = SMap.get 0 s.sys n) ∧
       (fld w 63 63 = 1 → fld x 63 63 = 0 → t.hostOut = (s.tell .lostLock).hostOut) ∧
       (fld w 63 63 = 0 ∨ fld x 63 63 = 1 → t.hostOut = s.hostOut)) ∧
   (∀ s : State,
     let t : State := { s with hostLock := false }
     (s.hostLock = false → exec .lostLock s = .next s) ∧
     (s.hostLock = true → referenceOf s.podUp = some s.pkg →
       exec .lostLock s = .next (t.setSkew false (BitVec.ofNat 32 (SMap.get 0 s.sys 0x502).toNat)).tellTime) ∧
     (s.hostLock = true → referenceOf s.podUp ≠ some s.pkg → exec .lostLock s = .next (t.tell .lostLock).tellTime)) ∧
   (∀ (ps : List (Nat × Bool)) (p : Nat), referenceOf ps = some p →
     ((p, true) ∈ ps ∧ ∀ q, (q, true) ∈ ps → p ≤ q) ∨ ((∀ x ∈ ps, x.2 = false) ∧ (p, false) ∈ ps ∧ ∀ x ∈ ps, p ≤ x.1)) ∧
   (∀ (s : State) (p g : Nat) (locked : Bool),
     let t : State := { s with podTime := s.podTime.filter (fun x => x.1 != p) ++ [(p, locked)] }
     let now := g + t.roundTrip p / 2
     (s.phase = .aligning → referenceOf t.podTime = some p → s.timeFrom p g locked = ({ t with gtc := now, phase := .up } : State).tellTime) ∧
     (s.phase = .aligning → referenceOf t.podTime ≠ some p → s.timeFrom p g locked = t) ∧
     (s.phase = .up → (s.timeFrom p g locked).gtc = s.gtc ∧
       ∀ off : BitVec 32, off = BitVec.ofInt 32 (Int.ofNat s.gtc - Int.ofNat now) → referenceOf t.podUp = some p →
         (∃ b, (p, b) ∈ s.podTime) → s.timeFrom p g locked = t.setSkew true off)) ∧
   (∀ (s : State) (d : Nat) (g : BitVec 4),
     (d < 4 → g.toNat ≤ 12 → ∃ t, exec (.throttle d g) s = .next t ∧ (t.die d).throttle = g ∧ ∀ e, e ≠ d → t.die e = s.die e) ∧
     (4 ≤ d ∨ 12 < g.toNat → exec (.throttle d g) s = .next s)) ∧
   (∀ s : State, exec .thermalShutdown s = .next { s.tell .shutdown with phase := .off, agenda := [] }) ∧
   (∀ s : State, s.phase = .off → s.agenda = [] → step s = .fault .packageOff) ∧
   (∀ (s : State) (p : Nat) (row : List Word),
     (p ≠ s.pkg → p < 64 → row.length = 16 → exec (.moduleInsert p row) s = .next
       (({ s.forgetPackage p with linkTable := SMap.set [] s.linkTable p row } : State).rowChanged p (s.rowOf p) row)) ∧
     (p = s.pkg ∨ 64 ≤ p ∨ row.length ≠ 16 → exec (.moduleInsert p row) s = .next s)) ∧
   (∀ (s : State) (p : Nat), (∀ x ∈ (s.forgetPackage p).podTime, x.1 ≠ p ∧ x ∈ s.podTime) ∧ ∀ n, (p, n) ∉ (s.forgetPackage p).taken) ∧
   (∀ s : State, ∃ t, exec (.moduleRemove s.pkg) s = .next t ∧ t.phase = .off) ∧
   (∀ (s : State) (p : Nat), p ≠ s.pkg → p < 64 →
     let gone := (List.range 16).filter (fun l => linkKind (s.linkReg l) == 1 && linkPeer (s.linkReg l) == p)
     let row : List Word := List.replicate 16 0
     let t : State := { s.forgetPackage p with linkTable := SMap.set [] s.linkTable p row }
     exec (.moduleRemove p) s = .next ((gone.foldl State.takeDown t).rowChanged p (s.rowOf p) row).stillAligns)) ∧
  ((∀ (s : State) (c a : Nat), c < 320 → ∃ t, exec (.arrayError (.sram c a) true) s = .next t ∧ t.mem = s.mem ∧ t.bad = s.bad ∧
     ((t.core c).reg 0x40B).toNat = (((s.core c).reg 0x40B).toNat + 1) % 2 ^ 32 ∧
     (∀ n, n ≠ 0x40B → (t.core c).reg n = (s.core c).reg n) ∧ (∀ d, d ≠ c → t.core d = s.core d)) ∧
   (∀ (s : State) (pa : Nat), exec (.arrayError (.dram pa) true) s = .next s ∧ exec (.arrayError (.slice pa) true) s = .next s) ∧
   (∀ (s : State) (pa : Nat), ∃ t, exec (.arrayError (.dram pa) false) s = .next t ∧ t.mem = s.mem ∧ t.cores = s.cores ∧
     (∀ x, SMap.get false t.bad x = true ↔ x / 64 = pa / 64 ∨ SMap.get false s.bad x = true) ∧
     (∀ x, x ∈ t.repairLog ↔ x = pa / 64 * 64 ∨ x ∈ s.repairLog)) ∧
   (∀ (s : State) (pa : Nat), ∃ t, exec (.arrayError (.slice pa) false) s = .next t ∧ t.mem = s.mem ∧ t.cores = s.cores ∧
     (∀ x, SMap.get false t.bad x = true ↔ x / 64 = pa / 64 ∨ SMap.get false s.bad x = true) ∧ t.repairLog = s.repairLog) ∧
   (∀ (s : State) (c a : Nat), ∃ t, exec (.arrayError (.sram c a) false) s = .next t ∧ t.mem = s.mem ∧ t.cores = s.cores ∧
     ∀ x, SMap.get false t.bad x = true ↔ (spAddr c (a / 8 * 8) ≤ x ∧ x < spAddr c (a / 8 * 8) + 8) ∨ SMap.get false s.bad x = true) ∧
   (∀ (s : State) (c n i : Nat) (b : Bool), s.records c n i = none → exec (.arrayError (.records c n i) b) s = .next s) ∧
   (∀ (s : State) (c n i : Nat) (p : Product), s.records c n i = some p →
     exec (.arrayError (.records c n i) true) s = .next (s.corrected p.by_) ∧
     exec (.arrayError (.records c n i) false) s =
       .next (s.modCore c (fun k => { k with mx := k.mx.map (fun x => if x = p then { x with bad := true } else x) })) ∧
     (p.bad = true → exec (.scrub (.records c n i)) s = .next (s.tell (.scrubError 0)))) ∧
   (∀ (s : State) (a : ArrayKind) (place : Nat × Nat),
     (∃ pa, (a = .dram pa ∨ a = .slice pa) ∧ place = (pa / 64 * 64, 64)) ∨ (∃ c x, a = .sram c x ∧ place = (spAddr c (x / 8 * 8), 8)) →
     ∀ x, s.hasBad place.1 place.2 = some x → exec (.scrub a) s = .next (s.tell (.scrubError x))) ∧
   (∀ (s : State) (a : ArrayKind),
     (∃ pa, (a = .dram pa ∨ a = .slice pa) ∧ s.hasBad (pa / 64 * 64) 64 = none) ∨
     (∃ c x, a = .sram c x ∧ s.hasBad (spAddr c (x / 8 * 8)) 8 = none) ∨
     (∃ c n i, a = .records c n i ∧ ∀ p, s.records c n i = some p → p.bad = false) →
     let t : State := { s with scrubs := s.scrubs + 1 }
     exec (.scrub a) s = .next (if Config.scrubSingle s.scrubs then t.correctedIn a else t)))

/-- Dawn: an image that verifies leaves the package up, or waiting for the pod reference's time where there is a reference and a route to it,
with GTC 0 or the reference's value, fresh cores, dies and registers, a spare in the place of a failed core as long as its quire has one, the lines
of the repair lists without an error, key slot 0 alone filled, no launches, the links that have trained, and the measurements extended by SHA3-256;
one that does not verify leaves recovery, with no core; the image of a dawn after a restart from recovery is the staged one; a live update that
verifies extends MV2 and changes neither launches nor engines, and each core's firmware goes over to it by itself, where it handles no trap; one
that does not verify changes nothing (R7, R421, R426, R449 to R451, R453, R457, R458). What dawn's firmware chooses is the model's configuration
(log 11); the working cores of a quire are taken in order (log 82), a package that has no route to the reference keeps its own time (log 96), and
the byte order of what is hashed and the verification's verdict are free or the model's choice (log 8), as is what a boundary of firmware is
(log 81). -/
def Obligations.DawnAndUpdate : Prop :=
  (∀ (k : DawnCfg) (s : State), s.phase = .up ∨ s.phase = .recovery ∨ s.phase = .aligning → exec (.dawn k) s = .next s) ∧
  (∀ (k : DawnCfg) (s : State), (s.staging = [] → s.imageOf k = k) ∧
    (s.staging ≠ [] → s.imageOf k = { k with digest := valueOf (sha3 s.staging) })) ∧
  (∀ mv digest : BitVec 256, extendMv mv digest = valueOf (sha3 (leBytes 32 mv.toNat ++ leBytes 32 digest.toNat))) ∧
  (∀ (k i : DawnCfg) (s : State), s.phase ≠ .up → s.phase ≠ .recovery → s.phase ≠ .aligning → i = s.imageOf k →
    (i.trusted = true ∨ Config.verifies i.digest i.signature = true) →
    let bad := k.failedCores ++ s.failedLog
    let works (c : Nat) : Prop := c % 8 < ((List.range 9).filter (fun i => !bad.contains (9 * quireOf c + i))).length
    ∃ t, exec (.dawn k) s = .next t ∧ t.pkg = k.pkgid.toNat ∧ t.launches = [] ∧ t.net = [] ∧ t.sessions = [] ∧ t.staging = [] ∧
      t.mem = s.mem ∧ t.hostOut = s.hostOut ∧ (∀ m ∈ t.kept, m.body = .linkRow t.pkg t.ownRow) ∧
      (∀ x, SMap.get false t.bad x = true ↔ SMap.get false s.bad x = true ∧ ∀ a ∈ k.repairs ++ s.repairLog, x < a ∨ a + 64 ≤ x) ∧
      (let ref := referenceOf (k.dawned.filter (fun x => x.1 != t.pkg))
       (ref = none → t.phase = .up ∧ t.gtc = 0) ∧
       (∀ p, ref = some p → t.hasRoute t.pkg p = false → t.phase = .up ∧ t.gtc = 0) ∧
       (∀ p v rtt, ref = some p → t.hasRoute t.pkg p = true → k.gtcFromRef = some (v, rtt) → t.phase = .up ∧ t.gtc = v + rtt / 2) ∧
       (∀ p, ref = some p → t.hasRoute t.pkg p = true → k.gtcFromRef = none → t.phase = .aligning)) ∧
      SMap.get 0 t.sys 0x501 = BitVec.ofNat 64 ((dawnLinks k).length + k.peers.length) ∧
      (∀ l, l < 16 → t.linkReg l = if linkValueOk (k.links.getD l 0) = true then k.links.getD l 0 else 0) ∧
      (∀ n, n ≠ 0 → SMap.get none t.keys n = none) ∧ (SMap.get none t.keys 0).isSome = true ∧
      (∀ x ∈ t.coreMap, quireOf x.1 = x.2 / 9 ∧ x.2 ∉ bad) ∧
      (∀ c, c < 320 → works c → (∃ p, (c, p) ∈ t.coreMap) ∧
        (∀ r, r ≠ .F → (t.core c).ctx r = Core.reset.ctx r) ∧ (t.core c).port = Core.reset.port ∧ (t.core c).reports = Core.reset.reports ∧
        (∀ n, (t.core c).chain n = Core.reset.chain n) ∧ (t.core c).failed = false ∧ (t.core c).image = k.version ∧
        (k.fwEntry ≠ 0 → (t.ctx c .F).pc = k.fwEntry ∧ (t.ctx c .F).run = .running)) ∧
      (∀ c, c < 320 → ¬ works c → (t.core c).failed = true) ∧
      (∀ q v, q < 40 → k.gens.find? (fun (g : Nat × Word) => g.1 == q) = some (q, v) → (t.quire q).gen = v) ∧
      (∀ d, d < 4 → (t.die d).mv = [extendMv 0 i.digest, extendMv 0 k.cfgDigest, 0, extendMv 0 k.repairDigest] ∧
        (t.die d).queues = [] ∧ (t.die d).firings = [] ∧ (t.die d).throttle = 0)) ∧
  (∀ (k i : DawnCfg) (s : State), s.phase ≠ .up → s.phase ≠ .recovery → s.phase ≠ .aligning → i = s.imageOf k → i.trusted = false →
    Config.verifies i.digest i.signature = false →
    ∃ t, exec (.dawn k) s = .next t ∧ t.phase = .recovery ∧ t.cores = [] ∧ t.launches = [] ∧ t.sessions = [] ∧ t.staging = [] ∧ t.mem = s.mem ∧
      ∀ d, d < 4 → (t.die d).mv = [extendMv 0 i.digest, 0, 0, 0]) ∧
  (∀ (s : State) (digest sig : BitVec 256) (v : Nat),
    (s.phase ≠ .up ∨ Config.verifies digest sig = false → exec (.liveUpdate digest sig v) s = .next s) ∧
    (s.phase = .up → Config.verifies digest sig = true → ∃ t, exec (.liveUpdate digest sig v) s = .next t ∧ t.version = v ∧ t.digest = digest ∧
      t.cores = s.cores ∧ t.launches = s.launches ∧ t.mem = s.mem ∧
      ∀ d, d < 4 → (s.die d).mv.length = 4 → (t.die d).mv = (s.die d).mv.set 2 (extendMv ((s.die d).mv.getD 2 0) digest) ∧
        (t.die d).queues = (s.die d).queues ∧ (t.die d).firings = (s.die d).firings)) ∧
  (∀ s t : State, s.switchTurn = some t → ∃ c k, (c, k) ∈ s.cores ∧ k.switches s.version = true ∧
    t = s.modCore c (fun x => { x with image := s.version })) ∧
  (∀ s : State, s.switchTurn = none → ∀ x ∈ s.cores, x.2.switches s.version = false) ∧
  (∀ (k : Core) (v : Nat),
    (k.switches v = true → k.image ≠ v ∧ k.failed = false ∧ k.hnd = false) ∧
    (k.image ≠ v → k.failed = false → k.hnd = false → k.ctxF.push = [] → k.ctxF.ending = none → k.ctxF.made = false →
      k.ctxF.run ≠ .sleeping → k.switches v = true))

/-- The host port: OPEN answers a new nonce with a signed report, which carries the nonce, the package, the measurements, the version and a key for the
session keys, and fixes the accepted features of a new session; a datagram that fails its tag is counted, one that uses a feature which its session
has not accepted dropped, one taken before or too far ahead dropped, one in its turn performed; at most 64 datagrams to the host are unacknowledged,
each with the next number; READ and WRITE are made as firmware of core 0 makes them, and a refused one sends its cause; recovery accepts WRITE into
the staging image and the restart alone (R427 to R429, R450, R452). That FEATURE0 and FEATURE1 show the session that was opened first, and how
answers and events are put into datagrams, are the model's choice (log 119); the signature and the key exchange are free (log 8), and how an
access of the host is judged rests on logs 70 and 71. -/
def Obligations.HostPort : Prop :=
  (∀ (s : State) (n : Nat) (nonce : BitVec 256) (features : BitVec 128),
    let old := SMap.get none s.sessions n
    let x := old.getD {}
    (s.phase ≠ .up → s.phase ≠ .recovery → exec (.hostOpen n nonce features) s = .next s) ∧
    (nonce ∈ x.nonces → exec (.hostOpen n nonce features) s = .next s) ∧
    ((s.phase = .up ∨ s.phase = .recovery) → nonce ∉ x.nonces →
      let pkg := BitVec.ofNat 6 s.pkg
      let mvs := (s.die 0).mv ++ (s.die 1).mv ++ (s.die 2).mv ++ (s.die 3).mv
      let kem := Config.kemKey s.dawns n x.nonces.length
      let secret := Config.kemSecret s.dawns n x.nonces.length
      let sig := Config.attest nonce pkg mvs 0x3F s.version kem
      ∃ t y, exec (.hostOpen n nonce features) s = .next t ∧
        t.hostOut = (s.tell (.attestation nonce pkg mvs 0x3F s.version kem sig (s.phase == .recovery))).hostOut ∧
        SMap.get none t.sessions n = some y ∧ y.nonces = x.nonces ++ [nonce] ∧
        y.rxKey = kmac256 secret (Config.kmacText 0) (Config.kmacCustom 0) ∧ y.txKey = kmac256 secret (Config.kmacText 1) (Config.kmacCustom 1) ∧
        (old = none → y.features = features &&& 0x3F) ∧ (old.isSome = true → y.features = x.features) ∧
        (s.sessions = [] → t.features = features &&& 0x3F ∧ SMap.get 0 t.sys 0x504 = (features &&& 0x3F).setWidth 64 ∧
          SMap.get 0 t.sys 0x505 = 0) ∧
        (s.sessions ≠ [] → t.features = s.features ∧ t.sys = s.sys))) ∧
  (∀ (s : State) (d : Datagram), SMap.get none s.sessions d.session = none → exec (.datagramReceive d) s = .next s) ∧
  (∀ (x : Session) (d : Datagram), x.lacks d = true ↔
    (d.v6 = true ∧ x.features.getLsbD 1 = false) ∨ (1500 < d.size ∧ x.features.getLsbD 2 = false)) ∧
  (∀ (x : Session) (a : BitVec 32) (b : BitVec 64),
    let y := x.taken a b
    y.nextSeq = x.nextSeq ∧ y.early = x.early ∧ y.features = x.features ∧ y.nonces = x.nonces ∧
      (x.waiting = [] → (∀ o, o ∈ y.flying ↔ o ∈ x.flying ∧ 64 ≤ (a - o.seq).toNat ∧
        ((o.seq - a).toNat < 2 ∨ 65 < (o.seq - a).toNat ∨ b.getLsbD ((o.seq - a).toNat - 2) = false)))) ∧
  (∀ (n : Nat) (x : Session),
    (x.waiting = [] ∨ 64 ≤ x.flying.length → Session.pump (n + 1) x = x) ∧
    (∀ o os, x.waiting = o :: os → x.flying.length < 64 → Session.pump (n + 1) x = Session.pump n { x with
      outSeq := x.outSeq + 1, waiting := os
      flying := x.flying ++ [{ seq := x.outSeq, ack := x.nextSeq - 1, sack := x.sack, out := o }] })) ∧
  (∀ (s : State) (d : Datagram) (x : Session), SMap.get none s.sessions d.session = some x →
    let y := x.taken d.ack d.sack
    (d.tagOk = false → exec (.datagramReceive d) s = .next { s with badTags := s.badTags + 1 }) ∧
    (d.tagOk = true → x.lacks d = true → exec (.datagramReceive d) s = .next s) ∧
    (d.tagOk = true → x.lacks d = false → 64 ≤ (d.seq - x.nextSeq).toNat ∨ (∃ e ∈ x.early, e.seq = d.seq) →
      exec (.datagramReceive d) s = .next { s with sessions := SMap.set none s.sessions d.session (some y) }) ∧
    (d.tagOk = true → x.lacks d = false → d.seq = x.nextSeq → x.early = [] →
      let one := SMap.set none s.sessions d.session (some { y with early := [d] })
      let two := SMap.set none one d.session (some { y with nextSeq := y.nextSeq + 1, early := [] })
      exec (.datagramReceive d) s =
        .next (State.drainSession d.session 63 ((({ s with sessions := two } : State).perform d.req).passOut (some d.session)))) ∧
    (d.tagOk = true → x.lacks d = false → 0 < (d.seq - x.nextSeq).toNat → (d.seq - x.nextSeq).toNat < 64 →
      (∀ e ∈ x.early, e.seq ≠ d.seq ∧ e.seq ≠ x.nextSeq) →
      exec (.datagramReceive d) s = .next { s with sessions := SMap.set none s.sessions d.session (some { y with early := y.early ++ [d] }) })) ∧
  (∀ (s : State) (pa len key : Nat),
    (s.phase = .recovery → exec (.hostRead pa len key) s = .next (s.tell (.refused 0 0))) ∧
    (s.phase = .up →
      (∀ f, s.hostParts pa len key false = .error f → exec (.hostRead pa len key) s = .next (s.tell (.refused f.cause f.sub))) ∧
      (∀ ps, s.hostParts pa len key false = .ok ps → s.engAdmits (.ctx 0 .F 0) false false ps →
        let k := (s.engLoaded (.ctx 0 .F 0) ps).release (.ctx 0 .F 0) .pkg
        exec (.hostRead pa len key) s = .next (k.1.tell (.reply ((s.engLoaded (.ctx 0 .F 0) ps).readParts ps)))))) ∧
  (∀ (s : State) (pa key : Nat) (data : List Byte),
    (s.phase = .recovery → exec (.hostWrite pa key data) s =
      .next (({ s with staging := stageBytes s.staging pa data } : State).tell .ack)) ∧
    (s.phase = .up →
      (∀ f, s.hostParts pa data.length key true = .error f → exec (.hostWrite pa key data) s = .next (s.tell (.refused f.cause f.sub))) ∧
      (∀ ps sc, s.hostParts pa data.length key true = .ok ps → s.engAdmits (.ctx 0 .F 0) true false ps →
        let t := s.record { agent := .ctx 0 .F 0, write := true, sync := false, spans := spansOf ps }
        sc = (scopeOf ((t.ctx 0 .F).reg 0x210).toNat).getD .core →
        let out (qs : List Part) : Touch := { agent := .ctx 0 .F 0, write := true, sync := false, spans := spansOf qs }
        let u := (t.hold (out (ps.filter (fun p => !p.leaf.holdable))) none).hold (out (ps.filter (fun p => p.leaf.holdable))) (some sc)
        exec (.hostWrite pa key data) s = .next (((u.writeParts ps data).release (.ctx 0 .F 0) .pkg).1.tell .ack)))) ∧
  (∀ (s : State) (pa len key : Nat) (w : Bool), len = 0 ∨ 8192 < len ∨ 8191 < key → ∃ f, s.hostParts pa len key w = .error f ∧ f.cause = 2) ∧
  (∀ s : State, (s.phase = .recovery → exec .restartRequest s = .next { s with phase := .reset, sessions := [] }) ∧
    (s.phase ≠ .recovery → exec .restartRequest s = .next s))
end

