-- ==== Sys2Proof/Laws/Access.lean ====
section
/-! SUPPORT. What an access of a context answers when nothing refuses it. -/
namespace Sys2Proof.Machine

/-- A multi-step access that nothing refuses goes on from the recorded state. -/
theorem admit_of {s : State} {w sync : Bool} {spans : List (Nat × Nat)} (bv : Nat → Nat) (k : State → Res)
    (h : s.admits w sync spans) : s.grant w sync spans bv k = k (s.record (s.access w sync spans)) := by
  obtain ⟨hc, hb⟩ := h
  unfold State.access at *
  unfold State.grant
  dsimp only
  rw [hc]
  cases w
  · simp only [Bool.false_eq_true, if_false] at hb ⊢
    rw [hb]
  · simp only [if_true] at hb ⊢
    rcases hb with hb | hb
    · rw [hb]; rfl
    · rw [hb, ite_self]

/-- A conflict traps with 0x22 (R239). -/
theorem admit_conflict {s : State} {w sync : Bool} {spans : List (Nat × Nat)} (bv : Nat → Nat) (k : State → Res) {l : Nat} {o : Agent}
    (h : s.clash (s.access w sync spans) = some (.conflict l o)) :
    s.grant w sync spans bv k = .trap 0x22 0 (BitVec.ofNat 64 (64 * l)) (s.agentWord o) := by
  unfold State.access at h
  unfold State.grant
  dsimp only
  rw [h]
  rfl

/-- An access that no waiting contribution of the context holds back goes on (R254). -/
theorem inOrder_of {s : State} {spans : List (Nat × Nat)} (k : Res) (h : s.contributes s.me spans = false) :
    s.inOrder spans k = k := by
  unfold State.inOrder
  rw [h]
  rfl

/-- An access that stands behind a contribution of its own context waits (R254). -/
theorem inOrder_behind {s : State} {spans : List (Nat × Nat)} (k : Res) (h : s.contributes s.me spans = true) :
    s.inOrder spans k = .sleep s .behind := by
  unfold State.inOrder
  rw [h]
  rfl

/-- A release that owes nothing is made at once (R254). -/
theorem settled_of {s : State} (k : Res) (h : s.owes s.me = false) : s.settled k = k := by
  unfold State.settled
  rw [h]
  rfl

/-- A release that owes a contribution waits (R254). -/
theorem settled_owes {s : State} (k : Res) (h : s.owes s.me = true) : s.settled k = .sleep s .behind := by
  unfold State.settled
  rw [h]
  rfl

/-- A readable range goes on with its parts. -/
theorem checked_read {s u : State} {range : List (Word × Nat)} {ps : List Part} (k : State → List Part → Res)
    (h : s.readable range u ps) : s.checked false range k = k u ps := by
  unfold State.readable at h
  unfold State.checked
  simp only [Bool.false_eq_true, if_false]
  rw [h]

/-- Nothing is found where no element satisfies the test. -/
theorem find_zip_none {α β : Type} {p : α × β → Bool} : ∀ (xs : List α) (ys : List β), (∀ x, ∀ y ∈ ys, p (x, y) = false) →
    (xs.zip ys).find? p = none
  | [], _, _ => by simp
  | _ :: _, [], _ => by simp
  | x :: xs, y :: ys, h => by
    rw [List.zip_cons_cons, List.find?_cons, h x y (List.mem_cons_self ..)]
    exact find_zip_none xs ys (fun a b hb => h a b (List.mem_cons_of_mem _ hb))

/-- A writable range goes on with its parts. -/
theorem checked_write {s u : State} {range : List (Word × Nat)} {ps : List Part} (k : State → List Part → Res)
    (h : s.writable range u ps) : s.checked true range k = k u ps := by
  obtain ⟨hx, hp⟩ := h
  unfold State.checked
  simp only [if_true]
  rw [hx]
  dsimp only
  rw [find_zip_none _ _ (fun a b hb => by
    cases hr : region b.pa with
    | decoded st off => exact absurd hr ((hp b hb).1 st off)
    | _ => rfl)]
  dsimp only
  rw [find_zip_none _ _ (fun a b hb => (hp b hb).2)]

/-- A global load that nothing refuses answers the bytes found. -/
theorem globalRead_of {s : State} {acq : Option Scope} {ps : List Part} (k : State → List Byte → Res)
    (h : s.admitsInOrder false acq.isSome (spansOf ps)) :
    s.globalRead acq ps k =
      (let u := s.record (s.access false acq.isSome (spansOf ps))
       k (if acq.isSome then u.loadAcquires acq (spansOf ps) else u) (u.readParts ps)) := by
  unfold State.globalRead
  dsimp only
  rw [admit_of _ _ h.2]
  split
  · rename_i hs; rw [inOrder_of _ (h.1 hs)]
  · rfl

/-- A global store that nothing refuses writes the bytes and releases. -/
theorem globalWrite_of {s : State} {rel : Option Scope} {ps : List Part} {bs : List Byte} (k : State → Res)
    (h : s.admitsInOrder true rel.isSome (spansOf ps)) (ho : s.mayRelease rel.isSome) :
    s.globalWrite rel ps bs k =
      (let u := (s.record (s.access true rel.isSome (spansOf ps))).writeParts ps bs
       let v := u.holdParts (rel.getD u.wscope) rel.isSome ps
       k (v.storeReleases rel rel.isSome (spansOf ps))) := by
  unfold State.globalWrite
  dsimp only
  rw [admit_of _ _ h.2]
  split
  · rename_i hs; rw [inOrder_of _ (h.1 hs), settled_of _ (ho hs)]
  · rfl

/-- A scratchpad load that nothing refuses answers the bytes found. -/
theorem spLoad_of {s : State} {ps : List (Nat × Nat)} (k : State → List Byte → Res)
    (h : s.admits false false (spSpans s.cur.core ps)) :
    s.spLoad ps k =
      (let u := s.record (s.access false false (spSpans s.cur.core ps))
       k u (ps.flatMap (fun p => u.raw (spAddr s.cur.core p.1) p.2))) := by
  unfold State.spLoad
  rw [admit_of _ _ h]

/-- A scratchpad store of a trio context that nothing refuses writes the bytes. -/
theorem spStore_of {s : State} {ps : List (Nat × Nat)} {bs : List Byte} (k : State → Res) (hr : s.cur.role ≠ .F)
    (h : s.admits true false (spSpans s.cur.core ps)) :
    s.spStore ps bs k =
      (let u := s.record (s.access true false (spSpans s.cur.core ps))
       k ((ps.foldl (fun x p => x.clearBad (spAddr s.cur.core p.1) p.2) u).writePieces s.cur.core ps bs)) := by
  unfold State.spStore
  dsimp only
  rw [if_neg hr]
  dsimp only
  rw [admit_of _ _ h]

end Sys2Proof.Machine
end

