-- ==== Sys2Proof/Laws/Encoding.lean ====
section
/-! SUPPORT. The fields of an assembled word are the fields that it was assembled from (spec 04 R63 to R80). -/
namespace Sys2Proof
open Sys2Proof.Machine

/-! The header -/

theorem hdrNat_lt (h : Hdr) : hdrNat h < 256 := by
  unfold hdrNat
  have := h.wait.isLt
  cases h.popL <;> cases h.popR <;> cases h.pushL <;> cases h.pushR <;> simp only [Bool.toNat_false, Bool.toNat_true] <;> omega

theorem hdrOf_hdrNat (h : Hdr) : hdrOf (hdrNat h) = h := by
  obtain ⟨w, a, b, c, d⟩ := h
  revert w; revert a b c d
  decide

/-! The layouts of R65 -/

theorem partsOf_eR {h : Hdr} {op d a b lo : Nat} (ho : op < 2 ^ 8) (hd : d < 2 ^ 6) (ha : a < 2 ^ 6) (hb : b < 2 ^ 6)
    (hl : lo < 2 ^ 30) : partsOf (eR h op d a b lo) = { h := h, op := op, d := d, a := a, b := b, lo := lo } := by
  have hh := hdrNat_lt h
  unfold partsOf eR
  have e0 : (hdrNat h * 2 ^ 56 + op * 2 ^ 48 + d * 2 ^ 42 + a * 2 ^ 36 + b * 2 ^ 30 + lo) / 2 ^ 56 = hdrNat h := by omega
  rw [e0, hdrOf_hdrNat]
  congr 1 <;> omega

theorem partsOf_eI {h : Hdr} {op d a fn imm : Nat} (ho : op < 2 ^ 8) (hd : d < 2 ^ 6) (ha : a < 2 ^ 6) (hf : fn < 2 ^ 4)
    (hi : imm < 2 ^ 32) :
    partsOf (eI h op d a fn imm) =
      { h := h, op := op, d := d, a := a, b := fn * 4 + imm / 2 ^ 30, lo := imm % 2 ^ 30 } := by
  have hh := hdrNat_lt h
  unfold partsOf eI
  have e0 : (hdrNat h * 2 ^ 56 + op * 2 ^ 48 + d * 2 ^ 42 + a * 2 ^ 36 + fn * 2 ^ 32 + imm) / 2 ^ 56 = hdrNat h := by omega
  rw [e0, hdrOf_hdrNat]
  congr 1 <;> omega

theorem loV_lt {c k ty ty2 rnd sat mm fn : Nat} (hc : c < 2 ^ 6) (hk : k < 8) (ht : ty < 16) (hu : ty2 < 16) (hr : rnd < 8)
    (hs : sat < 2) (hm : mm < 2) (hf : fn < 256) : loV c k ty ty2 rnd sat mm fn < 2 ^ 30 := by unfold loV; omega

theorem fieldsV_loV {c k ty ty2 rnd sat mm fn : Nat} (hk : k < 8) (ht : ty < 16) (hu : ty2 < 16) (hr : rnd < 8)
    (hs : sat < 2) (hm : mm < 2) (hf : fn < 256) :
    fieldsV (loV c k ty ty2 rnd sat mm fn) =
      { c := c, k := k, ty := ty, ty2 := ty2, rnd := rnd, sat := sat, mm := mm, fn := fn } := by
  unfold fieldsV loV; congr 1 <;> omega

theorem loM_lt {sty swz ord scope k off : Nat} (hs : sty < 8) (hw : swz < 8) (ho : ord < 4) (hc : scope < 8) (hk : k < 8)
    (hf : off < 2 ^ 16) : loM sty swz ord scope k off < 2 ^ 30 := by unfold loM; omega

theorem fieldsM_loM {sty swz ord scope k off : Nat} (hw : swz < 8) (ho : ord < 4) (hc : scope < 8) (hk : k < 8)
    (hf : off < 2 ^ 16) :
    fieldsM (loM sty swz ord scope k off) = { sty := sty, swz := swz, ord := ord, scope := scope, k := k, off := off } := by
  unfold fieldsM loM; congr 1 <;> omega

theorem loS_lt {fn sysn imm : Nat} (hf : fn < 2 ^ 6) (hs : sysn < 2 ^ 12) (hi : imm < 2 ^ 12) : loS fn sysn imm < 2 ^ 30 := by
  unfold loS; omega

theorem fieldsS_loS {fn sysn imm : Nat} (hs : sysn < 2 ^ 12) (hi : imm < 2 ^ 12) :
    fieldsS (loS fn sysn imm) = { fn := fn, sysn := sysn, imm := imm } := by
  unfold fieldsS loS; congr 1 <;> omega

/-! Operand classes (R69) -/

theorem gOf_toNat (g : GReg) : gOf g.toNat = some g := by
  unfold gOf; rw [if_pos g.isLt]; simp

theorem vOf_toNat (v : VReg) : vOf v.toNat = some v := by
  unfold vOf; rw [if_pos v.isLt]; simp

theorem bOf_toNat (b : BReg) : bOf b.toNat = some b := by
  unfold bOf; rw [if_pos b.isLt]; simp

theorem kOf_toNat (k : KReg) : kOf k.toNat = some k := by
  unfold kOf; rw [if_pos k.isLt]; simp

theorem tOf_toNat (t : TReg) : tOf t.toNat = some t := by
  unfold tOf; rw [if_pos t.isLt]; simp

theorem toNat_lt64 (g : BitVec 5) : g.toNat < 2 ^ 6 := by have := g.isLt; omega
theorem toNat3_lt64 (g : BitVec 3) : g.toNat < 2 ^ 6 := by have := g.isLt; omega
theorem toNat2_lt64 (g : BitVec 2) : g.toNat < 2 ^ 6 := by have := g.isLt; omega
theorem toNat3_lt8 (g : BitVec 3) : g.toNat < 8 := g.isLt
theorem bool_lt2 (b : Bool) : b.toNat < 2 := Bool.toNat_lt b
theorem bool_eq (b : Bool) : (b.toNat == 1) = b := by cases b <;> rfl

/-! Codes (R36, R45, R71 to R78) -/

theorem etyOf_etyCode (t : ETy) : etyOf (etyCode t) = some t := by cases t <;> rfl
theorem etyCode_lt (t : ETy) : etyCode t < 16 := by cases t <;> decide
theorem rmOf_rmCode (r : RmCode) : rmOf (rmCode r) = some r := by rcases r with ⟨⟨⟩⟩ | _ <;> rfl
theorem rmCode_lt (r : RmCode) : rmCode r < 8 := by rcases r with ⟨⟨⟩⟩ | _ <;> decide
theorem styOf_styCode (t : STy) : styOf (styCode t) = some t := by cases t <;> rfl
theorem styCode_lt (t : STy) : styCode t < 8 := by cases t <;> decide
theorem fstyOf_fstyCode (t : FSty) : fstyOf (fstyCode t) = some t := by cases t <;> rfl
theorem fstyCode_lt (t : FSty) : fstyCode t < 8 := by cases t <;> decide
theorem scopeOf_scopeNum (s : Scope) : scopeOf (scopeNum s) = some s := by cases s <;> rfl
theorem scopeNum_lt (s : Scope) : scopeNum s < 8 := by cases s <;> decide
theorem scopeNum_lt64 (s : Scope) : scopeNum s < 2 ^ 6 := by cases s <;> decide
theorem optScopeOf_acq (s : Option Scope) : optScopeOf 1 (acqOrd s) (optScope s) = some s := by
  rcases s with _ | ⟨⟨⟩⟩ <;> rfl
theorem optScopeOf_rel (s : Option Scope) : optScopeOf 2 (relOrd s) (optScope s) = some s := by
  rcases s with _ | ⟨⟨⟩⟩ <;> rfl
theorem acqOrd_lt (s : Option Scope) : acqOrd s < 4 := by rcases s with _ | ⟨⟨⟩⟩ <;> decide
theorem relOrd_lt (s : Option Scope) : relOrd s < 4 := by rcases s with _ | ⟨⟨⟩⟩ <;> decide
theorem optScope_lt (s : Option Scope) : optScope s < 8 := by rcases s with _ | ⟨⟨⟩⟩ <;> decide
theorem aordOf_aord (o : AOrd) : aordOf (aordNum o) (aordScope o) = some o := by
  rcases o with _ | ⟨⟨⟩⟩ | ⟨⟨⟩⟩ | ⟨⟨⟩⟩ <;> rfl
theorem aordNum_lt (o : AOrd) : aordNum o < 4 := by cases o <;> simp [aordNum]
theorem aordScope_lt (o : AOrd) : aordScope o < 8 := by rcases o with _ | ⟨⟨⟩⟩ | ⟨⟨⟩⟩ | ⟨⟨⟩⟩ <;> decide
theorem fordOf_fordNum (o : FOrd) : fordOf (fordNum o) = some o := by cases o <;> rfl
theorem condOf_condCode (c : Cond) : condOf (condCode c) = some c := by cases c <;> rfl
theorem condCode_lt (c : Cond) : condCode c < 16 := by cases c <;> decide
theorem vcondOf_vcondCode (c : VCond) : vcondOf (vcondCode c) = some c := by cases c <;> rfl
theorem vcondCode_lt (c : VCond) : vcondCode c < 256 := by cases c <;> decide
theorem kopOf_kopCode (o : KOp) : kopOf (kopCode o) (kopA o) (kopB o) = some o := by
  cases o <;> simp [kopOf, kopCode, kopA, kopB, kOf_toNat]
theorem kopCode_lt (o : KOp) : kopCode o < 256 := by cases o <;> simp [kopCode]
theorem kopA_lt (o : KOp) : kopA o < 2 ^ 6 := by cases o <;> first | exact toNat3_lt64 _ | simp [kopA]
theorem kopB_lt (o : KOp) : kopB o < 2 ^ 6 := by cases o <;> first | exact toNat3_lt64 _ | simp [kopB]
theorem permOf_permCode (o : PermOp) : permOf (permCode o) (permB o) = some o := by
  cases o <;> simp [permOf, permCode, permB, vOf_toNat, gOf_toNat]
theorem permCode_lt (o : PermOp) : permCode o < 256 := by cases o <;> simp [permCode]
theorem permB_lt (o : PermOp) : permB o < 2 ^ 6 := by cases o <;> first | exact toNat_lt64 _ | simp [permB]
theorem ropOf_ropCode (o : Rop) : ropOf (ropCode o) = some o := by cases o <;> rfl
theorem ropCode_lt (o : Rop) : ropCode o < 2 ^ 6 := by cases o <;> decide
theorem selOf_selCode (e : Sel) : selOf (selCode e) = some e := by cases e <;> rfl
theorem selCode_lt (e : Sel) : selCode e < 2 ^ 12 := by cases e <;> decide
theorem pathOf_pathNum (p : Path) : pathOf (pathNum p) = some p := by cases p <;> rfl
theorem pathNum_lt (p : Path) : pathNum p < 8 := by cases p <;> decide

/-! Whole words -/

theorem eR_lt {h : Hdr} {op d a b lo : Nat} (ho : op < 2 ^ 8) (hd : d < 2 ^ 6) (ha : a < 2 ^ 6) (hb : b < 2 ^ 6)
    (hl : lo < 2 ^ 30) : eR h op d a b lo < 2 ^ 64 := by
  have := hdrNat_lt h; unfold eR; omega

theorem eI_lt {h : Hdr} {op d a fn imm : Nat} (ho : op < 2 ^ 8) (hd : d < 2 ^ 6) (ha : a < 2 ^ 6) (hf : fn < 2 ^ 4)
    (hi : imm < 2 ^ 32) : eI h op d a fn imm < 2 ^ 64 := by
  have := hdrNat_lt h; unfold eI; omega

/-- A word with an assigned major is read by the part of the decoder for its range of majors (R79). -/
theorem parseWord_of {w : Nat} {p : Parts} {o : Option Instr} (hp : partsOf w = p) (hm : majorAssigned p.op = true)
    (h : (if p.op < 0x20 then decodeScalar p else if p.op < 0x40 then decodeControl p else if p.op < 0x60 then decodeArith p
      else if p.op < 0x80 then decodeMoves p else if p.op < 0xA0 then decodeParallel p else if p.op < 0xC0 then decodeGlobal p
      else decodeLate p) = o) : parseWord w = o := by
  subst hp; subst h; unfold parseWord; simp only [hm]; rfl

/-! Bytes -/

theorem leBytes_length (n x : Nat) : (leBytes n x).length = n := by
  induction n generalizing x with
  | zero => rfl
  | succ n ih => simp [leBytes, ih]

theorem leNat_leBytes (n x : Nat) : leNat (leBytes n x) = x % 256 ^ n := by
  induction n generalizing x with
  | zero => simp [leBytes, leNat, Nat.mod_one]
  | succ n ih =>
    have h8 : (BitVec.ofNat 8 x).toNat = x % 256 := rfl
    simp only [leBytes, leNat, ih, h8]
    rw [Nat.pow_succ, Nat.mul_comm (256 ^ n) 256, Nat.mod_mul]

end Sys2Proof
end

