-- ==== Sys2Proof/Laws/SMap.lean ====
section
/-! SUPPORT. Laws of the sparse tables: reading what was written, other keys, and the canonical form. -/
namespace Sys2Proof

variable {α : Type} [DecidableEq α] {d : α}

/-- A smaller bound is a weaker claim. -/
theorem SMap.wfFrom_mono {m : SMap α} {lo lo' : Nat} (h : SMap.wfFrom d lo m = true) (hl : lo' ≤ lo) :
    SMap.wfFrom d lo' m = true := by
  cases m with
  | nil => rfl
  | cons p m => simp only [SMap.wfFrom, Bool.and_eq_true, decide_eq_true_eq] at h ⊢; exact ⟨⟨by omega, h.1.2⟩, h.2⟩

/-- A canonical table has rising keys. -/
theorem SMap.rising_of_wfFrom {m : SMap α} {lo : Nat} (h : SMap.wfFrom d lo m = true) : SMap.rising lo m = true := by
  induction m generalizing lo with
  | nil => rfl
  | cons p m ih =>
    simp only [SMap.wfFrom, Bool.and_eq_true, decide_eq_true_eq] at h
    simp [SMap.rising, h.1.1, ih h.2]

/-- A smaller bound is a weaker claim. -/
theorem SMap.rising_mono {β : Type} {m : SMap β} {lo lo' : Nat} (h : SMap.rising lo m = true) (hl : lo' ≤ lo) :
    SMap.rising lo' m = true := by
  cases m with
  | nil => rfl
  | cons p m => simp only [SMap.rising, Bool.and_eq_true, decide_eq_true_eq] at h ⊢; exact ⟨by omega, h.2⟩

/-- Nothing is listed below the bound. -/
theorem SMap.get_below {β : Type} {d : β} {m : SMap β} {lo k : Nat} (h : SMap.rising lo m = true) (hk : k < lo) : SMap.get d m k = d := by
  induction m generalizing lo with
  | nil => rfl
  | cons p m ih =>
    simp only [SMap.rising, Bool.and_eq_true, decide_eq_true_eq] at h
    have h1 : k ≠ p.1 := by omega
    simp [SMap.get, h1, ih h.2 (by omega)]

/-- Dropping a key leaves the others. -/
theorem SMap.get_drop_of_ne {β : Type} {d : β} {m : SMap β} {j k : Nat} (h : j ≠ k) : SMap.get d (SMap.drop k m) j = SMap.get d m j := by
  induction m with
  | nil => rfl
  | cons p m ih =>
    unfold SMap.drop at ih ⊢
    by_cases hp : p.1 = k
    · have : j ≠ p.1 := by omega
      simp [hp, SMap.get, ih, h]
    · simp [hp, SMap.get, ih]

/-- A dropped key is not listed. -/
theorem SMap.get_drop_self {β : Type} {d : β} {m : SMap β} {k : Nat} : SMap.get d (SMap.drop k m) k = d := by
  induction m with
  | nil => rfl
  | cons p m ih =>
    unfold SMap.drop at ih ⊢
    by_cases hp : p.1 = k
    · simp [hp, ih]
    · have : k ≠ p.1 := fun e => hp e.symm
      simp [hp, SMap.get, ih, this]

/-- Dropping keeps the keys rising. -/
theorem SMap.rising_drop {β : Type} {m : SMap β} {lo : Nat} (k : Nat) (h : SMap.rising lo m = true) :
    SMap.rising lo (SMap.drop k m) = true := by
  induction m generalizing lo with
  | nil => rfl
  | cons p m ih =>
    simp only [SMap.rising, Bool.and_eq_true, decide_eq_true_eq] at h
    have := ih h.2
    unfold SMap.drop at this ⊢
    by_cases hp : p.1 = k
    · simp only [List.filter_cons, hp, bne_self_eq_false, Bool.false_eq_true, if_false]; subst hp
      exact SMap.rising_mono this (by omega)
    · simp [hp, SMap.rising, h.1, this]

/-- Dropping keeps the canonical form. -/
theorem SMap.wfFrom_drop {m : SMap α} {lo : Nat} (k : Nat) (h : SMap.wfFrom d lo m = true) :
    SMap.wfFrom d lo (SMap.drop k m) = true := by
  induction m generalizing lo with
  | nil => rfl
  | cons p m ih =>
    simp only [SMap.wfFrom, Bool.and_eq_true, decide_eq_true_eq] at h
    have := ih h.2
    unfold SMap.drop at this ⊢
    by_cases hp : p.1 = k
    · simp only [List.filter_cons, hp, bne_self_eq_false, Bool.false_eq_true, if_false]; subst hp
      exact SMap.wfFrom_mono this (by omega)
    · simp [hp, SMap.wfFrom, h.1, this]

/-- A write keeps the keys rising. -/
theorem SMap.rising_set {m : SMap α} {lo k : Nat} (v : α) (h : SMap.rising lo m = true) (hk : lo ≤ k) :
    SMap.rising lo (SMap.set d m k v) = true := by
  induction m generalizing lo with
  | nil => unfold SMap.set; split <;> simp_all [SMap.rising]
  | cons p m ih =>
    simp only [SMap.rising, Bool.and_eq_true, decide_eq_true_eq] at h
    obtain ⟨hlo, hm⟩ := h
    unfold SMap.set
    split
    · next he =>
      split
      · exact SMap.rising_mono (SMap.rising_drop k hm) (by omega)
      · subst he; simp [SMap.rising, hlo, hm]
    · next he =>
      split
      · split
        · simp [SMap.rising, hlo, SMap.rising_drop k hm]
        · simp only [SMap.rising, Bool.and_eq_true, decide_eq_true_eq]; exact ⟨hk, by omega, hm⟩
      · simp [SMap.rising, hlo, ih hm (by omega)]

/-- A change of the values keeps the keys rising. -/
theorem SMap.rising_map {β γ : Type} {m : SMap β} {lo : Nat} (f : Nat × β → γ) (h : SMap.rising lo m = true) :
    SMap.rising lo (m.map (fun p => (p.1, f p))) = true := by
  induction m generalizing lo with
  | nil => rfl
  | cons p m ih =>
    simp only [SMap.rising, Bool.and_eq_true, decide_eq_true_eq] at h
    simp [SMap.rising, h.1, ih h.2]

/-- A write keeps the canonical form. -/
theorem SMap.wfFrom_set {m : SMap α} {lo k : Nat} (v : α) (h : SMap.wfFrom d lo m = true) (hk : lo ≤ k) :
    SMap.wfFrom d lo (SMap.set d m k v) = true := by
  induction m generalizing lo with
  | nil =>
    unfold SMap.set
    split <;> simp_all [SMap.wfFrom]
  | cons p m ih =>
    simp only [SMap.wfFrom, Bool.and_eq_true, decide_eq_true_eq] at h
    obtain ⟨⟨hlo, hne⟩, hm⟩ := h
    unfold SMap.set
    split
    · next he =>
      split
      · exact SMap.wfFrom_mono (SMap.wfFrom_drop k hm) (by omega)
      · next hv => subst he; simp [SMap.wfFrom, hlo, hv, hm]
    · next he =>
      split
      · next hlt =>
        split
        · simp [SMap.wfFrom, hlo, hne, SMap.wfFrom_drop k hm]
        · next hv =>
          simp only [SMap.wfFrom, Bool.and_eq_true, decide_eq_true_eq]
          exact ⟨⟨hk, hv⟩, ⟨by omega, hne⟩, hm⟩
      · next hlt =>
        have := ih hm (by omega)
        simp [SMap.wfFrom, hlo, hne, this]

/-- A write keeps the canonical form of a whole table. -/
theorem SMap.wf_set {m : SMap α} (k : Nat) (v : α) (h : SMap.wf d m = true) : SMap.wf d (SMap.set d m k v) = true :=
  SMap.wfFrom_set v h (Nat.zero_le k)

/-- A read at another key is as before the write. -/
theorem SMap.get_set_of_ne {m : SMap α} {j k : Nat} (v : α) (hjk : j ≠ k) :
    SMap.get d (SMap.set d m k v) j = SMap.get d m j := by
  induction m with
  | nil => unfold SMap.set; split <;> simp [SMap.get, hjk]
  | cons p m ih =>
    unfold SMap.set
    split
    · next he =>
      split
      · have : j ≠ p.1 := by omega
        simp [SMap.get, this, SMap.get_drop_of_ne hjk]
      · subst he; simp [SMap.get, hjk]
    · split
      · split
        · simp [SMap.get, SMap.get_drop_of_ne hjk]
        · simp [SMap.get, hjk]
      · simp only [SMap.get, ih]

/-- A read gives what was written. -/
theorem SMap.get_set_self {m : SMap α} (k : Nat) (v : α) : SMap.get d (SMap.set d m k v) k = v := by
  induction m with
  | nil => unfold SMap.set; split <;> simp_all [SMap.get]
  | cons p m ih =>
    unfold SMap.set
    split
    · next he =>
      split
      · next hv => rw [SMap.get_drop_self, hv]
      · simp [SMap.get]
    · next he =>
      split
      · split
        · next hv => simp [SMap.get, he, hv, SMap.get_drop_self]
        · simp [SMap.get]
      · simp [SMap.get, he, ih]

/-! Runs of keys -/

/-- The entries below a key stay canonical. -/
theorem SMap.wfFrom_below {m : SMap α} {lo : Nat} (a : Nat) (h : SMap.wfFrom d lo m = true) :
    SMap.wfFrom d lo (SMap.below a m) = true := by
  induction m generalizing lo with
  | nil => rfl
  | cons p m ih =>
    simp only [SMap.wfFrom, Bool.and_eq_true, decide_eq_true_eq] at h
    unfold SMap.below
    split
    · simp [SMap.wfFrom, h.1.1, h.1.2, ih h.2]
    · rfl

/-- The entries from a key on are canonical from it. -/
theorem SMap.wfFrom_from {m : SMap α} {lo : Nat} (a : Nat) (h : SMap.wfFrom d lo m = true) :
    SMap.wfFrom d a (SMap.from a m) = true := by
  induction m generalizing lo with
  | nil => rfl
  | cons p m ih =>
    simp only [SMap.wfFrom, Bool.and_eq_true, decide_eq_true_eq] at h
    unfold SMap.from
    split
    · exact ih h.2
    · next hl => simp only [SMap.wfFrom, Bool.and_eq_true, decide_eq_true_eq]; exact ⟨⟨by omega, h.1.2⟩, h.2⟩

/-- Listed values are canonical. -/
theorem SMap.wfFrom_listed (a : Nat) (vs : List α) : SMap.wfFrom d a (SMap.listed d a vs) = true := by
  induction vs generalizing a with
  | nil => rfl
  | cons v vs ih =>
    unfold SMap.listed
    split
    · exact SMap.wfFrom_mono (ih (a + 1)) (Nat.le_succ a)
    · next hv => simp [SMap.wfFrom, hv, ih (a + 1)]

/-- A canonical table below `a`, followed by one that starts at `a` or later. -/
theorem SMap.wfFrom_append {m n : SMap α} {lo a : Nat} (hm : SMap.wfFrom d lo m = true) (hn : SMap.wfFrom d a n = true)
    (hlo : lo ≤ a) (hb : ∀ p ∈ m, p.1 < a) : SMap.wfFrom d lo (m ++ n) = true := by
  induction m generalizing lo with
  | nil => exact SMap.wfFrom_mono hn hlo
  | cons p m ih =>
    simp only [SMap.wfFrom, Bool.and_eq_true, decide_eq_true_eq, List.cons_append] at hm ⊢
    exact ⟨hm.1, ih hm.2 (hb p (List.mem_cons_self ..)) (fun q hq => hb q (List.mem_cons_of_mem _ hq))⟩

/-- Keys below `a`. -/
theorem SMap.below_lt {β : Type} {m : SMap β} {a : Nat} : ∀ p ∈ SMap.below a m, p.1 < a := by
  induction m with
  | nil => intro p hp; cases hp
  | cons q m ih =>
    intro p hp
    unfold SMap.below at hp
    split at hp
    · next hq =>
      rcases List.mem_cons.1 hp with h | h
      · subst h; exact hq
      · exact ih p h
    · cases hp

/-- Keys of listed values. -/
theorem SMap.listed_lt {a : Nat} {vs : List α} : ∀ p ∈ SMap.listed d a vs, p.1 < a + vs.length := by
  induction vs generalizing a with
  | nil => intro p hp; cases hp
  | cons v vs ih =>
    intro p hp
    unfold SMap.listed at hp
    simp only [List.length_cons]
    split at hp
    · have := ih p hp; omega
    · rcases List.mem_cons.1 hp with h | h
      · subst h; show a < _; omega
      · have := ih p h; omega

/-- Writing a run of values keeps the canonical form. -/
theorem SMap.wf_write {m : SMap α} (a : Nat) (vs : List α) (h : SMap.wf d m = true) :
    SMap.wf d (SMap.write d m a vs) = true := by
  unfold SMap.wf SMap.write
  have hb := SMap.wfFrom_below (d := d) a h
  have hf := SMap.wfFrom_from (d := d) (a + vs.length) h
  have hl := SMap.wfFrom_listed (d := d) a vs
  exact SMap.wfFrom_append hb (SMap.wfFrom_append hl hf (Nat.le_add_right ..) SMap.listed_lt) (Nat.zero_le a) SMap.below_lt

/-! Runs read back -/

/-- The entries from `a` on answer as the table does at every key that is not below `a`. -/
theorem SMap.get_from {β : Type} {d : β} {m : SMap β} {lo a k : Nat} (h : SMap.rising lo m = true) (hk : a ≤ k) :
    SMap.get d (SMap.from a m) k = SMap.get d m k := by
  induction m generalizing lo with
  | nil => rfl
  | cons p m ih =>
    simp only [SMap.rising, Bool.and_eq_true, decide_eq_true_eq] at h
    unfold SMap.from
    split
    · next hp =>
      rw [ih h.2]
      have h1 : k ≠ p.1 := by omega
      simp [SMap.get, h1]
    · rfl

/-- The entries from `a` on have rising keys. -/
theorem SMap.rising_from {β : Type} {m : SMap β} {lo : Nat} (a : Nat) (h : SMap.rising lo m = true) :
    SMap.rising a (SMap.from a m) = true := by
  induction m generalizing lo with
  | nil => rfl
  | cons p m ih =>
    simp only [SMap.rising, Bool.and_eq_true, decide_eq_true_eq] at h
    unfold SMap.from
    split
    · exact ih h.2
    · simp only [SMap.rising, Bool.and_eq_true, decide_eq_true_eq]; exact ⟨by omega, h.2⟩

/-- A run of one key is what the table holds there. -/
theorem SMap.read_one {β : Type} {d : β} {m : SMap β} {lo a : Nat} (h : SMap.rising lo m = true) :
    SMap.read d m a 1 = [SMap.get d m a] := by
  unfold SMap.read
  rw [← SMap.get_from (a := a) h (Nat.le_refl a)]
  generalize hm : SMap.from a m = x
  cases x with
  | nil => rfl
  | cons p x =>
    have hp : ¬ p.1 < a := by
      intro hlt
      clear h
      induction m with
      | nil => cases hm
      | cons q m ih =>
        unfold SMap.from at hm
        split at hm
        · exact ih hm
        · next hq => cases hm; exact hq hlt
    have hr : SMap.rising a (p :: x) = true := hm ▸ SMap.rising_from a h
    simp only [SMap.rising, Bool.and_eq_true, decide_eq_true_eq] at hr
    by_cases he : p.1 = a
    · simp [SMap.takeFrom, SMap.get, he]
    · have h1 : a ≠ p.1 := fun h => he h.symm
      simp [SMap.takeFrom, SMap.get, he, h1, SMap.get_below hr.2 (show a < p.1 + 1 by omega)]

/-- Entries before `a` answer for keys below `a`. -/
theorem SMap.get_below_append {β : Type} {d : β} {m n : SMap β} {lo a k : Nat} (h : SMap.rising lo m = true) (hn : SMap.rising a n = true)
    (hk : k < a) : SMap.get d (SMap.below a m ++ n) k = SMap.get d m k := by
  induction m generalizing lo with
  | nil => exact SMap.get_below hn hk
  | cons p m ih =>
    simp only [SMap.rising, Bool.and_eq_true, decide_eq_true_eq] at h
    unfold SMap.below
    split
    · simp only [List.cons_append, SMap.get, ih h.2]
    · next hp =>
      have h1 : k ≠ p.1 := by omega
      rw [List.nil_append, SMap.get_below hn hk]
      simp [SMap.get, h1, SMap.get_below h.2 (show k < p.1 + 1 by omega)]

/-- Entries from `a` on answer for keys not below `a`. -/
theorem SMap.get_append_of_lt {β : Type} {d : β} {m n : SMap β} {k : Nat} (hb : ∀ p ∈ m, p.1 < k) :
    SMap.get d (m ++ n) k = SMap.get d n k := by
  induction m with
  | nil => rfl
  | cons p m ih =>
    have hp := hb p (List.mem_cons_self ..)
    have h1 : k ≠ p.1 := by omega
    simp only [List.cons_append, SMap.get, h1, if_false]
    exact ih (fun q hq => hb q (List.mem_cons_of_mem _ hq))

/-- Listed values read back. -/
theorem SMap.get_listed (a : Nat) (vs : List α) (n : SMap α) (hn : SMap.rising (a + vs.length) n = true) (i : Nat) (hi : i < vs.length) :
    SMap.get d (SMap.listed d a vs ++ n) (a + i) = vs[i] := by
  induction vs generalizing a i with
  | nil => simp at hi
  | cons v vs ih =>
    have hn' : SMap.rising (a + 1 + vs.length) n = true := by
      rw [show a + 1 + vs.length = a + (v :: vs).length by simp; omega]; exact hn
    have hr : SMap.rising (a + 1) (SMap.listed d (a + 1) vs ++ n) = true := by
      clear ih hi hn
      induction vs generalizing a with
      | nil => exact hn'
      | cons w ws ih =>
        unfold SMap.listed
        have hw : SMap.rising (a + 1 + 1 + ws.length) n = true := by
          rw [show a + 1 + 1 + ws.length = a + 1 + (w :: ws).length by simp; omega]; exact hn'
        have := ih (a := a + 1) hw
        split
        · exact SMap.rising_mono this (Nat.le_succ _)
        · simp [SMap.rising, this]
    unfold SMap.listed
    cases i with
    | zero =>
      split
      · next hv => rw [SMap.get_below hr (by omega)]; simp [hv]
      · simp [SMap.get]
    | succ i =>
      have hlen : i < vs.length := by simpa using hi
      have hg := ih (a + 1) hn' i hlen
      rw [show a + (i + 1) = a + 1 + i by omega]
      split
      · simpa using hg
      · have h1 : a + 1 + i ≠ a := by omega
        simp only [List.cons_append, SMap.get, h1, if_false]
        simpa using hg

/-- Listed values, then the entries after them, have rising keys. -/
theorem SMap.rising_listed_append (a : Nat) (vs : List α) (n : SMap α) (hn : SMap.rising (a + vs.length) n = true) :
    SMap.rising a (SMap.listed d a vs ++ n) = true := by
  induction vs generalizing a with
  | nil => exact hn
  | cons v vs ih =>
    have := ih (a + 1) (by rw [show a + 1 + vs.length = a + (v :: vs).length by simp; omega]; exact hn)
    unfold SMap.listed
    split
    · exact SMap.rising_mono this (Nat.le_succ a)
    · simp [SMap.rising, this]

/-- What a run of values leaves at a key: the value written there, or what was there. -/
theorem SMap.get_write {m : SMap α} {lo : Nat} (a : Nat) (vs : List α) (h : SMap.rising lo m = true) (k : Nat) :
    SMap.get d (SMap.write d m a vs) k = if hk : a ≤ k ∧ k < a + vs.length then vs[k - a]'(by omega) else SMap.get d m k := by
  have hf := SMap.rising_from (a + vs.length) h
  have hl := SMap.rising_listed_append (d := d) a vs _ hf
  unfold SMap.write
  by_cases h1 : k < a
  · rw [SMap.get_below_append h hl h1, dif_neg (by omega)]
  · rw [SMap.get_append_of_lt (fun p hp => by have := SMap.below_lt p hp; omega)]
    by_cases h2 : k < a + vs.length
    · rw [dif_pos ⟨by omega, h2⟩]
      have := SMap.get_listed (d := d) a vs _ hf (k - a) (by omega)
      rwa [show a + (k - a) = k by omega] at this
    · rw [dif_neg (by omega), SMap.get_append_of_lt (fun p hp => by have := SMap.listed_lt p hp; omega)]
      exact SMap.get_from h (by omega)

end Sys2Proof
end

