-- ==== Sys2Proof/Laws/State.lean ====
section
/-! SUPPORT. One law per field per update of the state: what an update leaves as it was, and what it changes. -/
namespace Sys2Proof.Machine

variable (s : State)

/-! setCore -/

@[simp] theorem State.setCore_gtc (c : Nat) (v : Core) : (s.setCore c v).gtc = s.gtc := rfl
@[simp] theorem State.setCore_phase (c : Nat) (v : Core) : (s.setCore c v).phase = s.phase := rfl
@[simp] theorem State.setCore_mem (c : Nat) (v : Core) : (s.setCore c v).mem = s.mem := rfl
@[simp] theorem State.setCore_lineKey (c : Nat) (v : Core) : (s.setCore c v).lineKey = s.lineKey := rfl
@[simp] theorem State.setCore_keys (c : Nat) (v : Core) : (s.setCore c v).keys = s.keys := rfl
@[simp] theorem State.setCore_keySerial (c : Nat) (v : Core) : (s.setCore c v).keySerial = s.keySerial := rfl
@[simp] theorem State.setCore_bad (c : Nat) (v : Core) : (s.setCore c v).bad = s.bad := rfl
@[simp] theorem State.setCore_quires (c : Nat) (v : Core) : (s.setCore c v).quires = s.quires := rfl
@[simp] theorem State.setCore_dies (c : Nat) (v : Core) : (s.setCore c v).dies = s.dies := rfl
@[simp] theorem State.setCore_sys (c : Nat) (v : Core) : (s.setCore c v).sys = s.sys := rfl
@[simp] theorem State.setCore_order (c : Nat) (v : Core) : (s.setCore c v).order = s.order := rfl
@[simp] theorem State.setCore_launches (c : Nat) (v : Core) : (s.setCore c v).launches = s.launches := rfl
@[simp] theorem State.setCore_pushSeq (c : Nat) (v : Core) : (s.setCore c v).pushSeq = s.pushSeq := rfl
@[simp] theorem State.setCore_started (c : Nat) (v : Core) : (s.setCore c v).started = s.started := rfl
@[simp] theorem State.setCore_forcedList (c : Nat) (v : Core) : (s.setCore c v).forcedList = s.forcedList := rfl
@[simp] theorem State.setCore_preempt (c : Nat) (v : Core) : (s.setCore c v).preempt = s.preempt := rfl
@[simp] theorem State.setCore_images (c : Nat) (v : Core) : (s.setCore c v).images = s.images := rfl
@[simp] theorem State.setCore_links (c : Nat) (v : Core) : (s.setCore c v).links = s.links := rfl
@[simp] theorem State.setCore_linkTable (c : Nat) (v : Core) : (s.setCore c v).linkTable = s.linkTable := rfl
@[simp] theorem State.setCore_mseq (c : Nat) (v : Core) : (s.setCore c v).mseq = s.mseq := rfl
@[simp] theorem State.setCore_taken (c : Nat) (v : Core) : (s.setCore c v).taken = s.taken := rfl
@[simp] theorem State.setCore_net (c : Nat) (v : Core) : (s.setCore c v).net = s.net := rfl
@[simp] theorem State.setCore_kept (c : Nat) (v : Core) : (s.setCore c v).kept = s.kept := rfl
@[simp] theorem State.setCore_sessions (c : Nat) (v : Core) : (s.setCore c v).sessions = s.sessions := rfl
@[simp] theorem State.setCore_hostOut (c : Nat) (v : Core) : (s.setCore c v).hostOut = s.hostOut := rfl
@[simp] theorem State.setCore_staging (c : Nat) (v : Core) : (s.setCore c v).staging = s.staging := rfl
@[simp] theorem State.setCore_badTags (c : Nat) (v : Core) : (s.setCore c v).badTags = s.badTags := rfl
@[simp] theorem State.setCore_failedLog (c : Nat) (v : Core) : (s.setCore c v).failedLog = s.failedLog := rfl
@[simp] theorem State.setCore_digest (c : Nat) (v : Core) : (s.setCore c v).digest = s.digest := rfl
@[simp] theorem State.setCore_version (c : Nat) (v : Core) : (s.setCore c v).version = s.version := rfl
@[simp] theorem State.setCore_features (c : Nat) (v : Core) : (s.setCore c v).features = s.features := rfl
@[simp] theorem State.setCore_dawns (c : Nat) (v : Core) : (s.setCore c v).dawns = s.dawns := rfl
@[simp] theorem State.setCore_dawnCfg (c : Nat) (v : Core) : (s.setCore c v).dawnCfg = s.dawnCfg := rfl
@[simp] theorem State.setCore_late (c : Nat) (v : Core) : (s.setCore c v).late = s.late := rfl
@[simp] theorem State.setCore_coreMap (c : Nat) (v : Core) : (s.setCore c v).coreMap = s.coreMap := rfl
@[simp] theorem State.setCore_podTime (c : Nat) (v : Core) : (s.setCore c v).podTime = s.podTime := rfl
@[simp] theorem State.setCore_hostLock (c : Nat) (v : Core) : (s.setCore c v).hostLock = s.hostLock := rfl
@[simp] theorem State.setCore_agenda (c : Nat) (v : Core) : (s.setCore c v).agenda = s.agenda := rfl
@[simp] theorem State.setCore_cur (c : Nat) (v : Core) : (s.setCore c v).cur = s.cur := rfl
@[simp] theorem State.setCore_hostSeen (c : Nat) (v : Core) : (s.setCore c v).hostSeen = s.hostSeen := rfl
@[simp] theorem State.setCore_kicks (c : Nat) (v : Core) : (s.setCore c v).kicks = s.kicks := rfl
@[simp] theorem State.setCore_repairLog (c : Nat) (v : Core) : (s.setCore c v).repairLog = s.repairLog := rfl
@[simp] theorem State.setCore_scrubs (c : Nat) (v : Core) : (s.setCore c v).scrubs = s.scrubs := rfl

/-! modCore -/

@[simp] theorem State.modCore_gtc (c : Nat) (f : Core → Core) : (s.modCore c f).gtc = s.gtc := rfl
@[simp] theorem State.modCore_phase (c : Nat) (f : Core → Core) : (s.modCore c f).phase = s.phase := rfl
@[simp] theorem State.modCore_mem (c : Nat) (f : Core → Core) : (s.modCore c f).mem = s.mem := rfl
@[simp] theorem State.modCore_lineKey (c : Nat) (f : Core → Core) : (s.modCore c f).lineKey = s.lineKey := rfl
@[simp] theorem State.modCore_keys (c : Nat) (f : Core → Core) : (s.modCore c f).keys = s.keys := rfl
@[simp] theorem State.modCore_keySerial (c : Nat) (f : Core → Core) : (s.modCore c f).keySerial = s.keySerial := rfl
@[simp] theorem State.modCore_bad (c : Nat) (f : Core → Core) : (s.modCore c f).bad = s.bad := rfl
@[simp] theorem State.modCore_quires (c : Nat) (f : Core → Core) : (s.modCore c f).quires = s.quires := rfl
@[simp] theorem State.modCore_dies (c : Nat) (f : Core → Core) : (s.modCore c f).dies = s.dies := rfl
@[simp] theorem State.modCore_sys (c : Nat) (f : Core → Core) : (s.modCore c f).sys = s.sys := rfl
@[simp] theorem State.modCore_order (c : Nat) (f : Core → Core) : (s.modCore c f).order = s.order := rfl
@[simp] theorem State.modCore_launches (c : Nat) (f : Core → Core) : (s.modCore c f).launches = s.launches := rfl
@[simp] theorem State.modCore_pushSeq (c : Nat) (f : Core → Core) : (s.modCore c f).pushSeq = s.pushSeq := rfl
@[simp] theorem State.modCore_started (c : Nat) (f : Core → Core) : (s.modCore c f).started = s.started := rfl
@[simp] theorem State.modCore_forcedList (c : Nat) (f : Core → Core) : (s.modCore c f).forcedList = s.forcedList := rfl
@[simp] theorem State.modCore_preempt (c : Nat) (f : Core → Core) : (s.modCore c f).preempt = s.preempt := rfl
@[simp] theorem State.modCore_images (c : Nat) (f : Core → Core) : (s.modCore c f).images = s.images := rfl
@[simp] theorem State.modCore_links (c : Nat) (f : Core → Core) : (s.modCore c f).links = s.links := rfl
@[simp] theorem State.modCore_linkTable (c : Nat) (f : Core → Core) : (s.modCore c f).linkTable = s.linkTable := rfl
@[simp] theorem State.modCore_mseq (c : Nat) (f : Core → Core) : (s.modCore c f).mseq = s.mseq := rfl
@[simp] theorem State.modCore_taken (c : Nat) (f : Core → Core) : (s.modCore c f).taken = s.taken := rfl
@[simp] theorem State.modCore_net (c : Nat) (f : Core → Core) : (s.modCore c f).net = s.net := rfl
@[simp] theorem State.modCore_kept (c : Nat) (f : Core → Core) : (s.modCore c f).kept = s.kept := rfl
@[simp] theorem State.modCore_sessions (c : Nat) (f : Core → Core) : (s.modCore c f).sessions = s.sessions := rfl
@[simp] theorem State.modCore_hostOut (c : Nat) (f : Core → Core) : (s.modCore c f).hostOut = s.hostOut := rfl
@[simp] theorem State.modCore_staging (c : Nat) (f : Core → Core) : (s.modCore c f).staging = s.staging := rfl
@[simp] theorem State.modCore_badTags (c : Nat) (f : Core → Core) : (s.modCore c f).badTags = s.badTags := rfl
@[simp] theorem State.modCore_failedLog (c : Nat) (f : Core → Core) : (s.modCore c f).failedLog = s.failedLog := rfl
@[simp] theorem State.modCore_digest (c : Nat) (f : Core → Core) : (s.modCore c f).digest = s.digest := rfl
@[simp] theorem State.modCore_version (c : Nat) (f : Core → Core) : (s.modCore c f).version = s.version := rfl
@[simp] theorem State.modCore_features (c : Nat) (f : Core → Core) : (s.modCore c f).features = s.features := rfl
@[simp] theorem State.modCore_dawns (c : Nat) (f : Core → Core) : (s.modCore c f).dawns = s.dawns := rfl
@[simp] theorem State.modCore_dawnCfg (c : Nat) (f : Core → Core) : (s.modCore c f).dawnCfg = s.dawnCfg := rfl
@[simp] theorem State.modCore_late (c : Nat) (f : Core → Core) : (s.modCore c f).late = s.late := rfl
@[simp] theorem State.modCore_coreMap (c : Nat) (f : Core → Core) : (s.modCore c f).coreMap = s.coreMap := rfl
@[simp] theorem State.modCore_podTime (c : Nat) (f : Core → Core) : (s.modCore c f).podTime = s.podTime := rfl
@[simp] theorem State.modCore_hostLock (c : Nat) (f : Core → Core) : (s.modCore c f).hostLock = s.hostLock := rfl
@[simp] theorem State.modCore_agenda (c : Nat) (f : Core → Core) : (s.modCore c f).agenda = s.agenda := rfl
@[simp] theorem State.modCore_cur (c : Nat) (f : Core → Core) : (s.modCore c f).cur = s.cur := rfl
@[simp] theorem State.modCore_hostSeen (c : Nat) (f : Core → Core) : (s.modCore c f).hostSeen = s.hostSeen := rfl
@[simp] theorem State.modCore_kicks (c : Nat) (f : Core → Core) : (s.modCore c f).kicks = s.kicks := rfl
@[simp] theorem State.modCore_repairLog (c : Nat) (f : Core → Core) : (s.modCore c f).repairLog = s.repairLog := rfl
@[simp] theorem State.modCore_scrubs (c : Nat) (f : Core → Core) : (s.modCore c f).scrubs = s.scrubs := rfl

/-! modCtx -/

@[simp] theorem State.modCtx_gtc (c : Nat) (r : Role) (f : Ctx → Ctx) : (s.modCtx c r f).gtc = s.gtc := rfl
@[simp] theorem State.modCtx_phase (c : Nat) (r : Role) (f : Ctx → Ctx) : (s.modCtx c r f).phase = s.phase := rfl
@[simp] theorem State.modCtx_mem (c : Nat) (r : Role) (f : Ctx → Ctx) : (s.modCtx c r f).mem = s.mem := rfl
@[simp] theorem State.modCtx_lineKey (c : Nat) (r : Role) (f : Ctx → Ctx) : (s.modCtx c r f).lineKey = s.lineKey := rfl
@[simp] theorem State.modCtx_keys (c : Nat) (r : Role) (f : Ctx → Ctx) : (s.modCtx c r f).keys = s.keys := rfl
@[simp] theorem State.modCtx_keySerial (c : Nat) (r : Role) (f : Ctx → Ctx) : (s.modCtx c r f).keySerial = s.keySerial := rfl
@[simp] theorem State.modCtx_bad (c : Nat) (r : Role) (f : Ctx → Ctx) : (s.modCtx c r f).bad = s.bad := rfl
@[simp] theorem State.modCtx_quires (c : Nat) (r : Role) (f : Ctx → Ctx) : (s.modCtx c r f).quires = s.quires := rfl
@[simp] theorem State.modCtx_dies (c : Nat) (r : Role) (f : Ctx → Ctx) : (s.modCtx c r f).dies = s.dies := rfl
@[simp] theorem State.modCtx_sys (c : Nat) (r : Role) (f : Ctx → Ctx) : (s.modCtx c r f).sys = s.sys := rfl
@[simp] theorem State.modCtx_order (c : Nat) (r : Role) (f : Ctx → Ctx) : (s.modCtx c r f).order = s.order := rfl
@[simp] theorem State.modCtx_launches (c : Nat) (r : Role) (f : Ctx → Ctx) : (s.modCtx c r f).launches = s.launches := rfl
@[simp] theorem State.modCtx_pushSeq (c : Nat) (r : Role) (f : Ctx → Ctx) : (s.modCtx c r f).pushSeq = s.pushSeq := rfl
@[simp] theorem State.modCtx_started (c : Nat) (r : Role) (f : Ctx → Ctx) : (s.modCtx c r f).started = s.started := rfl
@[simp] theorem State.modCtx_forcedList (c : Nat) (r : Role) (f : Ctx → Ctx) : (s.modCtx c r f).forcedList = s.forcedList := rfl
@[simp] theorem State.modCtx_preempt (c : Nat) (r : Role) (f : Ctx → Ctx) : (s.modCtx c r f).preempt = s.preempt := rfl
@[simp] theorem State.modCtx_images (c : Nat) (r : Role) (f : Ctx → Ctx) : (s.modCtx c r f).images = s.images := rfl
@[simp] theorem State.modCtx_links (c : Nat) (r : Role) (f : Ctx → Ctx) : (s.modCtx c r f).links = s.links := rfl
@[simp] theorem State.modCtx_linkTable (c : Nat) (r : Role) (f : Ctx → Ctx) : (s.modCtx c r f).linkTable = s.linkTable := rfl
@[simp] theorem State.modCtx_mseq (c : Nat) (r : Role) (f : Ctx → Ctx) : (s.modCtx c r f).mseq = s.mseq := rfl
@[simp] theorem State.modCtx_taken (c : Nat) (r : Role) (f : Ctx → Ctx) : (s.modCtx c r f).taken = s.taken := rfl
@[simp] theorem State.modCtx_net (c : Nat) (r : Role) (f : Ctx → Ctx) : (s.modCtx c r f).net = s.net := rfl
@[simp] theorem State.modCtx_kept (c : Nat) (r : Role) (f : Ctx → Ctx) : (s.modCtx c r f).kept = s.kept := rfl
@[simp] theorem State.modCtx_sessions (c : Nat) (r : Role) (f : Ctx → Ctx) : (s.modCtx c r f).sessions = s.sessions := rfl
@[simp] theorem State.modCtx_hostOut (c : Nat) (r : Role) (f : Ctx → Ctx) : (s.modCtx c r f).hostOut = s.hostOut := rfl
@[simp] theorem State.modCtx_staging (c : Nat) (r : Role) (f : Ctx → Ctx) : (s.modCtx c r f).staging = s.staging := rfl
@[simp] theorem State.modCtx_badTags (c : Nat) (r : Role) (f : Ctx → Ctx) : (s.modCtx c r f).badTags = s.badTags := rfl
@[simp] theorem State.modCtx_failedLog (c : Nat) (r : Role) (f : Ctx → Ctx) : (s.modCtx c r f).failedLog = s.failedLog := rfl
@[simp] theorem State.modCtx_digest (c : Nat) (r : Role) (f : Ctx → Ctx) : (s.modCtx c r f).digest = s.digest := rfl
@[simp] theorem State.modCtx_version (c : Nat) (r : Role) (f : Ctx → Ctx) : (s.modCtx c r f).version = s.version := rfl
@[simp] theorem State.modCtx_features (c : Nat) (r : Role) (f : Ctx → Ctx) : (s.modCtx c r f).features = s.features := rfl
@[simp] theorem State.modCtx_dawns (c : Nat) (r : Role) (f : Ctx → Ctx) : (s.modCtx c r f).dawns = s.dawns := rfl
@[simp] theorem State.modCtx_dawnCfg (c : Nat) (r : Role) (f : Ctx → Ctx) : (s.modCtx c r f).dawnCfg = s.dawnCfg := rfl
@[simp] theorem State.modCtx_late (c : Nat) (r : Role) (f : Ctx → Ctx) : (s.modCtx c r f).late = s.late := rfl
@[simp] theorem State.modCtx_coreMap (c : Nat) (r : Role) (f : Ctx → Ctx) : (s.modCtx c r f).coreMap = s.coreMap := rfl
@[simp] theorem State.modCtx_podTime (c : Nat) (r : Role) (f : Ctx → Ctx) : (s.modCtx c r f).podTime = s.podTime := rfl
@[simp] theorem State.modCtx_hostLock (c : Nat) (r : Role) (f : Ctx → Ctx) : (s.modCtx c r f).hostLock = s.hostLock := rfl
@[simp] theorem State.modCtx_agenda (c : Nat) (r : Role) (f : Ctx → Ctx) : (s.modCtx c r f).agenda = s.agenda := rfl
@[simp] theorem State.modCtx_cur (c : Nat) (r : Role) (f : Ctx → Ctx) : (s.modCtx c r f).cur = s.cur := rfl
@[simp] theorem State.modCtx_hostSeen (c : Nat) (r : Role) (f : Ctx → Ctx) : (s.modCtx c r f).hostSeen = s.hostSeen := rfl
@[simp] theorem State.modCtx_kicks (c : Nat) (r : Role) (f : Ctx → Ctx) : (s.modCtx c r f).kicks = s.kicks := rfl
@[simp] theorem State.modCtx_repairLog (c : Nat) (r : Role) (f : Ctx → Ctx) : (s.modCtx c r f).repairLog = s.repairLog := rfl
@[simp] theorem State.modCtx_scrubs (c : Nat) (r : Role) (f : Ctx → Ctx) : (s.modCtx c r f).scrubs = s.scrubs := rfl

/-! put -/

@[simp] theorem State.put_gtc (c : Nat) (t : Target) (m v : Nat) (l : Option Nat) : (s.put c t m v l).gtc = s.gtc := rfl
@[simp] theorem State.put_phase (c : Nat) (t : Target) (m v : Nat) (l : Option Nat) : (s.put c t m v l).phase = s.phase := rfl
@[simp] theorem State.put_mem (c : Nat) (t : Target) (m v : Nat) (l : Option Nat) : (s.put c t m v l).mem = s.mem := rfl
@[simp] theorem State.put_lineKey (c : Nat) (t : Target) (m v : Nat) (l : Option Nat) : (s.put c t m v l).lineKey = s.lineKey := rfl
@[simp] theorem State.put_keys (c : Nat) (t : Target) (m v : Nat) (l : Option Nat) : (s.put c t m v l).keys = s.keys := rfl
@[simp] theorem State.put_keySerial (c : Nat) (t : Target) (m v : Nat) (l : Option Nat) : (s.put c t m v l).keySerial = s.keySerial := rfl
@[simp] theorem State.put_bad (c : Nat) (t : Target) (m v : Nat) (l : Option Nat) : (s.put c t m v l).bad = s.bad := rfl
@[simp] theorem State.put_quires (c : Nat) (t : Target) (m v : Nat) (l : Option Nat) : (s.put c t m v l).quires = s.quires := rfl
@[simp] theorem State.put_dies (c : Nat) (t : Target) (m v : Nat) (l : Option Nat) : (s.put c t m v l).dies = s.dies := rfl
@[simp] theorem State.put_sys (c : Nat) (t : Target) (m v : Nat) (l : Option Nat) : (s.put c t m v l).sys = s.sys := rfl
@[simp] theorem State.put_order (c : Nat) (t : Target) (m v : Nat) (l : Option Nat) : (s.put c t m v l).order = s.order := rfl
@[simp] theorem State.put_launches (c : Nat) (t : Target) (m v : Nat) (l : Option Nat) : (s.put c t m v l).launches = s.launches := rfl
@[simp] theorem State.put_pushSeq (c : Nat) (t : Target) (m v : Nat) (l : Option Nat) : (s.put c t m v l).pushSeq = s.pushSeq := rfl
@[simp] theorem State.put_started (c : Nat) (t : Target) (m v : Nat) (l : Option Nat) : (s.put c t m v l).started = s.started := rfl
@[simp] theorem State.put_forcedList (c : Nat) (t : Target) (m v : Nat) (l : Option Nat) : (s.put c t m v l).forcedList = s.forcedList := rfl
@[simp] theorem State.put_preempt (c : Nat) (t : Target) (m v : Nat) (l : Option Nat) : (s.put c t m v l).preempt = s.preempt := rfl
@[simp] theorem State.put_images (c : Nat) (t : Target) (m v : Nat) (l : Option Nat) : (s.put c t m v l).images = s.images := rfl
@[simp] theorem State.put_links (c : Nat) (t : Target) (m v : Nat) (l : Option Nat) : (s.put c t m v l).links = s.links := rfl
@[simp] theorem State.put_linkTable (c : Nat) (t : Target) (m v : Nat) (l : Option Nat) : (s.put c t m v l).linkTable = s.linkTable := rfl
@[simp] theorem State.put_mseq (c : Nat) (t : Target) (m v : Nat) (l : Option Nat) : (s.put c t m v l).mseq = s.mseq := rfl
@[simp] theorem State.put_taken (c : Nat) (t : Target) (m v : Nat) (l : Option Nat) : (s.put c t m v l).taken = s.taken := rfl
@[simp] theorem State.put_net (c : Nat) (t : Target) (m v : Nat) (l : Option Nat) : (s.put c t m v l).net = s.net := rfl
@[simp] theorem State.put_kept (c : Nat) (t : Target) (m v : Nat) (l : Option Nat) : (s.put c t m v l).kept = s.kept := rfl
@[simp] theorem State.put_sessions (c : Nat) (t : Target) (m v : Nat) (l : Option Nat) : (s.put c t m v l).sessions = s.sessions := rfl
@[simp] theorem State.put_hostOut (c : Nat) (t : Target) (m v : Nat) (l : Option Nat) : (s.put c t m v l).hostOut = s.hostOut := rfl
@[simp] theorem State.put_staging (c : Nat) (t : Target) (m v : Nat) (l : Option Nat) : (s.put c t m v l).staging = s.staging := rfl
@[simp] theorem State.put_badTags (c : Nat) (t : Target) (m v : Nat) (l : Option Nat) : (s.put c t m v l).badTags = s.badTags := rfl
@[simp] theorem State.put_failedLog (c : Nat) (t : Target) (m v : Nat) (l : Option Nat) : (s.put c t m v l).failedLog = s.failedLog := rfl
@[simp] theorem State.put_digest (c : Nat) (t : Target) (m v : Nat) (l : Option Nat) : (s.put c t m v l).digest = s.digest := rfl
@[simp] theorem State.put_version (c : Nat) (t : Target) (m v : Nat) (l : Option Nat) : (s.put c t m v l).version = s.version := rfl
@[simp] theorem State.put_features (c : Nat) (t : Target) (m v : Nat) (l : Option Nat) : (s.put c t m v l).features = s.features := rfl
@[simp] theorem State.put_dawns (c : Nat) (t : Target) (m v : Nat) (l : Option Nat) : (s.put c t m v l).dawns = s.dawns := rfl
@[simp] theorem State.put_dawnCfg (c : Nat) (t : Target) (m v : Nat) (l : Option Nat) : (s.put c t m v l).dawnCfg = s.dawnCfg := rfl
@[simp] theorem State.put_late (c : Nat) (t : Target) (m v : Nat) (l : Option Nat) : (s.put c t m v l).late = s.late := rfl
@[simp] theorem State.put_coreMap (c : Nat) (t : Target) (m v : Nat) (l : Option Nat) : (s.put c t m v l).coreMap = s.coreMap := rfl
@[simp] theorem State.put_podTime (c : Nat) (t : Target) (m v : Nat) (l : Option Nat) : (s.put c t m v l).podTime = s.podTime := rfl
@[simp] theorem State.put_hostLock (c : Nat) (t : Target) (m v : Nat) (l : Option Nat) : (s.put c t m v l).hostLock = s.hostLock := rfl
@[simp] theorem State.put_agenda (c : Nat) (t : Target) (m v : Nat) (l : Option Nat) : (s.put c t m v l).agenda = s.agenda := rfl
@[simp] theorem State.put_cur (c : Nat) (t : Target) (m v : Nat) (l : Option Nat) : (s.put c t m v l).cur = s.cur := rfl
@[simp] theorem State.put_hostSeen (c : Nat) (t : Target) (m v : Nat) (l : Option Nat) : (s.put c t m v l).hostSeen = s.hostSeen := rfl
@[simp] theorem State.put_kicks (c : Nat) (t : Target) (m v : Nat) (l : Option Nat) : (s.put c t m v l).kicks = s.kicks := rfl
@[simp] theorem State.put_repairLog (c : Nat) (t : Target) (m v : Nat) (l : Option Nat) : (s.put c t m v l).repairLog = s.repairLog := rfl
@[simp] theorem State.put_scrubs (c : Nat) (t : Target) (m v : Nat) (l : Option Nat) : (s.put c t m v l).scrubs = s.scrubs := rfl

/-! modQuire -/

@[simp] theorem State.modQuire_gtc (q : Nat) (f : Quire → Quire) : (s.modQuire q f).gtc = s.gtc := rfl
@[simp] theorem State.modQuire_phase (q : Nat) (f : Quire → Quire) : (s.modQuire q f).phase = s.phase := rfl
@[simp] theorem State.modQuire_mem (q : Nat) (f : Quire → Quire) : (s.modQuire q f).mem = s.mem := rfl
@[simp] theorem State.modQuire_lineKey (q : Nat) (f : Quire → Quire) : (s.modQuire q f).lineKey = s.lineKey := rfl
@[simp] theorem State.modQuire_keys (q : Nat) (f : Quire → Quire) : (s.modQuire q f).keys = s.keys := rfl
@[simp] theorem State.modQuire_keySerial (q : Nat) (f : Quire → Quire) : (s.modQuire q f).keySerial = s.keySerial := rfl
@[simp] theorem State.modQuire_bad (q : Nat) (f : Quire → Quire) : (s.modQuire q f).bad = s.bad := rfl
@[simp] theorem State.modQuire_cores (q : Nat) (f : Quire → Quire) : (s.modQuire q f).cores = s.cores := rfl
@[simp] theorem State.modQuire_dies (q : Nat) (f : Quire → Quire) : (s.modQuire q f).dies = s.dies := rfl
@[simp] theorem State.modQuire_sys (q : Nat) (f : Quire → Quire) : (s.modQuire q f).sys = s.sys := rfl
@[simp] theorem State.modQuire_order (q : Nat) (f : Quire → Quire) : (s.modQuire q f).order = s.order := rfl
@[simp] theorem State.modQuire_launches (q : Nat) (f : Quire → Quire) : (s.modQuire q f).launches = s.launches := rfl
@[simp] theorem State.modQuire_pushSeq (q : Nat) (f : Quire → Quire) : (s.modQuire q f).pushSeq = s.pushSeq := rfl
@[simp] theorem State.modQuire_started (q : Nat) (f : Quire → Quire) : (s.modQuire q f).started = s.started := rfl
@[simp] theorem State.modQuire_forcedList (q : Nat) (f : Quire → Quire) : (s.modQuire q f).forcedList = s.forcedList := rfl
@[simp] theorem State.modQuire_preempt (q : Nat) (f : Quire → Quire) : (s.modQuire q f).preempt = s.preempt := rfl
@[simp] theorem State.modQuire_images (q : Nat) (f : Quire → Quire) : (s.modQuire q f).images = s.images := rfl
@[simp] theorem State.modQuire_links (q : Nat) (f : Quire → Quire) : (s.modQuire q f).links = s.links := rfl
@[simp] theorem State.modQuire_linkTable (q : Nat) (f : Quire → Quire) : (s.modQuire q f).linkTable = s.linkTable := rfl
@[simp] theorem State.modQuire_mseq (q : Nat) (f : Quire → Quire) : (s.modQuire q f).mseq = s.mseq := rfl
@[simp] theorem State.modQuire_taken (q : Nat) (f : Quire → Quire) : (s.modQuire q f).taken = s.taken := rfl
@[simp] theorem State.modQuire_net (q : Nat) (f : Quire → Quire) : (s.modQuire q f).net = s.net := rfl
@[simp] theorem State.modQuire_kept (q : Nat) (f : Quire → Quire) : (s.modQuire q f).kept = s.kept := rfl
@[simp] theorem State.modQuire_sessions (q : Nat) (f : Quire → Quire) : (s.modQuire q f).sessions = s.sessions := rfl
@[simp] theorem State.modQuire_hostOut (q : Nat) (f : Quire → Quire) : (s.modQuire q f).hostOut = s.hostOut := rfl
@[simp] theorem State.modQuire_staging (q : Nat) (f : Quire → Quire) : (s.modQuire q f).staging = s.staging := rfl
@[simp] theorem State.modQuire_badTags (q : Nat) (f : Quire → Quire) : (s.modQuire q f).badTags = s.badTags := rfl
@[simp] theorem State.modQuire_failedLog (q : Nat) (f : Quire → Quire) : (s.modQuire q f).failedLog = s.failedLog := rfl
@[simp] theorem State.modQuire_digest (q : Nat) (f : Quire → Quire) : (s.modQuire q f).digest = s.digest := rfl
@[simp] theorem State.modQuire_version (q : Nat) (f : Quire → Quire) : (s.modQuire q f).version = s.version := rfl
@[simp] theorem State.modQuire_features (q : Nat) (f : Quire → Quire) : (s.modQuire q f).features = s.features := rfl
@[simp] theorem State.modQuire_dawns (q : Nat) (f : Quire → Quire) : (s.modQuire q f).dawns = s.dawns := rfl
@[simp] theorem State.modQuire_dawnCfg (q : Nat) (f : Quire → Quire) : (s.modQuire q f).dawnCfg = s.dawnCfg := rfl
@[simp] theorem State.modQuire_late (q : Nat) (f : Quire → Quire) : (s.modQuire q f).late = s.late := rfl
@[simp] theorem State.modQuire_coreMap (q : Nat) (f : Quire → Quire) : (s.modQuire q f).coreMap = s.coreMap := rfl
@[simp] theorem State.modQuire_podTime (q : Nat) (f : Quire → Quire) : (s.modQuire q f).podTime = s.podTime := rfl
@[simp] theorem State.modQuire_hostLock (q : Nat) (f : Quire → Quire) : (s.modQuire q f).hostLock = s.hostLock := rfl
@[simp] theorem State.modQuire_agenda (q : Nat) (f : Quire → Quire) : (s.modQuire q f).agenda = s.agenda := rfl
@[simp] theorem State.modQuire_cur (q : Nat) (f : Quire → Quire) : (s.modQuire q f).cur = s.cur := rfl
@[simp] theorem State.modQuire_hostSeen (q : Nat) (f : Quire → Quire) : (s.modQuire q f).hostSeen = s.hostSeen := rfl
@[simp] theorem State.modQuire_kicks (q : Nat) (f : Quire → Quire) : (s.modQuire q f).kicks = s.kicks := rfl
@[simp] theorem State.modQuire_repairLog (q : Nat) (f : Quire → Quire) : (s.modQuire q f).repairLog = s.repairLog := rfl
@[simp] theorem State.modQuire_scrubs (q : Nat) (f : Quire → Quire) : (s.modQuire q f).scrubs = s.scrubs := rfl

/-! modDie -/

@[simp] theorem State.modDie_gtc (d : Nat) (f : Die → Die) : (s.modDie d f).gtc = s.gtc := rfl
@[simp] theorem State.modDie_phase (d : Nat) (f : Die → Die) : (s.modDie d f).phase = s.phase := rfl
@[simp] theorem State.modDie_mem (d : Nat) (f : Die → Die) : (s.modDie d f).mem = s.mem := rfl
@[simp] theorem State.modDie_lineKey (d : Nat) (f : Die → Die) : (s.modDie d f).lineKey = s.lineKey := rfl
@[simp] theorem State.modDie_keys (d : Nat) (f : Die → Die) : (s.modDie d f).keys = s.keys := rfl
@[simp] theorem State.modDie_keySerial (d : Nat) (f : Die → Die) : (s.modDie d f).keySerial = s.keySerial := rfl
@[simp] theorem State.modDie_bad (d : Nat) (f : Die → Die) : (s.modDie d f).bad = s.bad := rfl
@[simp] theorem State.modDie_cores (d : Nat) (f : Die → Die) : (s.modDie d f).cores = s.cores := rfl
@[simp] theorem State.modDie_quires (d : Nat) (f : Die → Die) : (s.modDie d f).quires = s.quires := rfl
@[simp] theorem State.modDie_sys (d : Nat) (f : Die → Die) : (s.modDie d f).sys = s.sys := rfl
@[simp] theorem State.modDie_order (d : Nat) (f : Die → Die) : (s.modDie d f).order = s.order := rfl
@[simp] theorem State.modDie_launches (d : Nat) (f : Die → Die) : (s.modDie d f).launches = s.launches := rfl
@[simp] theorem State.modDie_pushSeq (d : Nat) (f : Die → Die) : (s.modDie d f).pushSeq = s.pushSeq := rfl
@[simp] theorem State.modDie_started (d : Nat) (f : Die → Die) : (s.modDie d f).started = s.started := rfl
@[simp] theorem State.modDie_forcedList (d : Nat) (f : Die → Die) : (s.modDie d f).forcedList = s.forcedList := rfl
@[simp] theorem State.modDie_preempt (d : Nat) (f : Die → Die) : (s.modDie d f).preempt = s.preempt := rfl
@[simp] theorem State.modDie_images (d : Nat) (f : Die → Die) : (s.modDie d f).images = s.images := rfl
@[simp] theorem State.modDie_links (d : Nat) (f : Die → Die) : (s.modDie d f).links = s.links := rfl
@[simp] theorem State.modDie_linkTable (d : Nat) (f : Die → Die) : (s.modDie d f).linkTable = s.linkTable := rfl
@[simp] theorem State.modDie_mseq (d : Nat) (f : Die → Die) : (s.modDie d f).mseq = s.mseq := rfl
@[simp] theorem State.modDie_taken (d : Nat) (f : Die → Die) : (s.modDie d f).taken = s.taken := rfl
@[simp] theorem State.modDie_net (d : Nat) (f : Die → Die) : (s.modDie d f).net = s.net := rfl
@[simp] theorem State.modDie_kept (d : Nat) (f : Die → Die) : (s.modDie d f).kept = s.kept := rfl
@[simp] theorem State.modDie_sessions (d : Nat) (f : Die → Die) : (s.modDie d f).sessions = s.sessions := rfl
@[simp] theorem State.modDie_hostOut (d : Nat) (f : Die → Die) : (s.modDie d f).hostOut = s.hostOut := rfl
@[simp] theorem State.modDie_staging (d : Nat) (f : Die → Die) : (s.modDie d f).staging = s.staging := rfl
@[simp] theorem State.modDie_badTags (d : Nat) (f : Die → Die) : (s.modDie d f).badTags = s.badTags := rfl
@[simp] theorem State.modDie_failedLog (d : Nat) (f : Die → Die) : (s.modDie d f).failedLog = s.failedLog := rfl
@[simp] theorem State.modDie_digest (d : Nat) (f : Die → Die) : (s.modDie d f).digest = s.digest := rfl
@[simp] theorem State.modDie_version (d : Nat) (f : Die → Die) : (s.modDie d f).version = s.version := rfl
@[simp] theorem State.modDie_features (d : Nat) (f : Die → Die) : (s.modDie d f).features = s.features := rfl
@[simp] theorem State.modDie_dawns (d : Nat) (f : Die → Die) : (s.modDie d f).dawns = s.dawns := rfl
@[simp] theorem State.modDie_dawnCfg (d : Nat) (f : Die → Die) : (s.modDie d f).dawnCfg = s.dawnCfg := rfl
@[simp] theorem State.modDie_late (d : Nat) (f : Die → Die) : (s.modDie d f).late = s.late := rfl
@[simp] theorem State.modDie_coreMap (d : Nat) (f : Die → Die) : (s.modDie d f).coreMap = s.coreMap := rfl
@[simp] theorem State.modDie_podTime (d : Nat) (f : Die → Die) : (s.modDie d f).podTime = s.podTime := rfl
@[simp] theorem State.modDie_hostLock (d : Nat) (f : Die → Die) : (s.modDie d f).hostLock = s.hostLock := rfl
@[simp] theorem State.modDie_agenda (d : Nat) (f : Die → Die) : (s.modDie d f).agenda = s.agenda := rfl
@[simp] theorem State.modDie_cur (d : Nat) (f : Die → Die) : (s.modDie d f).cur = s.cur := rfl
@[simp] theorem State.modDie_hostSeen (d : Nat) (f : Die → Die) : (s.modDie d f).hostSeen = s.hostSeen := rfl
@[simp] theorem State.modDie_kicks (d : Nat) (f : Die → Die) : (s.modDie d f).kicks = s.kicks := rfl
@[simp] theorem State.modDie_repairLog (d : Nat) (f : Die → Die) : (s.modDie d f).repairLog = s.repairLog := rfl
@[simp] theorem State.modDie_scrubs (d : Nat) (f : Die → Die) : (s.modDie d f).scrubs = s.scrubs := rfl

/-! modLink -/

@[simp] theorem State.modLink_gtc (l : Nat) (f : LinkLayer → LinkLayer) : (s.modLink l f).gtc = s.gtc := rfl
@[simp] theorem State.modLink_phase (l : Nat) (f : LinkLayer → LinkLayer) : (s.modLink l f).phase = s.phase := rfl
@[simp] theorem State.modLink_mem (l : Nat) (f : LinkLayer → LinkLayer) : (s.modLink l f).mem = s.mem := rfl
@[simp] theorem State.modLink_lineKey (l : Nat) (f : LinkLayer → LinkLayer) : (s.modLink l f).lineKey = s.lineKey := rfl
@[simp] theorem State.modLink_keys (l : Nat) (f : LinkLayer → LinkLayer) : (s.modLink l f).keys = s.keys := rfl
@[simp] theorem State.modLink_keySerial (l : Nat) (f : LinkLayer → LinkLayer) : (s.modLink l f).keySerial = s.keySerial := rfl
@[simp] theorem State.modLink_bad (l : Nat) (f : LinkLayer → LinkLayer) : (s.modLink l f).bad = s.bad := rfl
@[simp] theorem State.modLink_cores (l : Nat) (f : LinkLayer → LinkLayer) : (s.modLink l f).cores = s.cores := rfl
@[simp] theorem State.modLink_quires (l : Nat) (f : LinkLayer → LinkLayer) : (s.modLink l f).quires = s.quires := rfl
@[simp] theorem State.modLink_dies (l : Nat) (f : LinkLayer → LinkLayer) : (s.modLink l f).dies = s.dies := rfl
@[simp] theorem State.modLink_sys (l : Nat) (f : LinkLayer → LinkLayer) : (s.modLink l f).sys = s.sys := rfl
@[simp] theorem State.modLink_order (l : Nat) (f : LinkLayer → LinkLayer) : (s.modLink l f).order = s.order := rfl
@[simp] theorem State.modLink_launches (l : Nat) (f : LinkLayer → LinkLayer) : (s.modLink l f).launches = s.launches := rfl
@[simp] theorem State.modLink_pushSeq (l : Nat) (f : LinkLayer → LinkLayer) : (s.modLink l f).pushSeq = s.pushSeq := rfl
@[simp] theorem State.modLink_started (l : Nat) (f : LinkLayer → LinkLayer) : (s.modLink l f).started = s.started := rfl
@[simp] theorem State.modLink_forcedList (l : Nat) (f : LinkLayer → LinkLayer) : (s.modLink l f).forcedList = s.forcedList := rfl
@[simp] theorem State.modLink_preempt (l : Nat) (f : LinkLayer → LinkLayer) : (s.modLink l f).preempt = s.preempt := rfl
@[simp] theorem State.modLink_images (l : Nat) (f : LinkLayer → LinkLayer) : (s.modLink l f).images = s.images := rfl
@[simp] theorem State.modLink_linkTable (l : Nat) (f : LinkLayer → LinkLayer) : (s.modLink l f).linkTable = s.linkTable := rfl
@[simp] theorem State.modLink_mseq (l : Nat) (f : LinkLayer → LinkLayer) : (s.modLink l f).mseq = s.mseq := rfl
@[simp] theorem State.modLink_taken (l : Nat) (f : LinkLayer → LinkLayer) : (s.modLink l f).taken = s.taken := rfl
@[simp] theorem State.modLink_net (l : Nat) (f : LinkLayer → LinkLayer) : (s.modLink l f).net = s.net := rfl
@[simp] theorem State.modLink_kept (l : Nat) (f : LinkLayer → LinkLayer) : (s.modLink l f).kept = s.kept := rfl
@[simp] theorem State.modLink_sessions (l : Nat) (f : LinkLayer → LinkLayer) : (s.modLink l f).sessions = s.sessions := rfl
@[simp] theorem State.modLink_hostOut (l : Nat) (f : LinkLayer → LinkLayer) : (s.modLink l f).hostOut = s.hostOut := rfl
@[simp] theorem State.modLink_staging (l : Nat) (f : LinkLayer → LinkLayer) : (s.modLink l f).staging = s.staging := rfl
@[simp] theorem State.modLink_badTags (l : Nat) (f : LinkLayer → LinkLayer) : (s.modLink l f).badTags = s.badTags := rfl
@[simp] theorem State.modLink_failedLog (l : Nat) (f : LinkLayer → LinkLayer) : (s.modLink l f).failedLog = s.failedLog := rfl
@[simp] theorem State.modLink_digest (l : Nat) (f : LinkLayer → LinkLayer) : (s.modLink l f).digest = s.digest := rfl
@[simp] theorem State.modLink_version (l : Nat) (f : LinkLayer → LinkLayer) : (s.modLink l f).version = s.version := rfl
@[simp] theorem State.modLink_features (l : Nat) (f : LinkLayer → LinkLayer) : (s.modLink l f).features = s.features := rfl
@[simp] theorem State.modLink_dawns (l : Nat) (f : LinkLayer → LinkLayer) : (s.modLink l f).dawns = s.dawns := rfl
@[simp] theorem State.modLink_dawnCfg (l : Nat) (f : LinkLayer → LinkLayer) : (s.modLink l f).dawnCfg = s.dawnCfg := rfl
@[simp] theorem State.modLink_late (l : Nat) (f : LinkLayer → LinkLayer) : (s.modLink l f).late = s.late := rfl
@[simp] theorem State.modLink_coreMap (l : Nat) (f : LinkLayer → LinkLayer) : (s.modLink l f).coreMap = s.coreMap := rfl
@[simp] theorem State.modLink_podTime (l : Nat) (f : LinkLayer → LinkLayer) : (s.modLink l f).podTime = s.podTime := rfl
@[simp] theorem State.modLink_hostLock (l : Nat) (f : LinkLayer → LinkLayer) : (s.modLink l f).hostLock = s.hostLock := rfl
@[simp] theorem State.modLink_agenda (l : Nat) (f : LinkLayer → LinkLayer) : (s.modLink l f).agenda = s.agenda := rfl
@[simp] theorem State.modLink_cur (l : Nat) (f : LinkLayer → LinkLayer) : (s.modLink l f).cur = s.cur := rfl
@[simp] theorem State.modLink_hostSeen (l : Nat) (f : LinkLayer → LinkLayer) : (s.modLink l f).hostSeen = s.hostSeen := rfl
@[simp] theorem State.modLink_kicks (l : Nat) (f : LinkLayer → LinkLayer) : (s.modLink l f).kicks = s.kicks := rfl
@[simp] theorem State.modLink_repairLog (l : Nat) (f : LinkLayer → LinkLayer) : (s.modLink l f).repairLog = s.repairLog := rfl
@[simp] theorem State.modLink_scrubs (l : Nat) (f : LinkLayer → LinkLayer) : (s.modLink l f).scrubs = s.scrubs := rfl

/-! modLaunch -/

@[simp] theorem State.modLaunch_gtc (q : Nat) (f : Launch → Launch) : (s.modLaunch q f).gtc = s.gtc := rfl
@[simp] theorem State.modLaunch_phase (q : Nat) (f : Launch → Launch) : (s.modLaunch q f).phase = s.phase := rfl
@[simp] theorem State.modLaunch_mem (q : Nat) (f : Launch → Launch) : (s.modLaunch q f).mem = s.mem := rfl
@[simp] theorem State.modLaunch_lineKey (q : Nat) (f : Launch → Launch) : (s.modLaunch q f).lineKey = s.lineKey := rfl
@[simp] theorem State.modLaunch_keys (q : Nat) (f : Launch → Launch) : (s.modLaunch q f).keys = s.keys := rfl
@[simp] theorem State.modLaunch_keySerial (q : Nat) (f : Launch → Launch) : (s.modLaunch q f).keySerial = s.keySerial := rfl
@[simp] theorem State.modLaunch_bad (q : Nat) (f : Launch → Launch) : (s.modLaunch q f).bad = s.bad := rfl
@[simp] theorem State.modLaunch_cores (q : Nat) (f : Launch → Launch) : (s.modLaunch q f).cores = s.cores := rfl
@[simp] theorem State.modLaunch_quires (q : Nat) (f : Launch → Launch) : (s.modLaunch q f).quires = s.quires := rfl
@[simp] theorem State.modLaunch_dies (q : Nat) (f : Launch → Launch) : (s.modLaunch q f).dies = s.dies := rfl
@[simp] theorem State.modLaunch_sys (q : Nat) (f : Launch → Launch) : (s.modLaunch q f).sys = s.sys := rfl
@[simp] theorem State.modLaunch_order (q : Nat) (f : Launch → Launch) : (s.modLaunch q f).order = s.order := rfl
@[simp] theorem State.modLaunch_pushSeq (q : Nat) (f : Launch → Launch) : (s.modLaunch q f).pushSeq = s.pushSeq := rfl
@[simp] theorem State.modLaunch_started (q : Nat) (f : Launch → Launch) : (s.modLaunch q f).started = s.started := rfl
@[simp] theorem State.modLaunch_forcedList (q : Nat) (f : Launch → Launch) : (s.modLaunch q f).forcedList = s.forcedList := rfl
@[simp] theorem State.modLaunch_preempt (q : Nat) (f : Launch → Launch) : (s.modLaunch q f).preempt = s.preempt := rfl
@[simp] theorem State.modLaunch_images (q : Nat) (f : Launch → Launch) : (s.modLaunch q f).images = s.images := rfl
@[simp] theorem State.modLaunch_links (q : Nat) (f : Launch → Launch) : (s.modLaunch q f).links = s.links := rfl
@[simp] theorem State.modLaunch_linkTable (q : Nat) (f : Launch → Launch) : (s.modLaunch q f).linkTable = s.linkTable := rfl
@[simp] theorem State.modLaunch_mseq (q : Nat) (f : Launch → Launch) : (s.modLaunch q f).mseq = s.mseq := rfl
@[simp] theorem State.modLaunch_taken (q : Nat) (f : Launch → Launch) : (s.modLaunch q f).taken = s.taken := rfl
@[simp] theorem State.modLaunch_net (q : Nat) (f : Launch → Launch) : (s.modLaunch q f).net = s.net := rfl
@[simp] theorem State.modLaunch_kept (q : Nat) (f : Launch → Launch) : (s.modLaunch q f).kept = s.kept := rfl
@[simp] theorem State.modLaunch_sessions (q : Nat) (f : Launch → Launch) : (s.modLaunch q f).sessions = s.sessions := rfl
@[simp] theorem State.modLaunch_hostOut (q : Nat) (f : Launch → Launch) : (s.modLaunch q f).hostOut = s.hostOut := rfl
@[simp] theorem State.modLaunch_staging (q : Nat) (f : Launch → Launch) : (s.modLaunch q f).staging = s.staging := rfl
@[simp] theorem State.modLaunch_badTags (q : Nat) (f : Launch → Launch) : (s.modLaunch q f).badTags = s.badTags := rfl
@[simp] theorem State.modLaunch_failedLog (q : Nat) (f : Launch → Launch) : (s.modLaunch q f).failedLog = s.failedLog := rfl
@[simp] theorem State.modLaunch_digest (q : Nat) (f : Launch → Launch) : (s.modLaunch q f).digest = s.digest := rfl
@[simp] theorem State.modLaunch_version (q : Nat) (f : Launch → Launch) : (s.modLaunch q f).version = s.version := rfl
@[simp] theorem State.modLaunch_features (q : Nat) (f : Launch → Launch) : (s.modLaunch q f).features = s.features := rfl
@[simp] theorem State.modLaunch_dawns (q : Nat) (f : Launch → Launch) : (s.modLaunch q f).dawns = s.dawns := rfl
@[simp] theorem State.modLaunch_dawnCfg (q : Nat) (f : Launch → Launch) : (s.modLaunch q f).dawnCfg = s.dawnCfg := rfl
@[simp] theorem State.modLaunch_late (q : Nat) (f : Launch → Launch) : (s.modLaunch q f).late = s.late := rfl
@[simp] theorem State.modLaunch_coreMap (q : Nat) (f : Launch → Launch) : (s.modLaunch q f).coreMap = s.coreMap := rfl
@[simp] theorem State.modLaunch_podTime (q : Nat) (f : Launch → Launch) : (s.modLaunch q f).podTime = s.podTime := rfl
@[simp] theorem State.modLaunch_hostLock (q : Nat) (f : Launch → Launch) : (s.modLaunch q f).hostLock = s.hostLock := rfl
@[simp] theorem State.modLaunch_agenda (q : Nat) (f : Launch → Launch) : (s.modLaunch q f).agenda = s.agenda := rfl
@[simp] theorem State.modLaunch_cur (q : Nat) (f : Launch → Launch) : (s.modLaunch q f).cur = s.cur := rfl
@[simp] theorem State.modLaunch_hostSeen (q : Nat) (f : Launch → Launch) : (s.modLaunch q f).hostSeen = s.hostSeen := rfl
@[simp] theorem State.modLaunch_kicks (q : Nat) (f : Launch → Launch) : (s.modLaunch q f).kicks = s.kicks := rfl
@[simp] theorem State.modLaunch_repairLog (q : Nat) (f : Launch → Launch) : (s.modLaunch q f).repairLog = s.repairLog := rfl
@[simp] theorem State.modLaunch_scrubs (q : Nat) (f : Launch → Launch) : (s.modLaunch q f).scrubs = s.scrubs := rfl

/-! tell -/

@[simp] theorem State.tell_gtc (o : HostOut) : (s.tell o).gtc = s.gtc := rfl
@[simp] theorem State.tell_phase (o : HostOut) : (s.tell o).phase = s.phase := rfl
@[simp] theorem State.tell_mem (o : HostOut) : (s.tell o).mem = s.mem := rfl
@[simp] theorem State.tell_lineKey (o : HostOut) : (s.tell o).lineKey = s.lineKey := rfl
@[simp] theorem State.tell_keys (o : HostOut) : (s.tell o).keys = s.keys := rfl
@[simp] theorem State.tell_keySerial (o : HostOut) : (s.tell o).keySerial = s.keySerial := rfl
@[simp] theorem State.tell_bad (o : HostOut) : (s.tell o).bad = s.bad := rfl
@[simp] theorem State.tell_cores (o : HostOut) : (s.tell o).cores = s.cores := rfl
@[simp] theorem State.tell_quires (o : HostOut) : (s.tell o).quires = s.quires := rfl
@[simp] theorem State.tell_dies (o : HostOut) : (s.tell o).dies = s.dies := rfl
@[simp] theorem State.tell_sys (o : HostOut) : (s.tell o).sys = s.sys := rfl
@[simp] theorem State.tell_order (o : HostOut) : (s.tell o).order = s.order := rfl
@[simp] theorem State.tell_launches (o : HostOut) : (s.tell o).launches = s.launches := rfl
@[simp] theorem State.tell_pushSeq (o : HostOut) : (s.tell o).pushSeq = s.pushSeq := rfl
@[simp] theorem State.tell_started (o : HostOut) : (s.tell o).started = s.started := rfl
@[simp] theorem State.tell_forcedList (o : HostOut) : (s.tell o).forcedList = s.forcedList := rfl
@[simp] theorem State.tell_preempt (o : HostOut) : (s.tell o).preempt = s.preempt := rfl
@[simp] theorem State.tell_images (o : HostOut) : (s.tell o).images = s.images := rfl
@[simp] theorem State.tell_links (o : HostOut) : (s.tell o).links = s.links := rfl
@[simp] theorem State.tell_linkTable (o : HostOut) : (s.tell o).linkTable = s.linkTable := rfl
@[simp] theorem State.tell_mseq (o : HostOut) : (s.tell o).mseq = s.mseq := rfl
@[simp] theorem State.tell_taken (o : HostOut) : (s.tell o).taken = s.taken := rfl
@[simp] theorem State.tell_net (o : HostOut) : (s.tell o).net = s.net := rfl
@[simp] theorem State.tell_kept (o : HostOut) : (s.tell o).kept = s.kept := rfl
@[simp] theorem State.tell_sessions (o : HostOut) : (s.tell o).sessions = s.sessions := rfl
@[simp] theorem State.tell_staging (o : HostOut) : (s.tell o).staging = s.staging := rfl
@[simp] theorem State.tell_badTags (o : HostOut) : (s.tell o).badTags = s.badTags := rfl
@[simp] theorem State.tell_failedLog (o : HostOut) : (s.tell o).failedLog = s.failedLog := rfl
@[simp] theorem State.tell_digest (o : HostOut) : (s.tell o).digest = s.digest := rfl
@[simp] theorem State.tell_version (o : HostOut) : (s.tell o).version = s.version := rfl
@[simp] theorem State.tell_features (o : HostOut) : (s.tell o).features = s.features := rfl
@[simp] theorem State.tell_dawns (o : HostOut) : (s.tell o).dawns = s.dawns := rfl
@[simp] theorem State.tell_dawnCfg (o : HostOut) : (s.tell o).dawnCfg = s.dawnCfg := rfl
@[simp] theorem State.tell_late (o : HostOut) : (s.tell o).late = s.late := rfl
@[simp] theorem State.tell_coreMap (o : HostOut) : (s.tell o).coreMap = s.coreMap := rfl
@[simp] theorem State.tell_podTime (o : HostOut) : (s.tell o).podTime = s.podTime := rfl
@[simp] theorem State.tell_hostLock (o : HostOut) : (s.tell o).hostLock = s.hostLock := rfl
@[simp] theorem State.tell_agenda (o : HostOut) : (s.tell o).agenda = s.agenda := rfl
@[simp] theorem State.tell_cur (o : HostOut) : (s.tell o).cur = s.cur := rfl
@[simp] theorem State.tell_hostSeen (o : HostOut) : (s.tell o).hostSeen = s.hostSeen := rfl
@[simp] theorem State.tell_kicks (o : HostOut) : (s.tell o).kicks = s.kicks := rfl
@[simp] theorem State.tell_repairLog (o : HostOut) : (s.tell o).repairLog = s.repairLog := rfl
@[simp] theorem State.tell_scrubs (o : HostOut) : (s.tell o).scrubs = s.scrubs := rfl

/-! next -/

@[simp] theorem State.next_gtc (p : Place) (a : Act) : (s.next p a).gtc = s.gtc := rfl
@[simp] theorem State.next_phase (p : Place) (a : Act) : (s.next p a).phase = s.phase := rfl
@[simp] theorem State.next_mem (p : Place) (a : Act) : (s.next p a).mem = s.mem := rfl
@[simp] theorem State.next_lineKey (p : Place) (a : Act) : (s.next p a).lineKey = s.lineKey := rfl
@[simp] theorem State.next_keys (p : Place) (a : Act) : (s.next p a).keys = s.keys := rfl
@[simp] theorem State.next_keySerial (p : Place) (a : Act) : (s.next p a).keySerial = s.keySerial := rfl
@[simp] theorem State.next_bad (p : Place) (a : Act) : (s.next p a).bad = s.bad := rfl
@[simp] theorem State.next_cores (p : Place) (a : Act) : (s.next p a).cores = s.cores := rfl
@[simp] theorem State.next_quires (p : Place) (a : Act) : (s.next p a).quires = s.quires := rfl
@[simp] theorem State.next_dies (p : Place) (a : Act) : (s.next p a).dies = s.dies := rfl
@[simp] theorem State.next_sys (p : Place) (a : Act) : (s.next p a).sys = s.sys := rfl
@[simp] theorem State.next_order (p : Place) (a : Act) : (s.next p a).order = s.order := rfl
@[simp] theorem State.next_launches (p : Place) (a : Act) : (s.next p a).launches = s.launches := rfl
@[simp] theorem State.next_pushSeq (p : Place) (a : Act) : (s.next p a).pushSeq = s.pushSeq := rfl
@[simp] theorem State.next_started (p : Place) (a : Act) : (s.next p a).started = s.started := rfl
@[simp] theorem State.next_forcedList (p : Place) (a : Act) : (s.next p a).forcedList = s.forcedList := rfl
@[simp] theorem State.next_preempt (p : Place) (a : Act) : (s.next p a).preempt = s.preempt := rfl
@[simp] theorem State.next_images (p : Place) (a : Act) : (s.next p a).images = s.images := rfl
@[simp] theorem State.next_links (p : Place) (a : Act) : (s.next p a).links = s.links := rfl
@[simp] theorem State.next_linkTable (p : Place) (a : Act) : (s.next p a).linkTable = s.linkTable := rfl
@[simp] theorem State.next_mseq (p : Place) (a : Act) : (s.next p a).mseq = s.mseq := rfl
@[simp] theorem State.next_taken (p : Place) (a : Act) : (s.next p a).taken = s.taken := rfl
@[simp] theorem State.next_net (p : Place) (a : Act) : (s.next p a).net = s.net := rfl
@[simp] theorem State.next_kept (p : Place) (a : Act) : (s.next p a).kept = s.kept := rfl
@[simp] theorem State.next_sessions (p : Place) (a : Act) : (s.next p a).sessions = s.sessions := rfl
@[simp] theorem State.next_hostOut (p : Place) (a : Act) : (s.next p a).hostOut = s.hostOut := rfl
@[simp] theorem State.next_staging (p : Place) (a : Act) : (s.next p a).staging = s.staging := rfl
@[simp] theorem State.next_badTags (p : Place) (a : Act) : (s.next p a).badTags = s.badTags := rfl
@[simp] theorem State.next_failedLog (p : Place) (a : Act) : (s.next p a).failedLog = s.failedLog := rfl
@[simp] theorem State.next_digest (p : Place) (a : Act) : (s.next p a).digest = s.digest := rfl
@[simp] theorem State.next_version (p : Place) (a : Act) : (s.next p a).version = s.version := rfl
@[simp] theorem State.next_features (p : Place) (a : Act) : (s.next p a).features = s.features := rfl
@[simp] theorem State.next_dawns (p : Place) (a : Act) : (s.next p a).dawns = s.dawns := rfl
@[simp] theorem State.next_dawnCfg (p : Place) (a : Act) : (s.next p a).dawnCfg = s.dawnCfg := rfl
@[simp] theorem State.next_late (p : Place) (a : Act) : (s.next p a).late = s.late := rfl
@[simp] theorem State.next_coreMap (p : Place) (a : Act) : (s.next p a).coreMap = s.coreMap := rfl
@[simp] theorem State.next_podTime (p : Place) (a : Act) : (s.next p a).podTime = s.podTime := rfl
@[simp] theorem State.next_hostLock (p : Place) (a : Act) : (s.next p a).hostLock = s.hostLock := rfl
@[simp] theorem State.next_cur (p : Place) (a : Act) : (s.next p a).cur = s.cur := rfl
@[simp] theorem State.next_hostSeen (p : Place) (a : Act) : (s.next p a).hostSeen = s.hostSeen := rfl
@[simp] theorem State.next_kicks (p : Place) (a : Act) : (s.next p a).kicks = s.kicks := rfl
@[simp] theorem State.next_repairLog (p : Place) (a : Act) : (s.next p a).repairLog = s.repairLog := rfl
@[simp] theorem State.next_scrubs (p : Place) (a : Act) : (s.next p a).scrubs = s.scrubs := rfl

/-! setRaw -/

@[simp] theorem State.setRaw_gtc (a : Nat) (bs : List Byte) : (s.setRaw a bs).gtc = s.gtc := rfl
@[simp] theorem State.setRaw_phase (a : Nat) (bs : List Byte) : (s.setRaw a bs).phase = s.phase := rfl
@[simp] theorem State.setRaw_lineKey (a : Nat) (bs : List Byte) : (s.setRaw a bs).lineKey = s.lineKey := rfl
@[simp] theorem State.setRaw_keys (a : Nat) (bs : List Byte) : (s.setRaw a bs).keys = s.keys := rfl
@[simp] theorem State.setRaw_keySerial (a : Nat) (bs : List Byte) : (s.setRaw a bs).keySerial = s.keySerial := rfl
@[simp] theorem State.setRaw_bad (a : Nat) (bs : List Byte) : (s.setRaw a bs).bad = s.bad := rfl
@[simp] theorem State.setRaw_cores (a : Nat) (bs : List Byte) : (s.setRaw a bs).cores = s.cores := rfl
@[simp] theorem State.setRaw_quires (a : Nat) (bs : List Byte) : (s.setRaw a bs).quires = s.quires := rfl
@[simp] theorem State.setRaw_dies (a : Nat) (bs : List Byte) : (s.setRaw a bs).dies = s.dies := rfl
@[simp] theorem State.setRaw_sys (a : Nat) (bs : List Byte) : (s.setRaw a bs).sys = s.sys := rfl
@[simp] theorem State.setRaw_order (a : Nat) (bs : List Byte) : (s.setRaw a bs).order = s.order := rfl
@[simp] theorem State.setRaw_launches (a : Nat) (bs : List Byte) : (s.setRaw a bs).launches = s.launches := rfl
@[simp] theorem State.setRaw_pushSeq (a : Nat) (bs : List Byte) : (s.setRaw a bs).pushSeq = s.pushSeq := rfl
@[simp] theorem State.setRaw_started (a : Nat) (bs : List Byte) : (s.setRaw a bs).started = s.started := rfl
@[simp] theorem State.setRaw_forcedList (a : Nat) (bs : List Byte) : (s.setRaw a bs).forcedList = s.forcedList := rfl
@[simp] theorem State.setRaw_preempt (a : Nat) (bs : List Byte) : (s.setRaw a bs).preempt = s.preempt := rfl
@[simp] theorem State.setRaw_images (a : Nat) (bs : List Byte) : (s.setRaw a bs).images = s.images := rfl
@[simp] theorem State.setRaw_links (a : Nat) (bs : List Byte) : (s.setRaw a bs).links = s.links := rfl
@[simp] theorem State.setRaw_linkTable (a : Nat) (bs : List Byte) : (s.setRaw a bs).linkTable = s.linkTable := rfl
@[simp] theorem State.setRaw_mseq (a : Nat) (bs : List Byte) : (s.setRaw a bs).mseq = s.mseq := rfl
@[simp] theorem State.setRaw_taken (a : Nat) (bs : List Byte) : (s.setRaw a bs).taken = s.taken := rfl
@[simp] theorem State.setRaw_net (a : Nat) (bs : List Byte) : (s.setRaw a bs).net = s.net := rfl
@[simp] theorem State.setRaw_kept (a : Nat) (bs : List Byte) : (s.setRaw a bs).kept = s.kept := rfl
@[simp] theorem State.setRaw_sessions (a : Nat) (bs : List Byte) : (s.setRaw a bs).sessions = s.sessions := rfl
@[simp] theorem State.setRaw_hostOut (a : Nat) (bs : List Byte) : (s.setRaw a bs).hostOut = s.hostOut := rfl
@[simp] theorem State.setRaw_staging (a : Nat) (bs : List Byte) : (s.setRaw a bs).staging = s.staging := rfl
@[simp] theorem State.setRaw_badTags (a : Nat) (bs : List Byte) : (s.setRaw a bs).badTags = s.badTags := rfl
@[simp] theorem State.setRaw_failedLog (a : Nat) (bs : List Byte) : (s.setRaw a bs).failedLog = s.failedLog := rfl
@[simp] theorem State.setRaw_digest (a : Nat) (bs : List Byte) : (s.setRaw a bs).digest = s.digest := rfl
@[simp] theorem State.setRaw_version (a : Nat) (bs : List Byte) : (s.setRaw a bs).version = s.version := rfl
@[simp] theorem State.setRaw_features (a : Nat) (bs : List Byte) : (s.setRaw a bs).features = s.features := rfl
@[simp] theorem State.setRaw_dawns (a : Nat) (bs : List Byte) : (s.setRaw a bs).dawns = s.dawns := rfl
@[simp] theorem State.setRaw_dawnCfg (a : Nat) (bs : List Byte) : (s.setRaw a bs).dawnCfg = s.dawnCfg := rfl
@[simp] theorem State.setRaw_late (a : Nat) (bs : List Byte) : (s.setRaw a bs).late = s.late := rfl
@[simp] theorem State.setRaw_coreMap (a : Nat) (bs : List Byte) : (s.setRaw a bs).coreMap = s.coreMap := rfl
@[simp] theorem State.setRaw_podTime (a : Nat) (bs : List Byte) : (s.setRaw a bs).podTime = s.podTime := rfl
@[simp] theorem State.setRaw_hostLock (a : Nat) (bs : List Byte) : (s.setRaw a bs).hostLock = s.hostLock := rfl
@[simp] theorem State.setRaw_agenda (a : Nat) (bs : List Byte) : (s.setRaw a bs).agenda = s.agenda := rfl
@[simp] theorem State.setRaw_cur (a : Nat) (bs : List Byte) : (s.setRaw a bs).cur = s.cur := rfl
@[simp] theorem State.setRaw_hostSeen (a : Nat) (bs : List Byte) : (s.setRaw a bs).hostSeen = s.hostSeen := rfl
@[simp] theorem State.setRaw_kicks (a : Nat) (bs : List Byte) : (s.setRaw a bs).kicks = s.kicks := rfl
@[simp] theorem State.setRaw_repairLog (a : Nat) (bs : List Byte) : (s.setRaw a bs).repairLog = s.repairLog := rfl
@[simp] theorem State.setRaw_scrubs (a : Nat) (bs : List Byte) : (s.setRaw a bs).scrubs = s.scrubs := rfl

/-! What is read after an update -/

/-- A core reads as it was set. -/
@[simp] theorem State.core_setCore_self (c : Nat) (v : Core) : (s.setCore c v).core c = v := SMap.get_set_self c v
/-- Another core reads as before. -/
theorem State.core_setCore_ne {c j : Nat} (v : Core) (hj : j ≠ c) :
    (s.setCore c v).core j = s.core j := SMap.get_set_of_ne v hj
/-- A changed core. -/
@[simp] theorem State.core_modCore_self (c : Nat) (f : Core → Core) :
    (s.modCore c f).core c = f (s.core c) := SMap.get_set_self c _
/-- Another core reads as before. -/
theorem State.core_modCore_ne {c j : Nat} (f : Core → Core) (hj : j ≠ c) :
    (s.modCore c f).core j = s.core j := SMap.get_set_of_ne _ hj
/-- A changed context. -/
@[simp] theorem State.ctx_modCtx_self (c : Nat) (r : Role) (f : Ctx → Ctx) : (s.modCtx c r f).ctx c r = f (s.ctx c r) := by
  unfold State.modCtx State.ctx; rw [State.core_modCore_self]; cases r <;> rfl
/-- A context of another core reads as before. -/
theorem State.ctx_modCtx_core {c j : Nat} {r q : Role} (f : Ctx → Ctx) (hj : j ≠ c) : (s.modCtx c r f).ctx j q = s.ctx j q := by
  unfold State.modCtx State.ctx; rw [State.core_modCore_ne s _ hj]
/-- The core table keeps its keys rising. -/
theorem State.rising_setCore {lo : Nat} (h : SMap.rising lo s.cores = true) {c : Nat} (hc : lo ≤ c) (v : Core) :
    SMap.rising lo (s.setCore c v).cores = true := SMap.rising_set v h hc
/-- The core table keeps its keys rising. -/
theorem State.rising_modCore (h : SMap.rising 0 s.cores = true) (c : Nat) (f : Core → Core) :
    SMap.rising 0 (s.modCore c f).cores = true := SMap.rising_set _ h (Nat.zero_le c)

/-- A context reads as it was set. -/
@[simp] theorem Core.ctx_setCtx_self (k : Core) (r : Role) (v : Ctx) : (k.setCtx r v).ctx r = v := by cases r <;> rfl
/-- Another context reads as before. -/
theorem Core.ctx_setCtx_ne (k : Core) {r q : Role} (v : Ctx) (h : q ≠ r) : (k.setCtx r v).ctx q = k.ctx q := by
  cases r <;> cases q <;> first | rfl | exact absurd rfl h
@[simp] theorem Core.setCtx_k (k : Core) (r : Role) (v : Ctx) : (k.setCtx r v).k = k.k := by cases r <;> rfl
@[simp] theorem Core.setCtx_rows (k : Core) (r : Role) (v : Ctx) : (k.setCtx r v).rows = k.rows := by cases r <;> rfl
@[simp] theorem Core.setCtx_side (k : Core) (r : Role) (v : Ctx) : (k.setCtx r v).side = k.side := by cases r <;> rfl
@[simp] theorem Core.setCtx_pend (k : Core) (r : Role) (v : Ctx) : (k.setCtx r v).pend = k.pend := by cases r <;> rfl
@[simp] theorem Core.setCtx_sys (k : Core) (r : Role) (v : Ctx) : (k.setCtx r v).sys = k.sys := by cases r <;> rfl
@[simp] theorem Core.setCtx_evbit (k : Core) (r : Role) (v : Ctx) : (k.setCtx r v).evbit = k.evbit := by cases r <;> rfl
@[simp] theorem Core.setCtx_evSet (k : Core) (r : Role) (v : Ctx) : (k.setCtx r v).evSet = k.evSet := by cases r <;> rfl
@[simp] theorem Core.setCtx_evClr (k : Core) (r : Role) (v : Ctx) : (k.setCtx r v).evClr = k.evClr := by cases r <;> rfl
@[simp] theorem Core.setCtx_tq (k : Core) (r : Role) (v : Ctx) : (k.setCtx r v).tq = k.tq := by cases r <;> rfl
@[simp] theorem Core.setCtx_lanes (k : Core) (r : Role) (v : Ctx) : (k.setCtx r v).lanes = k.lanes := by cases r <;> rfl
@[simp] theorem Core.setCtx_launch (k : Core) (r : Role) (v : Ctx) : (k.setCtx r v).launch = k.launch := by cases r <;> rfl
@[simp] theorem Core.setCtx_single (k : Core) (r : Role) (v : Ctx) : (k.setCtx r v).single = k.single := by cases r <;> rfl
@[simp] theorem Core.setCtx_stage (k : Core) (r : Role) (v : Ctx) : (k.setCtx r v).stage = k.stage := by cases r <;> rfl
@[simp] theorem Core.setCtx_marked (k : Core) (r : Role) (v : Ctx) : (k.setCtx r v).marked = k.marked := by cases r <;> rfl
@[simp] theorem Core.setCtx_held (k : Core) (r : Role) (v : Ctx) : (k.setCtx r v).held = k.held := by cases r <;> rfl
@[simp] theorem Core.setCtx_replay (k : Core) (r : Role) (v : Ctx) : (k.setCtx r v).replay = k.replay := by cases r <;> rfl
@[simp] theorem Core.setCtx_epoch (k : Core) (r : Role) (v : Ctx) : (k.setCtx r v).epoch = k.epoch := by cases r <;> rfl
@[simp] theorem Core.setCtx_tlb (k : Core) (r : Role) (v : Ctx) : (k.setCtx r v).tlb = k.tlb := by cases r <;> rfl
@[simp] theorem Core.setCtx_chains (k : Core) (r : Role) (v : Ctx) : (k.setCtx r v).chains = k.chains := by cases r <;> rfl
@[simp] theorem Core.setCtx_pulses (k : Core) (r : Role) (v : Ctx) : (k.setCtx r v).pulses = k.pulses := by cases r <;> rfl
@[simp] theorem Core.setCtx_marks (k : Core) (r : Role) (v : Ctx) : (k.setCtx r v).marks = k.marks := by cases r <;> rfl
@[simp] theorem Core.setCtx_xwrites (k : Core) (r : Role) (v : Ctx) : (k.setCtx r v).xwrites = k.xwrites := by cases r <;> rfl
@[simp] theorem Core.setCtx_xAt (k : Core) (r : Role) (v : Ctx) : (k.setCtx r v).xAt = k.xAt := by cases r <;> rfl
@[simp] theorem Core.setCtx_mxCount (k : Core) (r : Role) (v : Ctx) : (k.setCtx r v).mxCount = k.mxCount := by cases r <;> rfl
@[simp] theorem Core.setCtx_mxUntil (k : Core) (r : Role) (v : Ctx) : (k.setCtx r v).mxUntil = k.mxUntil := by cases r <;> rfl
@[simp] theorem Core.setCtx_mx (k : Core) (r : Role) (v : Ctx) : (k.setCtx r v).mx = k.mx := by cases r <;> rfl
@[simp] theorem Core.setCtx_port (k : Core) (r : Role) (v : Ctx) : (k.setCtx r v).port = k.port := by cases r <;> rfl
@[simp] theorem Core.setCtx_reports (k : Core) (r : Role) (v : Ctx) : (k.setCtx r v).reports = k.reports := by cases r <;> rfl
@[simp] theorem Core.setCtx_trioHandled (k : Core) (r : Role) (v : Ctx) : (k.setCtx r v).trioHandled = k.trioHandled := by cases r <;> rfl
@[simp] theorem Core.setCtx_handled (k : Core) (r : Role) (v : Ctx) : (k.setCtx r v).handled = k.handled := by cases r <;> rfl
@[simp] theorem Core.setCtx_acc (k : Core) (r : Role) (v : Ctx) : (k.setCtx r v).acc = k.acc := by cases r <;> rfl
@[simp] theorem Core.setCtx_trioAt (k : Core) (r : Role) (v : Ctx) : (k.setCtx r v).trioAt = k.trioAt := by cases r <;> rfl
@[simp] theorem Core.setCtx_failed (k : Core) (r : Role) (v : Ctx) : (k.setCtx r v).failed = k.failed := by cases r <;> rfl
@[simp] theorem Core.setCtx_fwAt (k : Core) (r : Role) (v : Ctx) : (k.setCtx r v).fwAt = k.fwAt := by cases r <;> rfl
@[simp] theorem Core.setCtx_image (k : Core) (r : Role) (v : Ctx) : (k.setCtx r v).image = k.image := by cases r <;> rfl

/-- A scalar register other than G0 reads what was written (R11). -/
theorem Ctx.getG_setG_self {x : Ctx} {n : GReg} (hn : n ≠ 0) (v : Word) :
    (x.setG n v).getG n = v := by
  unfold Ctx.getG Ctx.setG
  rw [if_neg hn, if_neg hn]
  exact SMap.get_set_self _ _
/-- Another scalar register reads as before. -/
theorem Ctx.getG_setG_ne {x : Ctx} {n m : GReg} (hm : m ≠ n) (v : Word) :
    (x.setG n v).getG m = x.getG m := by
  have e : m.toNat ≠ n.toNat := fun e => hm (BitVec.eq_of_toNat_eq e)
  unfold Ctx.getG Ctx.setG
  split
  · rfl
  · split
    · rfl
    · exact SMap.get_set_of_ne _ e
/-- G0 reads zero (R11). -/
@[simp] theorem Ctx.getG_zero (x : Ctx) : x.getG 0 = 0 := rfl
/-- A write to G0 is discarded (R11). -/
@[simp] theorem Ctx.setG_zero (x : Ctx) (v : Word) : x.setG 0 v = x := rfl
/-- K0 reads all ones (R10). -/
@[simp] theorem Core.getK_zero (k : Core) : k.getK 0 = BitVec.allOnes 2048 := rfl
/-- K0 keeps its value (R11). -/
@[simp] theorem Core.setK_zero (k : Core) (v : Mask) : k.setK 0 v = k := rfl

end Sys2Proof.Machine
end

