-- ==== Sys2Proof/Laws/Issue.lean ====
section
/-! SUPPORT. What issuing an instruction can answer: its own effect under the conditions of R83, and a trap or a wait otherwise. -/
namespace Sys2Proof.Machine

/-- Issue under the conditions of R83 gives the answer of the body. -/
theorem issue_body {h : Hdr} {rt : Rights} {uses defs : List Target} {body : State → Res} {s : State}
    (hm : s.mayIssue h rt (uses ++ defs) = true) :
    issue h rt uses defs body s =
      (let s1 := s.landed (uses ++ defs)
       let s2 := s.atIssue h (uses ++ defs)
       let c := s.cur.core
       let r := s.cur.role
       match body s2 with
       | .done t => .next (t.finish h (s.pushesOf h) (s.pc + 8) 0)
       | .jump t a b =>
         if a = 0 then
           if s.endWaits h (uses ++ defs) then .next (t.finishThen h (s.pushesOf h) s.pc .halt)
           else .next ((t.finish h (s.pushesOf h) s.pc 0).endCtx c r (t.finish h (s.pushesOf h) s.pc 0).me)
         else .next (t.finish h (s.pushesOf h) a b)
       | .halt t =>
         if s.endWaits h (uses ++ defs) then .next (t.finishThen h (s.pushesOf h) (s.pc + 8) .halt)
         else .next ((t.finish h (s.pushesOf h) (s.pc + 8) 0).endCtx c r (t.finish h (s.pushesOf h) (s.pc + 8) 0).me)
       | .trap cause sub val other => .next (s1.takeTrap c r cause sub val other s.pc)
       | .after t cause val =>
         if s.pushWaits h (uses ++ defs) then .next (t.finishThen h (s.pushesOf h) (s.pc + 8) (.trap cause val))
         else .next ((t.finish h (s.pushesOf h) (s.pc + 8) 0).takeTrap c r cause 0 val 0 (nextPc s.pc))
       | .sleep t w => .next (t.sleepNow w true)) := by
  unfold State.mayIssue at hm
  simp only [Bool.and_eq_true, Bool.not_eq_true', Bool.or_eq_true] at hm
  obtain ⟨⟨⟨⟨htok, hal⟩, hpop⟩, hbusy⟩, hchk⟩ := hm
  unfold issue
  unfold State.endWaits State.pushWaits State.atIssue State.pushesOf State.popsOf State.toksOf State.popsMade State.landed State.pc
  unfold State.toksOf at htok
  unfold State.popsOf State.toksOf State.popsMade at hpop
  unfold State.landed at hbusy hchk
  unfold State.ctx at hpop ⊢
  cases ht : tokens h s.cur.role (s.core s.cur.core).single with
  | none => rw [ht] at htok; cases htok
  | some pq =>
    obtain ⟨pops, pushes⟩ := pq
    rw [ht] at hpop
    simp only [Option.map_some, Option.getD_some] at hpop
    have hp : (!(((s.core s.cur.core).ctx s.cur.role).made || ((s.core s.cur.core).ctx s.cur.role).popsHeld) &&
        !(s.core s.cur.core).popReady pops) = false := by
      rcases hpop with h | h
      · rw [h]; rfl
      · rw [h]; simp
    simp only [ht, Option.map_some, Option.getD_some, hal, hp, hbusy, hchk, Bool.not_true, Bool.false_eq_true, if_false]
    all_goals rfl

/-- The body does its work. -/
theorem issue_done {h : Hdr} {rt : Rights} {uses defs : List Target} {body : State → Res} {s t : State}
    (hm : s.mayIssue h rt (uses ++ defs) = true) (hb : body (s.atIssue h (uses ++ defs)) = .done t) :
    issue h rt uses defs body s = .next (t.finish h (s.pushesOf h) (s.pc + 8) 0) := by
  rw [issue_body hm]; simp only [hb]

/-- The body transfers control to an address other than 0. -/
theorem issue_jump {h : Hdr} {rt : Rights} {uses defs : List Target} {body : State → Res} {s t : State} {a : Word} {b : Nat}
    (hm : s.mayIssue h rt (uses ++ defs) = true) (hb : body (s.atIssue h (uses ++ defs)) = .jump t a b) (ha : a ≠ 0) :
    issue h rt uses defs body s = .next (t.finish h (s.pushesOf h) a b) := by
  rw [issue_body hm]; simp only [hb, if_neg ha]

/-- The body traps: no effect but the exception. -/
theorem issue_trap {h : Hdr} {rt : Rights} {uses defs : List Target} {body : State → Res} {s : State} {cause sub : Nat}
    {val other : Word} (hm : s.mayIssue h rt (uses ++ defs) = true)
    (hb : body (s.atIssue h (uses ++ defs)) = .trap cause sub val other) :
    issue h rt uses defs body s =
      .next ((s.landed (uses ++ defs)).takeTrap s.cur.core s.cur.role cause sub val other s.pc) := by
  rw [issue_body hm]; simp only [hb]

/-- The body waits. -/
theorem issue_sleep {h : Hdr} {rt : Rights} {uses defs : List Target} {body : State → Res} {s t : State} {w : Wait}
    (hm : s.mayIssue h rt (uses ++ defs) = true) (hb : body (s.atIssue h (uses ++ defs)) = .sleep t w) :
    issue h rt uses defs body s = .next (t.sleepNow w true) := by
  rw [issue_body hm]; simp only [hb]

/-- A context without the right to issue takes the rights exception (R157). -/
theorem issue_denied {h : Hdr} {rt : Rights} {uses defs : List Target} {body : State → Res} {s : State}
    (ht : (s.toksOf h).isSome = true) (hr : allowed rt (s.core s.cur.core).single s.cur.role = false) :
    issue h rt uses defs body s = .next (s.takeTrap s.cur.core s.cur.role 0x03 0 0 0 s.pc) := by
  unfold State.toksOf at ht
  unfold issue State.pc State.ctx
  cases hk : tokens h s.cur.role (s.core s.cur.core).single with
  | none => rw [hk] at ht; cases ht
  | some pq => simp [hk, hr]

/-! The same for the statement forms of Safety.lean: it is enough to know the body -/

theorem completes_of {h : Hdr} {rt : Rights} {uses defs : List Target} {body : State → Res} {i : Instr} {s : State}
    {f : State → State} (he : exec i s = issue h rt uses defs body s) (hb : ∀ t, body t = .done (f t)) :
    Completes h rt (uses ++ defs) i s f := fun hm => by rw [he, issue_done hm (hb _)]

/-- An instruction whose body always does its work. -/
theorem completes_body {h : Hdr} {rt : Rights} {uses defs : List Target} {i : Instr} {s : State} {f : State → State}
    (he : exec i s = issue h rt uses defs (fun t => .done (f t)) s) : Completes h rt (uses ++ defs) i s f :=
  completes_of he (fun _ => rfl)

/-- A vector instruction whose body always does its work. -/
theorem completesV_body {h : Hdr} {uses defs : List Target} {i : Instr} {s : State} {f : State → State}
    (he : exec i s = issueV h uses defs (fun t => .done (f t)) s) : CompletesV h (uses ++ defs) i s f :=
  fun hm ho => by
    rw [he]; exact issue_done (body := fun s => if s.tileOk s.cur.core (s.core s.cur.core).accsel then .done (f s) else .trap 0x02 0 0 0) hm
      (by simp only [ho, if_true])

theorem completesIf_of {h : Hdr} {rt : Rights} {uses defs : List Target} {body : State → Res} {i : Instr} {s : State}
    {ok : State → Prop} {f : State → State} (he : exec i s = issue h rt uses defs body s)
    (hb : ∀ t, ok t → body t = .done (f t)) : CompletesIf h rt (uses ++ defs) i s ok f :=
  fun hm ho => by rw [he, issue_done hm (hb _ ho)]

theorem completesV_of {h : Hdr} {uses defs : List Target} {body : State → Res} {i : Instr} {s : State}
    {f : State → State} (he : exec i s = issueV h uses defs body s) (hb : ∀ t, body t = .done (f t)) :
    CompletesV h (uses ++ defs) i s f :=
  completesIf_of (body := fun s => if s.tileOk s.cur.core (s.core s.cur.core).accsel then body s else .trap 0x02 0 0 0) he
    (fun t ho => by simp only [ho, if_true, hb])

theorem trapsIf_of {h : Hdr} {rt : Rights} {uses defs : List Target} {body : State → Res} {i : Instr} {s : State}
    {bad : State → Prop} {cause sub : Nat} {val : Word} (he : exec i s = issue h rt uses defs body s)
    (hb : ∀ t, bad t → body t = .trap cause sub val 0) : TrapsIf h rt (uses ++ defs) i s bad cause sub val :=
  fun hm ho => by rw [he, issue_trap hm (hb _ ho)]

theorem sleepsIf_of {h : Hdr} {rt : Rights} {uses defs : List Target} {body : State → Res} {i : Instr} {s : State}
    {waits : State → Prop} {w : State → Wait} (he : exec i s = issue h rt uses defs body s)
    (hb : ∀ t, waits t → body t = .sleep t (w t)) : SleepsIf h rt (uses ++ defs) i s waits w :=
  fun hm ho => by rw [he, issue_sleep hm (hb _ ho)]

theorem jumpsIf_of {h : Hdr} {uses defs : List Target} {body : State → Res} {i : Instr} {s : State}
    {taken : State → Prop} {f : State → State} {target : State → Word} {bubbles : State → Nat}
    (he : exec i s = issue h .all uses defs body s)
    (hb : ∀ t, taken t → isCode (target t) = true → body t = .jump (f t) (target t) (bubbles t)) :
    JumpsIf h (uses ++ defs) i s taken f target bubbles :=
  fun hm ht hc h0 => by rw [he, issue_jump hm (hb _ ht hc) h0]

/-- Issue always answers a next state. -/
theorem issue_next (h : Hdr) (rt : Rights) (uses defs : List Target) (body : State → Res) (s : State) :
    ∃ t, issue h rt uses defs body s = .next t := by
  unfold issue
  dsimp only
  repeat' split
  all_goals exact ⟨_, rfl⟩

end Sys2Proof.Machine
end

