-- ==== Sys2Proof/Laws/Lanes.lean ====
section
/-! SUPPORT. Lanes of rows: what packing, unpacking and masking lanes give bit by bit, and what the shared lane-wise operations
write. -/
namespace Sys2Proof.Machine

/-! Packing and unpacking -/

theorem packLanes_nil (bits : Nat) : packLanes bits [] = 0 := rfl

theorem packLanes_cons (bits v : Nat) (l : List Nat) : packLanes bits (v :: l) = v % 2 ^ bits + packLanes bits l * 2 ^ bits := rfl

theorem packLanes_lt (bits : Nat) (l : List Nat) : packLanes bits l < 2 ^ (bits * l.length) := by
  induction l with
  | nil => exact Nat.two_pow_pos _
  | cons v l ih =>
    rw [packLanes_cons, List.length_cons, Nat.mul_succ, Nat.pow_add]
    have h1 : v % 2 ^ bits < 2 ^ bits := Nat.mod_lt _ (Nat.two_pow_pos _)
    have h2 : (packLanes bits l + 1) * 2 ^ bits ≤ 2 ^ (bits * l.length) * 2 ^ bits := Nat.mul_le_mul_right _ ih
    rw [Nat.add_mul, Nat.one_mul] at h2
    omega

/-- Bit `j` of lane `i`. -/
theorem testBit_packLanes {bits : Nat} (l : List Nat) {i j : Nat} (hj : j < bits) :
    (packLanes bits l).testBit (i * bits + j) = (l.getD i 0).testBit j := by
  induction l generalizing i with
  | nil => simp [packLanes_nil]
  | cons v l ih =>
    have hv : v % 2 ^ bits < 2 ^ bits := Nat.mod_lt _ (Nat.two_pow_pos _)
    rw [packLanes_cons, Nat.add_comm, Nat.mul_comm _ (2 ^ bits), Nat.testBit_two_pow_mul_add _ hv]
    cases i with
    | zero => simp [hj, Nat.testBit_mod_two_pow]
    | succ i =>
      have h1 : ¬ ((i + 1) * bits + j < bits) := by rw [Nat.add_mul]; omega
      have h2 : (i + 1) * bits + j - bits = i * bits + j := by rw [Nat.add_mul]; omega
      rw [if_neg h1, h2, ih]
      simp

theorem lanesOf_length (bits n x : Nat) : (lanesOf bits n x).length = n := by
  induction n generalizing x with
  | zero => rfl
  | succ n ih => simp [lanesOf, ih]

theorem getD_lanesOf {bits n x i : Nat} (hi : i < n) : (lanesOf bits n x).getD i 0 = lane bits x i := by
  induction n generalizing x i with
  | zero => omega
  | succ n ih =>
    cases i with
    | zero => simp [lanesOf, lane]
    | succ i =>
      have := ih (x := x / 2 ^ bits) (i := i) (by omega)
      simp only [lanesOf, List.getD_cons_succ, this, lane]
      rw [Nat.div_div_eq_div_mul, ← Nat.pow_add, Nat.add_mul, Nat.one_mul, Nat.add_comm bits]

theorem activity_length (k : Mask) (n per : Nat) : (activity k n per).length = n := by simp [activity]

theorem getD_activity {k : Mask} {n per i : Nat} (hi : i < n) : (activity k n per).getD i false = k.getLsbD (i / per) := by
  simp [activity, List.getD_eq_getElem?_getD, hi]

theorem getD_map {α β : Type} (f : α → β) (l : List α) (i : Nat) (d : α) (e : β) (hi : i < l.length) :
    (l.map f).getD i e = f (l.getD i d) := by
  simp [List.getD_eq_getElem?_getD, hi]

theorem getD_zipWith {α β γ : Type} (f : α → β → γ) (l : List α) (m : List β) (i : Nat) (a : α) (b : β) (c : γ) (hl : i < l.length)
    (hm : i < m.length) : (List.zipWith f l m).getD i c = f (l.getD i a) (m.getD i b) := by
  simp [List.getD_eq_getElem?_getD, List.getElem?_zipWith, hl, hm]

theorem getD_zip {α β : Type} (l : List α) (m : List β) (i : Nat) (a : α) (b : β) (hl : i < l.length) (hm : i < m.length) :
    (l.zip m).getD i (a, b) = (l.getD i a, m.getD i b) := getD_zipWith Prod.mk l m i a b (a, b) hl hm

theorem testBit_ones {bits j : Nat} (hj : j < bits) : (2 ^ bits - 1).testBit j = true := by
  rw [Nat.testBit_two_pow_sub_one]; simpa using hj

/-- A row write of marked lanes. -/
theorem writesLanes_of {bits n : Nat} {act : List Bool} {vs : List Nat} {on : Nat → Bool} {f : Nat → Nat} (ha : act.length = n)
    (hon : ∀ i, i < n → act.getD i false = on i) (hf : ∀ i, i < n → on i = true → vs.getD i 0 % 2 ^ bits = f i % 2 ^ bits) :
    WritesLanes bits n on (laneMask bits act) (packLanes bits vs) f := by
  refine ⟨?_, fun i hi j hj => ⟨?_, fun ho => ?_⟩⟩
  · have := packLanes_lt bits (act.map (fun b => if b then 2 ^ bits - 1 else 0))
    rw [List.length_map, ha] at this
    exact this
  · unfold laneMask
    rw [testBit_packLanes _ hj, getD_map _ _ _ false 0 (by omega), hon i hi]
    cases on i with
    | true => simp [testBit_ones hj]
    | false => simp
  · rw [testBit_packLanes _ hj]
    have := congrArg (fun x => Nat.testBit x j) (hf i hi ho)
    simpa [Nat.testBit_mod_two_pow, hj] using this

theorem State.getD_lit {s : State} {k : KReg} {ty : ETy} {i n : Nat} (hi : i < n) :
    (activity (s.kreg k) n (perBit ty)).getD i false = s.lit k ty i := getD_activity hi

theorem State.getD_bit {s : State} {k : KReg} {i n : Nat} (hi : i < n) : (activity (s.kreg k) n 1).getD i false = s.bit k i := by
  rw [getD_activity hi, Nat.div_one]; rfl

/-! Lane-wise operations that round nothing -/

theorem putsLanes_of {h : Hdr} {uses defs : List Target} {i : Instr} {s : State} {bits n : Nat} {on : State → Nat → Bool}
    {lat : Option Nat} {d : VReg} {f : State → Nat → Nat} {mask value : State → Nat}
    (he : exec i s = issueV h uses defs (fun t => .done (t.putV d (mask t) (value t) lat)) s)
    (hw : ∀ t, WritesLanes bits n (on t) (mask t) (value t) (f t)) : PutsLanes h (uses ++ defs) i s bits n on lat d f :=
  fun hm ho => ⟨_, _, completesV_body (f := fun t => t.putV d (mask t) (value t) lat) he hm ho, hw _⟩

theorem plainOp_puts {h : Hdr} {k : KReg} {ty : ETy} {d a b : VReg} {regs : List VReg} {g : Nat → Nat → Nat} {i : Instr} {s : State}
    {f : State → Nat → Nat} (he : exec i s = plainOp h k ty d a b regs g s)
    (hf : ∀ t j, j < etyLanes ty → f t j % 2 ^ etyBits ty =
      g (lane (etyBits ty) (t.v a) j) (lane (etyBits ty) (t.v b) j) % 2 ^ etyBits ty) :
    PutsLanes h (kT k :: regs.flatMap s.vT ++ s.vT d) i s (etyBits ty) (etyLanes ty) (fun t => t.lit k ty) (some 4) d f :=
  putsLanes_of he (fun t => writesLanes_of (activity_length _ _ _) (fun j hj => State.getD_lit hj) (fun j hj _ => by
    rw [getD_zipWith _ _ _ _ 0 0 0 (by rw [lanesOf_length]; exact hj) (by rw [lanesOf_length]; exact hj), getD_lanesOf hj, getD_lanesOf hj,
      hf t j hj]))

theorem lane_lt (bits x i : Nat) : lane bits x i < 2 ^ bits := Nat.mod_lt _ (Nat.two_pow_pos _)

/-! Lane-wise operations that round -/

theorem countOn_succ (on : Nat → Bool) (n : Nat) : countOn on (n + 1) = (if on 0 then 1 else 0) + countOn (fun i => on (i + 1)) n := by
  unfold countOn
  rw [List.range_succ_eq_map, List.filter_cons, List.filter_map]
  cases on 0 <;> simp [Function.comp_def] <;> omega

theorem drawn_succ (seed : Word) (n : Nat) : drawn (seedDraw seed).1 n = drawn seed (n + 1) := rfl

/-- What a run over lanes gives: each active lane its result, with its draw under RSTO; the generator after all draws; and the sticky
bits of the active lanes. -/
theorem mapLanes_spec {m : Rm} (f : Nat → Nat → Nat → Nat → Rounded) (l : List (Bool × Nat × Nat × Nat)) (seed : Word) :
    let on (i : Nat) : Bool := (l.getD i (false, 0, 0, 0)).1
    let out (i : Nat) : Rounded :=
      f (laneDraw m seed on i) (l.getD i (false, 0, 0, 0)).2.1 (l.getD i (false, 0, 0, 0)).2.2.1 (l.getD i (false, 0, 0, 0)).2.2.2
    let o := mapLanes (m == .rsto) f l seed
    (∀ i, i < l.length → on i = true → o.vals.getD i 0 = (out i).bits) ∧
      o.seed = (if m = .rsto then drawn seed (countOn on l.length) else seed) ∧
      (o.unf = true ↔ ∃ i, i < l.length ∧ on i = true ∧ (out i).unf = true) ∧
      (o.ovf = true ↔ ∃ i, i < l.length ∧ on i = true ∧ (out i).ovf = true) := by
  induction l generalizing seed with
  | nil => refine ⟨?_, ?_, ?_, ?_⟩ <;> simp [mapLanes, countOn, drawn]
  | cons q l ih =>
    obtain ⟨act, a, b, c⟩ := q
    have split (P : Nat → Prop) : (∃ i, i < (((act, a, b, c) :: l : List (Bool × Nat × Nat × Nat))).length ∧ P i) ↔ P 0 ∨ ∃ i, i < l.length ∧ P (i + 1) := by
      constructor
      · rintro ⟨i, hi, hp⟩
        cases i with
        | zero => exact .inl hp
        | succ i => exact .inr ⟨i, by simpa using hi, hp⟩
      · rintro (hp | ⟨i, hi, hp⟩)
        · exact ⟨0, by simp, hp⟩
        · exact ⟨i + 1, by simpa using hi, hp⟩
    cases act with
    | false =>
      obtain ⟨h1, h2, h3, h4⟩ := ih seed
      have draw (i : Nat) : laneDraw m seed (fun i => (((false, a, b, c) :: l).getD i (false, 0, 0, 0)).1) (i + 1) =
          laneDraw m seed (fun i => (l.getD i (false, 0, 0, 0)).1) i := by
        simp [laneDraw, countOn_succ]
      refine ⟨?_, ?_, ?_, ?_⟩
      · intro i hi ho
        cases i with
        | zero => simp at ho
        | succ i =>
          have := h1 i (by simpa using hi) (by simpa using ho)
          simp only [draw]
          simpa [mapLanes] using this
      · simpa [mapLanes, countOn_succ] using h2
      · rw [split]
        simp only [draw]
        simpa [mapLanes] using h3
      · rw [split]
        simp only [draw]
        simpa [mapLanes] using h4
    | true =>
      let seed1 : Word := if m = .rsto then (seedDraw seed).1 else seed
      obtain ⟨h1, h2, h3, h4⟩ := ih seed1
      have draw (i : Nat) : laneDraw m seed (fun i => (((true, a, b, c) :: l).getD i (false, 0, 0, 0)).1) (i + 1) =
          laneDraw m seed1 (fun i => (l.getD i (false, 0, 0, 0)).1) i := by
        by_cases hm : m = .rsto
        · simp [laneDraw, countOn_succ, hm, seed1, drawn_succ, Nat.add_comm 1]
        · simp [laneDraw, hm]
      have draw0 : laneDraw m seed (fun i => (((true, a, b, c) :: l).getD i (false, 0, 0, 0)).1) 0 = if m = .rsto then (seedDraw seed).2 else 0 := by
        simp [laneDraw, countOn, drawn]
      have hml : mapLanes (m == .rsto) f ((true, a, b, c) :: l) seed =
          (let v := f (if m = .rsto then (seedDraw seed).2 else 0) a b c
           let o := mapLanes (m == .rsto) f l seed1
           { vals := v.bits :: o.vals, seed := o.seed, unf := v.unf || o.unf, ovf := v.ovf || o.ovf }) := by
        by_cases hm : m = .rsto <;> simp [mapLanes, hm, seed1]
      refine ⟨?_, ?_, ?_, ?_⟩
      · intro i hi ho
        cases i with
        | zero => simp only [hml, draw0]; rfl
        | succ i =>
          have := h1 i (by simpa using hi) (by simpa using ho)
          simp only [draw, hml]
          simpa using this
      · rw [hml]
        refine h2.trans ?_
        by_cases hm : m = .rsto
        · simp [hm, countOn_succ, seed1, drawn_succ, Nat.add_comm 1]
        · simp [hm, seed1]
      · rw [split]
        simp only [draw, draw0, hml]
        simpa using or_congr_right h3
      · rw [split]
        simp only [draw, draw0, hml]
        simpa using or_congr_right h4

/-- The sticky bits of a run of lanes. -/
theorem stickyBits_spec (unf ovf nan : Bool) : stickyBits unf ovf nan < 8 ∧ (stickyBits unf ovf nan).testBit 2 = unf ∧
    (stickyBits unf ovf nan).testBit 1 = ovf ∧ (stickyBits unf ovf nan).testBit 0 = nan := by
  cases unf <;> cases ovf <;> cases nan <;> decide

/-- The lanes that a run of `mapLanes` over given sources writes, with its seed and its sticky bits. -/
theorem mapLanes_writes {m : Rm} {bits n : Nat} {act : List Bool} {xs ys zs : List Nat} {on : Nat → Bool} {seed : Word}
    (f : Nat → Nat → Nat → Nat → Rounded) {out : Nat → Rounded} (ha : act.length = n) (hx : xs.length = n) (hy : ys.length = n) (hz : zs.length = n)
    (hon : ∀ i, i < n → act.getD i false = on i)
    (hout : ∀ i, i < n → on i = true → out i = f (laneDraw m seed on i) (xs.getD i 0) (ys.getD i 0) (zs.getD i 0)) :
    let o := mapLanes (m == .rsto) f (zipLanes act xs ys zs) seed
    WritesLanes bits n on (laneMask bits act) (packLanes bits o.vals) (fun i => (out i).bits) ∧
      o.seed = (if m = .rsto then drawn seed (countOn on n) else seed) ∧
      (o.unf = true ↔ ∃ i, i < n ∧ on i = true ∧ (out i).unf = true) ∧
      (o.ovf = true ↔ ∃ i, i < n ∧ on i = true ∧ (out i).ovf = true) := by
  intro o
  have hlen : (zipLanes act xs ys zs).length = n := by simp [zipLanes, ha, hx, hy, hz]
  have hat (i : Nat) (hi : i < n) : (zipLanes act xs ys zs).getD i (false, 0, 0, 0) = (on i, xs.getD i 0, ys.getD i 0, zs.getD i 0) := by
    unfold zipLanes
    rw [getD_zip _ _ _ _ _ (by omega) (by simp; omega), getD_zip _ _ _ _ _ (by omega) (by simp; omega),
      getD_zip _ _ _ _ _ (by omega) (by omega), hon i hi]
  have hdraw (i : Nat) (hi : i ≤ n) : laneDraw m seed (fun i => ((zipLanes act xs ys zs).getD i (false, 0, 0, 0)).1) i = laneDraw m seed on i := by
    have : countOn (fun i => ((zipLanes act xs ys zs).getD i (false, 0, 0, 0)).1) i = countOn on i := by
      unfold countOn
      rw [List.filter_congr (fun j hj => by rw [hat j (by have := List.mem_range.1 hj; omega)])]
    unfold laneDraw; rw [this]
  have hcount : countOn (fun i => ((zipLanes act xs ys zs).getD i (false, 0, 0, 0)).1) n = countOn on n := by
    unfold countOn
    rw [List.filter_congr (fun j hj => by rw [hat j (by have := List.mem_range.1 hj; omega)])]
  obtain ⟨h1, h2, h3, h4⟩ := mapLanes_spec (m := m) f (zipLanes act xs ys zs) seed
  have hrew (i : Nat) (hi : i < n) (ho : on i = true) : f (laneDraw m seed (fun i => ((zipLanes act xs ys zs).getD i (false, 0, 0, 0)).1) i)
      ((zipLanes act xs ys zs).getD i (false, 0, 0, 0)).2.1 ((zipLanes act xs ys zs).getD i (false, 0, 0, 0)).2.2.1
      ((zipLanes act xs ys zs).getD i (false, 0, 0, 0)).2.2.2 = out i := by
    rw [hdraw i (by omega), hat i hi, hout i hi ho]
  dsimp only at h1 h2 h3 h4
  rw [hlen] at h1 h2 h3 h4
  refine ⟨writesLanes_of ha hon (fun i hi ho => ?_), ?_, ?_, ?_⟩
  · rw [h1 i hi (by rw [hat i hi]; exact ho), hrew i hi ho]
  · exact h2.trans (by rw [hcount])
  · refine h3.trans ⟨?_, ?_⟩
    · rintro ⟨i, hi, ho, hu⟩
      rw [hat i hi] at ho
      exact ⟨i, hi, ho, by rw [hrew i hi ho] at hu; exact hu⟩
    · rintro ⟨i, hi, ho, hu⟩
      exact ⟨i, hi, by rw [hat i hi]; exact ho, by rw [hrew i hi ho]; exact hu⟩
  · refine h4.trans ⟨?_, ?_⟩
    · rintro ⟨i, hi, ho, hu⟩
      rw [hat i hi] at ho
      exact ⟨i, hi, ho, by rw [hrew i hi ho] at hu; exact hu⟩
    · rintro ⟨i, hi, ho, hu⟩
      exact ⟨i, hi, by rw [hat i hi]; exact ho, by rw [hrew i hi ho]; exact hu⟩

/-- A vector instruction whose body does its work where the accumulator tile is reserved (R158). -/
theorem issueV_done {h : Hdr} {uses defs : List Target} {body : State → Res} {s t : State} (hm : s.mayIssue h .comp (uses ++ defs) = true)
    (ho : (s.atIssue h (uses ++ defs)).tileOk (s.atIssue h (uses ++ defs)).cur.core
      ((s.atIssue h (uses ++ defs)).core (s.atIssue h (uses ++ defs)).cur.core).accsel = true)
    (hb : body (s.atIssue h (uses ++ defs)) = .done t) :
    issueV h uses defs body s = .next (t.finish h (s.pushesOf h) (s.pc + 8) 0) :=
  issue_done (body := fun s => if s.tileOk s.cur.core (s.core s.cur.core).accsel then body s else .trap 0x02 0 0 0) hm
    (by simp only [ho, if_true]; exact hb)

theorem roundedOp_rounds {h : Hdr} {k : KReg} {ty : ETy} {rm : RmCode} {lat : Nat} {d a b c : VReg} {regs : List VReg}
    {g : Rm → Nat → Nat → Nat → Nat → Rounded} {i : Instr} {s : State} {out : State → Rm → Nat → Nat → Rounded}
    (he : exec i s = roundedOp h k ty rm lat d a b c regs g s)
    (hf : ∀ t m r j, out t m r j = g m r (lane (etyBits ty) (t.v a) j) (lane (etyBits ty) (t.v b) j) (lane (etyBits ty) (t.v c) j)) :
    RoundsLanes h (kT k :: regs.flatMap s.vT ++ s.vT d) i s (fun _ => True) (etyBits ty) (etyLanes ty) (fun t => t.lit k ty) rm lat d out
      (fun _ => False) (fun _ m => m = 0) (fun v u => u = v) := by
  intro hm t ho _ m lane'
  have hw := mapLanes_writes (m := m) (bits := etyBits ty) (n := etyLanes ty) (act := activity (t.kreg k) (etyLanes ty) (perBit ty))
    (xs := lanesOf (etyBits ty) (etyLanes ty) (t.v a)) (ys := lanesOf (etyBits ty) (etyLanes ty) (t.v b))
    (zs := lanesOf (etyBits ty) (etyLanes ty) (t.v c)) (on := t.lit k ty) (seed := t.seed) (g m) (out := lane')
    (activity_length _ _ _) (lanesOf_length _ _ _) (lanesOf_length _ _ _) (lanesOf_length _ _ _) (fun i hi => State.getD_lit hi)
    (fun i hi _ => by rw [getD_lanesOf hi, getD_lanesOf hi, getD_lanesOf hi]; exact hf t m _ i)
  obtain ⟨h1, h2, h3, h4⟩ := hw
  let o := mapLanes (m == .rsto) (g m) (zipLanes (activity (t.kreg k) (etyLanes ty) (perBit ty)) (lanesOf (etyBits ty) (etyLanes ty) (t.v a))
    (lanesOf (etyBits ty) (etyLanes ty) (t.v b)) (lanesOf (etyBits ty) (etyLanes ty) (t.v c))) t.seed
  have hex : exec i s = .next ((((t.setSeed o.seed).putV d (laneMask (etyBits ty) (activity (t.kreg k) (etyLanes ty) (perBit ty)))
      (packLanes (etyBits ty) o.vals) (some lat)).putSticky (stickyBits o.unf o.ovf false) lat).finish h (s.pushesOf h) (s.pc + 8) 0) := by
    rw [he]; exact issueV_done hm ho rfl
  refine ⟨_, _, stickyBits o.unf o.ovf false, 0, _, hex, ?_, h1, rfl, (stickyBits_spec _ _ _).1, ?_, ?_, ?_⟩
  · rw [h2]; rfl
  · rw [(stickyBits_spec _ _ _).2.1]; exact h3
  · rw [(stickyBits_spec _ _ _).2.2.1]; exact h4
  · rw [(stickyBits_spec _ _ _).2.2.2]; simp

end Sys2Proof.Machine
end

