-- ==== Sys2Proof/Laws/Memory.lean ====
section
/-! SUPPORT. Laws of memory: a byte reads as it was written, other bytes read as before, and every operation over memory keeps
its canonical form. -/
namespace Sys2Proof.Machine

/-- Canonical memory has rising addresses. -/
theorem Memory.wf_rising {m : List Host.Cell} (h : Memory.wf m = true) : SMap.rising 0 m = true :=
  SMap.rising_of_wfFrom (d := (0 : Byte)) h

/-- What one byte of memory reads as after a write of bytes. -/
theorem State.raw_setRaw (s : State) (h : Memory.wf s.mem = true) (a : Nat) (bs : List Byte) (x : Nat) :
    (s.setRaw a bs).raw x 1 = if hx : a ≤ x ∧ x < a + bs.length then [bs[x - a]'(by omega)] else s.raw x 1 := by
  have h' : Memory.wf (s.setRaw a bs).mem = true := SMap.wf_write a bs h
  simp only [State.raw, SMap.read_one (Memory.wf_rising h'), SMap.read_one (Memory.wf_rising h)]
  simp only [State.setRaw, SMap.get_write a bs (Memory.wf_rising h)]
  split <;> rfl

/-- A write of bytes keeps the canonical form. -/
theorem State.wf_setRaw {s : State} (h : Memory.wf s.mem = true) (a : Nat) (bs : List Byte) :
    Memory.wf (s.setRaw a bs).mem = true := SMap.wf_write a bs h

/-- So does a chain of steps that each keep it. -/
theorem State.wf_foldl {β : Type} (f : State → β → State) (hf : ∀ s x, Memory.wf s.mem = true → Memory.wf (f s x).mem = true)
    (l : List β) (s : State) (h : Memory.wf s.mem = true) : Memory.wf (l.foldl f s).mem = true := by
  induction l generalizing s with
  | nil => exact h
  | cons x l ih => exact ih (f s x) (hf s x h)

/-- A write under a key keeps the canonical form (R225). -/
theorem State.wf_writeKey {s : State} (h : Memory.wf s.mem = true) (key pa : Nat) (bs : List Byte) :
    Memory.wf (s.writeKey key pa bs).mem = true := by
  unfold State.writeKey
  split
  · refine State.wf_setRaw (State.wf_foldl _ (fun s l hs => ?_) _ s h) pa bs
    split
    · exact hs
    · exact State.wf_setRaw hs _ _
  · exact State.wf_setRaw h pa bs

/-- A write of pieces keeps the canonical form. -/
theorem State.wf_writePieces (c : Nat) (ps : List (Nat × Nat)) (bs : List Byte) {s : State} (h : Memory.wf s.mem = true) :
    Memory.wf (s.writePieces c ps bs).mem = true := by
  induction ps generalizing s bs with
  | nil => exact h
  | cons p ps ih => exact ih _ (State.wf_setRaw h _ _)

/-- A scratchpad write keeps the canonical form. -/
theorem State.wf_spWrite {s : State} (h : Memory.wf s.mem = true) (c : Nat) (swz : BitVec 3) (e : Nat) (bs : List Byte) :
    Memory.wf (s.spWrite c swz e bs).mem = true := State.wf_writePieces c _ bs h

/-- Dropping the READY bits keeps the canonical form (R430). -/
theorem State.wf_dropReady {s : State} (h : Memory.wf s.mem = true) (pa n : Nat) : Memory.wf (s.dropReady pa n).mem = true := by
  unfold State.dropReady
  refine State.wf_foldl _ (fun s x hs => ?_) _ s h
  dsimp only
  split
  · exact hs
  · refine State.wf_foldl _ (fun s i hs => ?_) _ s hs
    split
    · exact State.wf_setRaw hs _ _
    · exact hs

/-- Clearing an error touches no byte (R385). -/
@[simp] theorem State.clearBad_mem (s : State) (pa n : Nat) : (s.clearBad pa n).mem = s.mem := by
  unfold State.clearBad; split <;> rfl

/-- A write of a window descriptor keeps the canonical form (R226). -/
theorem State.wf_windowWrite {s : State} (h : Memory.wf s.mem = true) (st w i : Nat) (v : Word) :
    Memory.wf (s.windowWrite st w i v).mem = true := by
  unfold State.windowWrite
  dsimp only
  split
  · split
    · exact State.wf_setRaw h _ _
    · exact h
  · split
    · exact State.wf_setRaw (State.wf_setRaw h _ _) _ _
    · exact State.wf_setRaw h _ _

/-- A write of window descriptors keeps the canonical form (R226). -/
theorem State.wf_descWrites (fuel pa : Nat) (bs : List Byte) {s : State} (h : Memory.wf s.mem = true) :
    Memory.wf (s.descWrites fuel pa bs).mem = true := by
  induction fuel generalizing s pa bs with
  | zero => exact h
  | succ n ih =>
    unfold State.descWrites
    split
    · exact h
    · dsimp only
      refine ih _ _ ?_
      split
      · exact State.wf_windowWrite h _ _ _ _
      · exact h

/-- A write at a physical address keeps the canonical form. -/
theorem State.wf_writePhys {s : State} (h : Memory.wf s.mem = true) (key pa : Nat) (bs : List Byte) :
    Memory.wf (s.writePhys key pa bs).mem = true := by
  unfold State.writePhys
  split
  · exact State.wf_descWrites _ _ _ h
  · exact State.wf_dropReady (State.wf_writeKey (by simpa using h) _ _ _) _ _

/-- A write of translated parts keeps the canonical form. -/
theorem State.wf_writeParts (ps : List Part) (bs : List Byte) {s : State} (h : Memory.wf s.mem = true) :
    Memory.wf (s.writeParts ps bs).mem = true := by
  induction ps generalizing s bs with
  | nil => exact h
  | cons p ps ih => exact ih _ (State.wf_writePhys h _ _ _)

/-- Memory after reset is canonical. -/
theorem State.wf_reset : Memory.wf State.reset.mem = true := rfl

end Sys2Proof.Machine
end

