-- ==== Sys2Proof/Laws/PerInstr.lean ====
section
/-! SUPPORT. What holds of every constructor of `Instr`, one lemma for each. Family `Fits`: an encoded word of the control core has
64 bits (R63). -/
namespace Sys2Proof
open Sys2Proof.Machine

/-- The word of the instruction, where it has one, fits into 64 bits (R63). -/
def Laws.Fits.Statement (i : Instr) : Prop := ∀ w, encodeWord i = some w → w < 2 ^ 64

namespace Laws.Fits

theorem lt16 (x : BitVec 16) : x.toNat < 2 ^ 16 := x.isLt
theorem lt12 (x : BitVec 12) : x.toNat < 2 ^ 12 := x.isLt
theorem lt24 (x : BitVec 24) : x.toNat < 2 ^ 24 := x.isLt
theorem lt6 (x : BitVec 6) : x.toNat < 2 ^ 6 := x.isLt
theorem lt32 (x : BitVec 32) : x.toNat < 2 ^ 32 := x.isLt
theorem imm_lt (x : BitVec 6) : x.toNat < 2 ^ 32 := by have := x.isLt; omega
theorem fence_lt (sc : Scope) (o : FOrd) : scopeNum sc + fordNum o * 8 < 2 ^ 6 := by cases sc <;> cases o <;> decide
theorem imm2_lt (x y : BitVec 6) : x.toNat + y.toNat * 64 < 2 ^ 32 := by have := x.isLt; have := y.isLt; omega

theorem add (h : Hdr) (d a b : GReg) : Statement (.add h d a b) := by
  rintro _ ⟨⟩; exact eR_lt (by decide) (toNat_lt64 _) (toNat_lt64 _) (toNat_lt64 _) (by decide)
theorem sub (h : Hdr) (d a b : GReg) : Statement (.sub h d a b) := by
  rintro _ ⟨⟩; exact eR_lt (by decide) (toNat_lt64 _) (toNat_lt64 _) (toNat_lt64 _) (by decide)
theorem mul (h : Hdr) (d a b : GReg) : Statement (.mul h d a b) := by
  rintro _ ⟨⟩; exact eR_lt (by decide) (toNat_lt64 _) (toNat_lt64 _) (toNat_lt64 _) (by decide)
theorem mulh (h : Hdr) (d a b : GReg) : Statement (.mulh h d a b) := by
  rintro _ ⟨⟩; exact eR_lt (by decide) (toNat_lt64 _) (toNat_lt64 _) (toNat_lt64 _) (by decide)
theorem mulhn (h : Hdr) (d a b : GReg) : Statement (.mulhn h d a b) := by
  rintro _ ⟨⟩; exact eR_lt (by decide) (toNat_lt64 _) (toNat_lt64 _) (toNat_lt64 _) (by decide)
theorem div (h : Hdr) (d a b : GReg) : Statement (.div h d a b) := by
  rintro _ ⟨⟩; exact eR_lt (by decide) (toNat_lt64 _) (toNat_lt64 _) (toNat_lt64 _) (by decide)
theorem divn (h : Hdr) (d a b : GReg) : Statement (.divn h d a b) := by
  rintro _ ⟨⟩; exact eR_lt (by decide) (toNat_lt64 _) (toNat_lt64 _) (toNat_lt64 _) (by decide)
theorem rem (h : Hdr) (d a b : GReg) : Statement (.rem h d a b) := by
  rintro _ ⟨⟩; exact eR_lt (by decide) (toNat_lt64 _) (toNat_lt64 _) (toNat_lt64 _) (by decide)
theorem remn (h : Hdr) (d a b : GReg) : Statement (.remn h d a b) := by
  rintro _ ⟨⟩; exact eR_lt (by decide) (toNat_lt64 _) (toNat_lt64 _) (toNat_lt64 _) (by decide)
theorem and (h : Hdr) (d a b : GReg) : Statement (.and h d a b) := by
  rintro _ ⟨⟩; exact eR_lt (by decide) (toNat_lt64 _) (toNat_lt64 _) (toNat_lt64 _) (by decide)
theorem or (h : Hdr) (d a b : GReg) : Statement (.or h d a b) := by
  rintro _ ⟨⟩; exact eR_lt (by decide) (toNat_lt64 _) (toNat_lt64 _) (toNat_lt64 _) (by decide)
theorem xor (h : Hdr) (d a b : GReg) : Statement (.xor h d a b) := by
  rintro _ ⟨⟩; exact eR_lt (by decide) (toNat_lt64 _) (toNat_lt64 _) (toNat_lt64 _) (by decide)
theorem andn (h : Hdr) (d a b : GReg) : Statement (.andn h d a b) := by
  rintro _ ⟨⟩; exact eR_lt (by decide) (toNat_lt64 _) (toNat_lt64 _) (toNat_lt64 _) (by decide)
theorem shl (h : Hdr) (d a b : GReg) : Statement (.shl h d a b) := by
  rintro _ ⟨⟩; exact eR_lt (by decide) (toNat_lt64 _) (toNat_lt64 _) (toNat_lt64 _) (by decide)
theorem shr (h : Hdr) (d a b : GReg) : Statement (.shr h d a b) := by
  rintro _ ⟨⟩; exact eR_lt (by decide) (toNat_lt64 _) (toNat_lt64 _) (toNat_lt64 _) (by decide)
theorem sar (h : Hdr) (d a b : GReg) : Statement (.sar h d a b) := by
  rintro _ ⟨⟩; exact eR_lt (by decide) (toNat_lt64 _) (toNat_lt64 _) (toNat_lt64 _) (by decide)
theorem rol (h : Hdr) (d a b : GReg) : Statement (.rol h d a b) := by
  rintro _ ⟨⟩; exact eR_lt (by decide) (toNat_lt64 _) (toNat_lt64 _) (toNat_lt64 _) (by decide)
theorem min (h : Hdr) (d a b : GReg) : Statement (.min h d a b) := by
  rintro _ ⟨⟩; exact eR_lt (by decide) (toNat_lt64 _) (toNat_lt64 _) (toNat_lt64 _) (by decide)
theorem max (h : Hdr) (d a b : GReg) : Statement (.max h d a b) := by
  rintro _ ⟨⟩; exact eR_lt (by decide) (toNat_lt64 _) (toNat_lt64 _) (toNat_lt64 _) (by decide)
theorem minn (h : Hdr) (d a b : GReg) : Statement (.minn h d a b) := by
  rintro _ ⟨⟩; exact eR_lt (by decide) (toNat_lt64 _) (toNat_lt64 _) (toNat_lt64 _) (by decide)
theorem maxn (h : Hdr) (d a b : GReg) : Statement (.maxn h d a b) := by
  rintro _ ⟨⟩; exact eR_lt (by decide) (toNat_lt64 _) (toNat_lt64 _) (toNat_lt64 _) (by decide)
theorem seq (h : Hdr) (d a b : GReg) : Statement (.seq h d a b) := by
  rintro _ ⟨⟩; exact eR_lt (by decide) (toNat_lt64 _) (toNat_lt64 _) (toNat_lt64 _) (by decide)
theorem sne (h : Hdr) (d a b : GReg) : Statement (.sne h d a b) := by
  rintro _ ⟨⟩; exact eR_lt (by decide) (toNat_lt64 _) (toNat_lt64 _) (toNat_lt64 _) (by decide)
theorem slt (h : Hdr) (d a b : GReg) : Statement (.slt h d a b) := by
  rintro _ ⟨⟩; exact eR_lt (by decide) (toNat_lt64 _) (toNat_lt64 _) (toNat_lt64 _) (by decide)
theorem sltn (h : Hdr) (d a b : GReg) : Statement (.sltn h d a b) := by
  rintro _ ⟨⟩; exact eR_lt (by decide) (toNat_lt64 _) (toNat_lt64 _) (toNat_lt64 _) (by decide)
theorem sel (h : Hdr) (d a b c : GReg) : Statement (.sel h d a b c) := by
  rintro _ ⟨⟩; exact eR_lt (by decide) (toNat_lt64 _) (toNat_lt64 _) (toNat_lt64 _) (by have := c.isLt; omega)
theorem madd (h : Hdr) (d a b c : GReg) : Statement (.madd h d a b c) := by
  rintro _ ⟨⟩; exact eR_lt (by decide) (toNat_lt64 _) (toNat_lt64 _) (toNat_lt64 _) (by have := c.isLt; omega)
theorem addi (h : Hdr) (d a : GReg) (imm : BitVec 32) : Statement (.addi h d a imm) := by
  rintro _ ⟨⟩; exact eI_lt (by decide) (toNat_lt64 _) (toNat_lt64 _) (by decide) (lt32 _)
theorem andi (h : Hdr) (d a : GReg) (imm : BitVec 32) : Statement (.andi h d a imm) := by
  rintro _ ⟨⟩; exact eI_lt (by decide) (toNat_lt64 _) (toNat_lt64 _) (by decide) (lt32 _)
theorem ori (h : Hdr) (d a : GReg) (imm : BitVec 32) : Statement (.ori h d a imm) := by
  rintro _ ⟨⟩; exact eI_lt (by decide) (toNat_lt64 _) (toNat_lt64 _) (by decide) (lt32 _)
theorem xori (h : Hdr) (d a : GReg) (imm : BitVec 32) : Statement (.xori h d a imm) := by
  rintro _ ⟨⟩; exact eI_lt (by decide) (toNat_lt64 _) (toNat_lt64 _) (by decide) (lt32 _)
theorem shli (h : Hdr) (d a : GReg) (n : BitVec 6) : Statement (.shli h d a n) := by
  rintro _ ⟨⟩; exact eI_lt (by decide) (toNat_lt64 _) (toNat_lt64 _) (by decide) (imm_lt _)
theorem shri (h : Hdr) (d a : GReg) (n : BitVec 6) : Statement (.shri h d a n) := by
  rintro _ ⟨⟩; exact eI_lt (by decide) (toNat_lt64 _) (toNat_lt64 _) (by decide) (imm_lt _)
theorem sari (h : Hdr) (d a : GReg) (n : BitVec 6) : Statement (.sari h d a n) := by
  rintro _ ⟨⟩; exact eI_lt (by decide) (toNat_lt64 _) (toNat_lt64 _) (by decide) (imm_lt _)
theorem slti (h : Hdr) (d a : GReg) (imm : BitVec 32) : Statement (.slti h d a imm) := by
  rintro _ ⟨⟩; exact eI_lt (by decide) (toNat_lt64 _) (toNat_lt64 _) (by decide) (lt32 _)
theorem sltni (h : Hdr) (d a : GReg) (imm : BitVec 32) : Statement (.sltni h d a imm) := by
  rintro _ ⟨⟩; exact eI_lt (by decide) (toNat_lt64 _) (toNat_lt64 _) (by decide) (lt32 _)
theorem muli (h : Hdr) (d a : GReg) (imm : BitVec 32) : Statement (.muli h d a imm) := by
  rintro _ ⟨⟩; exact eI_lt (by decide) (toNat_lt64 _) (toNat_lt64 _) (by decide) (lt32 _)
theorem li (h : Hdr) (d : GReg) (imm : BitVec 32) : Statement (.li h d imm) := by
  rintro _ ⟨⟩; exact eI_lt (by decide) (toNat_lt64 _) (by decide) (by decide) (lt32 _)
theorem lih (h : Hdr) (d a : GReg) (imm : BitVec 32) : Statement (.lih h d a imm) := by
  rintro _ ⟨⟩; exact eI_lt (by decide) (toNat_lt64 _) (toNat_lt64 _) (by decide) (lt32 _)
theorem clz (h : Hdr) (d a : GReg) : Statement (.clz h d a) := by
  rintro _ ⟨⟩; exact eR_lt (by decide) (toNat_lt64 _) (toNat_lt64 _) (by decide) (by decide)
theorem ctz (h : Hdr) (d a : GReg) : Statement (.ctz h d a) := by
  rintro _ ⟨⟩; exact eR_lt (by decide) (toNat_lt64 _) (toNat_lt64 _) (by decide) (by decide)
theorem popc (h : Hdr) (d a : GReg) : Statement (.popc h d a) := by
  rintro _ ⟨⟩; exact eR_lt (by decide) (toNat_lt64 _) (toNat_lt64 _) (by decide) (by decide)
theorem bfx (h : Hdr) (d a : GReg) (signed : Bool) (pos len1 : BitVec 6) : Statement (.bfx h d a signed pos len1) := by
  rintro _ ⟨⟩; exact eI_lt (by decide) (toNat_lt64 _) (toNat_lt64 _) (Nat.lt_trans (bool_lt2 _) (by decide)) (by have := len1.isLt; have := pos.isLt; omega)
theorem bfi (h : Hdr) (d a : GReg) (pos len1 : BitVec 6) : Statement (.bfi h d a pos len1) := by
  rintro _ ⟨⟩; exact eI_lt (by decide) (toNat_lt64 _) (toNat_lt64 _) (by decide) (by have := len1.isLt; have := pos.isLt; omega)
theorem lds (h : Hdr) (ty : STy) (swz : BitVec 3) (d a : GReg) (off : BitVec 16) : Statement (.lds h ty swz d a off) := by
  rintro _ ⟨⟩; exact eR_lt (by decide) (toNat_lt64 _) (toNat_lt64 _) (by decide) (loM_lt (styCode_lt _) (BitVec.isLt _) (by decide) (by decide) (by decide) (lt16 _))
theorem sts (h : Hdr) (ty : STy) (swz : BitVec 3) (a b : GReg) (off : BitVec 16) : Statement (.sts h ty swz a b off) := by
  rintro _ ⟨⟩; exact eR_lt (by decide) (by decide) (toNat_lt64 _) (toNat_lt64 _) (loM_lt (styCode_lt _) (BitVec.isLt _) (by decide) (by decide) (by decide) (lt16 _))
theorem bcc (h : Hdr) (cc : Cond) (a b : GReg) (disp : BitVec 24) : Statement (.bcc h cc a b disp) := by
  rintro _ ⟨⟩; exact eR_lt (by decide) (by decide) (toNat_lt64 _) (toNat_lt64 _) (by have := disp.isLt; have := condCode_lt cc; omega)
theorem j (h : Hdr) (disp : BitVec 24) : Statement (.j h disp) := by
  rintro _ ⟨⟩; exact eR_lt (by decide) (by decide) (by decide) (by decide) (by have := disp.isLt; omega)
theorem pbr (h : Hdr) (d : BReg) (t : PbrTarget) : Statement (.pbr h d t) := by
  intro _ h; cases t
  · rename_i disp; cases h; exact eR_lt (by decide) (toNat2_lt64 _) (by decide) (by decide) (by have := disp.isLt; omega)
  · rename_i a disp; cases h; exact eR_lt (by decide) (toNat2_lt64 _) (toNat_lt64 _) (by decide) (by have := disp.isLt; omega)
theorem br (h : Hdr) (a : BReg) : Statement (.br h a) := by
  rintro _ ⟨⟩; exact eR_lt (by decide) (by decide) (toNat2_lt64 _) (by decide) (by decide)
theorem brl (h : Hdr) (a : BReg) : Statement (.brl h a) := by
  rintro _ ⟨⟩; exact eR_lt (by decide) (by decide) (toNat2_lt64 _) (by decide) (by decide)
theorem jr (h : Hdr) (a : GReg) : Statement (.jr h a) := by
  rintro _ ⟨⟩; exact eR_lt (by decide) (by decide) (toNat_lt64 _) (by decide) (by decide)
theorem nop (h : Hdr) : Statement (.nop h) := by
  rintro _ ⟨⟩; exact eR_lt (by decide) (by decide) (by decide) (by decide) (by decide)
theorem srd (h : Hdr) (d : GReg) (sys : BitVec 12) : Statement (.srd h d sys) := by
  rintro _ ⟨⟩; exact eR_lt (by decide) (toNat_lt64 _) (by decide) (by decide) (loS_lt (by decide) (lt12 _) (by decide))
theorem swr (h : Hdr) (a : GReg) (sys : BitVec 12) : Statement (.swr h a sys) := by
  rintro _ ⟨⟩; exact eR_lt (by decide) (by decide) (toNat_lt64 _) (by decide) (loS_lt (by decide) (lt12 _) (by decide))
theorem waitt (h : Hdr) (a : GReg) : Statement (.waitt h a) := by
  rintro _ ⟨⟩; exact eR_lt (by decide) (by decide) (toNat_lt64 _) (by decide) (by decide)
theorem waittP (h : Hdr) (a b : GReg) : Statement (.waittP h a b) := by
  rintro _ ⟨⟩; exact eR_lt (by decide) (by decide) (toNat_lt64 _) (toNat_lt64 _) (loS_lt (by decide) (by decide) (by decide))
theorem wfe (h : Hdr) : Statement (.wfe h) := by
  rintro _ ⟨⟩; exact eR_lt (by decide) (by decide) (by decide) (by decide) (by decide)
theorem sev (h : Hdr) : Statement (.sev h) := by
  rintro _ ⟨⟩; exact eR_lt (by decide) (by decide) (by decide) (by decide) (by decide)
theorem sevRemote (h : Hdr) (a : GReg) : Statement (.sevRemote h a) := by
  rintro _ ⟨⟩; exact eR_lt (by decide) (by decide) (toNat_lt64 _) (by decide) (loS_lt (by decide) (by decide) (by decide))
theorem halt (h : Hdr) : Statement (.halt h) := by
  rintro _ ⟨⟩; exact eR_lt (by decide) (by decide) (by decide) (by decide) (by decide)
theorem vadd (h : Hdr) (k : KReg) (ty : ETy) (rm : RmCode) (sat : Bool) (d a b : VReg) : Statement (.vadd h k ty rm sat d a b) := by
  rintro _ ⟨⟩; exact eR_lt (by decide) (toNat_lt64 _) (toNat_lt64 _) (toNat_lt64 _) (loV_lt (by decide) (BitVec.isLt _) (etyCode_lt _) (by decide) (rmCode_lt _) (bool_lt2 _) (by decide) (by decide))
theorem vsub (h : Hdr) (k : KReg) (ty : ETy) (rm : RmCode) (sat : Bool) (d a b : VReg) : Statement (.vsub h k ty rm sat d a b) := by
  rintro _ ⟨⟩; exact eR_lt (by decide) (toNat_lt64 _) (toNat_lt64 _) (toNat_lt64 _) (loV_lt (by decide) (BitVec.isLt _) (etyCode_lt _) (by decide) (rmCode_lt _) (bool_lt2 _) (by decide) (by decide))
theorem vmul (h : Hdr) (k : KReg) (ty : ETy) (rm : RmCode) (sat : Bool) (d a b : VReg) : Statement (.vmul h k ty rm sat d a b) := by
  rintro _ ⟨⟩; exact eR_lt (by decide) (toNat_lt64 _) (toNat_lt64 _) (toNat_lt64 _) (loV_lt (by decide) (BitVec.isLt _) (etyCode_lt _) (by decide) (rmCode_lt _) (bool_lt2 _) (by decide) (by decide))
theorem vfma (h : Hdr) (k : KReg) (ty : ETy) (rm : RmCode) (sat : Bool) (d a b c : VReg) : Statement (.vfma h k ty rm sat d a b c) := by
  rintro _ ⟨⟩; exact eR_lt (by decide) (toNat_lt64 _) (toNat_lt64 _) (toNat_lt64 _) (loV_lt (toNat_lt64 _) (BitVec.isLt _) (etyCode_lt _) (by decide) (rmCode_lt _) (bool_lt2 _) (by decide) (by decide))
theorem vfms (h : Hdr) (k : KReg) (ty : ETy) (rm : RmCode) (sat : Bool) (d a b c : VReg) : Statement (.vfms h k ty rm sat d a b c) := by
  rintro _ ⟨⟩; exact eR_lt (by decide) (toNat_lt64 _) (toNat_lt64 _) (toNat_lt64 _) (loV_lt (toNat_lt64 _) (BitVec.isLt _) (etyCode_lt _) (by decide) (rmCode_lt _) (bool_lt2 _) (by decide) (by decide))
theorem vmin (h : Hdr) (k : KReg) (ty : ETy) (d a b : VReg) : Statement (.vmin h k ty d a b) := by
  rintro _ ⟨⟩; exact eR_lt (by decide) (toNat_lt64 _) (toNat_lt64 _) (toNat_lt64 _) (loV_lt (by decide) (BitVec.isLt _) (etyCode_lt _) (by decide) (by decide) (by decide) (by decide) (by decide))
theorem vmax (h : Hdr) (k : KReg) (ty : ETy) (d a b : VReg) : Statement (.vmax h k ty d a b) := by
  rintro _ ⟨⟩; exact eR_lt (by decide) (toNat_lt64 _) (toNat_lt64 _) (toNat_lt64 _) (loV_lt (by decide) (BitVec.isLt _) (etyCode_lt _) (by decide) (by decide) (by decide) (by decide) (by decide))
theorem vabs (h : Hdr) (k : KReg) (ty : ETy) (d a : VReg) : Statement (.vabs h k ty d a) := by
  rintro _ ⟨⟩; exact eR_lt (by decide) (toNat_lt64 _) (toNat_lt64 _) (by decide) (loV_lt (by decide) (BitVec.isLt _) (etyCode_lt _) (by decide) (by decide) (by decide) (by decide) (by decide))
theorem vneg (h : Hdr) (k : KReg) (ty : ETy) (d a : VReg) : Statement (.vneg h k ty d a) := by
  rintro _ ⟨⟩; exact eR_lt (by decide) (toNat_lt64 _) (toNat_lt64 _) (by decide) (loV_lt (by decide) (BitVec.isLt _) (etyCode_lt _) (by decide) (by decide) (by decide) (by decide) (by decide))
theorem vdiv (h : Hdr) (k : KReg) (ty : ETy) (rm : RmCode) (sat : Bool) (d a b : VReg) : Statement (.vdiv h k ty rm sat d a b) := by
  rintro _ ⟨⟩; exact eR_lt (by decide) (toNat_lt64 _) (toNat_lt64 _) (toNat_lt64 _) (loV_lt (by decide) (BitVec.isLt _) (etyCode_lt _) (by decide) (rmCode_lt _) (bool_lt2 _) (by decide) (by decide))
theorem vsqrt (h : Hdr) (k : KReg) (ty : ETy) (rm : RmCode) (sat : Bool) (d a : VReg) : Statement (.vsqrt h k ty rm sat d a) := by
  rintro _ ⟨⟩; exact eR_lt (by decide) (toNat_lt64 _) (toNat_lt64 _) (by decide) (loV_lt (by decide) (BitVec.isLt _) (etyCode_lt _) (by decide) (rmCode_lt _) (bool_lt2 _) (by decide) (by decide))
theorem vrcp (h : Hdr) (k : KReg) (ty : ETy) (rm : RmCode) (sat : Bool) (d a : VReg) : Statement (.vrcp h k ty rm sat d a) := by
  rintro _ ⟨⟩; exact eR_lt (by decide) (toNat_lt64 _) (toNat_lt64 _) (by decide) (loV_lt (by decide) (BitVec.isLt _) (etyCode_lt _) (by decide) (rmCode_lt _) (bool_lt2 _) (by decide) (by decide))
theorem vrsq (h : Hdr) (k : KReg) (ty : ETy) (rm : RmCode) (sat : Bool) (d a : VReg) : Statement (.vrsq h k ty rm sat d a) := by
  rintro _ ⟨⟩; exact eR_lt (by decide) (toNat_lt64 _) (toNat_lt64 _) (by decide) (loV_lt (by decide) (BitVec.isLt _) (etyCode_lt _) (by decide) (rmCode_lt _) (bool_lt2 _) (by decide) (by decide))
theorem vexp2 (h : Hdr) (k : KReg) (ty : ETy) (rm : RmCode) (sat : Bool) (d a : VReg) : Statement (.vexp2 h k ty rm sat d a) := by
  rintro _ ⟨⟩; exact eR_lt (by decide) (toNat_lt64 _) (toNat_lt64 _) (by decide) (loV_lt (by decide) (BitVec.isLt _) (etyCode_lt _) (by decide) (rmCode_lt _) (bool_lt2 _) (by decide) (by decide))
theorem vlog2 (h : Hdr) (k : KReg) (ty : ETy) (rm : RmCode) (sat : Bool) (d a : VReg) : Statement (.vlog2 h k ty rm sat d a) := by
  rintro _ ⟨⟩; exact eR_lt (by decide) (toNat_lt64 _) (toNat_lt64 _) (by decide) (loV_lt (by decide) (BitVec.isLt _) (etyCode_lt _) (by decide) (rmCode_lt _) (bool_lt2 _) (by decide) (by decide))
theorem viadd (h : Hdr) (k : KReg) (ty : ETy) (sat : Bool) (d a b : VReg) : Statement (.viadd h k ty sat d a b) := by
  rintro _ ⟨⟩; exact eR_lt (by decide) (toNat_lt64 _) (toNat_lt64 _) (toNat_lt64 _) (loV_lt (by decide) (BitVec.isLt _) (etyCode_lt _) (by decide) (by decide) (bool_lt2 _) (by decide) (by decide))
theorem visub (h : Hdr) (k : KReg) (ty : ETy) (sat : Bool) (d a b : VReg) : Statement (.visub h k ty sat d a b) := by
  rintro _ ⟨⟩; exact eR_lt (by decide) (toNat_lt64 _) (toNat_lt64 _) (toNat_lt64 _) (loV_lt (by decide) (BitVec.isLt _) (etyCode_lt _) (by decide) (by decide) (bool_lt2 _) (by decide) (by decide))
theorem vimul (h : Hdr) (k : KReg) (ty : ETy) (sat : Bool) (d a b : VReg) : Statement (.vimul h k ty sat d a b) := by
  rintro _ ⟨⟩; exact eR_lt (by decide) (toNat_lt64 _) (toNat_lt64 _) (toNat_lt64 _) (loV_lt (by decide) (BitVec.isLt _) (etyCode_lt _) (by decide) (by decide) (bool_lt2 _) (by decide) (by decide))
theorem vand (h : Hdr) (k : KReg) (ty : ETy) (d a b : VReg) : Statement (.vand h k ty d a b) := by
  rintro _ ⟨⟩; exact eR_lt (by decide) (toNat_lt64 _) (toNat_lt64 _) (toNat_lt64 _) (loV_lt (by decide) (BitVec.isLt _) (etyCode_lt _) (by decide) (by decide) (by decide) (by decide) (by decide))
theorem vor (h : Hdr) (k : KReg) (ty : ETy) (d a b : VReg) : Statement (.vor h k ty d a b) := by
  rintro _ ⟨⟩; exact eR_lt (by decide) (toNat_lt64 _) (toNat_lt64 _) (toNat_lt64 _) (loV_lt (by decide) (BitVec.isLt _) (etyCode_lt _) (by decide) (by decide) (by decide) (by decide) (by decide))
theorem vxor (h : Hdr) (k : KReg) (ty : ETy) (d a b : VReg) : Statement (.vxor h k ty d a b) := by
  rintro _ ⟨⟩; exact eR_lt (by decide) (toNat_lt64 _) (toNat_lt64 _) (toNat_lt64 _) (loV_lt (by decide) (BitVec.isLt _) (etyCode_lt _) (by decide) (by decide) (by decide) (by decide) (by decide))
theorem vshl (h : Hdr) (k : KReg) (ty : ETy) (d a b : VReg) : Statement (.vshl h k ty d a b) := by
  rintro _ ⟨⟩; exact eR_lt (by decide) (toNat_lt64 _) (toNat_lt64 _) (toNat_lt64 _) (loV_lt (by decide) (BitVec.isLt _) (etyCode_lt _) (by decide) (by decide) (by decide) (by decide) (by decide))
theorem vshr (h : Hdr) (k : KReg) (ty : ETy) (d a b : VReg) : Statement (.vshr h k ty d a b) := by
  rintro _ ⟨⟩; exact eR_lt (by decide) (toNat_lt64 _) (toNat_lt64 _) (toNat_lt64 _) (loV_lt (by decide) (BitVec.isLt _) (etyCode_lt _) (by decide) (by decide) (by decide) (by decide) (by decide))
theorem vsar (h : Hdr) (k : KReg) (ty : ETy) (d a b : VReg) : Statement (.vsar h k ty d a b) := by
  rintro _ ⟨⟩; exact eR_lt (by decide) (toNat_lt64 _) (toNat_lt64 _) (toNat_lt64 _) (loV_lt (by decide) (BitVec.isLt _) (etyCode_lt _) (by decide) (by decide) (by decide) (by decide) (by decide))
theorem vimin (h : Hdr) (k : KReg) (ty : ETy) (d a b : VReg) : Statement (.vimin h k ty d a b) := by
  rintro _ ⟨⟩; exact eR_lt (by decide) (toNat_lt64 _) (toNat_lt64 _) (toNat_lt64 _) (loV_lt (by decide) (BitVec.isLt _) (etyCode_lt _) (by decide) (by decide) (by decide) (by decide) (by decide))
theorem vimax (h : Hdr) (k : KReg) (ty : ETy) (d a b : VReg) : Statement (.vimax h k ty d a b) := by
  rintro _ ⟨⟩; exact eR_lt (by decide) (toNat_lt64 _) (toNat_lt64 _) (toNat_lt64 _) (loV_lt (by decide) (BitVec.isLt _) (etyCode_lt _) (by decide) (by decide) (by decide) (by decide) (by decide))
theorem vcmp (h : Hdr) (k : KReg) (ty : ETy) (cc : VCond) (d : KReg) (a b : VReg) : Statement (.vcmp h k ty cc d a b) := by
  rintro _ ⟨⟩; exact eR_lt (by decide) (toNat3_lt64 _) (toNat_lt64 _) (toNat_lt64 _) (loV_lt (by decide) (BitVec.isLt _) (etyCode_lt _) (by decide) (by decide) (by decide) (by decide) (vcondCode_lt _))
theorem vsel (h : Hdr) (k : KReg) (ty : ETy) (d a b : VReg) : Statement (.vsel h k ty d a b) := by
  rintro _ ⟨⟩; exact eR_lt (by decide) (toNat_lt64 _) (toNat_lt64 _) (toNat_lt64 _) (loV_lt (by decide) (BitVec.isLt _) (etyCode_lt _) (by decide) (by decide) (by decide) (by decide) (by decide))
theorem kop (h : Hdr) (d : KReg) (op : KOp) : Statement (.kop h d op) := by
  rintro _ ⟨⟩; exact eR_lt (by decide) (toNat3_lt64 _) (kopA_lt _) (kopB_lt _) (loV_lt (by decide) (by decide) (by decide) (by decide) (by decide) (by decide) (by decide) (kopCode_lt _))
theorem kpop (h : Hdr) (ty : ETy) (d : GReg) (a : KReg) : Statement (.kpop h ty d a) := by
  rintro _ ⟨⟩; exact eR_lt (by decide) (toNat_lt64 _) (toNat3_lt64 _) (by decide) (loV_lt (by decide) (by decide) (etyCode_lt _) (by decide) (by decide) (by decide) (by decide) (by decide))
theorem kfirst (h : Hdr) (ty : ETy) (d : GReg) (a : KReg) : Statement (.kfirst h ty d a) := by
  rintro _ ⟨⟩; exact eR_lt (by decide) (toNat_lt64 _) (toNat3_lt64 _) (by decide) (loV_lt (by decide) (by decide) (etyCode_lt _) (by decide) (by decide) (by decide) (by decide) (by decide))
theorem vmov (h : Hdr) (k : KReg) (ty : ETy) (d a : VReg) : Statement (.vmov h k ty d a) := by
  rintro _ ⟨⟩; exact eR_lt (by decide) (toNat_lt64 _) (toNat_lt64 _) (by decide) (loV_lt (by decide) (BitVec.isLt _) (etyCode_lt _) (by decide) (by decide) (by decide) (by decide) (by decide))
theorem vbcast (h : Hdr) (k : KReg) (ty : ETy) (d : VReg) (a : GReg) : Statement (.vbcast h k ty d a) := by
  rintro _ ⟨⟩; exact eR_lt (by decide) (toNat_lt64 _) (toNat_lt64 _) (by decide) (loV_lt (by decide) (BitVec.isLt _) (etyCode_lt _) (by decide) (by decide) (by decide) (by decide) (by decide))
theorem viota (h : Hdr) (k : KReg) (ty : ETy) (d : VReg) (a : GReg) : Statement (.viota h k ty d a) := by
  rintro _ ⟨⟩; exact eR_lt (by decide) (toNat_lt64 _) (toNat_lt64 _) (by decide) (loV_lt (by decide) (BitVec.isLt _) (etyCode_lt _) (by decide) (by decide) (by decide) (by decide) (by decide))
theorem vperm (h : Hdr) (k : KReg) (ty : ETy) (d a : VReg) (op : PermOp) : Statement (.vperm h k ty d a op) := by
  rintro _ ⟨⟩; exact eR_lt (by decide) (toNat_lt64 _) (toNat_lt64 _) (permB_lt _) (loV_lt (by decide) (BitVec.isLt _) (etyCode_lt _) (by decide) (by decide) (by decide) (by decide) (permCode_lt _))
theorem vext (h : Hdr) (ty : ETy) (d : GReg) (a : VReg) (b : GReg) : Statement (.vext h ty d a b) := by
  rintro _ ⟨⟩; exact eR_lt (by decide) (toNat_lt64 _) (toNat_lt64 _) (toNat_lt64 _) (loV_lt (by decide) (by decide) (etyCode_lt _) (by decide) (by decide) (by decide) (by decide) (by decide))
theorem vins (h : Hdr) (ty : ETy) (d : VReg) (a b : GReg) : Statement (.vins h ty d a b) := by
  rintro _ ⟨⟩; exact eR_lt (by decide) (toNat_lt64 _) (toNat_lt64 _) (toNat_lt64 _) (loV_lt (by decide) (by decide) (etyCode_lt _) (by decide) (by decide) (by decide) (by decide) (by decide))
theorem vredsum (h : Hdr) (k : KReg) (ty : ETy) (rm : RmCode) (d : GReg) (a : VReg) : Statement (.vredsum h k ty rm d a) := by
  rintro _ ⟨⟩; exact eR_lt (by decide) (toNat_lt64 _) (toNat_lt64 _) (by decide) (loV_lt (by decide) (BitVec.isLt _) (etyCode_lt _) (by decide) (rmCode_lt _) (by decide) (by decide) (by decide))
theorem vredmax (h : Hdr) (k : KReg) (ty : ETy) (d : GReg) (a : VReg) : Statement (.vredmax h k ty d a) := by
  rintro _ ⟨⟩; exact eR_lt (by decide) (toNat_lt64 _) (toNat_lt64 _) (by decide) (loV_lt (by decide) (BitVec.isLt _) (etyCode_lt _) (by decide) (by decide) (by decide) (by decide) (by decide))
theorem vredmin (h : Hdr) (k : KReg) (ty : ETy) (d : GReg) (a : VReg) : Statement (.vredmin h k ty d a) := by
  rintro _ ⟨⟩; exact eR_lt (by decide) (toNat_lt64 _) (toNat_lt64 _) (by decide) (loV_lt (by decide) (BitVec.isLt _) (etyCode_lt _) (by decide) (by decide) (by decide) (by decide) (by decide))
theorem vcvt (h : Hdr) (k : KReg) (src dst : ETy) (rm : RmCode) (sat mm : Bool) (d a : VReg) : Statement (.vcvt h k src dst rm sat mm d a) := by
  rintro _ ⟨⟩; exact eR_lt (by decide) (toNat_lt64 _) (toNat_lt64 _) (by decide) (loV_lt (by decide) (BitVec.isLt _) (etyCode_lt _) (etyCode_lt _) (rmCode_lt _) (bool_lt2 _) (bool_lt2 _) (by decide))
theorem vquant (h : Hdr) (k : KReg) (src dst : ETy) (rm : RmCode) (sat mm : Bool) (d a : VReg) : Statement (.vquant h k src dst rm sat mm d a) := by
  rintro _ ⟨⟩; exact eR_lt (by decide) (toNat_lt64 _) (toNat_lt64 _) (by decide) (loV_lt (by decide) (BitVec.isLt _) (etyCode_lt _) (etyCode_lt _) (rmCode_lt _) (bool_lt2 _) (bool_lt2 _) (by decide))
theorem vdeq (h : Hdr) (k : KReg) (src dst : ETy) (rm : RmCode) (sat : Bool) (d a : VReg) : Statement (.vdeq h k src dst rm sat d a) := by
  rintro _ ⟨⟩; exact eR_lt (by decide) (toNat_lt64 _) (toNat_lt64 _) (by decide) (loV_lt (by decide) (BitVec.isLt _) (etyCode_lt _) (etyCode_lt _) (rmCode_lt _) (bool_lt2 _) (by decide) (by decide))
theorem vscale (h : Hdr) (k : KReg) (src dst : ETy) (rm : RmCode) (sat mm : Bool) (d a : VReg) (b : GReg) : Statement (.vscale h k src dst rm sat mm d a b) := by
  rintro _ ⟨⟩; exact eR_lt (by decide) (toNat_lt64 _) (toNat_lt64 _) (toNat_lt64 _) (loV_lt (by decide) (BitVec.isLt _) (etyCode_lt _) (etyCode_lt _) (rmCode_lt _) (bool_lt2 _) (bool_lt2 _) (by decide))
theorem vcell (h : Hdr) (k : KReg) (d a : VReg) (b c : GReg) : Statement (.vcell h k d a b c) := by
  rintro _ ⟨⟩; exact eR_lt (by decide) (toNat_lt64 _) (toNat_lt64 _) (toNat_lt64 _) (loV_lt (toNat_lt64 _) (BitVec.isLt _) (by decide) (by decide) (by decide) (by decide) (by decide) (by decide))
theorem vhash3 (h : Hdr) (k : KReg) (w : BitVec 6) (d a b c : VReg) : Statement (.vhash3 h k w d a b c) := by
  rintro _ ⟨⟩; exact eR_lt (by decide) (toNat_lt64 _) (toNat_lt64 _) (toNat_lt64 _) (loV_lt (toNat_lt64 _) (BitVec.isLt _) (by decide) (by decide) (by decide) (by decide) (by decide) (by have := w.isLt; omega))
theorem vmorton (h : Hdr) (k : KReg) (d a b : VReg) (op : MortonOp) : Statement (.vmorton h k d a b op) := by
  intro _ h; cases op
  · cases h; exact eR_lt (by decide) (toNat_lt64 _) (toNat_lt64 _) (toNat_lt64 _) (loV_lt (by decide) (BitVec.isLt _) (by decide) (by decide) (by decide) (by decide) (by decide) (by decide))
  · rename_i c; cases h; exact eR_lt (by decide) (toNat_lt64 _) (toNat_lt64 _) (toNat_lt64 _) (loV_lt (toNat_lt64 _) (BitVec.isLt _) (by decide) (by decide) (by decide) (by decide) (by decide) (by decide))
theorem vld (h : Hdr) (k : KReg) (swz : BitVec 3) (d : VReg) (a : GReg) (off : BitVec 16) : Statement (.vld h k swz d a off) := by
  rintro _ ⟨⟩; exact eR_lt (by decide) (toNat_lt64 _) (toNat_lt64 _) (by decide) (loM_lt (by decide) (BitVec.isLt _) (by decide) (by decide) (BitVec.isLt _) (lt16 _))
theorem vst (h : Hdr) (k : KReg) (swz : BitVec 3) (a : GReg) (b : VReg) (off : BitVec 16) : Statement (.vst h k swz a b off) := by
  rintro _ ⟨⟩; exact eR_lt (by decide) (by decide) (toNat_lt64 _) (toNat_lt64 _) (loM_lt (by decide) (BitVec.isLt _) (by decide) (by decide) (BitVec.isLt _) (lt16 _))
theorem vldx (h : Hdr) (k : KReg) (ty : STy) (swz : BitVec 3) (d : VReg) (a : GReg) (b : VReg) (off : BitVec 16) : Statement (.vldx h k ty swz d a b off) := by
  rintro _ ⟨⟩; exact eR_lt (by decide) (toNat_lt64 _) (toNat_lt64 _) (toNat_lt64 _) (loM_lt (styCode_lt _) (BitVec.isLt _) (by decide) (by decide) (BitVec.isLt _) (lt16 _))
theorem vstx (h : Hdr) (k : KReg) (ty : STy) (swz : BitVec 3) (d : VReg) (a : GReg) (b : VReg) (off : BitVec 16) : Statement (.vstx h k ty swz d a b off) := by
  rintro _ ⟨⟩; exact eR_lt (by decide) (toNat_lt64 _) (toNat_lt64 _) (toNat_lt64 _) (loM_lt (styCode_lt _) (BitVec.isLt _) (by decide) (by decide) (BitVec.isLt _) (lt16 _))
theorem tld (h : Hdr) (swz : BitVec 3) (d : TReg) (a b : GReg) (off : BitVec 16) : Statement (.tld h swz d a b off) := by
  rintro _ ⟨⟩; exact eR_lt (by decide) (toNat3_lt64 _) (toNat_lt64 _) (toNat_lt64 _) (loM_lt (by decide) (BitVec.isLt _) (by decide) (by decide) (by decide) (lt16 _))
theorem tst (h : Hdr) (swz : BitVec 3) (d : TReg) (a b : GReg) (off : BitVec 16) : Statement (.tst h swz d a b off) := by
  rintro _ ⟨⟩; exact eR_lt (by decide) (toNat3_lt64 _) (toNat_lt64 _) (toNat_lt64 _) (loM_lt (by decide) (BitVec.isLt _) (by decide) (by decide) (by decide) (lt16 _))
theorem tzero (h : Hdr) (d : TReg) : Statement (.tzero h d) := by
  rintro _ ⟨⟩; exact eR_lt (by decide) (toNat3_lt64 _) (by decide) (by decide) (by decide)
theorem tmov (h : Hdr) (d a : TReg) : Statement (.tmov h d a) := by
  rintro _ ⟨⟩; exact eR_lt (by decide) (toNat3_lt64 _) (toNat3_lt64 _) (by decide) (by decide)
theorem ttrans (h : Hdr) (d a : TReg) : Statement (.ttrans h d a) := by
  rintro _ ⟨⟩; exact eR_lt (by decide) (toNat3_lt64 _) (toNat3_lt64 _) (by decide) (by decide)
theorem tnext (h : Hdr) (d a b : GReg) : Statement (.tnext h d a b) := by
  rintro _ ⟨⟩; exact eR_lt (by decide) (toNat_lt64 _) (toNat_lt64 _) (toNat_lt64 _) (by decide)
theorem tnextIdx (h : Hdr) (d : GReg) : Statement (.tnextIdx h d) := by
  rintro _ ⟨⟩; exact eR_lt (by decide) (toNat_lt64 _) (by decide) (by decide) (loS_lt (by decide) (by decide) (by decide))
theorem tdone (h : Hdr) (sc : Scope) : Statement (.tdone h sc) := by
  rintro _ ⟨⟩; exact eR_lt (by decide) (by decide) (by decide) (by decide) (loS_lt (scopeNum_lt64 _) (by decide) (by decide))
theorem toks (h : Hdr) (d : GReg) (q : BitVec 2) : Statement (.toks h d q) := by
  rintro _ ⟨⟩; exact eR_lt (by decide) (toNat_lt64 _) (by decide) (by decide) (loS_lt (by decide) (by decide) (by have := q.isLt; omega))
theorem tokx (h : Hdr) (a : GReg) (q : BitVec 2) : Statement (.tokx h a q) := by
  rintro _ ⟨⟩; exact eR_lt (by decide) (by decide) (toNat_lt64 _) (by decide) (loS_lt (by decide) (by decide) (by have := q.isLt; omega))
theorem spush (h : Hdr) (k : KReg) (ty : ETy) (sd : BitVec 3) (d : GReg) (a : VReg) : Statement (.spush h k ty sd d a) := by
  rintro _ ⟨⟩; exact eR_lt (by decide) (toNat_lt64 _) (toNat_lt64 _) (by decide) (loV_lt (by decide) (BitVec.isLt _) (etyCode_lt _) (by decide) (by decide) (by decide) (by decide) (by have := sd.isLt; omega))
theorem spop (h : Hdr) (k : KReg) (ty : ETy) (sd : BitVec 3) (d : VReg) (a : KReg) : Statement (.spop h k ty sd d a) := by
  rintro _ ⟨⟩; exact eR_lt (by decide) (toNat_lt64 _) (toNat3_lt64 _) (by decide) (loV_lt (by decide) (BitVec.isLt _) (etyCode_lt _) (by decide) (by decide) (by decide) (by decide) (by have := sd.isLt; omega))
theorem sflush (h : Hdr) (sd : BitVec 3) (d a : GReg) : Statement (.sflush h sd d a) := by
  rintro _ ⟨⟩; exact eR_lt (by decide) (toNat_lt64 _) (toNat_lt64 _) (by decide) (loS_lt (by decide) (by decide) (by have := sd.isLt; omega))
theorem sreset (h : Hdr) (sd : BitVec 3) : Statement (.sreset h sd) := by
  rintro _ ⟨⟩; exact eR_lt (by decide) (by decide) (by decide) (by decide) (loS_lt (by decide) (by decide) (by have := sd.isLt; omega))
theorem lqpush (h : Hdr) (k : KReg) (ty : ETy) (a b : VReg) : Statement (.lqpush h k ty a b) := by
  rintro _ ⟨⟩; exact eR_lt (by decide) (by decide) (toNat_lt64 _) (toNat_lt64 _) (loV_lt (by decide) (BitVec.isLt _) (etyCode_lt _) (by decide) (by decide) (by decide) (by decide) (by decide))
theorem lqpop (h : Hdr) (k : KReg) (ty : ETy) (d : VReg) (a : KReg) : Statement (.lqpop h k ty d a) := by
  rintro _ ⟨⟩; exact eR_lt (by decide) (toNat_lt64 _) (toNat3_lt64 _) (by decide) (loV_lt (by decide) (BitVec.isLt _) (etyCode_lt _) (by decide) (by decide) (by decide) (by decide) (by decide))
theorem lqstat (h : Hdr) (ty : ETy) (d : KReg) : Statement (.lqstat h ty d) := by
  rintro _ ⟨⟩; exact eR_lt (by decide) (toNat3_lt64 _) (by decide) (by decide) (loV_lt (by decide) (by decide) (etyCode_lt _) (by decide) (by decide) (by decide) (by decide) (by decide))
theorem bar (h : Hdr) (sc : Scope) : Statement (.bar h sc) := by
  rintro _ ⟨⟩; exact eR_lt (by decide) (by decide) (by decide) (by decide) (loS_lt (scopeNum_lt64 _) (by decide) (by decide))
theorem stgput (h : Hdr) (a : GReg) : Statement (.stgput h a) := by
  rintro _ ⟨⟩; exact eR_lt (by decide) (by decide) (toNat_lt64 _) (by decide) (by decide)
theorem stgget (h : Hdr) (d a : GReg) : Statement (.stgget h d a) := by
  rintro _ ⟨⟩; exact eR_lt (by decide) (toNat_lt64 _) (toNat_lt64 _) (by decide) (by decide)
theorem safe (h : Hdr) (n : BitVec 12) : Statement (.safe h n) := by
  rintro _ ⟨⟩; exact eR_lt (by decide) (by decide) (by decide) (by decide) (loS_lt (by decide) (by decide) (lt12 _))
theorem launch (h : Hdr) (d a : GReg) : Statement (.launch h d a) := by
  rintro _ ⟨⟩; exact eR_lt (by decide) (toNat_lt64 _) (toNat_lt64 _) (by decide) (by decide)
theorem ldg (h : Hdr) (ty : STy) (acq : Option Scope) (d a : GReg) (off : BitVec 16) : Statement (.ldg h ty acq d a off) := by
  rintro _ ⟨⟩; exact eR_lt (by decide) (toNat_lt64 _) (toNat_lt64 _) (by decide) (loM_lt (styCode_lt _) (by decide) (acqOrd_lt _) (optScope_lt _) (by decide) (lt16 _))
theorem stg (h : Hdr) (ty : STy) (rel : Option Scope) (a b : GReg) (off : BitVec 16) : Statement (.stg h ty rel a b off) := by
  rintro _ ⟨⟩; exact eR_lt (by decide) (by decide) (toNat_lt64 _) (toNat_lt64 _) (loM_lt (styCode_lt _) (by decide) (relOrd_lt _) (optScope_lt _) (by decide) (lt16 _))
theorem vldg (h : Hdr) (k : KReg) (acq : Option Scope) (d : VReg) (a : GReg) (off : BitVec 16) : Statement (.vldg h k acq d a off) := by
  rintro _ ⟨⟩; exact eR_lt (by decide) (toNat_lt64 _) (toNat_lt64 _) (by decide) (loM_lt (by decide) (by decide) (acqOrd_lt _) (optScope_lt _) (BitVec.isLt _) (lt16 _))
theorem vstg (h : Hdr) (k : KReg) (rel : Option Scope) (a : GReg) (b : VReg) (off : BitVec 16) : Statement (.vstg h k rel a b off) := by
  rintro _ ⟨⟩; exact eR_lt (by decide) (by decide) (toNat_lt64 _) (toNat_lt64 _) (loM_lt (by decide) (by decide) (relOrd_lt _) (optScope_lt _) (BitVec.isLt _) (lt16 _))
theorem aadd (h : Hdr) (ty : STy) (ord : AOrd) (d a b : GReg) (off : BitVec 16) : Statement (.aadd h ty ord d a b off) := by
  rintro _ ⟨⟩; exact eR_lt (by decide) (toNat_lt64 _) (toNat_lt64 _) (toNat_lt64 _) (loM_lt (styCode_lt _) (by decide) (aordNum_lt _) (aordScope_lt _) (by decide) (lt16 _))
theorem afadd (h : Hdr) (ty : FSty) (ord : AOrd) (d a b : GReg) (off : BitVec 16) : Statement (.afadd h ty ord d a b off) := by
  rintro _ ⟨⟩; exact eR_lt (by decide) (toNat_lt64 _) (toNat_lt64 _) (toNat_lt64 _) (loM_lt (fstyCode_lt _) (by decide) (aordNum_lt _) (aordScope_lt _) (by decide) (lt16 _))
theorem amin (h : Hdr) (ty : STy) (ord : AOrd) (d a b : GReg) (off : BitVec 16) : Statement (.amin h ty ord d a b off) := by
  rintro _ ⟨⟩; exact eR_lt (by decide) (toNat_lt64 _) (toNat_lt64 _) (toNat_lt64 _) (loM_lt (styCode_lt _) (by decide) (aordNum_lt _) (aordScope_lt _) (by decide) (lt16 _))
theorem amax (h : Hdr) (ty : STy) (ord : AOrd) (d a b : GReg) (off : BitVec 16) : Statement (.amax h ty ord d a b off) := by
  rintro _ ⟨⟩; exact eR_lt (by decide) (toNat_lt64 _) (toNat_lt64 _) (toNat_lt64 _) (loM_lt (styCode_lt _) (by decide) (aordNum_lt _) (aordScope_lt _) (by decide) (lt16 _))
theorem aminn (h : Hdr) (ty : STy) (ord : AOrd) (d a b : GReg) (off : BitVec 16) : Statement (.aminn h ty ord d a b off) := by
  rintro _ ⟨⟩; exact eR_lt (by decide) (toNat_lt64 _) (toNat_lt64 _) (toNat_lt64 _) (loM_lt (styCode_lt _) (by decide) (aordNum_lt _) (aordScope_lt _) (by decide) (lt16 _))
theorem amaxn (h : Hdr) (ty : STy) (ord : AOrd) (d a b : GReg) (off : BitVec 16) : Statement (.amaxn h ty ord d a b off) := by
  rintro _ ⟨⟩; exact eR_lt (by decide) (toNat_lt64 _) (toNat_lt64 _) (toNat_lt64 _) (loM_lt (styCode_lt _) (by decide) (aordNum_lt _) (aordScope_lt _) (by decide) (lt16 _))
theorem afmin (h : Hdr) (ty : FSty) (ord : AOrd) (d a b : GReg) (off : BitVec 16) : Statement (.afmin h ty ord d a b off) := by
  rintro _ ⟨⟩; exact eR_lt (by decide) (toNat_lt64 _) (toNat_lt64 _) (toNat_lt64 _) (loM_lt (fstyCode_lt _) (by decide) (aordNum_lt _) (aordScope_lt _) (by decide) (lt16 _))
theorem afmax (h : Hdr) (ty : FSty) (ord : AOrd) (d a b : GReg) (off : BitVec 16) : Statement (.afmax h ty ord d a b off) := by
  rintro _ ⟨⟩; exact eR_lt (by decide) (toNat_lt64 _) (toNat_lt64 _) (toNat_lt64 _) (loM_lt (fstyCode_lt _) (by decide) (aordNum_lt _) (aordScope_lt _) (by decide) (lt16 _))
theorem aand (h : Hdr) (ty : STy) (ord : AOrd) (d a b : GReg) (off : BitVec 16) : Statement (.aand h ty ord d a b off) := by
  rintro _ ⟨⟩; exact eR_lt (by decide) (toNat_lt64 _) (toNat_lt64 _) (toNat_lt64 _) (loM_lt (styCode_lt _) (by decide) (aordNum_lt _) (aordScope_lt _) (by decide) (lt16 _))
theorem aor (h : Hdr) (ty : STy) (ord : AOrd) (d a b : GReg) (off : BitVec 16) : Statement (.aor h ty ord d a b off) := by
  rintro _ ⟨⟩; exact eR_lt (by decide) (toNat_lt64 _) (toNat_lt64 _) (toNat_lt64 _) (loM_lt (styCode_lt _) (by decide) (aordNum_lt _) (aordScope_lt _) (by decide) (lt16 _))
theorem axor (h : Hdr) (ty : STy) (ord : AOrd) (d a b : GReg) (off : BitVec 16) : Statement (.axor h ty ord d a b off) := by
  rintro _ ⟨⟩; exact eR_lt (by decide) (toNat_lt64 _) (toNat_lt64 _) (toNat_lt64 _) (loM_lt (styCode_lt _) (by decide) (aordNum_lt _) (aordScope_lt _) (by decide) (lt16 _))
theorem aswp (h : Hdr) (ty : STy) (ord : AOrd) (d a b : GReg) (off : BitVec 16) : Statement (.aswp h ty ord d a b off) := by
  rintro _ ⟨⟩; exact eR_lt (by decide) (toNat_lt64 _) (toNat_lt64 _) (toNat_lt64 _) (loM_lt (styCode_lt _) (by decide) (aordNum_lt _) (aordScope_lt _) (by decide) (lt16 _))
theorem acas (h : Hdr) (ty : STy) (ord : AOrd) (d a b : GReg) (off : BitVec 16) : Statement (.acas h ty ord d a b off) := by
  rintro _ ⟨⟩; exact eR_lt (by decide) (toNat_lt64 _) (toNat_lt64 _) (toNat_lt64 _) (loM_lt (styCode_lt _) (by decide) (aordNum_lt _) (aordScope_lt _) (by decide) (lt16 _))
theorem abadd (h : Hdr) (ord : AOrd) (d a b : GReg) (off : BitVec 16) : Statement (.abadd h ord d a b off) := by
  rintro _ ⟨⟩; exact eR_lt (by decide) (toNat_lt64 _) (toNat_lt64 _) (toNat_lt64 _) (loM_lt (by decide) (by decide) (aordNum_lt _) (aordScope_lt _) (by decide) (lt16 _))
theorem red (h : Hdr) (op : Rop) (ty : STy) (a b : GReg) (off : BitVec 16) : Statement (.red h op ty a b off) := by
  rintro _ ⟨⟩; exact eR_lt (by decide) (ropCode_lt _) (toNat_lt64 _) (toNat_lt64 _) (loM_lt (styCode_lt _) (by decide) (by decide) (by decide) (by decide) (lt16 _))
theorem redc (h : Hdr) (op : Rop) (ty : STy) (det : Bool) (sc : Scope) (a b : GReg) (cnt1 idx : BitVec 8) : Statement (.redc h op ty det sc a b cnt1 idx) := by
  rintro _ ⟨⟩; exact eR_lt (by decide) (ropCode_lt _) (toNat_lt64 _) (toNat_lt64 _) (loM_lt (styCode_lt _) (Nat.lt_trans (bool_lt2 _) (by decide)) (by decide) (scopeNum_lt _) (by decide) (by have := cnt1.isLt; have := idx.isLt; omega))
theorem fence (h : Hdr) (sc : Scope) (ord : FOrd) : Statement (.fence h sc ord) := by
  rintro _ ⟨⟩; exact eR_lt (by decide) (by decide) (by decide) (by decide) (loS_lt (fence_lt _ _) (by decide) (by decide))
theorem xfence (h : Hdr) (c1 c2 : Path) : Statement (.xfence h c1 c2) := by
  rintro _ ⟨⟩; exact eR_lt (by decide) (by decide) (by decide) (by decide) (loS_lt (by decide) (by decide) (by have := pathNum_lt c1; have := pathNum_lt c2; omega))
theorem pref (h : Hdr) (a : GReg) (off : BitVec 16) : Statement (.pref h a off) := by
  rintro _ ⟨⟩; exact eR_lt (by decide) (by decide) (toNat_lt64 _) (by decide) (loM_lt (by decide) (by decide) (by decide) (by decide) (by decide) (lt16 _))
theorem cflush (h : Hdr) (a : GReg) (off : BitVec 16) : Statement (.cflush h a off) := by
  rintro _ ⟨⟩; exact eR_lt (by decide) (by decide) (toNat_lt64 _) (by decide) (loM_lt (by decide) (by decide) (by decide) (by decide) (by decide) (lt16 _))
theorem cinv (h : Hdr) (a : GReg) (off : BitVec 16) : Statement (.cinv h a off) := by
  rintro _ ⟨⟩; exact eR_lt (by decide) (by decide) (toNat_lt64 _) (by decide) (loM_lt (by decide) (by decide) (by decide) (by decide) (by decide) (lt16 _))
theorem waitv (h : Hdr) (ty : STy) (acq : Option Scope) (d a b : GReg) (off : BitVec 16) : Statement (.waitv h ty acq d a b off) := by
  rintro _ ⟨⟩; exact eR_lt (by decide) (toNat_lt64 _) (toNat_lt64 _) (toNat_lt64 _) (loM_lt (styCode_lt _) (by decide) (acqOrd_lt _) (optScope_lt _) (by decide) (lt16 _))
theorem enq (h : Hdr) (sc : Scope) (d a : GReg) (e : Sel) : Statement (.enq h sc d a e) := by
  rintro _ ⟨⟩; exact eR_lt (by decide) (toNat_lt64 _) (toNat_lt64 _) (by decide) (loS_lt (scopeNum_lt64 _) (by decide) (selCode_lt _))
theorem eseq (h : Hdr) (d : GReg) (e : Sel) : Statement (.eseq h d e) := by
  rintro _ ⟨⟩; exact eR_lt (by decide) (toNat_lt64 _) (by decide) (by decide) (loS_lt (by decide) (by decide) (selCode_lt _))
theorem waitseq (h : Hdr) (d a : GReg) (e : Sel) : Statement (.waitseq h d a e) := by
  rintro _ ⟨⟩; exact eR_lt (by decide) (toNat_lt64 _) (toNat_lt64 _) (by decide) (loS_lt (by decide) (by decide) (selCode_lt _))
theorem prom (h : Hdr) (d a : GReg) : Statement (.prom h d a) := by
  rintro _ ⟨⟩; exact eR_lt (by decide) (toNat_lt64 _) (toNat_lt64 _) (by decide) (loS_lt (by decide) (by decide) (by decide))
theorem ecancel (h : Hdr) (d a : GReg) (e : Sel) : Statement (.ecancel h d a e) := by
  rintro _ ⟨⟩; exact eR_lt (by decide) (toNat_lt64 _) (toNat_lt64 _) (by decide) (loS_lt (by decide) (by decide) (selCode_lt _))
theorem notice (h : Hdr) (d a : GReg) : Statement (.notice h d a) := by
  rintro _ ⟨⟩; exact eR_lt (by decide) (toNat_lt64 _) (toNat_lt64 _) (by decide) (by decide)
theorem decline (h : Hdr) (d a : GReg) : Statement (.decline h d a) := by
  rintro _ ⟨⟩; exact eR_lt (by decide) (toNat_lt64 _) (toNat_lt64 _) (by decide) (by decide)
theorem pullrel (h : Hdr) (a : GReg) : Statement (.pullrel h a) := by
  rintro _ ⟨⟩; exact eR_lt (by decide) (by decide) (toNat_lt64 _) (by decide) (by decide)
theorem nrecv (h : Hdr) (d a : GReg) : Statement (.nrecv h d a) := by
  rintro _ ⟨⟩; exact eR_lt (by decide) (toNat_lt64 _) (toNat_lt64 _) (by decide) (by decide)
theorem tready (h : Hdr) (d a : GReg) : Statement (.tready h d a) := by
  rintro _ ⟨⟩; exact eR_lt (by decide) (toNat_lt64 _) (toNat_lt64 _) (by decide) (by decide)
theorem cstat (h : Hdr) (d a : GReg) : Statement (.cstat h d a) := by
  rintro _ ⟨⟩; exact eR_lt (by decide) (toNat_lt64 _) (toNat_lt64 _) (by decide) (by decide)
theorem cstatBm (h : Hdr) (d a b : GReg) : Statement (.cstatBm h d a b) := by
  rintro _ ⟨⟩; exact eR_lt (by decide) (toNat_lt64 _) (toNat_lt64 _) (toNat_lt64 _) (loS_lt (by decide) (by decide) (by decide))
theorem cabort (h : Hdr) (d a : GReg) : Statement (.cabort h d a) := by
  rintro _ ⟨⟩; exact eR_lt (by decide) (toNat_lt64 _) (toNat_lt64 _) (by decide) (by decide)
theorem trap (h : Hdr) (n : BitVec 12) : Statement (.trap h n) := by
  rintro _ ⟨⟩; exact eR_lt (by decide) (by decide) (by decide) (by decide) (loS_lt (by decide) (by decide) (lt12 _))
theorem eret (h : Hdr) : Statement (.eret h) := by
  rintro _ ⟨⟩; exact eR_lt (by decide) (by decide) (by decide) (by decide) (by decide)
theorem eretReclaim (h : Hdr) : Statement (.eretReclaim h) := by
  rintro _ ⟨⟩; exact eR_lt (by decide) (by decide) (by decide) (by decide) (loS_lt (by decide) (by decide) (by decide))
theorem fwcall (h : Hdr) (d a : GReg) (n : BitVec 12) : Statement (.fwcall h d a n) := by
  rintro _ ⟨⟩; exact eR_lt (by decide) (toNat_lt64 _) (toNat_lt64 _) (by decide) (loS_lt (by decide) (by decide) (lt12 _))
theorem ctxsave (h : Hdr) (a : GReg) : Statement (.ctxsave h a) := by
  rintro _ ⟨⟩; exact eR_lt (by decide) (by decide) (toNat_lt64 _) (by decide) (by decide)
theorem ctxsaveFull (h : Hdr) (a : GReg) : Statement (.ctxsaveFull h a) := by
  rintro _ ⟨⟩; exact eR_lt (by decide) (by decide) (toNat_lt64 _) (by decide) (loS_lt (by decide) (by decide) (by decide))
theorem ctxload (h : Hdr) (a : GReg) : Statement (.ctxload h a) := by
  rintro _ ⟨⟩; exact eR_lt (by decide) (by decide) (toNat_lt64 _) (by decide) (by decide)
theorem tlbinvPage (h : Hdr) (a b : GReg) : Statement (.tlbinvPage h a b) := by
  rintro _ ⟨⟩; exact eR_lt (by decide) (by decide) (toNat_lt64 _) (toNat_lt64 _) (by decide)
theorem tlbinvAsid (h : Hdr) (b : GReg) : Statement (.tlbinvAsid h b) := by
  rintro _ ⟨⟩; exact eR_lt (by decide) (by decide) (by decide) (toNat_lt64 _) (loS_lt (by decide) (by decide) (by decide))
theorem tlbinvAll (h : Hdr) : Statement (.tlbinvAll h) := by
  rintro _ ⟨⟩; exact eR_lt (by decide) (by decide) (by decide) (by decide) (loS_lt (by decide) (by decide) (by decide))
theorem keyload (h : Hdr) (a b : GReg) : Statement (.keyload h a b) := by
  rintro _ ⟨⟩; exact eR_lt (by decide) (by decide) (toNat_lt64 _) (toNat_lt64 _) (by decide)
theorem keyloadClr (h : Hdr) (a : GReg) : Statement (.keyloadClr h a) := by
  rintro _ ⟨⟩; exact eR_lt (by decide) (by decide) (toNat_lt64 _) (by decide) (loS_lt (by decide) (by decide) (by decide))
theorem ewLit (k : BitVec 15) : Statement (.ewLit k) := nofun
theorem ewExt (k : BitVec 14) : Statement (.ewExt k) := nofun
theorem nopPacket (die slot : Nat) : Statement (.nopPacket die slot) := nofun
theorem launchPacket (die slot : Nat) : Statement (.launchPacket die slot) := nofun
theorem collPacket (die slot : Nat) : Statement (.collPacket die slot) := nofun
theorem fencePacket (die slot : Nat) : Statement (.fencePacket die slot) := nofun
theorem signalPacket (die slot : Nat) : Statement (.signalPacket die slot) := nofun
theorem timedPacket (die slot : Nat) : Statement (.timedPacket die slot) := nofun
theorem fenceResume (die slot : Nat) : Statement (.fenceResume die slot) := nofun
theorem timedResume (die slot : Nat) : Statement (.timedResume die slot) := nofun
theorem signalWrite (die slot : Nat) : Statement (.signalWrite die slot) := nofun
theorem kick (qid : BitVec 16) (index : Word) : Statement (.kick qid index) := nofun
theorem queueScan (die : Nat) : Statement (.queueScan die) := nofun
theorem dispatchPop (quire : Nat) : Statement (.dispatchPop quire) := nofun
theorem launchComplete (seq : Nat) : Statement (.launchComplete seq) := nofun
theorem reltickRelease (seq : Nat) : Statement (.reltickRelease seq) := nofun
theorem deadlineOverrun (seq : Nat) : Statement (.deadlineOverrun seq) := nofun
theorem stageSchedule (seq : Nat) : Statement (.stageSchedule seq) := nofun
theorem fstateAccess (write : Bool) (r : GReg) : Statement (.fstateAccess write r) := nofun
theorem landingRingWrite (size : Bool) (v : Word) : Statement (.landingRingWrite size v) := nofun
theorem formatWindowWrite (stack win word : Nat) (v : Word) : Statement (.formatWindowWrite stack win word v) := nofun
theorem homeAccess (pa : Nat) (data : List Byte) : Statement (.homeAccess pa data) := nofun
theorem redcLand (pa : Nat) (op : Rop) (ty : STy) (det : Bool) (sc : Scope) (cnt idx : Nat) (v : Word) : Statement (.redcLand pa op ty det sc cnt idx v) := nofun
theorem remoteEventArrival (msg : Nat) : Statement (.remoteEventArrival msg) := nofun
theorem noticeArrival (msg : Nat) : Statement (.noticeArrival msg) := nofun
theorem noticeResend (msg : Nat) : Statement (.noticeResend msg) := nofun
theorem pullBegin (msg : Nat) : Statement (.pullBegin msg) := nofun
theorem segmentLand (msg : Nat) : Statement (.segmentLand msg) := nofun
theorem pullComplete (msg : Nat) : Statement (.pullComplete msg) := nofun
theorem declineArrival (msg : Nat) : Statement (.declineArrival msg) := nofun
theorem withdrawalArrival (msg : Nat) : Statement (.withdrawalArrival msg) := nofun
theorem pullRefused (msg : Nat) : Statement (.pullRefused msg) := nofun
theorem preemptRequest (waiting victim : Nat) : Statement (.preemptRequest waiting victim) := nofun
theorem flitReceive (link : Nat) (f : Flit) : Statement (.flitReceive link f) := nofun
theorem flitResend (link : Nat) (nack : Bool) (trained : Bool) : Statement (.flitResend link nack trained) := nofun
theorem linkDown (link : Nat) : Statement (.linkDown link) := nofun
theorem linkTableRow (msg : Nat) : Statement (.linkTableRow msg) := nofun
theorem laneSpare (link : Nat) : Statement (.laneSpare link) := nofun
theorem ptpMessage (locked : Bool) (offset : BitVec 32) : Statement (.ptpMessage locked offset) := nofun
theorem hostOpen (session : Nat) (nonce : BitVec 256) (features : BitVec 128) :
    Statement (.hostOpen session nonce features) := nofun
theorem datagramReceive (d : Datagram) : Statement (.datagramReceive d) := nofun
theorem hostRead (pa len key : Nat) : Statement (.hostRead pa len key) := nofun
theorem hostWrite (pa key : Nat) (data : List Byte) : Statement (.hostWrite pa key data) := nofun
theorem spinesArrival (die msg : Nat) : Statement (.spinesArrival die msg) := nofun
theorem collCombine (die entry chunk : Nat) : Statement (.collCombine die entry chunk) := nofun
theorem collBroadcastPull (die entry chunk : Nat) : Statement (.collBroadcastPull die entry chunk) := nofun
theorem collRecompute (die entry : Nat) : Statement (.collRecompute die entry) := nofun
theorem collResume (die entry : Nat) : Statement (.collResume die entry) := nofun
theorem collAbort (die entry sub : Nat) : Statement (.collAbort die entry sub) := nofun
theorem dawn (cfg : DawnCfg) : Statement (.dawn cfg) := nofun
theorem liveUpdate (digest signature : BitVec 256) (version : Nat) : Statement (.liveUpdate digest signature version) := nofun
theorem moduleInsert (pkg : Nat) (row : List Word) : Statement (.moduleInsert pkg row) := nofun
theorem moduleRemove (pkg : Nat) : Statement (.moduleRemove pkg) := nofun
theorem throttle (die : Nat) (g : BitVec 4) : Statement (.throttle die g) := nofun
theorem scrub (a : ArrayKind) : Statement (.scrub a) := nofun
theorem illop (w : Word) : Statement (.illop w) := by
  rintro _ ⟨⟩; exact w.isLt
theorem linkUp (link : Nat) (v : Word) : Statement (.linkUp link v) := nofun
theorem arrayError (a : ArrayKind) (correctable : Bool) : Statement (.arrayError a correctable) := nofun
theorem ewDup : Statement (.ewDup) := nofun
theorem ewDrop : Statement (.ewDrop) := nofun
theorem ewSwap : Statement (.ewSwap) := nofun
theorem ewOver : Statement (.ewOver) := nofun
theorem ewAdd : Statement (.ewAdd) := nofun
theorem ewSub : Statement (.ewSub) := nofun
theorem ewShl : Statement (.ewShl) := nofun
theorem ewElem : Statement (.ewElem) := nofun
theorem ewSwz : Statement (.ewSwz) := nofun
theorem ewDim1 : Statement (.ewDim1) := nofun
theorem ewDim2 : Statement (.ewDim2) := nofun
theorem ewPrio : Statement (.ewPrio) := nofun
theorem ewStamp : Statement (.ewStamp) := nofun
theorem ewGate : Statement (.ewGate) := nofun
theorem ewSeqat : Statement (.ewSeqat) := nofun
theorem ewCopyGs : Statement (.ewCopyGs) := nofun
theorem ewCopySg : Statement (.ewCopySg) := nofun
theorem ewCopyGg : Statement (.ewCopyGg) := nofun
theorem ewCopySs : Statement (.ewCopySs) := nofun
theorem ewCopytLd : Statement (.ewCopytLd) := nofun
theorem ewCopytSt : Statement (.ewCopytSt) := nofun
theorem ewCopyxG : Statement (.ewCopyxG) := nofun
theorem ewCopyxS : Statement (.ewCopyxS) := nofun
theorem ewFillG : Statement (.ewFillG) := nofun
theorem ewFillS : Statement (.ewFillS) := nofun
theorem ewTmma : Statement (.ewTmma) := nofun
theorem ewCredL : Statement (.ewCredL) := nofun
theorem ewCredP : Statement (.ewCredP) := nofun
theorem ewNote : Statement (.ewNote) := nofun
theorem ewPullS : Statement (.ewPullS) := nofun
theorem ewPullG : Statement (.ewPullG) := nofun
theorem ewDecl : Statement (.ewDecl) := nofun
theorem ewEnd : Statement (.ewEnd) := nofun
theorem ewAddr : Statement (.ewAddr) := nofun
theorem forcedLaunchStart : Statement (.forcedLaunchStart) := nofun
theorem launchEnter : Statement (.launchEnter) := nofun
theorem stageReenter : Statement (.stageReenter) := nofun
theorem reportTake : Statement (.reportTake) := nofun
theorem scheduleMissDelegation : Statement (.scheduleMissDelegation) := nofun
theorem ectlResume : Statement (.ectlResume) := nofun
theorem ectlKill : Statement (.ectlKill) := nofun
theorem ucauseRelease : Statement (.ucauseRelease) := nofun
theorem variableResultLand : Statement (.variableResultLand) := nofun
theorem retryAdmit : Statement (.retryAdmit) := nofun
theorem pinnedLineTimeout : Statement (.pinnedLineTimeout) := nofun
theorem wfeWake : Statement (.wfeWake) := nofun
theorem waittExpire : Statement (.waittExpire) := nofun
theorem waitvWake : Statement (.waitvWake) := nofun
theorem barRelease : Statement (.barRelease) := nofun
theorem waitseqComplete : Statement (.waitseqComplete) := nofun
theorem tokenPopReady : Statement (.tokenPopReady) := nofun
theorem tokenPushRoom : Statement (.tokenPushRoom) := nofun
theorem enqSlotFree : Statement (.enqSlotFree) := nofun
theorem noticeEntryFree : Statement (.noticeEntryFree) := nofun
theorem ringSlotReady : Statement (.ringSlotReady) := nofun
theorem laneQueueRefill : Statement (.laneQueueRefill) := nofun
theorem crossbarCycle : Statement (.crossbarCycle) := nofun
theorem commandStart : Statement (.commandStart) := nofun
theorem commandRetire : Statement (.commandRetire) := nofun
theorem mxStart : Statement (.mxStart) := nofun
theorem stampedTmmaStart : Statement (.stampedTmmaStart) := nofun
theorem scheduleMiss : Statement (.scheduleMiss) := nofun
theorem migrationOffer : Statement (.migrationOffer) := nofun
theorem tmmaComplete : Statement (.tmmaComplete) := nofun
theorem migratedProductReturn : Statement (.migratedProductReturn) := nofun
theorem portStart : Statement (.portStart) := nofun
theorem segmentRequest : Statement (.segmentRequest) := nofun
theorem noticeExpiry : Statement (.noticeExpiry) := nofun
theorem reclaimTrap : Statement (.reclaimTrap) := nofun
theorem reclaimRepeat : Statement (.reclaimRepeat) := nofun
theorem preemptReport : Statement (.preemptReport) := nofun
theorem safePointTimeout : Statement (.safePointTimeout) := nofun
theorem preemptSaveDone : Statement (.preemptSaveDone) := nofun
theorem preemptRestart : Statement (.preemptRestart) := nofun
theorem restartRequest : Statement (.restartRequest) := nofun
theorem thermalShutdown : Statement (.thermalShutdown) := nofun
theorem lostLock : Statement (.lostLock) := nofun

end Laws.Fits
end Sys2Proof
end

