-- ==== Sys2Proof/Laws/Translate.lean ====
section
/-! SUPPORT. What translation changes: the TLBs and the pinned pages of quires, and nothing else. -/
namespace Sys2Proof.Machine

/-- The second state differs from the first in TLBs and in the tables of quires alone. -/
structure Filled (s u : State) : Prop where
  rest : { u with cores := s.cores, quires := s.quires } = s
  core : ∀ c, { u.core c with tlb := (s.core c).tlb } = s.core c

theorem Filled.refl (s : State) : Filled s s := ⟨rfl, fun _ => rfl⟩

theorem Filled.trans {s t u : State} (h : Filled s t) (k : Filled t u) : Filled s u := by
  constructor
  · have := h.rest; rw [← k.rest] at this; exact this
  · intro c
    have := h.core c
    rw [← k.core c] at this
    exact this

theorem Filled.cur {s u : State} (h : Filled s u) : u.cur = s.cur := by
  have := congrArg State.cur h.rest; exact this

theorem Filled.mem {s u : State} (h : Filled s u) : u.mem = s.mem := by
  have := congrArg State.mem h.rest; exact this

theorem Filled.gtc {s u : State} (h : Filled s u) : u.gtc = s.gtc := by
  have := congrArg State.gtc h.rest; exact this

theorem Filled.bad {s u : State} (h : Filled s u) : u.bad = s.bad := by
  have := congrArg State.bad h.rest; exact this

theorem Filled.lineKey {s u : State} (h : Filled s u) : u.lineKey = s.lineKey := by
  have := congrArg State.lineKey h.rest; exact this

theorem Filled.keys {s u : State} (h : Filled s u) : u.keys = s.keys := by
  have := congrArg State.keys h.rest; exact this

theorem Filled.ctx {s u : State} (h : Filled s u) (c : Nat) (r : Role) : u.ctx c r = s.ctx c r := by
  have := congrArg (fun k => Core.ctx k r) (h.core c)
  cases r <;> exact this

/-- A scalar register is read from the context as it is, or as it was when the instruction that waits read it (R93). -/
theorem State.g_eq (s : State) (n : GReg) : s.g n =
    (match (s.ctx s.cur.core s.cur.role).latch with
     | none => s.ctx s.cur.core s.cur.role
     | some l => { s.ctx s.cur.core s.cur.role with g := l.g }).getG n := by
  unfold State.g State.issued Core.asIssued State.ctx
  cases hl : ((s.core s.cur.core).ctx s.cur.role).latch with
  | none => rfl
  | some l => cases s.cur.role <;> rfl

theorem Filled.g {s u : State} (h : Filled s u) (n : GReg) : u.g n = s.g n := by
  rw [State.g_eq, State.g_eq, h.cur, h.ctx]

theorem filled_pinPage {s u : State} {l : Leaf} (h : s.pinPage l = .ok u) : Filled s u := by
  unfold State.pinPage at h
  split at h
  · cases h; exact .refl _
  · dsimp only at h
    split at h
    · cases h; exact .refl _
    · split at h
      · cases h
      · cases h; exact ⟨rfl, fun _ => rfl⟩

theorem filled_lookup {s u : State} {c : Nat} {asp va : Word} {l : Leaf} (h : s.lookup c asp va = .ok (u, l)) : Filled s u := by
  unfold State.lookup at h
  split at h
  · cases h
  · dsimp only at h
    split at h
    · rename_i l' _
      cases hp : s.pinPage l' with
      | error e => rw [hp] at h; cases h
      | ok s' => rw [hp] at h; cases h; exact filled_pinPage hp
    · cases hw : s.walkFrom (fld asp 63 52) (va.toNat % 2 ^ 56) (fld asp 51 16 * 0x10000) 4 with
      | error e => rw [hw] at h; cases h
      | ok l' =>
        rw [hw] at h
        change (do let s ← s.pinPage l'; _) = _ at h
        cases hp : s.pinPage l' with
        | error e => rw [hp] at h; cases h
        | ok s' =>
          rw [hp] at h
          cases h
          refine (filled_pinPage hp).trans ⟨rfl, fun d => ?_⟩
          have hq (f : Quire → Quire) (g : Core → Core) : ((s'.modCore c g).modQuire (quireOf c) f).core d = (s'.modCore c g).core d := rfl
          rw [hq]
          by_cases hd : d = c
          · subst hd; rw [State.core_modCore_self]
          · rw [State.core_modCore_ne s' _ hd]

theorem filled_xlat {s u : State} {c n : Nat} {asp : Option Word} {va : Word} {k : AKind} {l : Leaf} (h : s.xlat c asp va k n = .ok (u, l)) :
    Filled s u := by
  unfold State.xlat at h
  have tail : ∀ (p : State × Leaf), (do
      match region (p.2.pa va) with
      | .decoded st off => if (p.1.windowAt st off).isNone then throw { cause := 0x20, sub := 4 }
      | _ => pure ()
      match p.1.permit p.2 k with
      | some f => throw f
      | none => if k ≠ .none ∧ p.1.keylessView (p.2.pa va) = true then throw { cause := 0x21, sub := 3 } else pure (p.1, p.2) :
        Except AFault (State × Leaf)) = .ok (u, l) → p.1 = u := by
    intro p hv
    dsimp only [bind, Except.bind, pure, Except.pure, throw, throwThe, MonadExceptOf.throw] at hv
    repeat' split at hv
    all_goals first
      | exact congrArg Prod.fst (Except.ok.inj hv)
      | exact absurd hv (by simp)
  cases asp with
  | none =>
    cases hp : s.physLeaf va n with
    | error e => simp only [hp] at h; cases h
    | ok m =>
      simp only [hp] at h
      have := tail (s, m) h
      subst this; exact .refl _
  | some a =>
    cases hp : s.lookup c a va with
    | error e => simp only [hp] at h; cases h
    | ok p =>
      obtain ⟨v, m⟩ := p
      simp only [hp] at h
      have := tail (v, m) h
      subst this; exact filled_lookup hp

theorem filled_xlatParts {s u : State} {c : Nat} {asp : Option Word} {k : AKind} {ps : List (Word × Nat)} {qs : List Part}
    (h : s.xlatParts c asp k ps = .ok (u, qs)) : Filled s u ∧ qs.map Part.len = ps.map Prod.snd := by
  induction ps generalizing s u qs with
  | nil => cases h; exact ⟨.refl _, rfl⟩
  | cons p ps ih =>
    obtain ⟨va, n⟩ := p
    unfold State.xlatParts at h
    simp only [bind, Except.bind] at h
    cases hx : s.xlat c asp va k n with
    | error e => simp only [hx, Except.mapError] at h; cases h
    | ok v =>
      obtain ⟨v, l⟩ := v
      simp only [hx, Except.mapError] at h
      cases hr : State.xlatParts v c asp k ps with
      | error e => rw [hr] at h; cases h
      | ok w =>
        obtain ⟨w, rest⟩ := w
        rw [hr] at h
        cases h
        exact ⟨(filled_xlat hx).trans (ih hr).1, by simp [(ih hr).2]⟩

end Sys2Proof.Machine
end

