-- ==== Sys2Proof/Tests/Slice0.lean ====
section
/-! SUPPORT. Tests of one step or one word each, and for every statement with hypotheses a concrete state and operands that
meet them. The expected words and values are those of the manual. -/
namespace Sys2Proof.Tests
open Sys2Proof.Machine
-- One theorem at a time, for fewer threads.
set_option Elab.async false

/-! States for the tests -/

/-- No WAIT and no TOK bits. -/
def h0 : Hdr := { wait := 0, popL := false, popR := false, pushL := false, pushR := false }
/-- The `n`-th TOK bit of POPL, POPR, PUSHL and PUSHR. -/
def hTok (n : Nat) : Hdr := { wait := 0, popL := n == 0, popR := n == 1, pushL := n == 2, pushR := n == 3 }
/-- A launch in single-context mode runs on core 0, and its context issues. -/
def base : State := { State.reset.withFetchWord 64 0 with agenda := [], cur := { core := 0, role := .C } }
/-- The firmware context of core 0 issues. -/
def fw : State := { base with cur := { core := 0, role := .F } }
/-- The core runs a trio, and context `r` issues. -/
def trio (r : Role) : State :=
  { base.modCore 0 (fun k => { k with single := false, ctxL := { k.ctxC with sys := [] }, ctxS := { k.ctxC with sys := [] } }) with
    cur := { core := 0, role := r } }
/-- Scalar registers of the issuing context. -/
def regs (s : State) (l : List (GReg × Word)) : State :=
  s.modCtx s.cur.core s.cur.role (fun x => l.foldl (fun x p => x.setG p.1 p.2) x)
/-- A system register of the core. -/
def sys (s : State) (n : Nat) (v : Word) : State := s.modCore s.cur.core (fun k => k.setReg n v)
/-- A register of the issuing context. -/
def own (s : State) (n : Nat) (v : Word) : State := s.modCtx s.cur.core s.cur.role (fun x => x.setReg n v)
/-- The step answers a next state of which `p` holds. -/
def nexts (o : Out) (p : State → Bool) : Bool := match o with | .next t => p t | _ => false
/-- A result is an `ok` of which `p` holds. -/
def okAnd {ε α : Type} (x : Except ε α) (p : α → Bool) : Bool := match x with | .ok a => p a | .error _ => false

theorem okAnd_iff {ε α : Type} {x : Except ε α} {p : α → Bool} (h : okAnd x p = true) : ∃ a, x = .ok a ∧ p a = true := by
  cases x with
  | ok a => exact ⟨a, rfl, h⟩
  | error e => simp [okAnd] at h

/-- Without pending results, running engines, held indices and TOK bits an instruction may issue where its role may, whatever its operands. -/
theorem mayIssue_of {s : State} {h : Hdr} {rt : Rights} (ts : List Target) (hp : (s.core s.cur.core).pend = [])
    (hh : (s.core s.cur.core).held = []) (hc : (s.core s.cur.core).chains = []) (ht : s.toksOf h = some ([], [])) (ha : allowed rt (s.core s.cur.core).single s.cur.role = true) :
    s.mayIssue h rt ts = true := by
  have hl : s.landed ts = s.modCore s.cur.core id := by
    unfold State.landed State.modCore
    simp [Core.landBy, Core.interlock, hp]
  have hk : (s.modCore s.cur.core id).core s.cur.core = s.core s.cur.core := by simp [State.modCore]
  unfold State.mayIssue
  simp only [hl, hk, ht, ha]
  have hq : s.popsOf h = [] := by unfold State.popsOf; rw [ht]; rfl
  simp [hq, Core.busy, hc, Core.early, hp, hh, Core.popReady]

/-- In single-context mode any instruction but a firmware one may issue, whatever its operands. -/
theorem witness_issue (ts : List Target) : base.mayIssue h0 .all ts = true ∧ base.mayIssue h0 .trio ts = true ∧
    base.mayIssue h0 .comp ts = true ∧ base.mayIssue h0 .load ts = true ∧ base.mayIssue h0 .stor ts = true := by
  refine ⟨?_, ?_, ?_, ?_, ?_⟩ <;> exact mayIssue_of ts (by decide +kernel) (by decide +kernel) (by decide +kernel) (by decide +kernel) (by decide +kernel)
/-- A firmware instruction may issue in firmware. -/
theorem witness_issue_fw (ts : List Target) : fw.mayIssue h0 .fw ts = true ∧ fw.mayIssue h0 .all ts = true := by
  refine ⟨?_, ?_⟩ <;> exact mayIssue_of ts (by decide +kernel) (by decide +kernel) (by decide +kernel) (by decide +kernel) (by decide +kernel)
/-- The contexts of a trio may issue what their roles may. -/
theorem witness_issue_trio (ts : List Target) : (trio .L).mayIssue h0 .load ts = true ∧ (trio .S).mayIssue h0 .stor ts = true ∧
    (trio .C).mayIssue h0 .comp ts = true := by
  refine ⟨?_, ?_, ?_⟩ <;> exact mayIssue_of ts (by decide +kernel) (by decide +kernel) (by decide +kernel) (by decide +kernel) (by decide +kernel)

/-! The step and decoding -/

/-- `addi g5, g0, 7` fetched from the placed word. -/
def placed (w : Nat) : State := State.reset.withFetchWord 64 w
/-- The state in which the turn of the placed word translates its PC. -/
def turned (s : State) : State :=
  ({ s with cur := { core := 0, role := .C }, agenda := [] } : State).modCore 0 (fun k => { k with trioAt := s.gtc + 1 })
/-- What the fetch of the placed word answers. -/
def fetched (s : State) (p : State → Leaf → Bool) : Bool :=
  okAnd ((turned s).xlat 0 ((turned s).aspaceOf 0 .C) (turned s).pc .fetch) (fun x => p x.1 x.2)

theorem test_step_runs_the_placed_word :
    nexts (step (placed 0x0020140000000007)) (fun t => ((t.core 0).landBy 5).ctxC.getG 5 == 7 && t.pc == 0x10008) = true := by decide +kernel
theorem test_engine_word_runs :
    nexts (step (State.reset.withFetchWord 16 5)) (fun t => (((t.core 0).chain 0).run.map (fun q => q.upc)) == some 1) = true := by
  decide +kernel

theorem witness_StepRunsTheDecodedInstruction_1 : let s := placed 0x0020140000000007
    s.phase = .up ∧ s.agenda = [{ place := { core := 0, role := .C }, act := .issue }] ∧
    ({ s with cur := { core := 0, role := .C }, agenda := [] } : State).issues 0 .C = true ∧ s.throttled 0 = false ∧
    fetched s (fun t l => (t.hasBad (l.pa 0x10000) 8).isNone &&
      (match decodeWord (leNat (t.readPhys l.key (l.pa 0x10000) 8)) with | .ok i => i == .addi h0 5 0 7 | .error _ => false)) = true := by decide +kernel
theorem witness_StepRunsTheDecodedInstruction_2 :
    fetched (placed 0x0001000000000001) (fun t l => (t.hasBad (l.pa 0x10000) 8).isNone &&
      (match decodeWord (leNat (t.readPhys l.key (l.pa 0x10000) 8)) with | .error _ => true | .ok _ => false)) = true := by decide +kernel
theorem witness_StepRunsTheDecodedInstruction_3 :
    fetched { placed 1 with bad := [(0x10007, true)] } (fun t l => (t.hasBad (l.pa 0x10000) 8).isSome) = true := by decide +kernel
theorem witness_StepRunsTheDecodedInstruction_4 : let s := (placed 1).modCtx 0 .C (fun x => { x with pc := 0x9000000 })
    (match (turned s).xlat 0 ((turned s).aspaceOf 0 .C) (turned s).pc .fetch with | .error f => f.cause == 0x20 | .ok _ => false) = true := by
  decide +kernel
theorem witness_StepRunsTheDecodedInstruction_end : let s := (placed 1).modCtx 0 .C (fun x => { x with pc := 0 })
    ({ s with cur := { core := 0, role := .C }, agenda := [] } : State).issues 0 .C = true ∧ (turned s).pc = 0 ∧
    nexts (step s) (fun t => (t.ctx 0 .C).run == .ended) = true := by decide +kernel
theorem witness_UnassignedMajor : majorAssigned (0xF0 * 2 ^ 48 / 2 ^ 48 % 256) = false ∧ exec (.illop 0) base = .next (base.takeTrap 0 .C 0x01 0 0 0 base.pc) :=
  ⟨by decide +kernel, rfl⟩
theorem witness_DecodeEncode : (Instr.bfi h0 31 1 0 63).wf = true ∧ (encodeWord (.bfi h0 31 1 0 63)).isSome = true ∧
    (decodeWord 0x001B147205000000).isOk = true := by decide +kernel
theorem witness_StepKeepsMemory : Memory.wf (placed 0x0020140000000007).mem = true ∧ (placed 0x0020140000000007).mem ≠ [] ∧
    nexts (step (placed 0x0020140000000007)) (fun _ => true) = true := by decide +kernel

/-! Scalar instructions -/

theorem witness_ScalarForms_fields : (60 : BitVec 6).toNat + (3 : BitVec 6).toNat + 1 ≤ 64 ∧ 64 < (1 : BitVec 6).toNat + (63 : BitVec 6).toNat + 1 ∧
    (encodeWord (.bfx h0 3 4 true 1 63)).isSome = true ∧ (encodeWord (.bfi h0 3 4 1 63)).isSome = true ∧
    Completes h0 .all [base.gT 1, base.gT 2, base.gT 3] (.add h0 3 1 2) base (fun t => t.putG 3 (t.g 1 + t.g 2) (some 1)) := by
  refine ⟨by decide, by decide, by decide +kernel, by decide +kernel, fun _ => rfl⟩

/-- G1 holds the minimum and G2 −1. -/
def minByMinusOne : State := regs base [(1, 0x8000000000000000), (2, 0xFFFFFFFFFFFFFFFF), (4, 7)]
theorem witness_DivisionCorners : let ts := [minByMinusOne.gT 1, minByMinusOne.gT 2, minByMinusOne.gT 3]
    minByMinusOne.mayIssue h0 .all ts = true ∧ (minByMinusOne.atIssue h0 ts).g 1 = 0x8000000000000000 ∧
    (minByMinusOne.atIssue h0 ts).g 2 = BitVec.allOnes 64 ∧ (minByMinusOne.atIssue h0 ts).g 5 = 0 := by decide +kernel

/-- A divide of the context is under way. -/
def dividing : State := minByMinusOne.putDivide 6 1
theorem witness_DivisionCorners_busy : (dividing.toksOf h0).isSome = true ∧ (dividing.core 0).popReady (dividing.popsOf h0) = true ∧
    (∃ e ∈ ((dividing.landed (dividing.divideOps 3 1 2)).core dividing.cur.core).pend, e.divide = true ∧ e.target = .g dividing.cur.role 6) := by
  decide +kernel
theorem test_divide_waits : nexts (exec (.div h0 3 1 2) dividing) (fun t => (t.ctx 0 .C).wait == some .busy && t.pc == 0x10000) &&
    nexts (exec (.add h0 3 1 2) dividing) (fun t => t.pc == 0x10008) = true := by decide +kernel
/-- What a completed instruction leaves in G[d] when every result has landed. -/
def result (o : Out) (d : GReg) (v : Word) : Bool :=
  nexts o (fun t => match (t.core 0).pend.getLast? with
    | some p => p.target == .g t.cur.role d.toNat && BitVec.ofNat 64 p.value == v
    | none => false)

/-- The manual's own examples of R97 and R100. -/
theorem test_scalar_examples :
    result (exec (.div h0 3 1 2) minByMinusOne) 3 0x8000000000000000 && result (exec (.rem h0 3 1 2) minByMinusOne) 3 0 &&
    result (exec (.divn h0 3 4 5) minByMinusOne) 3 0xFFFFFFFFFFFFFFFF && result (exec (.remn h0 3 4 5) minByMinusOne) 3 7 &&
    result (exec (.bfx h0 3 4 true 60 3) (regs base [(4, 0xA000000000000000)])) 3 0xFFFFFFFFFFFFFFFA &&
    result (exec (.sltni h0 3 4 0xFFFFFFFF) (regs base [(4, 5)])) 3 1 = true := by decide +kernel
theorem test_shift_by_64_shifts_by_0 : result (exec (.shl h0 3 4 2) (regs base [(4, 9), (2, 64)])) 3 9 = true := by decide +kernel
theorem test_rol_by_0 : result (exec (.rol h0 3 4 2) (regs base [(4, 9)])) 3 9 = true := by decide +kernel

theorem witness_ScalarResults : ∃ (d : GReg), d ≠ 0 ∧ ((base.putG d 5 (some 1)).core 0).pend ≠ [] :=
  ⟨31, by decide +kernel, by decide +kernel⟩
/-- A result of latency 12 for V1, and a younger one of latency 4 for its lane 0 alone. -/
def twoRows : List Pend := [{ target := .row 1, mask := 2 ^ 64 - 1, value := 5 + 7 * 2 ^ 32, ready := some 12 },
  { target := .row 1, mask := 2 ^ 32 - 1, value := 9, ready := some 4 }]
theorem test_masked_results : let k (u : Nat) : Nat := ((({ base.core 0 with pend := twoRows } : Core).landBy u).row 1).toNat
    k 3 = 0 ∧ k 4 = 9 ∧ k 12 = 9 := by decide +kernel
theorem witness_RegisterFrames : base.noTokens h0 ∧ (∃ t, exec (.add h0 3 1 2) base = .next t) ∧
    nexts (exec (.clz h0 3 1) base) (fun _ => true) = true ∧ nexts (exec (.addi h0 3 1 7) base) (fun _ => true) = true ∧
    nexts (exec (.shli h0 3 1 63) base) (fun _ => true) = true := by
  refine ⟨by unfold State.noTokens; decide +kernel, ⟨_, rfl⟩, by decide +kernel⟩

/-! Scratchpad -/

theorem witness_Swizzle : swizzle 1 0x800 ≠ swizzle 0 0x800 ∧ (0x3FFFE0 : Nat) % 32 + 31 < 32 ∧ (0x3FF800 : Nat) % 2048 = 0 := by decide +kernel

/-- G1 holds the last word of the reservation, which is the whole scratchpad. -/
def lastWord : State := regs base [(1, 0x2FFFFC), (2, 0x11223344)]
theorem witness_Scratchpad_load : let t := lastWord.atIssue h0 [lastWord.gT 1, lastWord.gT 3]
    t.spFine (t.g 1 + (0 : BitVec 16).signExtend 64) (styBytes .n32) ∧ t.mayRead (t.spAt 2 (t.g 1 + (0 : BitVec 16).signExtend 64) (styBytes .n32)) := by
  unfold State.spFine State.mayRead; decide +kernel
theorem witness_Scratchpad_store : let t := lastWord.atIssue h0 [lastWord.gT 1, lastWord.gT 2]
    t.spFine (t.g 1 + (0 : BitVec 16).signExtend 64) (styBytes .n32) ∧ t.mayWrite (t.spAt 2 (t.g 1 + (0 : BitVec 16).signExtend 64) (styBytes .n32)) ∧
    Memory.wf lastWord.mem = true := by
  unfold State.spFine State.mayWrite; decide +kernel
/-- One word further lies outside (SPRANGE); two bytes further is misaligned (ALIGN). -/
theorem witness_Scratchpad_traps : let t := lastWord.atIssue h0 [lastWord.gT 1, lastWord.gT 3]
    (t.g 1 + (4 : BitVec 16).signExtend 64).toNat % styBytes .n32 = 0 ∧
    (t.spRange t.cur.core t.cur.role).2 < (t.g 1 + (4 : BitVec 16).signExtend 64).toNat + styBytes .n32 ∧
    (t.g 1 + (2 : BitVec 16).signExtend 64).toNat % styBytes .n32 ≠ 0 := by decide +kernel
theorem test_sts_then_lds : nexts (exec (.sts h0 .n32 2 1 2 0) lastWord) (fun t => result (exec (.lds h0 .i16 2 3 1 2) t) 3 0x1122) = true := by
  decide +kernel

/-! Branches, ends, events, time -/

/-- B1 holds a code address, B2 one that is none. -/
def branching : State := (regs base [(1, 0x20000), (2, 0x20004), (3, 0x80000000000000)]).modCtx 0 .C
  (fun x => (x.setB 1 0x20000).setB 2 0x20004)
theorem witness_Branches_taken : let t := branching.atIssue h0 []
    condHolds .eq (t.g 4) (t.g 5) = true ∧ condHolds .ne (t.g 4) (t.g 5) = false ∧ isCode (t.pc + (1 : BitVec 24).signExtend 64 * 8) = true ∧
    t.pc + (1 : BitVec 24).signExtend 64 * 8 ≠ 0 ∧ isCode ((t.ctx t.cur.core t.cur.role).getB 1) = true ∧
    (t.ctx t.cur.core t.cur.role).getB 1 ≠ 0 ∧ isCode (t.g 1) = true ∧ isCode (t.g 1 + (0x7FFFFF : BitVec 24).signExtend 64 * 8) = true := by
  decide +kernel
theorem witness_Branches_traps : let t := branching.atIssue h0 []
    isCode ((t.ctx t.cur.core t.cur.role).getB 2) = false ∧ isCode (t.g 2) = false ∧ isCode (t.g 3) = false ∧
    (let u := (branching.modCtx 0 .C (fun x => { x with pc := 0x7FFFFFFFFFFFF8 })).atIssue h0 []
     isCode (u.pc + (1 : BitVec 24).signExtend 64 * 8) = false ∧ condHolds .ge (u.g 4) (u.g 5) = true) := by decide +kernel
theorem test_bcc_back : nexts (exec (.bcc h0 .eq 4 5 0xFFFFFF) branching) (fun t => t.pc == 0xFFF8 && (t.ctx 0 .C).nextIssue == 3) = true := by decide +kernel

theorem witness_EndsAndEvents_ends : base.endWaits h0 [] = false ∧ (base.atIssue h0 [base.gT 1]).g 1 = 0 ∧
    ((base.atIssue h0 []).ctx base.cur.core base.cur.role).getB 0 = 0 ∧ base.endWaits h0 [base.gT 1] = false ∧
    base.endWaits h0 [base.gT 4, base.gT 5] = false ∧ condHolds .eq ((base.atIssue h0 [base.gT 4, base.gT 5]).g 4) ((base.atIssue h0 [base.gT 4, base.gT 5]).g 5) = true ∧
    (base.atIssue h0 []).pc + (0xFFE000 : BitVec 24).signExtend 64 * 8 = 0 ∧ (base.ctx 0 .C).push = [] ∧ base.owes base.me = false := by decide +kernel
/-- Context C of a trio, whose FIFO 2 is full. -/
def full : State := (trio .C).modFifo 0 2 (fun f => { f with toks := List.replicate 15 { vc := [], xc := [] } })
theorem witness_EndsAndEvents_full : full.mayIssue (hTok 3) .all [] = true ∧ full.endWaits (hTok 3) [] = true ∧
    nexts (exec (.halt (hTok 3)) full) (fun t => (t.ctx 0 .C).ending == some .halt && (t.ctx 0 .C).push == [[2]] && (t.ctx 0 .C).run == .running) = true ∧
    (((full.modCtx 0 .C (fun x => { x with ending := some .halt })).afterPushes 0 .C full.me).ctx 0 .C).run = .ended := by decide +kernel
theorem witness_EndsAndEvents_shared : let s := base.modCore 0 (fun k => { k with evClr := base.gtc + 1 })
    ((s.atIssue h0 []).core 0).evClr = (s.atIssue h0 []).gtc + 1 ∧ ((s.setEvent 0).core 0).evbit = false ∧
    ((base.setEvent 0).core 0).evbit = true ∧ nexts (exec (.wfe h0) s) (fun t => t.pc == 0x10008) = true := by decide +kernel
/-- The event bit is set. -/
def eventSet : State := base.modCore 0 (fun k => { k with evbit := true })
theorem witness_EndsAndEvents_events : ((eventSet.atIssue h0 []).core 0).evbit = true ∧ ((eventSet.atIssue h0 []).ctx 0 .C).wait ≠ some .wfe ∧
    ((base.atIssue h0 []).core 0).evbit = false ∧
    (((base.modCtx 0 .C (fun x => { x with wait := some .wfe })).atIssue h0 []).ctx 0 .C).wait = some .wfe := by decide +kernel
/-- G1 holds the last core's pod core id, G2 one core more, G3 a number of 16 bits, G4 the own one. -/
def naming : State := regs base [(1, 319), (2, 320), (3, 0x8000), (4, 0)]
theorem witness_EndsAndEvents_remote : let t := naming.atIssue h0 [naming.gT 1]
    (t.g 1).toNat ≠ t.podId t.cur.core ∧ (t.g 1).toNat % 512 ≤ 319 ∧ 319 < (t.g 2).toNat % 512 ∧ 2 ^ 15 ≤ (t.g 3).toNat ∧
    (t.g 4).toNat = t.podId t.cur.core := by decide +kernel

/-- GTC is 100, G1 holds 100, G2 101, G3 a command number above CHTAIL0. -/
def waiting : State := { regs base [(1, 100), (2, 101), (3, 1)] with gtc := 100 }
theorem witness_Waits : let t := waiting.atIssue h0 [waiting.gT 1]
    (t.g 1).toNat ≤ t.gtc ∧ t.gtc < (t.g 2).toNat ∧ ((t.core t.cur.core).reg 0x318).toNat < (t.g 3).toNat ∧
    (let u := waiting.modCtx 0 .C (fun x => { x with run := .sleeping, wait := some (.waitt 101) })
     (u.ctx 0 .C).run = .sleeping ∧ (u.ctx 0 .C).wait = some (.waitt 101) ∧ u.gtc < 101) := by decide +kernel
/-- The context slept in WAITT with the operand 100, and in WAITT `.p` with the command number 1, above CHTAIL0 when it issued. -/
def woken (w : Wait) : State := waiting.modCtx 0 .C (fun x => { x with wait := some w })
theorem witness_Waits_woken : ((woken (.waitt 100)).atIssue h0 []).waitTime 2 = 100 ∧
    ((woken (.waittP 100 1 false)).atIssue h0 []).waitPromise 2 2 = (100, 1, false) ∧ (waiting.atIssue h0 []).waitPromise 2 3 = (101, 1, false) ∧
    (∀ v, ((waiting.atIssue h0 []).ctx 0 .C).wait ≠ some (.waitt v)) ∧ (∀ v q n, ((waiting.atIssue h0 []).ctx 0 .C).wait ≠ some (.waittP v q n)) ∧
    nexts (exec (.waitt h0 2) (woken (.waitt 100))) (fun t => t.pc == 0x10008) = true := by
  refine ⟨by decide +kernel, by decide +kernel, by decide +kernel, ?_, ?_, by decide +kernel⟩ <;> intros <;>
    rw [show ((waiting.atIssue h0 []).ctx 0 .C).wait = none from by decide +kernel] <;> simp
/-- Command 1 of chain COPY is not retired. -/
def promised : State := sys (waiting.modChain 0 0 (fun ch => { ch with cmds := [fetchEnq] })) 0x318 1
theorem witness_Waits_miss : let t := promised.atIssue h0 []
    (t.g 3).toNat ≠ 0 ∧ ((t.core t.cur.core).reg 0x318).toNat = (t.g 3).toNat ∧
    (∃ e ∈ ((t.core t.cur.core).chain 0).cmds, e.seq = (t.g 3).toNat ∧ e.status ≠ 2 ∧ e.status ≠ 3) := by decide +kernel
theorem test_promise_miss : nexts (exec (.waittP h0 1 3) promised) (fun t => (t.core 0).reports.map (fun r => (r.cause, r.val)) == [(0x31, 1)]) = true := by
  decide +kernel

/-! Issue, system registers, exceptions -/

theorem witness_IssueChecks : base.toksOf (hTok 0) = none ∧ (trio .L).toksOf (hTok 0) = none ∧ ((trio .C).toksOf (hTok 0)).isSome = true ∧
    (trio .L).toksOf h0 ≠ none ∧ ¬ hasRight .comp ((trio .L).core 0).single (trio .L).cur.role ∧ hasRight .all ((trio .C).core 0).single .C ∧
    (trio .C).popsMade = false ∧ (∃ q ∈ (trio .C).popsOf (hTok 0), (((trio .C).core 0).fifo q).toks = [] ∧ (((trio .C).core 0).fifo q).ended = false) := by
  unfold hasRight; decide +kernel
/-- CTL.CHK is set and a result of latency 3 is pending for G1. -/
def early : State := sys (base.putG 1 5 (some 3)) 0 1
theorem witness_StallCheck : let ts := [early.gT 1, early.gT 2, early.gT 3]
    let k := (early.landed ts).core 0
    (early.toksOf h0).isSome = true ∧ (early.core 0).popReady (early.popsOf h0) = true ∧ k.busy ts = false ∧ (k.reg 0).toNat % 2 = 1 ∧
    (∃ e ∈ k.pend, e.ready.isSome = true ∧ e.target ∈ ts) ∧ ((base.core 0).reg 0).toNat % 2 = 0 := by decide +kernel

/-- Firmware handles a report that stopped the trio of the core's launch; EPC holds a code address. -/
def handling : State :=
  (sys (sys (sys fw 0x402 0x8000000000000022) 0x401 0x40000) 0x400 0x50000).modCore 0 (fun k =>
    { k with trioHandled := true, handled := 1, ctxC := { k.ctxC with run := .stopped } })
theorem witness_SystemRegisters_read : (sysAccess 0x409).isSome = true ∧ (sysAccess 0x010).isSome = true ∧
    base.mayIssue h0 .all [base.gT 3, .noMerge .C 0x010] = true ∧ fw.mayIssue h0 .all [fw.gT 3, .noMerge .F 0x409] = true ∧
    ((handling.modCore 0 (fun k => k.setReg 0x407 0x1023)).fstateRead 0).isSome = true := by decide +kernel
theorem witness_SystemRegisters_write : sysAccess 0x110 = some .rw ∧ sysAccess 0x400 = some .fw ∧
    base.sysOk 0 .C 0x008 0x7FE04 = true ∧ (0 : Nat) ∉ (base.core 0).busyTiles ∧ base.sysOk 0 .C 0x008 0xFFFFFFFFFFFFFFFF = false ∧
    fw.sysOk 0 .F 0x400 0x20000 = true ∧ ((fw.modChain 0 0 (fun ch => { ch with run := some { seq := 1 }, fault := true })).ectl 0 0).isSome = true := by decide +kernel

theorem witness_SystemRegisters_merge : base.mayIssue h0 .all [base.gT 1, .noMerge .C 0x008, .tile 0] = true ∧
    (base.merged 0x008).sysOk 0 .C 0x008 0x7FE04 = true := by decide +kernel
/-- MXPRIO written in a cycle governs from the next one on. -/
theorem test_late_swr : nexts (exec (.swr h0 1 0x340) (regs base [(1, 3)])) (fun t =>
    t.sysAt 0 .C 0x340 == base.sysAt 0 .C 0x340 && t.commitLate.sysAt 0 .C 0x340 == 3) = true := by decide +kernel
/-! Exceptions -/

/-- UTVEC of the context is set and TDELEG delegates a conflict. -/
def delegating : State := sys (own base 0x410 0x30000) 0x405 2
theorem witness_DelegatedTrap : delegating.delegates 0 .C 0x22 ∧ (0x22 : Nat) < 256 := by unfold State.delegates; decide +kernel
theorem test_delegated_trap : let t := delegating.takeTrap 0 .C 0x22 0 5 6 0x10000
    (t.ctx 0 .C).pc = 0x30000 ∧ (t.ctx 0 .C).reg 0x411 = 0x10000 ∧ (t.ctx 0 .C).reg 0x412 = 0x4000000000000022 ∧ (t.ctx 0 .C).reg 0x413 = 5 ∧
    (t.core 0).reports = [] := by decide +kernel
theorem witness_TrapEntry_trio : ¬ base.delegates 0 .C 0x22 ∧ (base.ctx 0 .C).run = .running ∧ (base.ctx 0 .L).run ≠ .running ∧
    (base.ctx 0 .L).run ≠ .sleeping := by unfold State.delegates; decide +kernel
/-- TVEC is set and a report waits. -/
def reporting : State := (sys fw 0x400 0x50000).modCore 0 (fun k => { k with reports := [{ cause := 0x22, src := 0, ctx := 1, stop := true }] })
theorem witness_TrapEntry_firmware : (reporting.core 0).hnd = false ∧ (reporting.core 0).reg 0x400 ≠ 0 ∧ (handling.core 0).hnd = true ∧
    (base.core 0).reg 0x400 = 0 ∧ (reporting.reportDue 0).isSome = true ∧
    ((sys reporting 0x400 0).reportDue 0).isSome = true ∧ (reporting.reportDue 0).map (fun r => r.src) = some 0 := by decide +kernel
theorem test_report_taken : nexts (exec .reportTake reporting) (fun t =>
    (t.ctx 0 .F).pc == 0x50000 && (t.core 0).reg 0x402 == 0x8000000000400022 && (t.core 0).reports == []) = true := by decide +kernel
/-- A reclaim is handled. -/
def reclaiming : State := sys handling 0x402 0x8000000000000033
theorem witness_TrapInstructions : let t := handling.atIssue h0 []
    (t.core t.cur.core).hnd = true ∧ ((t.core t.cur.core).reg 0x402).toNat % 256 ≠ 0x33 ∧ (t.core t.cur.core).reg 0x401 ≠ 0 ∧
    ((reclaiming.atIssue h0 []).core 0).hnd = true ∧ (((reclaiming.atIssue h0 []).core 0).reg 0x402).toNat % 256 = 0x33 ∧
    (((sys handling 0x401 0).atIssue h0 []).core 0).reg 0x401 = 0 ∧ ((fw.atIssue h0 []).core 0).hnd = false ∧
    base.pushWaits h0 [] = false := by decide +kernel
theorem witness_TrapInstructions_resume : (handling.core 0).reg 0x40A = 0 ∧ ((handling.core 0).reg 0x402).toNat % 256 ≠ 0x40 ∧
    ((handling.core 0).reg 0x402).toNat % 256 ≠ 0x41 ∧ (handling.core 0).launch = (handling.core 0).handled ∧ (handling.core 0).reports = [] ∧
    (handling.ctx 0 .C).run = .stopped ∧ (handling.ctx 0 .C).safe = false := by decide +kernel
theorem test_eret_resumes : nexts (exec (.eret h0) handling) (fun t =>
    (t.ctx 0 .C).run == .running && (t.ctx 0 .F).pc == 0x40000 && (t.core 0).reg 0x402 == 0x22) = true := by decide +kernel

/-- Numbers at the edges of the fields: an ASID of 12 bits and one of 13, key slots 8,191 and 8,192; a scratchpad address of a key. -/
def edges : State := regs { fw with mem := [(spAddr 0 64, 1)] } [(1, 0xFFF), (2, 0x1000), (3, 8191), (4, 8192), (5, 64), (6, 32)]
theorem witness_TlbKeysControl_tlb : let t := edges.atIssue h0 []
    (t.g 1).toNat < 2 ^ 12 ∧ 2 ^ 12 ≤ (t.g 2).toNat ∧ (∀ p ∈ t.quires, ∀ f ∈ p.2.inflight, f.1.asid = 0) ∧
    (fetchLeaf ∈ (edges.core 0).tlb) := by decide +kernel
/-- Quire 0 has an access through a leaf in flight; G1 holds its page. -/
def inFlight : State := (regs fw [(1, BitVec.ofNat 64 fetchLeaf.va)]).modQuire 0 (fun q => { q with inflight := [(fetchLeaf, 1)] })
theorem witness_TlbKeysControl_inflight : let t := inFlight.atIssue h0 [inFlight.gT 1, inFlight.gT 2]
    (∃ p ∈ t.quires, ∃ f ∈ p.2.inflight, f.1 = fetchLeaf) ∧ fetchLeaf.asid = 0 ∧ (t.g 2).toNat = 0 ∧
    (t.g 1).toNat % 2 ^ 56 = fetchLeaf.va ∧ 0 < fetchLeaf.size ∧
    nexts (exec (.tlbinvPage h0 1 2) inFlight) (fun t => (t.ctx 0 .F).wait == some .inflight && !(t.core 0).tlb.contains fetchLeaf) = true := by decide +kernel
theorem witness_TlbKeysControl_key : let t := edges.atIssue h0 []
    (t.g 3).toNat ≤ 8191 ∧ 8191 < (t.g 4).toNat ∧ (t.g 5).toNat % 64 = 0 ∧ t.spCheck t.cur.core t.cur.role (t.g 5) 64 1 = none ∧
    t.mayRead [(spAddr t.cur.core (t.g 5).toNat, 64)] ∧ (t.raw (spAddr 0 64) 64).take 32 ≠ (t.raw (spAddr 0 64) 64).drop 32 ∧
    (t.g 6).toNat % 64 ≠ 0 := by unfold State.mayRead; decide +kernel
theorem witness_TlbKeysControl_fstate : let s := handling.modCore 0 (fun k => k.setReg 0x407 0x1024)
    (s.core 0).fstateAt = some (Role.C, 36) ∧ isCode (s.g 0) = true ∧ isCode ((regs s [(1, 4)]).g 1) = false ∧ (base.core 0).fstateAt = none ∧
    ((handling.modCore 0 (fun k => k.setReg 0x407 0x1020)).core 0).fstateAt = some (Role.C, 32) := by decide +kernel
/-- Firmware handles the fault of command 1 of chain 0, whose slot lies at its place in the scratchpad. -/
def faulted : State := { fw.modChain 0 0 (fun ch => { ch with fault := true, run := some { seq := 1, done := true, upc := 9 } }) with cur := { core := 0, role := .F, chain := 0 } }
theorem witness_TlbKeysControl_resume : nexts (exec .ectlResume faulted) (fun t => ((t.core 0).chain 0).run.map (fun q => (q.done, q.upc)) == some (false, 0) && !((t.core 0).chain 0).fault) = true ∧
    nexts (exec .ectlResume { faulted with bad := [(0x20, true)] }) (fun t => (t.core 0).reports.map (fun r => r.cause) == [0x25]) = true := by decide +kernel
theorem witness_TlbKeysControl_ring : base.lzOk 0 .C true 0x800 = true ∧ base.lzOk 0 .C false 0x2FF800 = true ∧ base.lzOk 0 .C true 0x400 = false ∧
    ((own base 0x412 0x33).ctx 0 .C).reg 0x412 &&& 0xFF = 0x33 ∧ (base.ctx 0 .C).reg 0x412 &&& 0xFF ≠ 0x33 := by decide +kernel

/-! Vectors -/

/-- G1 holds a row address, G2 the same with one more word, G3 the first row address outside; row 0 holds 0 to 511. -/
def rows : State :=
  (regs base [(1, 0x2FF800), (2, 0x2FF804), (3, 0x300000), (4, 1023), (5, 1024)]).modCore 0 (fun k =>
    { k with rows := [(0, BitVec.ofNat 16384 ((List.range 512).foldr (fun i n => n * 2 ^ 32 + i) 0)), (1, 1)] })
theorem witness_Vectors : (rows.atIssue h0 []).tileOk 0 (((rows.atIssue h0 []).core 0).accsel) = true ∧
    ((rows.atIssue h0 []).g 4).toNat < 1024 ∧ 1024 ≤ ((rows.atIssue h0 []).g 5).toNat ∧
    xOf .f32 0x7FC00000 = .nan ∧ base.tileOk 0 (base.core 0).accsel = true := by decide +kernel
/-- The vector row that an instruction leaves, when every result has landed. -/
def rowAfter (o : Out) (r : Nat) (p : Nat → Bool) : Bool := nexts o (fun t => p (((t.core 0).landBy 20).row r).toNat)
theorem test_viota : rowAfter (exec (.viota h0 0 .i32 2 4) rows) 2 (fun v => lane 32 v 0 == 1023 && lane 32 v 511 == 1534) = true := by decide +kernel
theorem test_vadd_f32 : rowAfter (exec (.vadd h0 0 .f32 (.mode .rne) false 2 3 3) (rows.modCore 0 (fun k => { k with rows := [(3, 0x40490FDB)] }))) 2
    (fun v => lane 32 v 0 == 0x40C90FDB && lane 32 v 1 == 0) = true := by decide +kernel
theorem test_vimul_wraps : rowAfter (exec (.vimul h0 0 .i32 false 2 0 0) (rows.modCore 0 (fun k => { k with rows := [(0, 0x10000)] }))) 2
    (fun v => v == 0) = true := by decide +kernel
theorem test_vmorton : rowAfter (exec (.vmorton h0 0 2 3 4 .c2) (rows.modCore 0 (fun k => { k with rows := [(3, 5), (4, 3)] }))) 2
    (fun v => lane 32 v 0 == 0x1B) = true := by decide +kernel

theorem witness_RowsAndGather : let t := rows.atIssue h0 []
    t.spCheck t.cur.core t.cur.role (t.g 1) 2048 2048 = none ∧ t.spCheck t.cur.core t.cur.role (t.g 2) 2048 2048 = some 0x06 ∧
    t.spCheck t.cur.core t.cur.role (t.g 3) 2048 2048 = some 0x05 := by decide +kernel
theorem witness_RowsAndGather_access : let t := rows.atIssue h0 []
    t.mayRead (spSpans 0 (runPieces 1 0x2FF800 (wordRuns (t.kreg 0)))) ∧ t.mayWrite (spSpans 0 (runPieces 1 0x2FF800 (wordRuns (t.kreg 0)))) := by
  unfold State.mayRead State.mayWrite; decide +kernel
/-- K1 marks lanes 0 and 511 alone. -/
def twoLanes : State := rows.modCore 0 (fun k => { k with k := [(1, BitVec.ofNat 2048 (1 + 2 ^ 511))] })
theorem witness_RowsAndGather_lanes : let t := twoLanes.atIssue h0 []
    let addr (i : Nat) : Word := t.g 1 + (BitVec.ofNat 32 (lane 32 (t.v 0) i)).signExtend 64
    t.activeLanes 1 512 = [0, 511] ∧ t.spFine (addr 0) (styBytes .n8) ∧ t.spFine (addr 511) (styBytes .n8) ∧
    t.mayRead ([0, 511].flatMap (fun i => t.spAt 0 (addr i) 1)) ∧ t.mayWrite ([0, 511].flatMap (fun i => t.spAt 0 (addr i) 1)) ∧
    (addr 0).toNat % styBytes .n16 = 0 ∧ (addr 511).toNat % styBytes .n16 ≠ 0 ∧ t.bit 1 511 = true := by
  unfold State.spFine State.mayRead State.mayWrite; decide +kernel

/-- Tile 1 has 2 rows of 8 columns of i16 elements, tile 2 a scaled row of 64 e4m3 elements, tile 3 more than 32 columns; tile 4 is not reserved. -/
def tiles : State :=
  { (sys (sys (sys (regs base [(1, 0x100), (2, 0x40), (3, 0x10)]) 0x009 0x1C22) 0x00A 0x40FC17) 0x00B 0x8022) with
    launches := [{ fetchLaunch with rcd := { fetchLaunch.rcd with tres := 0xEF } }] }
theorem witness_Tiles : let t := tiles.atIssue h0 []
    t.tileOk 0 1 = true ∧ t.tileOk 0 4 = false ∧ (tiles.shape 0 1).scaled = false ∧ (tiles.shape 0 1).cols ≤ 32 ∧ (tiles.shape 0 1).ew ≠ .e2m1 ∧
    (tiles.shape 0 2).scaled = true ∧ (tiles.shape 0 3).cols = 33 ∧ (t.g 1 + (0 : BitVec 16).signExtend 64).toNat % 32 = 0 ∧
    (t.g 2).toNat % 32 = 0 ∧ (t.g 3).toNat % 32 ≠ 0 := by decide +kernel
theorem witness_Tiles_access : let t := tiles.atIssue h0 []
    (∀ q ∈ (tiles.shape 0 2).plan 0x40, t.spCheck t.cur.core t.cur.role (t.g 1 + BitVec.ofNat 64 q.1) q.2.1 1 = none) ∧
    t.mayRead (((tiles.shape 0 2).plan 0x40).flatMap (fun q => t.spAt 0 (t.g 1 + BitVec.ofNat 64 q.1) q.2.1)) ∧
    t.mayWrite (((tiles.shape 0 1).plan 0x40).flatMap (fun q => t.spAt 0 (t.g 1 + BitVec.ofNat 64 q.1) q.2.1)) ∧
    (t.core 0).early (tileTs 1 2) = false ∧ (t.core 0).busy (tileTs 1 2) = false := by
  unfold State.mayRead State.mayWrite; decide +kernel
/-- A fixed-latency result for a row of tile 1 is pending. -/
theorem witness_Tiles_quiet : let s := tiles.modCore 0 (fun k => { k with pend := [{ target := .row 33, mask := 1, value := 1, ready := some 9 }] })
    (s.toksOf h0).isSome = true ∧ allowed .comp (s.core 0).single s.cur.role = true ∧ (s.core 0).popReady (s.popsOf h0) = true ∧
    (s.shape 0 1).rows = 2 ∧
    (∃ e ∈ ((s.landed ([s.gT 1, s.gT 2] ++ quietTs 1 2)).core 0).pend, e.ready.isSome = true ∧ e.target = .row (32 * 1 + 1)) ∧
    nexts (exec (.tst h0 0 1 2 1 0) s) (fun t => (t.ctx 0 .C).wait == some .busy) = true ∧
    tiles.mayIssue h0 .comp ([tiles.gT 1, tiles.gT 2] ++ quietTs 1 2) = true := by decide +kernel
theorem test_ttrans : nexts (exec (.ttrans h0 0 1) (tiles.modCore 0 (fun k => { k with rows := [(32, 0x00020001), (33, 0x00040003)] }))) (fun t =>
    (t.core 0).pend.take 2 |>.map (fun p => (p.target, p.value)) |>.all (fun p => p == (.row 0, 0x00030001) || p == (.row 1, 0x00040002))) = true := by
  decide +kernel

/-! Indexes, tokens, barriers, streams, lane queues -/

/-- The launch has 4 indexes and the walker of quire 0 holds them. -/
def walking : State :=
  { base.modQuire 0 (fun q => { q with walkers := [{ launch := 1, lo := 0, hi := 4 }] }) with
    launches := [{ fetchLaunch with rcd := { fetchLaunch.rcd with ext := [2, 2, 1] } }] }
theorem witness_IndexOrders : (23 : Nat) < 2 * 3 * 4 ∧ coordsOf 2 [2, 3, 4] 3 ≠ coordsOf 0 [2, 3, 4] 3 := by decide +kernel
theorem witness_Indexes : let t := walking.atIssue h0 []
    (t.launchOf 0).isSome = true ∧ (t.core 0).stage = 0 ∧ (t.core 0).heldCount < 16 ∧ (t.core 0).replay = [] ∧
    (t.launchOf 0).map (fun l => l.ends.contains 0) = some false ∧ (t.core 0).marked = false ∧
    (match t.launchOf 0 with
      | some l => (match State.nextIndex l 0 2000 t with | .index _ i => i == 0 | _ => false) && !isHole l.rcd.order l.rcd.ext 3
      | none => false) = true ∧
    (match base.launchOf 0 with
      | some l => (match State.nextIndex l 0 2000 base with | .finished _ => true | _ => false)
      | none => false) = true := by decide +kernel
theorem witness_Indexes_held : let s := walking.modCore 0 (fun k => { k with held := List.range 16 })
    16 ≤ (s.core 0).heldCount ∧ ((walking.modCore 0 (fun k => { k with stage := 1 })).core 0).stage ≠ 0 ∧
    ((walking.modCore 0 (fun k => { k with replay := [3, 4] })).core 0).replay = 3 :: [4] ∧
    ((walking.modCore 0 (fun k => { k with marked := true })).core 0).marked = true := by decide +kernel
theorem test_tnext : nexts (exec (.tnext h0 5 6 7) (walking.modQuire 0 (fun q => { q with walkers := [{ launch := 1, lo := 3, hi := 4 }] })))
    (fun t => (t.core 0).pend.map (fun p => p.value) == [1, 1, 0] && (t.core 0).held == [3]) = true := by decide +kernel

/-- FIFO 0 holds a token, FIFO 3 is empty and ended; the core holds index 7. -/
def tokened : State := (trio .C).modCore 0 (fun k => { k with tq := [(0, { toks := [{}] }), (3, { ended := true })], held := [7] })
theorem witness_TokensAndBarriers : let t := tokened.atIssue h0 []
    (0 : Nat) ∈ popNames .C false ∧ ((t.core 0).fifo 0).toks ≠ [] ∧ ((t.core 0).fifo 3).toks = [] ∧ ((t.core 0).fifo 3).ended = true ∧
    ((t.core 0).fifo 2).toks = [] ∧ ((t.core 0).fifo 2).ended = false ∧ (2 : Nat) ∉ popNames .C false ∧ (1 : Nat) ∈ pushNames .C false ∧
    (0 : Nat) ∉ pushNames .C false ∧ (t.core 0).held = 7 :: [] ∧ ((t.core 0).fifo 1).deaf = false ∧ (base.core 0).held = [] ∧
    ((regs base [(1, 15), (2, 16)]).g 1).toNat ≤ 15 ∧ 15 < ((regs base [(1, 15), (2, 16)]).g 2).toNat := by decide +kernel
/-- Context L of the trio has arrived at the barrier of core scope, S has ended. -/
def arriving : State :=
  ((trio .C).modCtx 0 .S (fun x => { x with run := .ended })).modLaunch 1 (fun l => { l with bars := [(barKey 0 .L .core, 1)] })
theorem witness_TokensAndBarriers_bar : let t := arriving.atIssue h0 []
    (t.launchOf 0).isSome = true ∧ (t.ctx 0 .C).made = false ∧
    (match (t.arrive .core).launchOf 0 with
      | some m => m.barCores .core 0 == [0] && (t.arrive .core).arrived m 0 .L .core (m.barCount 0 .C .core) &&
          (t.arrive .core).arrived m 0 .C .core (m.barCount 0 .C .core) && (t.arrive .core).arrived m 0 .S .core (m.barCount 0 .C .core)
      | none => false) = true ∧
    (match ((trio .C).arrive .core).launchOf 0 with
      | some m => !((trio .C).arrive .core).arrived m 0 .L .core (m.barCount 0 .C .core)
      | none => false) = true ∧
    base.dusk 0 = false ∧ ({ base with preempt := some { victim := 1, waiting := 2, since := 0 } } : State).dusk 0 = true := by decide +kernel

/-- Stream 0 has one row of i32 elements at row 4, with 510 of its 512 elements taken; stream 1 is empty and ends there; row 0 counts. -/
def streaming : State := sys (sys rows 0x110 ((Stream.word { tail := 510, head := 2, rows := 1, base := 4, esz := 2 }))) 0x111 0
theorem witness_StreamsAndQueues : let t := streaming.atIssue h0 []
    let k := (twoLanes.atIssue h0 []).kreg 1
    (t.stream 0).rows ≠ 0 ∧ etyBits .i32 = 8 * 2 ^ (t.stream 0).esz ∧ (t.stream 0).tail + 2 ≤ (t.stream 0).cap ∧
    (t.stream 0).cap < (t.stream 0).tail + (t.activeLanes 0 (etyLanes .i32)).length ∧ k ≠ 0 ∧ (t.stream 0).tail = 510 ∧ (t.stream 0).head = 2 ∧
    (∀ i, i < 2 → t.spCheck 0 .C (BitVec.ofNat 64 ((t.stream 0).at (510 + i))) 4 1 = none) := by decide +kernel
theorem witness_StreamsAndQueues_access : let t := streaming.atIssue h0 []
    t.mayWrite [(spAddr 0 ((t.stream 0).at 510), 2 * 4)] ∧ t.mayRead [(spAddr 0 ((t.stream 0).at 2), 508 * 4)] := by
  unfold State.mayWrite State.mayRead; decide +kernel
theorem witness_TokensAndBarriers_safe : let s := base.modCtx 0 .C (fun x => { x with safe := true })
    (s.ctx 0 .C).safe = true ∧ (s.ctx 0 .C).push = [] ∧ (s.ctx 0 .C).ending = none ∧ (s.ctx 0 .C).run = .running ∧
    ((s.afterPushes 0 .C s.me).ctx 0 .C).run = .stopped := by decide +kernel
/-- The default stream of core 0 holds 512 i32 elements; lanes 0 and 511 push the ranges 0 to 1 and 511 to 512; lane 5 holds an element. -/
def queued : State :=
  ((sys twoLanes 0x110 (Stream.word { tail := 0, head := 0, rows := 1, base := 4, esz := 2 })).modCore 0 (fun k =>
    { k with rows := [(0, BitVec.ofNat 16384 (511 * 2 ^ (32 * 511))), (1, BitVec.ofNat 16384 (1 + 512 * 2 ^ (32 * 511))),
                      (2, BitVec.ofNat 16384 (513 * 2 ^ (32 * 511)))]
             lanes := [(0, { items := [9], cursor := 0, stop := 1, sd := 0 })] }))
theorem witness_StreamsAndQueues_lanes : let t := queued.atIssue h0 []
    let sd := streamOf ((t.core 0).reg (0x110 + ((t.core 0).reg 0x118).toNat % 8))
    sd.esz = 2 ∧ t.activeLanes 1 512 = [0, 511] ∧ (∀ i ∈ t.activeLanes 1 512, lane 32 (t.v 0) i ≤ lane 32 (t.v 1) i ∧ lane 32 (t.v 1) i ≤ sd.cap) ∧
    sd.cap < lane 32 (t.v 2) 511 ∧ (∀ i ∈ t.activeLanes 1 512, ((t.core 0).lane i).items ≠ [] ∨ ((t.core 0).lane i).exhausted = true) := by
  decide +kernel

/-! Global memory -/

/-- Firmware, which does not translate: G1 names a line of stack 0, G2 the last doubleword of it, G3 a misaligned address, G4 a decoded
aperture, G5 an address of 53 bits; G6 is 7. -/
def globals : State :=
  regs fw [(1, 0x40000), (2, 0x40038), (3, 0x40001), (4, 0x080000000000), (5, 0x10000000000000), (6, 7)]
/-- The one part at which an address range is translated, with the state after. -/
def onePart (s : State) (write : Bool) (a : GReg) (n : Nat) (p : State → Part → Bool) : Bool :=
  okAnd (s.xlatParts s.cur.core (s.aspaceOf s.cur.core s.cur.role) (if write then .write else .read) [(s.g a, n)])
    (fun x => match x.2 with | [q] => p x.1 q | _ => false)
/-- The other accesses that the model's checks look for are absent. -/
def admitted (s : State) (write sync : Bool) (p : Part) : Bool :=
  (s.clash (s.access write sync [(p.pa, p.len)])).isNone && s.bad.isEmpty && !s.contributes s.me [(p.pa, p.len)]
theorem witness_KeyedMemory : Memory.wf globals.mem = true ∧ isDram 0x4003F = true ∧ (0x4003F : Nat) % 64 + 1 ≤ 64 := by decide +kernel
/-- Two key slots hold different keys. -/
def twoKeys : State := { globals with keys := [(1, some { serial := 1, bits := 1 }), (2, some { serial := 2, bits := 2 })] }
theorem witness_KeyedMemory_keys : (List.replicate 64 (7 : Byte)).length = 64 ∧ (0x40000 : Nat) % 64 + 64 ≤ 64 ∧
    twoKeys.keyAt 1 = some { serial := 1, bits := 1 } ∧ twoKeys.keyAt 2 = some { serial := 2, bits := 2 } ∧
    sameKey { serial := 1, bits := 1 } { serial := 2, bits := 2 } = false := by decide +kernel
theorem witness_GlobalLoad : let t := globals.atIssue h0 []
    (t.g 2).toNat % styBytes .n64 = 0 ∧ onePart t false 2 8 (fun u p => admitted u false true p && admitted u false false p) = true ∧
    (t.g 1).toNat % 64 = 0 ∧ onePart t false 1 2048 (fun u p => admitted u false false p && isDram p.pa) = true := by decide +kernel
theorem witness_GlobalStore : let t := globals.atIssue h0 []
    onePart t true 2 8 (fun u p => admitted u true true p && isDram p.pa && decide (p.pa % 64 + 8 ≤ 64) && Memory.wf u.mem &&
      !u.pinned .firmware p.pa p.len && decide (region p.pa = region 0)) = true := by decide +kernel
theorem test_stg_then_ldg : nexts (exec (.stg h0 .i16 none 1 6 2) (regs globals [(6, 0x18001)])) (fun t =>
    result (exec (.ldg h0 .i16 none 7 1 2) t) 7 0xFFFFFFFFFFFF8001) = true := by decide +kernel
/-- Another context, on core 1, wrote the line at G1 and holds it; nothing orders that write before firmware's accesses. -/
def contended (sync : Bool) : State :=
  let t : Touch := { agent := .ctx 1 .C 1, write := true, sync := sync, spans := [(0x40000, 8)] }
  (globals.record t).hold t (some .core)
theorem witness_GlobalRefusals : let t := globals.atIssue h0 []
    (t.g 3).toNat % styBytes .n16 ≠ 0 ∧ (t.g 1).toNat % styBytes .n64 = 0 ∧
    (match t.xlatParts 0 none .read [(t.g 5, 8)] with | .error f => f.cause == 0x20 | .ok _ => false) = true ∧
    onePart { t with mem := [(0x0F0000000000, 1), (0x0F0000000002, 1)] } true 4 8 (fun _ p => match region p.pa with | .decoded _ _ => true | _ => false) = true ∧
    (match (contended false).clash ((contended false).access false false [(0x40000, 8)]) with | some (.conflict 0x1000 _) => true | _ => false) = true ∧
    (match (contended true).clash ((contended true).access false true [(0x40000, 8)]) with | some (.retry 0x1000 _) => true | _ => false) = true ∧
    (((contended true).modCtx 0 .F (fun x => { x with wait := some (.retry 5 0x1000) })).ctx 0 .F).wait = some (.retry 5 0x1000) ∧
    ({ globals with bad := [(0x40007, true)] } : State).badIn [(0x40000, 8)] = some 0x40007 := by decide +kernel
/-- The line at G1 counts in deterministic mode, and a contribution of firmware to its first 8 bytes waits for index 0. -/
def behindOwn : State :=
  { globals with order := { globals.order with counters := [(0x1000,
      { cnt := 3, det := true, seen := 1, applied := [], landed := [1]
        waiting := [{ idx := 1, agent := globals.me, scope := .core, clock := {}, rop := .add, sty := .i64, elems := [(0, 8, 5)] }] })] } }
theorem witness_GlobalRefusals_behind : onePart (behindOwn.atIssue h0 []) false 1 8 (fun u p => u.contributes u.me [(p.pa, p.len)]) = true ∧
    onePart (behindOwn.atIssue h0 []) true 1 8 (fun u p => u.contributes u.me [(p.pa, p.len)] && !u.pinned .firmware p.pa p.len) = true ∧
    nexts (exec (.ldg h0 .n64 (some .pkg) 7 1 0) behindOwn) (fun t => (t.ctx 0 .F).wait == some .behind) = true := by decide +kernel
theorem witness_Atomics : let t := globals.atIssue h0 []
    (t.g 2).toNat % styBytes .i64 = 0 ∧ (t.g 1).toNat % 64 < 56 ∧ 56 ≤ (t.g 2).toNat % 64 ∧
    onePart t true 1 8 (fun u p => admitted u true true p && (u.badIn [(p.pa, p.len)]).isNone && !u.pinned .firmware p.pa p.len &&
      !(u.record (u.access true true [(p.pa, p.len)])).refuses (p.pa / 64) 1 0 true) = true := by decide +kernel
/-- ACAS compares with G[D]: G6 is 7, and 0 stands at G1. -/
theorem witness_Atomics_forms : let t := globals.atIssue h0 []
    onePart t true 1 4 (fun u p => admitted u true true p && admitted u false true p && (u.badIn [(p.pa, p.len)]).isNone && !u.pinned .firmware p.pa p.len &&
      decide (u.atomicOld p = 0) && (t.g 0).toNat == 0 && (t.g 6).toNat == 7) = true ∧ (t.g 1).toNat % styBytes .i32 = 0 ∧
    nexts (exec (.acas h0 .n32 .rlx 0 1 6 0) globals) (fun u => u.readKey 0 0x40000 1 == [7]) = true ∧
    nexts (exec (.acas h0 .n32 .rlx 6 1 6 0) globals) (fun u => u.readKey 0 0x40000 1 == [0] && u.order.accesses.all (fun x => !x.write)) = true := by decide +kernel
theorem witness_Atomics_behind : onePart (behindOwn.atIssue h0 []) true 1 8 (fun u p => u.contributes u.me [(p.pa, p.len)] &&
      (u.clash (u.access true true [(p.pa, p.len)])).isNone && (u.badIn [(p.pa, p.len)]).isNone && !u.pinned .firmware p.pa p.len) = true ∧
    nexts (exec (.red h0 .add .i64 1 6 0) behindOwn) (fun t => t.readKey 0 0x40000 1 == [0] &&
      t.order.counters.map (fun p => p.2.behind.length) == [1] && t.pc == 8) = true := by decide +kernel
/-- The only contribution of a round completes it: 7 is added at G1, and 1 to the ready flag. -/
theorem witness_Atomics_completes : onePart (globals.atIssue h0 []) true 1 8 (fun u p =>
      let v := u.record (u.access true true [(p.pa, p.len)])
      v.completes (p.pa / 64) 1 && !v.pinned .firmware (64 * (p.pa / 64) + 56) 8 && (v.flagClash v.me (p.pa / 64)).isNone &&
        (v.badIn [(64 * (p.pa / 64) + 56, 8)]).isNone && !v.refuses (p.pa / 64) 1 0 true) = true ∧
    nexts (exec (.redc h0 .add .i64 true .pkg 1 6 0 0) globals) (fun t => t.readKey 0 0x40000 1 == [7] && t.readKey 0 0x40038 1 == [1]) = true := by
  decide +kernel
/-- Line 0x1000 counts to 2 in deterministic mode and has taken the contribution of index 0. -/
def counting : State :=
  { globals with order := { globals.order with counters := [(0x1000, { cnt := 2, det := true, seen := 1, applied := [], waiting := [], landed := [0] })] } }
theorem witness_Atomics_refused : counting.refuses 0x1000 2 0 true = true ∧ counting.refuses 0x1000 2 1 true = false ∧
    globals.order.counters = [] ∧ isDram (64 * 0x1000) = true ∧ Memory.wf globals.mem = true ∧
    onePart (counting.atIssue h0 []) true 1 8 (fun u p => (u.record (u.access true true [(p.pa, p.len)])).refuses (p.pa / 64) 2 0 true) = true := by
  decide +kernel
theorem test_aadd : nexts (exec (.aadd h0 .n32 .rlx 7 1 6 0) { globals with mem := [(0x40000, 0xFF), (0x40001, 0xFF), (0x40002, 0xFF), (0x40003, 0xFF)] })
    (fun t => t.readKey 0 0x40000 4 == [6, 0, 0, 0]) = true := by decide +kernel
theorem test_abadd_at_its_bound : result (exec (.abadd h0 .rlx 7 1 6 0) (regs globals [(7, 6)])) 7 0xFFFFFFFFFFFFFFFF &&
    result (exec (.abadd h0 .rlx 6 1 6 0) globals) 6 0 = true := by decide +kernel

theorem witness_Ordering : let t := globals.atIssue h0 []
    onePart t false 2 8 (fun u p => admitted u false true p && decide (leNat (u.readParts [p]) = (t.g 0).toNat) &&
      decide (leNat (u.readParts [p]) ≠ (t.g 6).toNat) && (u.hasBad (p.pa / 64 * 64) 64).isNone) = true ∧
    (match t.xlatParts 0 none .none [(t.g 1, 1)] with | .ok (_, [_]) => true | _ => false) = true := by decide +kernel
theorem test_waitv_waits_on_the_value : nexts (exec (.waitv h0 .n64 (some .pkg) 7 2 0 0) globals) (fun t => (t.ctx 0 .F).wait == some (.waitv 0x1000)) = true := by
  decide +kernel

theorem witness_Ordering_taken : nexts (exec (.ldg h0 .n64 (some .pkg) 7 1 0) globals) (fun t => (t.ctx 0 .F).lastLoad.length == 1 &&
    nexts (exec (.fence h0 .pkg .ar) t) (fun u => (u.ctx 0 .F).fences.map (fun f => f.1) == [.pkg])) = true := by decide +kernel
/-! Rings, launches, engine commands and words -/

/-- The only page of the ring at address 0x100000. -/
def ringLeaf : Leaf := { asid := 0, va := 0x100000, size := 0x10000, frame := 0x100000, key := 0, htgt := 0, home := 0, x := true, w := true }
/-- A stage whose input ring has two records of 64 bytes. -/
def ringStage : Stage :=
  { lentry := 0, centry := 0x10000, sentry := 0, ringbase := 0x100000, ringsize := 2, recsize := 64, bpthresh := 1, tokinit := 0,
    mincores := 1, ring := [ringLeaf] }
/-- A launch of two stages; core 0 runs stage `i`; the ring has seen `put` puts and `got` gets. -/
def staged (i put got : Nat) : State :=
  { base.modCore 0 (fun k => { k with stage := i, tlb := ringLeaf :: k.tlb }) with
    launches := [{ fetchLaunch with rcd := { fetchLaunch.rcd with nstage := 2 }, st := [ringStage, ringStage] }]
    mem := if put = 0 then [] else [(0x100000, BitVec.ofNat 8 put)] ++ (if got = 0 then [] else [(0x100008, BitVec.ofNat 8 got)]) }
/-- The access to the ring's sequence word at `off` is admitted. -/
def seqFree (s : State) (off : Nat) : Bool :=
  let sp := spansOf (ringStage.parts off 8)
  (s.clash (s.access true true sp)).isNone && s.bad.isEmpty
theorem witness_StreamsAndQueues_rings : let t := (staged 0 1 0).atIssue h0 []
    (t.launchOf 0).isSome = true ∧ (t.launchOf 0).map (fun l => l.st.length) = some 2 ∧ (t.g 1).toNat % 64 = 0 ∧
    t.spCheck 0 .C (t.g 1) 64 1 = none ∧ (t.launchOf 0).bind (fun l => t.slotTaken l) = none ∧ t.ringSeq ringStage 0 = 1 ∧
    seqFree t 0 = true ∧ ringStage.ringsize ≤ (staged 0 2 0).ringSeq ringStage 0 ∧ ringStage.getOver 0 = none ∧
    ((staged 1 1 0).core 0).marked = false ∧ (staged 1 1 0).ringSeq ringStage 8 < (staged 1 1 0).ringSeq ringStage 0 ∧
    (staged 1 1 1).ringSeq ringStage 0 ≤ (staged 1 1 1).ringSeq ringStage 8 ∧ seqFree (staged 1 1 0) 8 = true := by decide +kernel
theorem witness_StreamsAndQueues_rings_over : ((staged 1 1 1).launchOf 0).map (fun l => (staged 1 1 1).stageOver l 0) = some true := by decide +kernel
theorem test_stgput : nexts (exec (.stgput h0 1) { staged 0 1 0 with mem := [(0x100000, 1), (spAddr 0 0, 7)] }) (fun t =>
    t.readKey 0 0x100000 1 == [2] && t.readKey 0 0x100080 1 == [7]) = true := by decide +kernel

/-- A launch record at 0x80 of the scratchpad: one computer entry, extents 1, one quire. -/
def recordBytes : List (Nat × Byte) :=
  [(0x8A, 1), (0x98, 1), (0x9C, 1), (0xA0, 1), (0xA4, 1), (0xA8, 1), (0xB9, 1)]
theorem witness_Launches : let s := regs { fw with mem := recordBytes } [(1, 0x80), (2, 0x84)]
    let t := s.atIssue h0 []
    (t.g 1).toNat % 128 = 0 ∧ (t.g 2).toNat % 128 ≠ 0 ∧
    okAnd (t.xlatParts 0 none .read [(0x80, 128)]) (fun x => (x.1.clash (x.1.access false false (spansOf x.2))).isNone &&
      (match recOf (x.1.readParts x.2) with | some r => x.1.recOk r && r.nstage == 0 | none => false)) = true ∧
    okAnd (fw.xlatParts 0 none .read [(0x80, 128)]) (fun x => match recOf (x.1.readParts x.2) with | some r => !x.1.recOk r | none => true) = true := by
  decide +kernel
theorem test_launch : nexts (exec (.launch h0 3 1) (regs { fw with mem := recordBytes } [(1, 0x80)])) (fun t =>
    t.launches.length == 2 && t.pushSeq == 1) = true := by decide +kernel

/-- The words LIT 5 and END at 0x80 of the scratchpad, for chain COPY with a pool of one slot. -/
def enqueuing : State :=
  sys (regs { base with mem := [(spAddr 0 0x80, 5), (spAddr 0 0x83, 0xE0)] } [(1, 0x80), (2, 0x84), (3, 0x2FFFF8), (4, 0x100)]) 0x300
    (BitVec.ofNat 64 fetchSlot)
theorem witness_EngineCommands_enq : let t := enqueuing.atIssue h0 []
    (t.g 1).toNat % 8 = 0 ∧ (t.g 2).toNat % 8 ≠ 0 ∧ (t.enqWords (t.g 1)).isSome = true ∧ t.enqWords (t.g 3) = none ∧
    (t.enqWords (t.g 1)).map (fun w => illegalWord 0 w 0 0) = some none ∧ (t.core 0).pool 0 ≠ 0 ∧
    okAnd (t.checkRuns 0 .C (scanRuns ((t.enqWords (t.g 1)).getD []) 0)) (fun _ => true) = true ∧ illegalWord 0 [0xC00F] 0 0 = some 0 ∧
    (t.clash (t.access false false (spSpans 0 [(0x80, 4)]))).isNone = true := by decide +kernel
theorem test_enq : nexts (exec (.enq h0 .core 5 1 .copy) enqueuing) (fun t => (t.core 0).tail 0 == 1 && ((t.core 0).chain 0).cmds.length == 1) = true := by
  decide +kernel
/-- The one slot of chain COPY holds a live command. -/
def slotTaken : State := sys (enqueuing.modChain 0 0 (fun ch => { ch with cmds := [{ fetchEnq with status := 0 }] })) 0x318 1
theorem witness_EngineCommands_numbers : let t := regs slotTaken [(5, 1), (6, 2)]
    (t.core 0).slots 0 ≤ (t.core 0).tail 0 ∧ (∃ x ∈ ((t.core 0).chain 0).cmds, x.seq + (t.core 0).slots 0 = (t.core 0).tail 0 + 1 ∧ x.live = true) ∧
    t.g 5 ≠ 0 ∧ (t.g 5).toNat ≤ (t.core 0).tail 0 ∧ (t.core 0).chdone 0 < (t.g 5).toNat ∧ (t.core 0).tail 0 < (t.g 6).toNat ∧
    (∃ e, ((t.core 0).chain 0).enq (t.g 5).toNat = some e ∧ e.status = 0) ∧ (t.core 0).tail 0 < (t.g 5).toNat + 64 ∧
    (t.g 5).toNat ≤ ((sys t 0x310 1).core 0).chdone 0 := by
  refine ⟨by decide +kernel, ⟨{ fetchEnq with status := 0 }, by decide +kernel⟩, by decide +kernel, by decide +kernel, by decide +kernel,
    by decide +kernel, ⟨{ fetchEnq with status := 0 }, by decide +kernel⟩, by decide +kernel, by decide +kernel⟩
theorem test_ecancel : nexts (exec (.ecancel h0 7 5 .copy) (regs slotTaken [(5, 1)])) (fun t => (t.core 0).chdone 0 == 1) = true := by decide +kernel

theorem witness_EngineCommands_ahead : let s := enqueuing.modCore 0 (fun k => { k with ctxL := { k.ctxL with run := .sleeping, wait := some (.slot 0 0) } })
    s.slotAhead 0 = true ∧ nexts (exec (.enq h0 .core 5 1 .copy) s) (fun t => (t.ctx 0 .C).wait == some (.slot 0 (s.slotSince 0))) = true ∧
    ((enqueuing.release enqueuing.me .core).1.slotFault 0 0 1 true 0 1024).isNone = true := by decide +kernel
/-- The engine of chain COPY of core 0 runs a command with this stack. -/
def engine (st : List Word) : State :=
  { sys (sys base 0x300 (BitVec.ofNat 64 fetchSlot)) 0x318 1 |>.modChain 0 0 (fun _ => { cmds := [fetchEnq], run := some { seq := 1, stack := st } }) with
    cur := { core := 0, chain := 0 } }
theorem witness_EngineStack : (engine [1, 2]).atWord { seq := 1, stack := [1, 2] } fetchEnq ∧
    (engine [1, 2, 3, 4, 5, 6, 7, 8]).atWord { seq := 1, stack := [1, 2, 3, 4, 5, 6, 7, 8] } fetchEnq ∧
    (engine []).atWord { seq := 1 } fetchEnq := by unfold State.atWord; decide +kernel
/-- The stack of the command after a word, and the fault if it faulted. -/
def stackAfter (i : Instr) (st : List Word) : Option (List Word) :=
  match exec i (engine st) with
  | .next t => if ((t.core 0).chain 0).fault then none else ((t.core 0).chain 0).run.map (fun q => q.stack)
  | _ => none
theorem test_stack_words : stackAfter (.ewLit 0x7FFF) [1] = some [0x7FFF, 1] ∧ stackAfter (.ewExt 3) [1] = some [0x4003] ∧
    stackAfter .ewSwap [1, 2] = some [2, 1] ∧ stackAfter .ewOver [1, 2] = some [2, 1, 2] ∧ stackAfter .ewSub [1, 5] = some [4] ∧
    stackAfter .ewShl [3, 1] = some [8] ∧ stackAfter .ewDup [] = none ∧ stackAfter (.ewLit 1) [1, 2, 3, 4, 5, 6, 7, 8] = none := by decide +kernel
theorem witness_EngineWords_settings : etyOf 9 = some .e2m1 ∧ etyOf 15 = none ∧ etyOf 3 = some .i32 ∧
    stackAfter .ewSwz [7] = some [] ∧ stackAfter .ewSwz [8] = none ∧ stackAfter .ewPrio [8] = some [] ∧ stackAfter .ewPrio [9] = none ∧
    stackAfter .ewDim1 [4, 8, 0x100000] = some [] ∧ stackAfter .ewDim2 [4, 8, 0x100001] = none ∧ stackAfter .ewDim1 [4, 8, 0] = none ∧
    stackAfter .ewStamp [9] = some [] ∧ (((engine []).core 0).chain 0).credits = [] := by decide +kernel

/-- The copy engine's command names scratchpad addresses and the page at 0x200000 through an address run of 0x1000 bytes. -/
def runLeaf : Leaf := { asid := 0, va := 0x200000, size := 0x10000, frame := 0x200000, key := 0, htgt := 0, home := 0, x := true, w := true }
/-- The words of a slot: ADDR with a run of 4,096 bytes at 0x200000 that may be written, and END. -/
def runWords : List Nat := [0xE001, 0, 0x8000, 0x8080, 0x8000, 0x4007, 0xE000]
/-- Memory cells of bytes from an address on. -/
def cells (a : Nat) (bs : List Byte) : List (Nat × Byte) := bs.zipIdx.filterMap (fun p => if p.1 = 0 then none else some (a + p.2, p.1))
/-- An engine command whose slot holds `runWords` runs with this stack; byte 0x40 of the scratchpad is 0x5A, word 0x80 indexes element 2. -/
def copying (st : List Word) : State :=
  let e : Enq := { fetchEnq with vas := [0x200000], pages := [runLeaf] }
  let s := (engine st).modChain 0 0 (fun ch => { ch with cmds := [e] })
  { s with mem := [(fetchSlot + 0x18, 7)] ++ cells (fetchSlot + 0x80) (runWords.flatMap (leBytes 2)) ++ [(spAddr 0 0x40, 0x5A), (spAddr 0 0x80, 2)] }
/-- The command that runs in `copying`. -/
def copyingCmd (st : List Word) : Cmd := { seq := 1, stack := st }
/-- The context in which its words run. -/
def copyingCtx : WCtx := (copying []).wctx (copyingCmd []) { fetchEnq with vas := [0x200000], pages := [runLeaf] }
/-- A word completes on this stack and leaves it empty, and memory reads as `bs` at `pa`. -/
def copies (i : Instr) (st : List Word) (pa : Nat) (bs : List Byte) : Bool :=
  nexts (exec i (copying st)) (fun t => ((t.core 0).chain 0).run.map (fun q => q.stack) == some [] && !((t.core 0).chain 0).fault &&
    t.readKey 0 pa bs.length == bs)
theorem witness_EngineTransfers : (copying [64, 0x40, 0x200040]).atWord (copyingCmd [64, 0x40, 0x200040]) { fetchEnq with vas := [0x200000], pages := [runLeaf] } ∧
    copies .ewCopyGs [64, 0x40, 0x200040] 0x200040 [0x5A, 0] = true ∧ copies .ewCopyGg [512, 0x200000, 0x200200] 0x200200 [0] = true ∧
    copies .ewCopySg [4, 0x200000, 0x40] (spAddr 0 0x40) [0] = true ∧ copies .ewCopySs [4, 0x40, 0x44] (spAddr 0 0x44) [0x5A] = true ∧
    copies .ewFillG [0x77, 4, 0x200000] 0x200000 [0x77, 0, 0, 0] = true ∧ copies .ewFillS [0x77, 4, 0x100] (spAddr 0 0x100) [0x77] = true := by
  unfold State.atWord; decide +kernel
theorem witness_EngineTransfers_indexed : copies .ewCopyxS [1, 0x80, 0x200000, 0x40] 0x200008 [0x5A] = true ∧
    copies .ewCopyxG [1, 0x80, 0x200000, 0x40] (spAddr 0 0x40) [0] = true := by decide +kernel
theorem witness_EngineTransfers_tile : let s := sys (copying []) 0x009 0x1C22
    s.cmdTile fetchEnq 1 = true ∧ (s.core 0).early (tileTs 1 32) = false ∧
    okAnd (resolvePlan (fun a n => copyingCtx.glob true a n) 0x200000 ((s.shape 0 1).plan 0x20)) (fun ps =>
      ps.all (fun p => !s.pinned .engine p.pa p.len)) = true := by decide +kernel
theorem witness_EngineTransfers_cred : (credOp 0x01000050).isSome = true ∧ copies .ewCredL [0x01000050, 64, 0x40, 0x200000] 0x200000 [0x5A] = true ∧
    copies .ewCredL [0x01000050, 64, 0x40, 0x200000] 0x200038 [1] = true := by
  decide +kernel
/-- A line of a CRED: its first 56 bytes, its round, and its flag. -/
def credFits (s : State) (line : List Part) : Bool :=
  match credOp 0x01000050, line with
  | some o, d :: ds =>
    let ps := firstOf (d :: ds) 56
    let a := copyingCtx.agent
    let u := s.record { agent := a, write := true, sync := true, spans := spansOf ps }
    ps.all (fun p => !s.pinned .engine p.pa p.len && !s.keyless p.leaf) && (s.clash { agent := a, write := true, sync := true, spans := spansOf ps }).isNone &&
      s.bad.isEmpty && !u.refuses (d.pa / 64) o.cnt o.idx o.det && u.completes (d.pa / 64) o.cnt && !u.pinned .engine (64 * (d.pa / 64) + 56) 8 &&
      (u.flagClash a (d.pa / 64)).isNone
  | _, _ => false
theorem witness_EngineTransfers_lines : okAnd (copyingCtx.lines 0x200000 1) (fun ds => ds.length == 1 && ds.all (credFits (copying []))) = true ∧
    okAnd (copyingCtx.sp (copying []) (copyingCmd []) 0x40 64 64) (fun sp =>
      (spansOf (sourceParts sp 1 0)).map (fun p => p.2) == [56] && ((copying []).badIn (spansOf (sourceParts sp 1 0))).isNone) = true ∧
    nexts (exec .ewCredL { copying [0x01000050, 64, 0x40, 0x200000] with bad := [(0x200008, true)] }) (fun t =>
      (t.core 0).reports.map (fun r => r.cause) == [0x25] && ((t.core 0).chain 0).run.map (fun q => q.lines) == some 0) = true := by decide +kernel
theorem test_copy_length_zero_faults : nexts (exec .ewCopyGs (copying [0, 0x40, 0x200040])) (fun t => ((t.core 0).chain 0).fault) = true := by decide +kernel

theorem witness_MatrixEngine_words : (tmmaOp 0x1210).isSome = true ∧ tmmaOp 8 = none ∧ (engine [0x1210]).cmdTile fetchEnq 2 = true ∧
    (engine [0x1210]).atWord { seq := 1, stack := [0x1210] } fetchEnq ∧ (shapeOf 0x1C22).rows = 2 := by unfold State.atWord; decide +kernel

/-- A product of the command that `engine` runs, executed on core 1 and due; its operand records are lost. -/
def lostProduct : Product :=
  { chain := 0, seq := 1, ct := 2, at_ := 0, bt := 1, rows := [(0, 1, 1)], occEnd := 0, ready := 0, by_ := 1, upc := 0, stack := [0x1210], bad := true }
theorem witness_MatrixEngine_lost : let s := (engine []).modCore 0 (fun k => { k with mx := [lostProduct] })
    s.productDue 0 false = some lostProduct ∧ ((s.core 0).chain 0).run.map (fun q => q.seq) = some lostProduct.seq ∧ ((s.core 0).chain 0).fault = false ∧
    nexts (exec .migratedProductReturn s) (fun t => (t.core 0).reports.map (fun r => r.cause) == [0x25] && (t.core 0).mx.isEmpty &&
      ((t.core 0).chain 0).run.map (fun q => q.stack) == some [0x1210] && (t.core 0).row 64 == 0) = true := by decide +kernel
/-! Notices and pulls -/

/-- A descriptor at 0x80 of the scratchpad: the block of 512 bytes at 0x11000, one consumer (core 1), one retained, a timeout of 1. -/
def descBytes : List (Nat × Byte) :=
  [(0x81, 0x10), (0x82, 1), (0x95, 2), (0x98, 1), (0x9D, 1), (0x9E, 1), (0xA0, 1)].map (fun p => (spAddr 0 p.1, p.2))
def noticing : State := regs { base with mem := descBytes } [(1, 0x80), (2, 0x40), (3, 0x100), (4, 512), (5, 9)]
/-- The notice of core 1 with number 9, announced at core 0. -/
def aNotice : NoticeInfo := { nid := 9, tag := 7, size := 512, prio := 2, producer := 1 }
def anEntry (st : PState) : PEntry := { info := aNotice, arrival := 0, order := 0, state := st, clock := {}, group := 0, gen := 0 }
theorem witness_Notices : let t := noticing.atIssue h0 []
    (t.g 1).toNat % 8 = 0 ∧ t.spCheck 0 .C (t.g 1) 64 1 = none ∧ (t.clash (t.access false false (spSpans 0 [(0x80, 64)]))).isNone = true ∧
    (match parseDesc (t.raw (spAddr 0 0x80) 64) true with
      | some x => x.size == 512 && x.retain == 1 && okAnd (t.xlatParts 0 (t.aspaceOf 0 .C) .read (pageParts (BitVec.ofNat 64 x.loc) x.size)) (fun _ => true)
      | none => false) = true ∧
    (t.core 0).port.freePub = some 0 ∧ (t.g 2).toNat % 8 = 0 ∧ parseDesc (t.raw (spAddr 0 0x40) 64) true = none ∧ t.spCheck 0 .C (t.g 2) 64 1 = none ∧
    ((t.modPort 0 (fun p => { p with table := [anEntry .announced] })).core 0).port.entry (t.g 5) = some (anEntry .announced) ∧
    (anEntry .announced).unclaimed = true ∧ (anEntry .landed).unclaimed = false ∧ (t.g 4).toNat % 512 = 0 ∧
    ((t.modPort 0 (fun p => { p with resv := [{ nid := 9, size := 512, land := 512 }] })).core 0).port.landed = 512 ∧ (t.core 0).port.landed = 0 ∧
    (t.g 3).toNat % 32 = 0 ∧ t.spCheck 0 .C (t.g 3) 32 1 = none ∧ (t.core 0).port.recs = [] := by decide +kernel
theorem witness_Notices_tableFull : let s := noticing.modPort 0 (fun p => { p with pubs := (List.range 64).map (fun i =>
      (i, some { nid := 0, info := aNotice, frames := [], loc := 0, done := none, cons := [], count := 1, counted := [], pulling := [], begun := [],
                 expiry := 0, timeout := 1, expired := false, raised := false, trapAt := none, role := .C, note := false, epoch := 0, group := 0,
                 gen := 0, clock := {}, kept := [] })) })
    (s.core 0).port.freePub = none := by decide +kernel
theorem test_notice_publishes : nexts (exec (.notice h0 6 1) noticing) (fun t =>
    match (t.core 0).port.pub 0 with
    | some b => b.count == 1 && b.cons == [1] && b.expiry == noticing.gtc + 1 && t.net.map (fun m => m.dst) == [1] | none => false) = true := by decide +kernel
/-- An arrival record waits: NRECV stores its notice, tag, size and producer. -/
theorem test_nrecv : nexts (exec (.nrecv h0 6 3) (noticing.modPort 0 (fun p => { p with
      table := [anEntry .announced], recs := [{ info := aNotice, off := noOffset, status := 1, gtc := 0, clock := {} }] }))) (fun t =>
    t.raw (spAddr 0 0x100) 1 == [9] && t.raw (spAddr 0 0x108) 1 == [7] && t.raw (spAddr 0 0x10D) 1 == [2] && t.raw (spAddr 0 0x114) 3 == [1, 0, 1] &&
      (t.core 0).port.recs.isEmpty) = true := by decide +kernel

/-- The words of the notice with number 9, which is announced at the core of the command. -/
def announcing (st : List Word) : State := (copying st).modPort 0 (fun p => { p with table := [anEntry .announced] })
def announcingCmd : Enq := { fetchEnq with vas := [0x200000], pages := [runLeaf] }
theorem witness_Notices_words : (announcing [0x40, 9]).atWord (copyingCmd [0x40, 9]) announcingCmd ∧
    okAnd ((announcing []).wordEntry 0 9) (fun y => y == anEntry .announced) = true ∧
    (match (announcing []).wordEntry 0 8 with | .error (.eng 3 0) => true | _ => false) = true ∧
    okAnd (copyingCtx.sp (announcing []) (copyingCmd []) 0x40 512 64) (fun _ => true) = true ∧
    okAnd (copyingCtx.glob true 0x200000 512) (fun _ => true) = true ∧ credOk 0x01000050 = true ∧ copyingCtx.c = 0 ∧
    (anEntry .announced).info.producer / 512 = (announcing []).pkg ∧ ({ aNotice with producer := 513 } : NoticeInfo).producer / 512 ≠ (announcing []).pkg ∧
    okAnd (copyingCtx.glob false 0x200000 512) (fun _ => true) = true ∧
    (copyingCtx.runs.find? (fun r => decide (r.pa ≤ 0x200000) && decide (0x200000 + 512 ≤ r.pa + r.len))).isSome = true := by
  unfold State.atWord; decide +kernel
/-- The block of NOTE stands in the command's address run; its descriptor is that of `descBytes`, whose location NOTE does not read. -/
theorem test_note : nexts (exec .ewNote { copying [0x100, 0x200000, 0x80] with mem := (copying []).mem.dropLast ++ descBytes }) (fun t =>
    match (t.core 0).port.pub 0 with
    | some b => b.loc == 0x200000 && ((t.core 0).chain 0).run.map (fun q => q.stack) == some [] | none => false) = true := by decide +kernel

/-- A message of core 1 to core 0 is the only one of the fabric, and has been on its way for 16 cycles. -/
def packet (b : Body) : Packet := { dst := 0, src := 1, group := 0, gen := 0, mseq := 0, body := b }
def message (b : Body) (s : State) : State := { s with net := [packet b], gtc := s.gtc + 16 }
/-- Core 0 has published a block of 512 bytes at 0x11000 for core 1, with number 5. -/
def aPub : Pub :=
  { nid := 5, info := { aNotice with nid := 5, producer := 0 }, frames := [fetchLeaf], loc := 0x11000, done := some (0x12000, fetchLeaf), cons := [1],
    count := 1, counted := [], pulling := [], begun := [], expiry := 0, timeout := 1, expired := false, raised := false, trapAt := none,
    role := .C, note := false, epoch := (base.core 0).epoch, group := 0, gen := 0, clock := {}, kept := [1] }
def published (b : Pub) : State := base.modPort 0 (fun p => { p with pubs := [(3, some b)] })
/-- The port of core 0 knows notice 9 in this state, and pulls it where it does. -/
def listening (st : PState) (pulls : List Pull) : State := base.modPort 0 (fun p => { p with table := [anEntry st], pulls := pulls })
def aPull : Pull := { nid := 9, producer := 1, size := 512, requested := 0, landed := 0, land := .ring 0, dead := false }

/-- What the port of core 0 holds after a message. -/
def portAfter (i : Instr) (s : State) (p : Port → Bool) : Bool := nexts (exec i s) (fun t => p (t.core 0).port)
theorem witness_NoticeProtocol_arrivals : let s := message (.notice aNotice) base
    s.message 0 (packet (.notice aNotice)) ∧ (s.takeMsg 0).stale (packet (.notice aNotice)) = false ∧ (base.core 0).port.table.length < 64 ∧
    portAfter (.noticeArrival 0) (sys s 0x350 0) (fun p => p.table.map (fun e => e.state) == [.announced]) = true ∧
    portAfter (.noticeArrival 0) (s.modPort 0 (fun p => { p with table := List.replicate 64 (anEntry .landed) }))
      (fun p => p.table.length == 64 && p.turned == [(1, 9)]) = true ∧
    nexts (exec (.noticeArrival 0) { s with sys := SMap.set 0 s.sys 0x422 0x40000, mem := [(0x40000, 1)] }) (fun t => (t.core 0).port.table.isEmpty) = true := by
  unfold State.message; decide +kernel
theorem witness_NoticeProtocol_sendings : let s := published aPub
    (s.core 0).port.find 5 = some (3, aPub) ∧ (s.core 0).port.pub 3 = some aPub ∧ aPub.admitsPull 1 0 ∧ ¬ aPub.admitsPull 1 1 ∧ ¬ aPub.admitsPull 2 1 ∧
    (base.core 0).port.find 5 = none ∧ (1 : Nat) / 512 = s.pkg ∧ (s.takeMsg 0).stale (packet .entryFree) = false ∧
    (∀ k d, k < 64 → k ≠ 3 → (s.core 0).port.pub k = some d → 1 ∉ d.kept) ∧
    portAfter (.noticeResend 0) (message .entryFree s) (fun p => (p.pub 3).map (fun b => b.kept) == some []) = true ∧
    portAfter (.pullBegin 0) (message (.segReq 5 0) s) (fun p => (p.pub 3).map (fun b => b.begun) == some [1]) = true ∧
    portAfter (.pullComplete 0) (message (.ack 5) s) (fun p => p.pub 3 == none) = true ∧
    portAfter (.declineArrival 0) (message (.decline 5) s) (fun p => p.pub 3 == none) = true ∧
    portAfter (.withdrawalArrival 0) (message (.pullEnd 5) (published { aPub with pulling := [1] })) (fun p => (p.pub 3).map (fun b => b.pulling) == some []) = true := by
  refine ⟨by decide +kernel, by decide +kernel, by unfold Pub.admitsPull; decide, by unfold Pub.admitsPull; decide, by unfold Pub.admitsPull; decide, by decide +kernel,
    by decide +kernel, by decide +kernel, ?_, by decide +kernel⟩
  intro k d _ hk h
  have : (((published aPub).core 0).port.pub k) = none := by
    have e : ((published aPub).core 0).port.pubs = [(3, some aPub)] := by decide +kernel
    simp [Port.pub, e, SMap.get]; omega
  rw [this] at h; cases h
/-- Two messages of one line: the second one waits for the first. -/
theorem witness_NoticeProtocol_line : let s := { base with gtc := 16, net := [packet (.notice aNotice), { packet (.notice { aNotice with nid := 10 }) with mseq := 1 }] }
    s.notFirst 1 = true ∧ s.notFirst 0 = false ∧ nexts (exec (.noticeArrival 1) s) (fun t => t.net.length == 2) = true := by decide +kernel
/-- Two blocks are kept for core 1: the one of number 5 goes out before that of number 6. -/
theorem witness_NoticeProtocol_kept : let s := message .entryFree (base.modPort 0 (fun p => { p with pubs := [(1, some { aPub with nid := 6 }), (3, some aPub)] }))
    ((s.core 0).port.keptFor 1).map (fun x => x.1) = [3, 1] ∧ s.notFirst 0 = false ∧
    nexts (exec (.noticeResend 0) s) (fun t => t.net.length == 2) = true := by decide +kernel
theorem witness_NoticeProtocol_unpins : let u := ((published aPub).lowerFlight 0 aPub.frames).acquire (.port 0 0) aPub.clock
    (u.setPub 0 3 none).pinned .engine 0x12000 8 = false ∧ (u.clash { agent := .port 0 0, write := true, sync := true, spans := [(0x12000, 8)] }).isNone = true ∧
    u.bad = [] ∧ u.keyless fetchLeaf = false ∧ (∀ x ∈ ({ aPub with counted := [1] } : Pub).cons, x ∈ ({ aPub with counted := [1] } : Pub).counted) ∧
    nexts (exec (.pullComplete 0) (message (.ack 5) (published aPub))) (fun t => t.readKey 0 0x12000 1 == [1]) = true := by decide +kernel
theorem witness_NoticeProtocol_withdrawals :
    portAfter (.withdrawalArrival 0) (message (.withdraw 9) (listening .announced [])) (fun p => p.recs.map (fun r => r.status) == [2]) = true ∧
    portAfter (.withdrawalArrival 0) (message (.withdraw 9) (listening .pulling [aPull])) (fun p => p.recs.isEmpty) = true ∧
    ((listening .pulling [aPull]).core 0).port.pulls.find? (fun p => p.nid == 9) = some aPull ∧
    portAfter (.pullRefused 0) (message (.refuse 9) (listening .pulling [aPull])) (fun p => p.recs.map (fun r => r.status) == [2]) = true := by decide +kernel
theorem witness_NoticeProtocol_counts : (1 : Nat) ∈ aPub.cons ∧ (1 : Nat) ∉ aPub.counted ∧ (2 : Nat) ∉ aPub.cons ∧
    isDram 0x12038 = true ∧ (0x12038 : Nat) % 64 + 8 ≤ 64 ∧ (published aPub).offTables 0x12038 8 ∧ Memory.wf (published aPub).mem = true := by
  unfold State.offTables; decide +kernel

/-- The landing ring of core 0 has 1,024 bytes, of which 512 are free. -/
def ringed (st : PState) (pulls : List Pull) : State :=
  let s := (listening st pulls).modPort 0 (fun p => { p with free := 512, resv := pulls.map (fun x => { nid := x.nid, size := x.size, land := 0 }) })
  sys (sys (sys s 0x350 0x100000) 0x351 1024) 0x352 0x10000
theorem witness_PortsAndReclaims : ((ringed .waiting []).core 0).portPick = some (anEntry .waiting, .ring 0) ∧
    ((ringed (.claimed (.glob 0x11000 0) 1) []).core 0).portPick = some (anEntry (.claimed (.glob 0x11000 0) 1), .glob 0x11000 0) ∧
    (sys (ringed .pulling [aPull]) 0x353 0x10000).nextSeg 0 = some aPull ∧ ((ringed .pulling [aPull]).core 0).port.entry aPull.nid = some (anEntry .pulling) ∧
    aPull.producer / 512 = (ringed .pulling [aPull]).pkg ∧ (base.routeLink 1) = none ∧
    portAfter .portStart (ringed .waiting []) (fun p => p.free == 0 && p.wr == 512 && p.pulls.length == 1) = true ∧
    portAfter (.segmentLand 0) (message (.segData 9 0 (List.replicate 512 3)) (ringed .pulling [aPull])) (fun p =>
      p.pulls.isEmpty && p.recs.map (fun r => r.status) == [0] && p.table.map (fun e => e.state) == [.landed]) = true := by decide +kernel
/-- A segment for the port of core 0, whose ring byte 8 another context has written, unordered with the port. -/
def landing : State :=
  (message (.segData 9 0 (List.replicate 512 3)) (ringed .pulling [aPull])).record
    { agent := .ctx 1 .C 1, write := true, sync := false, spans := [(spAddr 0 0x100008, 8)] }
theorem witness_PortsAndReclaims_refused : (landing.message 0 (packet (.segData 9 0 (List.replicate 512 3)))) ∧ landing.notFirst 0 = false ∧
    landing.stale (packet (.segData 9 0 [])) = false ∧
    (match landing.landSeg 0 aPull 0 (List.replicate 512 3) with | (_, 0, some (.fault 0x22 _ _ _)) => true | _ => false) = true ∧
    portAfter (.segmentLand 0) landing (fun p => p.pulls.isEmpty && p.recs.map (fun r => r.status) == [2]) = true := by
  unfold State.message; decide +kernel
/-- The command of chain COPY waits for the pull of a block into reductions, at whose second line another context holds bytes. -/
def credLanding : State :=
  let s := ((copying []).modCmd 0 0 (fun q => { q with pull := some 9 })).modPort 0 (fun p => { p with
    table := [anEntry .pulling], pulls := [{ aPull with land := .cred 0x200000 0x01000050 0 }] })
  let t : Touch := { agent := .ctx 1 .C 1, write := true, sync := true, spans := [(0x200040, 8)] }
  { (s.record t).hold t (some .core) with net := [packet (.segData 9 0 (List.replicate 512 3))], gtc := 16 }
theorem witness_PortsAndReclaims_retry : let x : Pull := { aPull with land := .cred 0x200000 0x01000050 0 }
    (match credLanding.landSeg 0 x 0 (List.replicate 512 3) with | (_, 1, some (.retry _ _ _)) => true | _ => false) = true ∧
    portAfter (.segmentLand 0) credLanding (fun p => p.pulls.map (fun x => (x.refused, x.lines)) == [(some 16, 1)]) = true ∧
    portAfter (.segmentLand 0) { credLanding.modPort 0 (fun p => { p with pulls := [{ x with refused := some 0, lines := 1 }] }) with gtc := 0x100000 }
      (fun p => p.pulls.isEmpty) = true := by decide +kernel
/-- The block of number 5 has expired unread. -/
def expiring (b : Pub) : State := { published b with cur := { core := 0, pub := 3 }, gtc := 4 }
theorem witness_PortsAndReclaims_reclaims :
    ((expiring aPub).core 0).port.pub 3 = some aPub ∧ aPub.expiry ≤ (expiring aPub).gtc ∧ ((expiring aPub).core 0).launch ≠ 0 ∧
    ((expiring aPub).ctx 0 .C).run = .running ∧
    portAfter .noticeExpiry (expiring aPub) (fun p => (p.pub 3).map (fun b => b.expired) == some true) = true ∧
    portAfter .reclaimTrap (expiring { aPub with expired := true }) (fun p => (p.pub 3).map (fun b => b.raised) == some true) = true ∧
    portAfter .reclaimRepeat (expiring { aPub with expired := true, trapAt := some 4 }) (fun p => (p.pub 3).map (fun b => b.raised) == some true) = true ∧
    portAfter .reclaimRepeat (expiring { aPub with expired := true, trapAt := some 5 }) (fun p => (p.pub 3).map (fun b => b.raised) == some false) = true ∧
    nexts (exec .reclaimTrap (expiring { aPub with expired := true, note := true })) (fun t => ((t.core 0).reports.map (fun r => r.cause)) == [0x33]) = true := by
  decide +kernel

/-- The trio of the NOTICE has ended; a raised reclaim whose handler returns is raised again TIMEOUT cycles later. -/
theorem witness_PortsAndReclaims_gone : let s := (expiring { aPub with expired := true }).modCore 0 (fun k => { k with launch := 0 })
    (s.core 0).launch = 0 ∧ s.comesBack 0 aPub.epoch = false ∧
    nexts (exec .reclaimTrap s) (fun t => (t.core 0).reports.map (fun r => (r.cause, r.ctx)) == [(0x33, 3)]) = true ∧
    (((expiring { aPub with raised := true }).endReclaim 0 5 false).core 0).port.pub 3 = some { aPub with raised := false, trapAt := some 5 } := by decide +kernel
/-! Steps that come about by themselves -/

/-- The issuing context sleeps for this reason. -/
def asleep (w : Wait) (s : State) : State := s.modCtx s.cur.core s.cur.role (fun x => { x with run := .sleeping, wait := some w })
/-- The context runs after a step. -/
def runs (i : Instr) (s : State) : Bool := nexts (exec i s) (fun t => (t.ctx s.cur.core s.cur.role).run == .running)
theorem witness_Wakes : runs .tokenPopReady (asleep .pop base) = true ∧ runs .barRelease (asleep (.bar .core 1) base) = true ∧
    runs .ringSlotReady (asleep (.ring 1) base) = true ∧ runs .enqSlotFree (asleep (.slot 0 0) base) = true ∧
    runs .noticeEntryFree (asleep (.entry 0) base) = true ∧ runs .waitvWake (asleep (.waitv 0) base) = true ∧
    runs .waitseqComplete (asleep (.waitseq 0 1) (sys base 0x310 1)) = true ∧ runs .waitseqComplete (asleep (.waitseq 0 2) (sys base 0x310 1)) = false ∧
    runs .waittExpire (asleep (.waitt 4) { base with gtc := 4 }) = true ∧ runs .waittExpire (asleep (.waitt 5) { base with gtc := 4 }) = false ∧
    runs .pinnedLineTimeout (asleep (.retry 4 0) { base with gtc := 0x100004 }) = true ∧
    runs .pinnedLineTimeout (asleep (.retry 5 0) { base with gtc := 0x100004 }) = false ∧
    runs .retryAdmit (asleep (.retry 5 0) base) = true ∧
    runs .wfeWake ((asleep .wfe base).modCore 0 (fun k => { k with evbit := true })) = true ∧
    ((asleep .wfe base).ctx 0 .C).run = .sleeping := by decide +kernel
/-- Line 0x1000 has refused core 1's context first and core 0's after it, and is held no more. -/
def queueing : State :=
  let s := base.modCtx 1 .C (fun x => { x with run := .sleeping, wait := some (.retry 2 0x1000) })
  let t (a : Agent) : Touch := { agent := a, write := false, sync := true, spans := [(0x40000, 8)] }
  (s.refuse (t (s.agentNow 1 .C)) 0x1000 2).refuse (t s.me) 0x1000 3
theorem witness_Wakes_turns : let t : Touch := { agent := queueing.me, write := false, sync := true, spans := [(0x40000, 8)] }
    queueing.order.waiters.map (fun w => (w.line, w.since)) = [(0x1000, 2), (0x1000, 3)] ∧ t.mask 0x1000 ≠ 0 ∧
    queueing.stillWaits (queueing.agentNow 1 .C) = true ∧ queueing.order.waiters.all queueing.admitted = true ∧ (queueing.clash t).isSome = true := by decide +kernel
theorem witness_Wakes_pushes : ∃ s : State, (s.ctx s.cur.core s.cur.role).push = [[0, 1]] ∧ (s.core s.cur.core).room 0 = true ∧
    nexts (exec .tokenPushRoom s) (fun t => (t.ctx 0 .L).push.isEmpty && ((t.core 0).fifo 0).toks.length == 1) = true ∧
    ((s.modCore 0 (fun k => { k with tq := [(0, { toks := List.replicate 16 {} })] })).core 0).room 0 = false :=
  ⟨(trio .L).modCtx 0 .L (fun x => { x with push := [[0, 1]] }), by decide +kernel⟩

theorem witness_Landings : let s := { base with cur := { core := 0, role := .C } }
    s.isMemory 0x40030 = true ∧ (s.clash { agent := s.me, write := true, sync := false, spans := [(0x40030, 16)] }).isNone = true ∧
    isDram 0x40030 = true ∧ (0x40030 : Nat) % 64 + 16 ≤ 64 ∧ s.offTables 0x40030 16 ∧ s.refuses (0x40028 / 64) 1 0 true = false ∧
    nexts (exec (.homeAccess 0x40030 [1, 2]) s) (fun t => t.readKey 0 0x40030 2 == [1, 2]) = true ∧
    nexts (exec (.redcLand 0x40028 .add .i64 true .core 1 0 5) s) (fun t => t.readKey 0 0x40028 1 == [5]) = true := by
  unfold State.offTables; decide +kernel
theorem witness_Landings_refused : ∃ s : State, s.refuses (0x40028 / 64) 3 0 true = true ∧
    nexts (exec (.redcLand 0x40028 .add .i64 true .core 3 0 5) s) (fun t => t.readKey 0 0x40028 1 == [0]) = true := by
  refine ⟨match exec (.redcLand 0x40028 .add .i64 true .core 2 1 5) base with | .next t => t | _ => base, by decide +kernel⟩
theorem witness_Landings_flag : let u := base.record (base.access true true [(0x40028, 8)])
    base.pinned .firmware 0x40028 8 = false ∧ base.admitsInOrder true false [(0x40030, 16)] ∧ base.admits true true [(0x40028, 8)] ∧
    base.badIn [(0x40028, 8)] = none ∧ u.completes 0x1000 1 = true ∧ u.pinned .trio 0x40038 8 = false ∧ u.flagClash u.me 0x1000 = none ∧
    u.badIn [(0x40038, 8)] = none ∧ base.order.counters = [] ∧ u.refuses 0x1000 1 1 true = true ∧
    nexts (exec (.redcLand 0x40028 .add .i64 true .core 1 0 5) base) (fun t => t.readKey 0 0x40038 1 == [1] && t.order.counters.isEmpty) = true := by
  unfold State.admitsInOrder State.admits; decide +kernel
theorem witness_Landings_variable : let p : Pend := { target := .g .C 5, mask := 0, value := 77, ready := none }
    let s := base.modCore 0 (fun k => { k with pend := [{ p with ready := some 9 }, p] })
    nexts (exec .variableResultLand s) (fun t => (t.ctx 0 .C).getG 5 == 77 && (t.core 0).pend.isEmpty) = true := by decide +kernel

/-- A command of chain COPY waits; its slot is the chain's only one. -/
def waitingCmd : State := { slotTaken with cur := { core := 0, chain := 0 } }
/-- A command of chain COPY has executed END. -/
def ending (seqa : Option Nat) : State :=
  { (copying []).modChain 0 0 (fun ch => { ch with run := some { seq := 1, done := true, seqa := seqa } }) with cur := { core := 0, chain := 0 } }
theorem witness_CommandStarts : (waitingCmd.canStart 0 0).isSome = true ∧ ((ending none).cmdOver 0 0).isSome = true ∧
    ((ending (some 0x200000)).cmdOver 0 0).isSome = true ∧ okAnd (copyingCtx.glob true 0x200000 8) (fun _ => true) = true ∧
    ((waitingCmd.core 0).tail 0 < 2 ^ 64) ∧
    nexts (exec .commandStart waitingCmd) (fun t => ((t.core 0).chain 0).run.map (fun q => q.seq) == some 1) = true ∧
    nexts (exec .commandRetire (ending none)) (fun t => (t.core 0).chdone 0 == 1) = true ∧
    nexts (exec .commandRetire (ending (some 0x200000))) (fun t => t.readKey 0 0x200000 1 == [1] && (t.core 0).chdone 0 == 1) = true := by
  decide +kernel
/-- The slot's status byte is lost, and the command's address run names no page. -/
theorem witness_CommandStarts_faults : nexts (exec .commandStart { waitingCmd with bad := [((waitingCmd.core 0).slot 0 1 + 0x90, true)] }) (fun t =>
      (t.core 0).reports.map (fun r => r.cause) == [0x25]) = true ∧
    nexts (exec .commandRetire { ending none with bad := [((ending none |>.core 0).slot 0 1 + 0x1A, true)] }) (fun t => (t.core 0).chdone 0 == 1) = true ∧
    (ending none).putExec 0 0 1 = (ending none) ∧
    nexts (exec .commandStart { waitingCmd.modChain 0 4 (fun _ => (waitingCmd.core 0).chain 0) with cur := { core := 0, chain := 4 } }) (fun t =>
      (t.die 0).collAt == t.gtc + 1 && (t.canStart 1 4).isNone) = true := by decide +kernel
/-- Counter 0 counts source 1 with a threshold of 2; term 0 names counter 0 and adds a credit to chain COPY. -/
def crossing (count credits : Nat) : State :=
  sys (sys { base.modChain 0 0 (fun ch => { ch with credits := List.replicate credits [] }) with gtc := 9 } 0x320 (BitVec.ofNat 64 (2 ^ 60 + 2 * 2 ^ 24 + count)))
    0x330 (BitVec.ofNat 64 (2 * 2 ^ 60 + 1))
theorem witness_CommandStarts_crossbar : ((crossing 2 0).core 0).crossbarDue 9 = true ∧ ((crossing 2 0).core 0).productTrue 1 = true ∧
    ((crossing 1 0).core 0).productTrue 1 = false ∧ ((crossing 1 0).core 0).productTrue 0 = false ∧
    (((crossing 2 255).core 0).chain 0).credits.length = 255 ∧
    nexts (exec .crossbarCycle ((crossing 1 3).modCore 0 (fun k => { k with pulses := [(1, .core, {})] }))) (fun t =>
      ((t.core 0).chain 0).credits.length == 4 && ecCount ((t.core 0).reg 0x320) == 0) = true := by decide +kernel

/-- Firmware of core 0 handles a report of the launch's trio, whose contexts stand stopped. -/
def handlingTrio (s : State) : State :=
  { (s.modCore 0 (fun k => { k.setReg 0x402 0x8000000000000000 with trioHandled := true, handled := 1 })).modCtx 0 .C (fun x => { x with run := .stopped }) with
    cur := { core := 0, role := .F } }
/-- The launch's reservation is 0x1000 bytes; the save area stands at 0x100000. -/
def smaller (s : State) : State := s.modLaunch 1 (fun l => { l with rcd := { l.rcd with spsize := 0x1000 } })
theorem witness_ContextSaves : let s := regs (smaller (handlingTrio base)) [(1, 0x100000), (2, 0x100001)]
    let t := s.atIssue h0 []
    (t.g 1).toNat % 4096 = 0 ∧ (t.g 2).toNat % 4096 ≠ 0 ∧ (t.handledLaunch 0).map (fun p => p.1.seq) = some 1 ∧
    (match t.xlatParts 0 none .write (pageParts (t.g 1) (0x8C000 + 0x1000)) with
      | .ok (u, ps) => u.bad.isEmpty && ps.all (fun p => !u.pinned .firmware p.pa p.len && (match region p.pa with | .decoded _ _ => false | _ => true))
      | .error _ => false) = true ∧ (fw.core 0).trioHandled = false ∧ (fw.handledLaunch 0).isNone = true ∧ (s.ctx 0 .C).isOver = false ∧
    (s.ctx 0 .F).push = [] := by decide +kernel

/-- The contexts of the handled trio have ended, and the area at 0x100000 says the same of the state in it. -/
def savedTrio : State :=
  { (regs ((smaller (handlingTrio base)).modCtx 0 .C (fun x => { x with run := .ended })) [(1, 0x100000)]) with mem := [(0x100000, 0x0F)] }
theorem witness_ContextSaves_out : (match savedTrio.handledLaunch 0 with
      | some (l, mine) =>
        let rs := savedTrio.saveReads l mine false
        let w := savedTrio.record (savedTrio.access false false rs)
        let ws := w.saveWrites l mine false 0x100000
        (savedTrio.clash (savedTrio.access false false rs)).isNone && (savedTrio.badIn rs).isNone && (w.clash (w.access true false ws)).isNone && w.bad.isEmpty
      | none => false) = true ∧
    nexts (exec (.ctxsave h0 1) savedTrio) (fun t => t.readKey 0 0x100000 1 == [0x0E] && t.pc == savedTrio.pc + 8) = true := by decide +kernel
theorem witness_ContextSaves_in : (match savedTrio.handledLaunch 0 with
      | some (l, mine) =>
        let v := savedTrio.record (savedTrio.access false false (areaHead 0x100000))
        (savedTrio.clash (savedTrio.access false false (areaHead 0x100000))).isNone && (savedTrio.badIn (areaHead 0x100000)).isNone &&
          (v.clash (v.access false false (v.loadReads l mine 0x100000))).isNone && (v.badIn (v.loadReads l mine 0x100000)).isNone
      | none => false) = true ∧ (BitVec.ofNat 64 (leNat (savedTrio.readKey 0 0x100000 8))).getLsbD 0 = true := by decide +kernel
/-! Launches in the package -/

/-- Launch 2 waits in bank `b` for quire 0, with no walker taken. -/
def waitingLaunch (q b : Nat) : Launch := { fetchLaunch with seq := q, bank := b, state := .ready, entered := [], prio := 3 }
/-- The launches of the package. -/
def with_ (ls : List Launch) (s : State) : State := { s with launches := ls }
/-- The banks that the pop of quire 0 samples. -/
def bankOf (j : Nat) : Nat :=
  let g := seedStep (base.quire 0).gen
  if j = 0 then (g.extractLsb' 60 4).toNat else ((g.extractLsb' 60 4).toNat + 1 + (g.extractLsb' 56 4).toNat % 15) % 16
/-- The states of the launches after a step. -/
def states (i : Instr) (s : State) : List LState := match exec i s with | .next t => t.launches.map (fun l => l.state) | _ => []
/-- Quire `0` has these walkers. -/
def walkers (ws : List Walker) (s : State) : State := s.modQuire 0 (fun q => { q with walkers := ws })
theorem witness_Dispatch : let one := with_ [waitingLaunch 2 (bankOf 0)] base
    let two := with_ [waitingLaunch 2 (bankOf 0), waitingLaunch 3 (bankOf 1)] base
    one.popDue 0 = true ∧ two.popDue 0 = true ∧ bankOf 0 ≠ bankOf 1 ∧
    (with_ [waitingLaunch 2 20] base).popDue 0 = true ∧ states (.dispatchPop 0) one = [.running] ∧ states (.dispatchPop 0) two = [.running, .ready] ∧
    states (.dispatchPop 0) (with_ [waitingLaunch 2 20] base) = [.ready] ∧ (one.bankHead (bankOf 0)).map (fun l => l.seq) = some 2 ∧
    one.eligible (waitingLaunch 2 (bankOf 0)) = true ∧
    (with_ [{ waitingLaunch 2 (bankOf 0) with rcd := { fetchLaunch.rcd with qmask := 2 } }] base
      |>.modQuire 1 (fun q => { q with walkers := [{ launch := 7, lo := 0, hi := 0 }, { launch := 8, lo := 0, hi := 0 }] })).eligible
        { waitingLaunch 2 0 with rcd := { fetchLaunch.rcd with qmask := 2 } } = false := by decide +kernel
theorem witness_Dispatch_forced : let s := { with_ [waitingLaunch 2 0] base with forcedList := [2] }
    states .forcedLaunchStart s = [.running] ∧ (quiresOf (waitingLaunch 2 0).rcd.qmask)[0]? = some 0 ∧ (waitingLaunch 2 0).resumed = false ∧
    states .forcedLaunchStart (walkers [{ launch := 7, lo := 0, hi := 0 }, { launch := 8, lo := 0, hi := 0 }] s) = [.ready] := by decide +kernel
/-- Core 0 is free and launch 1 has a walker in its quire. -/
def entering : State :=
  walkers [{ launch := 1, lo := 0, hi := 1 }] (with_ [{ fetchLaunch with entered := [] }] (base.modCore 0 (fun k => { k with launch := 0 })))
theorem witness_Dispatch_enters : (entering.entering 0).map (fun l => l.seq) = some 1 ∧
    (entering.entering 0).map (fun l => l.toReport) = some [] ∧ Memory.wf entering.mem = true := by decide +kernel

/-- Launch 1 has ended everywhere; SIGOP is 1 with a signal at 0x11000. -/
def completed (sigop : Nat) (killed : Bool) : State :=
  with_ [{ fetchLaunch with ended := [0, 1, 2, 3, 4, 5, 6, 7], ran := [0], rcd := { fetchLaunch.rcd with sigop := sigop, sigaddr := 0x11000, sigval := 9 },
                            killed := if killed then some (0, 0, 0) else none }] (base.modCore 0 (fun k => { k with launch := 0 }))
theorem witness_Completion : ((completed 0 false).launch? 1).map (fun l => (completed 0 false).launchOver l) = some true ∧
    ((completed 1 true).launch? 1).map (fun l => (completed 1 true).launchOver l) = some true ∧
    nexts (exec (.launchComplete 1) (completed 1 false)) (fun t => t.launches.isEmpty && t.readKey 0 0x11000 1 == [9]) = true ∧
    nexts (exec (.launchComplete 1) (completed 1 true)) (fun t => t.launches.isEmpty && t.readKey 0 0x11000 1 == [0]) = true := by decide +kernel
/-- A signal into a decoded aperture fails: the launch's issuer is told, and the launch is over. -/
theorem witness_Completion_fails : let s := (completed 1 false).modLaunch 1 (fun l => { l with rcd := { l.rcd with sigaddr := 0x10000000000000 } })
    (match (s.launch? 1).map s.signal with | some (.failed _ 0x20 _) => true | _ => false) = true ∧
    nexts (exec (.launchComplete 1) s) (fun t => t.launches.isEmpty) = true := by decide +kernel
theorem witness_Completion_frames : let s := { with_ [{ waitingLaunch 2 0 with state := .held, rcd := { fetchLaunch.rcd with reltick := 2, deadline := 3 } }] base with
      sys := SMap.set 0 base.sys 0x011 4 }
    let at_ (g : Nat) : State := { s with gtc := g }
    states (.reltickRelease 2) (at_ 32) = [.ready] ∧ states (.reltickRelease 2) (at_ 31) = [.held] ∧
    nexts (exec (.deadlineOverrun 2) (at_ 48)) (fun t => t.launches.map (fun l => l.overran) == [true]) = true ∧
    nexts (exec (.deadlineOverrun 2) (at_ 47)) (fun t => t.launches.map (fun l => l.overran) == [false]) = true := by decide +kernel
/-- The ring of stage 1 holds one record of its two; cores 0 and 1 run stage 0, whose indexes have all been taken. -/
def scheduling : State :=
  ({ (staged 0 1 0).modCore 1 (fun k => { k with launch := 1 }) with gtc := 4096 } : State).modLaunch 1 (fun l => { l with st := [ringStage, { ringStage with bpthresh := 2 }], stageOf := [(0, 0), (1, 0)], entered := [0, 1] })
theorem witness_Completion_stages : let s := [Role.L, .C, .S].foldl (fun s r => s.modCtx 0 r (fun x => { x with run := .ended })) ((staged 0 1 0).modCore 0 (fun k => { k with marked := true }))
    scheduling.gtc % 4096 = 0 ∧ (scheduling.launch? 1).map (fun l => l.rcd.nstage) = some 2 ∧
    nexts (exec (.stageSchedule 1) scheduling) (fun t => t.launches.map (fun l => l.schedAt) == [4097] && (t.core 1).marked && !(t.core 0).marked) = true ∧
    (s.core 0).marked = true ∧ (s.launchOf 0).isSome = true := by decide +kernel

/-- A launch of priority 3 has waited for PTHRESH cycles; launch 1 of a queue with a save area runs in its quire. -/
def preempting : State :=
  walkers [{ launch := 1, lo := 0, hi := 1 }] (sys (with_ [{ fetchLaunch with queue := some (0, 0x50000, 0xFFFF) }, { waitingLaunch 2 0 with pushedAt := 0 }]
    { base with mem := [(0x5004A, 8)], gtc := 9 }) 0x426 9)
def preempted : State := { preempting with preempt := some { victim := 1, waiting := 2, since := 0 }, gtc := 0x200000 }
theorem witness_Preemption : (preempting.launch? 2).map (fun w => decide (w.pushedAt + preempting.pthresh w ≤ preempting.gtc) && preempting.pthresh w != 0 &&
      (preempting.victimOf w).map (fun v => v.seq) == some 1) = some true ∧ preempting.preempt = none ∧
    nexts (exec (.preemptRequest 2 1) preempting) (fun t => (t.quire 0).walkers.map (fun x => x.frozen) == [true]) = true ∧
    preempted.forceDue 0 = true ∧ nexts (exec .safePointTimeout preempted) (fun t => (t.ctx 0 .C).forced && (t.ctx 0 .C).run == .stopped) = true := by
  decide +kernel
theorem witness_Preemption_saves : let stopped := preempted.modCtx 0 .C (fun x => { x with run := .stopped, safe := true, forced := true })
    let saved := { preempted with preempt := some { victim := 1, waiting := 2, since := 0, saved := [0] } }
    let back := base.modLaunch 1 (fun l => { l with toReport := [0] })
    (stopped.saveDue 0).isSome = true ∧
    nexts (exec .preemptReport stopped) (fun t => (t.core 0).reports.map (fun r => r.cause) == [0x41]) = true ∧
    saved.savedVictim.isSome = true ∧ states .preemptSaveDone saved = [.ready, .ready] ∧
    (back.restartDue 0).isSome = true ∧ nexts (exec .preemptRestart back) (fun t => (t.core 0).reports.map (fun r => r.sub) == [1]) = true := by decide +kernel

theorem witness_Preemption_areas : let saved := { preempted with preempt := some { victim := 1, waiting := 2, since := 0, saved := [0] } }
    (match saved.savedVictim with
      | some (_, l) => (match saved.askSaveArea l with
          | .made u => (u.clash { agent := .qp 0, write := true, sync := false, spans := spansOf (physParts (u.saveArea l) 640) }).isNone && u.bad.isEmpty
          | _ => false) && (saved.clash (saveAreaTouch 0 0x50000)).isNone && l.queue == some (0, 0x50000, 0xFFFF)
      | none => false) = true ∧
    (let idle := preempted.modCore 0 (fun k => { k with launch := 7 })
     (idle.saveDue 0).isSome = true ∧
     nexts (exec .preemptReport idle) (fun t => t.preempt.map (fun p => (p.saved, p.skip)) == some ([0], [0]) &&
       (idle.saveDue 0).any (fun x => t.readKey 0 (idle.coreArea x.2 0) 1 == [0x0E])) = true) := by decide +kernel
/-! Queues -/

/-- Queue 3 of die 0 has its QSB at 0x50000 and a ring of 8 slots at 0x51000, with WRIDX 4; the record of `recordBytes` stands at 0x11000. -/
def mapped (hold : QWait) (slot : List (Nat × Byte)) : State :=
  let move (o : Nat) (l : List (Nat × Byte)) : List (Nat × Byte) := l.map (fun p => (o + p.1, p.2))
  ({ base with mem := move 0x10F80 recordBytes ++
      [(0x50008, 1), (0x50010, 4), (0x50021, 0x10), (0x50022, 5), (0x50028, 8), (0x5002E, 3)] ++ move 0x51000 slot } : State).modDie 0 (fun d =>
    { d with queues := [{ qsb := 0x50000, hold := hold }] })
/-- RDIDX of the queue after a step. -/
def rdAfter (i : Instr) (s : State) : Nat := match exec i s with | .next t => t.qField 0x50000 0x18 8 | _ => 99
/-- STATE of the queue after a step. -/
def stateAfter (i : Instr) (s : State) : Nat := match exec i s with | .next t => t.qState 0x50000 | _ => 99
/-- `parses` holds of the packet at the head of the queue, with its type. -/
def heads (s : State) (named slots type : Nat) : Bool :=
  match s.packetAt 0 0 with
  | some p =>
    p.type == type && p.wellFormed named && (match s.qpAsk p.die false true (physParts (p.qsb + 0x08) 0x30) with
      | .made a =>
        let b := (a.admitQ p).acquireAt (.qp p.die) .pkg (p.qsb + 0x08) 0x30 (a.admitQ p).order.serial
        (match b.qpAsk p.die false false ((List.range slots).flatMap (fun j => physParts (b.qSlot p.qsb (p.rd + j)) 64)) with
          | .made _ => true
          | _ => false)
      | _ => false)
  | none => false
theorem witness_QueuePackets : heads (mapped .free []) 0 1 0 = true ∧ heads (mapped .free [(0, 6)]) 0 1 6 = true ∧
    heads (mapped .free [(0, 1), (9, 0x10), (10, 1)]) 8 1 1 = true ∧ heads (mapped .free [(0, 5), (8, 9)]) 8 1 5 = true ∧
    heads (mapped .free [(0, 3), (1, 0x10), (0x41, 0x10), (0x42, 1)]) 0 4 3 = true ∧ heads (mapped .free [(0, 4), (9, 0x10), (10, 1), (16, 7)]) 17 1 4 = true ∧
    rdAfter (.nopPacket 0 0) (mapped .free []) = 1 ∧ stateAfter (.nopPacket 0 0) (mapped .free [(0, 6)]) = 3 ∧
    states (.launchPacket 0 0) (mapped .free [(0, 1), (9, 0x10), (10, 1)]) = [.running, .ready] ∧
    stateAfter (.launchPacket 0 0) (mapped .free [(0, 1), (8, 0x40), (9, 0x10), (10, 1)]) = 3 ∧
    rdAfter (.timedPacket 0 0) (mapped .free [(0, 5)]) = 1 ∧ rdAfter (.timedPacket 0 0) (mapped .free [(0, 5), (8, 9)]) = 0 ∧
    rdAfter (.timedResume 0 0) { mapped (.timed 9) [(0, 5), (8, 9)] with gtc := 9 } = 1 ∧
    ((mapped (.timed 9) [(0, 5), (8, 9)]).heldPacket 0 0).isSome = true := by decide +kernel
theorem witness_QueuePackets_fences : let s := mapped .free [(0, 3), (1, 0x10), (0x41, 0x20), (0x42, 1)]
    rdAfter (.fencePacket 0 0) s = 4 ∧ rdAfter (.fencePacket 0 0) (mapped .free [(0, 3), (1, 0x10), (0x40, 1), (0x41, 0x20), (0x42, 1)]) = 0 ∧
    stateAfter (.fencePacket 0 0) (mapped .free [(0, 3), (1, 0xD0)]) = 3 ∧
    ((mapped (.fence []) [(0, 3)]).heldPacket 0 0).isSome = true ∧
    nexts (exec (.signalPacket 0 0) (mapped .free [(0, 4), (2, 0xFF), (3, 0xFF), (9, 0x20), (10, 1), (16, 7)])) (fun t =>
      t.readKey 0 0x12000 1 == [7] && t.qField 0x50000 0x18 8 == 1) = true := by decide +kernel
/-- Queue 3's signal of the value 7 at 0x12000; another agent holds a byte there in the second state. -/
def pendingSignal : PendSignal := { qsb := 0x50000, bs := leBytes 8 0xFFFF0004 ++ leBytes 8 0x12000 ++ leBytes 8 7 ++ List.replicate 40 0, after := [] }
theorem witness_QueuePackets_signals : let s := mapped .free []
    let t : Touch := { agent := .ctx 1 .C 1, write := true, sync := true, spans := [(0x12000, 8)] }
    okAnd (s.xlatParts (qpCore 0) (some (s.qAspace 0x50000)) .write [(0x12000, 8)]) (fun x =>
      x.2.all (fun q => !x.1.pinned .trio q.pa q.len && !x.1.keyless q.leaf) &&
        (x.1.clash { agent := .qp 0, write := true, sync := true, spans := spansOf x.2 }).isNone && x.1.bad.isEmpty) = true ∧
    ((s.writeSignal 0 pendingSignal).1.readKey 0 0x12000 1 = [7]) ∧ (s.writeSignal 0 pendingSignal).2.isNone = true ∧
    (((s.record t).hold t (some .core)).writeSignal 0 pendingSignal).2.map (fun x => x.refused) = some (some s.gtc) ∧
    (match s.heldPacket 0 0 with | none => true | some _ => false) = true := by decide +kernel
theorem test_signal_adds : nexts (exec (.signalPacket 0 0) (mapped .free [(0, 4), (2, 0xFF), (3, 0xFF), (8, 0x98), (9, 0x10), (10, 1), (16, 7), (24, 1)]))
    (fun t => t.readKey 0 0x11098 2 == [7, 0] && t.readKey 0 0x11018 1 == [1]) = true := by decide +kernel

/-- The run list of priority 0 of die 0 stands at 0x52000 and holds the queue, which is not mapped. -/
def listed (state : Byte) : State :=
  (base.modDie 0 (fun d => { d with sys := SMap.set 0 d.sys 0x421 0x52000 })) |> fun s =>
  { s with mem := (if state = 0 then [] else [(0x50008, state)]) ++
      [(0x50010, 4), (0x50021, 0x10), (0x50022, 5), (0x50028, 8), (0x5002E, 3), (0x52001, 5)] }
theorem witness_KicksAndScans : (match ((listed 0).findQueue 3).2 with | .at 0 0x50000 => true | _ => false) = true ∧
    (match ((listed 0).findQueue 4).2 with | .nowhere => true | _ => false) = true ∧ Memory.wf (listed 0).mem = true ∧
    isDram (0x50000 + 0x38) = true ∧ ((0x50000 + 0x38 : Nat) % 64 + 8 ≤ 64) ∧ SMap.get 0 ((listed 0).die 0).sys 0x421 ≠ 0 ∧
    SMap.get 0 (base.die 0).sys 0x421 = 0 ∧ (listed 0).qState 0x50000 = 0 ∧ (listed 0).runnable 0x50000 = true ∧ ((listed 0).die 0).queues.length < 16 ∧
    ((listed 0).die 0).wakes = [] ∧ ((listed 0).die 0).slips = [] ∧ (base.die 0).slips = [] ∧
    nexts (exec (.kick 3 2) (listed 0)) (fun t => t.qField 0x50000 0x10 8 == 4) = true ∧
    nexts (exec (.kick 3 9) (listed 0)) (fun t => t.qField 0x50000 0x10 8 == 9) = true ∧
    nexts (exec (.queueScan 0) (listed 0)) (fun t => (t.die 0).queues.map (fun q => q.qsb) == [0x50000] && t.qState 0x50000 == 1) = true := by decide +kernel

theorem witness_KicksAndScans_steps : let s := (listed 1).modDie 0 (fun d => { d with queues := [{ qsb := 0x50000 }] })
    let q : QSlot := { qsb := 0x50000 }
    let ctrl (u : State) : Nat := u.qField 0x50000 0x08 8
    (match s.qpAsk 0 true true (physParts 0x50008 8) with | .made _ => true | _ => false) = true ∧
    (match s.qpRead 0 0x50010 16 with | .made t => t.qField 0x50000 0x18 8 < t.qField 0x50000 0x10 8 | _ => false) = true ∧
    ctrl (s.unmapStep 0 q) % 256 = 2 ∧ ((s.unmapStep 0 q).die 0).queues.map (fun y => y.unmapping) = [1] ∧
    ((s.unmapStep 0 { q with unmapping := 1 }).die 0).queues.map (fun y => y.unmapping) = [2] ∧
    (((s.unmapStep 0 { q with unmapping := 2 }).die 0).queues.length = 1) ∧ ((s.unmapStep 0 { q with unmapping := 3 }).die 0).queues = [] ∧
    ((s.wakeAt (.qp 0) 3 0 0x50000).qField 0x50000 0x08 8 / 256 = 1) ∧ ((s.wakeAt (.qp 0) 3 0 0x50000).die 0).doorbell = false ∧
    ((listed 0).wakeAt (.qp 0) 3 0 0x50000 |>.die 0).doorbell = true := by decide +kernel
/-- Every slot holds an idle queue: the latest of the lowest priority makes room for the queue at 0x50000, of priority 7. -/
theorem witness_KicksAndScans_full : let at_ (i : Nat) : Nat := 0x60000 + 128 * i
    let order := (7, 0x50000) :: (List.range 16).map (fun i => (if i < 2 then 1 else 3, at_ i))
    let s := (listed 0).modDie 0 (fun d => { d with queues := (List.range 16).map (fun i => { qsb := at_ i }) })
    let busy := (listed 0).modDie 0 (fun d => { d with queues := (List.range 16).map (fun i => { qsb := at_ i, hold := .coll 9 }) })
    (s.idleVictim 0 7 order).map (fun q => q.qsb) = some (at_ 1) ∧ s.idleVictim 0 1 order = none ∧ busy.idleVictim 0 7 order = none ∧
    s.qState 0x50000 = 0 ∧ s.runnable 0x50000 = true ∧ (s.die 0).queues.length = 16 ∧ (s.die 0).queues.all (fun q => q.unmapping == 0) = true ∧
    (((s.placeQueue 0 order (7, 0x50000)).die 0).queues.filter (fun q => q.unmapping == 1)).map (fun q => q.qsb) = [at_ 1] := by decide +kernel
/-! Collectives -/

/-- A tile-table entry: SRC 0x11000, DST 0x12000, members `ms`, one chunk of 512 bytes, OPS `ops`, TYP `typ`. -/
def entry (ms ops typ : Byte) : List Byte :=
  [0, 0x10, 1, 0, 0, 0, 0, 0, 0, 0x20, 1, 0, 0, 0, 0, 0, ms, 0, 0, 0, 0, 0, 0, 0, 0, 2, 0, 0, 0, ops, typ, 0]
/-- The cells that are not 0 of bytes from an address on. -/
def atAddr (a : Nat) (bs : List Byte) : List (Nat × Byte) := bs.zipIdx.filterMap (fun p => if p.1 = 0 then none else some (a + p.2, p.1))
/-- Die 0 has a tile table of one entry at 0x60000, with its state at 0x70000; SRC begins with the bytes `src`. -/
def tiled (src e : List Byte) (s : State) : State :=
  { s with mem := atAddr 0x11000 src ++ atAddr 0x60000 e }.modDie 0 (fun d =>
    { d with sys := SMap.set 0 (SMap.set 0 (SMap.set 0 d.sys 0x520 0x60000) 0x521 0x70000) 0x522 0x500003 })
/-- The firing of entry 0 that runs on die 0. -/
def aFiring (e : List Byte) (sp : List Spine) : Firing :=
  { entry := 0, fire := 1, image := e, core := none, qsb := none, group := 0, gen := 0, pages := [fetchLeaf], src := [], spines := sp, ready := true,
    build := 1 }
def firing (f : Firing) : State := (tiled [5] f.image base).modDie 0 (fun d => { d with firings := [f] })
theorem witness_Collectives : let t := regs (tiled [] (entry 1 0 6) base) [(1, 0), (2, 1)] |>.atIssue h0 []
    t.entryOk 0 (t.g 1).toNat = true ∧ t.entryOk 0 (t.g 2).toNat = false ∧ t.placesOk 0 0 = true ∧
    (t.clash (t.access false true [(t.tileAddr 0 0, 32)])).isNone = true ∧ t.firing? 0 0 = none ∧
    entryValid 0 (entry 1 0 6) = true ∧ entryValid 0 (entry 2 0 6) = false ∧ entryValid 0 (entry 1 0x10 6) = false ∧ entryValid 0 (entry 1 0 0x20) = true ∧
    okAnd (t.firingPages 0 (t.aspaceOf 0 .C) .trio (entry 1 0 6)) (fun _ => true) = true ∧ t.readPhys 0 (t.tileAddr 0 0) 32 = entry 1 0 6 ∧
    eTyp (entry 1 0 0x86) / 128 = 1 ∧ t.status 0 0 / 2 ^ 62 < 2 ∧ leNat ((entry 1 0 6).drop 0x1C |>.take 1) < (t.g 2).toNat ∧
    ((firing (aFiring (entry 1 0 6) [])).firing? 0 0).isSome = true := by decide +kernel
theorem test_tready : nexts (exec (.tready h0 5 1) (regs (tiled [] (entry 1 0 6) base) [(1, 0)])) (fun t =>
    (t.core 0).pend.map (fun p => p.value) == [0] && (t.readPhys 0 0x60000 32).getD 0x1E 0 == 0x86) = true := by decide +kernel
/-- A COLL packet: index 0 with the image at 0x11200. -/
def collMapped (e : List Byte) (flags : Byte) : State :=
  let s := mapped .free [(0, 2), (9, 0x12), (10, 1)]
  { s with mem := s.mem.take 7 ++ atAddr 0x11200 (e ++ [0, 0, 0, 0, 0, flags]) ++ s.mem.drop 7 }.modDie 0 (fun d =>
    { d with sys := SMap.set 0 (SMap.set 0 (SMap.set 0 d.sys 0x520 0x60000) 0x521 0x70000) 0x522 0x500003 })
theorem witness_Collectives_packet : heads (collMapped (entry 1 0 6) 0) 8 1 2 = true ∧
    okAnd ((collMapped (entry 1 0 6) 0).xlatParts 0 (some 0) .read (pageParts 0x11200 64)) (fun x => x.1.readParts x.2 == entry 1 0 6 ++ List.replicate 32 0) = true ∧
    rdAfter (.collPacket 0 0) (collMapped (entry 1 0 6) 0) = 1 ∧ rdAfter (.collPacket 0 0) (collMapped (entry 1 0 6) 1) = 0 ∧
    stateAfter (.collPacket 0 0) (collMapped (entry 1 0 6) 2) = 3 ∧ stateAfter (.collPacket 0 0) (collMapped (entry 2 0 6) 0) = 3 := by decide +kernel

/-- Link 3 of package 1 leads to link 3 of package 0. -/
def linkBack : Word := 0x4000308000000000
/-- Package 0 is the parent of package 1 on the one spine. -/
def spine : Spine := { edges := [(0, 1)] }
/-- The firing of entry 0 after a step. -/
def fireAfter (i : Instr) (s : State) (p : Firing → Bool) : Bool := nexts (exec i s) (fun t => (t.die 0).firings.any p)
/-- A place of chunk 0 in CWORK, and a state that holds bytes there. -/
def place (idx : Nat) (u : CUse) : CSlot := { chunk := 0, idx := idx, use := u }
def worked (f : Firing) (b : Byte) : State :=
  let g := { f with cbase := 0x500000 }
  let s := firing g
  { s with mem := s.mem ++ atAddr 0x500000 (List.replicate 512 b) }
/-- The state in which the step of a chunk begins is there. -/
def stepsChunk? (s : State) (c : Nat) : Bool :=
  match s.firing? 0 0, s.areaReady 0 0 with
  | some f, .ok _ => f.fail.isNone && decide (c < f.marks)
  | _, _ => false
theorem witness_ChunkSteps : let f := { aFiring (entry 3 0 6) [spine] with slots := [place 0 (.acc 1)] }
    let s := worked f 1
    stepsChunk? s 0 = true ∧ s.bm 0 f 0 = 0 ∧ f.stopped = false ∧ f.kids 0 s.pkg = [1] ∧ f.parent 0 s.pkg = none ∧ f.parent 0 1 = some 0 ∧
    okAnd (s.inputChunk 0 f 0) (fun x => x.2.take 2 == [5, 0]) = true ∧ f.kind ≤ 1 ∧ (f.slot? 0 accUse).isSome = true ∧
    nexts (exec (.collCombine 0 0 0) s) (fun t => t.readPhys 0 0x12000 2 == [6, 1] && t.bm 0 f 0 == 2) = true ∧ base.firing? 0 0 = none ∧
    okAnd (s.resultChunk 0 f 0 (List.replicate 512 9)) (fun u => u.readPhys 0 0x12000 1 == [9]) = true := by decide +kernel
/-- A root of two children: the second partial is asked for, and joins the first when it is here. -/
def twoKids : Spine := { edges := [(0, 1), (0, 2)] }
theorem witness_ChunkSteps_second : let f := { aFiring (entry 7 0 6) [twoKids] with slots := [place 0 (.acc 1)], cbase := 0x500000 }
    let g : Firing := { f with slots := [place 0 (.acc 1), place 1 .whole] }
    let s := worked g 1
    f.kids 0 base.pkg = [1, 2] ∧ (f.slot? 0 (· == .whole)) = none ∧ (g.slot? 0 (· == .whole)).isSome = true ∧ stepsChunk? (worked f 1) 0 = true ∧
    fireAfter (.collCombine 0 0 0) s (fun h => h.slots == [place 0 (.acc 2)]) = true ∧
    fireAfter (.collCombine 0 0 0) (firing (aFiring (entry 3 0 6) [spine])) (fun h => h.slots == []) = true ∧
    okAnd (s.workRead 0 g (place 0 (.acc 1)) 0 512) (fun r => r.2.take 1 == [1]) = true ∧
    okAnd (s.workWrite 0 g (place 1 .whole) 0 (List.replicate 512 3)) (fun u => u.readPhys 0 0x500200 1 == [3]) = true := by decide +kernel
/-- A pull takes a place while the firing may have one. -/
theorem witness_ChunkSteps_asks : let f := { aFiring (entry 3 0 6) [spine] with peerReady := [(0, 1, false)] }
    let s : State := { firing f with sys := SMap.set 0 base.sys 0x513 0x4001080000000000, linkTable := [(1, List.replicate 16 linkBack)] }
    s.routeLink 1 = some 3 ∧ base.routeLink 1 = none ∧ (s.takePlace 0 f 0 (.pull 1 false 0)).isSome = true ∧
    (s.takePlace 0 { f with slots := [place 0 .whole, place 1 .whole] } 0 (.pull 1 false 0)).isNone = true ∧
    ((firing { f with spines := [] }).takePlace 0 { f with spines := [] } 0 (.pull 1 false 0)).isNone = true ∧
    fireAfter (.collCombine 0 0 0) s (fun g => g.slots == [place 0 (.pull 1 false 0)] && g.peerReady.isEmpty) = true ∧
    fireAfter (.collCombine 0 0 0) (firing f) (fun g => g.slots.isEmpty && g.again == 1) = true ∧ f.stopped = false := by decide +kernel
/-- A lost byte of the entry's state area stops the firing, a held line makes the step wait, and a step of nothing changes nothing. -/
theorem witness_ChunkSteps_fails : let s := firing (aFiring (entry 3 0 6) [spine])
    let a := s.areaAddr 0 0
    let bad : State := { s with bad := [(a + 3, true)] }
    let held (since : Nat) : State := { s with gtc := 2 ^ 21, order := { s.order with
      held := [{ line := a / 64, mask := 1, level := .quire, inst := 5, agent := .ctx 40 .C 0, time := 0, sync := true }],
      waiters := [{ agent := collAgent 0 0, home := (.pkg, 0), line := a / 64, mask := 1, since := since }] } }
    nexts (exec (.collCombine 0 0 0) bad) (fun t => (t.die 0).firings.isEmpty && (t.core 0).reports.map (fun r => r.cause) == [0x25, 0x50]) = true ∧
    okAnd (s.areaReady 0 0) (fun u => u.order.accesses.length == 1) = true ∧
    (match (held (2 ^ 21 - 1)).areaReady 0 0 with | .error (.retry _ _ _) => true | _ => false) = true ∧
    fireAfter (.collCombine 0 0 0) (held (2 ^ 21 - 1)) (fun f => f.refused.isSome) = true ∧
    nexts (exec (.collCombine 0 0 0) (held 5)) (fun t => (t.core 0).reports.map (fun r => r.cause) == [0x23, 0x50]) = true ∧
    fireAfter (.collCombine 0 0 0) (firing { aFiring (entry 3 0 6) [spine] with fail := some 4 }) (fun f => f.fail == some 4) = true := by decide +kernel
theorem witness_ChunkSteps_child : let f := aFiring (entry 3 0 6) [{ edges := [(1, 0)] }]
    let s := firing f
    f.parent 0 s.pkg = some 1 ∧ nexts (exec (.collCombine 0 0 0) s) (fun t => t.bm 0 f 0 == 1) = true ∧
    f.slot? 0 (· == .land) = none ∧ nexts (exec (.collBroadcastPull 0 0 0) s) (fun _ => true) = true ∧
    nexts (exec (.collBroadcastPull 0 0 0) (worked { f with slots := [place 0 .land] } 8)) (fun t => t.readPhys 0 0x12000 1 == [8]) = true := by
  decide +kernel
theorem witness_ChunkSteps_kinds : let two := aFiring (entry 3 0 0x20) [spine]
    let three : Firing := { aFiring (entry 1 0 0x30) [] with ready := false, headers := [(0, leBytes 8 0)] }
    two.kind = 2 ∧ two.parent 0 0 = none ∧ nexts (exec (.collCombine 0 0 0) (firing two)) (fun t => t.readPhys 0 0x12000 1 == [5]) = true ∧
    three.kind = 3 ∧ (∀ q ∈ three.members, ∃ x ∈ three.headers, x.1 = q) ∧
    fireAfter (.collCombine 0 0 0) (firing three) (fun g => g.ready) = true ∧ 0 < three.marks ∧ three.recv 0 0 = 0 ∧
    fireAfter (.collCombine 0 0 0) (firing { three with headers := [] }) (fun g => g.headers.length == 1) = true ∧
    ((eNch three.image + 1) * eChunk three.image < ({ three with headers := [(0, leBytes 8 1)] } : Firing).off 0 1 + 512) := by decide +kernel
/-- KIND 3 of two members: the other's header is asked for; a rank that has landed is written; an overflow aborts. -/
theorem witness_ChunkSteps_ranks : let f := { aFiring (entry 3 0 0x30) [] with headers := [(0, leBytes 8 0 ++ leBytes 8 4)], ready := false }
    let g := { f with headers := f.headers ++ [(1, leBytes 8 4)], ready := true }
    nexts (exec (.collCombine 0 0 0) (firing f)) (fun t => (t.die 0).firings.all (fun h => h.fail == some 2) && SMap.get 0 t.sys 0x503 == 1) = true ∧
    g.rank 0 = 0 ∧ g.recv 0 1 = 4 ∧ g.members = [0, 1] ∧
    okAnd ((firing { g with landed := [(1, [7, 7, 7, 7])] }).collWrite 0 g 0x12200 [7]) (fun _ => true) = true ∧
    ((firing g).routeLink 1).isNone = true ∧ okAnd ((firing g).payload 0 g 0 0 0) (fun r => r.2.isEmpty) = true ∧
    ({ g with landed := [(1, [7, 7, 7, 7])] } : Firing).landed.find? (fun y => y.1 == 1) = some (1, [7, 7, 7, 7]) := by decide +kernel

theorem witness_CollectiveChanges : let f := { aFiring (entry 1 0 6) [] with again := 1, build := 1 }
    let g := { aFiring (entry 3 0 6) [] with again := 1 }
    let r := { aFiring (entry 1 0 6) [] with recomp := true }
    (firing f).recomputing 0 0 = some f ∧ (firing r).recomputing 0 0 = none ∧ (firing f).buildSpines f.members ≠ [] ∧
    (firing g).buildSpines g.members = [] ∧ ((firing r).die 0).firings.find? (fun f => f.entry == 0 && f.recomp) = some r ∧
    (firing r).firingOf 0 r.entry r.fire = some r ∧ r.isOver = false ∧ r.aborting = none ∧ (firing r).bm 0 r 0 ≠ 3 ∧
    ((firing r).setBm 0 r 0 3).bm 0 r 0 = 3 ∧ f.halt < f.build ∧
    okAnd (((firing r).setBm 0 r 0 3).keepServed 0 r) (fun x => x.2.isEmpty) = true := by decide +kernel
/-- An abort while a pull is in progress waits for it, and ends when nothing is. -/
theorem witness_CollectiveChanges_abort : let f := { aFiring (entry 3 0 6) [spine] with slots := [place 0 (.pull 1 false 0)] }
    let g := { f with aborting := some 1 }
    g.quiet = false ∧ ({ g with slots := [] } : Firing).quiet = true ∧
    (((firing f).takeAbort 0 f 1).firing? 0 0).isSome = true ∧ (((firing f).takeAbort 0 { f with slots := [] } 1).firing? 0 0).isSome = true ∧
    (((firing { g with slots := [] }).finishAbort 0 { g with slots := [] }).firing? 0 0).isNone = true := by decide +kernel
theorem witness_CollectiveChanges_messages : let f := aFiring (entry 1 0 6) []
    let m (fire : Nat) : Packet := { packet (.collAbort 0 fire 2) with dst := 0 }
    let s (fire : Nat) : State := { firing f with net := [m fire], gtc := base.gtc + 16 }
    (s 1).message 0 (m 1) ∧ collKey (m 1).body = some (0, 1) ∧ (m 1).dst = 512 * (s 1).pkg + 80 * 0 ∧ (s 1).stale (m 1) = false ∧
    (s 1).notFirst 0 = false ∧ ({ s 1 with gtc := 0 } : State).notFirst 0 = true ∧
    (s 1).firingOf 0 0 1 = some f ∧ (s 2).firingOf 0 0 2 = none ∧ (2 + 2 ^ 32 - (s 2).status 0 0 % 2 ^ 32) % 2 ^ 32 < 2 ^ 31 ∧
    nexts (exec (.collAbort 0 0 2) (s 1)) (fun t => (t.die 0).firings.isEmpty) = true ∧
    nexts (exec (.spinesArrival 0 0) (s 2)) (fun t => (t.die 0).heldMsgs == [m 2]) = true := by
  unfold State.message; decide +kernel

/-! Links, platform, dawn and host -/

/-- Link 3 is a direct link to package 2 with 8 lanes. -/
def linkValue : Word := 0x4002080000000000
def linked (k : LinkLayer) : State := { base with sys := SMap.set 0 base.sys 0x513 linkValue, links := [(3, k)] }
def aFlit (m : Option Packet) : Flit :=
  sealFlit { seq := 0, ack := 4, vn := 0, cvn := 0, cret := 0, first := true, last := true, payload := leBytes 240 0, crc := 0, msg := m }
def aTx (resent : Nat) : TxFlit := { flit := { aFlit none with seq := 4 }, sentAt := 0, resent := resent }
theorem witness_Links : linkValueOk linkValue = true ∧ linkKind ((linked {}).linkReg 3) = 1 ∧ linkPeer ((linked {}).linkReg 3) = 2 ∧
    ((linked {}).link 3).expect = (aFlit none).seq ∧ linkKind ((linked {}).linkReg 4) = 0 ∧ fld ((linked {}).linkReg 3) 43 40 = 8 ∧
    fld (base.linkReg 3) 43 40 ≠ 8 ∧ linkValueOk 0 = false ∧
    nexts (exec (.flitReceive 3 (aFlit (some (packet .event)))) (linked { tx := [aTx 0] })) (fun t => t.net == [packet .event] && (t.link 3).tx.map (fun x => flitEmpty x.flit) == [true]) = true ∧
    nexts (exec (.flitReceive 3 (aFlit (some (packet .event)))) { linked {} with taken := [(0, 0)] }) (fun t => t.net.isEmpty) = true ∧
    ackTo 4 [aTx 0] = [] := by decide +kernel
/-- A control message and two of other networks wait to be sent; network 0 has no credit. -/
def sending : LinkLayer :=
  { queue := [{ packet .event with made := 5 }, { packet (.segReq 5 0) with made := 7 }, { packet (.segReq 6 0) with made := 6 }] }
theorem witness_Links_order : sending.next.isSome = true ∧ ({} : LinkLayer).next = none ∧
    (match sending.next with | some vn => vn == netOf (.segReq 5 0) || vn == netOf .event | none => false) = true ∧
    (LinkLayer.pump 9 1 sending).tx.length = 1 ∧ flitCount .event = 1 ∧ flitCount (.segData 9 0 (List.replicate 512 0)) = 3 := by decide +kernel
/-- A broken flit, one ahead of its turn, one taken before, one that only answers, one that is not a message's last, and one for another package. -/
theorem witness_Links_odd : let e := aFlit (some (packet .event))
    let answer := sealFlit { e with msg := none, seq := 0, nack := true, ack := 4 }
    crcHolds { e with crc := e.crc + 1 } = false ∧ crcHolds e = true ∧ flitAlone e = false ∧
    nexts (exec (.flitReceive 3 { e with crc := e.crc + 1 }) (linked {})) (fun t => t.net.isEmpty && (t.link 3).reply.any (·.nack)) = true ∧
    nexts (exec (.flitReceive 3 (sealFlit { e with seq := 127 })) (linked {})) (fun t => (t.link 3).reply.any (·.nack)) = true ∧
    nexts (exec (.flitReceive 3 (sealFlit { e with seq := 128 })) (linked {})) (fun t => (t.link 3).reply.any (fun x => !x.nack)) = true ∧
    flitAlone answer = true ∧ nexts (exec (.flitReceive 3 answer) (linked { tx := [aTx 0] })) (fun t => (t.link 3).nacked && (t.link 3).tx.isEmpty) = true ∧
    nexts (exec (.flitReceive 3 (sealFlit { e with last := false, msg := none })) (linked {})) (fun t => (t.link 3).expect == 1 && t.net.isEmpty) = true ∧
    passedOn (.linkRow 2 []) = true ∧ passedOn .event = false := by decide +kernel
theorem witness_Links_time : nexts (exec (.flitReceive 3 (aFlit (some { packet (.time 100 true) with src := 512 }))) { linked {} with sys := SMap.set 0 (linked {}).sys 0x500 0 }) (fun t =>
    t.net.isEmpty && t.podTime == [(1, true)] && t.gtc == base.gtc) = true := by decide +kernel
theorem witness_Links_resends : nexts (exec (.flitResend 3 false false) { linked { tx := [aTx 0] } with gtc := 2047 }) (fun t => t.sys == (linked {}).sys) = true ∧
    nexts (exec (.flitResend 3 false false) { linked { tx := [aTx 14] } with gtc := 2048 }) (fun t => (t.linkReg 3) == linkValue + 1) = true ∧
    nexts (exec (.flitResend 3 true false) (linked { tx := [aTx 15], nacked := true })) (fun t => linkKind (t.linkReg 3) == 0) = true ∧
    nexts (exec (.flitResend 3 true true) (linked { tx := [aTx 15], nacked := true })) (fun t => linkKind (t.linkReg 3) == 1) = true := by decide +kernel
theorem witness_Links_changes : nexts (exec (.linkUp 4 linkValue) base) (fun t => t.linkReg 4 == linkValue && SMap.get 0 t.sys 0x501 == SMap.get 0 base.sys 0x501 + 1) = true ∧
    nexts (exec (.laneSpare 3) (linked {})) (fun t => fld (t.linkReg 3) 43 40 == 7) = true ∧
    (({ linked {} with linkTable := [(2, List.replicate 16 linkValue)] } : State).routeLink 2) = some 3 ∧
    nexts (exec (.remoteEventArrival 0) (message .event base)) (fun t => (t.core 0).evbit) = true ∧
    nexts (exec (.linkTableRow 0) (message (.linkRow 2 [5]) base)) (fun t => SMap.get [] t.linkTable 2 == [5]) = true ∧
    (message (.linkRow 2 [5]) base).notFirst 0 = false ∧ ({ message (.linkRow 2 [5]) base with gtc := 0 } : State).notFirst 0 = true := by decide +kernel

theorem witness_PlatformEvents : base.featureOff 3 = false ∧ ({ base with sessions := [(0, some {})] } : State).featureOff 3 = true ∧
    ({ base with phase := .off } : State).agenda = [] ∧ (base.hasBad 0x40000 64).isNone = true ∧
    (({ base with bad := [(0x40007, true)] } : State).hasBad 0x40000 64).isSome = true ∧ (1 : Nat) ≠ base.pkg ∧ referenceOf base.podUp = some base.pkg ∧
    nexts (exec .lostLock { base with hostLock := true }) (fun t => !t.hostLock) = true ∧ base.hostLock = false ∧
    nexts (exec (.moduleInsert 1 (List.replicate 16 linkBack)) base) (fun t => t.rowOf 1 == List.replicate 16 linkBack) = true ∧
    nexts (exec (.moduleRemove 2) (linked {})) (fun t => linkKind (t.linkReg 3) == 0) = true ∧ (List.replicate 16 (0 : Word)).length = 16 ∧
    nexts (exec (.ptpMessage true 24) base) (fun t => fld (SMap.get 0 t.sys 0x502) 63 63 == 1) = true ∧
    nexts (exec (.ptpMessage true 25) base) (fun t => fld (SMap.get 0 t.sys 0x502) 63 63 == 0) = true ∧
    nexts (exec (.throttle 3 12) base) (fun t => (t.die 3).throttle == 12) = true ∧
    nexts (exec (.arrayError (.sram 319 8) true) base) (fun t => (t.core 319).reg 0x40B == 1) = true ∧
    nexts (exec (.arrayError (.dram 0x4003F) false) base) (fun t => (t.hasBad 0x40000 1).isSome) = true := by decide +kernel

theorem witness_PlatformEvents_time : let al : State := { base with phase := .aligning }
    referenceOf [(1, false), (2, true)] = some 2 ∧ referenceOf [(3, false), (2, false)] = some 2 ∧
    (al.timeFrom 1 100 true).phase = .up ∧ 100 ≤ (al.timeFrom 1 100 true).gtc ∧
    ({ al with podTime := [(2, true)] } : State).timeFrom 3 100 true = { al with podTime := [(2, true), (3, true)] } ∧
    fld (SMap.get 0 (({ base with podTime := [(0, false)], sys := SMap.set 0 base.sys 0x500 5, gtc := 100 } : State).timeFrom 0 100 true).sys 0x502) 63 63 = 1 := by
  decide +kernel
theorem witness_PlatformEvents_records : let p : Product := { lostProduct with bad := false }
    let s := (engine []).modCore 0 (fun k => { k with mx := [p] })
    s.records 0 0 0 = some p ∧ base.records 0 0 0 = none ∧
    nexts (exec (.arrayError (.records 0 0 0) false) s) (fun t => (t.core 0).mx == [lostProduct]) = true ∧
    nexts (exec (.arrayError (.records 0 0 0) true) s) (fun t => (t.core 1).reg 0x40B == 1) = true ∧
    nexts (exec (.scrub (.records 0 0 0)) (s.modCore 0 (fun k => { k with mx := [lostProduct] }))) (fun t => t.hostOut.any (fun o => o == .scrubError 0)) = true ∧
    nexts (exec (.scrub (.dram 0x40007)) { base with bad := [(0x40007, true)] }) (fun t => t.hostOut.any (fun o => o == .scrubError 0x40007)) = true := by
  decide +kernel
/-- A dawn whose image is known to verify; core 5 failed. -/
def dawning : DawnCfg := { DawnCfg.default with trusted := true, failedCores := [5], fwEntry := 0x40000, gens := [(0, 9)], gtcFromRef := none }
theorem witness_DawnAndUpdate : let off : State := { base with phase := .off }
    off.phase ≠ .up ∧ off.phase ≠ .recovery ∧ dawning.trusted = true ∧ ({ dawning with trusted := false } : DawnCfg).trusted = false ∧ base.phase = .up ∧
    dawning.failedCores.contains 4 = false ∧ dawning.failedCores.contains 5 = true ∧ dawning.gens.find? (fun (g : Nat × Word) => g.1 == 0) = some (0, 9) ∧
    (base.die 0).mv.length = 4 := by decide +kernel
/-- Dawn with a failed physical core of quire 0 (its spare takes over), and with two (one core fails); and with a reference to align to. -/
theorem witness_DawnAndUpdate_cores : let off : State := { base with phase := .off }
    nexts (exec (.dawn { dawning with failedCores := [3] }) off) (fun t => !(t.core 3).failed && !(t.core 7).failed) = true ∧
    nexts (exec (.dawn { dawning with failedCores := [3, 5] }) off) (fun t => (t.core 7).failed && !(t.core 6).failed) = true ∧
    nexts (exec (.dawn { dawning with dawned := [(2, true)], links := [0, 0, 0, linkValue] }) off) (fun t => t.phase == .aligning) = true ∧
    nexts (exec (.dawn { dawning with failedCores := [3] }) off) (fun t => (t.core 3).image == dawning.version && (t.ctx 3 .F).pc == 0x40000) = true := by decide +kernel
/-- The staged image is the one that dawn takes; a core goes over to a new one when it handles no trap. -/
theorem witness_DawnAndUpdate_images : let s : State := { base with staging := [1, 2] }
    base.imageOf dawning = dawning ∧ (s.imageOf dawning).digest = valueOf (sha3 [1, 2]) ∧
    (base.core 0).switches ((base.core 0).image + 1) = true ∧ ({ base.core 0 with sys := SMap.set 0 [] 0x402 (1 <<< 63) } : Core).switches ((base.core 0).image + 1) = false ∧
    ({ base.modCore 3 (fun k => k) with version := base.version + 1 } : State).switchTurn.isSome = true := by decide +kernel
theorem witness_HostPort : let s := { base with sessions := [(2, some { nonces := [7] })] }
    let d : Datagram := { session := 2, seq := 0, ack := 0, tagOk := true, req := .kick 9 0 }
    SMap.get none base.sessions 2 = none ∧ SMap.get none s.sessions 2 = some { nonces := [7] } ∧ (d.seq - (0 : BitVec 32)).toNat = 0 ∧
    ((64 : BitVec 32) - 0).toNat = 64 ∧ ((63 : BitVec 32) - 0).toNat < 64 ∧ okAnd (s.hostParts 0x40000 8192 0 false) (fun _ => true) = true ∧
    (match s.hostParts 0x40000 8193 0 false with | .error f => f.cause == 2 | .ok _ => false) = true ∧
    okAnd (s.hostParts 0x40000 64 0 true) (fun ps => (s.clash { agent := .ctx 0 .F 0, write := true, sync := false, spans := spansOf ps }).isNone) = true ∧
    nexts (exec (.datagramReceive { d with req := .write 0x40000 0 [8] }) s) (fun t => t.readKey 0 0x40000 1 == [8]) = true ∧
    nexts (exec (.datagramReceive { d with seq := 63 }) s) (fun t => (SMap.get none t.sessions 2).map (fun x => x.early.length) == some 1) = true ∧
    nexts (exec (.datagramReceive { d with tagOk := false }) s) (fun t => t.badTags == s.badTags + 1) = true ∧
    nexts (exec .restartRequest { base with phase := .recovery }) (fun t => t.phase == .reset) = true := by decide +kernel
/-- The answers and events of a session, at the edges of its window; a feature that it has not accepted. -/
theorem witness_HostPort_session : let d : Datagram := { session := 2, seq := 0, ack := 0, tagOk := true, req := .kick 9 0 }
    let o (n : Nat) : OutDatagram := { seq := BitVec.ofNat 32 n, ack := 0, sack := 0, out := .ack }
    let x : Session := { waiting := [.ack] }
    ({} : Session).lacks { d with size := 1501 } = true ∧ ({} : Session).lacks { d with size := 1500 } = false ∧
    ({ features := 2 } : Session).lacks { d with v6 := true } = false ∧
    (({ flying := [o 0, o 1, o 2, o 3] } : Session).taken 0 1).flying.map (·.seq) = [1, 3] ∧
    (Session.pump 1 x).flying.length = 1 ∧ (Session.pump 1 { x with flying := (List.range 64).map o }).flying.length = 64 ∧
    nexts (exec (.datagramReceive d) { base with sessions := [(2, some { early := [{ d with seq := 1 }] })] })
      (fun t => (SMap.get none t.sessions 2).map (·.nextSeq) == some 2) = true ∧
    nexts (exec (.hostOpen 2 7 0x7F) base) (fun t => t.features == 0x3F && (SMap.get none t.sessions 2).map (·.features) == some 0x3F) = true ∧
    nexts (exec (.hostOpen 3 7 1) { base with sessions := [(2, some {})] }) (fun t => t.features == base.features && (SMap.get none t.sessions 3).isSome) = true := by
  decide +kernel

/-! Decoding: words written out from the layouts of R63 to R79 and from the encoding table of each family -/

/-- WAIT and the TOK bits POPL, POPR, PUSHL, PUSHR from the highest (R63, R64). -/
def hd (w t : Nat) : Hdr :=
  { wait := BitVec.ofNat 4 w, popL := t.testBit 3, popR := t.testBit 2, pushL := t.testBit 1, pushR := t.testBit 0 }
/-- Every word decodes to its instruction. -/
def decodes (l : List (Nat × Instr)) : Bool := l.all (fun p => match decodeWord p.1 with | .ok i => i == p.2 | .error _ => false)

theorem test_decode_scalar :
    decodes [(0x18017D0040000000, .add (hd 1 8) 31 16 1), (0x24027D0040000000, .sub (hd 2 4) 31 16 1), (0x32037D0040000000, .mul (hd 3 2) 31 16 1),
      (0x41047D0040000000, .mulh (hd 4 1) 31 16 1), (0x55057D0040000000, .mulhn (hd 5 5) 31 16 1), (0x6A067D0040000000, .div (hd 6 10) 31 16 1),
      (0x7F077D0040000000, .divn (hd 7 15) 31 16 1), (0x80087D0040000000, .rem (hd 8 0) 31 16 1), (0x90097D0040000000, .remn (hd 9 0) 31 16 1),
      (0xA80A7D0040000000, .and (hd 10 8) 31 16 1), (0xB40B7D0040000000, .or (hd 11 4) 31 16 1), (0xC20C7D0040000000, .xor (hd 12 2) 31 16 1)] = true ∧
    decodes [(0xD10D7D0040000000, .andn (hd 13 1) 31 16 1), (0xE50E7D0040000000, .shl (hd 14 5) 31 16 1), (0xFA0F7D0040000000, .shr (hd 15 10) 31 16 1),
      (0x0F107D0040000000, .sar (hd 0 15) 31 16 1), (0x10117D0040000000, .rol (hd 1 0) 31 16 1), (0x20127D0040000000, .min (hd 2 0) 31 16 1),
      (0x38137D0040000000, .max (hd 3 8) 31 16 1), (0x44147D0040000000, .minn (hd 4 4) 31 16 1), (0x52157D0040000000, .maxn (hd 5 2) 31 16 1),
      (0x61167D0040000000, .seq (hd 6 1) 31 16 1), (0x75177D0040000000, .sne (hd 7 5) 31 16 1), (0x8A187D0040000000, .slt (hd 8 10) 31 16 1)] = true ∧
    decodes [(0x9F197D0040000000, .sltn (hd 9 15) 31 16 1), (0xA01A083149000000, .sel (hd 10 0) 2 3 5 9), (0xB01B083149000000, .madd (hd 11 0) 2 3 5 9),
      (0xC82C083000000000, .clz (hd 12 8) 2 3), (0xD42D083000000000, .ctz (hd 13 4) 2 3), (0xE22E083000000000, .popc (hd 14 2) 2 3)] = true := by decide +kernel
theorem test_decode_immediate :
    decodes [(0xF120791080000001, .addi (hd 15 1) 30 17 0x80000001), (0x0521791080000001, .andi (hd 0 5) 30 17 0x80000001), (0x1A22791080000001, .ori (hd 1 10) 30 17 0x80000001),
      (0x2F23791080000001, .xori (hd 2 15) 30 17 0x80000001), (0x3027791080000001, .slti (hd 3 0) 30 17 0x80000001), (0x4028791080000001, .sltni (hd 4 0) 30 17 0x80000001),
      (0x5829791080000001, .muli (hd 5 8) 30 17 0x80000001), (0x642B791080000001, .lih (hd 6 4) 30 17 0x80000001), (0x722A780080000001, .li (hd 7 2) 30 0x80000001),
      (0x812410500000003F, .shli (hd 8 1) 4 5 63), (0x952510500000003F, .shri (hd 9 5) 4 5 63), (0xAA2610500000003F, .sari (hd 10 10) 4 5 63)] = true ∧
    decodes [(0xBF2F105100000268, .bfx (hd 11 15) 4 5 true 40 9), (0xC02F105000000FC0, .bfx (hd 12 0) 4 5 false 0 63), (0xD030105000000268, .bfi (hd 13 0) 4 5 40 9)] = true := by decide +kernel
theorem test_decode_branches :
    decodes [(0xE8311C801D00FFF8, .lds (hd 14 8) .n16 5 7 8 0xFFF8), (0xF432008271007FF8, .sts (hd 15 4) .i64 1 8 9 0x7FF8), (0x0233001080FFFFFD, .bcc (hd 0 2) .eq 1 2 0xFFFFFD),
      (0x1133001084FFFFFD, .bcc (hd 1 1) .ne 1 2 0xFFFFFD), (0x2533001088FFFFFD, .bcc (hd 2 5) .lt 1 2 0xFFFFFD), (0x3A3300108CFFFFFD, .bcc (hd 3 10) .ge 1 2 0xFFFFFD),
      (0x4F33001090FFFFFD, .bcc (hd 4 15) .ltn 1 2 0xFFFFFD), (0x5033001094FFFFFD, .bcc (hd 5 0) .gen 1 2 0xFFFFFD), (0x6034000000FFFFFD, .j (hd 6 0) 0xFFFFFD),
      (0x78350C0000FFFFFD, .pbr (hd 7 8) 3 (.rel 0xFFFFFD)), (0x843509F004000007, .pbr (hd 8 4) 2 (.reg 31 7)), (0x9236003000000000, .br (hd 9 2) 3)] = true ∧
    decodes [(0xA137002000000000, .brl (hd 10 1) 2), (0xB53801F000000000, .jr (hd 11 5) 31)] = true := by decide +kernel
theorem test_decode_system :
    decodes [(0xCA39000000000000, .nop (hd 12 10)), (0xDF3A240000402000, .srd (hd 13 15) 9 0x402), (0xE03B009000004000, .swr (hd 14 0) 9 0x004),
      (0xF03C009000000000, .waitt (hd 15 0) 9), (0x083C009220000000, .waittP (hd 0 8) 9 8), (0x143D000000000000, .wfe (hd 1 4)),
      (0x223E000000000000, .sev (hd 2 2)), (0x313E009020000000, .sevRemote (hd 3 1) 9), (0x453F000000000000, .halt (hd 4 5))] = true := by decide +kernel
theorem test_decode_vector :
    decodes [(0x5A407D0040EA0000, .vadd (hd 5 10) 7 .bf16 (.mode .rne) false 31 16 1), (0x6F417D0040EA0600, .vsub (hd 6 15) 7 .bf16 (.mode .rtz) true 31 16 1), (0x70427D0040EA0800, .vmul (hd 7 0) 7 .bf16 (.mode .rdn) false 31 16 1),
      (0x80497D0040EA0E00, .vdiv (hd 8 0) 7 .bf16 (.mode .rup) true 31 16 1), (0x98437D00486C1200, .vfma (hd 9 8) 3 .f16 (.mode .rna) true 31 16 1 8), (0xA4447D00486C1600, .vfms (hd 10 4) 3 .f16 (.mode .rsto) true 31 16 1 8),
      (0xB2457D0040A80000, .vmin (hd 11 2) 5 .f32 31 16 1), (0xC1467D0040A80000, .vmax (hd 12 1) 5 .f32 31 16 1), (0xD5477D0000B20000, .vabs (hd 13 5) 5 .e2m1 31 16),
      (0xEA487D0000B20000, .vneg (hd 14 10) 5 .e2m1 31 16), (0xFF4A7D0000A81A00, .vsqrt (hd 15 15) 5 .f32 .ctl true 31 16), (0x004B7D0000A81A00, .vrcp (hd 0 0) 5 .f32 .ctl true 31 16)] = true ∧
    decodes [(0x104C7D0000A81A00, .vrsq (hd 1 0) 5 .f32 .ctl true 31 16), (0x284D7D0000A81A00, .vexp2 (hd 2 8) 5 .f32 .ctl true 31 16), (0x344E7D0000A81A00, .vlog2 (hd 3 4) 5 .f32 .ctl true 31 16),
      (0x42507D0040A40200, .viadd (hd 4 2) 5 .i16 true 31 16 1), (0x51517D0040A40200, .visub (hd 5 1) 5 .i16 true 31 16 1), (0x65527D0040A40200, .vimul (hd 6 5) 5 .i16 true 31 16 1),
      (0x7A567D0040A20000, .vshl (hd 7 10) 5 .n8 31 16 1), (0x8F577D0040A20000, .vshr (hd 8 15) 5 .n8 31 16 1), (0x90587D0040A20000, .vsar (hd 9 0) 5 .n8 31 16 1),
      (0xA0597D0040A20000, .vimin (hd 10 0) 5 .n8 31 16 1), (0xB85A7D0040A20000, .vimax (hd 11 8) 5 .n8 31 16 1), (0xC4537D0040B40000, .vand (hd 12 4) 5 .ds8 31 16 1)] = true ∧
    decodes [(0xD2547D0040B40000, .vor (hd 13 2) 5 .ds8 31 16 1), (0xE1557D0040B40000, .vxor (hd 14 1) 5 .ds8 31 16 1)] = true := by decide +kernel
theorem test_decode_masks :
    decodes [(0xF55B1D0040A80000, .vcmp (hd 15 5) 5 .f32 .eq 7 16 1), (0x0A5B1D0040A80001, .vcmp (hd 0 10) 5 .f32 .ne 7 16 1), (0x1F5B1D0040A80002, .vcmp (hd 1 15) 5 .f32 .lt 7 16 1),
      (0x205B1D0040A80003, .vcmp (hd 2 0) 5 .f32 .le 7 16 1), (0x305B1D0040A80004, .vcmp (hd 3 0) 5 .f32 .gt 7 16 1), (0x485B1D0040A80005, .vcmp (hd 4 8) 5 .f32 .ge 7 16 1),
      (0x545B1D0040A80006, .vcmp (hd 5 4) 5 .f32 .un 7 16 1), (0x625B1D0040A80007, .vcmp (hd 6 2) 5 .f32 .or 7 16 1), (0x715C7D0040B20000, .vsel (hd 7 1) 5 .e2m1 31 16 1),
      (0x855D1C6040000000, .kop (hd 8 5) 7 (.and 6 1)), (0x9A5D1C6040000001, .kop (hd 9 10) 7 (.or 6 1)), (0xAF5D1C6040000002, .kop (hd 10 15) 7 (.xor 6 1))] = true ∧
    decodes [(0xB05D1C6040000003, .kop (hd 11 0) 7 (.andn 6 1)), (0xC05D1C6000000004, .kop (hd 12 0) 7 (.not 6)), (0xD85D1C6000000005, .kop (hd 13 8) 7 (.mov 6)),
      (0xE45D1C0000000006, .kop (hd 14 4) 7 .ones), (0xF25D1C0000000007, .kop (hd 15 2) 7 .zero), (0x015E7C6000120000, .kpop (hd 0 1) .e2m1 31 6),
      (0x155F7C6000060000, .kfirst (hd 1 5) .i32 31 6)] = true := by decide +kernel
theorem test_decode_moves :
    decodes [(0x2A607D00004E0000, .vmov (hd 2 10) 2 .e4m3 31 16), (0x3F617D0000500000, .vbcast (hd 3 15) 2 .e5m2 31 16), (0x40627D0000420000, .viota (hd 4 0) 2 .n8 31 16),
      (0x50637D0240480000, .vperm (hd 5 0) 2 .f32 31 16 (.idx 9)), (0x68637D0240480001, .vperm (hd 6 8) 2 .f32 31 16 (.rot 9)), (0x74637D0000480002, .vperm (hd 7 4) 2 .f32 31 16 .rev),
      (0x82637D0240480003, .vperm (hd 8 2) 2 .f32 31 16 (.ziplo 9)), (0x91637D0240480004, .vperm (hd 9 1) 2 .f32 31 16 (.ziphi 9)), (0xA5637D0240480005, .vperm (hd 10 5) 2 .f32 31 16 (.even 9)),
      (0xBA637D0240480006, .vperm (hd 11 10) 2 .f32 31 16 (.odd 9)), (0xCF647D0240040000, .vext (hd 12 15) .i16 31 16 9), (0xD0657D0240080000, .vins (hd 13 0) .f32 31 16 9)] = true ∧
    decodes [(0xE0667D0000540400, .vredsum (hd 14 0) 2 .ds8 (.mode .rtz) 31 16), (0xF8677D0000460000, .vredmax (hd 15 8) 2 .i32 31 16), (0x04687D0000460000, .vredmin (hd 0 4) 2 .i32 31 16),
      (0x12697D000048F700, .vcvt (hd 1 2) 2 .f32 .e4m3 (.mode .rsto) true true 31 16), (0x216A7D00004B4900, .vquant (hd 2 1) 2 .bf16 .ds8 (.mode .rdn) false true 31 16), (0x356B7D000050CE00, .vdeq (hd 3 5) 2 .e5m2 .f16 (.mode .rup) true 31 16),
      (0x4A6C7D0240492200, .vscale (hd 4 10) 2 .f32 .e2m1 (.mode .rne) true false 31 16 9), (0x5F6D7D0248480000, .vcell (hd 5 15) 2 31 16 9 8), (0x606E7D0248460020, .vhash3 (hd 6 0) 2 32 31 16 9 8),
      (0x706F7D0240460002, .vmorton (hd 7 0) 2 31 16 9 .c2), (0x886F7D0248460003, .vmorton (hd 8 8) 2 31 16 9 (.c3 8))] = true := by decide +kernel
theorem test_decode_rows :
    decodes [(0x94707D0004038000, .vld (hd 9 4) 3 4 31 16 0x8000), (0xA2710107C4037FFF, .vst (hd 10 2) 3 4 16 31 0x7FFF), (0xB1727D007C030008, .vldx (hd 11 1) 3 .n64 4 31 16 1 8),
      (0xC5737D0044030008, .vstx (hd 12 5) 3 .i8 4 31 16 1 8), (0xDA781D0044008000, .tld (hd 13 10) 4 7 16 1 0x8000), (0xEF791D0044008000, .tst (hd 14 15) 4 7 16 1 0x8000),
      (0xF07A1C0000000000, .tzero (hd 15 0) 7), (0x007B1C6000000000, .tmov (hd 0 0) 7 6), (0x187C1C6000000000, .ttrans (hd 1 8) 7 6)] = true := by decide +kernel
theorem test_decode_parallel :
    decodes [(0x24801461C0000000, .tnext (hd 2 4) 5 6 7), (0x32807C0020000000, .tnextIdx (hd 3 2) 31), (0x4181000000000000, .tdone (hd 4 1) .core),
      (0x5581000001000000, .tdone (hd 5 5) .quire), (0x6A81000002000000, .tdone (hd 6 10) .vol), (0x7F81000003000000, .tdone (hd 7 15) .pkg),
      (0x8081000004000000, .tdone (hd 8 0) .pod), (0x90827C0000000003, .toks (hd 9 0) 31 3), (0xA88301F000000002, .tokx (hd 10 8) 31 2),
      (0xB4847D00006C0007, .spush (hd 11 4) 3 .f16 7 31 16), (0xC2857C60006C0005, .spop (hd 12 2) 3 .f16 5 31 6), (0xD1867D0000000007, .sflush (hd 13 1) 7 31 16)] = true ∧
    decodes [(0xE587000000000006, .sreset (hd 14 5) 6), (0xFA88010240660000, .lqpush (hd 15 10) 3 .i32 16 9), (0x0F897C6000660000, .lqpop (hd 0 15) 3 .i32 31 6),
      (0x108A1C0000060000, .lqstat (hd 1 0) .i32 7), (0x208B000004000000, .bar (hd 2 0) .pod), (0x388C01F000000000, .stgput (hd 3 8) 31),
      (0x448D7D0000000000, .stgget (hd 4 4) 31 16), (0x528E000000000FFF, .safe (hd 5 2) 0xFFF), (0x618F7D0000000000, .launch (hd 6 1) 31 16)] = true := by decide +kernel
theorem test_decode_global :
    decodes [(0x75A07D0008000008, .ldg (hd 7 5) .n8 none 31 16 8), (0x8AA07D0020600008, .ldg (hd 8 10) .i32 (some .pod) 31 16 8), (0x9FA1010268000008, .stg (hd 9 15) .n32 none 16 9 8),
      (0xA0A1010250800008, .stg (hd 10 0) .i16 (some .core) 16 9 8), (0xB0A27D0000530040, .vldg (hd 11 0) 3 (some .vol) 31 16 64), (0xC8A30107C09B0040, .vstg (hd 12 8) 3 (some .pkg) 16 31 64),
      (0xD4A47D026000FFF8, .aadd (hd 13 4) .i32 .rlx 31 16 9 0xFFF8), (0xE2AC7D026848FFF8, .aand (hd 14 2) .n32 (.acq .quire) 31 16 9 0xFFF8), (0xF1AD7D027090FFF8, .aor (hd 15 1) .i64 (.rel .vol) 31 16 9 0xFFF8),
      (0x05AE7D0278D8FFF8, .axor (hd 0 5) .n64 (.ar .pkg) 31 16 9 0xFFF8), (0x1AAF7D0260E0FFF8, .aswp (hd 1 10) .i32 (.ar .pod) 31 16 9 0xFFF8), (0x2FB07D027800FFF8, .acas (hd 2 15) .n64 .rlx 31 16 9 0xFFF8)] = true ∧
    decodes [(0x30A67D026048FFF8, .amin (hd 3 0) .i32 (.acq .quire) 31 16 9 0xFFF8), (0x40A77D027090FFF8, .amax (hd 4 0) .i64 (.rel .vol) 31 16 9 0xFFF8), (0x58A87D0268D8FFF8, .aminn (hd 5 8) .n32 (.ar .pkg) 31 16 9 0xFFF8),
      (0x64A97D0278E0FFF8, .amaxn (hd 6 4) .n64 (.ar .pod) 31 16 9 0xFFF8), (0x72A57D0250480004, .afadd (hd 7 2) .bf16 (.acq .quire) 31 16 9 4), (0x81AA7D0258900004, .afmin (hd 8 1) .f16 (.rel .vol) 31 16 9 4),
      (0x95AB7D0260D80004, .afmax (hd 9 5) .f32 (.ar .pkg) 31 16 9 4), (0xAAB17D0268480004, .abadd (hd 10 10) (.acq .quire) 31 16 9 4), (0xBFB2010260000004, .red (hd 11 15) .add .i32 16 9 4),
      (0xC0B2050250000004, .red (hd 12 0) .fadd .i16 16 9 4), (0xD0B2090270000004, .red (hd 13 0) .min .i64 16 9 4), (0xE8B20D0260000004, .red (hd 14 8) .max .i32 16 9 4)] = true ∧
    decodes [(0xF4B2110278000004, .red (hd 15 4) .minn .n64 16 9 4), (0x02B2150268000004, .red (hd 0 2) .maxn .n32 16 9 4), (0x11B2190258000004, .red (hd 1 1) .fmin .n16 16 9 4),
      (0x25B21D0260000004, .red (hd 2 5) .fmax .i32 16 9 4), (0x3AB2210268000004, .red (hd 3 10) .and .n32 16 9 4), (0x4FB2250270000004, .red (hd 4 15) .or .i64 16 9 4),
      (0x50B2290278000004, .red (hd 5 0) .xor .n64 16 9 4), (0x60B30D02601000FF, .redc (hd 6 0) .max .i32 false .vol 16 9 255 0), (0x78B3290271200507, .redc (hd 7 8) .xor .i64 true .pod 16 9 7 5),
      (0x84B400000A000000, .fence (hd 8 4) .vol .acq), (0x92B4000013000000, .fence (hd 9 2) .pkg .rel), (0xA1B400001C000000, .fence (hd 10 1) .pod .ar)] = true ∧
    decodes [(0xB5B5000000000010, .xfence (hd 11 5) .core .mtx), (0xCAB5000000000019, .xfence (hd 12 10) .copy .gath), (0xDFB5000000000022, .xfence (hd 13 15) .mtx .coll),
      (0xE0B5000000000003, .xfence (hd 14 0) .gath .core), (0xF0B500000000000C, .xfence (hd 15 0) .coll .copy), (0x08B6010000000040, .pref (hd 0 8) 16 64),
      (0x14B7010000000040, .cflush (hd 1 4) 16 64), (0x22B8010000000040, .cinv (hd 2 2) 16 64), (0x31B97D0278580008, .waitv (hd 3 1) .n64 (some .pkg) 31 16 9 8),
      (0x45B97D0240000008, .waitv (hd 4 5) .i8 none 31 16 9 8)] = true := by decide +kernel
theorem test_decode_engines :
    decodes [(0x5AC17C0000000001, .eseq (hd 5 10) 31 .copy), (0x6FC17C0000000002, .eseq (hd 6 15) 31 .mtx), (0x70C17C000000000A, .eseq (hd 7 0) 31 .mq1),
      (0x80C17C0000000003, .eseq (hd 8 0) 31 .gath), (0x98C17C0000000004, .eseq (hd 9 8) 31 .coll), (0xA4C07D0003000004, .enq (hd 10 4) .pkg 31 16 .coll),
      (0xB2C07D000100000A, .enq (hd 11 2) .quire 31 16 .mq1), (0xC1C27D0000000002, .waitseq (hd 12 1) 31 16 .mtx), (0xD5C37D0000000001, .prom (hd 13 5) 31 16),
      (0xEAC47D0000000003, .ecancel (hd 14 10) 31 16 .gath), (0xFFC87D0000000000, .notice (hd 15 15) 31 16), (0x00C97D0000000000, .decline (hd 0 0) 31 16)] = true ∧
    decodes [(0x10CB7D0000000000, .nrecv (hd 1 0) 31 16), (0x28D07D0000000000, .tready (hd 2 8) 31 16), (0x34D17D0000000000, .cstat (hd 3 4) 31 16),
      (0x42D27D0000000000, .cabort (hd 4 2) 31 16), (0x51CA010000000000, .pullrel (hd 5 1) 16), (0x65D17D0260000000, .cstatBm (hd 6 5) 31 16 9),
      (0x7AE0000000000FFF, .trap (hd 7 10) 0xFFF), (0x8FE1000000000000, .eret (hd 8 15)), (0x90E1000020000000, .eretReclaim (hd 9 0)),
      (0xA0E27D0000000800, .fwcall (hd 10 0) 31 16 0x800), (0xB8E3010000000000, .ctxsave (hd 11 8) 16), (0xC4E3010000000001, .ctxsaveFull (hd 12 4) 16)] = true ∧
    decodes [(0xD2E4010000000000, .ctxload (hd 13 2) 16), (0xE1E5010240000000, .tlbinvPage (hd 14 1) 16 9), (0xF5E5000240000001, .tlbinvAsid (hd 15 5) 9),
      (0x0AE5000000000002, .tlbinvAll (hd 0 10)), (0x1FE6010240000000, .keyload (hd 1 15) 16 9), (0x20E6010000000001, .keyloadClr (hd 2 0) 16)] = true := by decide +kernel
theorem test_decode_engine_words : ([
    (0x0005, (.ewLit 5)), (0x7FFF, (.ewLit 0x7FFF)), (0x8000, (.ewExt 0)), (0xBFFF, (.ewExt 0x3FFF)), (0xC000, .ewDup), (0xC001, .ewDrop),
    (0xC002, .ewSwap), (0xC003, .ewOver), (0xC004, .ewAdd), (0xC005, .ewSub), (0xC006, .ewShl), (0xC010, .ewElem),
    (0xC011, .ewSwz), (0xC021, .ewDim1), (0xC022, .ewDim2), (0xC030, .ewPrio), (0xC031, .ewStamp), (0xC032, .ewGate),
    (0xC033, .ewSeqat), (0xD000, .ewCopyGs), (0xD001, .ewCopySg), (0xD002, .ewCopyGg), (0xD003, .ewCopySs), (0xD010, .ewCopytLd),
    (0xD011, .ewCopytSt), (0xD020, .ewCopyxG), (0xD021, .ewCopyxS), (0xD030, .ewFillG), (0xD031, .ewFillS), (0xD040, .ewTmma),
    (0xD050, .ewCredL), (0xD051, .ewCredP), (0xD060, .ewNote), (0xD070, .ewPullS), (0xD071, .ewPullG), (0xD080, .ewDecl),
    (0xE000, .ewEnd), (0xE001, .ewAddr)] : List (Nat × Instr)).all (fun p =>
      decodeEngine p.1 == some p.2) = true := by decide +kernel
theorem test_decode_refuses : ([0xC007, 0xC012, 0xC023, 0xC034, 0xD004, 0xD012, 0xD022, 0xD032, 0xD041, 0xD052, 0xD061, 0xD072, 0xD081, 0xE002, 0xFFFF].all
      (fun w => decodeEngine w == none)) = true ∧
    -- a reserved bit, a register field out of its class, and codes that no table lists
    ([0x0001080000000001, 0x0001800000000000, 0x0033000018000000, 0x0040000000101C00, 0x00B400000D000000, 0x00B5000000000009, 0x00E5000000000003,
      0x00C0000000000009, 0x003A000000600000].all (fun w => match decodeWord w with | .error _ => true | .ok _ => false)) = true := by decide +kernel

/-! An ill-formed term for each check of `Instr.wf`, beside a well-formed one where the check has a bound -/

theorem test_wf_scalar : [Instr.bfx h0 3 4 true 2 62, .bfi h0 3 4 63 1, .srd h0 3 0x600, .swr h0 3 0x010, .swr h0 3 0x600].all (fun i => !i.wf) = true ∧
    [Instr.bfx h0 3 4 true 2 61, .bfi h0 3 4 63 0, .srd h0 3 0x010].all (fun i => i.wf) = true := by decide +kernel
theorem test_wf_float : [Instr.vadd h0 0 .i32 .ctl false 1 2 3, .vsub h0 0 .e4m3 .ctl false 1 2 3, .vmul h0 0 .n8 .ctl false 1 2 3,
    .vfma h0 0 .ds8 .ctl false 1 2 3 4, .vfms h0 0 .e2m1 .ctl false 1 2 3 4, .vmin h0 0 .i8 1 2 3, .vmax h0 0 .e5m2 1 2 3, .vabs h0 0 .ds8 1 2,
    .vneg h0 0 .i16 1 2, .vdiv h0 0 .i32 .ctl false 1 2 3, .vsqrt h0 0 .i32 .ctl false 1 2, .vrcp h0 0 .e4m3 .ctl false 1 2,
    .vrsq h0 0 .i32 .ctl false 1 2, .vexp2 h0 0 .ds8 .ctl false 1 2, .vlog2 h0 0 .i32 .ctl false 1 2].all (fun i => !i.wf) = true := by decide +kernel
theorem test_wf_integer : [Instr.viadd h0 0 .f32 false 1 2 3, .visub h0 0 .bf16 false 1 2 3, .vimul h0 0 .ds8 false 1 2 3, .vshl h0 0 .f32 1 2 3,
    .vshr h0 0 .f16 1 2 3, .vsar h0 0 .e4m3 1 2 3, .vimin h0 0 .f32 1 2 3, .vimax h0 0 .e2m1 1 2 3, .vcmp h0 0 .e2m1 .eq 1 2 3, .vcmp h0 0 .f32 .eq 0 2 3,
    .vcmp h0 0 .i32 .un 1 2 3, .kop h0 0 .ones].all (fun i => !i.wf) = true := by decide +kernel
theorem test_wf_moves : [Instr.vbcast h0 0 .e2m1 1 2, .viota h0 0 .f32 1 2, .vperm h0 0 .e2m1 1 2 .rev, .vext h0 .e2m1 1 2 3, .vins h0 .e2m1 1 2 3,
    .vredsum h0 0 .i32 .ctl 1 2, .vcvt h0 0 .f32 .f32 .ctl false false 1 2, .vcvt h0 0 .i8 .f32 .ctl false true 1 2,
    .vquant h0 0 .i32 .e4m3 .ctl false false 1 2, .vdeq h0 0 .f32 .e4m3 .ctl false 1 2, .vscale h0 0 .f32 .f16 .ctl false false 1 2 3,
    .vhash3 h0 0 0 1 2 3 4, .vhash3 h0 0 33 1 2 3 4].all (fun i => !i.wf) = true ∧ (Instr.vhash3 h0 0 32 1 2 3 4).wf = true := by decide +kernel
theorem test_wf_parallel : [Instr.tnext h0 0 1 2, .tnext h0 1 0 2, .tnext h0 1 2 0, .tnext h0 1 1 2, .tnext h0 1 2 1, .tnext h0 1 2 2, .spush h0 0 .e2m1 1 1 1,
    .spop h0 0 .e2m1 1 1 1, .spop h0 0 .i32 1 1 0, .lqpush h0 0 .f32 1 2, .lqpop h0 0 .i8 1 1, .lqpop h0 0 .i32 1 0, .lqstat h0 .f32 1,
    .lqstat h0 .i32 0].all (fun i => !i.wf) = true := by decide +kernel
theorem test_wf_global : [Instr.aadd h0 .i16 .rlx 1 2 3 0, .aand h0 .n8 .rlx 1 2 3 0, .aor h0 .i8 .rlx 1 2 3 0, .axor h0 .n16 .rlx 1 2 3 0,
    .aswp h0 .i8 .rlx 1 2 3 0, .acas h0 .i16 .rlx 1 2 3 0, .amin h0 .n32 .rlx 1 2 3 0, .amax h0 .n64 .rlx 1 2 3 0, .aminn h0 .i32 .rlx 1 2 3 0,
    .amaxn h0 .i64 .rlx 1 2 3 0, .red h0 .min .n32 1 2 0, .redc h0 .fadd .i64 false .core 1 2 0 0, .redc h0 .add .i64 false .core 1 2 3 1,
    .redc h0 .add .i64 true .core 1 2 3 4, .xfence h0 .copy .copy, .enq h0 .vol 1 2 .coll, .illop 0x0001000000000000].all (fun i => !i.wf) = true ∧
    [Instr.redc h0 .add .i64 true .core 1 2 3 3, .enq h0 .pkg 1 2 .coll, .illop 0].all (fun i => i.wf) = true := by decide +kernel
theorem test_wf_steps : [Instr.nopPacket 4 0, .launchPacket 0 16, .collPacket 4 0, .fencePacket 0 16, .signalPacket 4 0, .timedPacket 0 16, .fenceResume 4 0,
    .timedResume 0 16, .signalWrite 4 0, .queueScan 4, .dispatchPop 40, .formatWindowWrite 8 0 0 0, .formatWindowWrite 0 32 0 0, .formatWindowWrite 0 0 4 0,
    .redcLand 0 .add .i64 true .core 0 0 0, .redcLand 0 .add .i64 true .core 2 2 0, .redcLand 0 .min .n64 true .core 2 1 0, .flitReceive 16 (aFlit none),
    .flitResend 16 true true, .linkDown 16, .laneSpare 16, .linkUp 16 0, .hostRead 0 8193 0, .hostRead 0 8 8192, .hostWrite 0 8192 [],
    .spinesArrival 4 0].all (fun i => !i.wf) = true := by decide +kernel
theorem test_wf_steps_more : [Instr.collCombine 4 0 0, .collCombine 0 4096 0, .collCombine 0 0 256, .collBroadcastPull 0 0 256, .collRecompute 0 4096, .collResume 4 0,
    .collAbort 0 0 0, .collAbort 0 0 6, .moduleInsert 64 (List.replicate 16 0), .moduleInsert 0 [], .moduleRemove 64, .throttle 4 0, .throttle 0 13,
    .arrayError (.sram 320 0) true, .scrub (.sram 320 0)].all (fun i => !i.wf) = true ∧
    [Instr.collAbort 3 4095 5, .throttle 3 12, .arrayError (.sram 319 0) true, .dispatchPop 39].all (fun i => i.wf) = true := by decide +kernel

end Sys2Proof.Tests
end

section
/-! SUPPORT. Reset values, the swizzle, and results that land later. -/
namespace Sys2Proof.Machine

/-! Reset (R15, R19) -/

/-- A register at reset holds the reset value of its table; the registers of a context or a die have none listed. -/
theorem State.sysAt_reset (c : Nat) (r : Role) (n : Nat) : State.reset.sysAt c r n =
    (match sysHome n with | .core => SMap.get 0 coreSysReset n | .pkg => SMap.get 0 pkgSysReset n | _ => 0) := by
  unfold State.sysAt
  cases sysHome n <;> cases r <;> rfl

/-! The swizzle (R32) -/

/-- The bits of `a`, `b` and `c` side by side. -/
theorem testBit_fields {a b c m n : Nat} (hb : b < 2 ^ m) (hc : c < 2 ^ n) (i : Nat) :
    (2 ^ (n + m) * a + (2 ^ n * b + c)).testBit i =
      if i < n then c.testBit i else if i < n + m then b.testBit (i - n) else a.testBit (i - (n + m)) := by
  have hbc : 2 ^ n * b + c < 2 ^ (n + m) := by
    rw [Nat.pow_add]
    calc 2 ^ n * b + c < 2 ^ n * b + 2 ^ n := by omega
      _ = 2 ^ n * (b + 1) := by rw [Nat.mul_add, Nat.mul_one]
      _ ≤ 2 ^ n * 2 ^ m := Nat.mul_le_mul_left _ hb
  rw [Nat.testBit_two_pow_mul_add _ hbc, Nat.testBit_two_pow_mul_add _ hc]
  by_cases h : i < n
  · have hnm : i < n + m := by omega
    simp only [if_pos h, if_pos hnm]
  · simp only [if_neg h]

/-- The chunk number that the swizzle gives within a row. -/
def swizzledChunk (swz : BitVec 3) (e : Nat) : Nat := (e / 32 % 64) ^^^ (e / 2 ^ (10 + swz.toNat) % 64)

theorem swizzledChunk_lt (swz : BitVec 3) (e : Nat) : swizzledChunk swz e < 2 ^ 6 :=
  Nat.xor_lt_two_pow (Nat.mod_lt _ (by decide)) (Nat.mod_lt _ (by decide))

theorem swizzle_zero (e : Nat) : swizzle 0 e = e := rfl

/-- The swizzle keeps the row and the byte within the chunk. -/
theorem swizzle_fields {swz : BitVec 3} (h : swz ≠ 0) (e : Nat) :
    swizzle swz e = 2 ^ (5 + 6) * (e / 2 ^ 11) + (2 ^ 5 * swizzledChunk swz e + e % 2 ^ 5) := by
  unfold swizzle swizzledChunk
  rw [if_neg h]
  generalize (e / 32 % 64 ^^^ e / 2 ^ (10 + swz.toNat) % 64) = x
  omega

/-- The swizzle bit by bit (R32). -/
theorem testBit_swizzle (swz : BitVec 3) (e i : Nat) : (swizzle swz e).testBit i =
    if swz ≠ 0 ∧ 5 ≤ i ∧ i ≤ 10 then (e.testBit i != e.testBit (i + 5 + swz.toNat)) else e.testBit i := by
  by_cases h : swz = 0
  · subst h; rw [if_neg (fun hc => hc.1 rfl)]; rfl
  · rw [swizzle_fields h, testBit_fields (swizzledChunk_lt swz e) (Nat.mod_lt _ (by decide))]
    rcases Nat.lt_or_ge i 5 with h5 | h5
    · rw [if_pos h5, if_neg (by omega), Nat.testBit_mod_two_pow, decide_eq_true h5, Bool.true_and]
    · rw [if_neg (by omega)]
      rcases Nat.lt_or_ge i 11 with h11 | h11
      · have e32 : e / 32 = e / 2 ^ 5 := rfl
        have e64 : ∀ x, x % 64 = x % 2 ^ 6 := fun _ => rfl
        rw [if_pos h11, if_pos ⟨h, h5, by omega⟩]
        unfold swizzledChunk
        rw [Nat.testBit_xor, e32, e64 (e / 2 ^ 5), e64 (e / 2 ^ (10 + swz.toNat)), Nat.testBit_mod_two_pow, Nat.testBit_mod_two_pow, Nat.testBit_div_two_pow,
          Nat.testBit_div_two_pow, decide_eq_true (show i - 5 < 6 by omega), Bool.true_and, Bool.true_and,
          show i - 5 + 5 = i by omega, show i - 5 + (10 + swz.toNat) = i + 5 + swz.toNat by omega]
      · rw [if_neg (by omega), if_neg (by omega), Nat.testBit_div_two_pow, show i - (5 + 6) + 11 = i by omega]

/-- The bits above a row decide what the chunk bits are combined with, so the swizzle loses nothing. -/
theorem swizzle_injective {swz : BitVec 3} {e f : Nat} (h : swizzle swz e = swizzle swz f) : e = f := by
  have hbit (i : Nat) : (swizzle swz e).testBit i = (swizzle swz f).testBit i := by rw [h]
  simp only [testBit_swizzle] at hbit
  by_cases h0 : swz = 0
  · exact Nat.eq_of_testBit_eq (fun i => by simpa [h0] using hbit i)
  · have hpos : 1 ≤ swz.toNat := by bv_omega
    have high (i : Nat) (hi : 10 < i) : e.testBit i = f.testBit i := by
      have := hbit i
      rwa [if_neg (by omega), if_neg (by omega)] at this
    refine Nat.eq_of_testBit_eq (fun i => ?_)
    by_cases hm : 5 ≤ i ∧ i ≤ 10
    · have := hbit i
      rw [if_pos ⟨h0, hm⟩, if_pos ⟨h0, hm⟩, high (i + 5 + swz.toNat) (by omega)] at this
      exact Bool.bne_left_inj.1 this
    · have := hbit i
      rwa [if_neg (fun hc => hm hc.2), if_neg (fun hc => hm hc.2)] at this

/-- Bytes of one chunk move together. -/
theorem swizzle_add {swz : BitVec 3} {e j : Nat} (h : e % 32 + j < 32) : swizzle swz (e + j) = swizzle swz e + j := by
  by_cases h0 : swz = 0
  · subst h0; rfl
  · have hc : swizzledChunk swz (e + j) = swizzledChunk swz e := by
      have hd (m : Nat) : (e + j) / 2 ^ (5 + m) = e / 2 ^ (5 + m) := by
        rw [Nat.pow_add, ← Nat.div_div_eq_div_mul, ← Nat.div_div_eq_div_mul, show (e + j) / 2 ^ 5 = e / 2 ^ 5 by omega]
      unfold swizzledChunk
      rw [show (10 + swz.toNat) = 5 + (5 + swz.toNat) by omega, hd, show (e + j) / 32 = e / 32 by omega]
    rw [swizzle_fields h0, swizzle_fields h0, hc]
    omega

/-- The swizzle permutes the chunks of a row. -/
theorem swizzle_chunk (swz : BitVec 3) {e j : Nat} (he : e % 2048 = 0) (hj : j < 64) :
    swizzle swz (e + 32 * j) / 32 % 64 = if swz = 0 then j else Nat.xor j (e / 2 ^ (10 + swz.toNat) % 64) := by
  by_cases h0 : swz = 0
  · subst h0; rw [if_pos rfl, swizzle_zero]; omega
  · have hpos : 1 ≤ swz.toNat := by bv_omega
    have hhigh : (e + 32 * j) / 2 ^ (10 + swz.toNat) = e / 2 ^ (10 + swz.toNat) := by
      rw [show 10 + swz.toNat = 11 + (swz.toNat - 1) by omega, Nat.pow_add, ← Nat.div_div_eq_div_mul, ← Nat.div_div_eq_div_mul,
        show (e + 32 * j) / 2 ^ 11 = e / 2 ^ 11 by omega]
    have hchunk : swizzledChunk swz (e + 32 * j) = Nat.xor j (e / 2 ^ (10 + swz.toNat) % 64) := by
      unfold swizzledChunk
      rw [hhigh, show (e + 32 * j) / 32 % 64 = j by omega]
      rfl
    have hlt := swizzledChunk_lt swz (e + 32 * j)
    rw [if_neg h0, swizzle_fields h0, ← hchunk]
    omega

end Sys2Proof.Machine

namespace Sys2Proof.Settled
open Sys2Proof.Machine

/-- Settles O1: every register reads its entry of the reset tables. -/
theorem resetState : Obligations.ResetState := by
  unfold Obligations.ResetState
  simp only [State.sysAt_reset]
  refine ⟨⟨fun _ _ => by decide, fun _ _ n hl hu => ?_, fun _ _ => by decide, fun _ _ => by decide, fun _ _ => by decide,
    fun _ _ => by decide, fun _ _ => by decide, fun _ _ => by decide, fun _ _ => by decide, fun _ _ => by decide, fun _ _ => by decide⟩,
    by decide⟩
  obtain rfl | rfl | rfl | rfl | rfl | rfl | rfl | rfl : n = 8 ∨ n = 9 ∨ n = 10 ∨ n = 11 ∨ n = 12 ∨ n = 13 ∨ n = 14 ∨ n = 15 := by omega
  all_goals decide

/-- Settles O10, from the swizzle's bits and from its three fields: row, chunk and byte. -/
theorem swizzle : Obligations.Swizzle :=
  ⟨testBit_swizzle, fun _ _ _ => swizzle_injective, fun _ _ _ => swizzle_add, fun swz _ _ => swizzle_chunk swz, by decide⟩

end Sys2Proof.Settled
end

section
/-! SUPPORT. Results that land later: what landing leaves of the results under way, and what a reader of a scalar register sees (R26, R27). -/
namespace Sys2Proof.Machine

@[simp] theorem Core.setK_pend (k : Core) (n : KReg) (v : Mask) : (k.setK n v).pend = k.pend := by
  unfold Core.setK; split <;> rfl

@[simp] theorem Core.setK_ctx (k : Core) (n : KReg) (v : Mask) (r : Role) : (k.setK n v).ctx r = k.ctx r := by
  unfold Core.setK; split <;> cases r <;> rfl

/-- Landing a result leaves the results under way. -/
@[simp] theorem Core.landOne_pend (k : Core) (e : Pend) : (k.landOne e).pend = k.pend := by
  unfold Core.landOne
  cases e.target with
  | g r n => exact Core.setCtx_pend ..
  | k n => exact Core.setK_pend ..
  | _ => rfl

theorem Core.foldl_landOne_pend (es : List Pend) (k : Core) : (es.foldl Core.landOne k).pend = k.pend := by
  induction es generalizing k with
  | nil => rfl
  | cons e es ih => rw [List.foldl_cons, ih, Core.landOne_pend]

/-! What stays under way (R27) -/

/-- The results that stay under way when those that `due` names land: the others, without those that a younger landing result for the same
register overtakes. -/
def stays (due : Pend → Bool) : List Pend → List Pend
  | [] => []
  | e :: es =>
    if due e then stays due es
    else if !e.target.merges && es.any (fun y => due y && sameReg e.target y.target) then stays due es
    else e :: stays due es

/-- The walk of `Core.landIf` over the results, youngest first: what stays, and the targets of those that land. -/
theorem landIf_walk (due : Pend → Bool) (es : List Pend) :
    es.reverse.foldl (fun (acc : List Pend × List Target) e =>
      if due e then (acc.1, e.target :: acc.2)
      else if shadowed acc.2 e.target then acc
      else (e :: acc.1, acc.2)) ([], []) = (stays due es, (es.filter due).map Pend.target) := by
  rw [List.foldl_reverse]
  induction es with
  | nil => rfl
  | cons e es ih =>
    have hshadow : shadowed ((es.filter due).map Pend.target) e.target =
        (!e.target.merges && es.any (fun y => due y && sameReg e.target y.target)) := by
      unfold shadowed
      rw [List.any_map, List.any_filter]
      rfl
    rw [List.foldr_cons, ih]
    dsimp only
    rw [hshadow, stays, List.filter_cons]
    cases due e
    · simp only [Bool.false_eq_true, if_false]
      split <;> rfl
    · rfl

theorem Core.landIf_pend (k : Core) (due : Pend → Bool) : (k.landIf due).pend = stays due k.pend := by
  unfold Core.landIf
  rw [Core.foldl_landOne_pend]
  exact congrArg Prod.fst (landIf_walk due k.pend)

/-- A result is ready by cycle `u`. -/
def Pend.dueBy (u : Nat) (e : Pend) : Bool := match e.ready with | some t => decide (t ≤ u) | none => false

/-- Landing by a cycle, also where nothing is under way. -/
theorem Core.landBy_eq (k : Core) (u : Nat) : k.landBy u = k.landIf (Pend.dueBy u) := by
  unfold Core.landBy
  split
  · next h => unfold Core.landIf; rw [List.isEmpty_iff.1 h]; cases k; simp_all [notOvertaken]
  · rfl

theorem Core.landBy_pend (k : Core) (u : Nat) : (k.landBy u).pend = stays (Pend.dueBy u) k.pend := by
  rw [Core.landBy_eq, Core.landIf_pend]

/-- One register for R27: the same target, or a tile row and its scale containers (R124). -/
theorem sameReg_eq (a b : Target) :
    sameReg a b = (decide (a = b) || (match a, b with | .row i, .side j => i == j | .side i, .row j => i == j | _, _ => false)) := by
  have hbeq (x y : Target) : (x == y) = decide (x = y) := rfl
  cases a <;> cases b <;> simp [sameReg, hbeq]

/-! What a reader sees (R26) -/

/-- A result for scalar register `n` of context `r`. -/
def Pend.names (r : Role) (n : GReg) (e : Pend) : Bool :=
  match e.target with | .g q m => q == r && BitVec.ofNat 5 m == n | _ => false

/-- The value of the youngest result, else the old one. -/
def youngest (old : Word) (es : List Pend) : Word :=
  match es.getLast? with | some e => BitVec.ofNat 64 e.value | none => old

theorem youngest_cons (old : Word) (e : Pend) (es : List Pend) : youngest old (e :: es) = youngest (BitVec.ofNat 64 e.value) es := by
  unfold youngest
  cases es with
  | nil => rfl
  | cons x xs => rw [List.getLast?_cons_cons]; cases h : (x :: xs).getLast? with
    | none => simp at h
    | some y => rfl

/-- A landed result is read where it names the register, and nowhere else. -/
theorem Core.landOne_getG (k : Core) (e : Pend) (r : Role) {n : GReg} (hn : n ≠ 0) :
    ((k.landOne e).ctx r).getG n = if e.names r n then BitVec.ofNat 64 e.value else (k.ctx r).getG n := by
  unfold Core.landOne Pend.names
  cases e.target with
  | g q m =>
    dsimp only
    by_cases hq : q = r
    · subst hq
      rw [Core.ctx_setCtx_self]
      by_cases hm : BitVec.ofNat 5 m = n
      · subst hm; rw [Ctx.getG_setG_self hn]; simp
      · rw [Ctx.getG_setG_ne (Ne.symm hm)]; simp [hm]
    · rw [Core.ctx_setCtx_ne _ _ (Ne.symm hq)]; simp [hq]
  | k m => dsimp only; rw [Core.setK_ctx]; rfl
  | _ => cases r <;> rfl

theorem Core.foldl_landOne_getG (es : List Pend) (k : Core) (r : Role) {n : GReg} (hn : n ≠ 0) :
    ((es.foldl Core.landOne k).ctx r).getG n = youngest ((k.ctx r).getG n) (es.filter (Pend.names r n)) := by
  induction es generalizing k with
  | nil => rfl
  | cons e es ih =>
    rw [List.foldl_cons, ih, Core.landOne_getG k e r hn, List.filter_cons]
    split
    · rw [youngest_cons]
    · rfl

/-- An overtaken result for a register has a younger one for the same register. -/
theorem names_of_overtakenBy {e y : Pend} {r : Role} {n : GReg} (ho : overtakenBy e y = true) (he : e.names r n = true) :
    y.names r n = true := by
  unfold overtakenBy at ho
  unfold Pend.names at he ⊢
  simp only [Bool.and_eq_true] at ho
  obtain ⟨⟨-, hsame⟩, -⟩ := ho
  cases ht : e.target with
  | g q m =>
    have hy : y.target = .g q m := by
      rw [ht] at hsame
      cases hyt : y.target <;> rw [hyt] at hsame <;> simp [sameReg] at hsame
      rw [hsame.1, hsame.2]
    rw [ht] at he
    rw [hy]
    exact he
  | _ => rw [ht] at he; exact absurd he (by simp)

/-- Discarding what is overtaken leaves the youngest result for each register (R27). -/
theorem youngest_notOvertaken (old : Word) (es : List Pend) (r : Role) (n : GReg) :
    youngest old ((notOvertaken es).filter (Pend.names r n)) = youngest old (es.filter (Pend.names r n)) := by
  induction es generalizing old with
  | nil => rfl
  | cons e es ih =>
    unfold notOvertaken
    rw [List.filter_cons]
    cases he : e.names r n with
    | false =>
      split
      · exact ih old
      · rw [List.filter_cons, he]; exact ih old
    | true =>
      rw [if_pos rfl, youngest_cons]
      split
      · next ho =>
        -- a younger named result decides, so the old value does not matter
        obtain ⟨y, hy, hyo⟩ := List.any_eq_true.1 ho
        have hmem : y ∈ es.filter (Pend.names r n) := List.mem_filter.2 ⟨hy, names_of_overtakenBy hyo he⟩
        rw [ih old]
        unfold youngest
        rw [List.getLast?_eq_some_getLast (List.ne_nil_of_mem hmem)]
      · rw [List.filter_cons, he, if_pos rfl, youngest_cons]
        exact ih _

/-- What a reader of a scalar register sees once the results that `due` names have landed. -/
theorem Core.landIf_getG (k : Core) (due : Pend → Bool) (r : Role) {n : GReg} (hn : n ≠ 0) :
    ((k.landIf due).ctx r).getG n = youngest ((k.ctx r).getG n) (k.pend.filter (fun e => due e && e.names r n)) := by
  unfold Core.landIf
  dsimp only
  rw [Core.foldl_landOne_getG _ _ _ hn, youngest_notOvertaken, List.filter_filter]
  rw [List.filter_congr (q := fun e => due e && e.names r n) (fun e _ => Bool.and_comm _ _)]
  cases r <;> rfl

/-! New results (R11, R26) -/

/-- A new result is pending at the end of the core's list, and nothing else changes. -/
theorem State.modCore_pend (s : State) (c : Nat) (p : List Pend) :
    (s.modCore c (fun k => { k with pend := k.pend ++ p })).core c = { s.core c with pend := (s.core c).pend ++ p } ∧
      (∀ j, j ≠ c → (s.modCore c (fun k => { k with pend := k.pend ++ p })).core j = s.core j) ∧
      { s.modCore c (fun k => { k with pend := k.pend ++ p }) with cores := s.cores } = s :=
  ⟨State.core_modCore_self .., fun _ hj => State.core_modCore_ne s _ hj, rfl⟩

theorem State.putG_zero (s : State) (v : Word) (lat : Option Nat) : s.putG 0 v lat = s := rfl

theorem State.putG_of_ne {s : State} {d : GReg} (h : d ≠ 0) (v : Word) (lat : Option Nat) :
    s.putG d v lat = s.put s.cur.core (.g s.cur.role d.toNat) 0 v.toNat lat := by
  unfold State.putG; rw [if_neg h]

end Sys2Proof.Machine

namespace Sys2Proof.Settled
open Sys2Proof.Machine

/-- Settles O8: landing is a walk over the results under way, of which the youngest for a register decides. -/
theorem scalarResults : Obligations.ScalarResults := by
  refine ⟨⟨fun x => ⟨x.getG_zero, x.setG_zero⟩, State.putG_zero, fun s d v lat hd => ?_, fun s d v => s.modCore_pend _ _⟩,
    fun k u r n hn => ?_, fun k u => ⟨stays (Pend.dueBy u), k.landBy_pend u, rfl, fun e es => ?_⟩⟩
  · rw [State.putG_of_ne hd]
    exact s.modCore_pend _ _
  · rw [Core.landBy_eq]
    exact k.landIf_getG _ r hn
  · simp only [stays, sameReg_eq]
    rfl

end Sys2Proof.Settled
end

section
/-! SUPPORT. Issue and completion of an instruction: what the landings, the pops and the completion leave as they were. -/
namespace Sys2Proof.Machine

/-! Contexts within a core -/

@[simp] theorem Core.setCtx_setCtx (k : Core) (r : Role) (x y : Ctx) : (k.setCtx r x).setCtx r y = k.setCtx r y := by cases r <;> rfl

@[simp] theorem Core.ctx_pend (k : Core) (p : List Pend) (r : Role) : ({ k with pend := p } : Core).ctx r = k.ctx r := by cases r <;> rfl

theorem State.core_modCtx_self (s : State) (c : Nat) (r : Role) (f : Ctx → Ctx) :
    (s.modCtx c r f).core c = (s.core c).setCtx r (f (s.ctx c r)) := State.core_modCore_self ..

theorem State.core_modCtx_ne (s : State) {c j : Nat} (r : Role) (f : Ctx → Ctx) (h : j ≠ c) : (s.modCtx c r f).core j = s.core j :=
  State.core_modCore_ne s _ h

/-! Landings -/

/-- A landing changes of a context its scalar registers alone. -/
theorem Core.landOne_ctx (k : Core) (e : Pend) (r : Role) : ∃ g, (k.landOne e).ctx r = { k.ctx r with g := g } := by
  unfold Core.landOne
  cases e.target with
  | g q n =>
    dsimp only
    by_cases hq : r = q
    · subst hq
      rw [Core.ctx_setCtx_self]
      unfold Ctx.setG
      split <;> exact ⟨_, rfl⟩
    · rw [Core.ctx_setCtx_ne _ _ hq]; exact ⟨_, rfl⟩
  | k n => dsimp only; rw [Core.setK_ctx]; exact ⟨_, rfl⟩
  | _ => cases r <;> exact ⟨_, rfl⟩

theorem Core.foldl_landOne_ctx (es : List Pend) (k : Core) (r : Role) : ∃ g, (es.foldl Core.landOne k).ctx r = { k.ctx r with g := g } := by
  induction es generalizing k with
  | nil => exact ⟨_, rfl⟩
  | cons e es ih =>
    obtain ⟨g, hg⟩ := ih (k.landOne e)
    obtain ⟨g', hg'⟩ := k.landOne_ctx e r
    exact ⟨g, by rw [List.foldl_cons, hg, hg']⟩

theorem Core.landIf_ctx (k : Core) (due : Pend → Bool) (r : Role) : ∃ g, (k.landIf due).ctx r = { k.ctx r with g := g } := by
  unfold Core.landIf
  dsimp only
  obtain ⟨g, hg⟩ := Core.foldl_landOne_ctx (notOvertaken (k.pend.filter due)) { k with pend := _ } r
  rw [Core.ctx_pend] at hg
  exact ⟨g, hg⟩

theorem Core.interlock_ctx (k : Core) (ts : List Target) (r : Role) : ∃ g, (k.interlock ts).ctx r = { k.ctx r with g := g } := by
  unfold Core.interlock
  split
  · exact ⟨_, rfl⟩
  · exact k.landIf_ctx _ r

/-- The landings before an instruction change of a context its scalar registers alone. -/
theorem State.landed_ctx (s : State) (ts : List Target) (r : Role) :
    ∃ g, (s.landed ts).ctx s.cur.core r = { s.ctx s.cur.core r with g := g } := by
  unfold State.landed State.ctx
  rw [State.core_modCore_self, Core.landBy_eq]
  obtain ⟨g, hg⟩ := ((s.core s.cur.core).landIf (Pend.dueBy s.gtc)).interlock_ctx ts r
  obtain ⟨g', hg'⟩ := (s.core s.cur.core).landIf_ctx (Pend.dueBy s.gtc) r
  exact ⟨g, by rw [hg, hg']⟩

/-! Pops -/

@[simp] theorem State.setClock_cur (s : State) (a : Agent) (k : Clock) : (s.setClock a k).cur = s.cur := rfl

@[simp] theorem State.endRegion_cur (s : State) (a : Agent) : (s.endRegion a).cur = s.cur := by cases a <;> rfl

@[simp] theorem State.learn_cur (s : State) (a : Agent) (sc : Scope) (k : Clock) : (s.learn a sc k).cur = s.cur := by cases sc <;> rfl

@[simp] theorem State.acquire_cur (s : State) (a : Agent) (k : Clock) (sc : Scope) : (s.acquire a k sc).cur = s.cur := by
  unfold State.acquire; rw [State.learn_cur, State.endRegion_cur, State.setClock_cur]

@[simp] theorem State.pop_cur (s : State) (q : Nat) : (s.pop q).cur = s.cur := by
  unfold State.pop
  dsimp only
  split
  · rw [State.acquire_cur]; rfl
  · split
    · rw [State.acquire_cur]; rfl
    · rfl

theorem State.foldl_pop_cur (qs : List Nat) (s : State) : (qs.foldl State.pop s).cur = s.cur := by
  induction qs generalizing s with
  | nil => rfl
  | cons q qs ih => rw [List.foldl_cons, ih, State.pop_cur]

/-- Landings and pops leave the place of the turn. -/
@[simp] theorem State.atIssue_cur (s : State) (h : Hdr) (ts : List Target) : (s.atIssue h ts).cur = s.cur := by
  unfold State.atIssue
  split
  · rfl
  · rw [State.foldl_pop_cur]; rfl

/-! Instructions without TOK bits -/

theorem State.toksOf_quiet {s : State} {h : Hdr} (hq : s.noTokens h) : s.toksOf h = some ([], []) := by
  obtain ⟨ha, hb, hc, hd, -⟩ := hq
  unfold State.toksOf tokens
  simp [ha, hb, hc, hd]

theorem State.pushesOf_quiet {s : State} {h : Hdr} (hq : s.noTokens h) : s.pushesOf h = [] := by
  unfold State.pushesOf; rw [State.toksOf_quiet hq]; rfl

theorem State.popsOf_quiet {s : State} {h : Hdr} (hq : s.noTokens h) : s.popsOf h = [] := by
  unfold State.popsOf; rw [State.toksOf_quiet hq]; rfl

/-- Without TOK bits, what precedes an instruction's effect is the landings and the mark of earlier pops. -/
theorem State.atIssue_quiet {s : State} {h : Hdr} {ts : List Target} (hq : s.noTokens h) :
    s.atIssue h ts = if s.popsMade then (s.landed ts).modCtx s.cur.core s.cur.role (fun x => { x.clearHeld with made := true }) else s.landed ts := by
  unfold State.atIssue; rw [State.popsOf_quiet hq]; rfl

/-- Without TOK bits, nothing outside the current core changes before an instruction's effect. -/
theorem State.atIssue_package {s : State} {h : Hdr} {ts : List Target} (hq : s.noTokens h) : { s.atIssue h ts with cores := s.cores } = s := by
  rw [State.atIssue_quiet hq]; split <;> rfl

theorem State.atIssue_otherCores {s : State} {h : Hdr} {ts : List Target} (hq : s.noTokens h) {c : Nat} (hc : c ≠ s.cur.core) :
    (s.atIssue h ts).core c = s.core c := by
  have hl : (s.landed ts).core c = s.core c := State.core_modCore_ne s _ hc
  rw [State.atIssue_quiet hq]
  split
  · rw [State.core_modCtx_ne _ _ _ hc, hl]
  · exact hl

theorem Ctx.clearHeld_push (x : Ctx) : x.clearHeld.push = x.push := by
  unfold Ctx.clearHeld
  dsimp only
  split
  · split <;> rfl
  · rfl

/-- Without TOK bits, no push waits where the instruction has its effect. -/
theorem State.atIssue_push {s : State} {h : Hdr} {ts : List Target} (hq : s.noTokens h) :
    ((s.atIssue h ts).ctx s.cur.core s.cur.role).push = [] := by
  obtain ⟨g, hg⟩ := s.landed_ctx ts s.cur.role
  have hp : ((s.landed ts).ctx s.cur.core s.cur.role).push = [] := by rw [hg]; exact hq.2.2.2.2
  rw [State.atIssue_quiet hq]
  split
  · rw [State.ctx_modCtx_self]
    exact (Ctx.clearHeld_push _).trans hp
  · exact hp

/-! Completion -/

/-- What the completion of an instruction makes of its context, its pushes apart (R12, R25). -/
def Ctx.goesOn (x : Ctx) (npc : Word) (n : Nat) : Ctx := { x.count.drop with pc := canonPc npc, nextIssue := n, run := .running }

/-- The same where nothing is pushed, and the context may stop at its safe point. -/
def Ctx.completed (x : Ctx) (npc : Word) (n : Nat) : Ctx := Ctx.settleSafe { x.goesOn npc n with push := [] }

/-- The cycle of the next issue (R25). -/
def State.nextCycle (s : State) (h : Hdr) (b : Nat) : Nat := s.gtc + 1 + Nat.max h.wait.toNat b

/-- Completion without pushes changes the context alone. -/
theorem State.finish_quiet {s : State} (hp : (s.ctx s.cur.core s.cur.role).push = []) (h : Hdr) (npc : Word) (b : Nat) :
    s.finish h [] npc b = ((s.modCtx s.cur.core s.cur.role (fun x => x.goesOn npc (s.nextCycle h b))).modCtx s.cur.core s.cur.role
      (fun x => { x with push := [] })).modCtx s.cur.core s.cur.role Ctx.settleSafe := by
  let u := s.modCtx s.cur.core s.cur.role (fun x => x.goesOn npc (s.nextCycle h b))
  have hpush : (u.ctx s.cur.core s.cur.role).push = [] := by
    rw [State.ctx_modCtx_self]; exact hp
  show (u.drain s.cur.core s.cur.role u.me ((u.ctx s.cur.core s.cur.role).push ++ [[]])).modCtx _ _ _ = _
  rw [hpush]
  rfl

theorem State.finish_quiet_core {s : State} (hp : (s.ctx s.cur.core s.cur.role).push = []) (h : Hdr) (npc : Word) (b : Nat) :
    (s.finish h [] npc b).core s.cur.core =
      (s.core s.cur.core).setCtx s.cur.role ((s.ctx s.cur.core s.cur.role).completed npc (s.nextCycle h b)) := by
  rw [State.finish_quiet hp]
  simp only [State.core_modCtx_self, State.ctx_modCtx_self, Core.setCtx_setCtx]
  rfl

theorem State.finish_quiet_otherCores {s : State} (hp : (s.ctx s.cur.core s.cur.role).push = []) (h : Hdr) (npc : Word) (b : Nat)
    {c : Nat} (hc : c ≠ s.cur.core) : (s.finish h [] npc b).core c = s.core c := by
  rw [State.finish_quiet hp, State.core_modCtx_ne _ _ _ hc, State.core_modCtx_ne _ _ _ hc, State.core_modCtx_ne _ _ _ hc]

theorem State.finish_quiet_package {s : State} (hp : (s.ctx s.cur.core s.cur.role).push = []) (h : Hdr) (npc : Word) (b : Nat) :
    { s.finish h [] npc b with cores := s.cores } = s := by
  rw [State.finish_quiet hp]; rfl

theorem Ctx.settleSafe_eq (x : Ctx) : ∃ run, x.settleSafe = { x with run := run } := by
  unfold Ctx.settleSafe; split <;> exact ⟨_, rfl⟩

theorem Ctx.completed_eq (x : Ctx) (npc : Word) (n : Nat) :
    ∃ run, x.completed npc n = { x.goesOn npc n with push := [], run := run } := by
  obtain ⟨run, h⟩ := Ctx.settleSafe_eq { x.goesOn npc n with push := [] }
  exact ⟨run, h⟩

theorem Ctx.completed_g (x : Ctx) (npc : Word) (n : Nat) : (x.completed npc n).g = x.g := by
  obtain ⟨run, h⟩ := Ctx.completed_eq x npc n
  rw [h]; rfl

theorem Ctx.completed_b (x : Ctx) (npc : Word) (n : Nat) : (x.completed npc n).b = x.b := by
  obtain ⟨run, h⟩ := Ctx.completed_eq x npc n
  rw [h]; rfl

theorem Ctx.completed_sys (x : Ctx) (npc : Word) (n : Nat) : (x.completed npc n).sys = x.sys := by
  obtain ⟨run, h⟩ := Ctx.completed_eq x npc n
  rw [h]; rfl

/-! Instructions that only compute results -/

/-- `w` is `u` but for the results under way in the current core. -/
structure OnlyPends (u w : State) : Prop where
  package : { w with cores := u.cores } = u
  otherCores : ∀ c, c ≠ u.cur.core → w.core c = u.core c
  core : ∃ p, w.core u.cur.core = { u.core u.cur.core with pend := p }

theorem OnlyPends.refl (u : State) : OnlyPends u u := ⟨rfl, fun _ _ => rfl, _, rfl⟩

theorem onlyPends_append (u : State) (p : List Pend) : OnlyPends u (u.modCore u.cur.core (fun k => { k with pend := k.pend ++ p })) :=
  let ⟨hc, ho, hp⟩ := u.modCore_pend u.cur.core p
  ⟨hp, ho, _, hc⟩

theorem onlyPends_put (u : State) (t : Target) (m v : Nat) (lat : Option Nat) : OnlyPends u (u.put u.cur.core t m v lat) :=
  onlyPends_append u _

theorem onlyPends_putG (u : State) (d : GReg) (v : Word) (lat : Option Nat) : OnlyPends u (u.putG d v lat) := by
  unfold State.putG
  split
  · exact .refl u
  · exact onlyPends_put ..

theorem onlyPends_putDivide (u : State) (d : GReg) (v : Word) : OnlyPends u (u.putDivide d v) := onlyPends_append u _

theorem onlyPends_putV (u : State) (d : VReg) (m v : Nat) (lat : Option Nat) : OnlyPends u (u.putV d m v lat) := onlyPends_put ..

theorem onlyPends_putK (u : State) (d : KReg) (m v : Nat) (lat : Option Nat) : OnlyPends u (u.putK d m v lat) := by
  unfold State.putK
  split
  · exact .refl u
  · exact onlyPends_put ..

/-- An instruction without TOK bits that only computes results keeps the frame. -/
theorem registerFrame_of {s w : State} {h : Hdr} {ts : List Target} (hq : s.noTokens h) (hw : OnlyPends (s.atIssue h ts) w) (npc : Word) (b : Nat) :
    RegisterFrame s (s.atIssue h ts) (w.finish h (s.pushesOf h) npc b) := by
  have hus := State.atIssue_package (ts := ts) hq
  have huo : ∀ c, c ≠ s.cur.core → (s.atIssue h ts).core c = s.core c := fun c => State.atIssue_otherCores hq
  have hup := State.atIssue_push (ts := ts) hq
  have huc := s.atIssue_cur h ts
  generalize s.atIssue h ts = u at *
  obtain ⟨hpkg, hother, p, hcore⟩ := hw
  have hcur : w.cur = s.cur := (congrArg State.cur hpkg).trans huc
  rw [huc] at hother hcore
  have hctx : w.ctx s.cur.core s.cur.role = u.ctx s.cur.core s.cur.role := by
    unfold State.ctx; rw [hcore, Core.ctx_pend]
  have hwp : (w.ctx w.cur.core w.cur.role).push = [] := by rw [hcur, hctx, hup]
  have hfc := State.finish_quiet_core hwp h npc b
  rw [hcur, hctx] at hfc
  rw [State.pushesOf_quiet hq]
  have hmine : (w.finish h [] npc b).ctx s.cur.core s.cur.role = (u.ctx s.cur.core s.cur.role).completed npc (w.nextCycle h b) := by
    unfold State.ctx; rw [hfc, Core.ctx_setCtx_self]; rfl
  have hpackage : { w.finish h [] npc b with cores := s.cores } = s := by
    have h1 := congrArg (fun x : State => { x with cores := s.cores }) (State.finish_quiet_package hwp h npc b)
    have h2 := congrArg (fun x : State => { x with cores := s.cores }) hpkg
    exact h1.trans (h2.trans hus)
  constructor
  case memory =>
    have hmem := congrArg State.mem hpackage
    intro a; unfold State.raw; rw [← hmem]
  case package => exact hpackage
  case otherCores =>
    intro c hc
    rw [State.finish_quiet_otherCores hwp h npc b (by rw [hcur]; exact hc), hother c hc, huo c hc]
  case core => exact ⟨p, _, by rw [hfc, hcore]⟩
  case scalars => intro n; rw [hmine]; unfold Ctx.getG; rw [Ctx.completed_g]
  case branches => intro n; rw [hmine]; unfold Ctx.getB; rw [Ctx.completed_b]
  case contextRegisters => rw [hmine, Ctx.completed_sys]

/-- The frame of an instruction whose body only computes results. -/
theorem frame_issue {h : Hdr} {rt : Rights} {uses defs : List Target} {i : Instr} {s t : State} {f : State → State}
    (he : exec i s = issue h rt uses defs (fun u => .done (f u)) s) (hf : ∀ u, OnlyPends u (f u)) (hq : s.noTokens h)
    (hm : s.mayIssue h rt (uses ++ defs) = true) (hx : exec i s = .next t) : RegisterFrame s (s.atIssue h (uses ++ defs)) t := by
  have := completes_body he hm
  rw [hx] at this
  cases this
  exact registerFrame_of hq (hf _) _ _

/-- The frame of a vector instruction whose body only computes results. -/
theorem frame_issueV {h : Hdr} {uses defs : List Target} {i : Instr} {s t : State} {f : State → State}
    (he : exec i s = issueV h uses defs (fun u => .done (f u)) s) (hf : ∀ u, OnlyPends u (f u)) (hq : s.noTokens h)
    (hm : s.mayIssue h .comp (uses ++ defs) = true)
    (ho : (s.atIssue h (uses ++ defs)).tileOk s.cur.core ((s.atIssue h (uses ++ defs)).core s.cur.core).accsel = true)
    (hx : exec i s = .next t) : RegisterFrame s (s.atIssue h (uses ++ defs)) t := by
  have := completesV_body he hm (by dsimp only; rw [State.atIssue_cur]; exact ho)
  rw [hx] at this
  cases this
  exact registerFrame_of hq (hf _) _ _

end Sys2Proof.Machine
end

section
/-! SUPPORT. The computing forms of the manual: what runs each row of the tables, and their frames (R97, R98, R127 to R132). -/
namespace Sys2Proof.Machine

theorem exec_threeRegister : ∀ row ∈ threeRegisterForms, ∃ lat f, ∀ h d a b s, exec (row.1 h d a b) s = scalar3 h d a b lat f s := by
  simp only [threeRegisterForms, List.forall_mem_cons, List.not_mem_nil, false_imp_iff, implies_true, and_true]
  exact ⟨⟨_, _, fun h d a b s => (rfl : _ = execAdd h d a b s)⟩,
    ⟨_, _, fun h d a b s => (rfl : _ = execSub h d a b s)⟩,
    ⟨_, _, fun h d a b s => (rfl : _ = execMul h d a b s)⟩,
    ⟨_, _, fun h d a b s => (rfl : _ = execMulh h d a b s)⟩,
    ⟨_, _, fun h d a b s => (rfl : _ = execMulhn h d a b s)⟩,
    ⟨_, _, fun h d a b s => (rfl : _ = execAnd h d a b s)⟩,
    ⟨_, _, fun h d a b s => (rfl : _ = execOr h d a b s)⟩,
    ⟨_, _, fun h d a b s => (rfl : _ = execXor h d a b s)⟩,
    ⟨_, _, fun h d a b s => (rfl : _ = execAndn h d a b s)⟩,
    ⟨_, _, fun h d a b s => (rfl : _ = execShl h d a b s)⟩,
    ⟨_, _, fun h d a b s => (rfl : _ = execShr h d a b s)⟩,
    ⟨_, _, fun h d a b s => (rfl : _ = execSar h d a b s)⟩,
    ⟨_, _, fun h d a b s => (rfl : _ = execRol h d a b s)⟩,
    ⟨_, _, fun h d a b s => (rfl : _ = execMin h d a b s)⟩,
    ⟨_, _, fun h d a b s => (rfl : _ = execMax h d a b s)⟩,
    ⟨_, _, fun h d a b s => (rfl : _ = execMinn h d a b s)⟩,
    ⟨_, _, fun h d a b s => (rfl : _ = execMaxn h d a b s)⟩,
    ⟨_, _, fun h d a b s => (rfl : _ = execSeq h d a b s)⟩,
    ⟨_, _, fun h d a b s => (rfl : _ = execSne h d a b s)⟩,
    ⟨_, _, fun h d a b s => (rfl : _ = execSlt h d a b s)⟩,
    ⟨_, _, fun h d a b s => (rfl : _ = execSltn h d a b s)⟩⟩

theorem exec_divide : ∀ row ∈ divideForms, ∃ f, ∀ h d a b s, exec (row.1 h d a b) s = divide3 h d a b f s := by
  simp only [divideForms, List.forall_mem_cons, List.not_mem_nil, false_imp_iff, implies_true, and_true]
  exact ⟨⟨_, fun h d a b s => (rfl : _ = execDiv h d a b s)⟩,
    ⟨_, fun h d a b s => (rfl : _ = execDivn h d a b s)⟩,
    ⟨_, fun h d a b s => (rfl : _ = execRem h d a b s)⟩,
    ⟨_, fun h d a b s => (rfl : _ = execRemn h d a b s)⟩⟩

theorem exec_fourRegister : ∀ row ∈ fourRegisterForms, ∃ lat f, ∀ h d a b c s, exec (row.1 h d a b c) s = scalar4 h d a b c lat f s := by
  simp only [fourRegisterForms, List.forall_mem_cons, List.not_mem_nil, false_imp_iff, implies_true, and_true]
  exact ⟨⟨_, _, fun h d a b c s => (rfl : _ = execSel h d a b c s)⟩,
    ⟨_, _, fun h d a b c s => (rfl : _ = execMadd h d a b c s)⟩⟩

theorem exec_twoRegister : ∀ row ∈ twoRegisterForms, ∃ lat f, ∀ h d a s, exec (row.1 h d a) s = scalar2 h d a lat f s := by
  simp only [twoRegisterForms, List.forall_mem_cons, List.not_mem_nil, false_imp_iff, implies_true, and_true]
  exact ⟨⟨_, _, fun h d a s => (rfl : _ = execClz h d a s)⟩,
    ⟨_, _, fun h d a s => (rfl : _ = execCtz h d a s)⟩,
    ⟨_, _, fun h d a s => (rfl : _ = execPopc h d a s)⟩⟩

theorem exec_immediate : ∀ row ∈ immediateForms, ∀ e, ∃ lat f, ∀ h d a s, exec (row.1 h d a e) s = scalar2 h d a lat f s := by
  simp only [immediateForms, List.forall_mem_cons, List.not_mem_nil, false_imp_iff, implies_true, and_true]
  exact ⟨fun e => ⟨_, _, fun h d a s => (rfl : _ = execAddi h d a e s)⟩,
    fun e => ⟨_, _, fun h d a s => (rfl : _ = execAndi h d a e s)⟩,
    fun e => ⟨_, _, fun h d a s => (rfl : _ = execOri h d a e s)⟩,
    fun e => ⟨_, _, fun h d a s => (rfl : _ = execXori h d a e s)⟩,
    fun e => ⟨_, _, fun h d a s => (rfl : _ = execSlti h d a e s)⟩,
    fun e => ⟨_, _, fun h d a s => (rfl : _ = execSltni h d a e s)⟩,
    fun e => ⟨_, _, fun h d a s => (rfl : _ = execMuli h d a e s)⟩,
    fun e => ⟨_, _, fun h d a s => (rfl : _ = execLih h d a e s)⟩⟩

theorem exec_shift : ∀ row ∈ shiftForms, ∀ n, ∃ lat f, ∀ h d a s, exec (row.1 h d a n) s = scalar2 h d a lat f s := by
  simp only [shiftForms, List.forall_mem_cons, List.not_mem_nil, false_imp_iff, implies_true, and_true]
  exact ⟨fun n => ⟨_, _, fun h d a s => (rfl : _ = execShli h d a n s)⟩,
    fun n => ⟨_, _, fun h d a s => (rfl : _ = execShri h d a n s)⟩,
    fun n => ⟨_, _, fun h d a s => (rfl : _ = execSari h d a n s)⟩⟩

theorem exec_integer : ∀ row ∈ integerForms, ∀ ty sat, ∃ f, ∀ h k d a b s, exec (row.1 h k ty sat d a b) s = plainOp h k ty d a b [a, b] f s := by
  simp only [integerForms, List.forall_mem_cons, List.not_mem_nil, false_imp_iff, implies_true, and_true]
  exact ⟨fun ty sat => ⟨_, fun h k d a b s => (rfl : _ = execViadd h k ty sat d a b s)⟩,
    fun ty sat => ⟨_, fun h k d a b s => (rfl : _ = execVisub h k ty sat d a b s)⟩,
    fun ty sat => ⟨_, fun h k d a b s => (rfl : _ = execVimul h k ty sat d a b s)⟩⟩

theorem exec_element : ∀ row ∈ elementForms, ∀ ty, ∃ f, ∀ h k d a b s, exec (row.1 h k ty d a b) s = plainOp h k ty d a b [a, b] f s := by
  simp only [elementForms, List.forall_mem_cons, List.not_mem_nil, false_imp_iff, implies_true, and_true]
  exact ⟨fun ty => ⟨_, fun h k d a b s => (rfl : _ = execVand h k ty d a b s)⟩,
    fun ty => ⟨_, fun h k d a b s => (rfl : _ = execVor h k ty d a b s)⟩,
    fun ty => ⟨_, fun h k d a b s => (rfl : _ = execVxor h k ty d a b s)⟩,
    fun ty => ⟨_, fun h k d a b s => (rfl : _ = execVshl h k ty d a b s)⟩,
    fun ty => ⟨_, fun h k d a b s => (rfl : _ = execVshr h k ty d a b s)⟩,
    fun ty => ⟨_, fun h k d a b s => (rfl : _ = execVsar h k ty d a b s)⟩,
    fun ty => ⟨_, fun h k d a b s => (rfl : _ = execVimin h k ty d a b s)⟩,
    fun ty => ⟨_, fun h k d a b s => (rfl : _ = execVimax h k ty d a b s)⟩,
    fun ty => ⟨_, fun h k d a b s => (rfl : _ = execVmin h k ty d a b s)⟩,
    fun ty => ⟨_, fun h k d a b s => (rfl : _ = execVmax h k ty d a b s)⟩⟩

/-- The frame of a scalar instruction whose body writes one register. -/
theorem frame_scalar {h : Hdr} {uses : List Target} {d : GReg} {lat : Option Nat} {v : State → Word} {i : Instr} {s t : State}
    (he : exec i s = issue h .all uses [s.gT d] (fun u => .done (u.putG d (v u) lat)) s) (hq : s.noTokens h)
    (hm : s.mayIssue h .all (uses ++ [s.gT d]) = true) (hx : exec i s = .next t) : RegisterFrame s (s.atIssue h (uses ++ [s.gT d])) t :=
  frame_issue he (fun u => onlyPends_putG u d (v u) lat) hq hm hx

theorem frame_scalar2 {h : Hdr} {d a : GReg} {lat : Option Nat} {f : Word → Word} {i : Instr} {s t : State}
    (he : exec i s = scalar2 h d a lat f s) (hq : s.noTokens h) (hm : s.mayIssue h .all [s.gT a, s.gT d] = true) (hx : exec i s = .next t) :
    RegisterFrame s (s.atIssue h [s.gT a, s.gT d]) t :=
  frame_scalar (uses := [s.gT a]) (v := fun u => f (u.g a)) he hq hm hx

/-- The frame of LI. -/
theorem frame_li {h : Hdr} {d : GReg} {e : BitVec 32} {s t : State} (hq : s.noTokens h) (hm : s.mayIssue h .all [s.gT d] = true)
    (hx : exec (.li h d e) s = .next t) : RegisterFrame s (s.atIssue h [s.gT d]) t :=
  have he : exec (.li h d e) s = execLi h d e s := rfl
  frame_scalar (uses := []) (v := fun _ => e.signExtend 64) (he.trans (by unfold execLi; rfl)) hq hm hx

/-- The frame of BFI, which reads its destination. -/
theorem frame_bfi {h : Hdr} {d a : GReg} {pos len : BitVec 6} {s t : State} (hq : s.noTokens h)
    (hm : s.mayIssue h .all [s.gT a, s.gT d, s.gT d] = true) (hx : exec (.bfi h d a pos len) s = .next t) :
    RegisterFrame s (s.atIssue h [s.gT a, s.gT d, s.gT d]) t :=
  have he : exec (.bfi h d a pos len) s = execBfi h d a pos len s := rfl
  frame_scalar (uses := [s.gT a, s.gT d]) (v := fun u => bitInsert pos.toNat (len.toNat + 1) (u.g a) (u.g d))
    (he.trans (by unfold execBfi; rfl)) hq hm hx

/-- The frame of a lane-wise instruction that rounds nothing. -/
theorem frame_plainOp {h : Hdr} {k : KReg} {ty : ETy} {d a b : VReg} {regs : List VReg} {f : Nat → Nat → Nat} {i : Instr} {s t : State}
    {ts : List Target} (he : exec i s = plainOp h k ty d a b regs f s) (hts : ts = kT k :: regs.flatMap s.vT ++ s.vT d) (hq : s.noTokens h)
    (hm : s.mayIssue h .comp ts = true) (ho : (s.atIssue h ts).tileOk s.cur.core ((s.atIssue h ts).core s.cur.core).accsel = true)
    (hx : exec i s = .next t) : RegisterFrame s (s.atIssue h ts) t := by
  subst hts
  exact frame_issueV he (fun u => onlyPends_putV u d _ _ _) hq hm ho hx

/-- The frame of a mask operation, whatever the bits that it gives. -/
theorem frame_kop {h : Hdr} {d : KReg} {op : KOp} {s t : State} (hq : s.noTokens h)
    (hm : s.mayIssue h .comp ((kopUses op).map kT ++ [kT d]) = true) (hx : exec (.kop h d op) s = .next t) :
    RegisterFrame s (s.atIssue h ((kopUses op).map kT ++ [kT d])) t := by
  have he : ∃ v : State → Nat, exec (.kop h d op) s =
      issue h .comp ((kopUses op).map kT) [kT d] (fun u => .done (u.putK d (2 ^ 2048 - 1) (v u) (some 1))) s :=
    ⟨_, (rfl : _ = execKop h d op s)⟩
  obtain ⟨v, he⟩ := he
  exact frame_issue he (fun u => onlyPends_putK u d _ (v u) _) hq hm hx

/-- The frame of a selection between two rows. -/
theorem frame_vsel {h : Hdr} {k : KReg} {ty : ETy} {d a b : VReg} {s t : State} (hq : s.noTokens h)
    (hm : s.mayIssue h .comp (kT k :: (s.vT a ++ s.vT b) ++ s.vT d) = true)
    (ho : (s.atIssue h (kT k :: (s.vT a ++ s.vT b) ++ s.vT d)).tileOk s.cur.core
      ((s.atIssue h (kT k :: (s.vT a ++ s.vT b) ++ s.vT d)).core s.cur.core).accsel = true)
    (hx : exec (.vsel h k ty d a b) s = .next t) : RegisterFrame s (s.atIssue h (kT k :: (s.vT a ++ s.vT b) ++ s.vT d)) t := by
  have he : ∃ v : State → Nat, exec (.vsel h k ty d a b) s =
      issueV h (kT k :: (s.vT a ++ s.vT b)) (s.vT d) (fun u => .done (u.putV d (2 ^ 16384 - 1) (v u) (some vecLat))) s :=
    ⟨_, (rfl : _ = execVsel h k ty d a b s)⟩
  obtain ⟨v, he⟩ := he
  exact frame_issueV he (fun u => onlyPends_putV u d _ (v u) _) hq hm ho hx

/-- The frame of a comparison, whatever its condition. -/
theorem frame_vcmp {h : Hdr} {k : KReg} {ty : ETy} {cc : VCond} {d : KReg} {a b : VReg} {s t : State} (hq : s.noTokens h)
    (hm : s.mayIssue h .comp (kT k :: (s.vT a ++ s.vT b) ++ [kT d]) = true)
    (ho : (s.atIssue h (kT k :: (s.vT a ++ s.vT b) ++ [kT d])).tileOk s.cur.core
      ((s.atIssue h (kT k :: (s.vT a ++ s.vT b) ++ [kT d])).core s.cur.core).accsel = true)
    (hx : exec (.vcmp h k ty cc d a b) s = .next t) : RegisterFrame s (s.atIssue h (kT k :: (s.vT a ++ s.vT b) ++ [kT d])) t := by
  have he : ∃ v : State → Nat, exec (.vcmp h k ty cc d a b) s =
      issueV h (kT k :: (s.vT a ++ s.vT b)) [kT d] (fun u => .done (u.putK d (2 ^ etyLanes ty - 1) (v u) (some vecLat))) s :=
    ⟨_, (rfl : _ = execVcmp h k ty cc d a b s).trans (by unfold execVcmp; rfl)⟩
  obtain ⟨v, he⟩ := he
  exact frame_issueV he (fun u => onlyPends_putK u d _ (v u) _) hq hm ho hx

theorem exec_kpop (h : Hdr) (ty : ETy) (d : GReg) (a : KReg) (s : State) : ∃ v : State → Word,
    exec (.kpop h ty d a) s = issue h .comp [kT a] [s.gT d] (fun u => .done (u.putG d (v u) (some 1))) s :=
  ⟨_, (rfl : _ = execKpop h ty d a s).trans (by unfold execKpop; rfl)⟩

theorem exec_kfirst (h : Hdr) (ty : ETy) (d : GReg) (a : KReg) (s : State) : ∃ v : State → Word,
    exec (.kfirst h ty d a) s = issue h .comp [kT a] [s.gT d] (fun u => .done (u.putG d (v u) (some 1))) s :=
  ⟨_, (rfl : _ = execKfirst h ty d a s).trans (by unfold execKfirst; rfl)⟩

/-- The frame of a mask operation that gives a scalar result. -/
theorem frame_kscalar {h : Hdr} {d : GReg} {a : KReg} {i : Instr} {s t : State}
    (he : ∃ v : State → Word, exec i s = issue h .comp [kT a] [s.gT d] (fun u => .done (u.putG d (v u) (some 1))) s) (hq : s.noTokens h)
    (hm : s.mayIssue h .comp [kT a, s.gT d] = true) (hx : exec i s = .next t) : RegisterFrame s (s.atIssue h [kT a, s.gT d]) t := by
  obtain ⟨v, he⟩ := he
  exact frame_issue he (fun u => onlyPends_putG u d (v u) _) hq hm hx

end Sys2Proof.Machine

namespace Sys2Proof.Settled
open Sys2Proof.Machine

/-- Settles O9: every listed form only puts results under way, and completion without pushes changes its context alone. -/
theorem registerFrames : Obligations.RegisterFrames := by
  refine ⟨fun h s t hq => ⟨?_, ?_, ?_, ?_, ?_, ?_, ?_, ?_, ?_⟩, fun h s t hq => ⟨?_, ?_⟩, fun h s t hq => ⟨?_, ?_, ?_, ?_, ?_, ?_, ?_⟩⟩
  · intro row hr d a b hm hx
    obtain ⟨lat, f, he⟩ := exec_threeRegister row hr
    exact frame_scalar (uses := [s.gT a, s.gT b]) (he h d a b s) hq hm hx
  · intro row hr d a b hm hx
    obtain ⟨f, he⟩ := exec_divide row hr
    exact frame_issue (uses := [s.gT a, s.gT b]) (defs := [s.gT d, .divider s.cur.role]) (he h d a b s)
      (fun u => onlyPends_putDivide u d _) hq hm hx
  · intro row hr d a b c hm hx
    obtain ⟨lat, f, he⟩ := exec_fourRegister row hr
    exact frame_scalar (uses := [s.gT a, s.gT b, s.gT c]) (he h d a b c s) hq hm hx
  · intro d e hm hx
    exact frame_li hq hm hx
  · intro d a sg pos len hm hx
    exact frame_scalar2 (rfl : exec (.bfx h d a sg pos len) s = execBfx h d a sg pos len s) hq hm hx
  · intro d a pos len hm hx
    exact frame_bfi hq hm hx
  · intro row hr d a hm hx
    obtain ⟨lat, f, he⟩ := exec_twoRegister row hr
    exact frame_scalar2 (he h d a s) hq hm hx
  · intro row hr d a e hm hx
    obtain ⟨lat, f, he⟩ := exec_immediate row hr e
    exact frame_scalar2 (he h d a s) hq hm hx
  · intro row hr d a n hm hx
    obtain ⟨lat, f, he⟩ := exec_shift row hr n
    exact frame_scalar2 (he h d a s) hq hm hx
  · intro row hr k ty sat d a b hm ho hx
    obtain ⟨f, he⟩ := exec_integer row hr ty sat
    exact frame_plainOp (he h k d a b s) (by simp) hq hm ho hx
  · intro row hr k ty d a b hm ho hx
    obtain ⟨f, he⟩ := exec_element row hr ty
    exact frame_plainOp (he h k d a b s) (by simp) hq hm ho hx
  · intro k ty d a
    exact ⟨fun hm ho hx => frame_plainOp (rfl : exec (.vabs h k ty d a) s = execVabs h k ty d a s) (by simp) hq hm ho hx,
      fun hm ho hx => frame_plainOp (rfl : exec (.vneg h k ty d a) s = execVneg h k ty d a s) (by simp) hq hm ho hx,
      fun hm ho hx => frame_plainOp (rfl : exec (.vmov h k ty d a) s = execVmov h k ty d a s) (by simp) hq hm ho hx⟩
  · intro k ty d a b hm ho hx
    exact frame_vsel hq hm ho hx
  · intro k ty cc d a b hm ho hx
    exact frame_vcmp hq hm ho hx
  · exact fun d => ⟨fun hm _ hx => frame_kop (op := .ones) hq hm hx, fun hm _ hx => frame_kop (op := .zero) hq hm hx⟩
  · exact fun d a => ⟨fun hm _ hx => frame_kop (op := .not a) hq hm hx, fun hm _ hx => frame_kop (op := .mov a) hq hm hx⟩
  · exact fun d a b => ⟨fun hm _ hx => frame_kop (op := .and a b) hq hm hx, fun hm _ hx => frame_kop (op := .or a b) hq hm hx,
      fun hm _ hx => frame_kop (op := .xor a b) hq hm hx, fun hm _ hx => frame_kop (op := .andn a b) hq hm hx⟩
  · exact fun ty d a => ⟨fun hm _ hx => frame_kscalar (exec_kpop h ty d a s) hq hm hx,
      fun hm _ hx => frame_kscalar (exec_kfirst h ty d a s) hq hm hx⟩

end Sys2Proof.Settled
end

section
/-! SUPPORT. Ends of contexts, and events (R12, R35, R114 to R119, R164). -/
namespace Sys2Proof.Machine

/-! What `exec` answers for the instructions that end a context or wait for an event -/

theorem exec_halt (h : Hdr) (s : State) : exec (.halt h) s = execHalt h s := rfl
theorem exec_bcc (h : Hdr) (cc : Cond) (a b : GReg) (disp : BitVec 24) (s : State) : exec (.bcc h cc a b disp) s = execBcc h cc a b disp s := rfl
theorem exec_j (h : Hdr) (disp : BitVec 24) (s : State) : exec (.j h disp) s = execJ h disp s := rfl
theorem exec_jr (h : Hdr) (a : GReg) (s : State) : exec (.jr h a) s = execJr h a s := rfl
theorem exec_br (h : Hdr) (a : BReg) (s : State) : exec (.br h a) s = execBr h a s := rfl
theorem exec_brl (h : Hdr) (a : BReg) (s : State) : exec (.brl h a) s = execBrl h a s := rfl
theorem exec_nop (h : Hdr) (s : State) : exec (.nop h) s = execNop h s := rfl
theorem exec_sev (h : Hdr) (s : State) : exec (.sev h) s = execSev h s := rfl
theorem exec_wfe (h : Hdr) (s : State) : exec (.wfe h) s = execWfe h s := rfl
theorem exec_sevRemote (h : Hdr) (a : GReg) (s : State) : exec (.sevRemote h a) s = execSevRemote h a s := rfl

/-! A transfer to 0, and HALT -/

/-- A body that transfers control to 0 ends the context once its instruction has completed. -/
theorem issue_jump_zero {h : Hdr} {rt : Rights} {uses defs : List Target} {body : State → Res} {i : Instr} {s t : State} {b : Nat}
    (he : exec i s = issue h rt uses defs body s) (hm : s.mayIssue h rt (uses ++ defs) = true)
    (hb : body (s.atIssue h (uses ++ defs)) = .jump t 0 b) (hc : t.cur = s.cur) :
    (s.endWaits h (uses ++ defs) = false → exec i s =
      .next ((t.finish h (s.pushesOf h) s.pc 0).endCtx s.cur.core s.cur.role (t.finish h (s.pushesOf h) s.pc 0).me)) ∧
    (s.endWaits h (uses ++ defs) = true → exec i s =
      .next ((t.finish h (s.pushesOf h) s.pc 0).modCtx s.cur.core s.cur.role (fun x => { x with ending := some .halt }))) := by
  rw [he, issue_body hm]
  simp only [hb, if_true]
  refine ⟨fun hw => by rw [hw]; rfl, fun hw => ?_⟩
  rw [hw, if_pos rfl]
  unfold State.finishThen
  rw [hc]

/-- A body that halts ends the context once its instruction has completed. -/
theorem issue_halt {h : Hdr} {rt : Rights} {uses defs : List Target} {body : State → Res} {i : Instr} {s t : State}
    (he : exec i s = issue h rt uses defs body s) (hm : s.mayIssue h rt (uses ++ defs) = true)
    (hb : body (s.atIssue h (uses ++ defs)) = .halt t) (hc : t.cur = s.cur) :
    (s.endWaits h (uses ++ defs) = false → exec i s =
      .next ((t.finish h (s.pushesOf h) (s.pc + 8) 0).endCtx s.cur.core s.cur.role (t.finish h (s.pushesOf h) (s.pc + 8) 0).me)) ∧
    (s.endWaits h (uses ++ defs) = true → exec i s =
      .next ((t.finish h (s.pushesOf h) (s.pc + 8) 0).modCtx s.cur.core s.cur.role (fun x => { x with ending := some .halt }))) := by
  rw [he, issue_body hm]
  simp only [hb]
  refine ⟨fun hw => by rw [hw]; rfl, fun hw => ?_⟩
  rw [hw, if_pos rfl]
  unfold State.finishThen
  rw [hc]

/-- A transfer to 0 passes the check of code addresses (R12, R106). -/
theorem transfer_zero (s : State) {a : Word} (ha : a = 0) (b : Nat) : transfer s a b = .jump s 0 b := by subst ha; rfl

theorem State.putG_cur (s : State) (d : GReg) (v : Word) (lat : Option Nat) : (s.putG d v lat).cur = s.cur := by
  unfold State.putG; split <;> rfl

/-! What the end of a context leaves -/

@[simp] theorem State.modFifo_ctx (s : State) (c q : Nat) (f : Fifo → Fifo) (r : Role) : (s.modFifo c q f).ctx c r = s.ctx c r := by
  unfold State.modFifo State.ctx
  rw [State.core_modCore_self]
  cases r <;> rfl

theorem State.modLaunch_core (s : State) (q : Nat) (f : Launch → Launch) (c : Nat) : (s.modLaunch q f).core c = s.core c := rfl

theorem State.modLaunch_ctx (s : State) (q : Nat) (f : Launch → Launch) (c : Nat) (r : Role) : (s.modLaunch q f).ctx c r = s.ctx c r := rfl

/-- A trio that leaves its core has ended. -/
theorem State.endTrio_run (s : State) (c : Nat) {r : Role} (hr : r ≠ .F) : ((s.endTrio c).ctx c r).run = .ended := by
  unfold State.endTrio State.ctx
  dsimp only
  rw [State.modLaunch_core, State.core_modCore_self]
  cases r
  case F => exact absurd rfl hr
  all_goals rfl

/-- A context of a trio that ends has ended, whether or not its trio leaves the core (R164). -/
theorem State.endCtx_run (s : State) (c : Nat) {r : Role} (a : Agent) (hr : r ≠ .F) : ((s.endCtx c r a).ctx c r).run = .ended := by
  unfold State.endCtx
  rw [if_neg hr]
  generalize s.release a .core = p
  obtain ⟨u, k⟩ := p
  generalize tokNames r false = names
  obtain ⟨pl, pr, ql, qr⟩ := names
  have hx : ((u.modCtx c r (fun x => { x.drop with run := .ended })).ctx c r).run = .ended := by rw [State.ctx_modCtx_self]
  dsimp only
  generalize u.modCtx c r (fun x => { x.drop with run := .ended }) = v at hx ⊢
  have hw (w : State) (hw : w.ctx c r = v.ctx c r) (b : Prop) [Decidable b] :
      ((if b then (if (w.core c).marked = true then w else w.endTrio c) else w).ctx c r).run = .ended := by
    split
    · split
      · rw [hw, hx]
      · exact w.endTrio_run c hr
    · rw [hw, hx]
  refine hw _ ?_ _
  refine (State.modLaunch_ctx ..).trans ?_
  split
  · rfl
  · cases pl <;> cases pr <;> cases ql <;> cases qr <;> simp only [State.modFifo_ctx]

/-! Events -/

theorem State.setEvent_core (s : State) (c : Nat) : (s.setEvent c).core c =
    { s.core c with evbit := (s.core c).evbit || !s.eventTaken c, evSet := s.gtc + 1, pulses := (s.core c).pulses ++ [(8, .core, {})] } :=
  State.core_modCore_self ..

/-- A setting of the event bit, which a WFE of the cycle may have consumed (R114, R115). -/
theorem State.setEvent_spec (s : State) (c : Nat) : ((s.core c).evClr ≠ s.gtc + 1 → ((s.setEvent c).core c).evbit = true) ∧
    ((s.core c).evClr = s.gtc + 1 → ((s.setEvent c).core c).evbit = (s.core c).evbit) ∧ ((s.setEvent c).core c).evSet = s.gtc + 1 ∧
    ((s.setEvent c).core c).pulses = (s.core c).pulses ++ [(8, Path.core, ({ vc := [], xc := [] } : Clock))] ∧
    ∀ j, j ≠ c → (s.setEvent c).core j = s.core j := by
  rw [State.setEvent_core]
  unfold State.eventTaken
  exact ⟨fun hn => by simp [hn], fun he => by simp [he], rfl, rfl, fun j hj => State.core_modCore_ne s _ hj⟩

end Sys2Proof.Machine

namespace Sys2Proof.Settled
open Sys2Proof.Machine

/-- Settles O13: the ends through the two endings of an issue, the events through the bodies of their instructions. -/
theorem endsAndEvents : Obligations.EndsAndEvents := by
  refine ⟨⟨fun h s hm => ?_, ?_, fun h disp s hm h0 => ?_, fun h a s hm h0 => ?_, fun h a s hm h0 => ?_,
    ?_, fun s c r a hp he ho => ?_, fun s c a => ?_, fun s c r a hr => s.endCtx_run c a hr⟩,
    ⟨fun h s => ?_, fun h s => ?_, fun s c => s.setEvent_spec c, fun h s => ?_, fun h s => ?_, fun h s => ?_⟩,
    ⟨fun h a s => ?_, fun h a s => ?_, fun h a s => ?_⟩⟩
  · exact issue_halt (uses := []) (defs := []) (body := .halt) (exec_halt h s) hm rfl (s.atIssue_cur h [])
  · intro h cc a b disp s ts hm hc h0
    refine issue_jump_zero (b := 2) (uses := [s.gT a, s.gT b]) (defs := []) (exec_bcc h cc a b disp s) hm ?_ (s.atIssue_cur h ts)
    exact (if_pos hc).trans (transfer_zero _ h0 2)
  · exact issue_jump_zero (uses := []) (defs := []) (exec_j h disp s) hm (transfer_zero _ h0 2) (s.atIssue_cur h [])
  · exact issue_jump_zero (uses := [s.gT a]) (defs := []) (exec_jr h a s) hm (transfer_zero _ h0 3) (s.atIssue_cur h [s.gT a])
  · rw [← s.atIssue_cur h []] at h0
    exact issue_jump_zero (uses := []) (defs := []) (exec_br h a s) hm (transfer_zero _ h0 _) (s.atIssue_cur h [])
  · intro h a s t hm h0
    have hcur := s.atIssue_cur h [s.gT 31]
    rw [← hcur] at h0
    exact issue_jump_zero (uses := []) (defs := [s.gT 31]) (exec_brl h a s) hm (transfer_zero _ h0 _) ((State.putG_cur ..).trans hcur)
  · unfold State.afterPushes
    dsimp only
    rw [hp, he]
    simp only [List.isEmpty_nil, Bool.not_true, Bool.false_eq_true, if_false, ho]
  · unfold State.endCtx
    rw [if_pos rfl, State.ctx_modCtx_self]
    rfl
  · exact completes_of (uses := []) (defs := []) (body := .done) (exec_nop h s) (fun _ => rfl)
  · exact completes_body (uses := []) (defs := []) (exec_sev h s)
  · refine completesIf_of (uses := []) (defs := []) (exec_wfe h s) (fun t ⟨hset, hw⟩ => ?_)
    exact (if_neg hw).trans (if_pos (by simpa [State.eventTaken] using hset))
  · exact completesIf_of (uses := []) (defs := []) (exec_wfe h s) (fun t hw => if_pos hw)
  · refine sleepsIf_of (uses := []) (defs := []) (exec_wfe h s) (fun t ⟨hclear, htaken, hw⟩ => ?_)
    exact (if_neg hw).trans (if_neg (by simp [State.eventTaken, hclear, htaken]))
  · refine completesIf_of (uses := [s.gT a]) (defs := []) (exec_sevRemote h a s) (fun t ⟨hid, hlt, hcore⟩ => ?_)
    exact (if_neg (by omega)).trans (if_pos hid)
  · refine completesIf_of (uses := [s.gT a]) (defs := []) (exec_sevRemote h a s) (fun t ⟨hid, hlt, hcore⟩ => ?_)
    exact (if_neg (by omega)).trans (if_neg hid)
  · exact trapsIf_of (uses := [s.gT a]) (defs := []) (exec_sevRemote h a s) (fun t hbad => if_pos hbad)

end Sys2Proof.Settled
end

section
/-! SUPPORT. The system registers: what is stored and read, and the bodies of SRD and SWR (R19, R24, R94, R110, R111). -/
namespace Sys2Proof.Machine

/-! Stored values -/

theorem State.sysAt_setSysAt (s : State) (c : Nat) (r : Role) (n : Nat) (v : Word) : (s.setSysAt c r n v).sysAt c r n = v := by
  unfold State.setSysAt State.sysAt
  cases sysHome n <;> dsimp only
  case ctx => rw [State.ctx_modCtx_self]; exact SMap.get_set_self ..
  case core => rw [State.core_modCore_self]; exact SMap.get_set_self ..
  case die => rw [State.modDie, State.die, SMap.get_set_self]; exact SMap.get_set_self ..
  case pkg => exact SMap.get_set_self ..

theorem State.sysAt_core {n : Nat} (hn : sysHome n = .core) (s : State) (c : Nat) (r : Role) : s.sysAt c r n = (s.core c).reg n := by
  unfold State.sysAt
  rw [hn]
  rfl

theorem State.sysAt_ctx {n : Nat} (hn : sysHome n = .ctx) (s : State) (c : Nat) (r : Role) : s.sysAt c r n = (s.ctx c r).reg n := by
  unfold State.sysAt
  rw [hn]
  rfl

theorem Core.reg_setReg (k : Core) (n : Nat) (v : Word) : (k.setReg n v).reg n = v := SMap.get_set_self ..

theorem Ctx.reg_setReg (x : Ctx) (n : Nat) (v : Word) : (x.setReg n v).reg n = v := SMap.get_set_self ..

/-- LZBASE and LZSIZE hold what a write leaves (R352). -/
theorem State.lzWrite_reg (s : State) (c : Nat) (size : Bool) (w : Word) :
    ((s.lzWrite c size w).core c).reg (if size then 0x351 else 0x350) = w := by
  unfold State.lzWrite
  cases size <;> simp only [if_true, if_false, Bool.false_eq_true, State.core_modCore_self]
  · exact Core.reg_setReg ..
  · exact Core.reg_setReg ..

/-- A register holds the value of its committed write. -/
theorem State.sysAt_commit (s : State) (c : Nat) (r : Role) (n : Nat) (w : Word) : (s.commit c r n w).sysAt c r n = w := by
  unfold State.commit
  split
  · next h =>
    subst h
    rw [State.sysAt_core rfl, State.core_modCore_self]
    exact Core.reg_setReg ..
  · split
    · next h =>
      obtain rfl | rfl := h
      · exact (State.sysAt_core rfl ..).trans (s.lzWrite_reg c false w)
      · exact (State.sysAt_core rfl ..).trans (s.lzWrite_reg c true w)
    · split
      · next h =>
        subst h
        change SMap.get 0 (SMap.get {} (SMap.set {} (s.setSysAt c r 0x421 w).dies _ _) _).sys 0x421 = w
        rw [SMap.get_set_self]
        exact s.sysAt_setSysAt c r 0x421 w
      · exact s.sysAt_setSysAt c r n w

/-! When a write takes effect -/

/-- The registers whose write waits for the end of the cycle (R23, R154). -/
def actsLate (n : Nat) : Bool := n != 0x100 && !decide (0x320 ≤ n ∧ n ≤ 0x338) && n != 0x412 && !actsAtOnce n

/-- The registers whose write stores the value at once. -/
def storesAtOnce (n : Nat) : Bool := n != 0x100 && !decide (0x320 ≤ n ∧ n ≤ 0x338) && n != 0x412 && actsAtOnce n

theorem State.sysWrite_late {n : Nat} (hn : actsLate n = true) (s : State) (c : Nat) (r : Role) (w : Word) :
    s.sysWrite c r n w = { s with late := s.late ++ [(c, r, n, w)] } := by
  simp only [actsLate, Bool.and_eq_true, bne_iff_ne, ne_eq, Bool.not_eq_true', decide_eq_false_iff_not] at hn
  obtain ⟨⟨⟨h1, h2⟩, h3⟩, h4⟩ := hn
  unfold State.sysWrite
  rw [if_neg h1, if_neg h2, if_neg h3, h4, if_neg Bool.false_ne_true]

theorem State.sysWrite_atOnce {n : Nat} (hn : storesAtOnce n = true) (s : State) (c : Nat) (r : Role) (w : Word) :
    s.sysWrite c r n w = s.setSysAt c r n w := by
  simp only [storesAtOnce, Bool.and_eq_true, bne_iff_ne, ne_eq, Bool.not_eq_true', decide_eq_false_iff_not] at hn
  obtain ⟨⟨⟨h1, h2⟩, h3⟩, h4⟩ := hn
  unfold State.sysWrite
  rw [if_neg h1, if_neg h2, if_neg h3, h4, if_pos rfl]

/-- The write that waits last is committed last. -/
theorem State.commitLate_snoc (s : State) (c : Nat) (r : Role) (n : Nat) (w : Word) :
    ({ s with late := s.late ++ [(c, r, n, w)] } : State).commitLate = s.commitLate.commit c r n w := by
  unfold State.commitLate
  exact List.foldl_append ..

/-- A write that waits changes no stored value now, and its register holds the value once the cycle has ended. -/
theorem State.sysWrite_late_reads {n : Nat} (hn : actsLate n = true) (s : State) (c : Nat) (r : Role) (w : Word) :
    (s.sysWrite c r n w).sysAt c r n = s.sysAt c r n ∧ (s.sysWrite c r n w).commitLate.sysAt c r n = w := by
  rw [State.sysWrite_late hn, State.commitLate_snoc, State.sysAt_commit]
  exact ⟨rfl, rfl⟩

/-- A write of TOKSTAT leaves PHELD, bit 1, and sets bit 0 (R111). -/
theorem State.sysWrite_tokstat (s : State) (c : Nat) (r : Role) (w : Word) :
    ((s.sysWrite c r 0x100 w).sysAt c r 0x100).getLsbD 0 = w.getLsbD 0 ∧
    ((s.sysWrite c r 0x100 w).sysAt c r 0x100).getLsbD 1 = (s.sysAt c r 0x100).getLsbD 1 := by
  rw [State.sysAt_ctx rfl, State.sysAt_ctx rfl, State.sysWrite, if_pos rfl, State.ctx_modCtx_self, Ctx.reg_setReg]
  generalize (s.ctx c r).reg 0x100 = v
  simp only [BitVec.getLsbD, Nat.testBit_eq_decide_div_mod_eq, BitVec.toNat_ofNat]
  constructor
  · congr 2; omega
  · congr 2; omega

/-! What SRD reads -/

/-- The registers that SRD computes or reads elsewhere; TOKSTAT reads 0 for firmware. -/
def sysComputed (n : Nat) : Bool :=
  n == 0x010 || n == 0x012 || decide (0x100 ≤ n ∧ n ≤ 0x103) || n == 0x119 || decide (0x320 ≤ n ∧ n ≤ 0x33A) || n == 0x354 || n == 0x355 ||
    n == 0x409

theorem State.sysValue_stored {n : Nat} (hn : sysComputed n = false) (s : State) (c : Nat) (r : Role) : s.sysValue c r n = s.sysAt c r n := by
  simp only [sysComputed, Bool.or_eq_false_iff, beq_eq_false_iff_ne, ne_eq, decide_eq_false_iff_not] at hn
  unfold State.sysValue
  dsimp only
  repeat rw [if_neg (by omega)]

/-! The bodies -/

/-- The body of SRD. -/
def srdBody (d : GReg) (n : Nat) (s : State) : Res :=
  if 0x401 ≤ n ∧ n ≤ 0x409 ∧ s.cur.role ≠ .F then .trap 0x03 0 0 0
  else if n = 0x408 then
    (match s.fstateRead s.cur.core with
      | some v => .done (s.putG d v alu)
      | none => .trap 0x02 0 0 0)
  else .done ((s.merged n).putG d ((s.merged n).sysValue s.cur.core s.cur.role n) alu)

theorem sysAccess_firmware {n : Nat} (hlo : 0x401 ≤ n) (hhi : n ≤ 0x409) : (sysAccess n).isSome = true := by
  have hall : ∀ m : Fin 9, (sysAccess (0x401 + m.val)).isSome = true := by decide
  obtain ⟨m, rfl⟩ := Nat.exists_eq_add_of_le hlo
  exact hall ⟨m, by omega⟩

theorem exec_srd {sys : BitVec 12} (hsys : (sysAccess sys.toNat).isSome = true) (h : Hdr) (d : GReg) (s : State) :
    exec (.srd h d sys) s = issue h .all [] [s.gT d, .noMerge s.cur.role sys.toNat] (srdBody d sys.toNat) s := by
  change execSrd h d sys s = _
  unfold execSrd
  rw [if_neg (by rw [← Option.not_isSome, hsys]; decide)]
  rfl

/-- The body of SWR to a register with access `acc`. -/
def swrBody (a : GReg) (n : Nat) (acc : SysAccess) (t : State) : Res :=
  if acc = .fw ∧ t.cur.role ≠ .F then .trap 0x03 0 0 0
  else if n = 0x408 then
    (match (t.merged n).fstateWrite t.cur.core (t.g a) with
      | some s => .done s
      | none => .trap 0x02 0 0 0)
  else if n = 0x409 then
    (match (t.merged n).ectl t.cur.core (t.g a) with
      | some s => .done s
      | none => .trap 0x02 0 0 0)
  else if !(t.merged n).sysOk t.cur.core t.cur.role n (t.g a) then .trap 0x02 0 0 0
  else if n = 0x412 ∧ fld (t.g a) 63 63 = 1 then
    (if fld (((t.merged n).ctx t.cur.core t.cur.role).reg 0x412) 7 0 = 0x33 then
      .done (((t.merged n).endReclaim t.cur.core (((t.merged n).ctx t.cur.core t.cur.role).reg 0x413) true).sysWrite t.cur.core t.cur.role n (t.g a))
    else .trap 0x02 0 0 0)
  else .done ((t.merged n).sysWrite t.cur.core t.cur.role n (t.g a))

/-- What a write of register `n` makes unavailable: its merges, and the tile of a TSHAPE register. -/
def swrTargets (s : State) (n : Nat) : List Target := .noMerge s.cur.role n :: (if 0x008 ≤ n ∧ n ≤ 0x00F then [.tile (n - 8)] else [])

theorem exec_swr {sys : BitVec 12} {acc : SysAccess} (hacc : sysAccess sys.toNat = some acc) (hro : acc ≠ .ro) (h : Hdr) (a : GReg) (s : State) :
    exec (.swr h a sys) s = issue h .all [s.gT a] (swrTargets s sys.toNat) (swrBody a sys.toNat acc) s := by
  change execSwr h a sys s = _
  unfold execSwr
  dsimp only
  rw [hacc]
  cases acc
  case ro => exact absurd rfl hro
  all_goals rfl

/-- A merged read changes FSTAT and MAXMAG alone: FSTATE and ECTL have none. -/
theorem State.merged_of_ne {n : Nat} (h2 : n ≠ 0x002) (h3 : n ≠ 0x003) (s : State) : s.merged n = s := if_neg (by simp [h2, h3])

theorem fld_top {w : Word} (hw : fld w 63 63 = 1) : w.getLsbD 63 = true := by
  simp only [BitVec.getLsbD, Nat.testBit_eq_decide_div_mod_eq, decide_eq_true_eq]
  exact hw

/-- A context may write a register with its access code. -/
theorem swr_allowed {acc : SysAccess} {t : State} (hm : acc = .rw ∨ t.cur.role = .F) : ¬ (acc = .fw ∧ t.cur.role ≠ .F) := by
  rintro ⟨rfl, hr⟩
  obtain h | h := hm
  · cases h
  · exact hr h

section
variable {a : GReg} {n : Nat} {acc : SysAccess} {t : State} (hm : acc = .rw ∨ t.cur.role = .F)
include hm

theorem swrBody_fstate {u : State} (hu : t.fstateWrite t.cur.core (t.g a) = some u) : swrBody a 0x408 acc t = .done u := by
  unfold swrBody
  rw [if_neg (swr_allowed hm), if_pos rfl, State.merged_of_ne (by decide) (by decide), hu]

theorem swrBody_ectl {u : State} (hu : t.ectl t.cur.core (t.g a) = some u) : swrBody a 0x409 acc t = .done u := by
  unfold swrBody
  rw [if_neg (swr_allowed hm), if_neg (by decide), if_pos rfl, State.merged_of_ne (by decide) (by decide), hu]

theorem swrBody_rejected (h8 : n ≠ 0x408) (h9 : n ≠ 0x409) (hbad : (t.merged n).sysOk t.cur.core t.cur.role n (t.g a) = false) :
    swrBody a n acc t = .trap 0x02 0 0 0 := by
  unfold swrBody
  rw [if_neg (swr_allowed hm), if_neg h8, if_neg h9, hbad]
  rfl

theorem swrBody_writes (h8 : n ≠ 0x408) (h9 : n ≠ 0x409) (hok : (t.merged n).sysOk t.cur.core t.cur.role n (t.g a) = true)
    (hrelease : ¬ (n = 0x412 ∧ (t.g a).getLsbD 63 = true)) :
    swrBody a n acc t = .done ((t.merged n).sysWrite t.cur.core t.cur.role n (t.g a)) := by
  unfold swrBody
  rw [if_neg (swr_allowed hm), if_neg h8, if_neg h9, hok, if_neg (by decide), if_neg (fun hb => hrelease ⟨hb.1, fld_top hb.2⟩)]

end

end Sys2Proof.Machine

namespace Sys2Proof.Settled
open Sys2Proof.Machine

/-- Settles O16: the cases of the two bodies, and the stored value under a write. -/
theorem systemRegisters : Obligations.SystemRegisters := by
  refine ⟨⟨fun h d sys s hsys => ?_, fun h d s v => ?_, fun h d sys s hlo hhi => ?_, fun s c r => ⟨rfl, rfl, rfl⟩, fun s c r n hn => ?_⟩,
    fun h a sys acc s hacc hro => ?_, fun h a s u => ?_, fun h a s u => ?_, fun h a sys s hacc => ?_,
    fun h a sys acc s hacc hro h8 h9 => ?_, fun s c r w n hn => ?_, fun s c r w n hn => ?_, fun s c r w => s.sysWrite_tokstat c r w⟩
  · refine completesIf_of (uses := []) (exec_srd hsys h d s) (fun t ⟨h8, hF⟩ => ?_)
    exact (if_neg fun ⟨h1, h2, hr⟩ => hr (hF h1 h2)).trans (if_neg h8)
  · refine completesIf_of (uses := []) (exec_srd (by decide) h d s) (fun t ⟨hr, hv⟩ => ?_)
    refine (if_neg fun hb => hb.2.2 hr).trans ((if_pos (by decide)).trans ?_)
    rw [hv]
    rfl
  · exact trapsIf_of (uses := []) (exec_srd (sysAccess_firmware hlo hhi) h d s) (fun t hr => if_pos ⟨hlo, hhi, hr⟩)
  · exact State.sysValue_stored ((by decide : ∀ m ∈ _, sysComputed m = false) n hn) s c r
  · exact completesIf_of (uses := [s.gT a]) (defs := swrTargets s sys.toNat) (exec_swr hacc hro h a s)
      (fun t ⟨hm, h8, h9, hok, hrelease⟩ => swrBody_writes hm h8 h9 hok hrelease)
  · exact completesIf_of (uses := [s.gT a]) (defs := swrTargets s 0x408) (exec_swr (sys := 0x408) rfl (by decide) h a s)
      (fun t ⟨hr, hu⟩ => swrBody_fstate (.inr hr) hu)
  · exact completesIf_of (uses := [s.gT a]) (defs := swrTargets s 0x409) (exec_swr (sys := 0x409) rfl (by decide) h a s)
      (fun t ⟨hr, hu⟩ => swrBody_ectl (.inr hr) hu)
  · exact trapsIf_of (uses := [s.gT a]) (defs := swrTargets s sys.toNat) (exec_swr hacc (by decide) h a s) (fun t hr => if_pos ⟨rfl, hr⟩)
  · exact trapsIf_of (uses := [s.gT a]) (defs := swrTargets s sys.toNat) (exec_swr hacc hro h a s)
      (fun t ⟨hm, hbad⟩ => swrBody_rejected hm h8 h9 hbad)
  · rw [State.sysWrite_atOnce ((by decide : ∀ m ∈ _, storesAtOnce m = true) n hn)]
    exact s.sysAt_setSysAt c r n w
  · exact State.sysWrite_late_reads ((by decide : ∀ m ∈ _, actsLate m = true) n hn) s c r w

end Sys2Proof.Settled
end

section
/-! SUPPORT. A row load from memory whose addresses do not rise (R146). -/
namespace Sys2Proof.Machine

/-- No WAIT and no TOK bits. -/
def plainHdr : Hdr := { wait := 0, popL := false, popR := false, pushL := false, pushR := false }

/-- A context of core 0 issues; memory lists the bytes at 4, 0 and 8 of the scratchpad in this order, so it is not in canonical form. -/
def unsorted : State :=
  { State.reset.withFetchWord 64 0 with cur := { core := 0, role := .C }, mem := [(spAddr 0 4, 1), (spAddr 0 0, 1), (spAddr 0 8, 1)] }

/-- What VLD makes unavailable where it loads V0 under K0 from the address in G0. -/
def rowTargets : List Target := [unsorted.gT 0, kT 0] ++ unsorted.vT 0

/-- The state on which VLD computes its effect. -/
def unsortedIssued : State := unsorted.atIssue plainHdr rowTargets

/-- The value of the youngest result that is pending on core 0. -/
def youngestValue : Out → Option Nat
  | .next t => (t.core 0).pend.getLast?.map Pend.value
  | _ => none

/-- The youngest result after a vector instruction that completes is its own. -/
theorem youngestValue_putV {u : State} (hc : u.cur.core = 0) (hp : (u.ctx u.cur.core u.cur.role).push = []) (d : VReg) (mask value : Nat)
    (lat : Option Nat) (h : Hdr) (npc : Word) (b : Nat) : youngestValue (.next ((u.putV d mask value lat).finish h [] npc b)) = some value := by
  have hq : ((u.putV d mask value lat).ctx u.cur.core u.cur.role).push = [] := by
    unfold State.ctx State.putV State.put
    rw [State.core_modCore_self, Core.ctx_pend]
    exact hp
  have hcore := State.finish_quiet_core (s := u.putV d mask value lat) hq h npc b
  unfold youngestValue
  dsimp only
  rw [← hc]
  refine (congrArg (fun k : Core => k.pend.getLast?.map Pend.value) hcore).trans ?_
  unfold State.putV State.put
  rw [Core.setCtx_pend, State.modCore_cur, State.core_modCore_self]
  simp

theorem unsorted_mayIssue : unsorted.mayIssue plainHdr .comp rowTargets = true := by decide +kernel

theorem unsorted_mayRead : unsortedIssued.mayRead (spSpans 0 (runPieces 0 0 (wordRuns (unsortedIssued.kreg 0)))) := by
  unfold State.mayRead
  decide +kernel

/-- The run of 2,048 bytes that VLD reads stops at the disorder and misses byte 8. -/
theorem unsorted_missed : (youngestValue (exec (.vld plainHdr 0 0 0 0 0) unsorted)).map (·.testBit 64) = some false := by decide +kernel

/-- A read of the word at 8 finds byte 8. -/
theorem unsorted_word : (leNat (unsortedIssued.spRead 0 0 8 4)).testBit 0 = true := by decide +kernel

theorem unsorted_address : unsortedIssued.g 0 + (0 : BitVec 16).signExtend 64 = 0 := by decide +kernel

end Sys2Proof.Machine

namespace Sys2Proof.Settled
open Sys2Proof.Machine

/-- Refutes O25: its clause on VLD asks for no canonical memory, and in `unsorted` lane 2 of the row does not get the word at its address. -/
theorem not_rowsAndGather : ¬ Obligations.RowsAndGather := by
  rintro ⟨⟨hload, -, -⟩, -⟩
  obtain ⟨mask, value, hexec, -, hlanes⟩ := hload plainHdr 0 0 0 0 0 unsorted unsorted_mayIssue
    (by decide +kernel) (by decide +kernel) unsorted_mayRead
  have hvalue : youngestValue (exec (.vld plainHdr 0 0 0 0 0) unsorted) = some value := by
    rw [hexec]
    exact youngestValue_putV (by decide +kernel) (by decide +kernel) ..
  have hlane : value.testBit 64 = true := by
    have hlane := (hlanes 2 (by decide) 0 (by decide)).2 (by decide +kernel)
    change value.testBit 64 = (leNat (unsortedIssued.spRead 0 0 ((unsortedIssued.g 0 + (0 : BitVec 16).signExtend 64).toNat + 8) 4)).testBit 0 at hlane
    rw [unsorted_address] at hlane
    exact hlane.trans unsorted_word
  have hmissed := unsorted_missed
  rw [hvalue] at hmissed
  simp [hlane] at hmissed

end Sys2Proof.Settled
end

section
/-! SUPPORT. Runs of bytes, lines of DRAM under keys, and writes at physical addresses, byte by byte (R225). -/
namespace Sys2Proof

/-- A run of values is what the table holds at each key. -/
theorem SMap.takeFrom_eq {α : Type} {d : α} {m : SMap α} {a : Nat} (n : Nat) (h : SMap.rising a m = true) :
    SMap.takeFrom d m a n = (List.range n).map (fun i => SMap.get d m (a + i)) := by
  induction n generalizing a m with
  | zero => cases m <;> rfl
  | succ n ih =>
    have hmap (m : SMap α) : (List.range (n + 1)).map (fun i => SMap.get d m (a + i)) =
        SMap.get d m a :: (List.range n).map (fun i => SMap.get d m (a + 1 + i)) := by
      rw [List.range_succ_eq_map, List.map_cons, List.map_map]
      exact congrArg _ (List.map_congr_left fun i _ => by rw [Function.comp, Nat.succ_eq_add_one, Nat.add_comm i 1, Nat.add_assoc])
    cases m with
    | nil => rw [hmap, SMap.takeFrom, ih rfl]; rfl
    | cons p m =>
      simp only [SMap.rising, Bool.and_eq_true, decide_eq_true_eq] at h
      obtain ⟨hle, hm⟩ := h
      rw [hmap]
      unfold SMap.takeFrom
      split
      · next he =>
        rw [ih (he ▸ hm)]
        refine List.cons_eq_cons.2 ⟨by simp [SMap.get, he], List.map_congr_left fun i _ => ?_⟩
        have hne : a + 1 + i ≠ p.1 := by omega
        simp [SMap.get, hne]
      · next he =>
        have hlt : a < p.1 := by omega
        rw [ih (m := p :: m) (by simp [SMap.rising, hm]; omega)]
        refine List.cons_eq_cons.2 ⟨?_, rfl⟩
        have hne : a ≠ p.1 := by omega
        simp [SMap.get, hne, SMap.get_below hm (show a < p.1 + 1 by omega)]

theorem SMap.read_eq {α : Type} {d : α} {m : SMap α} {lo : Nat} (h : SMap.rising lo m = true) (a n : Nat) :
    SMap.read d m a n = (List.range n).map (fun i => SMap.get d m (a + i)) := by
  unfold SMap.read
  rw [SMap.takeFrom_eq n (SMap.rising_from a h)]
  exact List.map_congr_left fun i _ => SMap.get_from h (Nat.le_add_right a i)

namespace Machine

/-! Bytes of canonical memory -/

/-- The byte at a physical address, without regard to keys. -/
def State.byteAt (s : State) (x : Nat) : Byte := SMap.get 0 s.mem x

theorem State.raw_eq {s : State} (h : Memory.wf s.mem = true) (a n : Nat) : s.raw a n = (List.range n).map (fun i => s.byteAt (a + i)) :=
  SMap.read_eq (Memory.wf_rising h) a n

theorem State.byteAt_setRaw {s : State} (h : Memory.wf s.mem = true) (a : Nat) (bs : List Byte) (x : Nat) :
    (s.setRaw a bs).byteAt x = if a ≤ x ∧ x < a + bs.length then bs.getD (x - a) 0 else s.byteAt x := by
  refine (SMap.get_write a bs (Memory.wf_rising h) x).trans ?_
  split
  · next hx => rw [List.getD_eq_getElem?_getD, List.getElem?_eq_getElem (by omega), Option.getD_some]
  · rfl

theorem State.setRaw_nil {s : State} (h : Memory.wf s.mem = true) (a x : Nat) : (s.setRaw a []).byteAt x = s.byteAt x := by
  rw [State.byteAt_setRaw h, if_neg (by simp)]

/-! Lines of DRAM under a key -/

/-- The lines that a run within one line touches. -/
theorem linesOf_within {pa n : Nat} (hn : 0 < n) (h : pa % 64 + n ≤ 64) : linesOf pa n = [pa / 64] := by
  unfold linesOf
  have h1 : (pa + n - 1) / 64 - pa / 64 + 1 = 1 := by omega
  rw [if_neg (by omega), h1]
  simp

/-- The byte at `x` of DRAM as an access under `k` reads it. -/
def State.seen (s : State) (k : Option Key) (x : Nat) : Byte := (s.lineAs k (x / 64)).getD (x % 64) 0

theorem State.lineAs_length (s : State) (h : Memory.wf s.mem = true) (k : Option Key) (l : Nat) : (s.lineAs k l).length = 64 := by
  unfold State.lineAs
  split
  · rw [State.raw_eq h]; simp
  · exact leBytes_length ..

/-- A line under its own key reads as it is stored. -/
theorem State.seen_own {s : State} (h : Memory.wf s.mem = true) {k : Option Key} {x : Nat} (hf : s.foreign k (x / 64) = none) :
    s.seen k x = s.byteAt x := by
  unfold State.seen State.lineAs
  rw [hf]
  dsimp only
  rw [State.raw_eq h, List.getD_eq_getElem?_getD, List.getElem?_map, List.getElem?_range (by omega)]
  simp only [Option.map_some, Option.getD_some]
  congr 1
  omega

/-- A run of DRAM within one line, as an access under a key slot reads it. -/
theorem State.readKey_eq {s : State} (h : Memory.wf s.mem = true) (key : Nat) {pa n : Nat} (hd : isDram pa = true) (hn : pa % 64 + n ≤ 64) :
    s.readKey key pa n = (List.range n).map (fun i => s.seen (s.keyAt key) (pa + i)) := by
  obtain rfl | hpos := Nat.eq_zero_or_pos n
  · unfold State.readKey State.raw
    simp [hd, linesOf, SMap.read_eq (Memory.wf_rising h)]
  unfold State.readKey
  rw [if_pos hd, linesOf_within hpos hn]
  simp only [List.all_cons, List.all_nil, Bool.and_true, List.flatMap_cons, List.flatMap_nil, List.append_nil]
  split
  · next hf =>
    rw [Option.isNone_iff_eq_none] at hf
    rw [State.raw_eq h]
    refine List.map_congr_left fun i hi => ?_
    have hi := List.mem_range.1 hi
    rw [State.seen_own h (by rwa [show (pa + i) / 64 = pa / 64 by omega])]
  · refine List.ext_getElem? fun i => ?_
    rw [List.getElem?_take, List.getElem?_drop, List.getElem?_map]
    split
    · next hi =>
      have hline : (pa + i) / 64 = pa / 64 := by omega
      have hoff : (pa + i) % 64 = pa % 64 + i := by omega
      rw [List.getElem?_range hi, Option.map_some, State.seen, hline, hoff, List.getD_eq_getElem?_getD,
        List.getElem?_eq_getElem (by rw [State.lineAs_length _ h]; omega), Option.getD_some]
    · next hi => rw [List.getElem?_eq_none (by simpa using hi)]; rfl

theorem sameKey_refl (a : Key) : sameKey a a = true := by simp [sameKey]

/-- A line that was last written under `k` is foreign to no access under `k`. -/
theorem State.foreign_own {s : State} {k : Option Key} {l : Nat} (h : SMap.get none s.lineKey l = k) : s.foreign k l = none := by
  unfold State.foreign
  rw [h]
  cases k with
  | none => rfl
  | some a => simp [sameKey_refl]

/-- What a write under a key slot leaves in its line: its own bytes, and the others as an access under the key read them before. -/
theorem State.seen_writeKey {s : State} (h : Memory.wf s.mem = true) (key : Nat) {pa : Nat} {bs : List Byte} (hd : isDram pa = true)
    (hn : pa % 64 + bs.length ≤ 64) {x : Nat} (hx : x / 64 = pa / 64) :
    (s.writeKey key pa bs).seen (s.keyAt key) x = if pa ≤ x ∧ x < pa + bs.length then bs.getD (x - pa) 0 else s.seen (s.keyAt key) x := by
  obtain hz | hpos := Nat.eq_zero_or_pos bs.length
  · obtain rfl := List.length_eq_zero_iff.1 hz
    have hw : s.writeKey key pa [] = s.setRaw pa [] := by
      unfold State.writeKey
      simp [hd, linesOf]
      rfl
    rw [hw, if_neg (by simp)]
    unfold State.seen State.lineAs
    have hraw (a n : Nat) : (s.setRaw pa []).raw a n = s.raw a n := by
      rw [State.raw_eq (State.wf_setRaw h pa []), State.raw_eq h]
      exact List.map_congr_left fun i _ => State.setRaw_nil h ..
    rw [hraw]
    rfl
  have hown : (s.writeKey key pa bs).foreign (s.keyAt key) (x / 64) = none := by
    refine State.foreign_own ?_
    unfold State.writeKey
    rw [if_pos hd, linesOf_within hpos hn, hx]
    exact SMap.get_set_self ..
  rw [State.seen_own (State.wf_writeKey h key pa bs) hown]
  unfold State.writeKey
  rw [if_pos hd, linesOf_within hpos hn]
  simp only [List.foldl_cons, List.foldl_nil]
  split
  · next hf =>
    rw [Option.isNone_iff_eq_none, ← hx] at hf
    rw [State.seen_own h hf]
    exact State.byteAt_setRaw h pa bs x
  · refine (State.byteAt_setRaw (State.wf_setRaw h _ _) pa bs x).trans ?_
    split
    · rfl
    · rw [State.byteAt_setRaw h, State.lineAs_length _ h, if_pos (by omega), ← hx, State.seen]
      congr 1
      omega

end Machine
end Sys2Proof
end

section
/-! SUPPORT. What writes at physical addresses read and leave: bytes, keys of lines and error marks, and nothing of the record of accesses. -/
namespace Sys2Proof.Machine

/-! A write leaves all but bytes, keys of lines and error marks -/

/-- `t` is `s` but for bytes, keys of lines and error marks. -/
def BytesOnly (s t : State) : Prop := ∃ m l b, t = { s with mem := m, lineKey := l, bad := b }

theorem BytesOnly.refl (s : State) : BytesOnly s s := ⟨s.mem, s.lineKey, s.bad, rfl⟩

theorem BytesOnly.trans {s t u : State} (h1 : BytesOnly s t) (h2 : BytesOnly t u) : BytesOnly s u := by
  obtain ⟨m, l, b, rfl⟩ := h1
  obtain ⟨m, l, b, rfl⟩ := h2
  exact ⟨m, l, b, rfl⟩

theorem BytesOnly.foldl {β : Type} {f : State → β → State} (hf : ∀ s x, BytesOnly s (f s x)) (l : List β) (s : State) :
    BytesOnly s (l.foldl f s) := by
  induction l generalizing s with
  | nil => exact .refl s
  | cons x l ih => exact (hf s x).trans (ih _)

theorem bytesOnly_setRaw (s : State) (a : Nat) (bs : List Byte) : BytesOnly s (s.setRaw a bs) := ⟨_, s.lineKey, s.bad, rfl⟩

theorem bytesOnly_clearBad (s : State) (pa n : Nat) : BytesOnly s (s.clearBad pa n) := by
  unfold State.clearBad
  split
  · exact .refl s
  · exact ⟨s.mem, s.lineKey, _, rfl⟩

theorem bytesOnly_writeKey (s : State) (key pa : Nat) (bs : List Byte) : BytesOnly s (s.writeKey key pa bs) := by
  unfold State.writeKey
  split
  · refine (BytesOnly.foldl (fun s l => ?_) _ s).trans ⟨_, _, State.bad _, rfl⟩
    split
    · exact .refl s
    · exact bytesOnly_setRaw ..
  · exact bytesOnly_setRaw ..

theorem bytesOnly_windowWrite (s : State) (st w i : Nat) (v : Word) : BytesOnly s (s.windowWrite st w i v) := by
  unfold State.windowWrite
  dsimp only
  split
  · split
    · exact bytesOnly_setRaw ..
    · exact .refl s
  · split
    · exact (bytesOnly_setRaw ..).trans (bytesOnly_setRaw ..)
    · exact bytesOnly_setRaw ..

theorem bytesOnly_descWrites (fuel pa : Nat) (bs : List Byte) (s : State) : BytesOnly s (s.descWrites fuel pa bs) := by
  induction fuel generalizing s pa bs with
  | zero => exact .refl s
  | succ n ih =>
    unfold State.descWrites
    split
    · exact .refl s
    · refine BytesOnly.trans ?_ (ih _ _ _)
      split
      · exact bytesOnly_windowWrite ..
      · exact .refl s

theorem bytesOnly_dropReady (s : State) (pa n : Nat) : BytesOnly s (s.dropReady pa n) := by
  unfold State.dropReady
  refine BytesOnly.foldl (fun s x => ?_) _ s
  dsimp only
  split
  · exact .refl s
  · refine BytesOnly.foldl (fun s i => ?_) _ s
    split
    · exact bytesOnly_setRaw ..
    · exact .refl s

theorem bytesOnly_writePhys (s : State) (key pa : Nat) (bs : List Byte) : BytesOnly s (s.writePhys key pa bs) := by
  unfold State.writePhys
  split
  · exact bytesOnly_descWrites ..
  · exact ((bytesOnly_clearBad ..).trans (bytesOnly_writeKey ..)).trans (bytesOnly_dropReady ..)

theorem bytesOnly_applyElems (s : State) (key line : Nat) (k : Contribution) : BytesOnly s (s.applyElems key line k) :=
  BytesOnly.foldl (fun _ _ => bytesOnly_writePhys ..) _ s

/-! A write does not read the record of accesses -/

/-- The state with another record of accesses. -/
def State.withOrder (s : State) (o : Order) : State := { s with order := o }

theorem withOrder_foldl {β : Type} {f : State → β → State} {o : Order} (hf : ∀ s x, f (s.withOrder o) x = (f s x).withOrder o) (l : List β)
    (s : State) : l.foldl f (s.withOrder o) = (l.foldl f s).withOrder o := by
  induction l generalizing s with
  | nil => rfl
  | cons x l ih => rw [List.foldl_cons, hf, ih]; rfl

theorem setRaw_withOrder (s : State) (o : Order) (a : Nat) (bs : List Byte) : (s.withOrder o).setRaw a bs = (s.setRaw a bs).withOrder o := rfl

theorem clearBad_withOrder (s : State) (o : Order) (pa n : Nat) : (s.withOrder o).clearBad pa n = (s.clearBad pa n).withOrder o := by
  unfold State.clearBad
  change (if s.bad.isEmpty then _ else _) = _
  split <;> rfl

theorem winWord_withOrder (s : State) (o : Order) (st w i : Nat) : (s.withOrder o).winWord st w i = s.winWord st w i := rfl

theorem writeKey_withOrder (s : State) (o : Order) (key pa : Nat) (bs : List Byte) :
    (s.withOrder o).writeKey key pa bs = (s.writeKey key pa bs).withOrder o := by
  unfold State.writeKey
  split
  · dsimp only
    rw [withOrder_foldl (o := o) (fun s l => ?_)]
    · rfl
    · change (if (s.foreign ((State.withOrder _ o).keyAt key) l).isNone then _ else _) = _
      split <;> rfl
  · rfl

theorem windowWrite_withOrder (s : State) (o : Order) (st w i : Nat) (v : Word) :
    (s.withOrder o).windowWrite st w i v = (s.windowWrite st w i v).withOrder o := by
  unfold State.windowWrite
  dsimp only
  simp only [setRaw_withOrder, winWord_withOrder, apply_ite (State.withOrder · o)]
  rfl

theorem descWrites_withOrder (fuel pa : Nat) (bs : List Byte) (s : State) (o : Order) :
    (s.withOrder o).descWrites fuel pa bs = (s.descWrites fuel pa bs).withOrder o := by
  induction fuel generalizing s pa bs with
  | zero => rfl
  | succ n ih =>
    unfold State.descWrites
    split
    · rfl
    · dsimp only
      rw [← ih]
      congr 1
      split
      · exact windowWrite_withOrder ..
      · rfl

theorem dropReady_withOrder (s : State) (o : Order) (pa n : Nat) : (s.withOrder o).dropReady pa n = (s.dropReady pa n).withOrder o := by
  unfold State.dropReady
  refine withOrder_foldl (fun s x => ?_) s.dies s
  dsimp only
  split
  · rfl
  · refine withOrder_foldl (fun s i => ?_) _ s
    split <;> rfl

theorem writePhys_withOrder (s : State) (o : Order) (key pa : Nat) (bs : List Byte) :
    (s.withOrder o).writePhys key pa bs = (s.writePhys key pa bs).withOrder o := by
  unfold State.writePhys
  split
  · exact descWrites_withOrder ..
  · rw [clearBad_withOrder, writeKey_withOrder, dropReady_withOrder]

theorem readPhys_withOrder (s : State) (o : Order) (key pa n : Nat) : (s.withOrder o).readPhys key pa n = s.readPhys key pa n := by
  unfold State.readPhys
  split <;> rfl

theorem applyElems_withOrder (s : State) (o : Order) (key line : Nat) (k : Contribution) :
    (s.withOrder o).applyElems key line k = (s.applyElems key line k).withOrder o :=
  withOrder_foldl (fun s e => by dsimp only; rw [readPhys_withOrder, writePhys_withOrder]) _ s

/-! A write to one line of DRAM -/

/-- The populated ranges of DRAM (R212). -/
theorem isDram_iff (pa : Nat) : isDram pa = true ↔
    (pa < 0x008000000000 ∧ pa % 0x1000000000 < 0xEE6B28000) ∨ (0x010000000000 ≤ pa ∧ pa < 0x030000000000) := by
  unfold isDram region
  by_cases hlow : pa < 0x008000000000
  · rw [if_pos hlow]
    by_cases hstack : pa % 0x1000000000 < 0xEE6B28000
    · rw [if_pos hstack]
      exact ⟨fun _ => .inl ⟨hlow, hstack⟩, fun _ => rfl⟩
    · rw [if_neg hstack]
      exact ⟨nofun, fun h => by omega⟩
  · rw [if_neg hlow]
    by_cases htier : 0x010000000000 ≤ pa ∧ pa < 0x030000000000
    · rw [if_pos htier]
      exact ⟨fun _ => .inr htier, fun _ => rfl⟩
    · rw [if_neg htier]
      refine ⟨fun h => ?_, fun h => by omega⟩
      by_cases hsram : 0x040000000000 ≤ pa ∧ pa < 0x040000000000 + 320 * 0x400000
      · rw [if_pos hsram] at h
        cases h
      · rw [if_neg hsram] at h
        by_cases hdecoded : 0x080000000000 ≤ pa ∧ pa < 0x080000000000 + 8 * 0x4000000000
        · rw [if_pos hdecoded] at h
          cases h
        · rw [if_neg hdecoded] at h
          by_cases hwindow : 0x0F0000000000 ≤ pa ∧ pa < 0x0F0000000000 + 8 * 0x10000 ∧ (pa - 0x0F0000000000) % 0x10000 < 1024
          · rw [if_pos hwindow] at h
            cases h
          · rw [if_neg hwindow] at h
            cases h

/-- The bytes of a line are all DRAM or none is. -/
theorem isDram_line {pa x : Nat} (h : x / 64 = pa / 64) (hd : isDram pa = true) : isDram x = true := by
  rw [isDram_iff] at hd ⊢
  omega

theorem region_of_isDram {pa : Nat} (hd : isDram pa = true) :
    (∀ st w off, region pa ≠ .window st w off) ∧ ∀ st off, region pa ≠ .decoded st off := by
  unfold isDram at hd
  split at hd
  · next h => simp [h]
  · next h => simp [h]
  · cases hd

theorem State.offTables_within {s : State} {pa n a m : Nat} (h : s.offTables pa n) (hlo : pa ≤ a) (hhi : a + m ≤ pa + n) : s.offTables a m :=
  fun x hx => (h x hx).imp id (.imp (fun hb => by omega) (fun hb => by omega))

theorem State.dropReady_off {s : State} {pa n : Nat} (h : s.offTables pa n) : s.dropReady pa n = s := by
  unfold State.dropReady
  have hskip (l : SMap Die) (hl : ∀ x ∈ l, x ∈ s.dies) (f : State → Nat × Die → State)
      (hf : ∀ x ∈ s.dies, f s x = s) : l.foldl f s = s := by
    induction l with
    | nil => rfl
    | cons x l ih =>
      rw [List.foldl_cons, hf x (hl x (List.mem_cons_self ..))]
      exact ih fun y hy => hl y (List.mem_cons_of_mem _ hy)
  refine hskip s.dies (fun _ hx => hx) _ fun x hx => if_pos ?_
  obtain hz | hlo | hhi := h x hx
  · exact .inl (by rw [hz, Nat.zero_mul])
  · exact .inr (.inl hlo)
  · exact .inr (.inr hhi)

/-- A write to DRAM away from the tables of collectives is a write under its key. -/
theorem State.writePhys_dram {s : State} {pa : Nat} {bs : List Byte} (hd : isDram pa = true) (ht : s.offTables pa bs.length) (key : Nat) :
    s.writePhys key pa bs = (s.clearBad pa bs.length).writeKey key pa bs := by
  have hoff : ((s.clearBad pa bs.length).writeKey key pa bs).offTables pa bs.length := by
    obtain ⟨m, l, b, he⟩ := (bytesOnly_clearBad s pa bs.length).trans (bytesOnly_writeKey _ key pa bs)
    rw [he]
    exact ht
  unfold State.writePhys
  split
  · next hr => exact ((region_of_isDram hd).1 _ _ _ hr).elim
  · exact State.dropReady_off hoff

theorem State.readPhys_dram {pa : Nat} (hd : isDram pa = true) (s : State) (key n : Nat) : s.readPhys key pa n = s.readKey key pa n := by
  unfold State.readPhys
  split
  · next hr => exact ((region_of_isDram hd).2 _ _ hr).elim
  · rfl

theorem State.clearBad_reads (s : State) (pa n : Nat) (k : Option Key) (x : Nat) : (s.clearBad pa n).seen k x = s.seen k x := by
  unfold State.clearBad
  split <;> rfl

theorem State.keyAt_of_bytesOnly {s t : State} (h : BytesOnly s t) (key : Nat) : t.keyAt key = s.keyAt key := by
  obtain ⟨m, l, b, rfl⟩ := h
  rfl

theorem State.offTables_of_bytesOnly {s t : State} (h : BytesOnly s t) {pa n : Nat} : t.offTables pa n ↔ s.offTables pa n := by
  obtain ⟨m, l, b, rfl⟩ := h
  rfl

/-- What a write to one line of DRAM leaves there: its own bytes, and the others as an access under the key read them before. -/
theorem State.seen_writePhys {s : State} (h : Memory.wf s.mem = true) (key : Nat) {pa : Nat} {bs : List Byte} (hd : isDram pa = true)
    (hn : pa % 64 + bs.length ≤ 64) (ht : s.offTables pa bs.length) {x : Nat} (hx : x / 64 = pa / 64) :
    (s.writePhys key pa bs).seen (s.keyAt key) x = if pa ≤ x ∧ x < pa + bs.length then bs.getD (x - pa) 0 else s.seen (s.keyAt key) x := by
  have hw := State.seen_writeKey (s := s.clearBad pa bs.length) (by rw [State.clearBad_mem]; exact h) key hd hn hx
  rw [State.keyAt_of_bytesOnly (bytesOnly_clearBad ..), State.clearBad_reads] at hw
  rw [State.writePhys_dram hd ht]
  exact hw

/-- A write to one line of DRAM reads back under its key. -/
theorem State.readKey_writePhys {s : State} (h : Memory.wf s.mem = true) (key : Nat) {pa : Nat} {bs : List Byte} (hd : isDram pa = true)
    (hn : pa % 64 + bs.length ≤ 64) (ht : s.offTables pa bs.length) : (s.writePhys key pa bs).readKey key pa bs.length = bs := by
  rw [State.readKey_eq (State.wf_writePhys h key pa bs) key hd hn, State.keyAt_of_bytesOnly (bytesOnly_writePhys ..)]
  refine List.ext_getElem (by simp) fun i h1 h2 => ?_
  rw [List.getElem_map, List.getElem_range, State.seen_writePhys h key hd hn ht (by omega), if_pos (by omega), Nat.add_sub_cancel_left,
    List.getD_eq_getElem?_getD, List.getElem?_eq_getElem h2, Option.getD_some]

/-- A write elsewhere in the line leaves what an access under the key reads. -/
theorem State.readKey_writePhys_apart {s : State} (h : Memory.wf s.mem = true) (key : Nat) {pa : Nat} {bs : List Byte} (hd : isDram pa = true)
    (hn : pa % 64 + bs.length ≤ 64) (ht : s.offTables pa bs.length) {x n : Nat} (hx : x / 64 = pa / 64) (hxn : x % 64 + n ≤ 64)
    (hapart : pa + bs.length ≤ x) : (s.writePhys key pa bs).readKey key x n = s.readKey key x n := by
  have hdx := isDram_line hx hd
  rw [State.readKey_eq (State.wf_writePhys h key pa bs) key hdx hxn, State.readKey_eq h key hdx hxn,
    State.keyAt_of_bytesOnly (bytesOnly_writePhys ..)]
  refine List.map_congr_left fun i hi => ?_
  have hi := List.mem_range.1 hi
  rw [State.seen_writePhys h key hd hn ht (by omega), if_neg (by omega)]

end Sys2Proof.Machine
end

section
/-! SUPPORT. Contributions to a line and the round that they complete (R266, R267). -/
namespace Sys2Proof.Machine

/-! What a contribution leaves of its round -/

/-- The counter that a contribution to `line` finds, a fresh one where no round is open. -/
def State.roundOf (s : State) (line cnt : Nat) (det : Bool) : Counter :=
  ((s.order.counters.find? (fun p => p.1 == line)).map (·.2)).getD { cnt := cnt, det := det, seen := 0, applied := [], waiting := [], landed := [] }

/-- The counter with contribution `x` counted. -/
def Counter.counted (k : Counter) (x : Contribution) : Counter := { k with seen := k.seen + 1, landed := k.landed ++ [x.idx] }

/-- Memory and the counter after the elements of a contribution, and of those that it lets go, are applied. -/
def State.applied (s : State) (key line : Nat) (det : Bool) (k : Counter) (x : Contribution) : State × Counter :=
  if det then s.applyReady key line (k.waiting.length + 1) { k with waiting := k.waiting ++ [x] }
  else (s.applyElems key line x, { k with applied := k.applied ++ [x] })

/-- The state with these counters. -/
def State.withCounters (s : State) (cs : List (Nat × Counter)) : State := s.withOrder { s.order with counters := cs }

/-- One is added to the ready flag of a line. -/
def State.raiseFlag (s : State) (key line : Nat) : State :=
  s.writePhys key (64 * line + 56) (leBytes 8 (leNat (s.readPhys key (64 * line + 56) 8) + 1))

/-- The access and the release of one contributor at the ready flag. -/
def State.flagRelease (line : Nat) (s : State) (x : Contribution) : State :=
  let flag := 64 * line + 56
  let t := s.withOrder { s.order with accesses := s.order.accesses ++ [{ x.access line with lo := flag, len := 8 }] }
  (t.addRelease flag 8 x.agent x.scope x.clock).widen x.clock (agentInst x.scope x.agent)

theorem contribute_eq (s : State) (key line cnt : Nat) (det : Bool) (x : Contribution) :
    s.contribute key line cnt det x =
      (let r := s.applied key line det ((s.roundOf line cnt det).counted x) x
       let others := r.1.order.counters.filter (fun p => p.1 != line)
       if r.2.seen < cnt then r.1.withCounters (others ++ [(line, r.2)])
       else r.2.applied.foldl (State.flagRelease line) ((r.1.withCounters others).raiseFlag key line)) := rfl

/-- `k'` counts the same round as `k`. -/
structure SameRound (k k' : Counter) : Prop where
  seen : k'.seen = k.seen
  cnt : k'.cnt = k.cnt
  det : k'.det = k.det
  landed : k'.landed = k.landed

theorem SameRound.trans {k l m : Counter} (h1 : SameRound k l) (h2 : SameRound l m) : SameRound k m :=
  ⟨h2.seen.trans h1.seen, h2.cnt.trans h1.cnt, h2.det.trans h1.det, h2.landed.trans h1.landed⟩

/-- The queues do not tell rounds apart. -/
theorem SameRound.of_queues {k l : Counter} {a w b : List Contribution}
    (h : SameRound { k with applied := a, waiting := w, behind := b } l) : SameRound k l := ⟨h.seen, h.cnt, h.det, h.landed⟩

theorem applyBehind_keeps (key line fuel : Nat) (s : State) (k : Counter) :
    BytesOnly s (s.applyBehind key line fuel k).1 ∧ SameRound k (s.applyBehind key line fuel k).2 := by
  induction fuel generalizing s k with
  | zero => exact ⟨.refl s, ⟨rfl, rfl, rfl, rfl⟩⟩
  | succ n ih =>
    unfold State.applyBehind
    dsimp only
    split
    · exact ⟨.refl s, ⟨rfl, rfl, rfl, rfl⟩⟩
    · next x _ =>
      obtain ⟨hs, hk⟩ := ih (s.applyElems key line x) { k with behind := k.behind.erase x }
      exact ⟨(bytesOnly_applyElems ..).trans hs, hk.of_queues⟩

theorem applyReady_keeps (key line fuel : Nat) (s : State) (k : Counter) :
    BytesOnly s (s.applyReady key line fuel k).1 ∧ SameRound k (s.applyReady key line fuel k).2 := by
  induction fuel generalizing s k with
  | zero => exact ⟨.refl s, ⟨rfl, rfl, rfl, rfl⟩⟩
  | succ n ih =>
    unfold State.applyReady
    split
    · exact ⟨.refl s, ⟨rfl, rfl, rfl, rfl⟩⟩
    · next x _ =>
      obtain ⟨hs, hk⟩ := applyBehind_keeps key line k.behind.length (s.applyElems key line x)
        { k with applied := k.applied ++ [x], waiting := k.waiting.filter (fun y => y.idx != x.idx) }
      obtain ⟨hs', hk'⟩ := ih _ _
      exact ⟨((bytesOnly_applyElems ..).trans hs).trans hs', hk.of_queues.trans hk'⟩

theorem applied_keeps (s : State) (key line : Nat) (det : Bool) (k : Counter) (x : Contribution) :
    BytesOnly s (s.applied key line det k x).1 ∧ SameRound k (s.applied key line det k x).2 := by
  unfold State.applied
  cases det
  · exact ⟨bytesOnly_applyElems .., ⟨rfl, rfl, rfl, rfl⟩⟩
  · obtain ⟨hs, hk⟩ := applyReady_keeps key line (k.waiting.length + 1) s { k with waiting := k.waiting ++ [x] }
    exact ⟨hs, hk.of_queues⟩

theorem order_of_bytesOnly {s t : State} (h : BytesOnly s t) : t.order = s.order := by
  obtain ⟨m, l, b, rfl⟩ := h
  rfl

/-- The first contribution of a round of several opens the counter. -/
theorem contribute_opens {s : State} (key line : Nat) {cnt : Nat} (det : Bool) (x : Contribution) (hc : s.order.counters = []) (hn : 1 < cnt) :
    ∃ k, (s.contribute key line cnt det x).order.counters = [(line, k)] ∧ k.seen = 1 ∧ k.cnt = cnt ∧ k.det = det ∧ k.landed = [x.idx] := by
  obtain ⟨hs, hk⟩ := applied_keeps s key line det ((s.roundOf line cnt det).counted x) x
  have hround : s.roundOf line cnt det = { cnt := cnt, det := det, seen := 0, applied := [], waiting := [], landed := [] } := by
    unfold State.roundOf; rw [hc]; rfl
  rw [contribute_eq]
  dsimp only
  generalize s.applied key line det ((s.roundOf line cnt det).counted x) x = r at hs hk ⊢
  rw [hround] at hk
  have hseen : r.2.seen = 1 := hk.seen
  rw [if_pos (by omega), order_of_bytesOnly hs, hc]
  exact ⟨r.2, rfl, hseen, hk.cnt, hk.det, hk.landed⟩

/-! The ready flag -/

theorem widen_withOrder (s : State) (k : Clock) (inst : Scope × Nat) :
    ∃ held, s.widen k inst = s.withOrder { s.order with held := held } := by
  unfold State.widen State.widenFrom
  split
  · exact ⟨s.order.held, rfl⟩
  · exact ⟨_, rfl⟩

/-- The release of one contributor at the ready flag changes the record of accesses alone, where it stands then. -/
theorem flagRelease_eq (line : Nat) (s : State) (x : Contribution) : ∃ o, s.flagRelease line x = s.withOrder o ∧
    o.counters = s.order.counters ∧ ∃ r ∈ o.releases, r.lo = 64 * line + 56 ∧ r.len = 8 ∧ r.inst = agentInst x.scope x.agent ∧
      r.home = agentHome x.agent ∧ r.clock = x.clock := by
  unfold State.flagRelease
  dsimp only
  obtain ⟨held, hw⟩ := widen_withOrder ((s.withOrder _).addRelease (64 * line + 56) 8 x.agent x.scope x.clock) x.clock (agentInst x.scope x.agent)
  rw [hw]
  exact ⟨_, rfl, rfl, _, List.mem_append_right _ (List.mem_singleton.2 rfl), rfl, rfl, rfl, rfl, rfl⟩

theorem foldl_flagRelease_eq (line : Nat) (xs : List Contribution) (s : State) :
    ∃ o, xs.foldl (State.flagRelease line) s = s.withOrder o ∧ o.counters = s.order.counters := by
  induction xs generalizing s with
  | nil => exact ⟨s.order, rfl, rfl⟩
  | cons x xs ih =>
    obtain ⟨o, ho, hc, -⟩ := flagRelease_eq line s x
    obtain ⟨o', ho', hc'⟩ := ih (s.flagRelease line x)
    refine ⟨o', ?_, ?_⟩
    · rw [List.foldl_cons, ho', ho]; rfl
    · rw [hc', ho]; exact hc

/-- The elements of a contribution leave the ready flag's bytes. -/
theorem readKey_applyElems {s : State} (h : Memory.wf s.mem = true) (key : Nat) {line : Nat} (x : Contribution) (hd : isDram (64 * line) = true)
    (ht : s.offTables (64 * line) 64) (hx : ∀ e ∈ x.elems, e.1 + e.2.1 ≤ 56) :
    (s.applyElems key line x).readKey key (64 * line + 56) 8 = s.readKey key (64 * line + 56) 8 := by
  unfold State.applyElems
  generalize x.elems = es at hx
  induction es generalizing s with
  | nil => rfl
  | cons e es ih =>
    have he := hx e (List.mem_cons_self ..)
    have hde : isDram (64 * line + e.1) = true := isDram_line (by omega) hd
    rw [List.foldl_cons, ih (State.wf_writePhys h ..) ((State.offTables_of_bytesOnly (bytesOnly_writePhys ..)).2 ht)
      (fun f hf => hx f (List.mem_cons_of_mem _ hf))]
    refine State.readKey_writePhys_apart h key hde ?_ (State.offTables_within ht (by omega) ?_) (by omega) (by omega) ?_ <;>
    · rw [leBytes_length]
      omega

@[simp] theorem order_withOrder (s : State) (o : Order) : (s.withOrder o).order = o := rfl

@[simp] theorem withOrder_withOrder (s : State) (o p : Order) : (s.withOrder o).withOrder p = s.withOrder p := rfl

theorem readKey_withOrder (s : State) (o : Order) (key pa n : Nat) : (s.withOrder o).readKey key pa n = s.readKey key pa n := rfl

theorem raiseFlag_withOrder (s : State) (o : Order) (key line : Nat) : (s.withOrder o).raiseFlag key line = (s.raiseFlag key line).withOrder o := by
  unfold State.raiseFlag
  rw [readPhys_withOrder, writePhys_withOrder]

/-- The ready flag reads one more than before. -/
theorem readKey_raiseFlag {s : State} (h : Memory.wf s.mem = true) (key : Nat) {line : Nat} (hd : isDram (64 * line) = true)
    (ht : s.offTables (64 * line) 64) :
    (s.raiseFlag key line).readKey key (64 * line + 56) 8 = leBytes 8 (leNat (s.readKey key (64 * line + 56) 8) + 1) := by
  have hflag : isDram (64 * line + 56) = true := isDram_line (by omega) hd
  unfold State.raiseFlag
  rw [State.readPhys_dram hflag]
  generalize hb : leBytes 8 (leNat (s.readKey key (64 * line + 56) 8) + 1) = bs
  have hlen : bs.length = 8 := by rw [← hb, leBytes_length]
  have hw := State.readKey_writePhys h key (bs := bs) hflag (by omega) (State.offTables_within ht (by omega) (by omega))
  rwa [hlen] at hw

theorem roundOf_none {s : State} (hc : s.order.counters = []) (line cnt : Nat) (det : Bool) :
    s.roundOf line cnt det = { cnt := cnt, det := det, seen := 0, applied := [], waiting := [], landed := [] } := by
  unfold State.roundOf
  rw [hc]
  rfl

/-- A round of one contribution completes at once. -/
theorem contribute_only {s : State} (key line : Nat) (x : Contribution) (hc : s.order.counters = []) :
    s.contribute key line 1 false x = (((s.applyElems key line x).withCounters []).raiseFlag key line).flagRelease line x := by
  rw [contribute_eq, roundOf_none hc]
  change [x].foldl (State.flagRelease line) (((s.applyElems key line x).withCounters
    ((s.applyElems key line x).order.counters.filter _)).raiseFlag key line) = _
  rw [order_of_bytesOnly (bytesOnly_applyElems ..), hc]
  rfl

theorem wf_applyElems {s : State} (h : Memory.wf s.mem = true) (key line : Nat) (x : Contribution) :
    Memory.wf (s.applyElems key line x).mem = true := State.wf_foldl _ (fun _ _ hs => State.wf_writePhys hs ..) _ s h

/-- A round of one contribution leaves no counter, adds one to the flag and records the release of its contributor. -/
theorem contribute_only_spec {s : State} (key line : Nat) (x : Contribution) (h : Memory.wf s.mem = true) (hd : isDram (64 * line) = true)
    (ht : s.offTables (64 * line) 64) (hc : s.order.counters = []) (hx : ∀ e ∈ x.elems, e.1 + e.2.1 ≤ 56) :
    let t := s.contribute key line 1 false x
    let flag := 64 * line + 56
    t.order.counters = [] ∧ t.readKey key flag 8 = leBytes 8 (leNat (s.readKey key flag 8) + 1) ∧
      ∃ r ∈ t.order.releases, r.lo = flag ∧ r.len = 8 ∧ r.inst = agentInst x.scope x.agent ∧ r.home = agentHome x.agent ∧
        r.clock = x.clock := by
  dsimp only
  rw [contribute_only key line x hc, State.withCounters, raiseFlag_withOrder]
  obtain ⟨o, ho, hcounters, hrelease⟩ :=
    flagRelease_eq line (((s.applyElems key line x).raiseFlag key line).withOrder { (s.applyElems key line x).order with counters := [] }) x
  rw [ho]
  refine ⟨hcounters, ?_, hrelease⟩
  rw [readKey_withOrder, readKey_withOrder, readKey_raiseFlag (wf_applyElems h ..) key hd
    ((State.offTables_of_bytesOnly (bytesOnly_applyElems ..)).2 ht), readKey_applyElems h key x hd ht hx]

/-- With `.det` a contribution of index 1 waits for that of index 0. -/
theorem contribute_det_waits {s : State} (key line : Nat) {y : Contribution} (hc : s.order.counters = []) (hy : y.idx = 1) :
    s.contribute key line 2 true y =
      s.withCounters [(line, { cnt := 2, det := true, seen := 1, applied := [], waiting := [y], landed := [y.idx] })] := by
  have happlied (k : Counter) (hk : k.waiting = []) (ha : k.applied = []) : s.applied key line true k y = (s, { k with waiting := [y] }) := by
    unfold State.applied
    rw [if_pos rfl, hk]
    simp [State.applyReady, ha, hy]
  rw [contribute_eq, roundOf_none hc, happlied _ rfl rfl]
  simp [Counter.counted, hc]

/-- With `.det` the contribution of index 0 is applied, and then that of index 1. -/
theorem applied_det_pair {s : State} (key line : Nat) {x y : Contribution} (hx : x.idx = 0) (hy : y.idx = 1) {k : Counter}
    (hw : k.waiting = [y]) (ha : k.applied = []) (hb : k.behind = []) :
    s.applied key line true k x = ((s.applyElems key line x).applyElems key line y, { k with applied := [x, y], waiting := [] }) := by
  unfold State.applied
  rw [if_pos rfl, hw]
  simp [State.applyReady, State.applyBehind, ha, hb, hx, hy]

/-- A round of two with `.det` applies the lower index first, and the flag last. -/
theorem contribute_det_pair {s : State} (key line : Nat) (x y : Contribution) (hc : s.order.counters = []) (hx : x.idx = 0) (hy : y.idx = 1) :
    let t := s.contribute key line 2 true y
    let u := t.contribute key line 2 true x
    let w := (s.applyElems key line x).applyElems key line y
    t.mem = s.mem ∧ u.order.counters = [] ∧ u.withOrder s.order = (w.raiseFlag key line).withOrder s.order := by
  dsimp only
  rw [contribute_det_waits key line hc hy]
  refine ⟨rfl, ?_⟩
  let k : Counter := { cnt := 2, det := true, seen := 1, applied := [], waiting := [y], landed := [y.idx] }
  have hround : (s.withCounters [(line, k)]).roundOf line 2 true = k := by
    unfold State.roundOf State.withCounters State.withOrder
    simp
  have hfull : ¬ (k.counted x).seen < 2 := Nat.lt_irrefl 2
  rw [contribute_eq, hround, applied_det_pair (k := k.counted x) key line hx hy rfl rfl rfl]
  dsimp only
  rw [if_neg hfull]
  simp only [State.withCounters, applyElems_withOrder, raiseFlag_withOrder, order_withOrder, withOrder_withOrder]
  obtain ⟨o, ho, hcounters⟩ := foldl_flagRelease_eq line [x, y]
    ((((s.applyElems key line x).applyElems key line y).raiseFlag key line).withOrder
      { s.order with counters := List.filter (fun p => p.1 != line) [(line, k)] })
  rw [ho]
  simp only [order_withOrder, withOrder_withOrder, and_true]
  rw [hcounters, order_withOrder]
  simp

/-- When a contribution is refused (R267). -/
theorem refuses_iff (s : State) (line cnt idx : Nat) (det : Bool) : s.refuses line cnt idx det = true ↔
    (det = true ∧ cnt ≤ idx) ∨
      ∃ q, s.order.counters.find? (fun p => p.1 == line) = some q ∧
        (q.2.cnt ≠ cnt ∨ q.2.det ≠ det ∨ (det = true ∧ idx ∈ q.2.landed)) := by
  unfold State.refuses
  cases s.order.counters.find? (fun p => p.1 == line) with
  | none => simp
  | some q => simp [or_assoc]

end Sys2Proof.Machine
end

section
/-! SUPPORT. Accesses and results that land without an instruction (R26, R198, R254, R266). -/
namespace Sys2Proof.Machine

/-! What recording an access, a release and a stamp leave -/

theorem learn_withOrder (s : State) (a : Agent) (sc : Scope) (k : Clock) : ∃ o, s.learn a sc k = s.withOrder o := by
  have hstep (t : State) (w : Scope) : ∃ o, (if scopeNum w ≤ scopeNum sc then
      t.withOrder { t.order with wide := SMap.set {} t.order.wide (wideKey a w) ((t.knownAt a w).join k) } else t) = t.withOrder o := by
    split
    · exact ⟨_, rfl⟩
    · exact ⟨t.order, rfl⟩
  obtain ⟨o, ho⟩ := hstep s .quire
  obtain ⟨p, hp⟩ := hstep (s.withOrder o) .vol
  refine ⟨p, ?_⟩
  rw [← withOrder_withOrder s o p, ← hp, ← ho]
  rfl

/-- A context's access, once recorded, has changed its region and the record of accesses alone. -/
theorem record_ctx (s : State) {t : Touch} {c e : Nat} {r : Role} (ht : t.agent = .ctx c r e) :
    ∃ f o, s.record t = (s.modCtx c r f).withOrder o := by
  have hfoot : ∃ f, s.footprint t = s.modCtx c r f := by
    unfold State.footprint
    rw [ht]
    exact ⟨_, rfl⟩
  obtain ⟨f, hf⟩ := hfoot
  obtain ⟨o, ho⟩ := learn_withOrder (s.footprint t) t.agent ((s.footprint t).scopeFor t.agent)
    { vc := [(t.agent.code, (s.footprint t).timeOf t.agent)] }
  unfold State.record State.performed
  dsimp only
  rw [ho, hf]
  exact ⟨f, _, rfl⟩

theorem record_access (s : State) (w sync : Bool) (spans : List (Nat × Nat)) :
    ∃ f o, s.record (s.access w sync spans) = (s.modCtx s.cur.core s.cur.role f).withOrder o := record_ctx s rfl

theorem me_modCtx (s : State) (c : Nat) (r : Role) (f : Ctx → Ctx) : (s.modCtx c r f).me = s.me := by
  have hepoch (j : Nat) : ((s.modCtx c r f).core j).epoch = (s.core j).epoch := by
    by_cases hj : j = c
    · subst hj
      rw [State.core_modCtx_self, Core.setCtx_epoch]
    · rw [State.core_modCtx_ne s r f hj]
  unfold State.me State.agentNow
  rw [hepoch]
  rfl

theorem me_withOrder (s : State) (o : Order) : (s.withOrder o).me = s.me := rfl

theorem me_of_bytesOnly {s t : State} (h : BytesOnly s t) : t.me = s.me := by
  obtain ⟨m, l, b, rfl⟩ := h
  rfl

/-- A release of pending FENCEs changes the context and the record of accesses alone. -/
theorem storeReleases_none (s : State) (spans : List (Nat × Nat)) :
    ∃ f o, s.storeReleases none true spans = (s.modCtx s.cur.core s.cur.role f).withOrder o := by
  have hput (a : Agent) (sc : Scope) (k : Clock) (u : State) : ∃ o, spans.foldl (fun u p => u.addRelease p.1 p.2 a sc k) u = u.withOrder o := by
    induction spans generalizing u with
    | nil => exact ⟨u.order, rfl⟩
    | cons p ps ih =>
      obtain ⟨o, ho⟩ := ih (u.addRelease p.1 p.2 a sc k)
      exact ⟨o, ho⟩
  have hfold (a : Agent) (fs : List (Scope × Clock)) (u : State) : ∃ o,
      fs.foldl (fun u f => ((spans.foldl (fun u p => u.addRelease p.1 p.2 a f.1 f.2) u).learn a f.1 f.2).widen f.2 (agentInst f.1 a)) u =
        u.withOrder o := by
    induction fs generalizing u with
    | nil => exact ⟨u.order, rfl⟩
    | cons f fs ih =>
      obtain ⟨o1, h1⟩ := hput a f.1 f.2 u
      obtain ⟨o2, h2⟩ := learn_withOrder (u.withOrder o1) a f.1 f.2
      obtain ⟨held, h3⟩ := widen_withOrder ((u.withOrder o1).withOrder o2) f.2 (agentInst f.1 a)
      obtain ⟨o, ho⟩ := ih (((u.withOrder o1).withOrder o2).withOrder { ((u.withOrder o1).withOrder o2).order with held := held })
      refine ⟨o, ?_⟩
      rw [List.foldl_cons, h1, h2, h3, ho]
      rfl
  obtain ⟨o, ho⟩ := hfold s.me (s.ctx s.cur.core s.cur.role).fences (s.modCtx s.cur.core s.cur.role (fun x => { x with fences := [] }))
  exact ⟨_, o, ho⟩

theorem me_storeReleases_none (s : State) (spans : List (Nat × Nat)) : (s.storeReleases none true spans).me = s.me := by
  obtain ⟨f, o, h⟩ := storeReleases_none s spans
  rw [h, me_withOrder, me_modCtx]

theorem me_record_access (s : State) (w sync : Bool) (spans : List (Nat × Nat)) : (s.record (s.access w sync spans)).me = s.me := by
  obtain ⟨f, o, h⟩ := record_access s w sync spans
  rw [h, me_withOrder, me_modCtx]

theorem cur_record_access (s : State) (w sync : Bool) (spans : List (Nat × Nat)) : (s.record (s.access w sync spans)).cur = s.cur := by
  obtain ⟨f, o, h⟩ := record_access s w sync spans
  rw [h]
  rfl

theorem badIn_record_access (s : State) (w sync : Bool) (spans ps : List (Nat × Nat)) :
    (s.record (s.access w sync spans)).badIn ps = s.badIn ps := by
  obtain ⟨f, o, h⟩ := record_access s w sync spans
  rw [h]
  rfl

/-! A store at its home -/

/-- A write at one part. -/
theorem writeParts_phys (s : State) (pa : Nat) (data : List Byte) : s.writeParts [physPart pa data.length] data = s.writePhys 0 pa data := by
  change s.writePhys 0 pa (data.take data.length) = _
  rw [List.take_length]

theorem holdable_phys (pa n : Nat) : (physPart pa n).leaf.holdable = isDram pa := rfl

theorem exec_homeAccess {s : State} {pa : Nat} {data : List Byte} (hdata : data ≠ []) (hlo : s.isMemory pa = true)
    (hhi : s.isMemory (pa + data.length - 1) = true) (hp : s.pinned .firmware pa data.length = false)
    (ha : s.admitsInOrder true false [(pa, data.length)]) :
    let t := s.access true false [(pa, data.length)]
    let u := (s.record t).writePhys 0 pa data
    exec (.homeAccess pa data) s = .next (if isDram pa then u.hold t (some u.wscope) else u) := by
  intro t u
  have hme : u.me = s.me := (me_of_bytesOnly (bytesOnly_writePhys ..)).trans (me_record_access ..)
  have hempty : data.isEmpty = false := by simpa using hdata
  change execHomeAccess pa data s = _
  unfold execHomeAccess
  rw [hempty, hlo, hhi, hp, globalWrite_of (rel := none) (ps := [physPart pa data.length]) _ ha (fun h => Bool.noConfusion h)]
  dsimp only
  rw [writeParts_phys]
  change State.homeAnswers s (.done (State.holdParts u u.wscope false [physPart pa data.length])) = _
  unfold State.holdParts State.homeAnswers
  rw [List.filter_cons, holdable_phys]
  cases isDram pa
  · rfl
  · rw [hme]
    rfl

/-! A contribution at its home -/

theorem fencedSettled_of {s : State} (k : Res) (h : s.mayRelease s.fenced) : s.fencedSettled k = k := by
  unfold State.fencedSettled
  split
  · next hf => exact settled_of k (h hf)
  · rfl

theorem fencedSettled_owes {s : State} (k : Res) (hf : s.fenced = true) (ho : s.owes s.me = true) : s.fencedSettled k = .sleep s .behind := by
  unfold State.fencedSettled
  rw [if_pos hf, settled_owes k ho]

/-- A contribution to memory that is not pinned is made as `redcAt` says. -/
theorem exec_redcLand {s : State} {pa : Nat} {ty : STy} (halign : pa % styBytes ty = 0) (hflag : pa % 64 < 56) (hm : s.isMemory pa = true)
    (hp : s.pinned .firmware pa (styBytes ty) = false) (op : Rop) (det : Bool) (sc : Scope) (cnt idx : Nat) (v : Word) :
    exec (.redcLand pa op ty det sc cnt idx v) s = s.homeAnswers
      (s.redcAt (physPart pa (styBytes ty)) (BitVec.ofNat 64 pa) op ty det sc cnt idx (v.toNat % 2 ^ (8 * styBytes ty))) := by
  change execRedcLand pa op ty det sc cnt idx v s = _
  unfold execRedcLand
  dsimp only
  rw [if_neg (by simp [hm]), if_neg (by omega), hp]
  rfl

/-- What a contribution that is admitted does at its home, once its access is recorded. -/
theorem redcAt_of {s : State} (p : Part) (ea : Word) (op : Rop) (ty : STy) (det : Bool) (sc : Scope) (cnt idx v : Nat)
    (hr : s.mayRelease s.fenced) (ha : s.admits true true [(p.pa, p.len)]) (hb : s.badIn [(p.pa, p.len)] = none) :
    let u := s.record (s.access true true [(p.pa, p.len)])
    let flag := 64 * lineOf p.pa + 56
    (u.refuses (lineOf p.pa) cnt idx det = true → s.redcAt p ea op ty det sc cnt idx v = .trap 0x02 0 0 0) ∧
    (u.refuses (lineOf p.pa) cnt idx det = false →
      (u.completes (lineOf p.pa) cnt = true → u.pinned (if u.cur.role = .F then .firmware else .trio) flag 8 = false ∧
        u.flagClash u.me (lineOf p.pa) = none ∧ u.badIn [(flag, 8)] = none) →
      let w := u.storeReleases none true [(p.pa, p.len)]
      s.redcAt p ea op ty det sc cnt idx v = .done ((w.stamp w.me).1.contribute p.leaf.key (lineOf p.pa) cnt det
        { idx := idx, agent := u.me, scope := sc, clock := (w.stamp w.me).2, rop := op, sty := ty, elems := [(p.pa % 64, p.len, v)] })) := by
  dsimp only
  have hgrant : s.redcAt p ea op ty det sc cnt idx v = _ := (fencedSettled_of _ hr).trans (admit_of _ _ ha)
  rw [hgrant, badIn_record_access, hb]
  generalize hu : s.record (s.access true true [(p.pa, p.len)]) = u
  have hme : (u.storeReleases none true [(p.pa, p.len)]).me = u.me := me_storeReleases_none ..
  have hcur : u.cur = s.cur := hu ▸ cur_record_access ..
  rw [hcur]
  dsimp only
  refine ⟨fun hrefuses => if_pos hrefuses, fun hrefuses hflag => ?_⟩
  rw [hrefuses, if_neg Bool.false_ne_true]
  cases hc : u.completes (lineOf p.pa) cnt with
  | false =>
    rw [← hme]
    rfl
  | true =>
    obtain ⟨hpin, hclash, hbad⟩ := hflag hc
    rw [hpin, hclash, hbad, ← hme]
    rfl

/-! A variable-latency result -/

/-- No landing result stays under way. -/
theorem not_due_of_stays {due : Pend → Bool} {es : List Pend} {e : Pend} (h : e ∈ stays due es) : due e = false := by
  induction es with
  | nil => cases h
  | cons x es ih =>
    unfold stays at h
    split at h
    · exact ih h
    · next hx =>
      split at h
      · exact ih h
      · rcases List.mem_cons.1 h with rfl | h
        · simpa using hx
        · exact ih h

/-- The youngest of results that are all equal. -/
theorem youngest_of_all {old : Word} {es : List Pend} {p : Pend} (hp : p ∈ es) (hall : ∀ e ∈ es, e = p) :
    youngest old es = BitVec.ofNat 64 p.value := by
  unfold youngest
  have hne := List.ne_nil_of_mem hp
  rw [List.getLast?_eq_some_getLast hne, hall _ (List.getLast_mem hne)]

/-- The oldest variable-latency result lands in its register and is under way no more. -/
theorem exec_variableResultLand {s : State} {es rest : List Pend} {p : Pend} {r : Role} {n : Nat} (hpend : (s.core s.cur.core).pend = es ++ p :: rest)
    (hes : ∀ e ∈ es, e.ready.isSome = true) (hp : p.ready = none) (ht : p.target = .g r n) (hn : 0 < n) (hlt : n < 32) :
    ∃ t, exec .variableResultLand s = .next t ∧ (t.ctx s.cur.core r).getG (BitVec.ofNat 5 n) = BitVec.ofNat 64 p.value ∧
      p ∉ (t.core s.cur.core).pend := by
  have hfind : (s.core s.cur.core).pend.find? (fun e => e.ready.isNone) = some p := by
    rw [hpend, List.find?_append, List.find?_eq_none.2 (fun e he => by simp [Option.isSome_iff_ne_none.1 (hes e he)]), List.find?_cons, hp]
    rfl
  have hreg : BitVec.ofNat 5 n ≠ 0 := fun h => by
    have := congrArg BitVec.toNat h
    simp at this
    omega
  refine ⟨s.modCore s.cur.core (fun k => k.landIf (fun e => e == p)), ?_, ?_, ?_⟩
  · change execVariableResultLand s = _
    unfold execVariableResultLand
    rw [hfind]
  · rw [State.ctx, State.core_modCore_self, Core.landIf_getG _ _ r hreg]
    refine youngest_of_all (List.mem_filter.2 ⟨List.mem_of_find?_eq_some hfind, ?_⟩) fun e he => ?_
    · simp [Pend.names, ht]
    · have hdue := (List.mem_filter.1 he).2
      simp only [Bool.and_eq_true, beq_iff_eq] at hdue
      exact hdue.1
  · rw [State.core_modCore_self, Core.landIf_pend]
    exact fun hmem => by simpa using not_due_of_stays hmem

/-! Lane queues -/

/-- A lane has at most four items queued and wanted, unless it wants none. -/
theorem Lane.wants_le (l : Lane) : l.wants = 0 ∨ l.items.length + l.wants ≤ 4 := by
  have h : l.wants ≤ 4 - l.items.length := Nat.min_le_left ..
  omega

/-- A walk from 1 on ends with the last number before the first that fails. -/
theorem length_takeWhile_succ {p : Nat → Bool} {m w : Nat} (hm : m ≤ w) (hok : ∀ n, 1 ≤ n → n ≤ m → p n = true)
    (hstop : m < w → p (m + 1) = false) : (((List.range w).map (· + 1)).takeWhile p).length = m := by
  obtain ⟨d, rfl⟩ := Nat.exists_eq_add_of_le hm
  have hrest : ((List.range d).map (fun i => m + i + 1)).takeWhile p = [] := by
    cases d with
    | zero => rfl
    | succ d => rw [List.range_succ_eq_map, List.map_cons, List.takeWhile_cons, hstop (by omega)]; rfl
  rw [List.range_add, List.map_append, List.map_map, List.takeWhile_append_of_pos]
  · rw [show ((· + 1) ∘ fun i => m + i) = fun i => m + i + 1 from rfl, hrest]
    simp
  · intro n hn
    obtain ⟨i, hi, rfl⟩ := List.mem_map.1 hn
    exact hok _ (by omega) (by have := List.mem_range.1 hi; omega)

theorem refill_candidates {w : Nat} (hw : w ≤ 4) :
    (List.range 5).filter (fun m => decide (0 < m) && decide (m ≤ w)) = (List.range w).map (· + 1) := by
  obtain rfl | rfl | rfl | rfl | rfl : w = 0 ∨ w = 1 ∨ w = 2 ∨ w = 3 ∨ w = 4 := by omega
  all_goals rfl

/-- A lane fetches up to the first element that cannot be read. -/
theorem refills_eq {s : State} {c i m : Nat} (hm : m ≤ ((s.core c).lane i).wants) (hw : ((s.core c).lane i).wants ≤ 4)
    (hok : ∀ n, 1 ≤ n → n ≤ m → s.fetchable c i n = true) (hstop : m < ((s.core c).lane i).wants → s.fetchable c i (m + 1) = false) :
    s.refills c i = m := by
  unfold State.refills
  rw [refill_candidates hw]
  exact length_takeWhile_succ hm hok hstop

/-- A lane fetches no more than it wants. -/
theorem refills_le {s : State} {c i : Nat} : s.refills c i ≤ ((s.core c).lane i).wants := by
  have hw : ((s.core c).lane i).wants ≤ 4 := by
    have := Lane.wants_le ((s.core c).lane i)
    omega
  unfold State.refills
  rw [refill_candidates hw]
  exact Nat.le_trans (List.takeWhile_prefix _).length_le (Nat.le_of_eq (by rw [List.length_map, List.length_range]))

/-- What a refill leaves of its lane. -/
theorem refillLane_lane (s : State) (c i : Nat) : ((s.refillLane c i).core c).lane i =
    (let l := (s.core c).lane i
     { l with items := l.items ++ lanesOf 32 (s.refills c i) (leNat (s.raw (spAddr c l.nextAddr) (4 * s.refills c i))) }) := by
  unfold State.refillLane State.modLane
  dsimp only
  obtain ⟨f, o, hrecord⟩ := record_ctx s (c := c) (e := (s.core c).epoch) (r := .C)
    (t := ⟨.ctx c .C (s.core c).epoch, false, false, [(spAddr c ((s.core c).lane i).nextAddr, 4 * s.refills c i)], none⟩) rfl
  have hlane : (((s.modCtx c .C f).withOrder o).core c).lane i = (s.core c).lane i := by
    have hcore : ((s.modCtx c .C f).withOrder o).core c = (s.core c).setCtx .C (f ((s.core c).ctx .C)) := State.core_modCtx_self ..
    rw [hcore]
    rfl
  rw [hrecord, State.core_modCore_self, Core.lane, SMap.get_set_self, hlane]
  rfl

end Sys2Proof.Machine

namespace Sys2Proof.Settled
open Sys2Proof.Machine

/-- Settles O46: the accesses at the home through what admits them, the rounds through what a contribution leaves of its counter, the lanes
through the walk over the elements that they want. -/
theorem landings : Obligations.Landings := by
  refine ⟨?_, ?_, ⟨refuses_iff, fun s key line cnt det x => contribute_opens key line det x, fun s key line x => contribute_only_spec key line x,
      fun s key line x y => contribute_det_pair key line x y⟩,
    fun s es rest p r n => exec_variableResultLand, fun s => rfl, ?_, fun s c i hok => ?_⟩
  · intro s pa data hdata hlo hhi span t hp ha u
    refine ⟨exec_homeAccess hdata hlo hhi hp ha, fun hwf hd hn ht => ?_⟩
    obtain ⟨f, o, hrecord⟩ := record_access s true false span
    refine State.readKey_writePhys ?_ 0 hd hn ?_
    · rw [hrecord]
      exact hwf
    · rw [hrecord]
      exact ht
  · intro s pa op ty det sc cnt idx v halign hflag hm hp span flag
    rw [exec_redcLand halign hflag hm hp]
    refine ⟨fun hf ho => ?_, fun hr ha hb => ?_⟩
    · rw [State.redcAt, fencedSettled_owes _ hf ho]
      rfl
    · obtain ⟨hrefused, hlands⟩ := redcAt_of (physPart pa (styBytes ty)) (BitVec.ofNat 64 pa) op ty det sc cnt idx
        (v.toNat % 2 ^ (8 * styBytes ty)) hr ha hb
      refine ⟨fun hfree hdone => ?_, fun hno => ?_⟩
      · exact congrArg s.homeAnswers (hlands hfree hdone)
      · exact congrArg s.homeAnswers (hrefused hno)
  · intro s c i m l hm hw hok hstop
    have hrefills := refills_eq hm hw hok hstop
    refine ⟨?_, ?_⟩
    · rw [State.refillOk, hrefills]
      exact decide_eq_true_iff
    · rw [refillLane_lane, hrefills]
  · rw [State.refillOk, decide_eq_true_eq] at hok
    have hle := refills_le (s := s) (c := c) (i := i)
    have hw := Lane.wants_le ((s.core c).lane i)
    rw [refillLane_lane]
    dsimp only
    rw [List.length_append, lanesOf_length]
    omega

end Sys2Proof.Settled
end

section
/-! SUPPORT. Moves and permutations of lanes, cells, hashes and Morton codes: the lanes that they write (R132, R133, R142 to R144). -/
namespace Sys2Proof.Machine

/-! Lanes under the mask bit of their number -/

theorem etyLanes_pos (ty : ETy) : 0 < etyLanes ty := by cases ty <;> decide

theorem getD_map_range {α : Type} (f : Nat → α) {n i : Nat} (d : α) (hi : i < n) : ((List.range n).map f).getD i d = f i := by
  simp [List.getD_eq_getElem?_getD, hi]

/-- An instruction whose body writes the lanes `vs` where the mask bit with the number of the lane is set. -/
theorem bitOp_puts {h : Hdr} {uses defs : List Target} {k : KReg} {d : VReg} {bits n : Nat} {vs : State → List Nat} {i : Instr} {s : State}
    {f : State → Nat → Nat}
    (he : exec i s = issueV h uses defs (fun t =>
      .done (t.putV d (laneMask bits (activity (t.kreg k) n 1)) (packLanes bits (vs t)) (some vecLat))) s)
    (hf : ∀ t j, j < n → (vs t).getD j 0 % 2 ^ bits = f t j % 2 ^ bits) :
    PutsLanes h (uses ++ defs) i s bits n (fun t => t.bit k) (some 4) d f :=
  putsLanes_of he (fun t => writesLanes_of (activity_length _ _ _) (fun _ hj => State.getD_bit hj) (fun j hj _ => hf t j hj))

/-- The same where each lane is computed from its number. -/
theorem bitRange_puts {h : Hdr} {uses defs : List Target} {k : KReg} {d : VReg} {bits n : Nat} {g : State → Nat → Nat} {i : Instr} {s : State}
    {f : State → Nat → Nat}
    (he : exec i s = issueV h uses defs (fun t =>
      .done (t.putV d (laneMask bits (activity (t.kreg k) n 1)) (packLanes bits ((List.range n).map (g t))) (some vecLat))) s)
    (hf : ∀ t j, j < n → g t j = f t j) : PutsLanes h (uses ++ defs) i s bits n (fun t => t.bit k) (some 4) d f :=
  bitOp_puts he (fun t j hj => by rw [getD_map_range _ _ hj, hf t j hj])

/-- A row computed from a scalar register (R132). -/
theorem fromScalar_puts {h : Hdr} {k : KReg} {ty : ETy} {d : VReg} {a : GReg} {g : Nat → Nat → Nat} {i : Instr} {s : State}
    (he : exec i s = fromScalar h k ty d a g s) :
    PutsLanes h ([kT k, s.gT a] ++ s.vT d) i s (etyBits ty) (etyLanes ty) (fun t => t.bit k) (some 4) d (fun t j => g (t.g a).toNat j) :=
  bitRange_puts he (fun _ _ _ => rfl)

/-- What VPERM puts (R133). -/
theorem exec_vperm (h : Hdr) (k : KReg) (ty : ETy) (d a : VReg) (op : PermOp) (s : State) : exec (.vperm h k ty d a op) s =
    issueV h (kT k :: (s.vT a ++ permUses s op)) (s.vT d) (fun t =>
      .done (t.putV d (laneMask (etyBits ty) (activity (t.kreg k) (etyLanes ty) 1))
        (packLanes (etyBits ty) ((List.range (etyLanes ty)).map (permLane t op (etyBits ty) (etyLanes ty) (t.v a)))) (some vecLat))) s := by
  change execVperm h k ty d a op s = _
  unfold execVperm
  rfl

/-! One lane -/

/-- A write of lane `j` alone. -/
theorem writesLanes_single {bits n j : Nat} (hj : j < n) (x : Nat) :
    WritesLanes bits n (fun i => i == j) ((2 ^ bits - 1) * 2 ^ (j * bits)) (x % 2 ^ bits * 2 ^ (j * bits)) (fun _ => x) := by
  refine ⟨?_, fun i hi b hb => ⟨?_, fun ho => ?_⟩⟩
  · have hpos := Nat.two_pow_pos bits
    calc (2 ^ bits - 1) * 2 ^ (j * bits)
      _ < 2 ^ bits * 2 ^ (j * bits) := Nat.mul_lt_mul_of_pos_right (by omega) (Nat.two_pow_pos _)
      _ = 2 ^ (bits * (j + 1)) := by rw [← Nat.pow_add, Nat.mul_succ, Nat.mul_comm bits j, Nat.add_comm]
      _ ≤ 2 ^ (bits * n) := Nat.pow_le_pow_right (by decide) (Nat.mul_le_mul_left _ hj)
  · rw [Nat.testBit_mul_two_pow, Nat.testBit_two_pow_sub_one]
    rcases Nat.lt_trichotomy i j with hlt | rfl | hgt
    · have hle : (i + 1) * bits ≤ j * bits := Nat.mul_le_mul_right _ hlt
      rw [Nat.add_mul] at hle
      have hne : ¬ j * bits ≤ i * bits + b := by omega
      simp [hne, Nat.ne_of_lt hlt]
    · simp [hb]
    · have hle : (j + 1) * bits ≤ i * bits := Nat.mul_le_mul_right _ hgt
      rw [Nat.add_mul] at hle
      have hne : ¬ i * bits + b - j * bits < bits := by omega
      simp [hne, Nat.ne_of_gt hgt]
  · obtain rfl : i = j := by simpa using ho
    simp [Nat.testBit_mul_two_pow, Nat.testBit_mod_two_pow, hb]

/-- What VINS puts (R132). -/
theorem exec_vins (h : Hdr) (ty : ETy) (d : VReg) (a b : GReg) (s : State) : exec (.vins h ty d a b) s =
    issueV h (s.gT a :: s.gT b :: s.vT d) (s.vT d) (fun t =>
      let j := (t.g b).toNat % etyLanes ty
      .done (t.putV d ((2 ^ etyBits ty - 1) * 2 ^ (j * etyBits ty)) ((t.g a).toNat % 2 ^ etyBits ty * 2 ^ (j * etyBits ty)) (some vecLat))) s := rfl

/-! Cells and hashes -/

/-- The cell of an exact value: its floor, kept between 0 and `hi` (R142). -/
theorem clamp_cellFloor (hi : Nat) (x : XVal) :
    (if cellFloor hi x < 0 then 0 else Nat.min (cellFloor hi x).toNat hi) = match x with
      | .nan => 0
      | .inf neg => if neg then 0 else hi
      | .num neg n d _ => if neg then 0 else min (n / d) hi := by
  cases x with
  | nan => exact Nat.zero_min hi
  | inf neg =>
    cases neg with
    | true => rfl
    | false =>
      have hnot : ¬ (hi : Int) + 1 < 0 := by omega
      have hmin : Nat.min ((hi : Int) + 1).toNat hi = hi := Nat.min_eq_right (by omega)
      simp only [cellFloor, Bool.false_eq_true, if_false, if_neg hnot, hmin]
  | num neg n d st =>
    cases neg with
    | true => simp only [cellFloor, if_true, Int.toNat_neg_natCast, Nat.min_def, Nat.zero_le, ite_self]
    | false =>
      simp only [cellFloor, Bool.false_eq_true, if_false, if_neg (Int.not_lt.2 (Int.natCast_nonneg (n / d))), Int.toNat_natCast]

/-- A product of words by the low bits of naturals. -/
theorem toNat_ofNat_mul_ofNat (n x p : Nat) : (BitVec.ofNat n x * BitVec.ofNat n p).toNat = x * p % 2 ^ n := by
  rw [← BitVec.ofNat_mul, BitVec.toNat_ofNat]

/-- The hash of three words with machine products (R143). -/
theorem hash3_eq (w a b c : Nat) : hash3 w a b c =
    (BitVec.ofNat 32 a * BitVec.ofNat 32 73856093 ^^^ BitVec.ofNat 32 b * BitVec.ofNat 32 19349663 ^^^
      BitVec.ofNat 32 c * BitVec.ofNat 32 83492791).toNat % 2 ^ w := by
  rw [BitVec.toNat_xor, BitVec.toNat_xor, toNat_ofNat_mul_ofNat, toNat_ofNat_mul_ofNat, toNat_ofNat_mul_ofNat]
  rfl

/-- What VCELL puts (R142). -/
theorem exec_vcell (h : Hdr) (k : KReg) (d a : VReg) (b c : GReg) (s : State) : exec (.vcell h k d a b c) s =
    issueV h (kT k :: s.gT b :: s.gT c :: s.vT a) (s.vT d) (fun t =>
      .done (t.putV d (laneMask 32 (activity (t.kreg k) 512 1)) (packLanes 32 ((lanesOf 32 512 (t.v a)).map (fun x =>
        let hi := if (t.g c).toNat % 2 ^ 32 = 0 then 2 ^ 31 - 1 else (t.g c).toNat % 2 ^ 32 - 1
        let v := cellFloor hi (xMul (xAdd false (xOf .f32 x) (xOf .f32 ((t.g b).toNat % 2 ^ 32)).flip) (xOf .f32 ((t.g b).toNat / 2 ^ 32)))
        if v < 0 then 0 else Nat.min v.toNat hi))) (some vecLat))) s := by
  change execVcell h k d a b c s = _
  unfold execVcell
  rfl

/-- What VHASH3 puts (R143). -/
theorem exec_vhash3 (h : Hdr) (k : KReg) (w : BitVec 6) (d a b c : VReg) (s : State) : exec (.vhash3 h k w d a b c) s =
    issueV h (kT k :: (s.vT a ++ s.vT b ++ s.vT c)) (s.vT d) (fun t =>
      .done (t.putV d (laneMask 32 (activity (t.kreg k) 512 1))
        (packLanes 32 (List.zipWith (fun x p => hash3 w.toNat x p.1 p.2) (lanesOf 32 512 (t.v a))
          ((lanesOf 32 512 (t.v b)).zip (lanesOf 32 512 (t.v c))))) (some vecLat))) s := by
  change execVhash3 h k w d a b c s = _
  unfold execVhash3
  simp only [List.flatMap_cons, List.flatMap_nil, List.append_nil, List.append_assoc]

/-! Interleaved bits -/

/-- An element of blocks of `m` elements put one after another. -/
theorem getD_flatMap_blocks {α β : Type} {f : α → List β} {m : Nat} (l : List α) (hf : ∀ x ∈ l, (f x).length = m) {i j : Nat} (hi : i < m)
    (hj : j < l.length) (e : β) : (l.flatMap f).getD (m * j + i) e = (f l[j]).getD i e := by
  induction l generalizing j with
  | nil => simp at hj
  | cons x l ih =>
    have hx : (f x).length = m := hf x (List.mem_cons_self ..)
    rw [List.flatMap_cons]
    cases j with
    | zero =>
      rw [List.getD_eq_getElem?_getD, List.getElem?_append_left (by omega), Nat.mul_zero, Nat.zero_add, ← List.getD_eq_getElem?_getD]
      rfl
    | succ j =>
      have hpast : m * (j + 1) + i = (f x).length + (m * j + i) := by rw [Nat.mul_succ]; omega
      rw [List.getD_eq_getElem?_getD, hpast, List.getElem?_append_right (Nat.le_add_right ..), Nat.add_sub_cancel_left,
        ← List.getD_eq_getElem?_getD, ih (fun y hy => hf y (List.mem_cons_of_mem _ hy)) (Nat.lt_of_succ_lt_succ hj)]
      rfl

theorem length_flatMap_blocks {α β : Type} {f : α → List β} {m : Nat} (l : List α) (hf : ∀ x, (f x).length = m) :
    (l.flatMap f).length = l.length * m := by
  induction l with
  | nil => rw [List.flatMap_nil, List.length_nil, List.length_nil, Nat.zero_mul]
  | cons x l ih => rw [List.flatMap_cons, List.length_append, ih, hf, List.length_cons, Nat.succ_mul, Nat.add_comm]

/-- Bit `j` of source `i` among interleaved bits (R144). -/
theorem testBit_interleave {n : Nat} {xs : List Nat} {i j : Nat} (hi : i < xs.length) (hj : j < n) :
    (interleave n xs).testBit (xs.length * j + i) = (xs.getD i 0).testBit j := by
  have hbit := testBit_packLanes (bits := 1) ((List.range n).flatMap (fun j => xs.map (fun x => x / 2 ^ j % 2)))
    (i := xs.length * j + i) (j := 0) (by decide)
  rw [Nat.mul_one, Nat.add_zero, getD_flatMap_blocks _ (fun _ _ => List.length_map _) hi (by simpa using hj), getD_map _ _ _ 0 0 hi,
    List.getElem_range] at hbit
  rw [interleave, hbit, Nat.testBit_zero, Nat.mod_mod, Nat.testBit_eq_decide_div_mod_eq]

/-- No bit stands above the interleaved ones. -/
theorem testBit_interleave_above {n : Nat} {xs : List Nat} {i : Nat} (hi : n * xs.length ≤ i) : (interleave n xs).testBit i = false := by
  have hlen : ((List.range n).flatMap (fun j => xs.map (fun x => x / 2 ^ j % 2))).length = n * xs.length := by
    rw [length_flatMap_blocks _ (fun _ => List.length_map _), List.length_range]
  have hlt := packLanes_lt 1 ((List.range n).flatMap (fun j => xs.map (fun x => x / 2 ^ j % 2)))
  rw [hlen, Nat.one_mul] at hlt
  exact Nat.testBit_lt_two_pow (Nat.lt_of_lt_of_le hlt (Nat.pow_le_pow_right (by decide) hi))

/-- What VMORTON puts of two sources (R144). -/
theorem exec_vmorton2 (h : Hdr) (k : KReg) (d a b : VReg) (s : State) : exec (.vmorton h k d a b .c2) s =
    issueV h (kT k :: (s.vT a ++ s.vT b)) (s.vT d) (fun t =>
      .done (t.putV d (laneMask 32 (activity (t.kreg k) 512 1))
        (packLanes 32 ((List.range 512).map (fun i => interleave 16 [lane 32 (t.v a) i, lane 32 (t.v b) i]))) (some vecLat))) s := by
  change execVmorton h k d a b .c2 s = _
  unfold execVmorton
  simp only [List.flatMap_cons, List.flatMap_nil, List.append_nil]

/-- What VMORTON puts of three sources (R144). -/
theorem exec_vmorton3 (h : Hdr) (k : KReg) (d a b c : VReg) (s : State) : exec (.vmorton h k d a b (.c3 c)) s =
    issueV h (kT k :: (s.vT a ++ s.vT b ++ s.vT c)) (s.vT d) (fun t =>
      .done (t.putV d (laneMask 32 (activity (t.kreg k) 512 1))
        (packLanes 32 ((List.range 512).map (fun i => interleave 10 [lane 32 (t.v a) i, lane 32 (t.v b) i, lane 32 (t.v c) i]))) (some vecLat))) s := by
  change execVmorton h k d a b (.c3 c) s = _
  unfold execVmorton
  simp only [List.flatMap_cons, List.flatMap_nil, List.append_nil, List.append_assoc]
/-- VMORTON of two sources writes the interleaved bits of each active lane. -/
theorem vmorton2_puts (h : Hdr) (k : KReg) (d a b : VReg) (s : State) :
    PutsLanes h (kT k :: (s.vT a ++ s.vT b) ++ s.vT d) (.vmorton h k d a b .c2) s 32 512 (fun t => t.bit k) (some 4) d
      (fun t i => interleave 16 [lane 32 (t.v a) i, lane 32 (t.v b) i]) :=
  bitRange_puts (exec_vmorton2 h k d a b s) (fun _ _ _ => rfl)

/-- VMORTON of three sources writes the interleaved bits of each active lane. -/
theorem vmorton3_puts (h : Hdr) (k : KReg) (d a b c : VReg) (s : State) :
    PutsLanes h (kT k :: (s.vT a ++ s.vT b ++ s.vT c) ++ s.vT d) (.vmorton h k d a b (.c3 c)) s 32 512 (fun t => t.bit k) (some 4) d
      (fun t i => interleave 10 [lane 32 (t.v a) i, lane 32 (t.v b) i, lane 32 (t.v c) i]) :=
  bitRange_puts (exec_vmorton3 h k d a b c s) (fun _ _ _ => rfl)

end Sys2Proof.Machine

namespace Sys2Proof.Settled
open Sys2Proof.Machine

/-- Settles O23: each form writes lanes that it computes from their numbers or lane by lane from its sources. -/
theorem vectorMoves : Obligations.VectorMoves := by
  refine ⟨⟨fun h k ty d a s => ⟨?_, ?_⟩, fun h k ty d a op s => ?_, fun h ty d a b s => ?_, fun h ty d a b s => ?_⟩,
    fun h k d a b c s => ?_, fun h k w d a b c s => ?_, fun h k d a b s hm ho => ?_, fun h k d a b c s hm ho => ?_⟩
  · exact fromScalar_puts (g := fun x _ => x) rfl
  · exact fromScalar_puts (g := fun x j => x + j) rfl
  · refine bitRange_puts (exec_vperm h k ty d a op s) (fun t j _ => ?_)
    cases op <;> rfl
  · exact completesV_body (rfl : exec (.vext h ty d a b) s = execVext h ty d a b s)
  · exact putsLanes_of (exec_vins h ty d a b s) (fun t => writesLanes_single (Nat.mod_lt _ (etyLanes_pos ty)) _)
  · refine bitOp_puts (exec_vcell h k d a b c s) (fun t j hj => ?_)
    rw [getD_map _ _ _ 0 0 (by rw [lanesOf_length]; exact hj), getD_lanesOf hj]
    exact congrArg (· % 2 ^ 32) (clamp_cellFloor _ _)
  · refine bitOp_puts (exec_vhash3 h k w d a b c s) (fun t j hj => ?_)
    rw [getD_zipWith _ _ _ _ 0 (0, 0) 0 (by rw [lanesOf_length]; exact hj) (by simpa [lanesOf_length] using hj),
      getD_zip _ _ _ _ _ (by rw [lanesOf_length]; exact hj) (by rw [lanesOf_length]; exact hj),
      getD_lanesOf hj, getD_lanesOf hj, getD_lanesOf hj]
    exact congrArg (· % 2 ^ 32) (hash3_eq _ _ _ _)
  · obtain ⟨mask, value, hexec, hwrites⟩ := vmorton2_puts h k d a b s hm ho
    refine ⟨mask, value, hexec, _, hwrites, fun i _ j hj => ⟨?_, ?_⟩⟩
    · exact testBit_interleave (i := 0) (by simp) hj
    · exact testBit_interleave (i := 1) (by simp) hj
  · obtain ⟨mask, value, hexec, hwrites⟩ := vmorton3_puts h k d a b c s hm ho
    refine ⟨mask, value, hexec, _, hwrites, fun i _ => ⟨?_, ?_, fun j hj => ⟨?_, ?_, ?_⟩⟩⟩
    · exact testBit_interleave_above (by simp)
    · exact testBit_interleave_above (by simp)
    · exact testBit_interleave (i := 0) (by simp) hj
    · exact testBit_interleave (i := 1) (by simp) hj
    · exact testBit_interleave (i := 2) (by simp) hj

end Sys2Proof.Settled
end

section
/-! SUPPORT. A tile load from memory whose addresses do not rise (R149, R150). -/
namespace Sys2Proof.Machine

/-- A result under way of variable latency, as `State.putAll` puts it. -/
def lateResult (r : Target × Nat × Nat) : Pend := { target := r.1, mask := r.2.1, value := r.2.2, ready := none }

/-- Results put one after another stand under way in their order, and nothing else changes in the core. -/
theorem State.putAll_core (u : State) (rs : List (Target × Nat × Nat)) :
    (u.putAll rs).core u.cur.core = { u.core u.cur.core with pend := (u.core u.cur.core).pend ++ rs.map lateResult } := by
  induction rs generalizing u with
  | nil => simp [State.putAll]
  | cons r rs ih =>
    have hput : (u.put u.cur.core r.1 r.2.1 r.2.2 none).core u.cur.core =
        { u.core u.cur.core with pend := (u.core u.cur.core).pend ++ [lateResult r] } := State.core_modCore_self ..
    refine (ih (u.put u.cur.core r.1 r.2.1 r.2.2 none)).trans ?_
    rw [State.put_cur, hput, List.map_cons, List.append_assoc, List.singleton_append]

theorem State.putAll_cur (u : State) (rs : List (Target × Nat × Nat)) : (u.putAll rs).cur = u.cur := by
  induction rs generalizing u with
  | nil => rfl
  | cons r rs ih => exact ih _

/-- The youngest result after an instruction that completes with results of variable latency is its last one. -/
theorem youngestValue_putAll {u : State} (hc : u.cur.core = 0) (hp : (u.ctx u.cur.core u.cur.role).push = [])
    {rs : List (Target × Nat × Nat)} {r : Target × Nat × Nat} (hr : rs.getLast? = some r) (h : Hdr) (npc : Word) (b : Nat) :
    youngestValue (.next ((u.putAll rs).finish h [] npc b)) = some r.2.2 := by
  have hq : ((u.putAll rs).ctx (u.putAll rs).cur.core (u.putAll rs).cur.role).push = [] := by
    rw [State.putAll_cur]
    unfold State.ctx
    rw [State.putAll_core, Core.ctx_pend]
    exact hp
  have hcore := State.finish_quiet_core hq h npc b
  rw [State.putAll_cur, hc] at hcore
  unfold youngestValue
  dsimp only
  rw [hcore, Core.setCtx_pend, ← hc, State.putAll_core]
  simp [hr, lateResult]

/-- Tile 0 has one scaled row of 64 e4m3 elements; memory lists the bytes at 1, 0 and 2 of the scratchpad in this order, so it is not in
canonical form. -/
def unsortedTile : State :=
  { unsorted.modCore 0 (fun k => k.setReg 0x008 0x40FC17) with mem := [(spAddr 0 1, 1), (spAddr 0 0, 1), (spAddr 0 2, 1)] }

/-- The shape of tile 0. -/
def unsortedShape : Shape := unsortedTile.shape unsortedTile.cur.core (0 : TReg).toNat

/-- What TLD makes unavailable where it loads tile 0 at the address and with the pitch in G0. -/
def tileTargets : List Target := [unsortedTile.gT 0, unsortedTile.gT 0] ++ tileTs (0 : TReg).toNat unsortedShape.rows

/-- The state on which TLD computes its effect. -/
def unsortedTileIssued : State := unsortedTile.atIssue plainHdr tileTargets

theorem unsortedShape_eq : unsortedShape = { ew := .e4m3, rows := 1, cols := 64, scaled := true } := by decide +kernel

theorem unsortedTile_mayIssue : unsortedTile.mayIssue plainHdr .comp tileTargets = true := by decide +kernel

/-- The place of the image and its pitch are 0, and both transfers lie in the range. -/
theorem unsortedTile_fine : (unsortedTileIssued.g 0 + (0 : BitVec 16).signExtend 64).toNat % 32 = 0 ∧ (unsortedTileIssued.g 0).toNat % 32 = 0 ∧
    ∀ q ∈ unsortedShape.plan (unsortedTileIssued.g 0).toNat, unsortedTileIssued.spCheck unsortedTileIssued.cur.core unsortedTileIssued.cur.role
      (unsortedTileIssued.g 0 + (0 : BitVec 16).signExtend 64 + BitVec.ofNat 64 q.1) q.2.1 1 = none := by decide +kernel

theorem unsortedTile_mayRead : unsortedTileIssued.mayRead ((unsortedShape.plan (unsortedTileIssued.g 0).toNat).flatMap (fun q =>
    unsortedTileIssued.spAt 0 (unsortedTileIssued.g 0 + (0 : BitVec 16).signExtend 64 + BitVec.ofNat 64 q.1) q.2.1)) := by
  unfold State.mayRead
  decide +kernel

/-- The run of 4 bytes that TLD reads for the containers stops at the disorder and misses byte 2, the low byte of container 1. -/
theorem unsortedTile_missed : (youngestValue (exec (.tld plainHdr 0 0 0 0 0) unsortedTile)).map (lane 16 · 1) = some 0 := by decide +kernel

/-- A read of the two bytes of container 1 finds byte 2. -/
theorem unsortedTile_container : leNat (unsortedTileIssued.spRead unsortedTileIssued.cur.core 0
    (unsortedTileIssued.g 0 + (0 : BitVec 16).signExtend 64 +
      BitVec.ofNat 64 (unsortedShape.rows * (unsortedTileIssued.g 0).toNat + 128 * 0 + 2 * 1)).toNat 2) % 1024 = 1 := by decide +kernel

end Sys2Proof.Machine

namespace Sys2Proof.Settled
open Sys2Proof.Machine

/-- Refutes O26: its clause on TLD asks for no canonical memory, and in `unsortedTile` container 1 of the row does not get the two bytes at
its address. -/
theorem not_tiles : ¬ Obligations.Tiles := by
  rintro ⟨⟨hload, -⟩, -⟩
  obtain ⟨rs, hexec, hlength, hrows⟩ := hload plainHdr 0 0 0 0 0 unsortedTile unsortedTile_mayIssue (by decide +kernel)
    unsortedTile_fine unsortedTile_mayRead
  change rs.length = unsortedShape.rows + (if unsortedShape.scaled then unsortedShape.rows else 0) at hlength
  change ∀ r, r < unsortedShape.rows → _ ∧ (unsortedShape.scaled = true → ∃ v, rs[unsortedShape.rows + r]? = _ ∧ _) at hrows
  obtain ⟨-, hside⟩ := hrows 0 (by rw [unsortedShape_eq]; decide)
  obtain ⟨v, hv, hlanes⟩ := hside (by rw [unsortedShape_eq])
  have hlane : lane 16 v 1 = 1 := (hlanes 1 (by decide +kernel)).trans unsortedTile_container
  have hlast : rs.getLast? = some (.side (32 * (0 : TReg).toNat + 0), 2 ^ (16 * unsortedShape.blocks) - 1, v) := by
    rw [List.getLast?_eq_getElem?, hlength, unsortedShape_eq]
    rw [unsortedShape_eq] at hv
    exact hv
  have hvalue : youngestValue (exec (.tld plainHdr 0 0 0 0 0) unsortedTile) = some v := by
    rw [hexec]
    exact youngestValue_putAll (by decide +kernel) (by decide +kernel) hlast ..
  have hmissed := unsortedTile_missed
  rw [hvalue] at hmissed
  simp [hlane] at hmissed

end Sys2Proof.Settled
end

section
/-! SUPPORT. A pop of records from memory whose addresses do not rise (R196). -/
namespace Sys2Proof.Machine

/-- The value of the result that is next to the youngest one pending on core 0: a pop gives its row before its mask. -/
def secondYoungestValue : Out → Option Nat
  | .next t => (t.core 0).pend.reverse[1]?.map Pend.value
  | _ => none

theorem Core.ctx_setReg (k : Core) (n : Nat) (w : Word) (r : Role) : (k.setReg n w).ctx r = k.ctx r := by cases r <;> rfl

/-- What a pop leaves of the state `u`: a row and a mask under way, and the stream's new descriptor (R196). -/
def State.popped (u : State) (d : VReg) (a : KReg) (mask value km kv n : Nat) (sd : Stream) : State :=
  ((u.putV d mask value none).putK a km kv none).setStream n sd

/-- The row and the mask of a pop are under way as the youngest results, in this order. -/
theorem State.popped_pend (u : State) (d : VReg) {a : KReg} (ha : a ≠ 0) (mask value km kv n : Nat) (sd : Stream) :
    ((u.popped d a mask value km kv n sd).core u.cur.core).pend = (u.core u.cur.core).pend ++
      [{ target := .row (u.issued.rowOf d), mask := mask, value := value, ready := none },
       { target := kT a, mask := km, value := kv, ready := none }] := by
  unfold State.popped State.setStream State.putK State.putV State.put
  rw [if_neg ha]
  simp [Core.setReg]

theorem State.popped_ctx (u : State) (d : VReg) {a : KReg} (ha : a ≠ 0) (mask value km kv n : Nat) (sd : Stream) (r : Role) :
    (u.popped d a mask value km kv n sd).ctx u.cur.core r = u.ctx u.cur.core r := by
  unfold State.popped State.setStream State.putK State.putV State.put State.ctx
  rw [if_neg ha]
  simp [Core.ctx_setReg]

/-- The result next to the youngest one after a pop that completes is its row. -/
theorem secondYoungestValue_popped {u : State} (hc : u.cur.core = 0) (hp : (u.ctx u.cur.core u.cur.role).push = []) (d : VReg) {a : KReg}
    (ha : a ≠ 0) (mask value km kv n : Nat) (sd : Stream) (h : Hdr) (npc : Word) (b : Nat) :
    secondYoungestValue (.next ((u.popped d a mask value km kv n sd).finish h [] npc b)) = some value := by
  have hcur : (u.popped d a mask value km kv n sd).cur = u.cur := by
    unfold State.popped State.putK
    rw [if_neg ha]
    rfl
  have hquiet : ((u.popped d a mask value km kv n sd).ctx (u.popped d a mask value km kv n sd).cur.core
      (u.popped d a mask value km kv n sd).cur.role).push = [] := by
    rw [hcur, State.popped_ctx u d ha]
    exact hp
  have hcore := State.finish_quiet_core hquiet h npc b
  rw [hcur, hc] at hcore
  unfold secondYoungestValue
  dsimp only
  rw [hcore, Core.setCtx_pend, ← hc, State.popped_pend u d ha]
  simp

/-! A pop of three words -/

/-- K0 marks every lane (R11). -/
theorem State.bit_zero (s : State) {i : Nat} (hi : i < 2048) : s.bit 0 i = true := by
  have hk : s.kreg 0 = BitVec.allOnes 2048 := rfl
  unfold State.bit
  rw [hk, BitVec.getLsbD_allOnes]
  exact decide_eq_true hi

theorem State.countOn_bit_zero (s : State) {n : Nat} (hn : n ≤ 2048) : countOn (s.bit 0) n = n := by
  unfold countOn
  rw [List.filter_eq_self.mpr fun i hi => s.bit_zero (Nat.lt_of_lt_of_le (List.mem_range.mp hi) hn), List.length_range]

/-- A stream of words at the bottom of the scratchpad that holds three. -/
def threeWords : Stream := { tail := 3, head := 0, rows := 1, base := 0, esz := 2 }

/-- The bytes that a pop of them reads on core `c`. -/
def threeWordsAt (c : Nat) : List (Nat × Nat) := [(spAddr c (threeWords.at threeWords.head), 3 * 2 ^ threeWords.esz)]

/-- What SPOP makes unavailable where it deals to the lanes of V0 under K0 and marks them in K1. -/
def State.popTargets (s : State) : List Target := [kT 0] ++ (kT 1 :: s.vT 0)

/-- The state on which this SPOP computes its effect. -/
def State.popIssued (s : State) : State := s.atIssue plainHdr s.popTargets

/-- The state in which it has recorded its access to three words. -/
def State.popRecorded (s : State) : State :=
  s.popIssued.record (s.popIssued.myAccess false (threeWordsAt s.popIssued.cur.core))

/-- Core 0 may issue it, nothing refuses its access to three words, and no push of the context waits. -/
structure PopsThreeWords (s : State) : Prop where
  issues : s.mayIssue plainHdr .comp s.popTargets = true
  tile : s.popIssued.tileOk s.popIssued.cur.core (s.popIssued.core s.popIssued.cur.core).accsel = true
  stream : s.popIssued.stream (0 : BitVec 3).toNat = threeWords
  inside : ∀ i, i < 3 → s.popIssued.spCheck s.popIssued.cur.core s.popIssued.cur.role
    (BitVec.ofNat 64 (threeWords.at (threeWords.head + i))) (2 ^ threeWords.esz) 1 = none
  reads : s.popIssued.mayRead (threeWordsAt s.popIssued.cur.core)
  core : s.popRecorded.cur.core = 0
  quiet : (s.popRecorded.ctx s.popRecorded.cur.core s.popRecorded.cur.role).push = []

/-- What the statement says of bit 0 of lane 2 of such a pop: it is bit 0 of the third word. -/
theorem PopsThreeWords.lane_two (hob : Obligations.StreamsAndQueues) {s : State} (hs : PopsThreeWords s) :
    (secondYoungestValue (exec (.spop plainHdr 0 .i32 0 0 1) s)).map (·.testBit 64) =
      some ((leNat (s.popIssued.raw (spAddr s.popIssued.cur.core (threeWords.at 2)) (2 ^ threeWords.esz))).testBit 0) := by
  obtain ⟨hissue, htile, hstream, hinside, hread, hcore, hquiet⟩ := hs
  have hdeals : min (countOn (s.popIssued.bit 0) (etyLanes .i32)) (threeWords.tail - threeWords.head) = 3 := by
    rw [State.countOn_bit_zero _ (by decide)]
    rfl
  obtain ⟨⟨-, -, hpop, -⟩, -⟩ := hob
  specialize hpop plainHdr 0 .i32 0 0 1 s (by decide) hissue
  have hissued : s.atIssue plainHdr ([kT 0] ++ kT 1 :: s.vT 0) = s.popIssued := rfl
  dsimp only at hpop
  rw [hissued, hstream, hdeals] at hpop
  obtain ⟨u, mask, value, kv, hexec, hu, ⟨-, hlanes⟩, -⟩ := hpop htile (by decide) hinside hread
  have hrecorded : u = s.popRecorded := hu
  subst hrecorded
  have hvalue : secondYoungestValue (exec (.spop plainHdr 0 .i32 0 0 1) s) = some value := by
    rw [hexec]
    exact secondYoungestValue_popped hcore hquiet 0 (by decide) ..
  have hrank : countOn (s.popIssued.bit 0) 2 = 2 := s.popIssued.countOn_bit_zero (by decide)
  have htakes : (s.popIssued.bit 0 2 && decide (countOn (s.popIssued.bit 0) 2 < threeWords.tail - threeWords.head)) = true := by
    rw [hrank, s.popIssued.bit_zero (by decide)]
    rfl
  obtain ⟨-, hword⟩ := hlanes 2 (by decide) 0 (by decide)
  have hbit : value.testBit 64 = (leNat (s.popIssued.raw (spAddr s.popIssued.cur.core
    (threeWords.at (threeWords.head + countOn (s.popIssued.bit 0) 2))) (2 ^ threeWords.esz))).testBit 0 := hword htakes
  rw [hrank] at hbit
  rw [hvalue]
  exact congrArg some hbit

/-! Such a pop over memory that is not in canonical form -/

/-- Stream 0 holds three words, at 0, 4 and 8 of the scratchpad. -/
def unsortedStream : State := unsorted.modCore 0 (fun k => k.setReg 0x110 threeWords.word)

theorem unsortedStream_reads : unsortedStream.popIssued.mayRead (threeWordsAt unsortedStream.popIssued.cur.core) := by
  unfold State.mayRead
  decide +kernel

theorem unsortedStream_stream : unsortedStream.popIssued.stream (0 : BitVec 3).toNat = threeWords := by
  simp only [State.stream, streamOf, threeWords, Stream.mk.injEq]
  decide +kernel

theorem unsortedStream_pops : PopsThreeWords unsortedStream where
  issues := by decide +kernel
  tile := by decide +kernel
  stream := unsortedStream_stream
  inside := by decide +kernel
  reads := unsortedStream_reads
  core := by decide +kernel
  quiet := by decide +kernel

/-- The run of 12 bytes that SPOP reads stops at the disorder and misses byte 8, the low byte of the third word. -/
theorem unsortedStream_missed : (secondYoungestValue (exec (.spop plainHdr 0 .i32 0 0 1) unsortedStream)).map (·.testBit 64) = some false := by
  decide +kernel

/-- A read of the third word alone finds byte 8. -/
theorem unsortedStream_word : (leNat (unsortedStream.popIssued.raw (spAddr unsortedStream.popIssued.cur.core (threeWords.at 2))
    (2 ^ threeWords.esz))).testBit 0 = true := by decide +kernel

end Sys2Proof.Machine

namespace Sys2Proof.Settled
open Sys2Proof.Machine

/-- Refutes O29: its clause on SPOP asks for no canonical memory, and in `unsortedStream` lane 2 of the row does not get the third word,
which is dealt to it. -/
theorem not_streamsAndQueues : ¬ Obligations.StreamsAndQueues := by
  intro hob
  have hlane := unsortedStream_pops.lane_two hob
  rw [unsortedStream_missed, unsortedStream_word] at hlane
  simp at hlane

end Sys2Proof.Settled
end
